-- ==== Sys2Proof/Word.lean ====
section
/-! DEFINITION. The data types every layer shares: words, bytes, three-valued samples, the sparse map type, and the
bounded unit numbers of R19 (spec/01_organization.md). -/
namespace Sys2Proof

/-- A 32-bit register word (R4). -/
abbrev Word := BitVec 32

/-- A byte of memory. -/
abbrev Byte := BitVec 8

/-- A sparse map: key and value pairs, keys strictly rising. -/
abbrev Map (α : Type) := List (Nat × α)

/-- A comparator sample: below, above, or X (no settled answer), R37 to R40. -/
inductive Trit | below | above | x
deriving DecidableEq, Repr

/-- A tile number (R19). -/
abbrev TileIx := Fin 48
/-- A physical slice of a tile (R19). -/
abbrev SliceIx := Fin 18
/-- A channel position of a tile (R19). -/
abbrev PosIx := Fin 16
/-- A sector, which is also a pin die (R19). -/
abbrev SectorIx := Fin 4
/-- A teller (R19). -/
abbrev TellerIx := Fin 192
/-- A site (R20). -/
abbrev SiteIx := Fin 256
/-- A submission or completion ring (R263). -/
abbrev RingIx := Fin 256
/-- An event ring (R263). -/
abbrev EvrIx := Fin 4
/-- A DMA context (R295). -/
abbrev CtxIx := Fin 64
/-- A pseudo-channel, 2h + pc (R407). -/
abbrev PcIx := Fin 32
/-- A level bank of a slice (R45). -/
abbrev BankIx := Fin 4

end Sys2Proof
end

