-- ==== Sys2Proof/Syntax.lean ====
section
/-! DEFINITION. The commands the block takes: one constructor per row of spec/opcode_table.json, with the operands the
spec gives the operation or event (units, values, and what the outside world supplies: sampled values, times of
arrival, bytes). -/
namespace Sys2Proof

/-- The host's answer to the oldest matching Translation Request (R290, R303). -/
inductive XltAnswer
  /-- a translation: virtual base, log2 of the size, physical base, read and write permission -/
  | present (va : Nat) (size : Nat) (pa : Nat) (r : Bool) (w : Bool)
  /-- Unsupported Request or Completer Abort -/
  | failed
deriving DecidableEq, Repr

/-- The host's answer to a page request group (R306). -/
inductive PrgResponse | success | invalid | failure
deriving DecidableEq, Repr

/-- The ECC judgement of a read (R328, R329). -/
inductive EccResult | good | corrected | uncorrectable
deriving DecidableEq, Repr

/-- What a calibration item measured on a unit (R370): item bit, figure, eye width, and the words of the new trims. -/
structure CalResult where
  item : Nat
  fig : Nat
  eye : Nat
  trims : List Nat
deriving DecidableEq, Repr

/-- The ball of the trigger line moves from voltage v0 to v1 (nV), crossing at τ (R164). -/
structure LineMove where
  tau : Nat
  v0 : Int
  v1 : Int
deriving DecidableEq, Repr

/-- A comparator's outputs change at τ from (hi0, lo0) to (hi1, lo1) (R42, R163). -/
structure OutputMove where
  tau : Nat
  hi0 : Trit
  lo0 : Trit
  hi1 : Trit
  lo1 : Trit
deriving DecidableEq, Repr

/-- A read of the refill engine (R103): the bytes that may come, and whether the host answers it, where it reads host memory. -/
structure RefillRead where
  count : Nat
  ok : Bool
deriving DecidableEq, Repr

/-- A frame of the Fjarvor ring (R348): 64 bytes. -/
abbrev Frame := List Nat

/-- The PEC byte of a sideband write (R443). -/
inductive Pec | absent | good | bad
deriving DecidableEq, Repr


/-- The commands of the block: one constructor per row of spec/opcode_table.json. -/
inductive Instr
  /-- REGISTER_WRITE (R10): A write to a register field that has no row of its own takes effect, is shadowed or is ignored according to the field's class and the block's running state. -/
  | registerWrite (off : Nat) (v : Word) (be : Nat)
  /-- UPPER_LATCH_TIMEOUT (R4): The upper half of a 64-bit register pair, latched by a read of the lower half, is released after 1 µs without a read. -/
  | upperLatchTimeout (off : Nat)
  /-- TILE_LANE_TRANSFER (R16): A tile-lane transfer arrives; if its CRC fails it is sent once more, and a second failure raises the tile lane fault. -/
  | tileLaneTransfer (t : TileIx) (up : Bool) (vec : Nat) (ok1 : Bool) (ok2 : Bool)
  /-- SECTOR_LANE_TRANSFER (R16): A sector-lane transfer arrives; if its CRC fails it is sent once more, and a second failure raises the sector lane fault. -/
  | sectorLaneTransfer (q : SectorIx) (up : Bool) (ok1 : Bool) (ok2 : Bool)
  /-- VECTOR_BOUNDARY (R65): The phase accumulator carries and starts vector N; the pin die applies the vector, or the hold vector if the vector is absent, and places frets. -/
  | vectorBoundary (t : TileIx)
  /-- DRIVER_OVERCURRENT (R36): Driver current above 100 mA for more than 1 µs puts the slice in the safe state and raises the overcurrent detector. -/
  | driverOvercurrent (t : TileIx) (p : SliceIx)
  /-- CLAMP_OVERCURRENT (R44): Clamp current beyond its limit for more than 1 µs is handled as a driver overcurrent. -/
  | clampOvercurrent (t : TileIx) (p : SliceIx) (high : Bool)
  /-- CMP_SETTLED (R38): A continuous comparator has been powered for 500 ns, and CMP_RDY is set. -/
  | cmpSettled (t : TileIx) (p : SliceIx)
  /-- SAMPLED_TICK (R39): A sampled-mode tick takes one sample per threshold and updates the majority filter, with its edges, events and wakes. -/
  | sampledTick (t : TileIx) (p : SliceIx) (high : Trit) (low : Trit)
  /-- CMP_EDGE (R42): An edge of the selected comparator source sets EVT and, as enabled, posts an event or wakes the Vault. -/
  | cmpEdge (t : TileIx) (p : SliceIx) (high : Trit) (low : Trit)
  /-- BANK_SELECT_WRITE (R48): A write of CHN_BANK_SEL requests a bank switch, which starts at once, glides, or is queued behind a running glide. -/
  | bankSelectWrite (t : TileIx) (p : SliceIx) (b : BankIx)
  /-- BANK_FIELD_WRITE (R46): A write to a bank level is stored, steps the level of the selected bank, or waits for the next switch if a glide uses the bank. -/
  | bankFieldWrite (t : TileIx) (p : SliceIx) (b : BankIx) (f : Fin 11) (v : Word)
  /-- GLIDE_UPDATE (R48): A 100 ns glide update moves every bank field one step; the last update lands on the target and starts any queued switch. -/
  | glideUpdate (t : TileIx) (p : SliceIx)
  /-- PMU_CONNECT (R52): Writing CONNECT = 1 turns the driver off, disconnects the load and closes the PMU switch. -/
  | pmuConnect (t : TileIx) (p : SliceIx)
  /-- PMU_DISCONNECT (R54): Writing CONNECT = 0 aborts any running measurement and opens the PMU switch. -/
  | pmuDisconnect (t : TileIx) (p : SliceIx)
  /-- PMU_START (R52): A START write begins a settle and N conversions, or is ignored if the PMU is BUSY or refused if the drive lock is set. -/
  | pmuStart (t : TileIx) (p : SliceIx)
  /-- PMU_MEASURE_DONE (R52): The conversions of a PMU measurement end, the mean is stored in CHN_PMU_RES and DONE is set. -/
  | pmuMeasureDone (t : TileIx) (p : SliceIx) (conv : List Int) (limit : Option Bool) (clamped : Bool)
  /-- CONTACT_CHECK_START (R55): A CC_START write starts the fixed contact-check sequence on the slice. -/
  | contactCheckStart (t : TileIx) (p : SliceIx)
  /-- CONTACT_CHECK_DONE (R55): A contact check ends, judges VMEAS into PASS, OPEN or SHORT, updates the drive lock and restores the PMU fields. -/
  | contactCheckDone (t : TileIx) (p : SliceIx) (conv : List Int) (clamped : Bool)
  /-- SAFE_REQ (R58): A write of SAFE_REQ sets cause SC_SW and puts the slice in the safe state. -/
  | safeReq (t : TileIx) (p : SliceIx)
  /-- SAFE_REL (R60): A write of SAFE_REL clears SC_SW and releases the slice if no other cause bit is set. -/
  | safeRel (t : TileIx) (p : SliceIx)
  /-- DRV_OVC_CLEAR (R58): Writing 1 to DRV_OVC clears it together with cause SC_OVC. -/
  | drvOvcClear (t : TileIx) (p : SliceIx)
  /-- VCLK_ENABLE (R67): Writing EN = 1 starts the phase accumulator in phase with its law, or is refused when FTW is out of range. -/
  | vclkEnable (t : TileIx)
  /-- VCLK_DISABLE (R67): Writing EN = 0 stops boundaries, or is ignored while the sequencer is ARMED, RUN or HOLD. -/
  | vclkDisable (t : TileIx)
  /-- VCLK_ARM (R70): Writing ARM checks and arms a scheduled period change in every tile of the change. -/
  | vclkArm (t : TileIx)
  /-- VCLK_CANCEL (R70): Writing CANCEL withdraws a pending period change if its Tc is at least 2 µs ahead. -/
  | vclkCancel (t : TileIx)
  /-- SET_PERIOD (R69): The job writes NFTW and NTIME in the tiles of a gang, arms the change, and completes when the change applies. -/
  | setPeriod (j : Nat)
  /-- TDC_STOP (R80): A DUT edge that matches the stop spec is accepted as a TDC stop, or refused as LOST. -/
  | tdcStop (t : TileIx) (k : PosIx) (core : Fin 2) (edge : Fin 4) (ks : Nat) (code : Fin 1024) (undecided : Bool)
  /-- TDC_WINDOW_CLOSE (R80): A TDC window closes at its length or at NSTOP stops, and its record is judged and queued. -/
  | tdcWindowClose (t : TileIx) (k : PosIx) (core : Fin 2)
  /-- TDC_RECORD_WRITE (R86): A queued TDC record is drained and written to the TDC area of the fail ledger. -/
  | tdcRecordWrite (t : TileIx)
  /-- LOAD_PATTERN (R93): The job checks each tile's pattern image, loads it, and computes the refill margin. -/
  | loadPattern (j : Nat)
  /-- RUN_PATTERN (R110): The job checks a gang and arms it to start at Ts, after prefill. -/
  | runPattern (j : Nat)
  /-- TIL_SEQ_ARM (R111): Writing TIL_SEQ_CTL.ARM arms the tile as a gang of one with Ts from TIL_SEQ_START. -/
  | tilSeqArm (t : TileIx)
  /-- REFILL_DATA (R103): The refill engine delivers stream bytes into the stream area of a tile's FIFO. -/
  | refillData (t : TileIx) (r : RefillRead)
  /-- PREFILL_DEADLINE (R111): Prefill is incomplete 1 µs before Ts, and the gang returns to LOADED with ST_SEQ_PREFILL. -/
  | prefillDeadline (t : TileIx)
  /-- PATTERN_START (R111): The start vector is reached with prefill complete, and the gang enters RUN at segment 0. -/
  | patternStart (t : TileIx)
  /-- SEGMENT_END (R108): A segment's last vector passes, and dead time, a pending hold or a jump at boundary B follows. -/
  | segmentEnd (t : TileIx)
  /-- SEGMENT_START (R109): The first vector of a segment applies pending B writes, pulses TRIG_OUT, sends BCAST and counts SEGCNT. -/
  | segmentStart (t : TileIx)
  /-- TIL_SEQ_HOLD (R113): Writing TIL_SEQ_CTL.HOLD requests a host hold of the gang. -/
  | tilSeqHold (t : TileIx)
  /-- TIL_SEQ_RESUME (R113): Writing TIL_SEQ_CTL.RESUME ends a host hold, and the next segment starts at n_r + 8. -/
  | tilSeqResume (t : TileIx)
  /-- TIL_SEQ_ABORT (R114): Writing TIL_SEQ_CTL.ABORT latches an abort at n_r and starts the end sequence. -/
  | tilSeqAbort (t : TileIx)
  /-- TIL_SEQ_JUMP_GO (R116): Writing TIL_SEQ_JUMP.GO in the leader requests a jump to a resident segment. -/
  | tilSeqJumpGo (t : TileIx) (target : Nat)
  /-- END_SEQUENCE_DONE (R115): The four hold vectors of the end sequence pass, the gang returns to LOADED and the completion is written. -/
  | endSequenceDone (t : TileIx)
  /-- RETEST_ARM (R135): Once every remap is complete, the re-run is armed as the same gang with Ts = 0. -/
  | retestArm (t : TileIx)
  /-- COMPARE_RESULT (R126): A tagged compare result reaches the fail unit and updates site counters and flags, and forms ledger entries. -/
  | compareResult (t : TileIx) (tag : Nat) (samples : List (List (Trit × Trit)))
  /-- JOURNAL_WRITE (R131): The merge unit writes a queued entry to the site's journal, up to CAP, and folds a full journal. -/
  | journalWrite (q : SectorIx)
  /-- SITE_LCFG_WRITE (R128): An accepted GLB_SITE_LCFG write allocates the site's ledger in every sector and clears the site. -/
  | siteLcfgWrite (site : SiteIx) (v : Word)
  /-- LGR_POOL_WRITE (R128): A write of a ledger-pool register sets the pool, or stores size 0 if the pool leaves the sector home. -/
  | lgrPoolWrite (q : SectorIx) (r : Fin 3) (v : Word)
  /-- ACQ_POOL_WRITE (R187): A write of an acquisition-pool register discards the capture set, or stores size 0 if the pool leaves the home. -/
  | acqPoolWrite (q : SectorIx) (r : Fin 3) (v : Word)
  /-- FAIL_UPLOAD (R150): The job writes a site's ledger to host memory in the chosen format, and may clear it. -/
  | failUpload (j : Nat)
  /-- ANALYZE_REPAIR (R143): The job searches spare rows and columns for each named die and records the repair results. -/
  | analyzeRepair (j : Nat)
  /-- REPAIR_BUDGET_EXPIRY (R144): A die's analysis budget runs out, and the die becomes TIMEOUT with an optional spill. -/
  | repairBudgetExpiry (j : Nat)
  /-- BIN (R149): The job applies the limit table to each named site and writes one bin per site. -/
  | bin (j : Nat)
  /-- PARAMETRIC (R147): The job runs PMU measurements on the named channels and stores VALID or VOID slot entries. -/
  | parametric (j : Nat)
  /-- CONTACT_CHECK (R55): The job runs the contact check on the named channels in parallel. -/
  | contactCheck (j : Nat)
  /-- ARM_ACQ (R182): The job checks a capture, allocates its area and arms the digitizer. -/
  | armAcq (j : Nat)
  /-- TAP_SETTLED (R158): The tap switches have settled, and the digitizer moves from SETTLING to FILLING. -/
  | tapSettled (q : SectorIx)
  /-- PRE_FILLED (R162): PRE samples have been taken with the holdoff ended, and the digitizer enters WAITING. -/
  | preFilled (q : SectorIx)
  /-- ANALOG_TRIGGER (R164): A line crosses the edge level or window bound and gives a trigger at the crossing. -/
  | analogTrigger (q : SectorIx) (m : LineMove)
  /-- CMP_TRIGGER (R163): A comparator event of the selected channel gives a digitizer trigger. -/
  | cmpTrigger (q : SectorIx) (m : OutputMove)
  /-- SOFT_TRIGGER (R163): A write of DIG_CTL.SOFT gives a trigger at the current stored sample. -/
  | softTrigger (q : SectorIx)
  /-- AUTO_TRIGGER (R169): The auto timer expires with no trigger accepted, and an AUTO trigger is taken. -/
  | autoTrigger (q : SectorIx)
  /-- BCAST_TRIGGER_DUE (R165): A held BCAST trigger reaches its instant τ and is decided. -/
  | bcastTriggerDue (q : SectorIx)
  /-- HOLDOFF_END (R168): The holdoff after an accepted trigger ends. -/
  | holdoffEnd (q : SectorIx)
  /-- CAPTURE_DONE (R162): The last post-trigger sample is stored, the header is written, and the digitizer enters REARM. -/
  | captureDone (q : SectorIx) (volts : List (List Int))
  /-- REARM_DONE (R162): The 32 ns re-arm ends, and the digitizer fills again or stops after NSEG segments. -/
  | rearmDone (q : SectorIx)
  /-- SPILL_RECORD_WRITE (R175): A spill record is written to the host ring, or dropped if the ring lacks room. -/
  | spillRecordWrite (q : SectorIx)
  /-- DIG_STOP (R180): Writing DIG_CTL.STOP closes the open segment with STOPPED and ends the capture. -/
  | digStop (q : SectorIx) (volts : List (List Int))
  /-- READ_SEGMENTS (R184): The job copies completed segments, stored or decoded, to a host buffer. -/
  | readSegments (j : Nat)
  /-- FIR_COEF_WRITE (R196): A write of DIG_FIR_COEF stores a coefficient at BANK and IDX and increments IDX. -/
  | firCoefWrite (q : SectorIx) (v : Word)
  /-- FIR_PRESET (R198): A write of DIG_FIR_PRE.SET starts loading a built-in coefficient set and writes K. -/
  | firPreset (q : SectorIx) (set_ : Fin 4) (bank : Bool)
  /-- FIR_PRESET_DONE (R198): A preset coefficient load completes, and a waiting arm is checked. -/
  | firPresetDone (q : SectorIx)
  /-- ROUTINE_DISPATCH (R220): The dispatcher enters the routine of the lowest-numbered pending event of the held role. -/
  | routineDispatch (n : TellerIx)
  /-- COMMIT (R223): A COMMIT microword issues once no load is outstanding, the outbox is empty and the store buffer has room. -/
  | commit (n : TellerIx)
  /-- SEQ_TRAP (R212): Microword sequencing op TRAP halts the teller at an illegal microword. -/
  | seqTrap (n : TellerIx)
  /-- SEQ_GOTO (R212): Sequencing op GOTO continues at NEXT. -/
  | seqGoto (n : TellerIx)
  /-- SEQ_BR (R212): Sequencing op BR continues at NEXT if COND holds. -/
  | seqBr (n : TellerIx)
  /-- SEQ_BRN (R212): Sequencing op BRN continues at NEXT if COND fails. -/
  | seqBrn (n : TellerIx)
  /-- SEQ_CALL (R212): Sequencing op CALL pushes the return address and continues at NEXT. -/
  | seqCall (n : TellerIx)
  /-- SEQ_RET (R212): Sequencing op RET pops the return address. -/
  | seqRet (n : TellerIx)
  /-- SEQ_DISP (R212): Sequencing op DISP continues at NEXT + A[3:0]. -/
  | seqDisp (n : TellerIx)
  /-- SEQ_LOOP (R212): Sequencing op LOOP decrements LC and branches to NEXT while LC is not 0. -/
  | seqLoop (n : TellerIx)
  /-- SEQ_END (R212): Sequencing op END ends the routine. -/
  | seqEnd (n : TellerIx)
  /-- ALU_NOP (R214): ALU op NOP writes nothing. -/
  | aluNop (n : TellerIx)
  /-- ALU_ADD (R214): ALU op ADD writes A + B and sets ZNCV. -/
  | aluAdd (n : TellerIx)
  /-- ALU_SUB (R214): ALU op SUB writes A − B and sets ZNCV. -/
  | aluSub (n : TellerIx)
  /-- ALU_CMP (R214): ALU op CMP sets ZNCV from A − B without writing. -/
  | aluCmp (n : TellerIx)
  /-- ALU_AND (R214): ALU op AND writes the bitwise AND of A and B. -/
  | aluAnd (n : TellerIx)
  /-- ALU_OR (R214): ALU op OR writes the bitwise OR of A and B. -/
  | aluOr (n : TellerIx)
  /-- ALU_XOR (R214): ALU op XOR writes the bitwise XOR of A and B. -/
  | aluXor (n : TellerIx)
  /-- ALU_SHL (R214): ALU op SHL writes A shifted left by B[5:0]. -/
  | aluShl (n : TellerIx)
  /-- ALU_SHR (R214): ALU op SHR writes A shifted right logically by B[5:0]. -/
  | aluShr (n : TellerIx)
  /-- ALU_SAR (R214): ALU op SAR writes A shifted right arithmetically by B[5:0]. -/
  | aluSar (n : TellerIx)
  /-- ALU_MUL (R214): ALU op MUL writes the low 64 bits of A × B. -/
  | aluMul (n : TellerIx)
  /-- ALU_MIN (R214): ALU op MIN writes the signed minimum of A and B. -/
  | aluMin (n : TellerIx)
  /-- ALU_MAX (R214): ALU op MAX writes the signed maximum of A and B. -/
  | aluMax (n : TellerIx)
  /-- ALU_MINU (R214): ALU op MINU writes the unsigned minimum of A and B. -/
  | aluMinu (n : TellerIx)
  /-- ALU_MAXU (R214): ALU op MAXU writes the unsigned maximum of A and B. -/
  | aluMaxu (n : TellerIx)
  /-- ALU_POPC (R214): ALU op POPC writes the bit count of A. -/
  | aluPopc (n : TellerIx)
  /-- ALU_CLZ (R214): ALU op CLZ writes the leading-zero count of A. -/
  | aluClz (n : TellerIx)
  /-- ALU_ADDI (R214): ALU op ADDI writes A + IMM32 and sets ZNCV. -/
  | aluAddi (n : TellerIx)
  /-- ALU_ANDI (R214): ALU op ANDI writes A AND IMM32. -/
  | aluAndi (n : TellerIx)
  /-- ALU_LDI (R214): ALU op LDI writes the sign-extended immediate. -/
  | aluLdi (n : TellerIx)
  /-- ALU_LDIH (R214): ALU op LDIH writes A[31:0] with the immediate in the upper half. -/
  | aluLdih (n : TellerIx)
  /-- ALU_EXT (R214): ALU op EXT writes a bit field extracted from A. -/
  | aluExt (n : TellerIx)
  /-- ALU_LDLC (R214): ALU op LDLC loads the loop counter from A[31:0]. -/
  | aluLdlc (n : TellerIx)
  /-- VEC_JREQ (R215): Vector-bus op JREQ requests a jump to target A[11:0]. -/
  | vecJreq (n : TellerIx)
  /-- VEC_RDST (R215): Vector-bus op RDST reads the sequencer state, segment and FIFO occupancy into a T register. -/
  | vecRdst (n : TellerIx)
  /-- VEC_HOLD (R215): Vector-bus op HOLD requests a hold, as TIL_SEQ_CTL.HOLD does. -/
  | vecHold (n : TellerIx)
  /-- VEC_RESUME (R215): Vector-bus op RESUME requests a resume, as TIL_SEQ_CTL.RESUME does. -/
  | vecResume (n : TellerIx)
  /-- VEC_ABORT (R215): Vector-bus op ABORT requests an abort, as TIL_SEQ_CTL.ABORT does. -/
  | vecAbort (n : TellerIx)
  /-- FAIL_RDST (R215): Fail-bus op RDST reads the fail-unit status and queue occupancy. -/
  | failRdst (n : TellerIx)
  /-- FAIL_RDCNT (R215): Fail-bus op RDCNT reads the fail count and status of site CS. -/
  | failRdcnt (n : TellerIx)
  /-- FAIL_SYNC (R215): Fail-bus op SYNC stalls until the fail queue is empty. -/
  | failSync (n : TellerIx)
  /-- MEM_LDS (R215): Memory op LDS loads 8 bytes of scratch into a T register. -/
  | memLds (n : TellerIx)
  /-- MEM_STS (R215): Memory op STS stores 8 bytes to scratch. -/
  | memSts (n : TellerIx)
  /-- MEM_LDH (R215): Memory op LDH loads 8 bytes of device memory into a T register. -/
  | memLdh (n : TellerIx)
  /-- MEM_STH (R215): Memory op STH stores 8 bytes to device memory. -/
  | memSth (n : TellerIx)
  /-- MEM_BLK (R215): Memory op BLK copies 64 bytes of device memory to the staging window. -/
  | memBlk (n : TellerIx)
  /-- MEM_BST (R215): Memory op BST copies 64 bytes of scratch to device memory. -/
  | memBst (n : TellerIx)
  /-- MEM_LDR (R215): Memory op LDR reads a local register into a T register without clearing RC fields. -/
  | memLdr (n : TellerIx)
  /-- MEM_STR (R215): Memory op STR writes a local register under the class rules. -/
  | memStr (n : TellerIx)
  /-- LOAD_LANDS (R217): The data of an outstanding port read returns and fills its T register. -/
  | loadLands (n : TellerIx)
  /-- MSG_SEND (R237): Message op SEND places a 32-byte message in the outbox. -/
  | msgSend (n : TellerIx)
  /-- MSG_PEEK (R215): Message op PEEK copies the head of the inbox into T registers. -/
  | msgPeek (n : TellerIx)
  /-- MSG_POP (R215): Message op POP removes the head of the inbox. -/
  | msgPop (n : TellerIx)
  /-- MSG_RPEEK (R215): Message op RPEEK copies the head send report into T registers. -/
  | msgRpeek (n : TellerIx)
  /-- MSG_RPOP (R215): Message op RPOP removes the head send report. -/
  | msgRpop (n : TellerIx)
  /-- WAIT_DELAY (R216): A WAIT code 0x01 to 0x7F delays the next microword by n teller-clock periods. -/
  | waitDelay (n : TellerIx)
  /-- WAIT_COND (R216): A WAIT code 0x80 to 0x83 holds the next microword until its condition holds. -/
  | waitCond (n : TellerIx)
  /-- SETT (R216): WAIT op SETT loads the teller timer from A[31:0]. -/
  | sett (n : TellerIx)
  /-- SMCLR (R216): Site op SMCLR clears the site mask. -/
  | smclr (n : TellerIx)
  /-- SMSET (R216): Site op SMSET sets bit A[7:0] of the site mask. -/
  | smset (n : TellerIx)
  /-- SMRST (R216): Site op SMRST clears bit A[7:0] of the site mask. -/
  | smrst (n : TellerIx)
  /-- SMTST (R216): Site op SMTST sets Z from bit A[7:0] of the site mask. -/
  | smtst (n : TellerIx)
  /-- CSSET (R216): Site op CSSET sets the current site to A[7:0]. -/
  | csset (n : TellerIx)
  /-- TELLER_TIMER_EXPIRY (R219): The teller timer reaches 0 and raises the TIMER event. -/
  | tellerTimerExpiry (n : TellerIx)
  /-- WATCHDOG_EXPIRY (R226): A routine runs past the watchdog limit, and the teller halts with cause WDOG. -/
  | watchdogExpiry (n : TellerIx)
  /-- COMMIT_OVERRUN (R225): END has not issued 64 periods after COMMIT, and the teller halts with cause OVERRUN. -/
  | commitOverrun (n : TellerIx)
  /-- RELOAD_DONE (R228): A teller's image is re-verified and reloaded, and it takes an unheld role or becomes RETIRED on failure. -/
  | reloadDone (n : TellerIx)
  /-- MESSAGE_LEAVES_OUTBOX (R237): A message leaves the outbox when a send slot is free. -/
  | messageLeavesOutbox (n : TellerIx)
  /-- MESSAGE_ARRIVAL (R236): A message arrives, is resolved and delivered, or is dropped with a report. -/
  | messageArrival (n : TellerIx)
  /-- MESSAGE_NOROUTE (R237): A message undelivered 1 ms after leaving the outbox is reported NOROUTE. -/
  | messageNoroute (n : TellerIx)
  /-- LOAD_IMAGE (R231): The job checks a signed teller image, replaces its slot and loads the named tellers. -/
  | loadImage (j : Nat)
  /-- ASSIGN_ROLE (R233): The job checks and applies a complete role map. -/
  | assignRole (j : Nat)
  /-- ROLE_ASSIGNMENT_APPLY (R234): An assignment applies to a teller, increments its epoch and purges stale inbox messages. -/
  | roleAssignmentApply (n : TellerIx)
  /-- STARTUP_CAL_DONE (R458): The start-up calibration ends, the ASSIGN_ROLE completion is written and READY is set. -/
  | startupCalDone
  /-- LINK_UP (R242): The CXL link reaches L0 with all three protocols, degraded or not. -/
  | linkUp (rate : Fin 6) (width : Nat) (flit : Fin 3) (all3 : Bool)
  /-- LINK_DOWN (R244): The CXL link is lost, device-cache lines are dropped and completions wait in device memory. -/
  | linkDown
  /-- D_STATE_CHANGE (R245): The host moves the function between D0 and D3hot. -/
  | dStateChange (d3 : Bool)
  /-- CONFIG_ACCESS (R247): The host accesses configuration space. -/
  | configAccess (wr : Bool) (off : Nat) (v : Word)
  /-- HDM_COMMIT (R251): The host commits the HDM decoder, which succeeds or fails with Commit Error. -/
  | hdmCommit (base : Nat) (ways : Nat) (bi : Bool)
  /-- HOST_MEM_READ (R255): A host CXL.mem read is served, as a snapshot if held or poisoned if uncorrectable. -/
  | hostMemRead (addr : Nat)
  /-- HOST_MEM_WRITE (R255): A host CXL.mem write is stored, or discarded if the line is device-held. -/
  | hostMemWrite (addr : Nat) (data : List Byte) (poisoned : Bool)
  /-- BACK_INVALIDATE (R254): A device access to a host-held line sends a back-invalidate snoop and waits for its response. -/
  | backInvalidate (off : Nat)
  /-- HOST_SNOOP (R267): A host snoop reaches the device cache; a doorbell line invalidation makes the device re-read P. -/
  | hostSnoop (addr : Nat) (data : List Byte)
  /-- DOE_REQUEST (R257): A DOE request is served for discovery, CDAT access or IDE key management. -/
  | doeRequest (proto : Nat) (entry : Nat) (body : List Nat)
  /-- IDE_INTEGRITY_FAILURE (R258): An IDE stream fails integrity and becomes insecure, and fetching over it stops. -/
  | ideIntegrityFailure (stream : Fin 3)
  /-- HOST_LINK_ERROR (R260): A link or protocol error is logged in AER or CXL RAS and passed to the collector. -/
  | hostLinkError (kind : Fin 4) (bitno : Nat)
  /-- VIRAL_RECEIVED (R261): A viral indication raises DEVICE_FATAL and poisons later CXL.mem reads. -/
  | viralReceived
  /-- MSIX_UNMASK (R259): Unmasking a vector with its pending bit set sends the message once. -/
  | msixUnmask (v : Nat)
  /-- RING_ENABLE (R265): Writing EN = 1 to a ring resolves and locks its translations and resets its indices. -/
  | ringEnable (r : Nat)
  /-- RING_DISABLE (R266): Writing EN = 0 to a ring stops fetching or writing to it. -/
  | ringDisable (r : Nat)
  /-- MMIO_DOORBELL (R268): A BAR2 write of P is judged as stale, new, or a ring error. -/
  | mmioDoorbell (q : RingIx) (v : Word)
  /-- HEAD_INDEX_WRITE (R269): A BAR2 write of H to a CQ or EVR head is accepted, or ignored as STALE. -/
  | headIndexWrite (r : Nat) (v : Word)
  /-- DESCRIPTOR_FETCH (R270): The host attach fetches the next descriptor by priority class and checks it. -/
  | descriptorFetch
  /-- JOB_DISPATCH (R273): A fetched job is dispatched to its owner once ordering and fences allow. -/
  | jobDispatch (j : Nat)
  /-- COMPLETION_WRITE (R274): A job's completion is written to its CQ, or waits in the carve-out if the CQ cannot take it. -/
  | completionWrite (c : RingIx)
  /-- WAITING_COMPLETION_WRITE (R274): A waiting completion is written once its CQ has room. -/
  | waitingCompletionWrite (c : RingIx)
  /-- EVENT_POST (R280): An event entry is posted to every EVR whose mask takes its type, or is dropped. -/
  | eventPost
  /-- EVT_LOST (R280): When room returns to an EVR, an EVT_LOST entry carrying the lost count is posted. -/
  | evtLost (e : EvrIx)
  /-- IMOD_TIMER_EXPIRY (R281): The moderation timer of a ring expires and raises its interrupt. -/
  | imodTimerExpiry (r : Nat)
  /-- JOB_ABORT (R282): A write of HAT_ABORT.GO aborts the matching fetched jobs of an SQ. -/
  | jobAbort
  /-- NOP_FENCE (R273): The job completes once every earlier fetched descriptor of the named rings has completed. -/
  | nopFence (j : Nat)
  /-- TRANSLATION_COMPLETION (R290): An ATS Translation Completion arrives, and the ATC is filled or a page fault is handled. -/
  | translationCompletion (ans : XltAnswer)
  /-- PAGE_REQUEST_RESPONSE (R306): A PRI response ends the waiting jobs or restarts their streams from the checkpoint. -/
  | pageRequestResponse (idx : Nat) (code : PrgResponse)
  /-- PRI_TIMEOUT (R306): No response to a page request group arrives within PRI_TO, and the waiting jobs end. -/
  | priTimeout (idx : Nat)
  /-- ATS_INVALIDATE (R293): An ATS Invalidate Request stops use of the covered entries and drops them. -/
  | atsInvalidate (pv : Bool) (pasid : Nat) (base : Nat) (size : Nat)
  /-- INVALIDATE_COMPLETION (R293): Once the covered transfers have drained, the Invalidate Completion is sent. -/
  | invalidateCompletion
  /-- CONTEXT_ENABLE (R297): Writing EN = 1 to a DMA context enables it, or starts the pin of a real-time context. -/
  | contextEnable (k : CtxIx)
  /-- CONTEXT_DISABLE (R297): Writing EN = 0 releases the context's locks and reservations, or is ignored while the context is in use. -/
  | contextDisable (k : CtxIx)
  /-- PIN_DONE (R297): A real-time pin finishes, sets PINNED or PFAIL, and releases its holds on failure. -/
  | pinDone (k : CtxIx)
  /-- GRANULE_ISSUE (R300): A direction arbiter issues the next 256-byte granule by rank, class and weight. -/
  | granuleIssue (wr : Bool)
  /-- HBM_TRAINING_DONE (R319): Cold-start training of both points ends in success or in HBM training failure. -/
  | hbmTrainingDone (results : Nat)
  /-- POINT_CHANGE_START (R321): A requested operating-point change starts once no training runs and RTACT is 0. -/
  | pointChangeStart
  /-- POINT_CHANGE_DONE (R321): The PHY runs at the new point, held requests are released and CDAT_CHG is posted. -/
  | pointChangeDone
  /-- RETRAIN_REQUEST (R323): A write of MEM_CTL.RETRAIN requests a retrain of the point in force. -/
  | retrainRequest
  /-- RETRAIN_START (R323): A waiting retrain starts once RTACT is 0 and no change runs. -/
  | retrainStart
  /-- RETRAIN_DONE (R323): A retrain ends, replacing the set or taking a failing channel out of service. -/
  | retrainDone (results : Nat)
  /-- REFRESH_DUE (R325): A per-bank refresh falls due and is issued, postponed, or forced at debt 8. -/
  | refreshDue (x : PcIx)
  /-- FORCED_REFRESH_RELEASE (R325): The held real-time requests are released at the end of the forced refresh. -/
  | forcedRefreshRelease (x : PcIx)
  /-- MEM_REQUEST_ISSUE (R317): A pseudo-channel scheduler issues the next request by rank, with its ECC judgement on reads. -/
  | memRequestIssue (x : PcIx) (ecc : EccResult)
  /-- ROW_IDLE_CLOSE (R318): An open row unaccessed for 200 ns is closed. -/
  | rowIdleClose (x : PcIx) (bank : Nat)
  /-- PATROL_SCRUB (R330): The patrol scrub reads the next line and handles correctable errors. -/
  | patrolScrub (x : PcIx) (ecc : EccResult)
  /-- ROW_REPAIR_START (R331): A row due for repair starts repair once its sector's real-time masters are idle. -/
  | rowRepairStart (x : PcIx)
  /-- ROW_REPAIR_DONE (R331): Post-package repair of a row ends and the row is written back. -/
  | rowRepairDone (x : PcIx) (spare : Bool)
  /-- TIME_READ (R336): A read of TIM_NOW0 returns FRAC and latches the other words of ring time. -/
  | timeRead
  /-- REFERENCE_LOST (R338): A reference input becomes absent, and the time base switches over or enters holdover. -/
  | referenceLost (b : Bool)
  /-- REFERENCE_PRESENT (R338): A reference has been present for 10 ms and becomes present again, ending holdover by slew. -/
  | referencePresent (b : Bool)
  /-- REFERENCE_REVERT (R339): With REVERT = 1, the preferred input has been present 1 s, and the time base switches back. -/
  | referenceRevert
  /-- SLEW_END (R342): A slew spends its correction and ends. -/
  | slewEnd
  /-- TIME_SET (R344): A write of TIM_CTL.SET steps ring time, or is refused while the device is live. -/
  | timeSet
  /-- JOIN_WRITE (R364): A write of TIM_CTL.JOIN drives or releases BYPASS_N. -/
  | joinWrite (v : Bool)
  /-- TIME_FRAME (R343): A valid TIME frame gives an offset, and ring time steps or slews. -/
  | timeFrame (f : Frame) (tau : Nat)
  /-- PDELAY_REQ (R354): A PDELAY_REQ arrives, and a PDELAY_RESP is launched on the return pair. -/
  | pdelayReq (f : Frame) (tau : Nat)
  /-- PDELAY_RESP (R354): A PDELAY_RESP arrives and yields one sample of the OUT link delay. -/
  | pdelayResp (f : Frame) (tau : Nat)
  /-- BCAST (R351): A BCAST frame is consumed as a trigger, jump request or abort, and forwarded. -/
  | bcastFrame (f : Frame) (tau : Nat)
  /-- MSG (R351): A MSG frame is delivered to an inbox or carries a send report back. -/
  | msgFrame (f : Frame) (tau : Nat)
  /-- SNAP (R360): A SNAP frame schedules a snapshot latch, or is counted late. -/
  | snapFrame (f : Frame) (tau : Nat)
  /-- FRAME_DROP (R350): A frame with a bad CRC, a foreign ring, a reserved type or HOPS = 31 is dropped and counted. -/
  | frameDrop (f : Frame)
  /-- FRAME_LAUNCH (R353): At a block boundary, the OUT transmitter launches the next frame by its priority order. -/
  | frameLaunch
  /-- TIME_PERIOD_TIMER (R349): The master's TPER timer expires and a TIME frame is queued. -/
  | timePeriodTimer
  /-- PDELAY_TIMER (R349): The 10 µs timer expires and a PDELAY_REQ is queued. -/
  | pdelayTimer
  /-- TIME_FRAME_TIMEOUT (R341): A device that is not the master sees no valid TIME frame for 10 × TPER, and QUAL becomes FREE. -/
  | timeFrameTimeout
  /-- BLOCK_LOCK_GAINED (R347): A lane gains block lock on both pairs and enters LEARNING. -/
  | blockLockGained (out : Bool)
  /-- BLOCK_LOCK_LOST (R347): A lane loses block lock and goes DOWN. -/
  | blockLockLost (out : Bool)
  /-- STRUM_EDGE (R357): A Strum edge is stamped and used as MEASURE or SET, or marked STRAY. -/
  | strumEdge (tau : Nat)
  /-- TIME_LAUNCH (R356): The job schedules a BCAST frame for launch at TL. -/
  | timeLaunch (j : Nat)
  /-- SNAPSHOT (R361): The job schedules a snapshot at T, with a SNAP frame if RING = 1. -/
  | snapshot (j : Nat)
  /-- SNAPSHOT_LATCH (R359): The latch edge at T is reached, and counters and states are latched into the shadows. -/
  | snapshotLatch
  /-- CALIBRATE (R368): The job runs the selected calibration items on the named units. -/
  | calibrate (j : Nat)
  /-- CAL_ITEM_DONE (R370): A calibration item completes on a unit and writes its trims and assay together. -/
  | calItemDone (j : Nat) (unit : Nat) (pre : Bool) (r : CalResult)
  /-- TRACKING_PASS (R376): The periodic tracking pass measures free slices and applies the mean drift to serving slices. -/
  | trackingPass (t : TileIx) (drift : List (Int × Int × Int))
  /-- TRIM_GLIDE_STEP (R375): A live tile's level trims move one glide step toward their corrected values. -/
  | trimGlideStep (t : TileIx) (p : SliceIx)
  /-- LEVEL_REFERENCE_RETIRED (R378): A pin-die level reference is retired, and the sector's levels pass to the other reference. -/
  | levelReferenceRetired (q : SectorIx) (r : Fin 2)
  /-- SLICE_MONITOR_FAIL (R379): A slice monitor fails, and the slice enters the safe state and is retired. -/
  | sliceMonitorFail (t : TileIx) (p : SliceIx) (cause : Fin 3)
  /-- INTERPOLATOR_BANK_LOST (R29): A quad's phase-interpolator bank is lost, and its slices go safe and are retired. -/
  | interpolatorBankLost (q : Fin 240)
  /-- TIMING_PLL_UNLOCK (R29): A pin die's timing PLL loses lock, the sector's tiles stop and gangs reaching the sector abort. -/
  | timingPllUnlock (q : SectorIx)
  /-- REMAP (R383): The job checks a remap of a position and runs it. -/
  | remap (j : Nat)
  /-- REMAP_START (R380): A remap waiting for the end of a pattern starts once the tile is not live. -/
  | remapStart (t : TileIx) (k : PosIx)
  /-- REMAP_DONE (R380): The chosen free slice passes its items and is joined to the ball, or no slice remains. -/
  | remapDone (t : TileIx) (results : List CalResult)
  /-- POWER_GO (R393): A write of PWR_CTL.GO requests DORMANT or WATCH and is refused unless the device is quiet. -/
  | powerGo (v : Word)
  /-- POWER_ENTRY_DONE (R393): Entry to DORMANT or WATCH completes with the PLLs stopped and HBM in self-refresh. -/
  | powerEntryDone
  /-- WAKE_TIMER_EXPIRY (R394): PWR_WTIMER expires in DORMANT or WATCH and is a wake cause. -/
  | wakeTimerExpiry
  /-- WAKE (R394): An enabled wake cause starts the wake sequence toward READY. -/
  | wake
  /-- WAKE_DONE (R394): The PLLs, HBM, CXL PHY and ring are back, and the state is READY. -/
  | wakeDone
  /-- DIG_PLL_STOP (R395): A digitizer PLL stops 100 ms after STOPPED with no arm or item pending. -/
  | digPllStop (q : SectorIx)
  /-- HOUSEKEEPING_ROUND (R396): A 1 ms round reads all sensors and monitors and updates used values, thermal states and supply detectors. -/
  | housekeepingRound (temps : List Int) (valid : List Bool) (volts : List Int)
  /-- GRACE_EXPIRY (R400): The grace timer of a sector in REQUEST expires, and the sector becomes ENFORCED. -/
  | graceExpiry (q : SectorIx)
  /-- DETECTOR_RAISE (R409): A collector sample sees a detector raised, decides its class, logs an entry and runs its reaction. -/
  | detectorRaise
  /-- RAIL_DISAGREEMENT (R410): A detector's rail pair disagrees in 2 samples and is treated as raised with WIRE set. -/
  | railDisagreement (det : Nat) (on : Bool)
  /-- COLLECTOR_DUAL_RAIL (R411): The collector's true and complement copies disagree in 2 samples, and the device is SEALED. -/
  | collectorDualRail
  /-- REACTION_COMPLETE (R412): A DEVICE_FATAL reaction completes when every slice is safe and every sequencer is idle. -/
  | reactionComplete
  /-- KSTAT_CLEAR (R422): Writing 1 to LATCHED or WIRE of FLT_KSTAT clears it only while the kind is not active. -/
  | kstatClear (k : Fin 64) (latched : Bool) (wire : Bool)
  /-- FIRST_RELEASE (R420): Writing 1 to FLT_FIRST_CTL.VALID releases the frozen first-fault record. -/
  | firstRelease
  /-- INJECT (R425): The job checks and arms, replaces or disarms an injection point. -/
  | injectJob (j : Nat)
  /-- INJECTION_IN_FORCE (R423): A timed injection takes effect at the first collector sample at or after T. -/
  | injectionInForce (det : Nat)
  /-- INJECT_DISALL (R425): A write of FLT_INJ_CTL.DISALL disarms every injection point. -/
  | injectDisall
  /-- CARD_REMOVAL (R437): CARD_PRESENT_N goes high, every slice goes safe and locked, and gangs and PMU jobs abort. -/
  | cardRemoval
  /-- CARD_INSERTION (R438): CARD_PRESENT_N has stayed low for 50 ms, so SC_CARD clears and CARD is set. -/
  | cardInsertion
  /-- TOUCH_CHANGE (R440): The filtered TOUCH_N changes; a fall counts and wakes, and a rise may abort gangs. -/
  | touchChange (down : Bool)
  /-- EOT_WRITE (R441): A write of GLB_PRB_CTL.EOT drives or releases EOT_N under the touchdown rule. -/
  | eotWrite (v : Bool)
  /-- TRIG_IN_EDGE (R163): An edge on a TRIG_IN ball gives a digitizer trigger or a jump request as enabled. -/
  | trigInEdge (ball : Fin 4) (rise : Bool) (tau : Nat)
  /-- PIN_DIE_LOCKOUT (R435): A pin-die analog rail falls below 85 %, and every ball of the sector is held as unpowered. -/
  | pinDieLockout (q : SectorIx)
  /-- LOCKOUT_RELEASE (R435): The rail returns above 90 %, and the lock-out releases. -/
  | lockoutRelease (q : SectorIx)
  /-- IDENT (R444): The SMBus command returns GLB_ID and the serial number. -/
  | ident (pec : Bool)
  /-- STATUS (R444): The SMBus command returns link, fault, thermal, power and IO status. -/
  | status (pec : Bool)
  /-- SMBUS_WAKE (R444): The SMBus WAKE command is wake cause 0x1 in DORMANT or WATCH. -/
  | smbusWake (pec : Pec)
  /-- FIRST (R444): The SMBus command returns the FLT_FIRST record. -/
  | first (pec : Bool)
  /-- KEYSTAT (R444): The SMBus command returns GLB_KEYSTAT. -/
  | keystat (pec : Bool)
  /-- FUSE_ARM (R444): The SMBus command arms or disarms one fuse command for 100 ms. -/
  | fuseArm (pec : Pec) (v : BitVec 16)
  /-- FUSE_ARM_EXPIRY (R445): The 100 ms window of a fuse arm ends. -/
  | fuseArmExpiry
  /-- FUSE_KEY (R445): The SMBus command burns a key hash into a blank key slot if allowed. -/
  | fuseKey (pec : Pec) (slot : BitVec 8) (hash : List Nat)
  /-- FUSE_REVOKE (R445): The SMBus command burns the revoke fuse of a key slot if allowed. -/
  | fuseRevoke (pec : Pec) (slot : BitVec 8)
  /-- FUSE_SSID (R445): The SMBus command burns the subsystem IDs if they are blank and allowed. -/
  | fuseSsid (pec : Pec) (v : Word)
  /-- FUSE_STAT (R444): The SMBus command returns the fuse status. -/
  | fuseStat (pec : Bool)
  /-- FUSE_BURN_DONE (R445): Burning ends, the fuses are read back, and DONE or ERR is set. -/
  | fuseBurnDone (ok : Bool)
  /-- ALERT_RESPONSE (R446): A read of the Alert Response Address returns the device address and releases SMB_ALERT_N. -/
  | alertResponse
  /-- POWER_ON_RESET (R454): VDD_AON or VDD_IO falls below 90 %, and the Vault enters power-on reset. -/
  | powerOnReset (aon : Bool)
  /-- POR_RELEASE (R454): Both always-on rails have been in range for 100 µs, and the Warden boots. -/
  | porRelease (badKeys : List (Fin 4)) (badTrims : List Nat) (imageOk : Bool) (again : Bool)
  /-- PERST_RESET (R449): PERST_N held low resets the part as a cold reset, or only the CXL port when SEALED. -/
  | perstReset (badKeys : List (Fin 4)) (badTrims : List Nat) (imageOk : Bool) (again : Bool)
  /-- SELFTEST_DONE (R456): The slice self-test ends, and failing slices are retired and their positions mapped. -/
  | selftestDone (fails : List Nat) (quads : List Nat)
  /-- WARM_RESET (R452): A keyed write of GLB_RST_CTL.WARM starts a warm reset, or is refused. -/
  | warmReset
  /-- WARM_RESET_DONE (R452): The tellers are reloaded with default roles, SC_RST clears and BUSY falls. -/
  | warmResetDone
  /-- CXL_RESET (R453): A CXL Reset runs a warm reset, empties the cache, clears viral, resets the decoders and clears the sites. -/
  | cxlReset
  /-- REGISTER_READ (R4): A host read of a register latches the upper half of a 64-bit pair and clears the RC fields it returns. -/
  | registerRead (off : Nat) (be : Nat)
  /-- PERST_RELEASE (R456): PERST_N rises, and CXL link training may start once the CXL PHY is also locked. -/
  | perstRelease
  /-- STARTUP_PLLS_LOCKED (R456): The PLLs started after RAILS lock, and the slice self-test and HBM training start. -/
  | startupPllsLocked
  /-- TIMING_PLL_RELOCK (R29): A pin die's timing PLL regains lock, its level detector falls and SC_DEP clears in the sector's slices. -/
  | timingPllRelock (q : SectorIx)
  /-- BI_SNOOP_RESPONSE (R254): The host's response to a back-invalidate snoop arrives, and the waiting device access or pool allocation proceeds. -/
  | biSnoopResponse (off : Nat) (dirty : Option (List Byte))
  /-- DMA_READ_COMPLETION (R288): The host's completion of a granule read request returns data, or Unsupported Request or Completer Abort, which ends the job with ST_XLT_FAULT. -/
  | dmaReadCompletion (tagNo : Nat) (ok : Bool)
  /-- STRUM_SEEN_TIMEOUT (R372): No Strum edge is stamped within 1.5 s of the STRUM item's start, so its precondition fails. -/
  | strumSeenTimeout
  /-- SMBUS_TIMEOUT (R443): SMB_CLK is held low past the 25 ms to 35 ms timeout, and the transaction in progress is abandoned. -/
  | smbusTimeout
  /-- CLAMP_CONDUCTS (R44): A clamp conducts more than 1 mA, and CHN_STAT.CLAMP_HIT is set. -/
  | clampConducts (t : TileIx) (p : SliceIx)
  /-- LOAD_SATURATES (R43): The active load cannot hold its current within 5 %, and CHN_STAT.LOAD_SAT is set. -/
  | loadSaturates (t : TileIx) (p : SliceIx)
deriving DecidableEq, Repr

end Sys2Proof
end

