-- ==== Sys2Proof/Config.lean ====
section
/-! DEFINITION. What the spec leaves to the part or leaves open: free values and functions without a body. Nothing can
evaluate them, so every statement about them holds for every value. Each is named in the assumption log. -/
namespace Sys2Proof.Config

/-- A fresh value the spec leaves open, by a counter of State (assumption 5). -/
opaque freeNat : Nat → Nat

/-- The value of a fuse-, strap- or silicon-given field (R6, R455, R443, R461), by register key. -/
opaque fuse : Nat → Nat

/-- The coefficients of the preset FIR sets (R198): set number, index; the spec gives no values. -/
opaque firPreset : Nat → Nat → Nat

/-- The ball voltages (nV) behind a segment that the device itself closes early (R180), by sector, line and raw index:
the world's values, which no command carries. -/
opaque rawSample : Nat → Nat → Int → Int

/-- The bank hash of R314, of a row: the spec does not give it. -/
opaque bankHash : Nat → Nat

/-- SHA-384 of a byte list (FIPS 180-4). -/
opaque sha384 : List Nat → Nat

/-- ECDSA P-384 verification (FIPS 186-5): public key, digest, signature bytes. -/
opaque verifyEcdsa : List Nat → Nat → List Nat → Bool

/-- Fields of configuration space and of the CXL component registers that the spec leaves to CXL 3.1 and the PCI
Express Base Specification (R247 to R249, R473): the value by byte offset. -/
opaque cxlStandard : Nat → Nat

/-- The bits of a configuration dword that the PCI Express and CXL standards let the host write, by byte offset (R247 to
R249 name the structures only). -/
opaque cfgWritable : Nat → Nat

/-- The device line to which the n-th write of a sector's journals or captures goes (R128, R187 give pools, no places). -/
opaque poolLine : Nat → Nat → Nat

/-- Banks per pseudo-channel that the stack reports (R324), less one, modulo 64. -/
opaque banks : Nat

/-- The row that holds a line, in the stack's own numbering (R314: the row size is not given). -/
opaque rowOf : Nat → Nat

/-- Whether a device line holds ledger or journal bytes of a site (R128 gives a pool, not places in it): site, line. -/
opaque ledgerLine : Nat → Nat → Bool

/-- The hash in key slot i as the part leaves the factory (R229): 48 bytes. -/
opaque keyHash : Nat → List Nat

/-- Whether C after a subtraction is the borrow, or its complement (R214 says only that C is taken). -/
opaque subBorrow : Bool

/-- The teller to which the collector routes a fault of a kind and instance (R219), one of 192 modulo 256 or none: the
spec gives no routing. -/
opaque faultRoute : Nat → Nat → Nat

/-- Nominal VDDQ_HBM in mV, made in the package (R433 gives no figure; monitors 30 and 31 watch it). -/
opaque vddqNominal : Nat

/-- The raw code of a stop of the code-density calibration (R83), from the oscillator that is asynchronous to the timing
clock: slice unit, core, calibration run, stop. -/
opaque tdcCode : Nat → Nat → Nat → Nat → BitVec 10

end Sys2Proof.Config
end

