-- ==== Sys2Proof/Machine/Map.lean ====
section
/-! DEFINITION. Reading and writing sparse maps, and the bit-field and byte-order helpers of the whole model. -/
namespace Sys2Proof.Machine

/-- The value a map holds at a key, if any. -/
def mapGet? {α : Type} : Map α → Nat → Option α
  | [], _ => none
  | (k, v) :: rest, x => if k = x then some v else mapGet? rest x

/-- The value at a key, with a default for an unlisted key. -/
def mapGet {α : Type} (m : Map α) (x : Nat) (d : α) : α := (mapGet? m x).getD d

/-- Write one key, keeping the keys rising. -/
def mapPut {α : Type} : Map α → Nat → α → Map α
  | [], x, v => [(x, v)]
  | (k, w) :: rest, x, v =>
    if x < k then (x, v) :: (k, w) :: rest
    else if x = k then (x, v) :: rest
    else (k, w) :: mapPut rest x v

/-- The keys of a sparse map rise, from lo on. -/
def mapRising {α : Type} (lo : Nat) : Map α → Bool
  | [] => true
  | (k, _) :: rest => decide (lo ≤ k) && mapRising (k + 1) rest

/-- Remove every key in `lo ≤ key < hi`. -/
def mapDropRange {α : Type} (m : Map α) (lo hi : Nat) : Map α :=
  m.filter fun e => decide (e.1 < lo) || decide (hi ≤ e.1)

/-- Remove one key. -/
def mapErase {α : Type} (m : Map α) (x : Nat) : Map α := m.filter fun e => e.1 != x

/-- Bits `[lsb + width - 1 : lsb]` of a number. -/
def bits (v lsb width : Nat) : Nat := (v >>> lsb) % 2 ^ width

/-- One bit of a number. -/
def bit (v i : Nat) : Bool := Nat.testBit v i

/-- A Bool as a bit. -/
def b2n (b : Bool) : Nat := if b then 1 else 0

/-- Set bit `i` of a number. -/
def setBit (v i : Nat) : Nat := v ||| (1 <<< i)

/-- Clear bit `i` of a number. -/
def clrBit (v i : Nat) : Nat := if Nat.testBit v i then v - (1 <<< i) else v

/-- The least of a number and a bound: counters saturate (R9). -/
def sat (width v : Nat) : Nat := min v (2 ^ width - 1)

/-- Two's complement: the value of an n-bit number read as signed. -/
def signed (width v : Nat) : Int :=
  if v % 2 ^ width < 2 ^ (width - 1) then (v % 2 ^ width : Nat) else (v % 2 ^ width : Nat) - (2 ^ width : Nat)

/-- Two's complement: the n-bit code of an integer. -/
def unsigned (width : Nat) (z : Int) : Nat := (z % (2 ^ width : Nat)).toNat

/-- Clamp an integer between bounds. -/
def clampInt (lo hi z : Int) : Int := if z < lo then lo else if hi < z then hi else z

/-- The n little-endian bytes of a number (R3). -/
def leBytes : Nat → Nat → List Nat
  | 0, _ => []
  | n + 1, v => v % 256 :: leBytes n (v / 256)

/-- The number whose little-endian bytes are given (R3). -/
def leNat : List Nat → Nat
  | [] => 0
  | b :: rest => b % 256 + 256 * leNat rest

/-- The numbers of the set bits of a mask below `n`, ascending. -/
def maskBits (n m : Nat) : List Nat := (List.range n).filter fun i => Nat.testBit m i

/-- The mask with the listed bits set. -/
def bitsMask (l : List Nat) : Nat := l.foldl setBit 0

/-- Replace the nth element of a list (unchanged past its end). -/
def listSet {α : Type} : List α → Nat → α → List α
  | [], _, _ => []
  | _ :: r, 0, v => v :: r
  | a :: r, n + 1, v => a :: listSet r n v

/-- One CRC-32 step over one bit, reflected polynomial 0xEDB88320. -/
def crc32Bit (c : Nat) : Nat := if c % 2 = 1 then (c >>> 1) ^^^ 0xEDB88320 else c >>> 1

/-- CRC-32 over one byte. -/
def crc32Byte (c b : Nat) : Nat :=
  (List.range 8).foldl (fun a _ => crc32Bit a) (c ^^^ (b % 256))

/-- CRC-32 over a byte list, initial value and final inversion 0xFFFFFFFF. -/
def crc32 (l : List Nat) : Nat := (l.foldl crc32Byte 0xFFFFFFFF) ^^^ 0xFFFFFFFF

end Sys2Proof.Machine
end

