-- ==== Sys2Proof/Machine/State.lean ====
section
/-! DEFINITION. The state of the block as plain data: the register file, and every piece of state that the spec gives
the part outside its registers. Registers that software can read have their one home in `State.regs`. -/
namespace Sys2Proof.Machine

/-- Why a step stops with a fault. -/
inductive Fault
  /-- HOST_MEM_READ, HOST_MEM_WRITE and HOST_SNOOP raise it for a host physical address of 2^64 or more, which R3's
  64-bit addresses do not reach. Safe: the machine stops where no access exists. -/
  | noSuchHostAddress (addr : Nat)
deriving DecidableEq, Repr

/-- Why a command is refused. -/
inductive Refusal
  /-- Raised by `exec` for a command that has no meaning yet. Safe. -/
  | notModelled (mnemonic : String)
deriving DecidableEq, Repr

/-! ### Pin channels (R32 to R62) -/

/-- What a channel's driver does at the ball (R73). -/
inductive Drive | off | vih | vil | vtt
deriving DecidableEq, Repr

/-- A running level glide (R48): endpoints captured at its start, updates K and updates done k. -/
structure Glide where
  src : Nat
  tgt : Nat
  from_ : List Nat
  to_ : List Nat
  updates : Nat
  done : Nat
deriving DecidableEq, Repr

/-- The PMU operation a slice runs (R52, R55); a contact check keeps the saved PMU fields. -/
inductive PmuOp
  | idle
  | measuring (job : Option Nat)
  | contact (saved : List Nat) (job : Option Nat)
deriving DecidableEq, Repr

/-- The unregistered state of one physical slice; `quiet`: it has been in the safe state and drives its ball no more before
the next pattern starts (R60); `tdcRuns`: the calibration run from which the cores' correction tables were built (R83);
`cmd`: the drive state that the edges placed so far ask for, whether or not the driver is held off; `edges`: drive edges
placed and still to come, by time in placement units (R72, R73); `late`: a bank asked for by a register write that waits for
a vector command of the same timing-clock period (R47). -/
structure Slice where
  glide : Option Glide
  dac : List Nat
  samplesHi : List Trit
  samplesLo : List Trit
  ticks : Nat
  inPattern : Bool
  pmu : PmuOp
  drive : Drive
  load : Bool
  quiet : Bool
  glideTrim : List Int
  tdcRuns : Nat
  cmd : Drive
  edges : List (Nat × Drive)
  late : Option Nat
deriving DecidableEq, Repr

/-- A slice after reset: bank 0 at its reset levels (R62), nothing running. -/
def Slice.reset : Slice :=
  ⟨none, [0x2000, 0x2000, 0x2000, 0x2000, 0x2000, 0x2000, 0xE000, 0, 0, 0], [], [], 0, false, .idle, .off, false, false, [], 0, .off, [], none⟩

/-! ### Patterns, tiles and gangs (R64 to R123) -/

/-- A segment-table entry (R105), with what LOAD_PATTERN found in its coded bytes: token bytes by the vector offset at
which each token's first word is emitted (R104), and the loops flagged RESTARTABLE: byte offset of BEGIN, first vector,
expanded length (R119). -/
structure Seg where
  resident : Bool
  bcast : Bool
  tout : Nat
  nxt : Nat
  hold : Nat
  len : Nat
  off : Nat
  coded : Nat
  charges : List (Nat × Nat)
  rloops : List (Nat × Nat × Nat)
deriving DecidableEq, Repr

/-- Where the refill engine reads a pattern's stream section (R102, R284): the sector's pattern area, with the bytes
copied there, or host memory through a DMA context under a ring's PASID. -/
inductive StreamSrc
  | home (bytes : List Nat)
  | host (va : Nat) (pv : Bool) (pasid : Nat) (ctx : Nat)
deriving DecidableEq, Repr

/-- A loaded pattern: the parts of the image that no register shows (R91, R92), the refill rate in bytes per second. -/
structure Pattern where
  sc96 : Bool
  dict : List Nat
  segs : List Seg
  resid : List Nat
  streamLen : Nat
  src : StreamSrc
  rate : Nat
  xsel : List Nat
  ysel : List Nat
  dsel : List Nat
  scramble : Bool
  dtab : List Nat
deriving DecidableEq, Repr

/-- A read position in a segment's coded bytes (R101): section offset of the next byte, token kind, words left. -/
structure Pos where
  off : Nat
  kind : Nat
  left : Nat
deriving DecidableEq, Repr

/-- A loop-stack entry (R99). -/
structure LoopE where
  at_ : Pos
  count : Nat
  full : Nat
  rst : Bool
  ok : Bool
  x : Nat
  y : Nat
  d : Nat
  yw : Bool
  emitted : Nat
deriving DecidableEq, Repr

/-- A vector on its way to the balls: its word, generated address and data, and whether it is a hold vector. -/
structure Vec where
  word : Nat
  hold : Bool
  px : Nat
  py : Nat
  data : Nat
  first : Bool
deriving DecidableEq, Repr

/-- A pending period change (R69, R70). -/
structure PerChange where
  tiles : List Nat
  ftw : Nat
  tc : Nat
  job : Option Nat
deriving DecidableEq, Repr

/-- A TDC window (R80), times in placement units: its vector, fret, start, opening and closing; the stops its fret wants, their
edges and the limits, as in force when its vector ran (R80, R81, R85); the stops taken. -/
structure TdcWin where
  vec : Nat
  fret : Nat
  start : Nat
  openAt : Nat
  closeAt : Nat
  wanted : Nat
  specs : List Nat
  limits : Option (Nat × Nat)
  stops : List Nat
  lost : Bool
  xseen : Bool
deriving DecidableEq, Repr

/-- A compare result waiting to be judged: the vector, its address, the positions that fail whatever is sampled (R61,
R76), those whose TDC window has not closed (R85), and for each position in scope its expectation (0 none, 1 LOW,
2 HIGH, 3 MID, 4 VALID) and compare mode (R74); the strobes still to come (position, placed times of C0 and of C1, in
placement units: R72), and the positions that met an X output at a strobe (R38). -/
structure Await where
  vec : Nat
  px : Nat
  py : Nat
  forced : List Nat
  measuring : List Nat
  judge : List (Nat × Nat × Nat)
  strobes : List (Nat × Nat × Nat)
  xs : List Nat
deriving DecidableEq, Repr

/-- One ledger entry on its way from the fail unit (R131): vector, site, cell address L, io mask. -/
structure FailEntry where
  vec : Nat
  site : Nat
  l : Nat
  mask : Nat
deriving DecidableEq, Repr

/-- One sector's part of a site's ledger (R130 to R133): entries in LIST order, count per cell index
L * IOW + io for BITMAP and TALLY, the journal, and the entries written since the last clear. -/
structure SecLedger where
  list : List (Nat × Nat)
  cells : Map Nat
  journal : List (Nat × Nat)
  count : Nat
deriving DecidableEq, Repr

/-- A site's checkpoint (R135). -/
structure Checkpoint where
  fcnt : Nat
  fvec : Nat
  faddr : Nat
  fail : Nat
  pfail : Nat
  counts : List Nat
deriving DecidableEq, Repr

/-- The unregistered state of one site: the CAP its ledger was allocated with, its four ledger parts, its checkpoint,
its repair result (rows, columns, record bytes), the jobs that name it, the pages it holds in every pool. -/
structure Site where
  cap : Nat
  parts : List SecLedger
  ckpt : Option Checkpoint
  repair : Option (Nat × Nat × List Nat)
  jobs : List Nat
  pages : Nat
deriving DecidableEq, Repr

/-- A site after reset: no ledger, no results. -/
def Site.reset : Site :=
  ⟨4096, [⟨[], [], [], 0⟩, ⟨[], [], [], 0⟩, ⟨[], [], [], 0⟩, ⟨[], [], [], 0⟩], none, none, [], 0⟩

/-- A parametric-table entry that is not NONE (R147). -/
inductive ParamEntry
  | valid (v : Int)
  | void
deriving DecidableEq, Repr

/-- A remap under way (R380): the position, what asked for it, and the candidate slice under test. -/
structure RemapRun where
  pos : Nat
  cand : Nat
  tried : List Nat
  old : Nat
  job : Option Nat
  retire : Bool
deriving DecidableEq, Repr

/-- The unregistered state of one tile; `laneFails`: vectors a lane transfer of which failed twice; `laneLost`: three in a row
did, and the tile has lost its lane (R29). -/
structure Tile where
  nextVec : Nat
  pend : Option PerChange
  pat : Option Pattern
  gang : Option Nat
  pos : Pos
  cur : Option Nat
  repLeft : Nat
  loops : List LoopE
  yw : Bool
  released : Nat
  delivered : Nat
  fifo : List Nat
  refillStop : Bool
  vbuf : List (Nat × Vec)
  atBalls : Option Vec
  await : List Await
  tdcTurn : Map Nat
  tdcWin : Map (List TdcWin)
  tdcLast : Map (Nat × Nat)
  tdcQ : List (List Nat)
  tdcArea : List (List Nat)
  laneFails : List Nat
  laneLost : Bool
  failQ : List FailEntry
  dac : Nat
  remap : Option RemapRun
  remapQ : List RemapRun
  trackResid : List Int
  okLoops : List (Nat × Nat)
  failed : List Nat
  mark : Nat
deriving DecidableEq, Repr

/-- A tile after reset: nothing loaded, nothing running. -/
def Tile.reset : Tile :=
  ⟨0, none, none, none, ⟨0, 0, 0⟩, none, 0, [], false, 0, 0, [], false, [], none, [], [], [], [], [], [], [], false, [], 0, none,
   [], [], [], [], 0⟩

/-- What the gang's vector generation is doing (R107, R108, R113, R115, R118, R119). -/
inductive GenPhase
  | seg
  | dead (left : Nat) (nxt : Nat)
  | held (nxt : Nat)
  | under
  | ending (left : Nat)
  | over
deriving DecidableEq, Repr

/-- A jump request (R116, R117): latch vector, target, rank (0 host, 1 + i trigger i, 8 teller), passed a boundary. -/
structure JumpReq where
  nr : Nat
  target : Nat
  rank : Nat
  passed : Bool
deriving DecidableEq, Repr

/-- A hold request (R113): latch vector, thermal, passed a boundary. -/
structure HoldReq where
  nr : Nat
  thm : Bool
  passed : Bool
deriving DecidableEq, Repr

/-- What happens at the balls at a vector the generator has decided: a segment starts; a segment ends, with a host hold
or a thermal hold applying there; HOLD begins for an underrun; the gang runs again after a restart; the end sequence
has passed. -/
inductive GangEv
  | start (seg : Nat)
  | end_ (seg : Nat) (host thm : Bool)
  | under
  | back
  | stop
deriving DecidableEq, Repr

/-- A gang (R25): its tiles, the leader first, and the state its tiles share. `counted` holds vector, site and lowest
failing tile of the failing vectors whose results are not all in; `retested` and `remapped` serve R135. -/
structure Gang where
  tiles : List Nat
  job : Option Nat
  auto : Bool
  ts : Nat
  ns : Option Nat
  genNext : Nat
  phase : GenPhase
  seg : Nat
  segStart : Nat
  emitted : Nat
  lastStream : Option Nat
  holds : List HoldReq
  hostHold : Bool
  thermal : Bool
  resume : Option Nat
  restart : Option Nat
  jumps : List JumpReq
  abort : Option (Nat × Nat)
  stopAt : Nat
  status : Nat
  started : Bool
  restarted : Bool
  anyStarved : Bool
  warn : Bool
  evs : List (Nat × GangEv)
  sites : List Nat
  counted : List (Nat × Nat × Nat)
  retested : List Nat
  remapped : List Nat
  waiting : Bool
deriving DecidableEq, Repr

/-! ### Digitizers (R156 to R209) -/

/-- An open segment (R167, R174): its number, the instant and source of its first trigger, header flags so far,
pre-trigger samples, trigger fraction, stored index of the trigger sample of the acquisition in progress, vector at the
first trigger sample, acquisitions added and their accumulation per input, sample and component. -/
structure DigSeg where
  seq : Nat
  tau : Nat
  src : Nat
  flags : Nat
  pre : Nat
  tfrac : Nat
  jt : Nat
  vec : Nat
  accs : Nat
  acc : List (List (List Int))
deriving DecidableEq, Repr

/-- A completed segment: number, 64-byte header, body as stored, body decoded (R184). -/
structure DigStored where
  seq : Nat
  hdr : List Nat
  body : List Nat
  plain : List Nat
deriving DecidableEq, Repr

/-- A spill record not yet written (R175): segment, samples per input, bytes with header and padding. -/
structure SpillRec where
  seq : Nat
  count : Nat
  bytes : List Nat
deriving DecidableEq, Repr

/-- The trigger accepted last, while another trigger or a stop of the same stored sample may still come before it (R169, R181):
the stored sample in which its decision fell, its source, its trigger sample, and what the acceptance changed: the state, the
segment, the instants, the holdoff and the auto timer before it. -/
structure DigUndo where
  sample : Nat
  src : Nat
  jt : Nat
  state : Nat
  seg : Option DigSeg
  endAt : Option Nat
  lastTau : Option Nat
  autoAt : Option Nat
  holdEnd : Nat
  holdOn : Bool
  flagged : Bool
deriving DecidableEq, Repr

/-- The unregistered state of one digitizer: its job, the arm's settings (segments, capacity, mask points, spill ring,
FIR bank and coefficients), capture progress, the capture set held, both coefficient banks, preset loads under way, the trigger
that may still be undone, and when a tapped ball was last in the safe state. -/
structure Dig where
  job : Option Nat
  nseg : Nat
  mask : List (Int × Int × Int)
  ring : Nat
  ploc : Nat
  log2 : Nat
  fbank : Nat
  coefs : List Int
  pllOn : Bool
  fillJ : Nat
  preFull : Bool
  holdOn : Bool
  holdEnd : Nat
  endAt : Option Nat
  lastTau : Option Nat
  autoAt : Option Nat
  bcast : List Nat
  open_ : Option DigSeg
  nextSeq : Nat
  store : List DigStored
  spillQ : List SpillRec
  maskStop : Bool
  missed : Nat
  early : Nat
  flagged : Bool
  ending : Option (Nat × Nat)
  fir0 : Map Nat
  fir1 : Map Nat
  preset : List (Nat × Bool)
  undo : Option DigUndo
  safeTo : Option Nat
deriving DecidableEq, Repr

/-- A digitizer after reset: stopped, nothing captured, both FIR banks at the identity set (R197). -/
def Dig.reset : Dig :=
  ⟨none, 0, [], 0, 0, 0, 0, [], false, 0, false, false, 0, none, none, none, [], none, 0, [], [], false, 0, 0, false, none,
   [], [], [], none, none⟩

/-! ### Memory, translation and jobs (R263 to R310) -/

/-- An entry of the translation cache (R290): tag, size as log2 of its bytes, physical base, permissions, holders of
a lock (ring or context codes), last use. -/
structure AtcEntry where
  pv : Bool
  pasid : Nat
  va : Nat
  size : Nat
  pa : Nat
  r : Bool
  w : Bool
  locks : List Nat
  used : Nat
deriving DecidableEq, Repr

/-- A Translation Request outstanding (R290): page, access, who asked (SQ q: q; CQ or EVR r: 256 + r; the pin of a
context k: 600 + k; the refill of a tile t: 700 + t; the snapshot buffer 790; the relock of a context k: 800 + k; job j: 1000 + j), whether an
invalidation has covered it since (R293), and whether it follows a page request's Success (R306). -/
structure XltReq where
  pv : Bool
  pasid : Nat
  va : Nat
  wr : Bool
  who : List Nat
  stale : Bool
  retried : Bool
deriving DecidableEq, Repr

/-- A page request group (R305): index, page, access, who waits (coded as in `XltReq`), and whether its time ran out. -/
structure PrgGroup where
  idx : Nat
  pv : Bool
  pasid : Nat
  va : Nat
  wr : Bool
  who : List Nat
  dead : Bool
deriving DecidableEq, Repr

/-- A transfer stream of a job over the link (R299): direction, address of the next byte, bytes to write or number
of bytes to read, and how far it has come; whether it waits for a translation, whether its context has been checked (R296), and
the page whose address checks it has passed (R289). -/
structure Stream where
  job : Nat
  ctx : Nat
  wr : Bool
  va : Nat
  data : List Nat
  len : Nat
  done : Nat
  wait : Bool
  checked : Bool
  page : Option Nat
deriving DecidableEq, Repr

/-- A read granule issued and not yet completed, with the PV and PASID it went out under. -/
structure ReadTag where
  tagNo : Nat
  job : Nat
  va : Nat
  pa : Nat
  len : Nat
  pv : Bool
  pasid : Nat
deriving DecidableEq, Repr

/-- An invalidation request queued (R293), with the number of the first read issued after it came. -/
structure InvReq where
  pv : Bool
  pasid : Nat
  base : Nat
  size : Nat
  upTo : Nat
deriving DecidableEq, Repr

/-- The translation and DMA state outside registers: cache and its use clock; requests, faults waiting for a group
index, groups, invalidations; transfer streams and reads issued; the weighted round-robin's context and granules spent,
per direction (key 0 reads, 1 writes); credit of each reservation in 2^-20 bytes with the time it was taken (key 2 k +
direction); contexts whose pin has failed; host reads that wait for room in the snoop filter (R254). -/
structure Xlt where
  atc : List AtcEntry
  clock : Nat
  reqs : List XltReq
  faultQ : List XltReq
  groups : List PrgGroup
  invs : List InvReq
  streams : List Stream
  reads : List ReadTag
  tagNext : Nat
  turn : Map (Nat × Nat)
  credit : Map (Nat × Nat)
  pinFail : List Nat
  memReads : List Nat
deriving DecidableEq, Repr

/-- Where a fetched descriptor's job stands (R273, R282, R307). `done` holds status and results. -/
inductive JobPhase
  | fetched
  | dispatched
  | running
  | draining (st r0 r1 r2 : Nat)
  | done (st r0 r1 r2 : Nat)
deriving DecidableEq, Repr

/-- A job-table entry (R271, R276). -/
structure Job where
  sq : Nat
  cidx : Nat
  tag : Nat
  opcode : Nat
  flags : Nat
  ctx : Nat
  fence : Bool
  cie : Bool
  args : List Nat
  pri : Nat
  phase : JobPhase
  order : Nat
  susp : Bool
  buf : List (Nat × List Nat)
  units : List Nat
  tally : List Nat
  rec_ : List Nat
  prior : List Nat
deriving DecidableEq, Repr

/-- A completion waiting in device memory (R274). -/
structure WaitCpl where
  cq : Nat
  entry : List Nat
  cie : Bool
  place : Nat
deriving DecidableEq, Repr

/-- An event to post (R280). -/
structure Event where
  type : Nat
  unit : Nat
  arg0 : Nat
  arg1 : Nat
  time : Nat
deriving DecidableEq, Repr

/-- The ring state outside registers: job table, waiting completions, rings stopped by an error (CQ and EVR r as 256 +
r), enables waiting for translations, round-robin place per class, pending entries and running timers of moderation,
events to post, events that wait for an EVR that cannot be written now (R294), the MSI-X table's words (R259) and its pending vectors, and messages sent by vector. -/
structure Rings where
  jobs : Map Job
  nextJob : Nat
  nextOrder : Nat
  waiting : List WaitCpl
  stopped : List Nat
  enabling : List Nat
  rr : Map Nat
  pend : Map Nat
  timers : List Nat
  events : List Event
  evrWait : Map (List Event)
  msixTab : Map Nat
  msixPend : List Nat
  msixSent : Map Nat
deriving DecidableEq, Repr

/-! ### Fault collection (R407 to R428) -/

/-- An armed injection point (R423, R425). -/
structure InjPoint where
  det : Nat
  persistent : Bool
  timed : Bool
  t : Nat
  param : Nat
  inForce : Bool
  raised : Bool
  job : Option Nat
deriving DecidableEq, Repr

/-- The fault collector outside registers: real conditions of level detectors, signals not yet sampled, kinds whose
output is raised, rail pairs that disagree. -/
structure Flt where
  real : List Nat
  signals : List (Nat × Nat)
  raised : List Nat
  wires : List Nat
  points : List InjPoint
  seq : Nat
deriving DecidableEq, Repr

/-! ### HBM controller (R312 to R334) -/

/-- A request at a pseudo-channel's scheduler (R317): its rank, requester kind (0 refill, 1 journal, 2 capture, 3 teller
LDH or STH, 4 teller BLK or BST, 5 job, 6 host, 7 corrected write-back, 8 scrub), the requester's number, the line, whether it
writes, and for a job read the virtual address of the line's first byte. -/
structure MemReq where
  rank : Nat
  kind : Nat
  who : Nat
  line : Nat
  wr : Bool
  va : Nat
deriving DecidableEq, Repr

/-- The controller outside registers, by pseudo-channel 2 h + pc: requests, refresh debt, pseudo-channels that hold
real-time requests, banks refreshed in the present round, neighbour refreshes queued, open row by 64 x + bank, times at
which correctable errors were found in a row, rows due for repair, rows under repair, next line of the scrub, requester
kind served last at rank 4; the point a change goes to; the channels that have failed in the retrain under way; the temperature of the
last training of the point that is not in force. -/
structure Hbm where
  reqs : List MemReq
  debt : Map Nat
  held : List Nat
  round : Map (List Nat)
  nrr : Map Nat
  rows : Map Nat
  occ : Map (List Nat)
  due : List (Nat × Nat)
  repairing : List (Nat × Nat)
  patrol : Map Nat
  turn : Map Nat
  target : Nat
  retry : List Nat
  otherT : Nat
deriving DecidableEq, Repr

/-! ### Tellers (R210 to R241) -/

/-- An outstanding load of a teller (R215, R217): T register 0 to 7 with its value once at hand, or (8) a block for the
staging window at `dst`; the device line and offset it comes from. -/
structure TelLoad where
  t : Nat
  dst : Nat
  line : Nat
  off : Nat
  val : Option (List Nat)
deriving DecidableEq, Repr

/-- A message in a send slot (R237): the message as sent, and whether it has left the device. -/
structure SendSlot where
  msg : List Nat
  away : Bool
deriving DecidableEq, Repr

/-- What holds the next microword (R216): a time, or a WAIT code 0x80 to 0x83. -/
inductive TelHold
  | none
  | until_ (t : Nat)
  | cond (c : Nat)
deriving DecidableEq, Repr

/-- A teller outside its registers (R210): general and T registers, flags Z N C V, loop counter, micro-stack, scratch by
8-byte word, site mask, current site, instant at which the timer reaches 0, queues, control store and entry table as
loaded, roles its image serves, pending events, the microword in progress (A, B and the port conditions as latched, parts done), whether the
running routine's event is consumed, what holds the next microword, loads, entry instant, instant of COMMIT, instants of its
halts, assignments waiting (role, job), instant of the last one, the ASSIGN_ROLE job whose ROLE routine it owes, and the
analysis item (job, site) it works on. -/
structure Teller where
  g : Map Nat
  t : Map Nat
  z : Bool
  n : Bool
  c : Bool
  v : Bool
  lc : Nat
  stack : List Nat
  scratch : Map Nat
  sm : Nat
  cs : Nat
  timer : Option Nat
  inbox : List (List Nat)
  outbox : List (List Nat)
  slots : List SendSlot
  reports : List (List Nat)
  store : List Nat
  entries : List Nat
  roles : Nat
  pend : List Nat
  mw : Option (Nat × Nat × Nat)
  done : List Nat
  used : Bool
  hold : TelHold
  loads : List TelLoad
  since : Nat
  commitAt : Nat
  halts : List Nat
  assign : List (Nat × Option Nat)
  lastAssign : Option Nat
  roleJobs : List Nat
  item : Option (Nat × Nat)
deriving DecidableEq, Repr

/-- A teller after reset: EMPTY, holding IDLE. -/
def Teller.reset : Teller :=
  ⟨[], [], false, false, false, false, 0, [], [], 0, 0, none, [], [], [], [], [], [], 0, [], none, [], false, .none, [], 0, 0,
   [], [], none, [], none⟩

/-! ### Time base and ring (R335 to R367) -/

/-- A launch that waits at the OUT transmitter (R356, R361): launch time asked for, frame type, payload, its job, whether
the time had passed at acceptance. -/
structure Launch where
  tl : Nat
  type : Nat
  payload : List Nat
  job : Option Nat
  late : Bool
deriving DecidableEq, Repr

/-- A pending snapshot (R360, R361): time, number, from a SNAP frame, its job, OUT not UP. -/
structure Snap where
  t : Nat
  seqn : Nat
  frame : Bool
  job : Option Nat
  noRing : Bool
deriving DecidableEq, Repr

/-- The time base and ring link outside registers: ring time has been set; QUAL of the last valid TIME frame; none came
for 10 periods; correction still to slew, and whether it is the holdover slew; offsets, delay samples and outliers in a
row; the PDELAY_REQ in flight (launch, SEQ); transmit queues; frame numbers by type; last SEQ by 32 type + originator;
instants from which each transmitter is free; pending snapshots; a snapshot record on its way to `TIM_SNAPBUF`; last
Strum stamp and offsets; last frame launched on OUT and on the return pair. -/
structure TimeRing where
  everSet : Bool
  qualIn : Nat
  noFrame : Bool
  slew : Int
  holdSlew : Bool
  offs : List Int
  samples : List Int
  outliers : Nat
  req : Option (Nat × Nat)
  launches : List Launch
  fwd : List (Nat × List Nat)
  timeDue : Bool
  reqDue : Bool
  msgs : List (Bool × Nat × List Nat)
  seqs : Map Nat
  lastSeq : Map Nat
  outFree : Nat
  retFree : Nat
  snaps : List Snap
  snapOut : Option (Nat × List Nat)
  strumAt : Option Nat
  strumOfs : List Int
  lastOut : Option (Nat × List Nat)
  lastRet : Option (Nat × List Nat)
deriving DecidableEq, Repr

/-- The time base after cold reset. -/
def TimeRing.reset : TimeRing :=
  ⟨false, 0, false, 0, false, [], [], 0, none, [], [], false, false, [], [], [], 0, 0, [], none, none, [], none, none⟩

/-! ### Reset and start-up (R449 to R458) -/

/-- Start-up outside registers: power-on reset holds; PERST_N is high; the PLLs after RAILS have been started, and have
locked; rounds in a row with every rail in window; the ASSIGN_ROLE job that waits for the start-up calibration; a CXL Reset
runs; key slots whose fuses did not read alike at the last boot. -/
structure Boot where
  por : Bool
  perst : Bool
  plls : Bool
  locked : Bool
  rounds : Nat
  startCal : Option Nat
  cxl : Bool
  misread : List Nat
deriving DecidableEq, Repr

/-! ### Thermal watch and sideband (R396 to R405, R443 to R446) -/

/-- The thermal watch outside registers: by sensor, rounds suspect in a row and the used value before them; sector
temperatures of the last rounds and supply readings of the last three, newest first; sectors whose grace timer runs; used
values of the sensors are registers. -/
structure Thermal where
  suspect : Map (Nat × Int)
  temps : List (List Int)
  volts : List (List Int)
  grace : List Nat
deriving DecidableEq, Repr

/-- The sideband outside registers: one fuse command is armed; the fuse command being burned (code, slot, bytes); the
subsystem IDs burned, which apply from the next cold reset. -/
structure Sideband where
  armed : Bool
  burn : Option (Nat × Nat × List Nat)
  ssid : Option Nat
deriving DecidableEq, Repr

/-! ### The whole state -/

/-- The state of the block. -/
structure State where
  now : Nat
  fresh : Nat
  regs : Map Nat
  shadow : Map Nat
  latch : Map Nat
  resp : List Nat
  hostMem : List Host.Cell
  devMem : List Host.Cell
  badLines : List Nat
  slices : Map Slice
  tiles : Map Tile
  gangs : Map Gang
  sites : Map Site
  digs : Map Dig
  param : Map ParamEntry
  xlt : Xlt
  rings : Rings
  flt : Flt
  memEn : Bool
  cacheEn : Bool
  hdmProg : Option Nat
  sf : List Nat
  biAsked : List Nat
  biSent : List Nat
  cfg : Map Nat
  comp : Map Nat
  dcache : List Nat
  ioIde : Map Bool
  cmBad : Bool
  hbm : Hbm
  ring : TimeRing
  tellers : Map Teller
  items : List (Nat × Nat)
  roleEvts : Map (List Nat)
  boot : Boot
  thm : Thermal
  smb : Sideband
  lockout : List Nat
  ssid : Option Nat
  keyHash : Map (List Nat)
  d3 : Bool
  wakeReq : Nat
  laneDown : List Nat
  trigOut : Map (List Nat)
  startQ : List (Nat × Nat)
  pending : List Instr
deriving DecidableEq, Repr

/-- The block right after a power-on reset (R449, R454): every register at its Reset value (an empty map: each field
reads its table's Reset), nothing loaded, no job, nothing listed in memory, no command waiting. -/
def State.reset : State :=
  { now := 0, fresh := 0, regs := [], shadow := [], latch := [], resp := [], hostMem := [], devMem := [], badLines := []
    slices := [], tiles := [], gangs := [], sites := [], digs := [], param := []
    xlt := ⟨[], 0, [], [], [], [], [], [], 0, [], [], [], []⟩
    rings := ⟨[], 0, 0, [], [], [], [], [], [], [], [], [], [], []⟩
    flt := ⟨[], [], [], [], [], 0⟩
    memEn := false, cacheEn := false, hdmProg := none, sf := [], biAsked := [], biSent := []
    cfg := [], comp := [], dcache := [], ioIde := [], cmBad := false
    ring := TimeRing.reset, tellers := [], items := [], roleEvts := []
    hbm := ⟨[], [], [], [], [], [], [], [], [], [], [], 0, [], 0⟩
    boot := ⟨true, false, false, false, 0, none, false, []⟩, thm := ⟨[], [], [], []⟩, smb := ⟨false, none, none⟩, lockout := []
    ssid := none, keyHash := []
    d3 := false, wakeReq := 0, laneDown := [], trigOut := [], startQ := [], pending := [] }

end Sys2Proof.Machine
end

