-- ==== Sys2Proof/Machine/Regs.lean ====
section
/-! DEFINITION. The register fields of the SC768: every field of every register table of spec/ (R62, R88, R89, R123,
R153 to R155, R186, R187, R209, R241, R262, R287, R311, R312, R333, R367, R387 to R390, R406, R428, R448, R464, R468),
with its block offset (R465 to R472), bits, access (R7), class (R10, R481), reset value (R6) and "stored as" rule.
The name of a field is its register's name and the field's own. -/
namespace Sys2Proof.Machine

/-- Access codes of R7. -/
inductive Access | ro | rw | wo | w1c | rc
deriving DecidableEq, Repr

/-- Field classes of R10. -/
inductive Cls | s | b | l
deriving DecidableEq, Repr

/-- Reset column of R6: a number; a value of fuses, straps or silicon, or one with bits known to be set; the element's own index (`TIL_XPT_MAP`);
1 for the contexts 56 to 63 (`XLT_CTX_CFG.RT`). -/
inductive ResetVal | num (n : Nat) | fuse | fuseOr (n : Nat) | index | rtctx
deriving DecidableEq, Repr

/-- "stored as" rules of the Description columns: none; below lo stored as lo and above hi as hi; the low n bits stored
as 0; value a stored as b; bits outside the mask stored as 0; a rule that depends on other state (`storeIn`). -/
inductive Store | asIs | clamp (lo hi : Nat) | lowZero (n : Nat) | remap (a b : Nat) | keep (mask : Nat) | custom
deriving DecidableEq, Repr

/-- One field of a register: byte offset of its register's first element in its block, number of elements and their
stride, least bit, width, access, class, reset, stored-as rule. -/
structure Field where
  off : Nat
  count : Nat
  stride : Nat
  lsb : Nat
  width : Nat
  acc : Access
  cls : Cls
  rst : ResetVal
  sto : Store
deriving DecidableEq, Repr

namespace R

def CHN_BANK_SEL_BANK : Field := ⟨0x8, 1, 4, 0, 2, .rw, .l, .num 0, .asIs⟩
def CHN_BANK_STAT_SRC : Field := ⟨0xC, 1, 4, 0, 2, .ro, .l, .num 0, .asIs⟩
def CHN_BANK_STAT_TGT : Field := ⟨0xC, 1, 4, 2, 2, .ro, .l, .num 0, .asIs⟩
def CHN_BANK_STAT_GLIDING : Field := ⟨0xC, 1, 4, 4, 1, .ro, .l, .num 0, .asIs⟩
def CHN_BANK_STAT_QV : Field := ⟨0xC, 1, 4, 5, 1, .ro, .l, .num 0, .asIs⟩
def CHN_BANK_STAT_QBANK : Field := ⟨0xC, 1, 4, 6, 2, .ro, .l, .num 0, .asIs⟩
def CHN_BANK_STAT_REMAIN : Field := ⟨0xC, 1, 4, 16, 10, .ro, .l, .num 0, .asIs⟩
def CHN_CMP_CTL_MODE : Field := ⟨0x10, 1, 4, 0, 2, .rw, .s, .num 0, .remap 3 0⟩
def CHN_CMP_CTL_FILT : Field := ⟨0x10, 1, 4, 2, 1, .rw, .s, .num 0, .asIs⟩
def CHN_CMP_CTL_TICK : Field := ⟨0x10, 1, 4, 4, 10, .rw, .s, .num 0, .clamp 0 999⟩
def CHN_CMP_CTL_HYS : Field := ⟨0x10, 1, 4, 14, 4, .rw, .s, .num 0, .asIs⟩
def CHN_CMP_EVT_SRC : Field := ⟨0x14, 1, 4, 0, 2, .rw, .b, .num 0, .asIs⟩
def CHN_CMP_EVT_EDGE : Field := ⟨0x14, 1, 4, 2, 2, .rw, .b, .num 0, .asIs⟩
def CHN_CMP_EVT_IRQ_EN : Field := ⟨0x14, 1, 4, 4, 1, .rw, .l, .num 0, .asIs⟩
def CHN_CMP_EVT_WAKE_EN : Field := ⟨0x14, 1, 4, 5, 1, .rw, .l, .num 0, .asIs⟩
def CHN_CMP_EVT_WAKE_LVL : Field := ⟨0x14, 1, 4, 6, 1, .rw, .l, .num 0, .asIs⟩
def CHN_CMP_EVT_WAKE_POL : Field := ⟨0x14, 1, 4, 7, 1, .rw, .l, .num 0, .asIs⟩
def CHN_CMP_EVT_HI_STATE : Field := ⟨0x14, 1, 4, 16, 2, .ro, .l, .num 2, .asIs⟩
def CHN_CMP_EVT_LO_STATE : Field := ⟨0x14, 1, 4, 18, 2, .ro, .l, .num 2, .asIs⟩
def CHN_CMP_EVT_EVT : Field := ⟨0x14, 1, 4, 24, 1, .w1c, .l, .num 0, .asIs⟩
def CHN_LOAD_CTL_EN : Field := ⟨0x18, 1, 4, 0, 1, .rw, .b, .num 0, .asIs⟩
def CHN_PMU_CTL_MODE : Field := ⟨0x20, 1, 4, 0, 2, .rw, .s, .num 0, .remap 3 0⟩
def CHN_PMU_CTL_RANGE : Field := ⟨0x20, 1, 4, 2, 3, .rw, .s, .num 0, .clamp 0 4⟩
def CHN_PMU_CTL_PRESET : Field := ⟨0x20, 1, 4, 5, 2, .rw, .s, .num 1, .remap 3 1⟩
def CHN_PMU_CTL_CONNECT : Field := ⟨0x20, 1, 4, 7, 1, .rw, .s, .num 0, .asIs⟩
def CHN_PMU_CTL_SETTLE : Field := ⟨0x20, 1, 4, 8, 10, .rw, .s, .num 0, .asIs⟩
def CHN_PMU_CTL_START : Field := ⟨0x20, 1, 4, 18, 1, .wo, .l, .num 0, .asIs⟩
def CHN_PMU_CTL_CC_START : Field := ⟨0x20, 1, 4, 19, 1, .wo, .l, .num 0, .asIs⟩
def CHN_PMU_FORCE_CODE : Field := ⟨0x24, 1, 4, 0, 16, .rw, .s, .num 8192, .custom⟩
def CHN_PMU_CLAMP_HI : Field := ⟨0x28, 1, 4, 0, 16, .rw, .s, .num 0, .custom⟩
def CHN_PMU_CLAMP_LO : Field := ⟨0x28, 1, 4, 16, 16, .rw, .s, .num 0, .custom⟩
def CHN_PMU_CNT_N : Field := ⟨0x2C, 1, 4, 0, 16, .rw, .s, .num 0, .asIs⟩
def CHN_PMU_RES_RES : Field := ⟨0x30, 1, 4, 0, 32, .ro, .l, .num 0, .asIs⟩
def CHN_PMU_STAT_BUSY : Field := ⟨0x34, 1, 4, 0, 1, .ro, .l, .num 0, .asIs⟩
def CHN_PMU_STAT_DONE : Field := ⟨0x34, 1, 4, 1, 1, .w1c, .l, .num 0, .asIs⟩
def CHN_PMU_STAT_OVR : Field := ⟨0x34, 1, 4, 2, 1, .w1c, .l, .num 0, .asIs⟩
def CHN_PMU_STAT_CLAMPED : Field := ⟨0x34, 1, 4, 3, 1, .w1c, .l, .num 0, .asIs⟩
def CHN_PMU_STAT_ABORTED : Field := ⟨0x34, 1, 4, 4, 1, .w1c, .l, .num 0, .asIs⟩
def CHN_PMU_STAT_LOCKED : Field := ⟨0x34, 1, 4, 5, 1, .w1c, .l, .num 0, .asIs⟩
def CHN_PMU_STAT_STIGN : Field := ⟨0x34, 1, 4, 6, 1, .w1c, .l, .num 0, .asIs⟩
def CHN_CC_WIN_VHI : Field := ⟨0x38, 1, 4, 0, 16, .rw, .s, .num 5734, .clamp 0 57344⟩
def CHN_CC_WIN_VLO : Field := ⟨0x38, 1, 4, 16, 16, .rw, .s, .num 819, .clamp 0 57344⟩
def CHN_CC_RES_RESULT : Field := ⟨0x3C, 1, 4, 0, 2, .ro, .l, .num 0, .asIs⟩
def CHN_CC_RES_VMEAS : Field := ⟨0x3C, 1, 4, 8, 24, .ro, .l, .num 0, .asIs⟩
def CHN_VIH_CODE : Field := ⟨0x100, 4, 64, 0, 16, .rw, .l, .num 8192, .clamp 0 57344⟩
def CHN_VIL_CODE : Field := ⟨0x104, 4, 64, 0, 16, .rw, .l, .num 8192, .clamp 0 57344⟩
def CHN_VTT_CODE : Field := ⟨0x108, 4, 64, 0, 16, .rw, .l, .num 8192, .clamp 0 57344⟩
def CHN_VOH_CODE : Field := ⟨0x10C, 4, 64, 0, 16, .rw, .l, .num 8192, .clamp 0 57344⟩
def CHN_VOL_CODE : Field := ⟨0x110, 4, 64, 0, 16, .rw, .l, .num 8192, .clamp 0 57344⟩
def CHN_VCOM_CODE : Field := ⟨0x114, 4, 64, 0, 16, .rw, .l, .num 8192, .clamp 0 57344⟩
def CHN_VCH_CODE : Field := ⟨0x118, 4, 64, 0, 16, .rw, .l, .num 57344, .clamp 0 57344⟩
def CHN_VCL_CODE : Field := ⟨0x11C, 4, 64, 0, 16, .rw, .l, .num 0, .clamp 0 57344⟩
def CHN_IOH_CODE : Field := ⟨0x120, 4, 64, 0, 16, .rw, .l, .num 0, .clamp 0 48000⟩
def CHN_IOL_CODE : Field := ⟨0x124, 4, 64, 0, 16, .rw, .l, .num 0, .clamp 0 48000⟩
def CHN_GLIDE_EN : Field := ⟨0x128, 4, 64, 0, 1, .rw, .l, .num 0, .asIs⟩
def CHN_GLIDE_T : Field := ⟨0x128, 4, 64, 4, 10, .rw, .l, .num 0, .asIs⟩
def TIL_VCLK_CTL_EN : Field := ⟨0x100, 1, 4, 0, 1, .rw, .l, .num 0, .asIs⟩
def TIL_VCLK_CTL_ARM : Field := ⟨0x100, 1, 4, 1, 1, .wo, .l, .num 0, .asIs⟩
def TIL_VCLK_CTL_CANCEL : Field := ⟨0x100, 1, 4, 2, 1, .wo, .l, .num 0, .asIs⟩
def TIL_VCLK_STAT_RUNNING : Field := ⟨0x104, 1, 4, 0, 1, .ro, .l, .num 0, .asIs⟩
def TIL_VCLK_STAT_PEND : Field := ⟨0x104, 1, 4, 1, 1, .ro, .l, .num 0, .asIs⟩
def TIL_VCLK_STAT_APPLIED : Field := ⟨0x104, 1, 4, 2, 1, .w1c, .l, .num 0, .asIs⟩
def TIL_VCLK_STAT_REFUSED : Field := ⟨0x104, 1, 4, 3, 1, .w1c, .l, .num 0, .asIs⟩
def TIL_VCLK_STAT_RCAUSE : Field := ⟨0x104, 1, 4, 4, 3, .ro, .l, .num 0, .asIs⟩
def TIL_VCLK_STAT_FRET_INV : Field := ⟨0x104, 1, 4, 7, 1, .w1c, .l, .num 0, .asIs⟩
def TIL_VCLK_STAT_WR_IGN : Field := ⟨0x104, 1, 4, 8, 1, .w1c, .l, .num 0, .asIs⟩
def TIL_VCLK_FTW_LO_FTW : Field := ⟨0x108, 1, 4, 0, 32, .rw, .s, .num 0, .asIs⟩
def TIL_VCLK_FTW_HI_FTW : Field := ⟨0x10C, 1, 4, 0, 16, .rw, .s, .num 8192, .asIs⟩
def TIL_VCLK_EPOCH0_FRAC : Field := ⟨0x110, 1, 4, 0, 16, .rw, .s, .num 0, .asIs⟩
def TIL_VCLK_EPOCH1_NS : Field := ⟨0x114, 1, 4, 0, 30, .rw, .s, .num 0, .asIs⟩
def TIL_VCLK_EPOCH2_SEC : Field := ⟨0x118, 1, 4, 0, 32, .rw, .s, .num 0, .asIs⟩
def TIL_VCLK_EPOCH3_SEC : Field := ⟨0x11C, 1, 4, 0, 16, .rw, .s, .num 0, .asIs⟩
def TIL_VCLK_PH0_LO_PH0 : Field := ⟨0x120, 1, 4, 0, 32, .rw, .s, .num 0, .asIs⟩
def TIL_VCLK_PH0_HI_PH0 : Field := ⟨0x124, 1, 4, 0, 32, .rw, .s, .num 0, .asIs⟩
def TIL_VCLK_NFTW_LO_NFTW : Field := ⟨0x128, 1, 4, 0, 32, .rw, .l, .num 0, .asIs⟩
def TIL_VCLK_NFTW_HI_NFTW : Field := ⟨0x12C, 1, 4, 0, 16, .rw, .l, .num 0, .asIs⟩
def TIL_VCLK_NTIME0_FRAC : Field := ⟨0x130, 1, 4, 0, 16, .rw, .l, .num 0, .asIs⟩
def TIL_VCLK_NTIME1_NS : Field := ⟨0x134, 1, 4, 0, 30, .rw, .l, .num 0, .asIs⟩
def TIL_VCLK_NTIME2_SECL : Field := ⟨0x138, 1, 4, 0, 32, .rw, .l, .num 0, .asIs⟩
def TIL_VCLK_NTIME3_SECH : Field := ⟨0x13C, 1, 4, 0, 16, .rw, .l, .num 0, .asIs⟩
def TIL_TDC_CTL_REC : Field := ⟨0x150, 1, 4, 0, 2, .rw, .b, .num 0, .remap 3 0⟩
def TIL_TDC_STAT_OVF : Field := ⟨0x154, 1, 4, 0, 1, .w1c, .l, .num 0, .asIs⟩
def TIL_TDC_STAT_BUSY_SEEN : Field := ⟨0x154, 1, 4, 1, 1, .w1c, .l, .num 0, .asIs⟩
def TIL_TDC_STAT_LOST_SEEN : Field := ⟨0x154, 1, 4, 2, 1, .w1c, .l, .num 0, .asIs⟩
def TIL_TDC_STAT_WR_IGN : Field := ⟨0x154, 1, 4, 3, 1, .w1c, .l, .num 0, .asIs⟩
def TIL_TDC_DROP_DROP : Field := ⟨0x158, 1, 4, 0, 32, .rc, .l, .num 0, .asIs⟩
def TIL_TDC_BUSYCNT_BUSYCNT : Field := ⟨0x15C, 1, 4, 0, 32, .rc, .l, .num 0, .asIs⟩
def TIL_FRET_D_OFS : Field := ⟨0x0, 4, 4, 0, 32, .rw, .b, .num 0, .asIs⟩
def TIL_FRET_C0_OFS : Field := ⟨0x14, 1, 4, 0, 32, .rw, .b, .num 0, .asIs⟩
def TIL_FRET_C1_OFS : Field := ⟨0x18, 1, 4, 0, 32, .rw, .b, .num 0, .asIs⟩
def TIL_FRET_TSTART_OFS : Field := ⟨0x20, 1, 4, 0, 32, .rw, .b, .num 0, .asIs⟩
def TIL_FRET_DACT_ACT0 : Field := ⟨0x10, 1, 4, 0, 3, .rw, .b, .num 0, .asIs⟩
def TIL_FRET_DACT_ACT1 : Field := ⟨0x10, 1, 4, 4, 3, .rw, .b, .num 0, .asIs⟩
def TIL_FRET_DACT_ACT2 : Field := ⟨0x10, 1, 4, 8, 3, .rw, .b, .num 0, .asIs⟩
def TIL_FRET_DACT_ACT3 : Field := ⟨0x10, 1, 4, 12, 3, .rw, .b, .num 0, .asIs⟩
def TIL_FRET_CMODE_MODE : Field := ⟨0x1C, 1, 4, 0, 2, .rw, .b, .num 0, .asIs⟩
def TIL_FRET_TWIN_OPEN_DLY : Field := ⟨0x24, 1, 4, 0, 16, .rw, .b, .num 0, .asIs⟩
def TIL_FRET_TWIN_LEN : Field := ⟨0x24, 1, 4, 16, 8, .rw, .b, .num 1, .clamp 1 131⟩
def TIL_FRET_TWIN_NSTOP : Field := ⟨0x24, 1, 4, 24, 2, .rw, .b, .num 0, .asIs⟩
def TIL_FRET_TWIN_EN : Field := ⟨0x24, 1, 4, 26, 1, .rw, .b, .num 0, .asIs⟩
def TIL_FRET_TWIN_LIM_EN : Field := ⟨0x24, 1, 4, 27, 1, .rw, .b, .num 0, .asIs⟩
def TIL_FRET_STOPS_STOP0 : Field := ⟨0x28, 1, 4, 0, 2, .rw, .b, .num 0, .asIs⟩
def TIL_FRET_STOPS_STOP1 : Field := ⟨0x28, 1, 4, 2, 2, .rw, .b, .num 0, .asIs⟩
def TIL_FRET_STOPS_STOP2 : Field := ⟨0x28, 1, 4, 4, 2, .rw, .b, .num 0, .asIs⟩
def TIL_FRET_STOPS_STOP3 : Field := ⟨0x28, 1, 4, 6, 2, .rw, .b, .num 0, .asIs⟩
def TIL_FRET_TLIM_LO : Field := ⟨0x2C, 1, 4, 0, 16, .rw, .b, .num 0, .asIs⟩
def TIL_FRET_TLIM_HI : Field := ⟨0x2C, 1, 4, 16, 16, .rw, .b, .num 65534, .asIs⟩
def TIL_SEQ_CTL_ARM : Field := ⟨0x0, 1, 4, 0, 1, .wo, .l, .num 0, .asIs⟩
def TIL_SEQ_CTL_ABORT : Field := ⟨0x0, 1, 4, 1, 1, .wo, .l, .num 0, .asIs⟩
def TIL_SEQ_CTL_HOLD : Field := ⟨0x0, 1, 4, 2, 1, .wo, .l, .num 0, .asIs⟩
def TIL_SEQ_CTL_RESUME : Field := ⟨0x0, 1, 4, 3, 1, .wo, .l, .num 0, .asIs⟩
def TIL_SEQ_STAT_STATE : Field := ⟨0x4, 1, 4, 0, 3, .ro, .l, .num 0, .asIs⟩
def TIL_SEQ_STAT_LEADER : Field := ⟨0x4, 1, 4, 3, 1, .ro, .l, .num 0, .asIs⟩
def TIL_SEQ_STAT_SC96 : Field := ⟨0x4, 1, 4, 4, 1, .ro, .l, .num 0, .asIs⟩
def TIL_SEQ_STAT_STARVED : Field := ⟨0x4, 1, 4, 5, 1, .w1c, .l, .num 0, .asIs⟩
def TIL_SEQ_STAT_RESTARTED : Field := ⟨0x4, 1, 4, 6, 1, .w1c, .l, .num 0, .asIs⟩
def TIL_SEQ_STAT_JREF : Field := ⟨0x4, 1, 4, 7, 1, .w1c, .l, .num 0, .asIs⟩
def TIL_SEQ_STAT_MARGIN_LOW : Field := ⟨0x4, 1, 4, 8, 1, .w1c, .l, .num 0, .asIs⟩
def TIL_SEQ_STAT_WR_IGN : Field := ⟨0x4, 1, 4, 9, 1, .w1c, .l, .num 0, .asIs⟩
def TIL_SEQ_STAT_HOLD_THM : Field := ⟨0x4, 1, 4, 10, 1, .ro, .l, .num 0, .asIs⟩
def TIL_SEQ_STAT_DEPTH : Field := ⟨0x4, 1, 4, 11, 5, .ro, .l, .num 0, .asIs⟩
def TIL_SEQ_STAT_SEG : Field := ⟨0x4, 1, 4, 16, 12, .ro, .l, .num 0, .asIs⟩
def TIL_SEQ_START0_FRAC : Field := ⟨0x8, 1, 4, 0, 16, .rw, .s, .num 0, .asIs⟩
def TIL_SEQ_START1_NS : Field := ⟨0xC, 1, 4, 0, 30, .rw, .s, .num 0, .asIs⟩
def TIL_SEQ_START2_SECL : Field := ⟨0x10, 1, 4, 0, 32, .rw, .s, .num 0, .asIs⟩
def TIL_SEQ_START3_SECH : Field := ⟨0x14, 1, 4, 0, 16, .rw, .s, .num 0, .asIs⟩
def TIL_SEQ_JUMP_TARGET : Field := ⟨0x18, 1, 4, 0, 12, .rw, .l, .num 0, .asIs⟩
def TIL_SEQ_JUMP_GO : Field := ⟨0x18, 1, 4, 31, 1, .wo, .l, .num 0, .asIs⟩
def TIL_SEQ_JTRIG_TARGET : Field := ⟨0x20, 5, 4, 0, 12, .rw, .b, .num 0, .asIs⟩
def TIL_SEQ_JTRIG_EN : Field := ⟨0x20, 5, 4, 12, 1, .rw, .b, .num 0, .asIs⟩
def TIL_SEQ_RFTH_TH : Field := ⟨0x40, 1, 4, 0, 17, .rw, .b, .num 4096, .custom⟩
def TIL_SEQ_MARGIN_MARGIN : Field := ⟨0x44, 1, 4, 0, 32, .ro, .l, .num 0, .asIs⟩
def TIL_SEQ_SEGCNT_SEGCNT : Field := ⟨0x48, 1, 4, 0, 32, .ro, .l, .num 0, .asIs⟩
def TIL_SEQ_UNDERCNT_UNDERCNT : Field := ⟨0x4C, 1, 4, 0, 32, .rc, .l, .num 0, .asIs⟩
def TIL_SEQ_FILL_OCC : Field := ⟨0x50, 1, 4, 0, 17, .ro, .l, .num 0, .asIs⟩
def TIL_SEQ_RESSZ_RES : Field := ⟨0x54, 1, 4, 0, 17, .ro, .l, .num 0, .asIs⟩
def TIL_SEQ_XMAX_VAL : Field := ⟨0x58, 1, 4, 0, 24, .rw, .s, .num 16777215, .custom⟩
def TIL_SEQ_YMAX_VAL : Field := ⟨0x5C, 1, 4, 0, 24, .rw, .s, .num 16777215, .custom⟩
def TIL_SEQ_XSTRIDE_VAL : Field := ⟨0x60, 1, 4, 0, 24, .rw, .s, .num 1, .custom⟩
def TIL_SEQ_YSTRIDE_VAL : Field := ⟨0x64, 1, 4, 0, 24, .rw, .s, .num 1, .custom⟩
def TIL_SEQ_XBASE_VAL : Field := ⟨0x68, 1, 4, 0, 24, .rw, .s, .num 0, .custom⟩
def TIL_SEQ_YBASE_VAL : Field := ⟨0x6C, 1, 4, 0, 24, .rw, .s, .num 0, .custom⟩
def TIL_SEQ_X_VAL : Field := ⟨0x78, 1, 4, 0, 24, .ro, .l, .num 0, .asIs⟩
def TIL_SEQ_Y_VAL : Field := ⟨0x7C, 1, 4, 0, 24, .ro, .l, .num 0, .asIs⟩
def TIL_SEQ_D_VAL : Field := ⟨0x80, 1, 4, 0, 32, .ro, .l, .num 0, .asIs⟩
def TIL_SEQ_LAMBDA_LAMBDA : Field := ⟨0x84, 1, 4, 0, 7, .ro, .l, .num 16, .asIs⟩
def TIL_SITE_MAP_SITE : Field := ⟨0x200, 16, 4, 0, 8, .rw, .s, .num 0, .asIs⟩
def TIL_SITE_MAP_V : Field := ⟨0x200, 16, 4, 8, 1, .rw, .s, .num 0, .asIs⟩
def TIL_SEQ_PINFN_SRC : Field := ⟨0x240, 16, 4, 0, 2, .rw, .s, .num 0, .asIs⟩
def TIL_SEQ_PINFN_BIT : Field := ⟨0x240, 16, 4, 2, 5, .rw, .s, .num 0, .custom⟩
def TIL_SEQ_PINFN_INV : Field := ⟨0x240, 16, 4, 7, 1, .rw, .s, .num 0, .asIs⟩
def TIL_SEQ_LCNT_COUNT : Field := ⟨0x280, 16, 4, 0, 32, .rw, .s, .num 1, .clamp 1 0xFFFFFFFF⟩
def TIL_SEQ_LOOP_LEFT : Field := ⟨0x2C0, 16, 4, 0, 32, .ro, .l, .num 0, .asIs⟩
def GLB_SITE_STAT_FAIL : Field := ⟨0x0, 1, 4, 0, 1, .ro, .l, .num 0, .asIs⟩
def GLB_SITE_STAT_PFAIL : Field := ⟨0x0, 1, 4, 1, 1, .ro, .l, .num 0, .asIs⟩
def GLB_SITE_STAT_STARVED : Field := ⟨0x0, 1, 4, 2, 1, .ro, .l, .num 0, .asIs⟩
def GLB_SITE_STAT_RESTARTED : Field := ⟨0x0, 1, 4, 3, 1, .ro, .l, .num 0, .asIs⟩
def GLB_SITE_STAT_SUSPECT : Field := ⟨0x0, 1, 4, 4, 1, .ro, .l, .num 0, .asIs⟩
def GLB_SITE_STAT_RETESTED : Field := ⟨0x0, 1, 4, 5, 1, .ro, .l, .num 0, .asIs⟩
def GLB_SITE_STAT_NORETEST : Field := ⟨0x0, 1, 4, 6, 1, .ro, .l, .num 0, .asIs⟩
def GLB_SITE_STAT_INCOMPL : Field := ⟨0x0, 1, 4, 7, 1, .ro, .l, .num 0, .asIs⟩
def GLB_SITE_STAT_CAPPED : Field := ⟨0x0, 1, 4, 8, 1, .ro, .l, .num 0, .asIs⟩
def GLB_SITE_STAT_LOST : Field := ⟨0x0, 1, 4, 9, 1, .ro, .l, .num 0, .asIs⟩
def GLB_SITE_STAT_OOR : Field := ⟨0x0, 1, 4, 10, 1, .ro, .l, .num 0, .asIs⟩
def GLB_SITE_STAT_TSAT : Field := ⟨0x0, 1, 4, 11, 1, .ro, .l, .num 0, .asIs⟩
def GLB_SITE_STAT_NOROOM : Field := ⟨0x0, 1, 4, 12, 1, .ro, .l, .num 0, .asIs⟩
def GLB_SITE_STAT_WR_IGN : Field := ⟨0x0, 1, 4, 13, 1, .w1c, .l, .num 0, .asIs⟩
def GLB_SITE_STAT_ACTIVE : Field := ⟨0x0, 1, 4, 14, 1, .ro, .l, .num 0, .asIs⟩
def GLB_SITE_STAT_BINV : Field := ⟨0x0, 1, 4, 15, 1, .ro, .l, .num 0, .asIs⟩
def GLB_SITE_STAT_REPAIR : Field := ⟨0x0, 1, 4, 16, 3, .ro, .l, .num 0, .asIs⟩
def GLB_SITE_STAT_BIN : Field := ⟨0x0, 1, 4, 24, 8, .ro, .l, .num 0, .asIs⟩
def GLB_SITE_FCNT_FCNT : Field := ⟨0x4, 1, 4, 0, 32, .ro, .l, .num 0, .asIs⟩
def GLB_SITE_FVEC_LO_FVEC : Field := ⟨0x8, 1, 4, 0, 32, .ro, .l, .num 0, .asIs⟩
def GLB_SITE_FVEC_HI_FVEC : Field := ⟨0xC, 1, 4, 0, 32, .ro, .l, .num 0, .asIs⟩
def GLB_SITE_FADDR_LO_FADDR : Field := ⟨0x10, 1, 4, 0, 32, .ro, .l, .num 0, .asIs⟩
def GLB_SITE_FADDR_HI_FADDR : Field := ⟨0x14, 1, 4, 0, 16, .ro, .l, .num 0, .asIs⟩
def GLB_SITE_LCFG_FORM : Field := ⟨0x18, 1, 4, 0, 2, .rw, .s, .num 0, .asIs⟩
def GLB_SITE_LCFG_XW : Field := ⟨0x18, 1, 4, 2, 5, .rw, .s, .num 0, .clamp 0 24⟩
def GLB_SITE_LCFG_YW : Field := ⟨0x18, 1, 4, 7, 5, .rw, .s, .num 0, .clamp 0 24⟩
def GLB_SITE_LCFG_IOW : Field := ⟨0x18, 1, 4, 12, 6, .rw, .s, .num 0, .asIs⟩
def GLB_SITE_CAP_CAP : Field := ⟨0x1C, 1, 4, 0, 21, .rw, .s, .num 4096, .clamp 1 1048576⟩
def TIL_FAIL_MASK_MASK : Field := ⟨0x180, 1, 4, 0, 16, .rw, .b, .num 0, .asIs⟩
def TIL_FAIL_STAT_OVF : Field := ⟨0x184, 1, 4, 0, 1, .w1c, .l, .num 0, .asIs⟩
def TIL_FAIL_STAT_WR_IGN : Field := ⟨0x184, 1, 4, 1, 1, .w1c, .l, .num 0, .asIs⟩
def TIL_FAIL_DROP_DROP : Field := ⟨0x188, 1, 4, 0, 32, .rc, .l, .num 0, .asIs⟩
def TIL_FAIL_QOCC_OCC : Field := ⟨0x18C, 1, 4, 0, 13, .ro, .l, .num 0, .asIs⟩
def TIL_FAIL_IO_IO : Field := ⟨0x300, 16, 4, 0, 6, .rw, .s, .num 0, .asIs⟩
def TIL_FAIL_IO_LGR : Field := ⟨0x300, 16, 4, 6, 1, .rw, .s, .num 0, .asIs⟩
def SEC_LGR_BASE_LO_BASE : Field := ⟨0x80000, 1, 4, 0, 32, .rw, .s, .num 0, .lowZero 12⟩
def SEC_LGR_BASE_HI_BASE : Field := ⟨0x80004, 1, 4, 0, 32, .rw, .s, .num 0, .asIs⟩
def SEC_LGR_SIZE_SIZE : Field := ⟨0x80008, 1, 4, 0, 32, .rw, .s, .num 0, .asIs⟩
def SEC_LGR_USED_USED : Field := ⟨0x8000C, 1, 4, 0, 32, .ro, .l, .num 0, .asIs⟩
def DIG_CTL_STOP : Field := ⟨0x0, 1, 4, 0, 1, .wo, .l, .num 0, .asIs⟩
def DIG_CTL_SOFT : Field := ⟨0x0, 1, 4, 1, 1, .wo, .l, .num 0, .asIs⟩
def DIG_STAT_STATE : Field := ⟨0x4, 1, 4, 0, 3, .ro, .l, .num 0, .asIs⟩
def DIG_STAT_CAUSE : Field := ⟨0x4, 1, 4, 3, 3, .ro, .l, .num 0, .asIs⟩
def DIG_STAT_CLIP : Field := ⟨0x4, 1, 4, 6, 1, .w1c, .l, .num 0, .asIs⟩
def DIG_STAT_MISSED : Field := ⟨0x4, 1, 4, 7, 1, .w1c, .l, .num 0, .asIs⟩
def DIG_STAT_EARLY : Field := ⟨0x4, 1, 4, 8, 1, .w1c, .l, .num 0, .asIs⟩
def DIG_STAT_SPILL_LOST : Field := ⟨0x4, 1, 4, 9, 1, .w1c, .l, .num 0, .asIs⟩
def DIG_STAT_VIOL : Field := ⟨0x4, 1, 4, 10, 1, .w1c, .l, .num 0, .asIs⟩
def DIG_CFG_INMODE : Field := ⟨0x8, 1, 4, 0, 2, .rw, .b, .num 0, .remap 3 0⟩
def DIG_CFG_INMASK : Field := ⟨0x8, 1, 4, 2, 4, .rw, .b, .num 1, .asIs⟩
def DIG_CFG_POLICY : Field := ⟨0x8, 1, 4, 6, 1, .rw, .b, .num 0, .asIs⟩
def DIG_CFG_CAPMODE : Field := ⟨0x8, 1, 4, 7, 1, .rw, .b, .num 0, .asIs⟩
def DIG_CFG_SPILL : Field := ⟨0x8, 1, 4, 8, 1, .rw, .b, .num 0, .asIs⟩
def DIG_CFG_MASKACT : Field := ⟨0x8, 1, 4, 9, 1, .rw, .b, .num 0, .asIs⟩
def DIG_CFG_SEGEVT : Field := ⟨0x8, 1, 4, 10, 1, .rw, .b, .num 0, .asIs⟩
def DIG_CFG_MLINE : Field := ⟨0x8, 1, 4, 11, 2, .rw, .b, .num 0, .asIs⟩
def DIG_PRE_PRE : Field := ⟨0xC, 1, 4, 0, 32, .rw, .b, .num 0, .asIs⟩
def DIG_POST_POST : Field := ⟨0x10, 1, 4, 0, 32, .rw, .b, .num 1, .clamp 1 0xFFFFFFFF⟩
def DIG_TRIG_EN_ANALOG : Field := ⟨0x14, 1, 4, 0, 1, .rw, .b, .num 0, .asIs⟩
def DIG_TRIG_EN_CMP : Field := ⟨0x14, 1, 4, 1, 1, .rw, .b, .num 0, .asIs⟩
def DIG_TRIG_EN_VFLAG : Field := ⟨0x14, 1, 4, 2, 1, .rw, .b, .num 0, .asIs⟩
def DIG_TRIG_EN_BCAST : Field := ⟨0x14, 1, 4, 3, 1, .rw, .b, .num 0, .asIs⟩
def DIG_TRIG_EN_TIN : Field := ⟨0x14, 1, 4, 4, 4, .rw, .b, .num 0, .asIs⟩
def DIG_TRIG_LVL_LINE : Field := ⟨0x18, 1, 4, 0, 2, .rw, .l, .num 0, .asIs⟩
def DIG_TRIG_LVL_COND : Field := ⟨0x18, 1, 4, 2, 1, .rw, .l, .num 0, .asIs⟩
def DIG_TRIG_LVL_DIR : Field := ⟨0x18, 1, 4, 3, 2, .rw, .l, .num 0, .remap 3 2⟩
def DIG_TRIG_LVL_HYS : Field := ⟨0x18, 1, 4, 8, 8, .rw, .l, .num 8, .asIs⟩
def DIG_TRIG_WIN_LO : Field := ⟨0x1C, 1, 4, 0, 12, .rw, .l, .num 0, .asIs⟩
def DIG_TRIG_WIN_HI : Field := ⟨0x1C, 1, 4, 16, 12, .rw, .l, .num 2047, .asIs⟩
def DIG_TRIG_SRC_CCH : Field := ⟨0x20, 1, 4, 0, 8, .rw, .b, .num 0, .clamp 0 191⟩
def DIG_TRIG_SRC_VTILE : Field := ⟨0x20, 1, 4, 8, 6, .rw, .b, .num 0, .clamp 0 47⟩
def DIG_TRIG_SRC_BCID : Field := ⟨0x20, 1, 4, 14, 8, .rw, .b, .num 0, .asIs⟩
def DIG_TRIG_SRC_TINPOL : Field := ⟨0x20, 1, 4, 22, 4, .rw, .b, .num 0, .asIs⟩
def DIG_HOLDOFF_LO_HOLDOFF : Field := ⟨0x24, 1, 4, 0, 32, .rw, .l, .num 0, .custom⟩
def DIG_HOLDOFF_HI_HOLDOFF : Field := ⟨0x28, 1, 4, 0, 1, .rw, .l, .num 0, .custom⟩
def DIG_AUTO_TO : Field := ⟨0x2C, 1, 4, 0, 24, .rw, .l, .num 1000, .clamp 1 10000000⟩
def DIG_AUTO_EN : Field := ⟨0x2C, 1, 4, 24, 1, .rw, .l, .num 0, .asIs⟩
def DIG_MISSED_MISSED : Field := ⟨0x30, 1, 4, 0, 32, .rc, .l, .num 0, .asIs⟩
def DIG_EARLY_EARLY : Field := ⟨0x34, 1, 4, 0, 32, .rc, .l, .num 0, .asIs⟩
def DIG_SEGDONE_SEGDONE : Field := ⟨0x38, 1, 4, 0, 32, .ro, .l, .num 0, .asIs⟩
def DIG_CAP_CAP : Field := ⟨0x3C, 1, 4, 0, 32, .ro, .l, .num 0, .asIs⟩
def DIG_VCNT_VCNT : Field := ⟨0x40, 1, 4, 0, 32, .rc, .l, .num 0, .asIs⟩
def DIG_SPILL_CI_CI : Field := ⟨0x44, 1, 4, 0, 31, .rw, .l, .num 0, .asIs⟩
def DIG_SPILL_PI_PI : Field := ⟨0x48, 1, 4, 0, 31, .ro, .l, .num 0, .asIs⟩
def DIG_SPILL_LOST_LOST : Field := ⟨0x4C, 1, 4, 0, 32, .rc, .l, .num 0, .asIs⟩
def SEC_TAP_CHAN : Field := ⟨0x80, 4, 4, 0, 8, .rw, .b, .num 0, .clamp 0 191⟩
def SEC_TAP_EN : Field := ⟨0x80, 4, 4, 8, 1, .rw, .b, .num 0, .asIs⟩
def SEC_TAP_ATT : Field := ⟨0x80, 4, 4, 9, 2, .rw, .b, .num 2, .remap 3 2⟩
def SEC_TAP_OFS : Field := ⟨0x80, 4, 4, 16, 16, .rw, .b, .num 8192, .clamp 0 57344⟩
def SEC_ACQ_BASE_LO_BASE : Field := ⟨0x80010, 1, 4, 0, 32, .rw, .s, .num 0, .lowZero 12⟩
def SEC_ACQ_BASE_HI_BASE : Field := ⟨0x80014, 1, 4, 0, 32, .rw, .s, .num 0, .asIs⟩
def SEC_ACQ_SIZE_SIZE : Field := ⟨0x80018, 1, 4, 0, 32, .rw, .s, .num 0, .asIs⟩
def SEC_ACQ_USED_USED : Field := ⟨0x8001C, 1, 4, 0, 32, .ro, .l, .num 0, .asIs⟩
def DIG_FILT_DMODE : Field := ⟨0x100, 1, 4, 0, 2, .rw, .b, .num 0, .asIs⟩
def DIG_FILT_K : Field := ⟨0x100, 1, 4, 2, 5, .rw, .b, .num 0, .clamp 0 16⟩
def DIG_FILT_FBANK : Field := ⟨0x100, 1, 4, 7, 1, .rw, .s, .num 0, .asIs⟩
def DIG_FILT_ACC : Field := ⟨0x100, 1, 4, 8, 2, .rw, .b, .num 0, .remap 3 0⟩
def DIG_FILT_CODE : Field := ⟨0x100, 1, 4, 10, 1, .rw, .b, .num 0, .asIs⟩
def DIG_FILT_M : Field := ⟨0x100, 1, 4, 11, 3, .rw, .b, .num 0, .clamp 0 4⟩
def DIG_ACC_N : Field := ⟨0x104, 1, 4, 0, 16, .rw, .b, .num 1, .clamp 1 0xFFFF⟩
def DIG_FIR_IDX_IDX : Field := ⟨0x108, 1, 4, 0, 8, .rw, .s, .num 0, .asIs⟩
def DIG_FIR_IDX_BANK : Field := ⟨0x108, 1, 4, 8, 1, .rw, .s, .num 0, .asIs⟩
def DIG_FIR_COEF_COEF : Field := ⟨0x10C, 1, 4, 0, 18, .rw, .s, .num 0, .asIs⟩
def DIG_FIR_PRE_SET : Field := ⟨0x110, 1, 4, 0, 2, .wo, .s, .num 0, .asIs⟩
def DIG_FIR_PRE_BANK : Field := ⟨0x110, 1, 4, 2, 1, .wo, .s, .num 0, .asIs⟩
def DIG_BE_STAT_FSAT : Field := ⟨0x114, 1, 4, 0, 1, .w1c, .l, .num 0, .asIs⟩
def DIG_BE_STAT_ESC : Field := ⟨0x114, 1, 4, 1, 1, .w1c, .l, .num 0, .asIs⟩
def DIG_BE_STAT_WR_IGN : Field := ⟨0x114, 1, 4, 2, 1, .w1c, .l, .num 0, .asIs⟩
def DIG_BE_STAT_PLOAD : Field := ⟨0x114, 1, 4, 3, 1, .ro, .l, .num 0, .asIs⟩
def DIG_FSATCNT_FSATCNT : Field := ⟨0x118, 1, 4, 0, 32, .rc, .l, .num 0, .asIs⟩
def DIG_ESCCNT_ESCCNT : Field := ⟨0x11C, 1, 4, 0, 32, .rc, .l, .num 0, .asIs⟩
def TIL_TEL_STAT_STATE : Field := ⟨0x0, 1, 4, 0, 3, .ro, .l, .num 0, .asIs⟩
def TIL_TEL_STAT_ROLE : Field := ⟨0x0, 1, 4, 3, 3, .ro, .l, .num 0, .asIs⟩
def TIL_TEL_STAT_LENT : Field := ⟨0x0, 1, 4, 6, 1, .ro, .l, .num 0, .asIs⟩
def TIL_TEL_STAT_POSTC : Field := ⟨0x0, 1, 4, 7, 1, .ro, .l, .num 0, .asIs⟩
def TIL_TEL_STAT_SLOT : Field := ⟨0x0, 1, 4, 8, 3, .ro, .l, .num 0, .asIs⟩
def TIL_TEL_STAT_WR_IGN : Field := ⟨0x0, 1, 4, 11, 1, .w1c, .l, .num 0, .asIs⟩
def TIL_TEL_STAT_HCAUSE : Field := ⟨0x0, 1, 4, 12, 4, .ro, .l, .num 0, .asIs⟩
def TIL_TEL_STAT_ENTRY : Field := ⟨0x0, 1, 4, 16, 12, .ro, .l, .num 0, .asIs⟩
def TIL_TEL_STAT_EVENT : Field := ⟨0x0, 1, 4, 28, 4, .ro, .l, .num 0, .asIs⟩
def TIL_TEL_EPOCH_EPOCH : Field := ⟨0x4, 1, 4, 0, 16, .ro, .l, .num 0, .asIs⟩
def TIL_TEL_CFG_LEND : Field := ⟨0x8, 1, 4, 0, 1, .rw, .b, .num 1, .asIs⟩
def TIL_TEL_CFG_WDOG : Field := ⟨0x8, 1, 4, 8, 20, .rw, .b, .num 100, .clamp 1 0xFFFFF⟩
def TIL_TEL_PC_PC : Field := ⟨0xC, 1, 4, 0, 12, .ro, .l, .num 0, .asIs⟩
def TIL_TEL_QOCC_INBOX : Field := ⟨0x10, 1, 4, 0, 5, .ro, .l, .num 0, .asIs⟩
def TIL_TEL_QOCC_SLOTS : Field := ⟨0x10, 1, 4, 8, 3, .ro, .l, .num 0, .asIs⟩
def TIL_TEL_QOCC_REPORTS : Field := ⟨0x10, 1, 4, 11, 3, .ro, .l, .num 0, .asIs⟩
def TIL_TEL_QOCC_OUTBOX : Field := ⟨0x10, 1, 4, 16, 3, .ro, .l, .num 0, .asIs⟩
def TIL_TEL_RESTART_RESTART : Field := ⟨0x14, 1, 4, 0, 32, .rc, .l, .num 0, .asIs⟩
def TIL_TEL_STALE_STALE : Field := ⟨0x18, 1, 4, 0, 32, .rc, .l, .num 0, .asIs⟩
def TIL_TEL_FULL_FULL : Field := ⟨0x1C, 1, 4, 0, 32, .rc, .l, .num 0, .asIs⟩
def TIL_TEL_NOENT_NOENT : Field := ⟨0x20, 1, 4, 0, 32, .rc, .l, .num 0, .asIs⟩
def TIL_TEL_HALTS_HALTS : Field := ⟨0x24, 1, 4, 0, 32, .rc, .l, .num 0, .asIs⟩
def GLB_KEYSTAT_PROG : Field := ⟨0x3000, 1, 4, 0, 4, .ro, .l, .fuseOr 1, .asIs⟩
def GLB_KEYSTAT_REVOKED : Field := ⟨0x3000, 1, 4, 8, 4, .ro, .l, .fuse, .asIs⟩
def GLB_IMGSTAT_VALID : Field := ⟨0x3010, 8, 4, 0, 1, .ro, .l, .num 0, .asIs⟩
def GLB_IMGSTAT_KEY : Field := ⟨0x3010, 8, 4, 1, 2, .ro, .l, .num 0, .asIs⟩
def GLB_IMGSTAT_USERS : Field := ⟨0x3010, 8, 4, 8, 8, .ro, .l, .num 0, .asIs⟩
def GLB_IMGSTAT_BUILD : Field := ⟨0x3010, 8, 4, 16, 16, .ro, .l, .num 0, .asIs⟩
def HAT_LINK_STAT_RATE : Field := ⟨0x100000, 1, 4, 0, 3, .ro, .l, .num 0, .asIs⟩
def HAT_LINK_STAT_WIDTH : Field := ⟨0x100000, 1, 4, 3, 5, .ro, .l, .num 0, .asIs⟩
def HAT_LINK_STAT_FLIT : Field := ⟨0x100000, 1, 4, 8, 2, .ro, .l, .num 0, .asIs⟩
def HAT_LINK_STAT_UP : Field := ⟨0x100000, 1, 4, 10, 1, .ro, .l, .num 0, .asIs⟩
def HAT_LINK_STAT_DEGR : Field := ⟨0x100000, 1, 4, 11, 1, .ro, .l, .num 0, .asIs⟩
def HAT_LINK_STAT_LDOWN : Field := ⟨0x100000, 1, 4, 12, 1, .w1c, .l, .num 0, .asIs⟩
def HAT_LINK_STAT_NOCXL : Field := ⟨0x100000, 1, 4, 13, 1, .ro, .l, .num 0, .asIs⟩
def HAT_LINK_STAT_VIRAL : Field := ⟨0x100000, 1, 4, 14, 1, .ro, .l, .num 0, .asIs⟩
def HAT_HDM_STAT_COMMITTED : Field := ⟨0x100004, 1, 4, 0, 1, .ro, .l, .num 0, .asIs⟩
def HAT_HDM_STAT_BI_EN : Field := ⟨0x100004, 1, 4, 1, 1, .ro, .l, .num 0, .asIs⟩
def HAT_HDM_STAT_MEM_ACTIVE : Field := ⟨0x100004, 1, 4, 2, 1, .ro, .l, .num 0, .asIs⟩
def HAT_HDM_STAT_BIPEND : Field := ⟨0x100004, 1, 4, 3, 1, .ro, .l, .num 0, .asIs⟩
def HAT_HDM_STAT_HWDROP : Field := ⟨0x100004, 1, 4, 4, 1, .w1c, .l, .num 0, .asIs⟩
def HAT_HDM_STAT_POISON : Field := ⟨0x100004, 1, 4, 5, 1, .w1c, .l, .num 0, .asIs⟩
def HAT_HDM_STAT_CDAT_CHG : Field := ⟨0x100004, 1, 4, 6, 1, .w1c, .l, .num 0, .asIs⟩
def HAT_HDM_BASE_LO_BASE : Field := ⟨0x100008, 1, 4, 0, 32, .ro, .l, .num 0, .asIs⟩
def HAT_HDM_BASE_HI_BASE : Field := ⟨0x10000C, 1, 4, 0, 32, .ro, .l, .num 0, .asIs⟩
def HAT_HDM_DROP_DROP : Field := ⟨0x100010, 1, 4, 0, 32, .rc, .l, .num 0, .asIs⟩
def HAT_POISON_POISON : Field := ⟨0x100014, 1, 4, 0, 32, .rc, .l, .num 0, .asIs⟩
def HAT_SF_OCC_OCC : Field := ⟨0x100018, 1, 4, 0, 21, .ro, .l, .num 0, .asIs⟩
def HAT_BISNP_BISNP : Field := ⟨0x10001C, 1, 4, 0, 32, .rc, .l, .num 0, .asIs⟩
def HAT_IDE_STAT_IO_SECURE : Field := ⟨0x100020, 1, 4, 0, 1, .ro, .l, .num 0, .asIs⟩
def HAT_IDE_STAT_CM_SECURE : Field := ⟨0x100020, 1, 4, 1, 1, .ro, .l, .num 0, .asIs⟩
def HAT_IDE_STAT_IO_FAIL : Field := ⟨0x100020, 1, 4, 2, 1, .w1c, .l, .num 0, .asIs⟩
def HAT_IDE_STAT_CM_FAIL : Field := ⟨0x100020, 1, 4, 3, 1, .w1c, .l, .num 0, .asIs⟩
def HAT_IDE_STAT_CM_MODE : Field := ⟨0x100020, 1, 4, 4, 2, .ro, .l, .num 0, .asIs⟩
def HAT_SQ_BASE_LO_BASE : Field := ⟨0x0, 1, 4, 0, 32, .rw, .s, .num 0, .lowZero 6⟩
def HAT_CQ_BASE_LO_BASE : Field := ⟨0x0, 1, 4, 0, 32, .rw, .s, .num 0, .lowZero 6⟩
def HAT_SQ_BASE_HI_BASE : Field := ⟨0x4, 1, 4, 0, 32, .rw, .s, .num 0, .asIs⟩
def HAT_CQ_BASE_HI_BASE : Field := ⟨0x4, 1, 4, 0, 32, .rw, .s, .num 0, .asIs⟩
def HAT_SQ_PLOC_LO_PLOC : Field := ⟨0x8, 1, 4, 0, 32, .rw, .s, .num 0, .lowZero 3⟩
def HAT_SQ_PLOC_HI_PLOC : Field := ⟨0xC, 1, 4, 0, 32, .rw, .s, .num 0, .asIs⟩
def HAT_SQ_CFG_LOG2 : Field := ⟨0x10, 1, 4, 0, 5, .rw, .s, .num 4, .clamp 4 16⟩
def HAT_SQ_CFG_PRIO : Field := ⟨0x10, 1, 4, 5, 3, .rw, .s, .num 0, .asIs⟩
def HAT_SQ_CFG_SNOOP : Field := ⟨0x10, 1, 4, 8, 1, .rw, .s, .num 0, .asIs⟩
def HAT_SQ_CFG_CQ : Field := ⟨0x10, 1, 4, 9, 8, .rw, .s, .num 0, .asIs⟩
def HAT_SQ_CFG_PV : Field := ⟨0x10, 1, 4, 17, 1, .rw, .s, .num 0, .asIs⟩
def HAT_SQ_CTL_EN : Field := ⟨0x18, 1, 4, 0, 1, .rw, .l, .num 0, .asIs⟩
def HAT_CQ_CTL_EN : Field := ⟨0x14, 1, 4, 0, 1, .rw, .l, .num 0, .asIs⟩
def HAT_SQ_STAT_ACTIVE : Field := ⟨0x1C, 1, 4, 0, 1, .ro, .l, .num 0, .asIs⟩
def HAT_SQ_STAT_ERR : Field := ⟨0x1C, 1, 4, 1, 1, .w1c, .l, .num 0, .asIs⟩
def HAT_SQ_STAT_ECAUSE : Field := ⟨0x1C, 1, 4, 2, 2, .ro, .l, .num 0, .asIs⟩
def HAT_SQ_STAT_STALE : Field := ⟨0x1C, 1, 4, 4, 1, .w1c, .l, .num 0, .asIs⟩
def HAT_SQ_STAT_WR_IGN : Field := ⟨0x1C, 1, 4, 5, 1, .w1c, .l, .num 0, .asIs⟩
def HAT_SQ_PIDX_PIDX : Field := ⟨0x20, 1, 4, 0, 32, .ro, .l, .num 0, .asIs⟩
def HAT_SQ_CIDX_CIDX : Field := ⟨0x24, 1, 4, 0, 32, .ro, .l, .num 0, .asIs⟩
def HAT_SQ_INFL_INFL : Field := ⟨0x28, 1, 4, 0, 11, .ro, .l, .num 0, .asIs⟩
def HAT_CQ_CFG_LOG2 : Field := ⟨0x8, 1, 4, 0, 5, .rw, .s, .num 4, .clamp 4 16⟩
def HAT_CQ_CFG_VEC : Field := ⟨0x8, 1, 4, 5, 11, .rw, .s, .num 0, .asIs⟩
def HAT_CQ_CFG_IEN : Field := ⟨0x8, 1, 4, 16, 1, .rw, .s, .num 0, .asIs⟩
def HAT_CQ_CFG_PV : Field := ⟨0x8, 1, 4, 17, 1, .rw, .s, .num 0, .asIs⟩
def HAT_CQ_IMOD_COUNT : Field := ⟨0x10, 1, 4, 0, 8, .rw, .l, .num 1, .clamp 1 255⟩
def HAT_CQ_IMOD_TIME : Field := ⟨0x10, 1, 4, 16, 10, .rw, .l, .num 0, .asIs⟩
def HAT_CQ_STAT_ACTIVE : Field := ⟨0x18, 1, 4, 0, 1, .ro, .l, .num 0, .asIs⟩
def HAT_CQ_STAT_ERR : Field := ⟨0x18, 1, 4, 1, 1, .w1c, .l, .num 0, .asIs⟩
def HAT_CQ_STAT_ECAUSE : Field := ⟨0x18, 1, 4, 2, 2, .ro, .l, .num 0, .asIs⟩
def HAT_CQ_STAT_STALE : Field := ⟨0x18, 1, 4, 4, 1, .w1c, .l, .num 0, .asIs⟩
def HAT_CQ_STAT_FULL : Field := ⟨0x18, 1, 4, 5, 1, .ro, .l, .num 0, .asIs⟩
def HAT_CQ_STAT_WR_IGN : Field := ⟨0x18, 1, 4, 6, 1, .w1c, .l, .num 0, .asIs⟩
def HAT_CQ_WIDX_WIDX : Field := ⟨0x1C, 1, 4, 0, 32, .ro, .l, .num 0, .asIs⟩
def HAT_CQ_HIDX_HIDX : Field := ⟨0x20, 1, 4, 0, 32, .ro, .l, .num 0, .asIs⟩
def HAT_CQ_WAIT_WAIT : Field := ⟨0x24, 1, 4, 0, 17, .ro, .l, .num 0, .asIs⟩
def HAT_EVR_MASK_MASK : Field := ⟨0x28, 1, 4, 0, 32, .rw, .l, .num 0, .keep 0xFE⟩
def HAT_EVR_LOST_LOST : Field := ⟨0x2C, 1, 4, 0, 32, .ro, .l, .num 0, .asIs⟩
def HAT_ABORT_SQ : Field := ⟨0x100100, 1, 4, 0, 8, .rw, .l, .num 0, .asIs⟩
def HAT_ABORT_ALL : Field := ⟨0x100100, 1, 4, 8, 1, .rw, .l, .num 0, .asIs⟩
def HAT_ABORT_GO : Field := ⟨0x100100, 1, 4, 31, 1, .wo, .l, .num 0, .asIs⟩
def HAT_ABORT_STAT_MISS : Field := ⟨0x100108, 1, 4, 0, 1, .w1c, .l, .num 0, .asIs⟩
def HAT_JOBS_INFL : Field := ⟨0x10010C, 1, 4, 0, 11, .ro, .l, .num 0, .asIs⟩
def HAT_JOBS_WAIT : Field := ⟨0x10010C, 1, 4, 16, 16, .ro, .l, .num 0, .asIs⟩
def HAT_EVT_DROP_DROP : Field := ⟨0x100110, 1, 4, 0, 32, .rc, .l, .num 0, .asIs⟩
def XLT_CTL_PRI_TO : Field := ⟨0x200000, 1, 4, 0, 14, .rw, .l, .num 500, .clamp 1 10000⟩
def XLT_CTL_PREF : Field := ⟨0x200000, 1, 4, 16, 1, .rw, .l, .num 1, .asIs⟩
def XLT_STAT_ATS_EN : Field := ⟨0x200004, 1, 4, 0, 1, .ro, .l, .num 0, .asIs⟩
def XLT_STAT_PASID_EN : Field := ⟨0x200004, 1, 4, 1, 1, .ro, .l, .num 0, .asIs⟩
def XLT_STAT_PRI_EN : Field := ⟨0x200004, 1, 4, 2, 1, .ro, .l, .num 0, .asIs⟩
def XLT_STAT_PRI_STOP : Field := ⟨0x200004, 1, 4, 3, 1, .ro, .l, .num 0, .asIs⟩
def XLT_STAT_INVPEND : Field := ⟨0x200004, 1, 4, 4, 1, .ro, .l, .num 0, .asIs⟩
def XLT_STAT_LBRK : Field := ⟨0x200004, 1, 4, 5, 1, .w1c, .l, .num 0, .asIs⟩
def XLT_ATC_OCC_USED : Field := ⟨0x200008, 1, 4, 0, 14, .ro, .l, .num 0, .asIs⟩
def XLT_ATC_OCC_LOCKED : Field := ⟨0x200008, 1, 4, 16, 13, .ro, .l, .num 0, .asIs⟩
def XLT_PASIDS_PASIDS : Field := ⟨0x20000C, 1, 4, 0, 13, .ro, .l, .num 0, .asIs⟩
def XLT_MISS_MISS : Field := ⟨0x200010, 1, 4, 0, 32, .rc, .l, .num 0, .asIs⟩
def XLT_FAULTS_FAULTS : Field := ⟨0x200014, 1, 4, 0, 32, .rc, .l, .num 0, .asIs⟩
def XLT_PRI_OUT_GROUPS : Field := ⟨0x200018, 1, 4, 0, 10, .ro, .l, .num 0, .asIs⟩
def XLT_PRI_OUT_SUSP : Field := ⟨0x200018, 1, 4, 16, 11, .ro, .l, .num 0, .asIs⟩
def XLT_INV_INV : Field := ⟨0x20001C, 1, 4, 0, 32, .rc, .l, .num 0, .asIs⟩
def XLT_RES_RD : Field := ⟨0x200020, 1, 4, 0, 9, .ro, .l, .num 0, .asIs⟩
def XLT_RES_WR : Field := ⟨0x200020, 1, 4, 16, 9, .ro, .l, .num 0, .asIs⟩
def XLT_FLT_INFO_PASID : Field := ⟨0x200024, 1, 4, 0, 20, .ro, .l, .num 0, .asIs⟩
def XLT_FLT_INFO_PV : Field := ⟨0x200024, 1, 4, 20, 1, .ro, .l, .num 0, .asIs⟩
def XLT_FLT_INFO_WR : Field := ⟨0x200024, 1, 4, 21, 1, .ro, .l, .num 0, .asIs⟩
def XLT_FLT_INFO_SQ : Field := ⟨0x200024, 1, 4, 22, 8, .ro, .l, .num 0, .asIs⟩
def XLT_FLT_ADDR_LO_ADDR : Field := ⟨0x200028, 1, 4, 0, 32, .ro, .l, .num 0, .asIs⟩
def XLT_FLT_ADDR_HI_ADDR : Field := ⟨0x20002C, 1, 4, 0, 32, .ro, .l, .num 0, .asIs⟩
def XLT_FLT_DONE_DONE : Field := ⟨0x200030, 1, 4, 0, 32, .ro, .l, .num 0, .asIs⟩
def XLT_FLT_STAT_STATUS : Field := ⟨0x200034, 1, 4, 0, 16, .ro, .l, .num 0, .asIs⟩
def XLT_FLT_STAT_VALID : Field := ⟨0x200034, 1, 4, 16, 1, .w1c, .l, .num 0, .asIs⟩
def XLT_FLT_TAG_TAG : Field := ⟨0x200038, 1, 4, 0, 32, .ro, .l, .num 0, .asIs⟩
def XLT_CTX_CFG_EN : Field := ⟨0x0, 1, 4, 0, 1, .rw, .l, .num 0, .asIs⟩
def XLT_CTX_CFG_RT : Field := ⟨0x0, 1, 4, 1, 1, .ro, .l, .rtctx, .asIs⟩
def XLT_CTX_CFG_PV : Field := ⟨0x0, 1, 4, 2, 1, .rw, .s, .num 0, .asIs⟩
def XLT_CTX_CFG_WEIGHT : Field := ⟨0x0, 1, 4, 3, 4, .rw, .s, .num 1, .clamp 1 15⟩
def XLT_CTX_PASID_PASID : Field := ⟨0x4, 1, 4, 0, 20, .rw, .s, .num 0, .asIs⟩
def XLT_CTX_RATE_RD : Field := ⟨0x8, 1, 4, 0, 8, .rw, .s, .num 0, .custom⟩
def XLT_CTX_RATE_WR : Field := ⟨0x8, 1, 4, 8, 8, .rw, .s, .num 0, .custom⟩
def XLT_CTX_STAT_ACTIVE : Field := ⟨0xC, 1, 4, 0, 1, .ro, .l, .num 0, .asIs⟩
def XLT_CTX_STAT_PINNED : Field := ⟨0xC, 1, 4, 1, 1, .ro, .l, .num 0, .asIs⟩
def XLT_CTX_STAT_PBUSY : Field := ⟨0xC, 1, 4, 2, 1, .ro, .l, .num 0, .asIs⟩
def XLT_CTX_STAT_PFAIL : Field := ⟨0xC, 1, 4, 3, 1, .w1c, .l, .num 0, .asIs⟩
def XLT_CTX_STAT_RFAIL : Field := ⟨0xC, 1, 4, 4, 1, .w1c, .l, .num 0, .asIs⟩
def XLT_CTX_STAT_LBRK : Field := ⟨0xC, 1, 4, 5, 1, .w1c, .l, .num 0, .asIs⟩
def XLT_CTX_STAT_WR_IGN : Field := ⟨0xC, 1, 4, 6, 1, .w1c, .l, .num 0, .asIs⟩
def XLT_CTX_STAT_LOCKS : Field := ⟨0xC, 1, 4, 16, 13, .ro, .l, .num 0, .asIs⟩
def XLT_CTX_FAULTS_FAULTS : Field := ⟨0x10, 1, 4, 0, 32, .rc, .l, .num 0, .asIs⟩
def XLT_PIN_BASE_LO_BASE : Field := ⟨0x40, 4, 16, 0, 32, .rw, .s, .num 0, .lowZero 12⟩
def XLT_PIN_BASE_HI_BASE : Field := ⟨0x44, 4, 16, 0, 32, .rw, .s, .num 0, .asIs⟩
def XLT_PIN_SIZE_SIZE : Field := ⟨0x48, 4, 16, 0, 19, .rw, .s, .num 0, .custom⟩
def MEM_CTL_POINT : Field := ⟨0x800000, 1, 4, 0, 1, .rw, .b, .num 0, .asIs⟩
def MEM_CTL_RETRAIN : Field := ⟨0x800000, 1, 4, 1, 1, .wo, .l, .num 0, .asIs⟩
def MEM_CTL_HOSTPOL : Field := ⟨0x800000, 1, 4, 2, 1, .rw, .l, .num 0, .asIs⟩
def MEM_CTL_NRK : Field := ⟨0x800000, 1, 4, 8, 4, .rw, .l, .num 10, .clamp 6 14⟩
def MEM_CTL_PATROL : Field := ⟨0x800000, 1, 4, 16, 8, .rw, .l, .num 24, .clamp 1 255⟩
def MEM_STAT_CUR : Field := ⟨0x800004, 1, 4, 0, 1, .ro, .l, .num 0, .asIs⟩
def MEM_STAT_STATE : Field := ⟨0x800004, 1, 4, 1, 3, .ro, .l, .num 0, .asIs⟩
def MEM_STAT_PEND : Field := ⟨0x800004, 1, 4, 4, 1, .ro, .l, .num 0, .asIs⟩
def MEM_STAT_RTPEND : Field := ⟨0x800004, 1, 4, 5, 1, .ro, .l, .num 0, .asIs⟩
def MEM_STAT_RTACT : Field := ⟨0x800004, 1, 4, 6, 1, .ro, .l, .num 0, .asIs⟩
def MEM_STAT_SET_FULL : Field := ⟨0x800004, 1, 4, 7, 1, .ro, .l, .num 0, .asIs⟩
def MEM_STAT_SET_HALF : Field := ⟨0x800004, 1, 4, 8, 1, .ro, .l, .num 0, .asIs⟩
def MEM_STAT_HOT : Field := ⟨0x800004, 1, 4, 9, 1, .ro, .l, .num 0, .asIs⟩
def MEM_STAT_RPEND : Field := ⟨0x800004, 1, 4, 10, 1, .ro, .l, .num 0, .asIs⟩
def MEM_TEMP_TEMP : Field := ⟨0x800008, 1, 4, 0, 16, .ro, .l, .num 0, .asIs⟩
def MEM_TEMP_TRAINT : Field := ⟨0x800008, 1, 4, 16, 16, .ro, .l, .num 0, .asIs⟩
def MEM_CE_CE : Field := ⟨0x80000C, 1, 4, 0, 32, .rc, .l, .num 0, .asIs⟩
def MEM_UE_UE : Field := ⟨0x800010, 1, 4, 0, 32, .rc, .l, .num 0, .asIs⟩
def MEM_UE_ADDR_LO_ADDR : Field := ⟨0x800014, 1, 4, 0, 32, .ro, .l, .num 0, .asIs⟩
def MEM_UE_ADDR_HI_ADDR : Field := ⟨0x800018, 1, 4, 0, 3, .ro, .l, .num 0, .asIs⟩
def MEM_UE_ADDR_HI_VALID : Field := ⟨0x800018, 1, 4, 31, 1, .w1c, .l, .num 0, .asIs⟩
def MEM_REF_FORCED_FORCED : Field := ⟨0x80001C, 1, 4, 0, 32, .rc, .l, .num 0, .asIs⟩
def MEM_NRR_NRR : Field := ⟨0x800020, 1, 4, 0, 32, .rc, .l, .num 0, .asIs⟩
def MEM_NRR_DROP_DROP : Field := ⟨0x800024, 1, 4, 0, 32, .rc, .l, .num 0, .asIs⟩
def MEM_PPR_DONE : Field := ⟨0x800028, 1, 4, 0, 16, .ro, .l, .num 0, .asIs⟩
def MEM_PPR_EXH : Field := ⟨0x800028, 1, 4, 16, 1, .w1c, .l, .num 0, .asIs⟩
def MEM_CHSTAT_FAIL : Field := ⟨0x80002C, 1, 4, 0, 16, .ro, .l, .num 0, .asIs⟩
def TIM_CTL_SET : Field := ⟨0x300000, 1, 4, 0, 1, .wo, .l, .num 0, .asIs⟩
def TIM_CTL_JOIN : Field := ⟨0x300000, 1, 4, 1, 1, .rw, .l, .num 0, .asIs⟩
def TIM_STAT_QUAL : Field := ⟨0x300004, 1, 4, 0, 4, .ro, .l, .num 3, .asIs⟩
def TIM_STAT_SLEWING : Field := ⟨0x300004, 1, 4, 4, 1, .ro, .l, .num 0, .asIs⟩
def TIM_STAT_REFUSED : Field := ⟨0x300004, 1, 4, 5, 1, .w1c, .l, .num 0, .asIs⟩
def TIM_STAT_OFSBIG : Field := ⟨0x300004, 1, 4, 6, 1, .w1c, .l, .num 0, .asIs⟩
def TIM_STAT_WR_IGN : Field := ⟨0x300004, 1, 4, 7, 1, .w1c, .l, .num 0, .asIs⟩
def TIM_CFG_POS : Field := ⟨0x300008, 1, 4, 0, 5, .rw, .s, .num 0, .asIs⟩
def TIM_CFG_RING : Field := ⟨0x300008, 1, 4, 5, 4, .rw, .s, .num 0, .asIs⟩
def TIM_CFG_TPER : Field := ⟨0x300008, 1, 4, 9, 10, .rw, .s, .num 100, .clamp 10 1023⟩
def TIM_CFG_STEPTH : Field := ⟨0x300008, 1, 4, 20, 12, .rw, .l, .num 10, .clamp 1 4095⟩
def TIM_REF_CTL_PREF : Field := ⟨0x30000C, 1, 4, 0, 1, .rw, .l, .num 0, .asIs⟩
def TIM_REF_CTL_REVERT : Field := ⟨0x30000C, 1, 4, 1, 1, .rw, .l, .num 0, .asIs⟩
def TIM_REF_STAT_A_OK : Field := ⟨0x300010, 1, 4, 0, 1, .ro, .l, .num 0, .asIs⟩
def TIM_REF_STAT_B_OK : Field := ⟨0x300010, 1, 4, 1, 1, .ro, .l, .num 0, .asIs⟩
def TIM_REF_STAT_SEL : Field := ⟨0x300010, 1, 4, 2, 1, .ro, .l, .num 0, .asIs⟩
def TIM_REF_STAT_HOLD : Field := ⟨0x300010, 1, 4, 3, 1, .ro, .l, .num 1, .asIs⟩
def TIM_REF_STAT_SWITCHED : Field := ⟨0x300010, 1, 4, 4, 1, .w1c, .l, .num 0, .asIs⟩
def TIM_NOW0_FRAC : Field := ⟨0x300014, 1, 4, 0, 16, .ro, .l, .num 0, .asIs⟩
def TIM_NOW1_NS : Field := ⟨0x300018, 1, 4, 0, 30, .ro, .l, .num 0, .asIs⟩
def TIM_NOW2_SECL : Field := ⟨0x30001C, 1, 4, 0, 32, .ro, .l, .num 0, .asIs⟩
def TIM_NOW3_SECH : Field := ⟨0x300020, 1, 4, 0, 16, .ro, .l, .num 0, .asIs⟩
def TIM_SET0_FRAC : Field := ⟨0x300024, 1, 4, 0, 16, .rw, .l, .num 0, .asIs⟩
def TIM_SET1_NS : Field := ⟨0x300028, 1, 4, 0, 30, .rw, .l, .num 0, .asIs⟩
def TIM_SET2_SECL : Field := ⟨0x30002C, 1, 4, 0, 32, .rw, .l, .num 0, .asIs⟩
def TIM_SET3_SECH : Field := ⟨0x300030, 1, 4, 0, 16, .rw, .l, .num 0, .asIs⟩
def TIM_OFS_OFS : Field := ⟨0x300034, 1, 4, 0, 32, .ro, .l, .num 0, .asIs⟩
def TIM_LINK_STAT_OUT : Field := ⟨0x300038, 1, 4, 0, 2, .ro, .l, .num 0, .asIs⟩
def TIM_LINK_STAT_IN : Field := ⟨0x300038, 1, 4, 2, 2, .ro, .l, .num 0, .asIs⟩
def TIM_LINK_STAT_DOWN_SEEN : Field := ⟨0x300038, 1, 4, 4, 1, .w1c, .l, .num 0, .asIs⟩
def TIM_LINK_DLY_DLY : Field := ⟨0x30003C, 1, 4, 0, 32, .ro, .l, .num 0, .asIs⟩
def TIM_LINK_ASYM_ASYM : Field := ⟨0x300040, 1, 4, 0, 32, .rw, .l, .num 0, .asIs⟩
def TIM_RING_CRC_COUNT : Field := ⟨0x300044, 1, 4, 0, 32, .rc, .l, .num 0, .asIs⟩
def TIM_RING_DROP_COUNT : Field := ⟨0x300048, 1, 4, 0, 32, .rc, .l, .num 0, .asIs⟩
def TIM_GAPS_COUNT : Field := ⟨0x30004C, 1, 4, 0, 32, .rc, .l, .num 0, .asIs⟩
def TIM_BC_CTL_SSBCID : Field := ⟨0x300050, 1, 4, 0, 8, .rw, .l, .num 0, .asIs⟩
def TIM_BC_CTL_JBCID : Field := ⟨0x300050, 1, 4, 8, 8, .rw, .l, .num 0, .asIs⟩
def TIM_BC_CTL_ABORT_EN : Field := ⟨0x300050, 1, 4, 16, 1, .rw, .l, .num 0, .asIs⟩
def TIM_BCAB_LO_TILES : Field := ⟨0x300054, 1, 4, 0, 32, .rw, .l, .num 0, .asIs⟩
def TIM_BCAB_HI_TILES : Field := ⟨0x300058, 1, 4, 0, 16, .rw, .l, .num 0, .asIs⟩
def TIM_STRUM_CTL_MODE : Field := ⟨0x300060, 1, 4, 0, 2, .rw, .l, .num 0, .remap 3 0⟩
def TIM_STRUM_CTL_STEER : Field := ⟨0x300060, 1, 4, 2, 1, .rw, .l, .num 0, .custom⟩
def TIM_STRUM_STAT_SEEN : Field := ⟨0x300064, 1, 4, 0, 1, .w1c, .l, .num 0, .asIs⟩
def TIM_STRUM_STAT_SETDONE : Field := ⟨0x300064, 1, 4, 1, 1, .w1c, .l, .num 0, .asIs⟩
def TIM_STRUM_STAT_SETFAIL : Field := ⟨0x300064, 1, 4, 2, 1, .w1c, .l, .num 0, .asIs⟩
def TIM_STRUM_STAT_STRAY : Field := ⟨0x300064, 1, 4, 3, 1, .w1c, .l, .num 0, .asIs⟩
def TIM_STRUM_STAT_LOCKED : Field := ⟨0x300064, 1, 4, 4, 1, .ro, .l, .num 0, .asIs⟩
def TIM_STRUM_DLY_DLY : Field := ⟨0x300068, 1, 4, 0, 32, .rw, .l, .num 0, .asIs⟩
def TIM_STRUM_OFS_OFS : Field := ⟨0x30006C, 1, 4, 0, 32, .ro, .l, .num 0, .asIs⟩
def TIM_STRUM_SET_LO_SEC : Field := ⟨0x300070, 1, 4, 0, 32, .rw, .l, .num 0, .asIs⟩
def TIM_STRUM_SET_HI_SEC : Field := ⟨0x300074, 1, 4, 0, 16, .rw, .l, .num 0, .asIs⟩
def TIM_STRUM_ARR0_FRAC : Field := ⟨0x300078, 1, 4, 0, 16, .ro, .l, .num 0, .asIs⟩
def TIM_STRUM_ARR1_NS : Field := ⟨0x30007C, 1, 4, 0, 30, .ro, .l, .num 0, .asIs⟩
def TIM_STRUM_ARR2_SECL : Field := ⟨0x300080, 1, 4, 0, 32, .ro, .l, .num 0, .asIs⟩
def TIM_STRUM_ARR3_SECH : Field := ⟨0x300084, 1, 4, 0, 16, .ro, .l, .num 0, .asIs⟩
def TIM_SNAP_SEQ_SEQN : Field := ⟨0x300090, 1, 4, 0, 32, .ro, .l, .num 0, .asIs⟩
def TIM_SNAP_TIME0_FRAC : Field := ⟨0x300094, 1, 4, 0, 16, .ro, .l, .num 0, .asIs⟩
def TIM_SNAP_TIME1_NS : Field := ⟨0x300098, 1, 4, 0, 30, .ro, .l, .num 0, .asIs⟩
def TIM_SNAP_TIME2_SECL : Field := ⟨0x30009C, 1, 4, 0, 32, .ro, .l, .num 0, .asIs⟩
def TIM_SNAP_TIME3_SECH : Field := ⟨0x3000A0, 1, 4, 0, 16, .ro, .l, .num 0, .asIs⟩
def TIM_SNAP_STAT_PEND : Field := ⟨0x3000A4, 1, 4, 0, 3, .ro, .l, .num 0, .asIs⟩
def TIM_SNAP_STAT_LATCHED : Field := ⟨0x3000A4, 1, 4, 3, 1, .w1c, .l, .num 0, .asIs⟩
def TIM_SNAP_LATE_LATE : Field := ⟨0x3000A8, 1, 4, 0, 32, .rc, .l, .num 0, .asIs⟩
def TIM_SNAPBUF_LO_ADDR : Field := ⟨0x3000AC, 1, 4, 0, 32, .rw, .s, .num 0, .lowZero 6⟩
def TIM_SNAPBUF_HI_ADDR : Field := ⟨0x3000B0, 1, 4, 0, 32, .rw, .s, .num 0, .asIs⟩
def TIM_SNAPBUF_CTX_CTX : Field := ⟨0x3000B4, 1, 4, 0, 6, .rw, .s, .num 0, .asIs⟩
def TIM_SNAPBUF_CTX_EN : Field := ⟨0x3000B4, 1, 4, 6, 1, .rw, .s, .num 0, .asIs⟩
def TIL_VCNT_LO_VCNT : Field := ⟨0x160, 1, 4, 0, 32, .ro, .l, .num 0, .asIs⟩
def TIL_VCNT_HI_VCNT : Field := ⟨0x164, 1, 4, 0, 32, .ro, .l, .num 0, .asIs⟩
def TIL_SNAP_VCNT_LO_VCNT : Field := ⟨0x168, 1, 4, 0, 32, .ro, .l, .num 0, .asIs⟩
def TIL_SNAP_VCNT_HI_VCNT : Field := ⟨0x16C, 1, 4, 0, 32, .ro, .l, .num 0, .asIs⟩
def TIL_SNAP_SEGCNT_SEGCNT : Field := ⟨0x170, 1, 4, 0, 32, .ro, .l, .num 0, .asIs⟩
def CHN_TRIM_LVL_OFS : Field := ⟨0x200, 6, 4, 0, 16, .rw, .s, .fuse, .asIs⟩
def CHN_TRIM_CMP_OFS : Field := ⟨0x218, 2, 4, 0, 16, .rw, .s, .fuse, .asIs⟩
def CHN_TRIM_LVL_GAIN : Field := ⟨0x200, 6, 4, 16, 16, .rw, .s, .fuse, .asIs⟩
def CHN_TRIM_CMP_GAIN : Field := ⟨0x218, 2, 4, 16, 16, .rw, .s, .fuse, .asIs⟩
def CHN_TRIM_FING_FING : Field := ⟨0x220, 1, 4, 0, 24, .rw, .s, .fuse, .asIs⟩
def CHN_TRIM_FING_NFING : Field := ⟨0x220, 1, 4, 24, 5, .ro, .l, .fuse, .asIs⟩
def CHN_TRIM_EDGE_DRV : Field := ⟨0x224, 1, 4, 0, 16, .rw, .s, .fuse, .asIs⟩
def CHN_TRIM_EDGE_STB : Field := ⟨0x224, 1, 4, 16, 16, .rw, .s, .fuse, .asIs⟩
def CHN_TRIM_TDC_CORE1 : Field := ⟨0x228, 1, 4, 0, 16, .rw, .s, .fuse, .asIs⟩
def CHN_TRIM_TRK_LVL : Field := ⟨0x22C, 1, 4, 0, 16, .ro, .l, .num 0, .asIs⟩
def CHN_TRIM_TRK_CMP : Field := ⟨0x22C, 1, 4, 16, 16, .ro, .l, .num 0, .asIs⟩
def CHN_TRIM_TRKT_EDGE : Field := ⟨0x230, 1, 4, 0, 16, .ro, .l, .num 0, .asIs⟩
def CHN_TRIM_TRKT_PEND : Field := ⟨0x230, 1, 4, 16, 16, .ro, .l, .num 0, .asIs⟩
def CHN_ASSAY_FIG : Field := ⟨0x300, 6, 4, 0, 16, .ro, .l, .num 0, .asIs⟩
def CHN_ASSAY_EYE : Field := ⟨0x300, 6, 4, 16, 9, .ro, .l, .num 0, .asIs⟩
def CHN_ASSAY_PASS : Field := ⟨0x300, 6, 4, 25, 1, .ro, .l, .num 0, .asIs⟩
def CHN_ASSAY_VALID : Field := ⟨0x300, 6, 4, 26, 1, .ro, .l, .num 0, .asIs⟩
def CHN_ASSAY_PRE : Field := ⟨0x300, 6, 4, 27, 1, .w1c, .l, .num 0, .asIs⟩
def TIL_XPT_MAP_SLICE : Field := ⟨0x400, 16, 4, 0, 5, .ro, .l, .index, .asIs⟩
def TIL_XPT_STAT_RETIRED : Field := ⟨0x440, 1, 4, 0, 18, .ro, .l, .num 0, .asIs⟩
def TIL_XPT_STAT_BUSY : Field := ⟨0x440, 1, 4, 18, 1, .ro, .l, .num 0, .asIs⟩
def TIL_XPT_STAT_FREE : Field := ⟨0x440, 1, 4, 19, 2, .ro, .l, .num 2, .asIs⟩
def TIL_XPT_STAT_NOSPARE : Field := ⟨0x440, 1, 4, 21, 1, .w1c, .l, .num 0, .asIs⟩
def TIL_TRK_STAT_NOTRK : Field := ⟨0x444, 1, 4, 0, 1, .ro, .l, .num 0, .asIs⟩
def TIL_TRK_STAT_LAG : Field := ⟨0x444, 1, 4, 1, 1, .ro, .l, .num 0, .asIs⟩
def TIL_TRK_STAT_WR_IGN : Field := ⟨0x444, 1, 4, 2, 1, .w1c, .l, .num 0, .asIs⟩
def TIL_TRK_STAT_PASSES : Field := ⟨0x444, 1, 4, 16, 16, .ro, .l, .num 0, .asIs⟩
def TIL_BALL_DLY_DLY : Field := ⟨0x480, 16, 4, 0, 16, .rw, .s, .fuse, .asIs⟩
def DIG_TRIM_OFS : Field := ⟨0x200, 8, 4, 0, 10, .rw, .s, .fuse, .asIs⟩
def DIG_TRIM_GAIN : Field := ⟨0x200, 8, 4, 10, 12, .rw, .s, .fuse, .asIs⟩
def DIG_TRIM_SKEW : Field := ⟨0x200, 8, 4, 22, 10, .rw, .s, .fuse, .asIs⟩
def SEC_REF_STAT_SEL : Field := ⟨0x250, 1, 4, 0, 1, .ro, .l, .num 0, .asIs⟩
def SEC_REF_STAT_LREF0_OK : Field := ⟨0x250, 1, 4, 1, 1, .ro, .l, .num 1, .asIs⟩
def SEC_REF_STAT_LREF1_OK : Field := ⟨0x250, 1, 4, 2, 1, .ro, .l, .num 1, .asIs⟩
def SEC_REF_STAT_SWITCHED : Field := ⟨0x250, 1, 4, 3, 1, .w1c, .l, .num 0, .asIs⟩
def GLB_CAL_CFG_TRK : Field := ⟨0x2000, 1, 4, 0, 1, .rw, .l, .num 1, .asIs⟩
def GLB_CAL_CFG_AUTORET : Field := ⟨0x2000, 1, 4, 1, 1, .rw, .l, .num 1, .asIs⟩
def GLB_CAL_CFG_TRKPER : Field := ⟨0x2000, 1, 4, 8, 8, .rw, .l, .num 10, .clamp 1 255⟩
def GLB_CAL_STAT_RUN : Field := ⟨0x2004, 1, 4, 0, 1, .ro, .l, .num 0, .asIs⟩
def GLB_CAL_STAT_PRECOND : Field := ⟨0x2004, 1, 4, 1, 1, .w1c, .l, .num 0, .asIs⟩
def GLB_CAL_STAT_LIMIT : Field := ⟨0x2004, 1, 4, 2, 1, .w1c, .l, .num 0, .asIs⟩
def THM_CFG_GRACE : Field := ⟨0x410000, 1, 4, 0, 11, .rw, .l, .num 50, .clamp 1 2000⟩
def THM_CFG_RISE : Field := ⟨0x410000, 1, 4, 16, 6, .rw, .l, .num 15, .clamp 3 63⟩
def THM_STAT_S0 : Field := ⟨0x410004, 1, 4, 0, 3, .ro, .l, .num 0, .asIs⟩
def THM_STAT_R0 : Field := ⟨0x410004, 1, 4, 3, 1, .ro, .l, .num 0, .asIs⟩
def THM_STAT_S1 : Field := ⟨0x410004, 1, 4, 4, 3, .ro, .l, .num 0, .asIs⟩
def THM_STAT_R1 : Field := ⟨0x410004, 1, 4, 7, 1, .ro, .l, .num 0, .asIs⟩
def THM_STAT_S2 : Field := ⟨0x410004, 1, 4, 8, 3, .ro, .l, .num 0, .asIs⟩
def THM_STAT_R2 : Field := ⟨0x410004, 1, 4, 11, 1, .ro, .l, .num 0, .asIs⟩
def THM_STAT_S3 : Field := ⟨0x410004, 1, 4, 12, 3, .ro, .l, .num 0, .asIs⟩
def THM_STAT_R3 : Field := ⟨0x410004, 1, 4, 15, 1, .ro, .l, .num 0, .asIs⟩
def THM_TMAX_TMAX : Field := ⟨0x410008, 1, 4, 0, 16, .ro, .l, .num 0, .asIs⟩
def THM_THROTTLES_COUNT : Field := ⟨0x41000C, 1, 4, 0, 32, .rc, .l, .num 0, .asIs⟩
def THM_SFAIL_LO_FAIL : Field := ⟨0x410010, 1, 4, 0, 32, .ro, .l, .num 0, .asIs⟩
def THM_SFAIL_HI_FAIL : Field := ⟨0x410014, 1, 4, 0, 8, .ro, .l, .num 0, .asIs⟩
def THM_SEC_T_T : Field := ⟨0x410020, 4, 4, 0, 16, .ro, .l, .num 0, .asIs⟩
def THM_SENS_RAW : Field := ⟨0x410100, 40, 4, 0, 16, .ro, .l, .num 0, .asIs⟩
def THM_SENS_USED : Field := ⟨0x410100, 40, 4, 16, 16, .ro, .l, .num 0, .asIs⟩
def THM_VMON_MV : Field := ⟨0x410200, 32, 4, 0, 16, .ro, .l, .num 0, .asIs⟩
def THM_VMON_OUTW : Field := ⟨0x410200, 32, 4, 16, 1, .ro, .l, .num 0, .asIs⟩
def THM_VMON_FAULT : Field := ⟨0x410200, 32, 4, 17, 1, .ro, .l, .num 0, .asIs⟩
def PWR_CTL_TARGET : Field := ⟨0x420000, 1, 4, 0, 2, .rw, .l, .num 2, .remap 3 2⟩
def PWR_CTL_GO : Field := ⟨0x420000, 1, 4, 2, 1, .wo, .l, .num 0, .asIs⟩
def PWR_CTL_WK_CMP : Field := ⟨0x420000, 1, 4, 3, 1, .rw, .l, .num 1, .asIs⟩
def PWR_CTL_WK_TOUCH : Field := ⟨0x420000, 1, 4, 4, 1, .rw, .l, .num 1, .asIs⟩
def PWR_CTL_WK_CARD : Field := ⟨0x420000, 1, 4, 5, 1, .rw, .l, .num 1, .asIs⟩
def PWR_CTL_WK_TIMER : Field := ⟨0x420000, 1, 4, 6, 1, .rw, .l, .num 0, .asIs⟩
def PWR_STAT_STATE : Field := ⟨0x420004, 1, 4, 0, 2, .ro, .l, .num 2, .asIs⟩
def PWR_STAT_REFUSED : Field := ⟨0x420004, 1, 4, 2, 1, .w1c, .l, .num 0, .asIs⟩
def PWR_STAT_CHANGING : Field := ⟨0x420004, 1, 4, 3, 1, .ro, .l, .num 0, .asIs⟩
def PWR_STAT_WCAUSE : Field := ⟨0x420004, 1, 4, 4, 4, .ro, .l, .num 0, .asIs⟩
def PWR_STAT_DIGCLK : Field := ⟨0x420004, 1, 4, 8, 4, .ro, .l, .num 0, .asIs⟩
def PWR_WTIMER_MS : Field := ⟨0x420008, 1, 4, 0, 32, .rw, .l, .num 0, .clamp 1 0xFFFFFFFF⟩
def FLT_CFG_PINCLS : Field := ⟨0x400000, 1, 4, 0, 3, .rw, .l, .num 2, .clamp 0 3⟩
def FLT_CFG_FIRSTCLS : Field := ⟨0x400000, 1, 4, 3, 3, .rw, .l, .num 1, .clamp 0 5⟩
def FLT_CFG_EVTCLS : Field := ⟨0x400000, 1, 4, 6, 6, .rw, .l, .num 63, .asIs⟩
def FLT_STAT_LATCHED : Field := ⟨0x400004, 1, 4, 0, 6, .ro, .l, .num 0, .asIs⟩
def FLT_STAT_ASSERT : Field := ⟨0x400004, 1, 4, 6, 1, .ro, .l, .num 0, .asIs⟩
def FLT_STAT_REACT : Field := ⟨0x400004, 1, 4, 7, 3, .ro, .l, .num 7, .asIs⟩
def FLT_STAT_SEALED : Field := ⟨0x400004, 1, 4, 10, 1, .ro, .l, .num 0, .asIs⟩
def FLT_STAT_SCAUSE : Field := ⟨0x400004, 1, 4, 16, 2, .ro, .l, .num 0, .asIs⟩
def FLT_HIST_WIDX_WIDX : Field := ⟨0x400008, 1, 4, 0, 32, .ro, .l, .num 0, .asIs⟩
def FLT_HIST_RIDX_RIDX : Field := ⟨0x40000C, 1, 4, 0, 32, .rw, .l, .num 0, .custom⟩
def FLT_OVF_OVF : Field := ⟨0x400010, 1, 4, 0, 32, .rc, .l, .num 0, .asIs⟩
def FLT_FIRST_CTL_VALID : Field := ⟨0x400014, 1, 4, 0, 1, .w1c, .l, .num 0, .asIs⟩
def FLT_INJ_CTL_EN : Field := ⟨0x400018, 1, 4, 0, 1, .rw, .l, .num 0, .asIs⟩
def FLT_INJ_CTL_SEALOK : Field := ⟨0x400018, 1, 4, 1, 1, .rw, .l, .num 0, .asIs⟩
def FLT_INJ_CTL_DISALL : Field := ⟨0x400018, 1, 4, 2, 1, .wo, .l, .num 0, .asIs⟩
def FLT_INJ_STAT_ARMED : Field := ⟨0x40001C, 1, 4, 0, 5, .ro, .l, .num 0, .asIs⟩
def FLT_INJ_STAT_PENDING : Field := ⟨0x40001C, 1, 4, 5, 5, .ro, .l, .num 0, .asIs⟩
def FLT_SITEF_SITES : Field := ⟨0x400020, 8, 4, 0, 32, .w1c, .l, .num 0, .asIs⟩
def FLT_KSTAT_ACTIVE : Field := ⟨0x400100, 64, 4, 0, 1, .ro, .l, .num 0, .asIs⟩
def FLT_KSTAT_LATCHED : Field := ⟨0x400100, 64, 4, 1, 1, .w1c, .l, .num 0, .asIs⟩
def FLT_KSTAT_WIRE : Field := ⟨0x400100, 64, 4, 2, 1, .w1c, .l, .num 0, .asIs⟩
def FLT_KSTAT_INJ : Field := ⟨0x400100, 64, 4, 3, 1, .ro, .l, .num 0, .asIs⟩
def FLT_KSTAT_CLASS : Field := ⟨0x400100, 64, 4, 4, 3, .ro, .l, .num 0, .asIs⟩
def FLT_KSTAT_LAST : Field := ⟨0x400100, 64, 4, 16, 10, .ro, .l, .num 0, .asIs⟩
def FLT_KCNT_COUNT : Field := ⟨0x400200, 64, 4, 0, 32, .rc, .l, .num 0, .asIs⟩
def FLT_HIST_WORD : Field := ⟨0x400400, 256, 4, 0, 32, .ro, .l, .num 0, .asIs⟩
def FLT_FIRST_WORD : Field := ⟨0x400040, 8, 4, 0, 32, .ro, .l, .num 0, .asIs⟩
def GLB_IO_STAT_CARD : Field := ⟨0x1000, 1, 4, 0, 1, .ro, .l, .num 0, .asIs⟩
def GLB_IO_STAT_CARD_RAW : Field := ⟨0x1000, 1, 4, 1, 1, .ro, .l, .num 0, .asIs⟩
def GLB_IO_STAT_REMOVED : Field := ⟨0x1000, 1, 4, 2, 1, .w1c, .l, .num 0, .asIs⟩
def GLB_IO_STAT_TOUCH : Field := ⟨0x1000, 1, 4, 3, 1, .ro, .l, .num 0, .asIs⟩
def GLB_IO_STAT_LIFT : Field := ⟨0x1000, 1, 4, 4, 1, .w1c, .l, .num 0, .asIs⟩
def GLB_IO_STAT_BYP : Field := ⟨0x1000, 1, 4, 5, 1, .ro, .l, .num 0, .asIs⟩
def GLB_IO_STAT_EOT_OUT : Field := ⟨0x1000, 1, 4, 6, 1, .ro, .l, .num 0, .asIs⟩
def GLB_IO_STAT_LOCKOUT : Field := ⟨0x1000, 1, 4, 7, 1, .w1c, .l, .num 0, .asIs⟩
def GLB_IO_STAT_SMBADDR : Field := ⟨0x1000, 1, 4, 8, 3, .ro, .l, .fuse, .asIs⟩
def GLB_PRB_CTL_EOT : Field := ⟨0x1004, 1, 4, 0, 1, .rw, .l, .num 0, .asIs⟩
def GLB_PRB_CTL_AUTO : Field := ⟨0x1004, 1, 4, 1, 1, .rw, .l, .num 0, .asIs⟩
def GLB_PRB_CTL_LIFTABORT : Field := ⟨0x1004, 1, 4, 2, 1, .rw, .l, .num 1, .asIs⟩
def GLB_PRB_CTL_REQTOUCH : Field := ⟨0x1004, 1, 4, 3, 1, .rw, .l, .num 0, .asIs⟩
def GLB_PRB_CNT_TOUCHES : Field := ⟨0x1008, 1, 4, 0, 32, .rc, .l, .num 0, .asIs⟩
def GLB_SMB_CFG_PECREQ : Field := ⟨0x100C, 1, 4, 0, 1, .rw, .l, .num 0, .asIs⟩
def GLB_SMB_CFG_FUSE_EN : Field := ⟨0x100C, 1, 4, 1, 1, .rw, .l, .num 0, .asIs⟩
def GLB_SMB_STAT_PECERR : Field := ⟨0x1010, 1, 4, 0, 1, .w1c, .l, .num 0, .asIs⟩
def GLB_SMB_STAT_FUSE_BUSY : Field := ⟨0x1010, 1, 4, 1, 1, .ro, .l, .num 0, .asIs⟩
def GLB_SMB_STAT_FUSE_DONE : Field := ⟨0x1010, 1, 4, 2, 1, .w1c, .l, .num 0, .asIs⟩
def GLB_SMB_STAT_FUSE_ERR : Field := ⟨0x1010, 1, 4, 3, 1, .w1c, .l, .num 0, .asIs⟩
def GLB_SMB_STAT_ALERT : Field := ⟨0x1010, 1, 4, 4, 1, .ro, .l, .num 0, .asIs⟩
def GLB_ID_PART : Field := ⟨0x0, 1, 4, 0, 16, .ro, .l, .num 23670, .asIs⟩
def GLB_ID_REV : Field := ⟨0x0, 1, 4, 16, 8, .ro, .l, .fuse, .asIs⟩
def GLB_ID_FAMILY : Field := ⟨0x0, 1, 4, 24, 8, .ro, .l, .num 83, .asIs⟩
def GLB_RST_CTL_KEY : Field := ⟨0x4, 1, 4, 0, 16, .wo, .l, .num 0, .asIs⟩
def GLB_RST_CTL_WARM : Field := ⟨0x4, 1, 4, 16, 1, .wo, .l, .num 0, .asIs⟩
def GLB_RST_STAT_CAUSE : Field := ⟨0x8, 1, 4, 0, 2, .ro, .l, .num 0, .asIs⟩
def GLB_RST_STAT_BUSY : Field := ⟨0x8, 1, 4, 2, 1, .ro, .l, .num 0, .asIs⟩
def GLB_RST_STAT_REFUSED : Field := ⟨0x8, 1, 4, 3, 1, .w1c, .l, .num 0, .asIs⟩
def GLB_RST_STAT_WARMCNT : Field := ⟨0x8, 1, 4, 16, 16, .ro, .l, .num 0, .asIs⟩
def GLB_ST_CFG_AUTOCAL : Field := ⟨0xC, 1, 4, 0, 1, .rw, .l, .num 1, .asIs⟩
def GLB_ST_STAT_FUSEERR : Field := ⟨0x10, 1, 4, 0, 1, .ro, .l, .num 0, .asIs⟩
def GLB_ST_STAT_RAILS : Field := ⟨0x10, 1, 4, 1, 1, .ro, .l, .num 0, .asIs⟩
def GLB_ST_STAT_SELFTEST : Field := ⟨0x10, 1, 4, 2, 1, .ro, .l, .num 0, .asIs⟩
def GLB_ST_STAT_MEMOK : Field := ⟨0x10, 1, 4, 3, 1, .ro, .l, .num 0, .asIs⟩
def GLB_ST_STAT_ROLES : Field := ⟨0x10, 1, 4, 4, 1, .ro, .l, .num 0, .asIs⟩
def GLB_ST_STAT_CALDONE : Field := ⟨0x10, 1, 4, 5, 1, .ro, .l, .num 0, .asIs⟩
def GLB_ST_STAT_CALLIM : Field := ⟨0x10, 1, 4, 6, 1, .ro, .l, .num 0, .asIs⟩
def GLB_ST_STAT_CALPRE : Field := ⟨0x10, 1, 4, 7, 1, .ro, .l, .num 0, .asIs⟩
def GLB_ST_STAT_READY : Field := ⟨0x10, 1, 4, 8, 1, .ro, .l, .num 0, .asIs⟩
def GLB_ST_STAT_STRET : Field := ⟨0x10, 1, 4, 16, 10, .ro, .l, .num 0, .asIs⟩
def GLB_ACC_STAT_VALID : Field := ⟨0x20, 1, 4, 0, 1, .w1c, .l, .num 0, .asIs⟩
def GLB_ACC_STAT_CAUSE : Field := ⟨0x20, 1, 4, 1, 3, .ro, .l, .num 0, .asIs⟩
def GLB_ACC_STAT_WR : Field := ⟨0x20, 1, 4, 4, 1, .ro, .l, .num 0, .asIs⟩
def GLB_ACC_STAT_TELLER : Field := ⟨0x20, 1, 4, 5, 1, .ro, .l, .num 0, .asIs⟩
def GLB_ACC_STAT_TNUM : Field := ⟨0x20, 1, 4, 6, 8, .ro, .l, .num 0, .asIs⟩
def GLB_ACC_ADDR_OFFSET : Field := ⟨0x24, 1, 4, 0, 26, .ro, .l, .num 0, .asIs⟩
def GLB_ACC_CNT_COUNT : Field := ⟨0x28, 1, 4, 0, 32, .rc, .l, .num 0, .asIs⟩
def SEC_ASSAY_FIG : Field := ⟨0x240, 4, 4, 0, 16, .ro, .l, .num 0, .asIs⟩
def SEC_ASSAY_EYE : Field := ⟨0x240, 4, 4, 16, 9, .ro, .l, .num 0, .asIs⟩
def SEC_ASSAY_PASS : Field := ⟨0x240, 4, 4, 25, 1, .ro, .l, .num 0, .asIs⟩
def SEC_ASSAY_VALID : Field := ⟨0x240, 4, 4, 26, 1, .ro, .l, .num 0, .asIs⟩
def SEC_ASSAY_PRE : Field := ⟨0x240, 4, 4, 27, 1, .w1c, .l, .num 0, .asIs⟩
def GLB_ASSAY_STRUM_FIG : Field := ⟨0x2008, 1, 4, 0, 16, .ro, .l, .num 0, .asIs⟩
def GLB_ASSAY_STRUM_EYE : Field := ⟨0x2008, 1, 4, 16, 9, .ro, .l, .num 0, .asIs⟩
def GLB_ASSAY_STRUM_PASS : Field := ⟨0x2008, 1, 4, 25, 1, .ro, .l, .num 0, .asIs⟩
def GLB_ASSAY_STRUM_VALID : Field := ⟨0x2008, 1, 4, 26, 1, .ro, .l, .num 0, .asIs⟩
def GLB_ASSAY_STRUM_PRE : Field := ⟨0x2008, 1, 4, 27, 1, .w1c, .l, .num 0, .asIs⟩
def CHN_CTL_EN : Field := ⟨0x0, 1, 4, 0, 1, .rw, .b, .num 0, .asIs⟩
def CHN_CTL_CLAMP_EN : Field := ⟨0x0, 1, 4, 1, 1, .rw, .b, .num 0, .asIs⟩
def CHN_CTL_CONTACT_OVR : Field := ⟨0x0, 1, 4, 2, 1, .rw, .s, .num 0, .asIs⟩
def CHN_CTL_SAFE_REQ : Field := ⟨0x0, 1, 4, 3, 1, .wo, .l, .num 0, .asIs⟩
def CHN_CTL_SAFE_REL : Field := ⟨0x0, 1, 4, 4, 1, .wo, .l, .num 0, .asIs⟩
def CHN_STAT_SAFE : Field := ⟨0x4, 1, 4, 0, 1, .ro, .l, .num 1, .asIs⟩
def CHN_STAT_DRIVE_LOCK : Field := ⟨0x4, 1, 4, 1, 1, .ro, .l, .num 1, .asIs⟩
def CHN_STAT_CMP_RDY : Field := ⟨0x4, 1, 4, 2, 1, .ro, .l, .num 0, .asIs⟩
def CHN_STAT_UNSETTLED : Field := ⟨0x4, 1, 4, 3, 1, .w1c, .l, .num 0, .asIs⟩
def CHN_STAT_BANK_INV : Field := ⟨0x4, 1, 4, 4, 1, .w1c, .l, .num 0, .asIs⟩
def CHN_STAT_CLAMP_HIT : Field := ⟨0x4, 1, 4, 5, 1, .w1c, .l, .num 0, .asIs⟩
def CHN_STAT_LOAD_SAT : Field := ⟨0x4, 1, 4, 6, 1, .w1c, .l, .num 0, .asIs⟩
def CHN_STAT_WR_IGN : Field := ⟨0x4, 1, 4, 7, 1, .w1c, .l, .num 0, .asIs⟩
def CHN_STAT_DRV_OVC : Field := ⟨0x4, 1, 4, 8, 1, .w1c, .l, .num 0, .asIs⟩
def CHN_STAT_SC_RST : Field := ⟨0x4, 1, 4, 16, 1, .ro, .l, .num 1, .asIs⟩
def CHN_STAT_SC_CARD : Field := ⟨0x4, 1, 4, 17, 1, .ro, .l, .num 0, .asIs⟩
def CHN_STAT_SC_DEV : Field := ⟨0x4, 1, 4, 18, 1, .ro, .l, .num 0, .asIs⟩
def CHN_STAT_SC_CRIT : Field := ⟨0x4, 1, 4, 19, 1, .ro, .l, .num 0, .asIs⟩
def CHN_STAT_SC_DEP : Field := ⟨0x4, 1, 4, 20, 1, .ro, .l, .num 0, .asIs⟩
def CHN_STAT_SC_OVC : Field := ⟨0x4, 1, 4, 21, 1, .ro, .l, .num 0, .asIs⟩
def CHN_STAT_SC_SW : Field := ⟨0x4, 1, 4, 22, 1, .ro, .l, .num 0, .asIs⟩
def TIL_SEQ_DATA_A_VAL : Field := ⟨0x70, 1, 4, 0, 32, .rw, .s, .num 0, .asIs⟩
def TIL_SEQ_DATA_B_VAL : Field := ⟨0x74, 1, 4, 0, 32, .rw, .s, .num 0, .asIs⟩
def HAT_ABORT_TAG_TAG : Field := ⟨0x100104, 1, 4, 0, 32, .rw, .l, .num 0, .asIs⟩
def HAT_SQ_PASID_PASID : Field := ⟨0x14, 1, 4, 0, 20, .rw, .s, .num 0, .asIs⟩
def HAT_CQ_PASID_PASID : Field := ⟨0xC, 1, 4, 0, 20, .rw, .s, .num 0, .asIs⟩

def chnTable0 : List Field :=
  [CHN_BANK_SEL_BANK, CHN_BANK_STAT_SRC, CHN_BANK_STAT_TGT, CHN_BANK_STAT_GLIDING,
   CHN_BANK_STAT_QV, CHN_BANK_STAT_QBANK, CHN_BANK_STAT_REMAIN, CHN_CMP_CTL_MODE,
   CHN_CMP_CTL_FILT, CHN_CMP_CTL_TICK, CHN_CMP_CTL_HYS, CHN_CMP_EVT_SRC,
   CHN_CMP_EVT_EDGE, CHN_CMP_EVT_IRQ_EN, CHN_CMP_EVT_WAKE_EN, CHN_CMP_EVT_WAKE_LVL,
   CHN_CMP_EVT_WAKE_POL, CHN_CMP_EVT_HI_STATE, CHN_CMP_EVT_LO_STATE, CHN_CMP_EVT_EVT,
   CHN_LOAD_CTL_EN, CHN_PMU_CTL_MODE, CHN_PMU_CTL_RANGE, CHN_PMU_CTL_PRESET,
   CHN_PMU_CTL_CONNECT, CHN_PMU_CTL_SETTLE, CHN_PMU_CTL_START, CHN_PMU_CTL_CC_START,
   CHN_PMU_FORCE_CODE, CHN_PMU_CLAMP_HI, CHN_PMU_CLAMP_LO, CHN_PMU_CNT_N,
   CHN_PMU_RES_RES, CHN_PMU_STAT_BUSY, CHN_PMU_STAT_DONE, CHN_PMU_STAT_OVR,
   CHN_PMU_STAT_CLAMPED, CHN_PMU_STAT_ABORTED, CHN_PMU_STAT_LOCKED, CHN_PMU_STAT_STIGN,
   CHN_CC_WIN_VHI, CHN_CC_WIN_VLO, CHN_CC_RES_RESULT, CHN_CC_RES_VMEAS,
   CHN_VIH_CODE, CHN_VIL_CODE, CHN_VTT_CODE, CHN_VOH_CODE,
   CHN_VOL_CODE, CHN_VCOM_CODE, CHN_VCH_CODE, CHN_VCL_CODE,
   CHN_IOH_CODE, CHN_IOL_CODE, CHN_GLIDE_EN, CHN_GLIDE_T,
   CHN_TRIM_LVL_OFS, CHN_TRIM_CMP_OFS, CHN_TRIM_LVL_GAIN, CHN_TRIM_CMP_GAIN]
def chnTable1 : List Field :=
  [CHN_TRIM_FING_FING, CHN_TRIM_FING_NFING, CHN_TRIM_EDGE_DRV, CHN_TRIM_EDGE_STB,
   CHN_TRIM_TDC_CORE1, CHN_TRIM_TRK_LVL, CHN_TRIM_TRK_CMP, CHN_TRIM_TRKT_EDGE,
   CHN_TRIM_TRKT_PEND, CHN_ASSAY_FIG, CHN_ASSAY_EYE, CHN_ASSAY_PASS,
   CHN_ASSAY_VALID, CHN_ASSAY_PRE, CHN_CTL_EN, CHN_CTL_CLAMP_EN,
   CHN_CTL_CONTACT_OVR, CHN_CTL_SAFE_REQ, CHN_CTL_SAFE_REL, CHN_STAT_SAFE,
   CHN_STAT_DRIVE_LOCK, CHN_STAT_CMP_RDY, CHN_STAT_UNSETTLED, CHN_STAT_BANK_INV,
   CHN_STAT_CLAMP_HIT, CHN_STAT_LOAD_SAT, CHN_STAT_WR_IGN, CHN_STAT_DRV_OVC,
   CHN_STAT_SC_RST, CHN_STAT_SC_CARD, CHN_STAT_SC_DEV, CHN_STAT_SC_CRIT,
   CHN_STAT_SC_DEP, CHN_STAT_SC_OVC, CHN_STAT_SC_SW]
/-- The fields of a chn block. -/
def chnTable : List Field := chnTable0 ++ chnTable1

def tilTable0 : List Field :=
  [TIL_VCLK_CTL_EN, TIL_VCLK_CTL_ARM, TIL_VCLK_CTL_CANCEL, TIL_VCLK_STAT_RUNNING,
   TIL_VCLK_STAT_PEND, TIL_VCLK_STAT_APPLIED, TIL_VCLK_STAT_REFUSED, TIL_VCLK_STAT_RCAUSE,
   TIL_VCLK_STAT_FRET_INV, TIL_VCLK_STAT_WR_IGN, TIL_VCLK_FTW_LO_FTW, TIL_VCLK_FTW_HI_FTW,
   TIL_VCLK_EPOCH0_FRAC, TIL_VCLK_EPOCH1_NS, TIL_VCLK_EPOCH2_SEC, TIL_VCLK_EPOCH3_SEC,
   TIL_VCLK_PH0_LO_PH0, TIL_VCLK_PH0_HI_PH0, TIL_VCLK_NFTW_LO_NFTW, TIL_VCLK_NFTW_HI_NFTW,
   TIL_VCLK_NTIME0_FRAC, TIL_VCLK_NTIME1_NS, TIL_VCLK_NTIME2_SECL, TIL_VCLK_NTIME3_SECH,
   TIL_TDC_CTL_REC, TIL_TDC_STAT_OVF, TIL_TDC_STAT_BUSY_SEEN, TIL_TDC_STAT_LOST_SEEN,
   TIL_TDC_STAT_WR_IGN, TIL_TDC_DROP_DROP, TIL_TDC_BUSYCNT_BUSYCNT, TIL_SEQ_CTL_ARM,
   TIL_SEQ_CTL_ABORT, TIL_SEQ_CTL_HOLD, TIL_SEQ_CTL_RESUME, TIL_SEQ_STAT_STATE,
   TIL_SEQ_STAT_LEADER, TIL_SEQ_STAT_SC96, TIL_SEQ_STAT_STARVED, TIL_SEQ_STAT_RESTARTED,
   TIL_SEQ_STAT_JREF, TIL_SEQ_STAT_MARGIN_LOW, TIL_SEQ_STAT_WR_IGN, TIL_SEQ_STAT_HOLD_THM,
   TIL_SEQ_STAT_DEPTH, TIL_SEQ_STAT_SEG, TIL_SEQ_START0_FRAC, TIL_SEQ_START1_NS,
   TIL_SEQ_START2_SECL, TIL_SEQ_START3_SECH, TIL_SEQ_JUMP_TARGET, TIL_SEQ_JUMP_GO,
   TIL_SEQ_JTRIG_TARGET, TIL_SEQ_JTRIG_EN, TIL_SEQ_RFTH_TH, TIL_SEQ_MARGIN_MARGIN,
   TIL_SEQ_SEGCNT_SEGCNT, TIL_SEQ_UNDERCNT_UNDERCNT, TIL_SEQ_FILL_OCC, TIL_SEQ_RESSZ_RES]
def tilTable1 : List Field :=
  [TIL_SEQ_XMAX_VAL, TIL_SEQ_YMAX_VAL, TIL_SEQ_XSTRIDE_VAL, TIL_SEQ_YSTRIDE_VAL,
   TIL_SEQ_XBASE_VAL, TIL_SEQ_YBASE_VAL, TIL_SEQ_X_VAL, TIL_SEQ_Y_VAL,
   TIL_SEQ_D_VAL, TIL_SEQ_LAMBDA_LAMBDA, TIL_SITE_MAP_SITE, TIL_SITE_MAP_V,
   TIL_SEQ_PINFN_SRC, TIL_SEQ_PINFN_BIT, TIL_SEQ_PINFN_INV, TIL_SEQ_LCNT_COUNT,
   TIL_SEQ_LOOP_LEFT, TIL_FAIL_MASK_MASK, TIL_FAIL_STAT_OVF, TIL_FAIL_STAT_WR_IGN,
   TIL_FAIL_DROP_DROP, TIL_FAIL_QOCC_OCC, TIL_FAIL_IO_IO, TIL_FAIL_IO_LGR,
   TIL_VCNT_LO_VCNT, TIL_VCNT_HI_VCNT, TIL_SNAP_VCNT_LO_VCNT, TIL_SNAP_VCNT_HI_VCNT,
   TIL_SNAP_SEGCNT_SEGCNT, TIL_XPT_MAP_SLICE, TIL_XPT_STAT_RETIRED, TIL_XPT_STAT_BUSY,
   TIL_XPT_STAT_FREE, TIL_XPT_STAT_NOSPARE, TIL_TRK_STAT_NOTRK, TIL_TRK_STAT_LAG,
   TIL_TRK_STAT_WR_IGN, TIL_TRK_STAT_PASSES, TIL_BALL_DLY_DLY, TIL_SEQ_DATA_A_VAL,
   TIL_SEQ_DATA_B_VAL]
/-- The fields of a til block. -/
def tilTable : List Field := tilTable0 ++ tilTable1

def fretTable0 : List Field :=
  [TIL_FRET_D_OFS, TIL_FRET_C0_OFS, TIL_FRET_C1_OFS, TIL_FRET_TSTART_OFS,
   TIL_FRET_DACT_ACT0, TIL_FRET_DACT_ACT1, TIL_FRET_DACT_ACT2, TIL_FRET_DACT_ACT3,
   TIL_FRET_CMODE_MODE, TIL_FRET_TWIN_OPEN_DLY, TIL_FRET_TWIN_LEN, TIL_FRET_TWIN_NSTOP,
   TIL_FRET_TWIN_EN, TIL_FRET_TWIN_LIM_EN, TIL_FRET_STOPS_STOP0, TIL_FRET_STOPS_STOP1,
   TIL_FRET_STOPS_STOP2, TIL_FRET_STOPS_STOP3, TIL_FRET_TLIM_LO, TIL_FRET_TLIM_HI]
/-- The fields of a fret block. -/
def fretTable : List Field := fretTable0

def siteTable0 : List Field :=
  [GLB_SITE_STAT_FAIL, GLB_SITE_STAT_PFAIL, GLB_SITE_STAT_STARVED, GLB_SITE_STAT_RESTARTED,
   GLB_SITE_STAT_SUSPECT, GLB_SITE_STAT_RETESTED, GLB_SITE_STAT_NORETEST, GLB_SITE_STAT_INCOMPL,
   GLB_SITE_STAT_CAPPED, GLB_SITE_STAT_LOST, GLB_SITE_STAT_OOR, GLB_SITE_STAT_TSAT,
   GLB_SITE_STAT_NOROOM, GLB_SITE_STAT_WR_IGN, GLB_SITE_STAT_ACTIVE, GLB_SITE_STAT_BINV,
   GLB_SITE_STAT_REPAIR, GLB_SITE_STAT_BIN, GLB_SITE_FCNT_FCNT, GLB_SITE_FVEC_LO_FVEC,
   GLB_SITE_FVEC_HI_FVEC, GLB_SITE_FADDR_LO_FADDR, GLB_SITE_FADDR_HI_FADDR, GLB_SITE_LCFG_FORM,
   GLB_SITE_LCFG_XW, GLB_SITE_LCFG_YW, GLB_SITE_LCFG_IOW, GLB_SITE_CAP_CAP]
/-- The fields of a site block. -/
def siteTable : List Field := siteTable0

def secTable0 : List Field :=
  [SEC_LGR_BASE_LO_BASE, SEC_LGR_BASE_HI_BASE, SEC_LGR_SIZE_SIZE, SEC_LGR_USED_USED,
   DIG_CTL_STOP, DIG_CTL_SOFT, DIG_STAT_STATE, DIG_STAT_CAUSE,
   DIG_STAT_CLIP, DIG_STAT_MISSED, DIG_STAT_EARLY, DIG_STAT_SPILL_LOST,
   DIG_STAT_VIOL, DIG_CFG_INMODE, DIG_CFG_INMASK, DIG_CFG_POLICY,
   DIG_CFG_CAPMODE, DIG_CFG_SPILL, DIG_CFG_MASKACT, DIG_CFG_SEGEVT,
   DIG_CFG_MLINE, DIG_PRE_PRE, DIG_POST_POST, DIG_TRIG_EN_ANALOG,
   DIG_TRIG_EN_CMP, DIG_TRIG_EN_VFLAG, DIG_TRIG_EN_BCAST, DIG_TRIG_EN_TIN,
   DIG_TRIG_LVL_LINE, DIG_TRIG_LVL_COND, DIG_TRIG_LVL_DIR, DIG_TRIG_LVL_HYS,
   DIG_TRIG_WIN_LO, DIG_TRIG_WIN_HI, DIG_TRIG_SRC_CCH, DIG_TRIG_SRC_VTILE,
   DIG_TRIG_SRC_BCID, DIG_TRIG_SRC_TINPOL, DIG_HOLDOFF_LO_HOLDOFF, DIG_HOLDOFF_HI_HOLDOFF,
   DIG_AUTO_TO, DIG_AUTO_EN, DIG_MISSED_MISSED, DIG_EARLY_EARLY,
   DIG_SEGDONE_SEGDONE, DIG_CAP_CAP, DIG_VCNT_VCNT, DIG_SPILL_CI_CI,
   DIG_SPILL_PI_PI, DIG_SPILL_LOST_LOST, SEC_TAP_CHAN, SEC_TAP_EN,
   SEC_TAP_ATT, SEC_TAP_OFS, SEC_ACQ_BASE_LO_BASE, SEC_ACQ_BASE_HI_BASE,
   SEC_ACQ_SIZE_SIZE, SEC_ACQ_USED_USED, DIG_FILT_DMODE, DIG_FILT_K]
def secTable1 : List Field :=
  [DIG_FILT_FBANK, DIG_FILT_ACC, DIG_FILT_CODE, DIG_FILT_M,
   DIG_ACC_N, DIG_FIR_IDX_IDX, DIG_FIR_IDX_BANK, DIG_FIR_COEF_COEF,
   DIG_FIR_PRE_SET, DIG_FIR_PRE_BANK, DIG_BE_STAT_FSAT, DIG_BE_STAT_ESC,
   DIG_BE_STAT_WR_IGN, DIG_BE_STAT_PLOAD, DIG_FSATCNT_FSATCNT, DIG_ESCCNT_ESCCNT,
   DIG_TRIM_OFS, DIG_TRIM_GAIN, DIG_TRIM_SKEW, SEC_REF_STAT_SEL,
   SEC_REF_STAT_LREF0_OK, SEC_REF_STAT_LREF1_OK, SEC_REF_STAT_SWITCHED, SEC_ASSAY_FIG,
   SEC_ASSAY_EYE, SEC_ASSAY_PASS, SEC_ASSAY_VALID, SEC_ASSAY_PRE]
/-- The fields of a sec block. -/
def secTable : List Field := secTable0 ++ secTable1

def telTable0 : List Field :=
  [TIL_TEL_STAT_STATE, TIL_TEL_STAT_ROLE, TIL_TEL_STAT_LENT, TIL_TEL_STAT_POSTC,
   TIL_TEL_STAT_SLOT, TIL_TEL_STAT_WR_IGN, TIL_TEL_STAT_HCAUSE, TIL_TEL_STAT_ENTRY,
   TIL_TEL_STAT_EVENT, TIL_TEL_EPOCH_EPOCH, TIL_TEL_CFG_LEND, TIL_TEL_CFG_WDOG,
   TIL_TEL_PC_PC, TIL_TEL_QOCC_INBOX, TIL_TEL_QOCC_SLOTS, TIL_TEL_QOCC_REPORTS,
   TIL_TEL_QOCC_OUTBOX, TIL_TEL_RESTART_RESTART, TIL_TEL_STALE_STALE, TIL_TEL_FULL_FULL,
   TIL_TEL_NOENT_NOENT, TIL_TEL_HALTS_HALTS]
/-- The fields of a tel block. -/
def telTable : List Field := telTable0

def glbTable0 : List Field :=
  [GLB_KEYSTAT_PROG, GLB_KEYSTAT_REVOKED, GLB_IMGSTAT_VALID, GLB_IMGSTAT_KEY,
   GLB_IMGSTAT_USERS, GLB_IMGSTAT_BUILD, GLB_CAL_CFG_TRK, GLB_CAL_CFG_AUTORET,
   GLB_CAL_CFG_TRKPER, GLB_CAL_STAT_RUN, GLB_CAL_STAT_PRECOND, GLB_CAL_STAT_LIMIT,
   GLB_IO_STAT_CARD, GLB_IO_STAT_CARD_RAW, GLB_IO_STAT_REMOVED, GLB_IO_STAT_TOUCH,
   GLB_IO_STAT_LIFT, GLB_IO_STAT_BYP, GLB_IO_STAT_EOT_OUT, GLB_IO_STAT_LOCKOUT,
   GLB_IO_STAT_SMBADDR, GLB_PRB_CTL_EOT, GLB_PRB_CTL_AUTO, GLB_PRB_CTL_LIFTABORT,
   GLB_PRB_CTL_REQTOUCH, GLB_PRB_CNT_TOUCHES, GLB_SMB_CFG_PECREQ, GLB_SMB_CFG_FUSE_EN,
   GLB_SMB_STAT_PECERR, GLB_SMB_STAT_FUSE_BUSY, GLB_SMB_STAT_FUSE_DONE, GLB_SMB_STAT_FUSE_ERR,
   GLB_SMB_STAT_ALERT, GLB_ID_PART, GLB_ID_REV, GLB_ID_FAMILY,
   GLB_RST_CTL_KEY, GLB_RST_CTL_WARM, GLB_RST_STAT_CAUSE, GLB_RST_STAT_BUSY,
   GLB_RST_STAT_REFUSED, GLB_RST_STAT_WARMCNT, GLB_ST_CFG_AUTOCAL, GLB_ST_STAT_FUSEERR,
   GLB_ST_STAT_RAILS, GLB_ST_STAT_SELFTEST, GLB_ST_STAT_MEMOK, GLB_ST_STAT_ROLES,
   GLB_ST_STAT_CALDONE, GLB_ST_STAT_CALLIM, GLB_ST_STAT_CALPRE, GLB_ST_STAT_READY,
   GLB_ST_STAT_STRET, GLB_ACC_STAT_VALID, GLB_ACC_STAT_CAUSE, GLB_ACC_STAT_WR,
   GLB_ACC_STAT_TELLER, GLB_ACC_STAT_TNUM, GLB_ACC_ADDR_OFFSET, GLB_ACC_CNT_COUNT]
def glbTable1 : List Field :=
  [GLB_ASSAY_STRUM_FIG, GLB_ASSAY_STRUM_EYE, GLB_ASSAY_STRUM_PASS, GLB_ASSAY_STRUM_VALID,
   GLB_ASSAY_STRUM_PRE]
/-- The fields of a glb block. -/
def glbTable : List Field := glbTable0 ++ glbTable1

def hatTable0 : List Field :=
  [HAT_LINK_STAT_RATE, HAT_LINK_STAT_WIDTH, HAT_LINK_STAT_FLIT, HAT_LINK_STAT_UP,
   HAT_LINK_STAT_DEGR, HAT_LINK_STAT_LDOWN, HAT_LINK_STAT_NOCXL, HAT_LINK_STAT_VIRAL,
   HAT_HDM_STAT_COMMITTED, HAT_HDM_STAT_BI_EN, HAT_HDM_STAT_MEM_ACTIVE, HAT_HDM_STAT_BIPEND,
   HAT_HDM_STAT_HWDROP, HAT_HDM_STAT_POISON, HAT_HDM_STAT_CDAT_CHG, HAT_HDM_BASE_LO_BASE,
   HAT_HDM_BASE_HI_BASE, HAT_HDM_DROP_DROP, HAT_POISON_POISON, HAT_SF_OCC_OCC,
   HAT_BISNP_BISNP, HAT_IDE_STAT_IO_SECURE, HAT_IDE_STAT_CM_SECURE, HAT_IDE_STAT_IO_FAIL,
   HAT_IDE_STAT_CM_FAIL, HAT_IDE_STAT_CM_MODE, HAT_ABORT_SQ, HAT_ABORT_ALL,
   HAT_ABORT_GO, HAT_ABORT_STAT_MISS, HAT_JOBS_INFL, HAT_JOBS_WAIT,
   HAT_EVT_DROP_DROP, HAT_ABORT_TAG_TAG]
/-- The fields of a hat block. -/
def hatTable : List Field := hatTable0

def sqTable0 : List Field :=
  [HAT_SQ_BASE_LO_BASE, HAT_SQ_BASE_HI_BASE, HAT_SQ_PLOC_LO_PLOC, HAT_SQ_PLOC_HI_PLOC,
   HAT_SQ_CFG_LOG2, HAT_SQ_CFG_PRIO, HAT_SQ_CFG_SNOOP, HAT_SQ_CFG_CQ,
   HAT_SQ_CFG_PV, HAT_SQ_CTL_EN, HAT_SQ_STAT_ACTIVE, HAT_SQ_STAT_ERR,
   HAT_SQ_STAT_ECAUSE, HAT_SQ_STAT_STALE, HAT_SQ_STAT_WR_IGN, HAT_SQ_PIDX_PIDX,
   HAT_SQ_CIDX_CIDX, HAT_SQ_INFL_INFL, HAT_SQ_PASID_PASID]
/-- The fields of a sq block. -/
def sqTable : List Field := sqTable0

def cqTable0 : List Field :=
  [HAT_CQ_BASE_LO_BASE, HAT_CQ_BASE_HI_BASE, HAT_CQ_CTL_EN, HAT_CQ_CFG_LOG2,
   HAT_CQ_CFG_VEC, HAT_CQ_CFG_IEN, HAT_CQ_CFG_PV, HAT_CQ_IMOD_COUNT,
   HAT_CQ_IMOD_TIME, HAT_CQ_STAT_ACTIVE, HAT_CQ_STAT_ERR, HAT_CQ_STAT_ECAUSE,
   HAT_CQ_STAT_STALE, HAT_CQ_STAT_FULL, HAT_CQ_STAT_WR_IGN, HAT_CQ_WIDX_WIDX,
   HAT_CQ_HIDX_HIDX, HAT_CQ_WAIT_WAIT, HAT_EVR_MASK_MASK, HAT_EVR_LOST_LOST,
   HAT_CQ_PASID_PASID]
/-- The fields of a cq block. -/
def cqTable : List Field := cqTable0

def xltTable0 : List Field :=
  [XLT_CTL_PRI_TO, XLT_CTL_PREF, XLT_STAT_ATS_EN, XLT_STAT_PASID_EN,
   XLT_STAT_PRI_EN, XLT_STAT_PRI_STOP, XLT_STAT_INVPEND, XLT_STAT_LBRK,
   XLT_ATC_OCC_USED, XLT_ATC_OCC_LOCKED, XLT_PASIDS_PASIDS, XLT_MISS_MISS,
   XLT_FAULTS_FAULTS, XLT_PRI_OUT_GROUPS, XLT_PRI_OUT_SUSP, XLT_INV_INV,
   XLT_RES_RD, XLT_RES_WR, XLT_FLT_INFO_PASID, XLT_FLT_INFO_PV,
   XLT_FLT_INFO_WR, XLT_FLT_INFO_SQ, XLT_FLT_ADDR_LO_ADDR, XLT_FLT_ADDR_HI_ADDR,
   XLT_FLT_DONE_DONE, XLT_FLT_STAT_STATUS, XLT_FLT_STAT_VALID, XLT_FLT_TAG_TAG]
/-- The fields of a xlt block. -/
def xltTable : List Field := xltTable0

def ctxTable0 : List Field :=
  [XLT_CTX_CFG_EN, XLT_CTX_CFG_RT, XLT_CTX_CFG_PV, XLT_CTX_CFG_WEIGHT,
   XLT_CTX_PASID_PASID, XLT_CTX_RATE_RD, XLT_CTX_RATE_WR, XLT_CTX_STAT_ACTIVE,
   XLT_CTX_STAT_PINNED, XLT_CTX_STAT_PBUSY, XLT_CTX_STAT_PFAIL, XLT_CTX_STAT_RFAIL,
   XLT_CTX_STAT_LBRK, XLT_CTX_STAT_WR_IGN, XLT_CTX_STAT_LOCKS, XLT_CTX_FAULTS_FAULTS,
   XLT_PIN_BASE_LO_BASE, XLT_PIN_BASE_HI_BASE, XLT_PIN_SIZE_SIZE]
/-- The fields of a ctx block. -/
def ctxTable : List Field := ctxTable0

def memTable0 : List Field :=
  [MEM_CTL_POINT, MEM_CTL_RETRAIN, MEM_CTL_HOSTPOL, MEM_CTL_NRK,
   MEM_CTL_PATROL, MEM_STAT_CUR, MEM_STAT_STATE, MEM_STAT_PEND,
   MEM_STAT_RTPEND, MEM_STAT_RTACT, MEM_STAT_SET_FULL, MEM_STAT_SET_HALF,
   MEM_STAT_HOT, MEM_STAT_RPEND, MEM_TEMP_TEMP, MEM_TEMP_TRAINT,
   MEM_CE_CE, MEM_UE_UE, MEM_UE_ADDR_LO_ADDR, MEM_UE_ADDR_HI_ADDR,
   MEM_UE_ADDR_HI_VALID, MEM_REF_FORCED_FORCED, MEM_NRR_NRR, MEM_NRR_DROP_DROP,
   MEM_PPR_DONE, MEM_PPR_EXH, MEM_CHSTAT_FAIL]
/-- The fields of a mem block. -/
def memTable : List Field := memTable0

def timTable0 : List Field :=
  [TIM_CTL_SET, TIM_CTL_JOIN, TIM_STAT_QUAL, TIM_STAT_SLEWING,
   TIM_STAT_REFUSED, TIM_STAT_OFSBIG, TIM_STAT_WR_IGN, TIM_CFG_POS,
   TIM_CFG_RING, TIM_CFG_TPER, TIM_CFG_STEPTH, TIM_REF_CTL_PREF,
   TIM_REF_CTL_REVERT, TIM_REF_STAT_A_OK, TIM_REF_STAT_B_OK, TIM_REF_STAT_SEL,
   TIM_REF_STAT_HOLD, TIM_REF_STAT_SWITCHED, TIM_NOW0_FRAC, TIM_NOW1_NS,
   TIM_NOW2_SECL, TIM_NOW3_SECH, TIM_SET0_FRAC, TIM_SET1_NS,
   TIM_SET2_SECL, TIM_SET3_SECH, TIM_OFS_OFS, TIM_LINK_STAT_OUT,
   TIM_LINK_STAT_IN, TIM_LINK_STAT_DOWN_SEEN, TIM_LINK_DLY_DLY, TIM_LINK_ASYM_ASYM,
   TIM_RING_CRC_COUNT, TIM_RING_DROP_COUNT, TIM_GAPS_COUNT, TIM_BC_CTL_SSBCID,
   TIM_BC_CTL_JBCID, TIM_BC_CTL_ABORT_EN, TIM_BCAB_LO_TILES, TIM_BCAB_HI_TILES,
   TIM_STRUM_CTL_MODE, TIM_STRUM_CTL_STEER, TIM_STRUM_STAT_SEEN, TIM_STRUM_STAT_SETDONE,
   TIM_STRUM_STAT_SETFAIL, TIM_STRUM_STAT_STRAY, TIM_STRUM_STAT_LOCKED, TIM_STRUM_DLY_DLY,
   TIM_STRUM_OFS_OFS, TIM_STRUM_SET_LO_SEC, TIM_STRUM_SET_HI_SEC, TIM_STRUM_ARR0_FRAC,
   TIM_STRUM_ARR1_NS, TIM_STRUM_ARR2_SECL, TIM_STRUM_ARR3_SECH, TIM_SNAP_SEQ_SEQN,
   TIM_SNAP_TIME0_FRAC, TIM_SNAP_TIME1_NS, TIM_SNAP_TIME2_SECL, TIM_SNAP_TIME3_SECH]
def timTable1 : List Field :=
  [TIM_SNAP_STAT_PEND, TIM_SNAP_STAT_LATCHED, TIM_SNAP_LATE_LATE, TIM_SNAPBUF_LO_ADDR,
   TIM_SNAPBUF_HI_ADDR, TIM_SNAPBUF_CTX_CTX, TIM_SNAPBUF_CTX_EN]
/-- The fields of a tim block. -/
def timTable : List Field := timTable0 ++ timTable1

def thmTable0 : List Field :=
  [THM_CFG_GRACE, THM_CFG_RISE, THM_STAT_S0, THM_STAT_R0,
   THM_STAT_S1, THM_STAT_R1, THM_STAT_S2, THM_STAT_R2,
   THM_STAT_S3, THM_STAT_R3, THM_TMAX_TMAX, THM_THROTTLES_COUNT,
   THM_SFAIL_LO_FAIL, THM_SFAIL_HI_FAIL, THM_SEC_T_T, THM_SENS_RAW,
   THM_SENS_USED, THM_VMON_MV, THM_VMON_OUTW, THM_VMON_FAULT]
/-- The fields of a thm block. -/
def thmTable : List Field := thmTable0

def pwrTable0 : List Field :=
  [PWR_CTL_TARGET, PWR_CTL_GO, PWR_CTL_WK_CMP, PWR_CTL_WK_TOUCH,
   PWR_CTL_WK_CARD, PWR_CTL_WK_TIMER, PWR_STAT_STATE, PWR_STAT_REFUSED,
   PWR_STAT_CHANGING, PWR_STAT_WCAUSE, PWR_STAT_DIGCLK, PWR_WTIMER_MS]
/-- The fields of a pwr block. -/
def pwrTable : List Field := pwrTable0

def fltTable0 : List Field :=
  [FLT_CFG_PINCLS, FLT_CFG_FIRSTCLS, FLT_CFG_EVTCLS, FLT_STAT_LATCHED,
   FLT_STAT_ASSERT, FLT_STAT_REACT, FLT_STAT_SEALED, FLT_STAT_SCAUSE,
   FLT_HIST_WIDX_WIDX, FLT_HIST_RIDX_RIDX, FLT_OVF_OVF, FLT_FIRST_CTL_VALID,
   FLT_INJ_CTL_EN, FLT_INJ_CTL_SEALOK, FLT_INJ_CTL_DISALL, FLT_INJ_STAT_ARMED,
   FLT_INJ_STAT_PENDING, FLT_SITEF_SITES, FLT_KSTAT_ACTIVE, FLT_KSTAT_LATCHED,
   FLT_KSTAT_WIRE, FLT_KSTAT_INJ, FLT_KSTAT_CLASS, FLT_KSTAT_LAST,
   FLT_KCNT_COUNT, FLT_HIST_WORD, FLT_FIRST_WORD]
/-- The fields of a flt block. -/
def fltTable : List Field := fltTable0

end R

end Sys2Proof.Machine
end

