-- ==== Sys2Proof/Machine/Ops.lean ====
section
/-! DEFINITION. The shared operations: register fields, unit bases, units' hidden state, ring time, raising detectors and
events, the access record and the access conditions of BAR0, boundary writes, and job ends. -/
namespace Sys2Proof.Machine

/-! ### Register fields -/

/-- Key of element `i` of field `f` in the block at `b`: bit address in BAR0. -/
def fieldKey (b : Nat) (f : Field) (i : Nat) : Nat := (b + f.off + i * f.stride) * 32 + f.lsb

/-- The Reset column's value (R6). -/
def resetOf (b : Nat) (f : Field) (i : Nat) : Nat :=
  match f.rst with
  | .num n => n % 2 ^ f.width
  | .fuse => Config.fuse (fieldKey b f i) % 2 ^ f.width
  | .fuseOr n => Config.fuse (fieldKey b f i) % 2 ^ f.width ||| n
  | .index => i % 2 ^ f.width
  | .rtctx => b2n (decide (56 ≤ (b - 0x201000) / 0x80))

/-- The value of element `i` of a field in the block at `b`. -/
def rdi (s : State) (b : Nat) (f : Field) (i : Nat) : Nat := mapGet s.regs (fieldKey b f i) (resetOf b f i)

/-- The value of a field. -/
def rd (s : State) (b : Nat) (f : Field) : Nat := rdi s b f 0

/-- A one-bit field as a Bool. -/
def flag (s : State) (b : Nat) (f : Field) : Bool := rd s b f == 1

/-- Write element `i` of a field; bits past its width fall away. -/
def wri (s : State) (b : Nat) (f : Field) (i v : Nat) : State :=
  { s with regs := mapPut s.regs (fieldKey b f i) (v % 2 ^ f.width) }

/-- Write a field. -/
def wr (s : State) (b : Nat) (f : Field) (v : Nat) : State := wri s b f 0 v

/-- Set a one-bit field. -/
def setF (s : State) (b : Nat) (f : Field) : State := wr s b f 1

/-- Clear a field. -/
def clrF (s : State) (b : Nat) (f : Field) : State := wr s b f 0

/-- Count one in a saturating counter (R9). -/
def incF (s : State) (b : Nat) (f : Field) : State := wr s b f (sat f.width (rd s b f + 1))

/-- Count one in element `i` of a saturating counter. -/
def incFi (s : State) (b : Nat) (f : Field) (i : Nat) : State := wri s b f i (sat f.width (rdi s b f i + 1))

/-- Add to a saturating counter. -/
def addF (s : State) (b : Nat) (f : Field) (n : Nat) : State := wr s b f (sat f.width (rd s b f + n))

/-- A 64-bit value held in two registers, lower first (R4). -/
def rd64 (s : State) (b : Nat) (lo hi : Field) : Nat := rd s b lo + rd s b hi * 2 ^ 32

/-- Write a value held in two registers. -/
def wr64 (s : State) (b : Nat) (lo hi : Field) (v : Nat) : State := wr (wr s b lo v) b hi (v / 2 ^ 32)

/-! ### Bases (R469 to R472) -/

/-- Base of the global, host-attach, translation, HBM, time, thermal, power and fault blocks: their fields carry BAR0
offsets. -/
def glb : Nat := 0

/-- Base of tile t's block. -/
def tileB (t : Nat) : Nat := 0x2000000 + t * 0x20000

/-- Base of slice p's block in tile t. -/
def sliceB (t p : Nat) : Nat := tileB t + 0x10000 + p * 0x400

/-- Base of fret f of position k of tile t. -/
def fretB (t k f : Nat) : Nat := tileB t + 0x8000 + k * 0x400 + f * 0x40

/-- Base of teller n's block. -/
def telB (n : Nat) : Nat := tileB (n / 4) + 0x4000 + n % 4 * 0x100

/-- Base of sector s's block. -/
def secB (s : Nat) : Nat := 0x1000000 + s * 0x100000

/-- Base of site group s. -/
def siteB (s : Nat) : Nat := 0x4000 + s * 0x20

/-- Base of SQ q's block. -/
def sqB (q : Nat) : Nat := 0x101000 + q * 0x40

/-- Base of the block of CQ r (r below 256) or EVR r - 256. -/
def cqB (r : Nat) : Nat := if r < 256 then 0x105000 + r * 0x40 else 0x109000 + (r - 256) * 0x40

/-- Base of DMA context k's block. -/
def ctxB (k : Nat) : Nat := 0x201000 + k * 0x80

/-! ### Units' unregistered state -/

def getSlice (s : State) (t p : Nat) : Slice := mapGet s.slices (t * 18 + p) Slice.reset
def putSlice (s : State) (t p : Nat) (v : Slice) : State := { s with slices := mapPut s.slices (t * 18 + p) v }
def getTile (s : State) (t : Nat) : Tile := mapGet s.tiles t Tile.reset
def putTile (s : State) (t : Nat) (v : Tile) : State := { s with tiles := mapPut s.tiles t v }
def getGang? (s : State) (l : Nat) : Option Gang := mapGet? s.gangs l
def putGang (s : State) (l : Nat) (g : Gang) : State := { s with gangs := mapPut s.gangs l g }
def dropGang (s : State) (l : Nat) : State := { s with gangs := mapErase s.gangs l }
def getSite (s : State) (i : Nat) : Site := mapGet s.sites i Site.reset
def putSite (s : State) (i : Nat) (v : Site) : State := { s with sites := mapPut s.sites i v }
def getJob? (s : State) (j : Nat) : Option Job := mapGet? s.rings.jobs j
def putJob (s : State) (j : Nat) (x : Job) : State := { s with rings := { s.rings with jobs := mapPut s.rings.jobs j x } }

def updXlt (s : State) (f : Xlt → Xlt) : State := { s with xlt := f s.xlt }
def updRings (s : State) (f : Rings → Rings) : State := { s with rings := f s.rings }
def updHbm (s : State) (f : Hbm → Hbm) : State := { s with hbm := f s.hbm }
def updBoot (s : State) (f : Boot → Boot) : State := { s with boot := f s.boot }
def updRing (s : State) (f : TimeRing → TimeRing) : State := { s with ring := f s.ring }
def updFlt (s : State) (f : Flt → Flt) : State := { s with flt := f s.flt }

def getTel (s : State) (n : Nat) : Teller := mapGet s.tellers n Teller.reset
def putTel (s : State) (n : Nat) (x : Teller) : State := { s with tellers := mapPut s.tellers n x }
def updTel (s : State) (n : Nat) (f : Teller → Teller) : State := putTel s n (f (getTel s n))

def getDig (s : State) (q : Nat) : Dig := mapGet s.digs q Dig.reset
def putDig (s : State) (q : Nat) (d : Dig) : State := { s with digs := mapPut s.digs q d }
def updDig (s : State) (q : Nat) (f : Dig → Dig) : State := putDig s q (f (getDig s q))

/-- The sector of a tile (R19). -/
def sectorOf (t : Nat) : Nat := t / 12

/-- Every tile, every slice, every site. -/
def allTiles : List Nat := List.range 48
def allSlices : List (Nat × Nat) := allTiles.flatMap fun t => (List.range 18).map fun p => (t, p)
def allSites : List Nat := List.range 256
def tilesOfSector (s : Nat) : List Nat := (List.range 12).map fun i => 12 * s + i

/-- The slice that serves position k of tile t (R472). -/
def sliceOf (s : State) (t k : Nat) : Nat := rdi s (tileB t) R.TIL_XPT_MAP_SLICE k

/-- The timing PLL of a sector is out of lock (R29). -/
def pllLost (s : State) (q : Nat) : Bool := s.flt.real.contains (7 * 1024 + q)

/-- The thermal state of a sector (R400): 0 NORMAL, 1 WARN, 2 REQUEST, 3 ENFORCED, 4 CRITICAL. -/
def thmState (s : State) (q : Nat) : Nat :=
  rd s glb (match q with | 0 => R.THM_STAT_S0 | 1 => R.THM_STAT_S1 | 2 => R.THM_STAT_S2 | _ => R.THM_STAT_S3)

/-- The sector is ENFORCED or CRITICAL (R401, R403). -/
def sectorEnforced (s : State) (q : Nat) : Bool := decide (3 ≤ thmState s q)

/-- A wake cause occurs in DORMANT or WATCH (R394): the first one is kept for the wake. -/
def askWake (s : State) (cause : Nat) : State :=
  if rd s glb R.PWR_STAT_STATE ≤ 1 ∧ s.wakeReq = 0 ∧ !flag s glb R.PWR_STAT_CHANGING then { s with wakeReq := cause } else s

/-- SMB_ALERT_N is driven low at the rise of a condition (R446). -/
def smbAlert (s : State) (was is : Bool) : State := if is && !was then setF s glb R.GLB_SMB_STAT_ALERT else s

/-- Slice p of tile t is retired (R379). -/
def isRetired (s : State) (t p : Nat) : Bool := bit (rd s (tileB t) R.TIL_XPT_STAT_RETIRED) p

/-- A tap of the sector is on the ball of logical channel c (R156). -/
def tapped (s : State) (c : Nat) : Bool :=
  (List.range 4).any fun l => rdi s (secB (c / 192)) R.SEC_TAP_EN l == 1 && rdi s (secB (c / 192)) R.SEC_TAP_CHAN l == c % 192

/-- A ball enters the safe state: an open segment of a tap on it records `SAFE`, flag bit 8 (R174, R181). -/
def noteSafe (s : State) (c : Nat) : State :=
  if tapped s c then updDig s (c / 192) fun d =>
    { d with open_ := d.open_.map fun g => { g with flags := g.flags ||| 0x100 } }
  else s

/-- The position slice p serves in tile t, if any: a retired slice serves none. -/
def posOf (s : State) (t p : Nat) : Option Nat :=
  if isRetired s t p then none else (List.range 16).find? fun k => sliceOf s t k == p

/-! ### Ring time (R63 to R65, R334) -/

/-- Ring time from seconds, nanoseconds and fraction, in 2^-16 ns. -/
def ringTime (sec ns frac : Nat) : Nat := (sec * 1000000000 + ns) * 65536 + frac

def fracOf (t : Nat) : Nat := t % 65536
def nsOf (t : Nat) : Nat := t / 65536 % 1000000000
def secOf (t : Nat) : Nat := t / 65536 / 1000000000

/-- A span of microseconds, in 2^-16 ns. -/
def usec (n : Nat) : Nat := n * 1000 * 65536

/-- A span of nanoseconds, in 2^-16 ns. -/
def nsec (n : Nat) : Nat := n * 65536

/-- A division rounded to nearest, halves upward. -/
def roundDiv (a b : Nat) : Nat := (2 * a + b) / (2 * b)

/-- The same for an integer numerator. -/
def roundDivInt (a : Int) (b : Nat) : Int := (2 * a + (b : Int)) / (2 * (b : Int))

/-- A ring time held in four registers laid out as `TIL_VCLK_EPOCH0` to `3`. -/
def rdTime (s : State) (b : Nat) (f0 f1 f2 f3 : Field) : Nat :=
  ringTime (rd s b f2 + rd s b f3 * 2 ^ 32) (rd s b f1) (rd s b f0)

/-- Write a ring time to four such registers. -/
def wrTime (s : State) (b : Nat) (f0 f1 f2 f3 : Field) (t : Nat) : State :=
  wr (wr (wr (wr s b f0 (fracOf t)) b f1 (nsOf t)) b f2 (secOf t)) b f3 (secOf t / 2 ^ 32)

/-! ### Free values -/

/-- A fresh free value: the value, and the state with the counter advanced. -/
def freshNat (s : State) : Nat × State := (Config.freeNat s.fresh, { s with fresh := s.fresh + 1 })

/-! ### Detectors and events -/

/-- A detector number (R407). -/
def detNo (kind inst : Nat) : Nat := kind * 1024 + inst

/-- Detector kind `kind`, instance `inst` of event type happens: its signal waits for the collector's sample (R408). -/
def signal (s : State) (kind inst info : Nat) : State :=
  { s with flt := { s.flt with signals := s.flt.signals ++ [(detNo kind inst, info)] } }

/-- The condition of a level detector begins to hold (R499). -/
def levelOn (s : State) (kind inst info : Nat) : State :=
  if s.flt.real.contains (detNo kind inst) then s
  else { s with flt := { s.flt with real := s.flt.real ++ [detNo kind inst],
                                    signals := s.flt.signals ++ [(detNo kind inst, info)] } }

/-- An injection point holds the detector's output. -/
def injHeld (s : State) (det : Nat) : Bool := s.flt.points.any fun p => p.det == det && p.inForce && !bit p.param 63

/-- A detector of the kind is raised: a level condition, a held injection or a disagreeing rail pair (R410, R422). -/
def kindActive (s : State) (kind : Nat) : Bool :=
  s.flt.raised.any (fun d => d / 1024 == kind) || s.flt.wires.any (fun d => d / 1024 == kind)

/-- Show `FLT_KSTAT[k].ACTIVE` (R422). -/
def showActive (s : State) (kind : Nat) : State := wri s glb R.FLT_KSTAT_ACTIVE kind (b2n (kindActive s kind))

/-- The condition of a level detector ceases: its output falls unless an injection holds it (R426). -/
def levelOff (s : State) (kind inst : Nat) : State :=
  let d := detNo kind inst
  let raised := if injHeld s d then s.flt.raised else s.flt.raised.filter (· != d)
  showActive { s with flt := { s.flt with real := s.flt.real.filter (· != d),
                                          signals := s.flt.signals.filter (fun x => x.1 != d || bit x.2 17), raised := raised } } kind

/-- An event for the event rings (R280) waits to be posted. -/
def postEvt (s : State) (type unit arg0 arg1 : Nat) : State :=
  { s with rings := { s.rings with events := s.rings.events ++ [⟨type, unit, arg0, arg1, s.now⟩] } }

/-! ### The access record and the access conditions of BAR0 (R468, R479) -/

/-- Record a recordable access (R468): who is none for the host, some n for teller n. -/
def recordAccess (s : State) (cause : Nat) (isWr : Bool) (who : Option Nat) (off : Nat) : State :=
  let s1 := if flag s glb R.GLB_ACC_STAT_VALID then s else
    wr (wr (wr (wr (wr (wr s glb R.GLB_ACC_STAT_VALID 1) glb R.GLB_ACC_STAT_CAUSE cause) glb R.GLB_ACC_STAT_WR (b2n isWr))
      glb R.GLB_ACC_STAT_TELLER (b2n who.isSome)) glb R.GLB_ACC_STAT_TNUM (who.getD 0)) glb R.GLB_ACC_ADDR_OFFSET (off / 4 * 4)
  incF s1 glb R.GLB_ACC_CNT_COUNT

/-- The part is sealed (R416). -/
def sealed (s : State) : Bool := flag s glb R.FLT_STAT_SEALED

/-- A DEVICE_FATAL or graver status is latched (R415). -/
def fatalLatched (s : State) : Bool := decide (16 ≤ rd s glb R.FLT_STAT_LATCHED)

/-- Power state READY (R393). -/
def powerReady (s : State) : Bool := rd s glb R.PWR_STAT_STATE == 2

/-- READY or RUN, and no entry to a lower power state in progress (R393). -/
def powerUp (s : State) : Bool := powerReady s && !flag s glb R.PWR_STAT_CHANGING

/-- No BAR0 access completes: D3hot, DORMANT or WATCH (R479). -/
def barClosed (s : State) : Bool := s.d3 || !powerReady s

/-- The pin die whose lane a register access crosses (R466). -/
def pinDieOf (off : Nat) : Option Nat :=
  if 0x2000000 ≤ off ∧ off < 0x2600000 ∧ 0x10000 ≤ (off - 0x2000000) % 0x20000 ∧ (off - 0x2000000) % 0x20000 < 0x14800 then
    some ((off - 0x2000000) / 0x20000 / 12)
  else if 0x1000000 ≤ off ∧ off < 0x1400000 then
    let r := off % 0x100000
    if (0x80 ≤ r ∧ r < 0x90) ∨ (0x200 ≤ r ∧ r < 0x220) then some ((off - 0x1000000) / 0x100000) else none
  else none

/-- The access crosses a failed sector lane (R479). -/
def laneBlocked (s : State) (off : Nat) : Bool :=
  match pinDieOf off with
  | some d => s.laneDown.contains d
  | none => false

/-- Registers that R450 keeps through a warm reset, or (`cxl`) through a CXL Reset: the global block but `GLB_RST_CTL` (the site
groups and pool registers not in a CXL Reset), the link, decoder, IDE and MSI-X registers, the time, fault, thermal and power
blocks, the training sets, trims, assays, the crosspoint, ball delays, `TIL_VCNT`, and what the teller reload replaces. -/
def keptReg (cxl : Bool) (off : Nat) : Bool :=
  let within := fun (x a b : Nat) => decide (a ≤ x) && decide (x < b)
  if off < 0x100000 then off != 4 && !(cxl && within off 0x4000 0x6000)
  else if off < 0x200000 then off < 0x100010 || within off 0x100020 0x100024 || decide (0x110000 ≤ off)
  else if off < 0x300000 then false
  else if off < 0x800000 then true
  else if off < 0x1000000 then [0x800004, 0x800008, 0x80002C].contains off
  else if off < 0x2000000 then
    let r := off % 0x100000
    within r 0x200 0x260 || (within r 0x80000 0x80020 && !cxl)
  else
    let o := (off - 0x2000000) % 0x20000
    if 0x10000 ≤ o then within ((o - 0x10000) % 0x400) 0x200 0x318
    else if within o 0x4000 0x4400 then decide (o % 0x100 < 8)
    else within o 0x160 0x168 || within o 0x400 0x448 || within o 0x480 0x4C0

/-- Registers a write reaches while a reset is in progress: `GLB_ACC_STAT`, the fault block, and what R450 keeps (R479). -/
def resetExempt (cxl : Bool) (off : Nat) : Bool := off == 0x20 || (decide (0x400000 ≤ off) && decide (off < 0x400800)) || keptReg cxl off

/-- Carry out a register write at BAR0 offset `off` under the conditions of R479: `k` is its effect. -/
def barWrite (s : State) (who : Option Nat) (off : Nat) (k : State → State) : State :=
  if flag s glb R.GLB_RST_STAT_BUSY && !resetExempt s.boot.cxl off then recordAccess s 3 true who off
  else if laneBlocked s off then recordAccess s 4 true who off
  else if sealed s then s
  else if who.isNone && barClosed s then s
  else k s

/-! ### Boundary writes (R10 to R12) -/

/-- Apply every pending B write of the registers at BAR0 offsets `lo` up to `hi`. -/
def applyShadow (s : State) (lo hi : Nat) : State :=
  let now := s.shadow.filter fun e => decide (lo * 32 ≤ e.1) && decide (e.1 < hi * 32)
  { s with regs := now.foldl (fun m e => mapPut m e.1 e.2) s.regs, shadow := mapDropRange s.shadow (lo * 32) (hi * 32) }

/-! ### Job ends (R279, R282, R286) -/

/-- Write streams of a job still to be issued (R273 item 6). -/
def hasOutput (s : State) (j : Nat) : Bool := s.xlt.streams.any fun x => x.job == j && x.wr

/-- `GLB_PRB_CTL.EOT` takes a value: EOT_N is driven low while it and `TOUCH` are 1 (R441). -/
def setEot (s : State) (v : Bool) : State :=
  wr (wr s glb R.GLB_PRB_CTL_EOT (b2n v)) glb R.GLB_IO_STAT_EOT_OUT (b2n (v && flag s glb R.GLB_IO_STAT_TOUCH && !sealed s))

/-- R441: with AUTO = 1 a BIN that completes with success while touched down sets EOT. -/
def autoEot (s : State) (opcode st : Nat) : State :=
  if opcode == 0x42 && st / 256 == 0 && flag s glb R.GLB_PRB_CTL_AUTO && flag s glb R.GLB_IO_STAT_TOUCH then setEot s true else s

/-- A job has ended: its completion is decided. -/
def jobEnded (x : Job) : Bool :=
  match x.phase with
  | .draining .. => true
  | .done .. => true
  | _ => false

/-- Argument word i of a job (R276). -/
def arg (x : Job) (i : Nat) : Nat := x.args.getD i 0

/-- An empty ledger: one part per sector. -/
def emptyParts : List SecLedger := [⟨[], [], [], 0⟩, ⟨[], [], [], 0⟩, ⟨[], [], [], 0⟩, ⟨[], [], [], 0⟩]

/-- A die that an ended job left waiting reads again as before it (R144). -/
def repairUnpend (s : State) (i : Nat) : State :=
  wr s (siteB i) R.GLB_SITE_STAT_REPAIR (match (getSite s i).repair with
    | some r => bits (r.2.2.getD 1 0) 0 3
    | none => 0)

/-- What a job does as it completes: a FAIL_UPLOAD that succeeds with CLEAR empties its ledger (R150, R309), an
ANALYZE_REPAIR leaves no die waiting, a BIN may set EOT. -/
def jobEffects (s : State) (j : Nat) (x : Job) (st : Nat) : State :=
  if x.opcode == 0x40 && bit x.flags 0 && st / 256 == 0 then
    putSite s (arg x 0 % 256) { getSite s (arg x 0 % 256) with parts := emptyParts }
  else if x.opcode == 0x41 then x.units.foldl repairUnpend { s with items := s.items.filter (·.1 != j) }
  else autoEot s x.opcode st

/-- The job's completion is decided and its last write is made: the completion can be written. -/
def finishJob (s : State) (j : Nat) (x : Job) (st r0 r1 r2 : Nat) : State :=
  let s1 := putJob s j { x with phase := .done st r0 r1 r2, order := s.rings.nextOrder, susp := false, units := [] }
  jobEffects (updRings s1 fun r => { r with nextOrder := r.nextOrder + 1 }) j x st

/-- The job ends with a status and results: it completes at once, or after its last write (R273 item 6). -/
def endJob (s : State) (j st r0 r1 r2 : Nat) : State :=
  match getJob? s j with
  | none => s
  | some x =>
    if jobEnded x then s
    else if hasOutput s j then putJob s j { x with phase := .draining st r0 r1 r2, susp := false }
    else finishJob s j x st r0 r1 r2

/-- The job cannot make an access: it completes with a status and results 0, even if only its last writes were left. -/
def failJob (s : State) (j st : Nat) : State :=
  match getJob? s j with
  | none => s
  | some x => match x.phase with
    | .done .. => s
    | _ => finishJob s j x st 0 0 0

/-- End the job of an optional job number. -/
def endJob? (s : State) (j : Option Nat) (st r0 r1 r2 : Nat) : State :=
  match j with
  | none => s
  | some j => endJob s j st r0 r1 r2

end Sys2Proof.Machine
end

