-- ==== Sys2Proof/Machine/TelEvents.lean ====
section
/-! DEFINITION. What the rest of the block needs of the tellers: who holds a role, and events that reach a teller (R219,
R220, R224, R232, spec/08_tellers_and_microcode.md). -/
namespace Sys2Proof.Machine

def telState (s : State) (n : Nat) : Nat := rd s (telB n) R.TIL_TEL_STAT_STATE
def telRole (s : State) (n : Nat) : Nat := rd s (telB n) R.TIL_TEL_STAT_ROLE
def telEpoch (s : State) (n : Nat) : Nat := rd s (telB n) R.TIL_TEL_EPOCH_EPOCH

/-- Every teller; those of a tile; those of a sector (R19). -/
def allTellers : List Nat := List.range 192
def tellersOfTile (t : Nat) : List Nat := (List.range 4).map fun j => 4 * t + j
def tellersOfSector (q : Nat) : List Nat := (List.range 48).map fun j => 48 * q + j

/-- The tellers among which a role for a unit is held (R21, R232): of tile t for codes 1 to 3, of the sector else. -/
def roleScope (role unit : Nat) : List Nat :=
  if 1 ≤ role && decide (role ≤ 3) then tellersOfTile unit else if role == 5 then allTellers else tellersOfSector unit

/-- The holder of a role for a unit. -/
def holderOf (s : State) (role unit : Nat) : Option Nat := (roleScope role unit).find? fun n => telRole s n == role

/-- The role a teller will hold once the assignments that wait have applied. -/
def willHold (s : State) (n : Nat) : Nat := match (getTel s n).assign.getLast? with
  | some a => a.1
  | none => telRole s n

/-- R278: a role has a holder for a unit. -/
def roleHeld (s : State) (role unit : Nat) : Bool := (roleScope role unit).any fun n => willHold s n == role

/-- The unit for which a teller holds a role: its tile or its sector. -/
def roleUnit (role n : Nat) : Nat := if 1 ≤ role && decide (role ≤ 3) then n / 4 else n / 48

/-- The entry of a role and event in a teller's image, where its V bit is set (R219). -/
def entryOf (x : Teller) (role e : Nat) : Option Nat :=
  let w := x.entries.getD (16 * role + e) 0
  if bit w 15 then some (bits w 0 12) else none

/-- The queue counts of a teller's registers. -/
def showTelQ (s : State) (n : Nat) : State :=
  let x := getTel s n
  let b := telB n
  wr (wr (wr (wr s b R.TIL_TEL_QOCC_INBOX x.inbox.length) b R.TIL_TEL_QOCC_SLOTS x.slots.length)
    b R.TIL_TEL_QOCC_REPORTS x.reports.length) b R.TIL_TEL_QOCC_OUTBOX x.outbox.length

/-- The routine in progress is left: routine-local state and loads are discarded (R224). -/
def dropRoutine (x : Teller) : Teller :=
  { x with t := [], z := false, n := false, c := false, v := false, lc := 0, stack := [], mw := none, done := [], used := false
           hold := .none, loads := [], item := none }

/-- No routine is in progress any more: `LENT` and `POSTC` fall, and the block's pending B writes take effect (R12, R241). -/
def telLeave (s : State) (n : Nat) : State :=
  applyShadow (clrF (clrF s (telB n) R.TIL_TEL_STAT_LENT) (telB n) R.TIL_TEL_STAT_POSTC) (telB n) (telB n + 0x100)

/-- A routine in progress before COMMIT. -/
def beforeCommit (s : State) (n : Nat) : Bool := telState s n == 3 && !flag s (telB n) R.TIL_TEL_STAT_POSTC

/-- R224: a routine before COMMIT is abandoned; its event stays pending, an analysis item returns to the queue's head. -/
def telAbandon (s : State) (n : Nat) : State :=
  let x := getTel s n
  let s1 := { putTel s n (dropRoutine x) with items := x.item.toList ++ s.items }
  incF (telLeave (wr s1 (telB n) R.TIL_TEL_STAT_STATE 2) n) (telB n) R.TIL_TEL_RESTART_RESTART

/-- An interrupt, or an event of the held role while the teller is lent, reaches the running routine: before COMMIT the
routine is abandoned, after it the arrival waits for END (R221, R224, R225). -/
def telInterrupt (s : State) (n e : Nat) : State :=
  if beforeCommit s n && (decide (e ≤ 1) || flag s (telB n) R.TIL_TEL_STAT_LENT) then
    telAbandon s n
  else s

/-- An event becomes pending for a teller; without a valid entry it is discarded and counted (R219). -/
def raiseTel (s : State) (n e : Nat) : State :=
  let x := getTel s n
  match entryOf x (telRole s n) e with
  | none => incF s (telB n) R.TIL_TEL_NOENT_NOENT
  | some _ => telInterrupt (putTel s n { x with pend := if x.pend.contains e then x.pend else x.pend ++ [e] }) n e

/-- An event of a role for a unit: it reaches the holder, or waits for one (R384). -/
def raiseRole (s : State) (role unit e : Nat) : State :=
  match holderOf s role unit with
  | some n => raiseTel s n e
  | none =>
    let key := role * 256 + unit
    let l := mapGet s.roleEvts key []
    { s with roleEvts := mapPut s.roleEvts key (if l.contains e then l else l ++ [e]) }

/-- `TIL_SEQ_STAT.STATE` of a tile takes a value; a change is a VEC event of its SEQUENCER. -/
def setSeqState (s : State) (t v : Nat) : State :=
  let s1 := wr s (tileB t) R.TIL_SEQ_STAT_STATE v
  if rd s (tileB t) R.TIL_SEQ_STAT_STATE == v then s1 else raiseRole s1 1 t 3

/-- `DIG_STAT.STATE` of a sector takes a value; a change is a DIG event of its ACQUIRER. -/
def setDigState (s : State) (q v : Nat) : State :=
  let s1 := wr s (secB q) R.DIG_STAT_STATE v
  if rd s (secB q) R.DIG_STAT_STATE == v then s1 else raiseRole s1 4 q 6

end Sys2Proof.Machine
end

