-- ==== Sys2Proof/Machine/Memory.lean ====
section
/-! DEFINITION. Host memory and device memory byte by byte, the HDM range (R251 to R255, R313), where an address of a job
leads (R288, R289), and a job's reads and writes of memory. -/
namespace Sys2Proof.Machine

/-! ### Bytes -/

/-- What an unlisted byte reads as (assumption 4): 0. -/
def unlistedByte : Byte := 0

/-- One byte of a memory. -/
def memByte : List Host.Cell → Nat → Byte
  | [], _ => unlistedByte
  | (k, v) :: rest, a => if k = a then v else memByte rest a

/-- Store one byte: addresses stay rising, and a byte equal to what an unlisted one reads as is not listed. -/
def memPut : List Host.Cell → Nat → Byte → List Host.Cell
  | [], a, v => if v = unlistedByte then [] else [(a, v)]
  | (k, w) :: rest, a, v =>
    if a < k then if v = unlistedByte then (k, w) :: rest else (a, v) :: (k, w) :: rest
    else if a = k then if v = unlistedByte then rest else (a, v) :: rest
    else (k, w) :: memPut rest a v

/-- Store bytes from an address up. -/
def memPuts (m : List Host.Cell) (a : Nat) : List Nat → List Host.Cell
  | [] => m
  | b :: rest => memPuts (memPut m a (BitVec.ofNat 8 b)) (a + 1) rest

/-- `n` bytes from an address up. -/
def memBytes (m : List Host.Cell) (a n : Nat) : List Nat := (List.range n).map fun i => (memByte m (a + i)).toNat

def rising (lo : Nat) : List Host.Cell → Bool
  | [] => true
  | (k, v) :: rest => decide (lo ≤ k) && v != unlistedByte && rising (k + 1) rest

/-- The canonical form of a memory: addresses strictly rising, no entry equal to what an unlisted byte reads as. -/
def Memory.wf (m : List Host.Cell) : Bool := rising 0 m

/-- Store bytes in host memory at a host physical address. -/
def hostStore (s : State) (a : Nat) (l : List Nat) : State := { s with hostMem := memPuts s.hostMem a l }

/-- Store bytes in device memory at a device-memory offset (R313); full lines stored whole lose an uncorrectable mark. -/
def devStore (s : State) (d : Nat) (l : List Nat) : State :=
  { s with devMem := memPuts s.devMem d l
           badLines := s.badLines.filter fun x => !(decide (d ≤ x * 64) && decide (x * 64 + 64 ≤ d + l.length)) }

def devBytes (s : State) (d n : Nat) : List Nat := memBytes s.devMem d n
def hostBytes (s : State) (a n : Nat) : List Nat := memBytes s.hostMem a n

/-- Size of a sector's HDM range and of a sector home (R252, R313). -/
def hdmPerSector : Nat := 0x164000000
def homeSize : Nat := 0x174000000
def hdmSize : Nat := 0x590000000

/-- Base of sector s's carve-out (R315). -/
def carveB (s : Nat) : Nat := s * homeSize + hdmPerSector

/-- Device-memory offset of an HDM offset (R313). -/
def hdmToDev (o : Nat) : Nat := o + o / hdmPerSector * 0x10000000

/-- The HDM decoder is committed (R251). -/
def committed (s : State) : Bool := flag s glb R.HAT_HDM_STAT_COMMITTED

/-- The committed base. -/
def hdmBase (s : State) : Nat := rd64 s glb R.HAT_HDM_BASE_LO_BASE R.HAT_HDM_BASE_HI_BASE

/-- A host physical address inside the decoder range as programmed (R289). -/
def inHdm (s : State) (a : Nat) : Bool :=
  match s.hdmProg with
  | none => false
  | some b => decide (b ≤ a) && decide (a < b + hdmSize)

/-- The HDM offset of a host physical address in the range. -/
def hdmOffset (s : State) (a : Nat) : Nat := a - s.hdmProg.getD 0

/-- Base and bytes of a sector's ledger pool (R155) and acquisition pool (R187), as host physical addresses. -/
def lgrPool (s : State) (q : Nat) : Nat × Nat :=
  (rd64 s (secB q) R.SEC_LGR_BASE_LO_BASE R.SEC_LGR_BASE_HI_BASE, rd s (secB q) R.SEC_LGR_SIZE_SIZE * 4096)
def acqPool (s : State) (q : Nat) : Nat × Nat :=
  (rd64 s (secB q) R.SEC_ACQ_BASE_LO_BASE R.SEC_ACQ_BASE_HI_BASE, rd s (secB q) R.SEC_ACQ_SIZE_SIZE * 4096)

/-- An address lies in a device-held range: a pool (R255). -/
def heldAt (s : State) (a : Nat) : Bool :=
  (List.range 4).any fun q =>
    (decide ((lgrPool s q).1 ≤ a) && decide (a < (lgrPool s q).1 + (lgrPool s q).2)) ||
    (decide ((acqPool s q).1 ≤ a) && decide (a < (acqPool s q).1 + (acqPool s q).2))

/-- The line of a device-memory offset holds an uncorrectable error (R256, R329). -/
def badAt (s : State) (d : Nat) : Bool := s.badLines.contains (d / 64)

/-! ### Placement (R312 to R314) -/

/-- Pseudo-channel 2 h + pc of a line: home s, p = h[10:8] of the home offset, channel 4 s + p div 2. -/
def pcOf (line : Nat) : Nat := 8 * (line * 64 / homeSize) + line * 64 % homeSize / 256 % 8

/-- The sector whose home holds a pseudo-channel; the channel of a pseudo-channel. -/
def sectorOfPc (x : Nat) : Nat := x / 8
def channelOf (x : Nat) : Nat := x / 2

/-- Banks per pseudo-channel (R324). -/
def nbanks : Nat := Config.banks % 64 + 1

/-- The row and the bank of a line. -/
def rowOf (line : Nat) : Nat := Config.rowOf line
def bankOf (line : Nat) : Nat := Config.bankHash (rowOf line) % nbanks

/-! ### Uncorrectable lines (R256, R329) -/

/-- A row of pseudo-channel x is due for repair. -/
def rowDue (s : State) (x row : Nat) : State :=
  if s.hbm.due.contains (x, row) || s.hbm.repairing.contains (x, row) then s
  else setF (updHbm s fun h => { h with due := h.due ++ [(x, row)] }) glb R.MEM_STAT_RPEND

/-- An uncorrectable line is counted, its address latched, its row due for repair; `rt`: a real-time master of its home read it, and
the second class of R408 holds. -/
def eccUncorrectable (s : State) (line : Nat) (rt : Bool) : State :=
  let s1 := incF { s with badLines := line :: s.badLines.filter (· != line) } glb R.MEM_UE_UE
  let s2 := setF (wr64 s1 glb R.MEM_UE_ADDR_LO_ADDR R.MEM_UE_ADDR_HI_ADDR (line * 64)) glb R.MEM_UE_ADDR_HI_VALID
  signal (rowDue s2 (pcOf line) (rowOf line)) 0x15 (channelOf (pcOf line)) (if rt then 2 ^ 16 else 0)

/-! ### Where an address leads (R288, R289) -/

inductive Where
  | host (pa : Nat)
  | dev (d : Nat)
  | miss
  | fail (st : Nat)
deriving DecidableEq, Repr

/-- R289: a resolved address against the HDM decoder range. -/
def classify (s : State) (pa : Nat) : Where :=
  if inHdm s pa then
    if committed s && s.memEn then
      if heldAt s pa then .fail 0x0205 else .dev (hdmToDev (hdmOffset s pa))
    else .fail 0x0204
  else .host pa

/-- The cache entry that serves an access (R290). -/
def atcFind (s : State) (pv : Bool) (pasid va : Nat) (wr : Bool) : Option AtcEntry :=
  s.xlt.atc.find? fun e => e.pv == pv && (!pv || e.pasid == pasid) && decide (e.va ≤ va) && decide (va < e.va + 2 ^ e.size) &&
    (if wr then e.w else e.r)

/-- R288, R289: where virtual address `va` leads under PV and PASID. -/
def resolve (s : State) (pv : Bool) (pasid va : Nat) (wr : Bool) : Where :=
  if flag s glb R.XLT_STAT_ATS_EN then
    match atcFind s pv pasid va wr with
    | some e => classify s (e.pa + (va - e.va))
    | none => .miss
  else if pv then .fail 0x0200
  else classify s va

/-- A request for this page and access. -/
def reqFor (pv : Bool) (pasid page : Nat) (isWr : Bool) (x : XltReq) : Bool :=
  x.pv == pv && (!pv || x.pasid == pasid) && x.va == page && x.wr == isWr

/-- The group that waits for this page and access. -/
def groupFor (pv : Bool) (pasid page : Nat) (isWr : Bool) (g : PrgGroup) : Bool :=
  g.pv == pv && (!pv || g.pasid == pasid) && g.va == page && g.wr == isWr && !g.dead

/-- Ask for a translation, once for its page and access (R290). -/
def askXlt (s : State) (pv : Bool) (pasid va : Nat) (isWr : Bool) (who : Nat) : State :=
  let page := va / 4096 * 4096
  if s.xlt.groups.any (fun g => groupFor pv pasid page isWr g && g.who.contains who) then s
  else if s.xlt.reqs.any (reqFor pv pasid page isWr) then
    { s with xlt := { s.xlt with reqs := s.xlt.reqs.map (fun x =>
        if reqFor pv pasid page isWr x && !x.who.contains who then { x with who := x.who ++ [who] } else x) } }
  else incF { s with xlt := { s.xlt with reqs := s.xlt.reqs ++ [⟨pv, pasid, page, isWr, [who], false, false⟩] } }
    glb R.XLT_MISS_MISS

/-- PV and PASID of a job's ring (R288). -/
def jobPv (s : State) (x : Job) : Bool := flag s (sqB x.sq) R.HAT_SQ_CFG_PV
def jobPasid (s : State) (x : Job) : Nat := rd s (sqB x.sq) R.HAT_SQ_PASID_PASID

def resolveJob (s : State) (x : Job) (va : Nat) (wr : Bool) : Where := resolve s (jobPv s x) (jobPasid s x) va wr

/-- Real-time contexts are 56 to 63 (R295). -/
def isRt (k : Nat) : Bool := decide (56 ≤ k)

/-- The end of the pin window of a context that holds an address. -/
def pinEnd (s : State) (k va : Nat) : Option Nat :=
  (List.range 4).findSome? fun w =>
    let b := rdi s (ctxB k) R.XLT_PIN_BASE_LO_BASE w + rdi s (ctxB k) R.XLT_PIN_BASE_HI_BASE w * 2 ^ 32
    let n := rdi s (ctxB k) R.XLT_PIN_SIZE_SIZE w * 4096
    if b ≤ va && decide (va < b + n) then some (b + n) else none

/-- A range lies wholly inside a context's pin windows (R296, R297), each taken at most once. -/
def inPinWindows (s : State) (k : Nat) : Nat → Nat → Nat → Bool
  | 0, _, _ => false
  | fuel + 1, va, len =>
    match pinEnd s k va with
    | none => false
    | some e => if va + len ≤ e then true else inPinWindows s k fuel e (va + len - e)

/-- The host ranges, with their lengths, that a job's arguments name: its list or table, and the buffers whose bytes they give. -/
def jobRanges (x : Job) : List (Nat × Nat) :=
  let a := arg x
  let l := match x.opcode with
    | 0x01 => [(a 0, bits (a 1) 0 32)]
    | 0x02 => [(a 0, 2 * bits (a 1) 0 8)]
    | 0x10 => [(a 0, 16 * (bits (a 1) 0 6 + 1))]
    | 0x20 | 0x21 => [(a 0, 96)]
    | 0x30 => [(a 2, 8 * bits (a 0) 48 13)]
    | 0x31 => [(a 2, a 3)]
    | 0x41 => [(a 0, 32), (a 2, a 3), (a 4, a 5)]
    | 0x42 => [(a 0, 32), (a 2, 256)]
    | 0x50 => [(a 2, a 3)]
    | 0x61 => [(a 3, a 4)]
    | _ => []
  l.filter fun r => r.1 != 0 && r.2 != 0

/-- A range of a job is host memory as far as its first byte shows. -/
def isHostRange (s : State) (x : Job) (va : Nat) : Bool :=
  match resolveJob s x va false with
  | .dev _ => false
  | _ => true

/-- R296: the context check of a job's host range, and of the ranges its arguments name; the status of the first failing row. -/
def ctxCheck (s : State) (x : Job) (va len : Nat) : Option Nat :=
  if !flag s (ctxB x.ctx) R.XLT_CTX_CFG_EN then some 0x0206
  else if isRt x.ctx then
    if flag s (ctxB x.ctx) R.XLT_CTX_CFG_PV != jobPv s x ||
        (jobPv s x && rd s (ctxB x.ctx) R.XLT_CTX_PASID_PASID != jobPasid s x) then some 0x0203
    else if !flag s (ctxB x.ctx) R.XLT_CTX_STAT_PINNED ||
        ((va, len) :: (jobRanges x).filter fun r => isHostRange s x r.1).any (fun r => !inPinWindows s x.ctx 4 r.1 r.2) then some 0x0203
    else none
  else none

/-- The link carries transfers: up, in D0, in READY. In SEALED it still takes the completions of jobs in flight (R416). -/
def linkOpen (s : State) : Bool := flag s glb R.HAT_LINK_STAT_UP && !s.d3 && powerReady s

/-! ### A job's bytes -/

/-- The byte a job has fetched from host memory at `va`, if it has. -/
def bufByte : List (Nat × List Nat) → Nat → Option Nat
  | [], _ => none
  | (b, l) :: rest, a => if b ≤ a ∧ a < b + l.length then l[a - b]? else bufByte rest a

inductive Bytes
  | ok (l : List Nat)
  | wait
  | fail (st : Nat)
deriving DecidableEq, Repr

/-- One byte as a job sees it: what it has read from device memory (R317) or fetched from host memory, by which its page has
passed the checks of R289. -/
def jobByte (s : State) (x : Job) (va : Nat) : Bytes :=
  match bufByte x.buf va, resolveJob s x va false with
  | some b, _ => .ok [b]
  | none, .fail st => .fail st
  | none, _ => .wait

/-- `len` bytes as a job sees them; the first failing byte decides. -/
def jobBytes (s : State) (x : Job) (va : Nat) : Nat → Bytes
  | 0 => .ok []
  | n + 1 =>
    match jobByte s x va, jobBytes s x (va + 1) n with
    | .fail st, _ => .fail st
    | .wait, _ => .wait
    | .ok _, .fail st => .fail st
    | .ok _, .wait => .wait
    | .ok b, .ok l => .ok (b ++ l)

/-- R309: the record of a job that ended with a translation status: its status, tag, ring, PASID and access, the page address and
the checkpoint. -/
def xltRecord (s : State) (x : Job) (pv : Bool) (pasid st va done : Nat) (isWr : Bool) : State :=
  let s1 := wr (wr (wr s glb R.XLT_FLT_STAT_STATUS st) glb R.XLT_FLT_STAT_VALID 1) glb R.XLT_FLT_TAG_TAG x.tag
  let s2 := wr (wr (wr (wr s1 glb R.XLT_FLT_INFO_PASID pasid) glb R.XLT_FLT_INFO_PV (b2n pv))
    glb R.XLT_FLT_INFO_WR (b2n isWr)) glb R.XLT_FLT_INFO_SQ x.sq
  let s3 := wr64 s2 glb R.XLT_FLT_ADDR_LO_ADDR R.XLT_FLT_ADDR_HI_ADDR (va / 4096 * 4096)
  wr s3 glb R.XLT_FLT_DONE_DONE (min done 0xFFFFFFFF)

/-- A job ends with the status of an access, results 0; a translation status is recorded. -/
def endXlt (s : State) (j st va done : Nat) (isWr : Bool) : State :=
  match getJob? s j with
  | none => s
  | some x =>
    let s1 := if st / 256 == 2 then xltRecord s x (jobPv s x) (jobPasid s x) st va done isWr else s
    failJob { s1 with xlt := { s1.xlt with streams := s1.xlt.streams.filter (·.job != j) } } j st

/-- Add a transfer stream (R299). -/
def addStream (s : State) (x : Stream) : State := { s with xlt := { s.xlt with streams := s.xlt.streams ++ [x] } }

/-- Ask for the back-invalidate snoop of a device line held by the host (R254). -/
def askBi (s : State) (line : Nat) : State :=
  if s.biAsked.contains line || s.biSent.contains line then s else { s with biAsked := s.biAsked ++ [line] }

/-- The lines of a job's range that the snoop filter shows held by the host. -/
def heldLines (s : State) (x : Job) (va len : Nat) : List Nat :=
  (List.range len).filterMap fun i =>
    match resolveJob s x (va + i) false with
    | .dev d => if s.sf.contains (d / 64) then some (d / 64) else none
    | _ => none

/-- Put a request at the scheduler of the line's pseudo-channel (R317). -/
def memAsk (s : State) (rank kind who line : Nat) (isWr : Bool) (va : Nat) : State :=
  updHbm s fun x => { x with reqs := x.reqs ++ [⟨rank, kind, who, line, isWr, va⟩] }

/-- A write of `len` bytes at device-memory offset d: one request per line. -/
def memAskWrite (s : State) (rank kind who d len : Nat) : State :=
  (List.range ((d + len + 63) / 64 - d / 64)).foldl (fun s i => memAsk s rank kind who (d / 64 + i) true 0) s

/-- The request for the device line of one byte that a job has not read yet. -/
def devAsk1 (s : State) (j : Nat) (x : Job) (va : Nat) : State :=
  match resolveJob s x va false with
  | .dev d =>
    if (bufByte x.buf va).isSome || s.hbm.reqs.any fun r => r.kind == 5 && r.who == j && r.line == d / 64 && !r.wr then s
    else memAsk s 4 5 j (d / 64) false (va - d % 64)
  | _ => s

/-- A byte of the range comes from host memory and is not at hand. -/
def hostNeeded (s : State) (x : Job) (va len : Nat) : Bool :=
  (List.range len).any fun i => match resolveJob s x (va + i) false with
    | .dev _ => false
    | _ => (bufByte x.buf (va + i)).isNone

/-- Some byte of a job's range is known to lie in host memory: its context is checked before the transfer begins; else before the
first granule that turns out to be one of host memory. -/
def knownHost (s : State) (x : Job) (va len : Nat) : Bool :=
  (List.range len).any fun i => match resolveJob s x (va + i) false with
    | .host _ => true
    | _ => false

/-- Begin fetching bytes for a job: snoops are asked for, device lines requested; for host memory its context is checked
(R296), and a read stream is set up. -/
def fetchBytes (s : State) (j : Nat) (x : Job) (va len : Nat) : State :=
  let held := heldLines s x va len
  if held != [] then held.foldl askBi s
  else
    let s1 := (List.range len).foldl (fun s i => devAsk1 s j x (va + i)) s
    if !hostNeeded s x va len then s1
    else match (if knownHost s x va len then ctxCheck s x va len else none) with
      | some st => endXlt s j st va 0 false
      | none =>
        if s.xlt.streams.any (fun y => y.job == j && !y.wr) || s.xlt.reads.any (fun y => y.job == j) then s1
        else addStream s1 ⟨j, x.ctx, false, va, [], len, 0, false, knownHost s x va len, none⟩

/-- Go on with a job's bytes at hand: `k` gets them; otherwise they are fetched and the job's command acts again once
they have come, or the job ends with the status of the access. -/
def needBytes (s : State) (j va len : Nat) (k : List Nat → State) : State :=
  match getJob? s j with
  | none => s
  | some x =>
    match jobBytes s x va len with
    | .ok l => k l
    | .fail st => endXlt s j st va 0 false
    | .wait => fetchBytes s j x va len

/-- The whole range lies in device memory, in lines not held by the host. -/
def allDev (s : State) (x : Job) (va len : Nat) : Option Nat :=
  match resolveJob s x va true with
  | .dev d => if (List.range len).all (fun i => resolveJob s x (va + i) true == .dev (d + i) && !s.sf.contains ((d + i) / 64))
    then some d else none
  | _ => none

/-- A job writes bytes: device memory at once, host memory through a write stream (R289, R299). Answers the failing
status of the context check instead where it fails (R296). -/
def jobWrite (s : State) (j : Nat) (va : Nat) (l : List Nat) : Except Nat State :=
  match getJob? s j with
  | none => .ok s
  | some x =>
    if l.isEmpty then .ok s
    else match allDev s x va l.length with
      | some d => .ok (memAskWrite (devStore s d l) 4 5 j d l.length)
      | none =>
        match (if knownHost s x va l.length then ctxCheck s x va l.length else none) with
        | some st => .error st
        | none => .ok (addStream s ⟨j, x.ctx, true, va, l, l.length, 0, false, knownHost s x va l.length, none⟩)

/-- Write a job's output, then end it with a status and results. -/
def writeAndEnd (s : State) (j va : Nat) (l : List Nat) (st r0 r1 r2 : Nat) : State :=
  match jobWrite s j va l with
  | .ok s1 => endJob s1 j st r0 r1 r2
  | .error e => endXlt s j e va 0 true

/-! ### Starting a job at its owner (R273) -/

/-- The units whose owners a job queues at (R273 item 2, R283): a tile's SEQUENCER t, a tile's SERVO 100 + t, a sector's
ACQUIRER 200 + q, a site 300 + i, the Warden 600, the time base 601, the fault collector 602, the COURIER of a sector 700 + q. A mask in memory counts once it can be read. -/
def ownersOf (s : State) (x : Job) : List Nat :=
  let tiles := fun (m : Nat) => maskBits 48 m
  let mask := fun (n : Nat) => match jobBytes s x (arg x 0) n with
    | .ok l => leNat l
    | _ => 0
  match x.opcode with
  | 0x01 | 0x02 => [600]
  | 0x10 => match jobBytes s x (arg x 0) (16 * (bits (arg x 1) 0 6 + 1)) with
    | .ok l => (List.range (bits (arg x 1) 0 6 + 1)).map fun i => l.getD (16 * i + 12) 0 % 64
    | _ => []
  | 0x11 | 0x12 => tiles (arg x 0)
  | 0x20 | 0x21 => (tiles (2 ^ 48 - 1)).filterMap fun t => if bits (mask 96) (16 * t) 16 != 0 then some (100 + t) else none
  | 0x30 | 0x31 => [200 + arg x 0 % 4]
  | 0x40 => (300 + arg x 0 % 256) :: ((maskBits 4 (bits (arg x 0) 8 4)).head?.map (700 + ·)).toList
  | 0x41 | 0x42 => (maskBits 256 (mask 32)).map (300 + ·)
  | 0x50 => (tiles (arg x 1)).map (100 + ·) ++ (maskBits 4 (arg x 1 / 2 ^ 48)).map (200 + ·)
  | 0x51 => [100 + arg x 0 % 64]
  | 0x60 | 0x61 => [601]
  | 0x70 => [602]
  | _ => []

/-- An owner that is a site: its jobs start in dispatch order (R151). -/
def siteOwner (o : Nat) : Bool := decide (300 ≤ o) && decide (o < 600)

/-- A job that waits to start, other than job j. -/
def waitsBeside (j : Nat) (e : Nat × Job) : Bool := e.1 != j && e.2.phase == .dispatched

/-- R151: a job of one of the sites of job x, dispatched before it, still waits to start. -/
def siteBehind (s : State) (j : Nat) (x : Job) : Bool :=
  let mine := (ownersOf s x).filter siteOwner
  s.rings.jobs.any fun e => waitsBeside j e && decide (e.2.order < x.order) && (ownersOf s e.2).any mine.contains

/-- R273 item 2, R307: no job that waits to start at an owner of job x stands before it: class order, then dispatch
order; dispatch order alone for the jobs on a site (R151), and a job that this holds back holds no other back. A suspended job at
the Warden is passed from other SQs. -/
def mayStart (s : State) (j : Nat) (x : Job) : Bool :=
  let mine := (ownersOf s x).filter fun o => !siteOwner o
  !siteBehind s j x && !s.rings.jobs.any fun e =>
    let y := e.2
    waitsBeside j e && (decide (x.pri < y.pri) || (y.pri == x.pri && decide (y.order < x.order))) &&
    !(y.susp && y.sq != x.sq && mine == [600]) && (ownersOf s y).any mine.contains && !siteBehind s e.1 y

/-- R401: a RUN_PATTERN naming a tile of an ENFORCED sector, an ARM_ACQ of it and a CALIBRATE naming a unit of it wait. -/
def thermalWait (s : State) (x : Job) : Bool :=
  match x.opcode with
  | 0x11 => (maskBits 48 (arg x 0)).any fun t => sectorEnforced s (sectorOf t)
  | 0x30 => sectorEnforced s (arg x 0 % 4)
  | 0x50 => ((maskBits 48 (arg x 1)).any fun t => sectorEnforced s (sectorOf t)) ||
      (maskBits 4 (arg x 1 / 2 ^ 48)).any fun q => sectorEnforced s q
  | _ => false

/-- The ANALYST pool holds a teller: a holder, or a lender (R221). -/
def analystPool (s : State) : Bool :=
  allTellers.any fun n => willHold s n == 5 ||
    (flag s (telB n) R.TIL_TEL_CFG_LEND && bit (getTel s n).roles 5 && (telState s n == 2 || telState s n == 3))

/-- The list in memory whose units a job's role check needs: address and bytes. -/
def ownerList (x : Job) : Option (Nat × Nat) :=
  if x.opcode == 0x10 then some (arg x 0, 16 * (bits (arg x 1) 0 6 + 1))
  else if x.opcode == 0x20 || x.opcode == 0x21 then some (arg x 0, 96)
  else none

/-- R278, row 2: every role that owns the job (R283) has a holder; `l` is the list of `ownerList`. -/
def rolesHeld (s : State) (x : Job) (l : List Nat) : Bool :=
  let tiles := fun (r m : Nat) => (maskBits 48 m).all fun t => roleHeld s r t
  match x.opcode with
  | 0x10 => (List.range (bits (arg x 1) 0 6 + 1)).all fun i => decide (48 ≤ l.getD (16 * i + 12) 48 % 64) || roleHeld s 1 (l.getD (16 * i + 12) 48 % 64)
  | 0x11 | 0x12 => tiles 1 (arg x 0)
  | 0x20 | 0x21 => allTiles.all fun t => bits (leNat l) (16 * t) 16 == 0 || roleHeld s 3 t
  | 0x30 | 0x31 => roleHeld s 4 (arg x 0 % 4)
  | 0x40 => match maskBits 4 (bits (arg x 0) 8 4) with
    | q :: _ => roleHeld s 6 q
    | [] => true
  | 0x41 | 0x42 => analystPool s
  | 0x50 => tiles 3 (arg x 1) && (maskBits 4 (arg x 1 / 2 ^ 48)).all fun q => roleHeld s 4 q
  | 0x51 => decide (48 ≤ arg x 0 % 64) || roleHeld s 3 (arg x 0 % 64)
  | _ => true

/-- R278, rows 1 to 5: the status of the check that fails first. -/
def dispatchCheck (s : State) (x : Job) (l : List Nat) : Option Nat :=
  let is := fun (ops : List Nat) => ops.contains x.opcode
  if is [0x11, 0x12, 0x20, 0x21, 0x50, 0x51, 0x30] && !flag s glb R.GLB_ST_STAT_READY then some 0x03B0
  else if !rolesHeld s x l then some 0x0341
  else if is [0x11, 0x20, 0x21, 0x50, 0x51] && fatalLatched s then some 0x0700
  else if is [0x11, 0x20, 0x21] && !flag s glb R.GLB_IO_STAT_CARD then some 0x03A0
  else if is [0x11] && flag s glb R.GLB_PRB_CTL_REQTOUCH && !flag s glb R.GLB_IO_STAT_TOUCH then some 0x03A1
  else none

/-- A dispatched job that R401 has deferred, marked by its units, meets the checks of R278 as it leaves the deferral. -/
def afterDeferral (s : State) (j : Nat) (x : Job) (k : State → State) : State :=
  if x.phase == .dispatched && x.units == [1] then
    match dispatchCheck s x [] with
    | some st => endJob s j st 0 0 0
    | none => k (putJob s j { x with units := [] })
  else k s

/-- Mark the dispatched jobs that R401 defers. -/
def markDeferred (s : State) : State :=
  (s.rings.jobs.filter fun e => e.2.phase == .dispatched && thermalWait s e.2).foldl
    (fun s e => putJob s e.1 { e.2 with units := [1] }) s

/-- The job is at the head of its owners' queues or has started, has the opcode, is not suspended and need not wait. -/
def jobReady (s : State) (j op : Nat) : Option Job :=
  match getJob? s j with
  | some x => if x.opcode == op && !x.susp && (x.phase == .running || (x.phase == .dispatched && mayStart s j x && !thermalWait s x)) then some x else none
  | none => none

/-- Mark a job as started. -/
def startJob (s : State) (j : Nat) : State :=
  match getJob? s j with
  | some x => putJob s j { x with phase := .running }
  | none => s

/-- Set a job's remaining units, tallies and scratch record. -/
def setWork (s : State) (j : Nat) (units tally rec_ : List Nat) : State :=
  match getJob? s j with
  | some x => putJob s j { x with phase := .running, units := units, tally := tally, rec_ := rec_ }
  | none => s

end Sys2Proof.Machine
end

