-- ==== Sys2Proof/Machine/Channel.lean ====
section
/-! DEFINITION. Pin channels (R32 to R62): safe state, comparator, level banks, PMU, contact check, and the jobs
PARAMETRIC and CONTACT_CHECK (R285). -/
namespace Sys2Proof.Machine

/-! ### Slice basics -/

/-- `TIL_SEQ_STAT.STATE` of a tile (R90): 0 IDLE, 1 LOADED, 2 ARMED, 3 RUN, 4 HOLD. -/
def seqState (s : State) (t : Nat) : Nat := rd s (tileB t) R.TIL_SEQ_STAT_STATE

/-- For the rules of Pin Channels a tile is in RUN while STATE is RUN or HOLD (R90). -/
def tileInRun (s : State) (t : Nat) : Bool := seqState s t == 3 || seqState s t == 4

/-- The tile is in RUN: its frets, TDC control and fail unit run (R77, R154, R481). -/
def tileRuns (s : State) (t : Nat) : Bool := seqState s t == 3

/-- ARMED, RUN or HOLD. -/
def tileLive (s : State) (t : Nat) : Bool := seqState s t == 2 || tileInRun s t

/-- The slice block runs for R10 (R32). -/
def sliceRuns (s : State) (t p : Nat) : Bool :=
  (flag s (sliceB t p) R.CHN_CTL_EN && tileInRun s t) || flag s (sliceB t p) R.CHN_PMU_STAT_BUSY

/-- Cause bits of the safe state (R58). -/
def scFields : List Field :=
  [R.CHN_STAT_SC_RST, R.CHN_STAT_SC_CARD, R.CHN_STAT_SC_DEV, R.CHN_STAT_SC_CRIT, R.CHN_STAT_SC_DEP, R.CHN_STAT_SC_OVC,
   R.CHN_STAT_SC_SW]

/-- Some cause bit is set. -/
def anyCause (s : State) (t p : Nat) : Bool := scFields.any fun f => flag s (sliceB t p) f

/-- The slice is in the safe state. -/
def isSafe (s : State) (t p : Nat) : Bool := flag s (sliceB t p) R.CHN_STAT_SAFE

/-- The slice's ball is not the slice's to drive: the safe state, or the pin die's analog lock-out (R435). -/
def ballHeld (s : State) (t p : Nat) : Bool := isSafe s t p || s.lockout.contains (sectorOf t)

/-- A tapped ball is in the safe state. -/
def tapSafe (s : State) (q : Nat) : Bool :=
  (List.range 4).any fun l =>
    let c := 192 * q + rdi s (secB q) R.SEC_TAP_CHAN l
    rdi s (secB q) R.SEC_TAP_EN l == 1 && ballHeld s (c / 16) (sliceOf s (c / 16) (c % 16))

/-- Note that a tapped ball of the sector is in the safe state up to now (R174). -/
def tapNote (s : State) (q : Nat) : State := if tapSafe s q then updDig s q fun d => { d with safeTo := some s.now } else s

/-- Change a slice's unregistered state. -/
def updSlice (s : State) (t p : Nat) (f : Slice → Slice) : State := putSlice s t p (f (getSlice s t p))

/-- When the slice is not in a pattern, the end of a PMU operation is its boundary (R12, R32). -/
def sliceBoundary (s : State) (t p : Nat) : State :=
  if flag s (sliceB t p) R.CHN_CTL_EN && tileInRun s t then s
  else applyShadow s (sliceB t p) (sliceB t p + 0x400)

/-! ### TDC windows: their end (R79 to R81, R85 to R87) -/

/-- Change a tile's unregistered state. -/
def updTile (s : State) (t : Nat) (f : Tile → Tile) : State := putTile s t (f (getTile s t))

/-- Key of a core of a position. -/
def tdcKey (k core : Nat) : Nat := k * 2 + core

/-- R79: the window's vector is not measured: the core's last window closed after this one opens, or opened less than
2.5 ns before. -/
def tdcBusy (x : Tile) (key : Nat) (w : TdcWin) : Bool :=
  match mapGet? x.tdcLast key with
  | none => false
  | some (o, c) => decide (w.openAt < c) || decide (w.openAt < o + 1280)

/-- R85: the judgement of a window. -/
def tdcLimFail (w : TdcWin) (busy : Bool) : Bool :=
  match w.limits, w.stops with
  | none, _ => false
  | some _, [] => true
  | some (lo, hi), r :: _ => busy || decide (r < lo) || decide (hi < r)

/-- R87: the 16-byte record. -/
def tdcRecord (t k core : Nat) (w : TdcWin) (busy lim : Bool) : List Nat :=
  let stop := fun i => w.stops.getD i 0xFFFF % 2 ^ 16
  leBytes 8 (w.vec % 2 ^ 40 + (t * 16 + k) * 2 ^ 40 + w.fret * 2 ^ 50 + w.stops.length * 2 ^ 54 + core * 2 ^ 57 +
    b2n busy * 2 ^ 58 + b2n w.lost * 2 ^ 59 + b2n w.xseen * 2 ^ 60 + b2n lim * 2 ^ 61) ++
  leBytes 8 (stop 0 + stop 1 * 2 ^ 16 + stop 2 * 2 ^ 32 + stop 3 * 2 ^ 48)

/-- R86: a record enters the tile's queue of 1,024, or is dropped. -/
def tdcQueue (s : State) (t : Nat) (r : List Nat) : State :=
  let x := getTile s t
  if x.tdcQ.length < 1024 then putTile s t { x with tdcQ := x.tdcQ ++ [r] }
  else signal (setF (incF s (tileB t) R.TIL_TDC_DROP_DROP) (tileB t) R.TIL_TDC_STAT_OVF) 0x0A t 0

/-- A window closes (R80, R81, R85, R86). -/
def tdcClose (s : State) (t k core : Nat) : State :=
  let b := tileB t
  let x := getTile s t
  let key := tdcKey k core
  match mapGet x.tdcWin key [] with
  | [] => s
  | w :: rest =>
    let busy := tdcBusy x key w
    let lim := tdcLimFail w busy
    let aw := x.await.map fun a => if a.vec == w.vec then
      { a with measuring := a.measuring.filter (· != k), forced := if lim && a.judge.any (·.1 == k) then a.forced ++ [k] else a.forced } else a
    let x1 := { x with tdcWin := mapPut x.tdcWin key rest, await := aw,
                       tdcLast := if busy then x.tdcLast else mapPut x.tdcLast key (w.openAt, w.closeAt) }
    let s1 := putTile s t x1
    let s2 := if busy then setF (incF s1 b R.TIL_TDC_BUSYCNT_BUSYCNT) b R.TIL_TDC_STAT_BUSY_SEEN else s1
    let s3 := if w.lost then setF s2 b R.TIL_TDC_STAT_LOST_SEEN else s2
    let want := match rd s b R.TIL_TDC_CTL_REC with
      | 1 => true
      | 2 => lim || busy || w.lost || w.xseen
      | _ => false
    if want then tdcQueue s3 t (tdcRecord t k core w busy lim) else s3

/-- Close every window of a position with the stops accepted (R81). -/
def tdcCloseAt (s : State) (t k : Nat) : State :=
  (List.range 2).foldl (fun s c => (mapGet (getTile s t).tdcWin (tdcKey k c) []).foldl (fun s _ => tdcClose s t k c) s) s

/-- Close every window of a tile with the stops accepted (R81). -/
def tdcCloseAll (s : State) (t : Nat) : State := (List.range 16).foldl (fun s k => tdcCloseAt s t k) s

/-! ### Comparator (R37 to R42) -/

/-- Code of a filtered output in `HI_STATE` and `LO_STATE`. -/
def tritCode : Trit → Nat
  | .below => 0
  | .above => 1
  | .x => 2

def codeTrit (n : Nat) : Trit := if n == 0 then .below else if n == 1 then .above else .x

/-- The comparator mode in effect: off in the safe state, continuous inside a pattern (R41, R59). In WATCH, where every slice is
safe, the sampled comparators run (R391). -/
def cmpMode (s : State) (t p : Nat) : Nat :=
  if rd s glb R.PWR_STAT_STATE == 1 && rd s (sliceB t p) R.CHN_CMP_CTL_MODE == 2 then 2
  else if isSafe s t p then 0
  else if rd s (sliceB t p) R.CHN_CMP_CTL_MODE == 2 && (getSlice s t p).inPattern then 1
  else rd s (sliceB t p) R.CHN_CMP_CTL_MODE

/-- A settled continuous comparator: its outputs may be decided (R37, R38). -/
def cmpDecides (s : State) (t p : Nat) : Bool := cmpMode s t p == 1 && flag s (sliceB t p) R.CHN_STAT_CMP_RDY

/-- R38, R72: the strobes of a tile whose last placed time has come are taken: a position that no settled comparator serves
then met an X output. -/
def strobesTake (s : State) (t : Nat) : State :=
  let x := getTile s t
  let due := fun (e : Nat × Nat × Nat) => decide (e.2.2 * 128 ≤ s.now)
  if x.await.any (fun a => a.strobes.any due) then
    putTile s t { x with await := x.await.map fun a =>
      { a with strobes := a.strobes.filter fun e => !due e
               xs := a.xs ++ ((a.strobes.filter fun e => due e && !cmpDecides s t (sliceOf s t e.1)).map (·.1)) } }
  else s

/-- The comparator powers up, restarts or goes off: outputs X, filter empty, not settled (R37, R40). -/
def cmpRestart (s : State) (t p : Nat) : State :=
  let s1 := wr (wr (clrF s (sliceB t p) R.CHN_STAT_CMP_RDY) (sliceB t p) R.CHN_CMP_EVT_HI_STATE 2)
    (sliceB t p) R.CHN_CMP_EVT_LO_STATE 2
  updSlice s1 t p fun x => { x with samplesHi := [], samplesLo := [], ticks := 0 }

/-- Window-out: the high output is 1 or the low output is 0 (R42). -/
def windowOut (hi lo : Trit) : Trit :=
  if hi == .above || lo == .below then .above else if hi == .below && lo == .above then .below else .x

/-- The selected source of `CHN_CMP_EVT` (R42). -/
def cmpSource (s : State) (t p : Nat) (hi lo : Trit) : Trit :=
  match rd s (sliceB t p) R.CHN_CMP_EVT_SRC with
  | 0 => hi
  | 1 => lo
  | 2 => windowOut hi lo
  | _ => .x

/-- An edge between two decided values that `CHN_CMP_EVT.EDGE` selects (R37, R42). -/
def cmpEdge (s : State) (t p : Nat) (a b : Trit) : Bool :=
  match a, b, rd s (sliceB t p) R.CHN_CMP_EVT_EDGE with
  | .below, .above, 0 => true
  | .above, .below, 1 => true
  | .below, .above, 2 => true
  | .above, .below, 2 => true
  | _, _, _ => false

/-- R42: the event and the wake of a change of outputs from (hi0, lo0) to (hi1, lo1). -/
def cmpEvent (s : State) (t p : Nat) (hi0 lo0 hi1 lo1 : Trit) : State :=
  let b := sliceB t p
  let a0 := cmpSource s t p hi0 lo0
  let a1 := cmpSource s t p hi1 lo1
  let edge := cmpEdge s t p a0 a1
  let s1 :=
    if edge && !flag s b R.CHN_CMP_EVT_EVT then
      let s2 := raiseRole (setF s b R.CHN_CMP_EVT_EVT) 3 t 5
      match posOf s t p, flag s b R.CHN_CMP_EVT_IRQ_EN with
      | some k, true =>
        let w := rd s2 b R.CHN_CMP_EVT_SRC + rd s2 b R.CHN_CMP_EVT_EDGE * 4 + rd s2 b R.CHN_CMP_EVT_IRQ_EN * 16 +
          rd s2 b R.CHN_CMP_EVT_WAKE_EN * 32 + rd s2 b R.CHN_CMP_EVT_WAKE_LVL * 64 + rd s2 b R.CHN_CMP_EVT_WAKE_POL * 128 +
          tritCode hi1 * 2 ^ 16 + tritCode lo1 * 2 ^ 18 + 2 ^ 24
        postEvt s2 0x01 (t * 16 + k) (w / 2 ^ 16) 0
      | _, _ => s2
    else s
  let level := match a1, rd s b R.CHN_CMP_EVT_WAKE_POL with
    | .above, 1 => true
    | .below, 0 => true
    | _, _ => false
  let fires := if flag s b R.CHN_CMP_EVT_WAKE_LVL then level else edge
  if flag s b R.CHN_CMP_EVT_WAKE_EN && fires && rd s glb R.PWR_STAT_STATE == 1 && flag s glb R.PWR_CTL_WK_CMP then
    askWake s1 2
  else s1

/-- New outputs of both thresholds. -/
def cmpOutputs (s : State) (t p : Nat) (hi lo : Trit) : State :=
  let b := sliceB t p
  let hi0 := codeTrit (rd s b R.CHN_CMP_EVT_HI_STATE)
  let lo0 := codeTrit (rd s b R.CHN_CMP_EVT_LO_STATE)
  cmpEvent (wr (wr s b R.CHN_CMP_EVT_HI_STATE (tritCode hi)) b R.CHN_CMP_EVT_LO_STATE (tritCode lo)) t p hi0 lo0 hi lo

/-- CMP_SETTLED (R38): 500 ns after a continuous comparator powers up, `CMP_RDY` reads 1. -/
def execCmpSettled (t : TileIx) (p : SliceIx) (s : State) : Host.Outcome State Fault Refusal :=
  .next (if cmpMode s t p == 1 then setF (strobesTake s t) (sliceB t p) R.CHN_STAT_CMP_RDY else s)

/-- CMP_EDGE (R42): the decided outputs of a settled continuous comparator. An X operand keeps that output. -/
def execCmpEdge (t : TileIx) (p : SliceIx) (hi lo : Trit) (s : State) : Host.Outcome State Fault Refusal :=
  let b := sliceB t p
  let hi1 := if hi == .x then codeTrit (rd s b R.CHN_CMP_EVT_HI_STATE) else hi
  let lo1 := if lo == .x then codeTrit (rd s b R.CHN_CMP_EVT_LO_STATE) else lo
  .next (if cmpDecides s t p then cmpOutputs s t p hi1 lo1 else s)

/-- The filter's window N and majority M (R39). -/
def filtN (s : State) (t p : Nat) : Nat := if flag s (sliceB t p) R.CHN_CMP_CTL_FILT then 9 else 5
def filtM (s : State) (t p : Nat) : Nat := if flag s (sliceB t p) R.CHN_CMP_CTL_FILT then 5 else 3

/-- R39, R40: the filter's output after a sample, from its last N samples, its ticks and its output before. -/
def majority (n m ticks : Nat) (l : List Trit) (old : Trit) : Trit :=
  if old == .x && ticks < n then .x
  else if m ≤ (l.filter (· == .above)).length then .above
  else if m ≤ (l.filter (· == .below)).length then .below
  else old

/-- SAMPLED_TICK (R39 to R42): one sample per threshold; X stands for a ball within the hysteresis band, whose sample
is the filter's current output. -/
def execSampledTick (t : TileIx) (p : SliceIx) (hi lo : Trit) (s : State) : Host.Outcome State Fault Refusal :=
  let b := sliceB t p
  if cmpMode s t p == 2 then
    let x := getSlice s t p
    let n := filtN s t p
    let m := filtM s t p
    let oh := codeTrit (rd s b R.CHN_CMP_EVT_HI_STATE)
    let ol := codeTrit (rd s b R.CHN_CMP_EVT_LO_STATE)
    let sh := ((if hi == .x then oh else hi) :: x.samplesHi).take n
    let sl := ((if lo == .x then ol else lo) :: x.samplesLo).take n
    let k := x.ticks + 1
    let s1 := putSlice s t p { x with samplesHi := sh, samplesLo := sl, ticks := k }
    .next (cmpOutputs s1 t p (majority n m k sh oh) (majority n m k sl ol))
  else .next s

/-! ### Placed drive edges, strobes and the load (R43, R64, R72, R73) -/

/-- The enabled load connects, inside a pattern while the vector's drive state is high impedance, outside while the driver is
off (R43), but not under the drive lock (R56), a PMU connection (R52) or the safe state. -/
def loadState (s : State) (t p : Nat) : Bool :=
  let b := sliceB t p
  let x := getSlice s t p
  flag s b R.CHN_LOAD_CTL_EN && (if x.inPattern then x.cmd else x.drive) == .off && !flag s b R.CHN_STAT_DRIVE_LOCK &&
    !flag s b R.CHN_PMU_CTL_CONNECT && !ballHeld s t p

/-- Bring the load switch to where the registers put it. -/
def loadSync (s : State) (t p : Nat) : State := updSlice s t p fun x => { x with load := loadState s t p }

/-- The driver is held off whatever the actions say (R52, R56, R58, R60). -/
def driverHeld (s : State) (t p : Nat) : Bool :=
  flag s (sliceB t p) R.CHN_STAT_DRIVE_LOCK || flag s (sliceB t p) R.CHN_PMU_CTL_CONNECT || ballHeld s t p || (getSlice s t p).quiet

/-- R64, R72, R73: the placed drive edges of a slice whose time has come: the last of them gives the drive state, which the
driver takes up unless it is held off, and the load follows (R43). -/
def edgesTake (s : State) (t p : Nat) : State :=
  let x := getSlice s t p
  let due := fun (e : Nat × Drive) => decide (e.1 * 128 ≤ s.now)
  match (x.edges.filter due).getLast? with
  | none => s
  | some e => loadSync (putSlice s t p { x with cmd := e.2, drive := if driverHeld s t p then .off else e.2,
                                                edges := x.edges.filter fun e => !due e }) t p

/-! ### PMU ends and the job that waits for them (R54, R147, R285) -/

/-- The channel numbers set in a 96-byte mask. -/
def chanList (mask : List Nat) : List Nat := (List.range 768).filter fun c => bit (mask.getD (c / 8) 0) (c % 8)

/-- The four bytes of `CHN_PMU_RES`, or of `CHN_CC_RES`, of each channel. -/
def resBytes (s : State) (cc : Bool) (chans : List Nat) : List Nat :=
  chans.flatMap fun c =>
    let b := sliceB (c / 16) (sliceOf s (c / 16) (c % 16))
    leBytes 4 (if cc then rd s b R.CHN_CC_RES_RESULT + rd s b R.CHN_CC_RES_VMEAS * 256 else rd s b R.CHN_PMU_RES_RES)

/-- A PARAMETRIC or CONTACT_CHECK job whose channels are all done writes its output and ends. -/
def pmuJobFinish (s : State) (j : Nat) : State :=
  match getJob? s j with
  | none => s
  | some x =>
    if x.units.isEmpty && x.phase == .running then
      if x.opcode == 0x20 then
        let r1 := x.tally.getD 1 0
        let r2 := x.tally.getD 2 0
        writeAndEnd s j (arg x 3) (if arg x 3 == 0 then [] else resBytes s false x.rec_)
          (if r1 == 0 && r2 == 0 then 0 else 1) (x.tally.getD 0 0) r1 r2
      else
        writeAndEnd s j (arg x 1) (if arg x 1 == 0 then [] else resBytes s true x.rec_) 0 (x.tally.getD 0 0)
          (x.tally.getD 1 0 + x.tally.getD 2 0 * 2 ^ 32) 0
    else s

/-- A job's channel is done: it leaves the units left, and tally `i` counts it. -/
def pmuUnitDone (s : State) (j : Option Nat) (c : Nat) (is : List Nat) : State :=
  match j with
  | none => s
  | some j =>
    match getJob? s j with
    | none => s
    | some x =>
      let tally := is.foldl (fun l i => listSet l i (l.getD i 0 + 1)) x.tally
      putJob s j { x with units := x.units.filter (· != c), tally := tally }

/-- Store a parametric entry (R147). -/
def putParam (s : State) (j : Option Nat) (c : Nat) (e : ParamEntry) : State :=
  match j.bind (getJob? s) with
  | none => s
  | some x => { s with param := mapPut s.param (c * 16 + bits (arg x 1) 36 4) e }

/-- The channel a slice serves, for a job's bookkeeping. -/
def chanOf (s : State) (t p : Nat) : Nat := t * 16 + (posOf s t p).getD 0

/-- Restore the PMU fields a contact check saved (R55): MODE, RANGE, PRESET, CONNECT, SETTLE, FORCE, HI, LO, N. -/
def pmuRestore (s : State) (t p : Nat) (l : List Nat) : State :=
  let b := sliceB t p
  let w := fun (s : State) (f : Field) (i : Nat) => wr s b f (l.getD i 0)
  w (w (w (w (w (w (w (w (wr s b R.CHN_PMU_CTL_CONNECT (if isSafe s t p then 0 else l.getD 3 0)) R.CHN_PMU_CTL_MODE 0)
    R.CHN_PMU_CTL_RANGE 1) R.CHN_PMU_CTL_PRESET 2) R.CHN_PMU_CTL_SETTLE 4) R.CHN_PMU_FORCE_CODE 5)
    R.CHN_PMU_CLAMP_HI 6) R.CHN_PMU_CLAMP_LO 7) R.CHN_PMU_CNT_N 8

/-- The PMU fields a contact check saves. -/
def pmuSaved (s : State) (t p : Nat) : List Nat :=
  let b := sliceB t p
  [rd s b R.CHN_PMU_CTL_MODE, rd s b R.CHN_PMU_CTL_RANGE, rd s b R.CHN_PMU_CTL_PRESET, rd s b R.CHN_PMU_CTL_CONNECT,
   rd s b R.CHN_PMU_CTL_SETTLE, rd s b R.CHN_PMU_FORCE_CODE, rd s b R.CHN_PMU_CLAMP_HI, rd s b R.CHN_PMU_CLAMP_LO,
   rd s b R.CHN_PMU_CNT_N]

/-- A running measurement or contact check ends with `ABORTED`, `DONE` clear and the result unchanged (R54). -/
def pmuAbort (s : State) (t p : Nat) : State :=
  let b := sliceB t p
  let x := getSlice s t p
  let stop := fun (s : State) =>
    loadSync (sliceBoundary (putSlice (clrF (clrF (setF s b R.CHN_PMU_STAT_ABORTED) b R.CHN_PMU_STAT_DONE) b R.CHN_PMU_STAT_BUSY)
      t p { x with pmu := .idle }) t p) t p
  match x.pmu with
  | .idle => s
  | .measuring j =>
    let s1 := pmuUnitDone (putParam (stop s) j (chanOf s t p) .void) j (chanOf s t p) [2]
    match j with
    | some j =>
      let keep := match getJob? s j with
        | some x => bit x.flags 0
        | none => true
      pmuJobFinish (if keep then s1 else clrF s1 b R.CHN_PMU_CTL_CONNECT) j
    | none => s1
  | .contact saved j =>
    let s1 := pmuUnitDone (pmuRestore (stop s) t p saved) j (chanOf s t p) []
    match j with
    | some j => pmuJobFinish s1 j
    | none => s1

/-! ### Safe state (R57 to R61) -/

/-- R61: position k fails in the vector in progress, whatever its symbol (R125), unless masked by `TIL_FAIL_MASK`, by
V = 0, by a site the gang does not count or by a hold vector. -/
def failCurrent (s : State) (t k : Nat) : State :=
  let x := getTile s t
  match x.atBalls, x.gang.bind (getGang? s) with
  | some v, some g =>
    let i := rdi s (tileB t) R.TIL_SITE_MAP_SITE k
    if v.hold || rdi s (tileB t) R.TIL_SITE_MAP_V k != 1 || !g.sites.contains i || bit (rd s (tileB t) R.TIL_FAIL_MASK_MASK) k then s
    else
      let n := x.nextVec - 1
      let add := fun (a : Await) => { a with forced := a.forced ++ [k], measuring := a.measuring.filter (· != k), judge := a.judge.filter (·.1 != k) }
      if x.await.any (·.vec == n) then putTile s t { x with await := x.await.map fun a => if a.vec == n then add a else a }
      else putTile s t { x with await := x.await ++ [⟨n, v.px, v.py, [k], [], [], [], []⟩] }
  | _, _ => s

/-- R61: a slice enters the safe state inside a pattern: its channel fails from the vector in progress to the pattern's
end; its site is SUSPECT if the gang includes it (R129, R135). -/
def markSuspect (s : State) (t p : Nat) : State :=
  match posOf s t p with
  | none => s
  | some k =>
    if tileInRun s t && flag s (sliceB t p) R.CHN_CTL_EN && !(getTile s t).failed.contains k then
      let s1 := failCurrent (putTile s t { getTile s t with failed := (getTile s t).failed ++ [k] }) t k
      let i := rdi s (tileB t) R.TIL_SITE_MAP_SITE k
      if rdi s (tileB t) R.TIL_SITE_MAP_V k == 1 && ((getTile s t).gang.bind (getGang? s)).any (fun g => g.sites.contains i) then
        setF s1 (siteB i) R.GLB_SITE_STAT_SUSPECT
      else s1
    else s

/-- Entry into the safe state for a cause (R58, R59): the cause bit is set; the driver, load and PMU are off, a running
measurement is aborted, `CONNECT` is 0, the comparators are reset to X; a TDC window in progress closes (R81), and the vector's
drive edges still to come are ignored. -/
def safeEnter (s : State) (t p : Nat) (cause : Field) : State :=
  let b := sliceB t p
  let s1 := setF (setF (markSuspect s t p) b cause) b R.CHN_STAT_SAFE
  let s2 := clrF (pmuAbort s1 t p) b R.CHN_PMU_CTL_CONNECT
  let s3 := match posOf s t p with
    | some k => tdcCloseAt (noteSafe s2 (t * 16 + k)) t k
    | none => s2
  updSlice (cmpRestart (strobesTake s3 t) t p) t p fun x => { x with drive := .off, load := false, quiet := true }

/-- Put every listed slice in the safe state. -/
def safeEnterAll (s : State) (l : List (Nat × Nat)) (cause : Field) : State :=
  l.foldl (fun s x => safeEnter s x.1 x.2 cause) s

/-- A cause ends: its bit clears; the slice stays in the safe state until released (R60). -/
def causeClear (s : State) (l : List (Nat × Nat)) (cause : Field) : State :=
  l.foldl (fun s x => clrF s (sliceB x.1 x.2) cause) s

/-- Release from the safe state (R60): clamps reconnect, the comparator powers again, the driver stays off until a pattern
starts. -/
def safeRelease (s : State) (t p : Nat) : State :=
  loadSync (cmpRestart (clrF (tapNote s (sectorOf t)) (sliceB t p) R.CHN_STAT_SAFE) t p) t p

/-- R60: `SAFE_REL` first clears `SC_SW`, then releases the slice if no other cause bit is set. -/
def safeRel (s : State) (t p : Nat) : State :=
  let s1 := clrF s (sliceB t p) R.CHN_STAT_SC_SW
  if anyCause s1 t p then s1 else if isSafe s1 t p then safeRelease s1 t p else s1

/-- A write to the block of a retired slice is ignored and sets its `WR_IGN` (R33). -/
def sliceWrite (s : State) (t p : Nat) (k : State → State) : State :=
  if isRetired s t p then setF s (sliceB t p) R.CHN_STAT_WR_IGN else k s

/-- SAFE_REQ (R58): cause `SC_SW`, and the safe state. -/
def execSafeReq (t : TileIx) (p : SliceIx) (s : State) : Host.Outcome State Fault Refusal :=
  .next (barWrite s none (sliceB t p) fun s => sliceWrite s t p fun s => safeEnter s t p R.CHN_STAT_SC_SW)

/-- SAFE_REL (R60). -/
def execSafeRel (t : TileIx) (p : SliceIx) (s : State) : Host.Outcome State Fault Refusal :=
  .next (barWrite s none (sliceB t p) fun s => sliceWrite s t p fun s => safeRel s t p)

/-- DRV_OVC_CLEAR (R58): a write of 1 to `DRV_OVC` clears it and `SC_OVC`. -/
def drvOvcClear (s : State) (t p : Nat) : State :=
  clrF (clrF s (sliceB t p) R.CHN_STAT_DRV_OVC) (sliceB t p) R.CHN_STAT_SC_OVC

def execDrvOvcClear (t : TileIx) (p : SliceIx) (s : State) : Host.Outcome State Fault Refusal :=
  .next (barWrite s none (sliceB t p + 4) fun s => sliceWrite s t p fun s => drvOvcClear s t p)

/-- Source actions of the driver-overcurrent detector (R36, R44, R413). -/
def overcurrent (s : State) (t p : Nat) : State :=
  safeEnter (setF s (sliceB t p) R.CHN_STAT_DRV_OVC) t p R.CHN_STAT_SC_OVC

/-- DRIVER_OVERCURRENT (R36). -/
def execDriverOvercurrent (t : TileIx) (p : SliceIx) (s : State) : Host.Outcome State Fault Refusal :=
  .next (signal (overcurrent s t p) 0x01 (t * 18 + p) 0)

/-- CLAMP_OVERCURRENT (R44): as R36, with the clamp in INFO. -/
def execClampOvercurrent (t : TileIx) (p : SliceIx) (high : Bool) (s : State) : Host.Outcome State Fault Refusal :=
  .next (if flag s (sliceB t p) R.CHN_CTL_CLAMP_EN && !isSafe s t p then
    signal (overcurrent (setF s (sliceB t p) R.CHN_STAT_CLAMP_HIT) t p) 0x01 (t * 18 + p) (if high then 1 else 2) else s)

/-- CLAMP_CONDUCTS (R44): more than 1 mA in a connected clamp. -/
def execClampConducts (t : TileIx) (p : SliceIx) (s : State) : Host.Outcome State Fault Refusal :=
  .next (if flag s (sliceB t p) R.CHN_CTL_CLAMP_EN && !isSafe s t p then setF s (sliceB t p) R.CHN_STAT_CLAMP_HIT else s)

/-- LOAD_SATURATES (R43): the connected load cannot hold its current. -/
def execLoadSaturates (t : TileIx) (p : SliceIx) (s : State) : Host.Outcome State Fault Refusal :=
  .next (if (getSlice s t p).load then setF s (sliceB t p) R.CHN_STAT_LOAD_SAT else s)

/-! ### Level banks (R45 to R50) -/

/-- The ten level fields of a bank, in register order. -/
def bankFields : List Field :=
  [R.CHN_VIH_CODE, R.CHN_VIL_CODE, R.CHN_VTT_CODE, R.CHN_VOH_CODE, R.CHN_VOL_CODE, R.CHN_VCOM_CODE, R.CHN_VCH_CODE,
   R.CHN_VCL_CODE, R.CHN_IOH_CODE, R.CHN_IOL_CODE]

/-- A bank's ten levels. -/
def bankLevels (s : State) (t p b : Nat) : List Nat := bankFields.map fun f => rdi s (sliceB t p) f b

/-- R45: the bank is valid. 200 mV is 1638.4 codes of 15,625 / 128 µV. -/
def bankValid (s : State) (t p b : Nat) : Bool :=
  let v := fun (f : Field) => rdi s (sliceB t p) f b
  let lo := v R.CHN_VCL_CODE
  let hi := v R.CHN_VCH_CODE
  let inside := fun x => decide (lo ≤ x) && decide (x ≤ hi)
  decide (v R.CHN_VOL_CODE ≤ v R.CHN_VOH_CODE) &&
    (!flag s (sliceB t p) R.CHN_CTL_CLAMP_EN ||
      (decide (lo * 15625 + 200000 * 128 ≤ hi * 15625) && inside (v R.CHN_VIH_CODE) && inside (v R.CHN_VIL_CODE) &&
        inside (v R.CHN_VTT_CODE) && inside (v R.CHN_VCOM_CODE)))

/-- R45, R48: a switch to bank b starts. DESIGN CHOICE (assumption 164): at the start of a glide of 1,024 µs the 10-bit `REMAIN`
reads 0. -/
def startSwitch (s : State) (t p b : Nat) : State :=
  let base := sliceB t p
  if !bankValid s t p b then setF s base R.CHN_STAT_BANK_INV
  else if rdi s base R.CHN_GLIDE_EN b == 0 then
    updSlice (wr s base R.CHN_BANK_STAT_TGT b) t p fun x => { x with dac := bankLevels s t p b }
  else
    let dur := rdi s base R.CHN_GLIDE_T b + 1
    let src := rd s base R.CHN_BANK_STAT_TGT
    let s1 := wr (setF (wr (wr s base R.CHN_BANK_STAT_SRC src) base R.CHN_BANK_STAT_TGT b) base R.CHN_BANK_STAT_GLIDING)
      base R.CHN_BANK_STAT_REMAIN dur
    updSlice s1 t p fun x => { x with glide := some ⟨src, b, x.dac, bankLevels s t p b, dur * 10, 0⟩ }

/-- R49: a request for bank b: queued while a glide runs, else started at once. -/
def requestSwitch (s : State) (t p b : Nat) : State :=
  if (getSlice s t p).glide.isSome then
    wr (setF s (sliceB t p) R.CHN_BANK_STAT_QV) (sliceB t p) R.CHN_BANK_STAT_QBANK b
  else startSwitch s t p b

/-- A word's level-bank command (R96). -/
def wBkv (w : Nat) : Bool := bit w 68
def wBank (w : Nat) : Nat := bits w 69 2

/-- A request for a bank that waited for a vector command is taken (R47). -/
def lateTake (s : State) (t p : Nat) : State :=
  match (getSlice s t p).late with
  | none => s
  | some b => requestSwitch (updSlice s t p fun x => { x with late := none }) t p b

/-- R47: a vector with a level-bank command starts in the timing-clock period that runs now. -/
def vectorAsks (s : State) (t p : Nat) : Bool :=
  let x := getTile s t
  let b := tileB t
  let n := x.nextVec
  let e := rdTime s b R.TIL_VCLK_EPOCH0_FRAC R.TIL_VCLK_EPOCH1_NS R.TIL_VCLK_EPOCH2_SEC R.TIL_VCLK_EPOCH3_SEC
  let tn := e + roundDiv ((n - rd64 s b R.TIL_VCLK_PH0_LO_PH0 R.TIL_VCLK_PH0_HI_PH0) * 2 ^ 63) (rd64 s b R.TIL_VCLK_FTW_LO_FTW R.TIL_VCLK_FTW_HI_FTW)
  flag s b R.TIL_VCLK_CTL_EN && flag s (sliceB t p) R.CHN_CTL_EN && tileInRun s t && tn / 32768 == s.now / 32768 &&
    x.vbuf.any fun v => v.1 == n && v.2.first && wBkv v.2.word

/-- R47: a register write asks for bank b, after a vector command of the same period. -/
def bankSelect (s : State) (t p b : Nat) : State :=
  if vectorAsks s t p then updSlice s t p fun x => { x with late := some b } else requestSwitch s t p b

/-- What was placed up to now takes effect: drive edges, bank requests left from the period that has passed, and strobes. -/
def placedTake (s : State) : State :=
  let s1 := (s.slices.map (·.1)).foldl (fun s i => lateTake (edgesTake s (i / 18) (i % 18)) (i / 18) (i % 18)) s
  (s1.tiles.map (·.1)).foldl strobesTake s1

/-- An empty queue: one period of the 500 ps timing clock passes (DESIGN CHOICE, assumption 1), and the drive edges and strobes
placed up to its end take effect. -/
def idleTick (s : State) : State := placedTake { s with now := s.now + 32768 }

/-- BANK_SELECT_WRITE (R47). -/
def execBankSelectWrite (t : TileIx) (p : SliceIx) (b : BankIx) (s : State) : Host.Outcome State Fault Refusal :=
  .next (barWrite s none (sliceB t p + 8) fun s => sliceWrite s t p fun s =>
    bankSelect (wr s (sliceB t p) R.CHN_BANK_SEL_BANK b) t p b)

/-- A "stored as" rule that needs no other state. -/
def storeAs (r : Store) (v : Nat) : Nat :=
  match r with
  | .asIs => v
  | .clamp lo hi => if v < lo then lo else if hi < v then hi else v
  | .lowZero n => v / 2 ^ n * 2 ^ n
  | .remap a b => if v == a then b else v
  | .keep m => v &&& m
  | .custom => v

/-- What `CHN_PMU_FORCE` (true) and `CHN_PMU_CLAMP` (false) store (R34, R51): a voltage code, of FV and of FI, is bounded. -/
def pmuStore (mode : Nat) (force : Bool) (v : Nat) : Nat := if mode == (if force then 1 else 2) then min v 57344 else v

/-- R46: a write to level field f of bank b. -/
def bankFieldWrite (s : State) (t p b f v : Nat) : State :=
  if f == 10 then wri (wri s (sliceB t p) R.CHN_GLIDE_EN b (v % 2)) (sliceB t p) R.CHN_GLIDE_T b (v / 16)
  else
    let fd := bankFields.getD f R.CHN_VIH_CODE
    let c := storeAs fd.sto (v % 2 ^ 16)
    let s1 := wri s (sliceB t p) fd b c
    if (getSlice s t p).glide.isNone && rd s (sliceB t p) R.CHN_BANK_STAT_TGT == b then
      updSlice s1 t p fun x => { x with dac := listSet x.dac f c }
    else s1

/-- BANK_FIELD_WRITE (R46): field 0 to 9 a level, 10 `CHN_GLIDE[b]`. -/
def execBankFieldWrite (t : TileIx) (p : SliceIx) (b : BankIx) (f : Fin 11) (v : Word) (s : State) :
    Host.Outcome State Fault Refusal :=
  .next (barWrite s none (sliceB t p + 0x100 + b * 0x40 + f * 4) fun s => sliceWrite s t p fun s =>
    bankFieldWrite s t p b f v.toNat)

/-- R48: the level at update k of K. -/
def glideLevel (a b k n : Nat) : Nat := ((a : Int) + roundDivInt (((b : Int) - (a : Int)) * (k : Int)) n).toNat

/-- A glide's last update: the target is in force, and a queued request starts (R49). -/
def glideEnd (s : State) (t p : Nat) (g : Glide) : State :=
  let base := sliceB t p
  let s1 := updSlice (wr (clrF s base R.CHN_BANK_STAT_GLIDING) base R.CHN_BANK_STAT_REMAIN 0) t p
    fun x => { x with glide := none, dac := g.to_ }
  if flag s base R.CHN_BANK_STAT_QV then
    let q := rd s base R.CHN_BANK_STAT_QBANK
    let s2 := clrF (clrF s1 base R.CHN_BANK_STAT_QV) base R.CHN_BANK_STAT_QBANK
    if q == g.tgt then s2 else startSwitch s2 t p q
  else s1

/-- GLIDE_UPDATE (R48): the DACs' next 100 ns update. -/
def execGlideUpdate (t : TileIx) (p : SliceIx) (s : State) : Host.Outcome State Fault Refusal :=
  match (getSlice s t p).glide with
  | none => .next s
  | some g =>
    let k := g.done + 1
    if g.updates ≤ k then .next (glideEnd s t p g)
    else
      let s1 := wr s (sliceB t p) R.CHN_BANK_STAT_REMAIN ((g.updates - k) / 10)
      .next (updSlice s1 t p fun x => { x with glide := some { g with done := k },
                                               dac := List.zipWith (fun a b => glideLevel a b k g.updates) g.from_ g.to_ })

/-- R50: a device-fatal fault or a reset returns every bank field to its reset value, selects bank 0, empties the
queue. -/
def banksReset (s : State) (t p : Nat) : State :=
  let b := sliceB t p
  let regs := mapDropRange s.regs ((b + 0x100) * 32) ((b + 0x200) * 32)
  let s1 := { s with regs := mapDropRange regs ((b + 8) * 32) ((b + 0x10) * 32) }
  updSlice s1 t p fun x => { x with glide := none, dac := Slice.reset.dac, late := none }

/-! ### PMU (R51 to R54) -/

/-- The driver turns off and the load disconnects while `CONNECT` = 1 (R52). -/
def connectPmu (s : State) (t p : Nat) : State :=
  updSlice (setF s (sliceB t p) R.CHN_PMU_CTL_CONNECT) t p fun x => { x with drive := .off, load := false }

/-- A class S write of the slice block (R10): `eq` says that the value is the one held. -/
def sliceS (s : State) (t p : Nat) (eq : Bool) (k : State → State) : State :=
  if sliceRuns s t p then if eq then s else setF s (sliceB t p) R.CHN_STAT_WR_IGN else k s

/-- PMU_CONNECT (R52, R54): a write of `CONNECT` = 1; stored as 0 in the safe state. -/
def execPmuConnect (t : TileIx) (p : SliceIx) (s : State) : Host.Outcome State Fault Refusal :=
  .next (barWrite s none (sliceB t p + 0x20) fun s => sliceWrite s t p fun s =>
    sliceS s t p (flag s (sliceB t p) R.CHN_PMU_CTL_CONNECT) fun s =>
      if isSafe s t p then clrF s (sliceB t p) R.CHN_PMU_CTL_CONNECT else connectPmu s t p)

/-- R54: a write of `CONNECT` = 0 is always taken: it ends a running measurement and opens the switch. -/
def pmuDisconnect (s : State) (t p : Nat) : State :=
  loadSync (clrF (pmuAbort s t p) (sliceB t p) R.CHN_PMU_CTL_CONNECT) t p

/-- PMU_DISCONNECT (R54). -/
def execPmuDisconnect (t : TileIx) (p : SliceIx) (s : State) : Host.Outcome State Fault Refusal :=
  .next (barWrite s none (sliceB t p + 0x20) fun s => sliceWrite s t p fun s => pmuDisconnect s t p)

/-- R52, R54, R56: a START: ignored with STIGN while busy, LOCKED under the drive lock, aborted in the safe state. DESIGN CHOICE
(assumption 166): with CONNECT = 0 or MODE off it starts a measurement too, judged on the MI scale. -/
def pmuStart (s : State) (t p : Nat) (j : Option Nat) : State :=
  let b := sliceB t p
  if flag s b R.CHN_PMU_STAT_BUSY then setF s b R.CHN_PMU_STAT_STIGN
  else if flag s b R.CHN_STAT_DRIVE_LOCK then setF s b R.CHN_PMU_STAT_LOCKED
  else if isSafe s t p then clrF (setF s b R.CHN_PMU_STAT_ABORTED) b R.CHN_PMU_STAT_DONE
  else updSlice (setF s b R.CHN_PMU_STAT_BUSY) t p fun x => { x with pmu := .measuring j }

/-- PMU_START (R52). -/
def execPmuStart (t : TileIx) (p : SliceIx) (s : State) : Host.Outcome State Fault Refusal :=
  .next (barWrite s none (sliceB t p + 0x20) fun s => sliceWrite s t p fun s => pmuStart s t p none)

/-- Full scale of a result (R53): voltage in µV in FI/MV, current code in FV/MI. -/
def pmuLo (mode : Nat) : Int := if mode == 2 then -1000000 else -8388608
def pmuHi (mode : Nat) : Int := if mode == 2 then 6000000 else 8388608

/-- R53: the result and `OVR` for a mean and a conversion at the ADC limit (its high side or its low side). -/
def pmuResult (mode : Nat) (mean : Int) (limit : Option Bool) : Int × Bool :=
  match limit with
  | some true => (pmuHi mode, true)
  | some false => (pmuLo mode, true)
  | none =>
    if pmuHi mode < mean then (pmuHi mode, true)
    else if mean < pmuLo mode then (pmuLo mode, true)
    else (mean, false)

/-- The mean of conversions (R199): the sum divided by their number, rounded half up. -/
def pmuMean (conv : List Int) : Int := roundDivInt conv.sum conv.length

/-- PMU_MEASURE_DONE (R52, R53, R199): the `CHN_PMU_CNT.N` + 1 conversions are there, their mean is the result; `DONE`; the
boundary of the slice. Another number of conversions ends no measurement. -/
def execPmuMeasureDone (t : TileIx) (p : SliceIx) (conv : List Int) (limit : Option Bool) (clamped : Bool) (s : State) :
    Host.Outcome State Fault Refusal :=
  let b := sliceB t p
  match (getSlice s t p).pmu with
  | .measuring j =>
    if conv.length != rd s b R.CHN_PMU_CNT_N + 1 then .next s else
    let (v, ovr) := pmuResult (rd s b R.CHN_PMU_CTL_MODE) (pmuMean conv) limit
    let s1 := wr s b R.CHN_PMU_RES_RES (unsigned 32 v)
    let s2 := if ovr then setF s1 b R.CHN_PMU_STAT_OVR else s1
    let s3 := if clamped then setF s2 b R.CHN_PMU_STAT_CLAMPED else s2
    let s4 := updSlice (raiseRole (clrF (setF s3 b R.CHN_PMU_STAT_DONE) b R.CHN_PMU_STAT_BUSY) 3 t 5) t p fun x => { x with pmu := .idle }
    let s5 := loadSync (sliceBoundary s4 t p) t p
    match j with
    | none => .next s5
    | some j =>
      let c := chanOf s t p
      let s6 := pmuUnitDone (putParam s5 (some j) c (.valid v)) (some j) c (if ovr then [0, 1] else [0])
      let keep := match getJob? s j with
        | some x => bit x.flags 0
        | none => true
      .next (pmuJobFinish (if keep then s6 else pmuDisconnect s6 t p) j)
  | _ => .next s

/-! ### Contact check (R55, R56) -/

/-- R55: start of the fixed sequence, with the PMU fields saved; a running operation is not disturbed (R52). DESIGN CHOICE
(assumption 40): in the safe state with a cause bit set the check ends at once, ABORTED set and DONE cleared. -/
def contactStart (s : State) (t p : Nat) (j : Option Nat) : State :=
  let b := sliceB t p
  if flag s b R.CHN_PMU_STAT_BUSY then setF s b R.CHN_PMU_STAT_STIGN
  else if isSafe s t p && anyCause s t p then clrF (setF s b R.CHN_PMU_STAT_ABORTED) b R.CHN_PMU_STAT_DONE
  else
    let saved := pmuSaved s t p
    let w := fun (s : State) (f : Field) (v : Nat) => wr s b f v
    let s1 := w (w (w (w (w (w (w s R.CHN_PMU_CTL_MODE 2) R.CHN_PMU_CTL_RANGE 2) R.CHN_PMU_CTL_PRESET 1) R.CHN_PMU_FORCE_CODE
      0xC000) R.CHN_PMU_CLAMP_LO 0) R.CHN_PMU_CLAMP_HI 0x4000) R.CHN_PMU_CNT_N 15
    updSlice (setF (connectPmu s1 t p) b R.CHN_PMU_STAT_BUSY) t p fun x => { x with pmu := .contact saved j }

/-- CONTACT_CHECK_START (R55): a write of `CC_START`. -/
def execContactCheckStart (t : TileIx) (p : SliceIx) (s : State) : Host.Outcome State Fault Refusal :=
  .next (barWrite s none (sliceB t p + 0x20) fun s => sliceWrite s t p fun s => contactStart s t p none)

/-- A voltage code in units of 1/128 µV above 0 V (R34): (code - 8192) × 15,625. -/
def codeVolts (c : Nat) : Int := ((c : Int) - 8192) * 15625

/-- R55: the judgement of a contact check: 1 PASS, 2 OPEN, 3 SHORT. -/
def contactResult (vmeas : Int) (clamped : Bool) (vlo vhi : Nat) : Nat :=
  if clamped || decide (vmeas * 128 < codeVolts vlo) then 2
  else if codeVolts vhi < vmeas * 128 then 3
  else 1

/-- CONTACT_CHECK_DONE (R55, R56): its 16 conversions in µV, whose mean is `VMEAS`, and whether the PMU held at its clamp;
another number of conversions ends no check. DESIGN CHOICE (assumption 165): `DONE` is not set. -/
def execContactCheckDone (t : TileIx) (p : SliceIx) (conv : List Int) (clamped : Bool) (s : State) :
    Host.Outcome State Fault Refusal :=
  let b := sliceB t p
  match (getSlice s t p).pmu with
  | .contact saved j =>
    if conv.length != 16 then .next s else
    let vmeas := pmuMean conv
    let r := contactResult vmeas clamped (rd s b R.CHN_CC_WIN_VLO) (rd s b R.CHN_CC_WIN_VHI)
    let s1 := wr (wr s b R.CHN_CC_RES_RESULT r) b R.CHN_CC_RES_VMEAS (unsigned 24 vmeas)
    let s2 := if clamped then setF s1 b R.CHN_PMU_STAT_CLAMPED else s1
    let s3 := wr s2 b R.CHN_STAT_DRIVE_LOCK (if r == 1 || flag s b R.CHN_CTL_CONTACT_OVR then 0 else 1)
    let s4 := updSlice (clrF s3 b R.CHN_PMU_STAT_BUSY) t p fun x => { x with pmu := .idle }
    let s5 := loadSync (sliceBoundary (pmuRestore s4 t p saved) t p) t p
    match j with
    | none => .next s5
    | some j => .next (pmuJobFinish (pmuUnitDone s5 (some j) (chanOf s t p) [r - 1]) j)
  | _ => .next s

/-! ### The jobs PARAMETRIC and CONTACT_CHECK (R284, R285) -/

/-- R285: a named channel's tile is ARMED, RUN or HOLD, or its slice is busy. -/
def pmuBusy (s : State) (chans : List Nat) : Bool :=
  chans.any fun c => tileLive s (c / 16) || flag s (sliceB (c / 16) (sliceOf s (c / 16) (c % 16))) R.CHN_PMU_STAT_BUSY

/-- One channel of a PARAMETRIC job: its PMU fields are set, it is connected and started; a refusal is VOID. -/
def parametricChan (x : Job) (j : Nat) (s : State) (c : Nat) : State :=
  let t := c / 16
  let p := sliceOf s t (c % 16)
  let b := sliceB t p
  let a1 := arg x 1
  let a2 := arg x 2
  let w := fun (s : State) (f : Field) (v : Nat) => wr s b f (storeAs f.sto v)
  let s1 := w (w (w (w (w (w (w (w s R.CHN_PMU_CTL_MODE (bits a1 0 2)) R.CHN_PMU_CTL_RANGE (bits a1 2 3)) R.CHN_PMU_CTL_PRESET
    (bits a1 5 2)) R.CHN_PMU_CTL_SETTLE (bits a1 8 10)) R.CHN_PMU_CNT_N (bits a1 20 16)) R.CHN_PMU_FORCE_CODE
    (pmuStore (bits a1 0 2) true (bits a2 0 16))) R.CHN_PMU_CLAMP_HI (pmuStore (bits a1 0 2) false (bits a2 16 16)))
    R.CHN_PMU_CLAMP_LO (pmuStore (bits a1 0 2) false (bits a2 32 16))
  let s2 := if isSafe s1 t p then s1 else connectPmu s1 t p
  let s3 := pmuStart s2 t p (some j)
  if flag s3 b R.CHN_PMU_STAT_BUSY then s3
  else pmuUnitDone (putParam s3 (some j) c .void) (some j) c [2]

/-- PARAMETRIC (R284, R285). -/
def execParametric (j : Nat) (s : State) : Host.Outcome State Fault Refusal :=
  match jobReady s j 0x20 with
  | none => .next s
  | some x =>
    if x.units != [] then .next s
    else .next (needBytes s j (arg x 0) 96 fun mask =>
      let chans := chanList mask
      if pmuBusy s chans then endJob s j 0x0301 0 0 0
      else if bits (arg x 1) 0 2 == 0 || bits (arg x 1) 0 2 == 3 then endJob s j 0x0101 0 0 0
      else pmuJobFinish (chans.foldl (parametricChan x j) (setWork s j chans [0, 0, 0] chans)) j)

/-- One channel of a CONTACT_CHECK job; a check that cannot start is counted nowhere. -/
def contactChan (j : Nat) (s : State) (c : Nat) : State :=
  let t := c / 16
  let p := sliceOf s t (c % 16)
  let s1 := contactStart s t p (some j)
  if flag s1 (sliceB t p) R.CHN_PMU_STAT_BUSY then s1 else pmuUnitDone s1 (some j) c []

/-- CONTACT_CHECK (R55, R285). -/
def execContactCheck (j : Nat) (s : State) : Host.Outcome State Fault Refusal :=
  match jobReady s j 0x21 with
  | none => .next s
  | some x =>
    if x.units != [] then .next s
    else .next (needBytes s j (arg x 0) 96 fun mask =>
      let chans := chanList mask
      if pmuBusy s chans then endJob s j 0x0301 0 0 0
      else pmuJobFinish (chans.foldl (contactChan j) (setWork s j chans [0, 0, 0] chans)) j)

end Sys2Proof.Machine
end

