-- ==== Sys2Proof/Machine/Vclock.lean ====
section
/-! DEFINITION. Vector clock, fret validity and the TDC (R63 to R89). VECTOR_BOUNDARY itself stands in
Machine/Sequencer.lean. -/
namespace Sys2Proof.Machine

/-! ### The phase law (R65) -/

/-- The law of a tile: epoch, vector number at it, tuning word. -/
structure Law where
  e : Nat
  ph0 : Nat
  ftw : Nat
deriving DecidableEq, Repr

/-- The law in a tile's registers. -/
def lawOf (s : State) (t : Nat) : Law :=
  ⟨rdTime s (tileB t) R.TIL_VCLK_EPOCH0_FRAC R.TIL_VCLK_EPOCH1_NS R.TIL_VCLK_EPOCH2_SEC R.TIL_VCLK_EPOCH3_SEC,
   rd64 s (tileB t) R.TIL_VCLK_PH0_LO_PH0 R.TIL_VCLK_PH0_HI_PH0,
   rd64 s (tileB t) R.TIL_VCLK_FTW_LO_FTW R.TIL_VCLK_FTW_HI_FTW⟩

/-- R65: the boundary of vector n in ring time. -/
def lawTime (l : Law) (n : Nat) : Nat := l.e + roundDiv ((n - l.ph0) * 2 ^ 63) l.ftw

/-- The last vector whose boundary lies at or before x, for x at or after the epoch. -/
def lawAt (l : Law) (x : Nat) : Nat :=
  let g := l.ph0 + (x - l.e) * l.ftw / 2 ^ 63
  if lawTime l (g + 1) ≤ x then g + 1 else g

/-- The first vector whose boundary lies at or after x. -/
def lawNext (l : Law) (x : Nat) : Nat :=
  if x ≤ l.e then l.ph0
  else
    let g := lawAt l x
    if lawTime l g == x then g else g + 1

/-- R66: the bounds of a tuning word. -/
def ftwOk (f : Nat) : Bool := decide (0x8637BD1 ≤ f) && decide (f ≤ 0x666666666666)

/-- R112: vectors generated ahead of the balls, ceil(64 ns / period), at least 1. -/
def lambdaOf (ftw : Nat) : Nat := max 1 ((ftw + 2 ^ 41 - 1) / 2 ^ 41)

/-- The vector counter (R337). -/
def vcnt (s : State) (t : Nat) : Nat := rd64 s (tileB t) R.TIL_VCNT_LO_VCNT R.TIL_VCNT_HI_VCNT

def setVcnt (s : State) (t n : Nat) : State := wr64 s (tileB t) R.TIL_VCNT_LO_VCNT R.TIL_VCNT_HI_VCNT n

/-- A refused EN, ARM or CANCEL (R66, R70). -/
def vclkRefuse (s : State) (t cause : Nat) : State :=
  wr (setF s (tileB t) R.TIL_VCLK_STAT_REFUSED) (tileB t) R.TIL_VCLK_STAT_RCAUSE cause

/-- R67: the accumulator takes the phase that R65 gives now; boundaries are produced while the timing PLL is in lock (R29, R88). -/
def vclkEnable (s : State) (t : Nat) : State :=
  let b := tileB t
  let l := lawOf s t
  if flag s b R.TIL_VCLK_CTL_EN then s
  else if !ftwOk l.ftw then vclkRefuse s t 2
  else
    let n := lawNext l s.now
    let s1 := wr (wr (setF s b R.TIL_VCLK_CTL_EN) b R.TIL_VCLK_STAT_RUNNING (b2n (!pllLost s (sectorOf t)))) b R.TIL_SEQ_LAMBDA_LAMBDA
      (lambdaOf l.ftw)
    let s2 := updTile s1 t fun x => { x with nextVec := n }
    if l.ph0 < n then setVcnt s2 t (n - 1) else s2

/-- VCLK_ENABLE (R66, R67). -/
def execVclkEnable (t : TileIx) (s : State) : Host.Outcome State Fault Refusal :=
  .next (barWrite s none (tileB t + 0x100) fun s => vclkEnable s t)

/-- R67: `EN` = 0 stops boundaries at once; ignored while the sequencer is ARMED, RUN or HOLD. DESIGN CHOICE (assumption 169): a
pending change, and its job, stay pending. -/
def vclkDisable (s : State) (t : Nat) : State :=
  let b := tileB t
  if !flag s b R.TIL_VCLK_CTL_EN then s
  else if tileLive s t then setF s b R.TIL_VCLK_STAT_WR_IGN
  else clrF (clrF s b R.TIL_VCLK_CTL_EN) b R.TIL_VCLK_STAT_RUNNING

/-- VCLK_DISABLE (R67). -/
def execVclkDisable (t : TileIx) (s : State) : Host.Outcome State Fault Refusal :=
  .next (barWrite s none (tileB t + 0x100) fun s => vclkDisable s t)

/-! ### Frets (R75, R76) -/

/-- The logical channel at position k is enabled: its slice's `CHN_CTL.EN` = 1 and the slice is not retired. -/
def chanEnabled (s : State) (t k : Nat) : Bool :=
  !isRetired s t (sliceOf s t k) && flag s (sliceB t (sliceOf s t k)) R.CHN_CTL_EN

/-- The enabled drive edges of a fret: offset and action, in order; actions NONE and reserved place no edge. -/
def fretEdges (s : State) (t k f : Nat) : List (Nat × Nat) :=
  let b := fretB t k f
  let acts := [rd s b R.TIL_FRET_DACT_ACT0, rd s b R.TIL_FRET_DACT_ACT1, rd s b R.TIL_FRET_DACT_ACT2, rd s b R.TIL_FRET_DACT_ACT3]
  ((List.range 4).map fun i => (rdi s b R.TIL_FRET_D_OFS i, acts.getD i 0)).filter fun e => e.2 != 0 && e.2 != 7

/-- Successive edges rise by at least 320 placement units. -/
def edgesApart : List (Nat × Nat) → Bool
  | a :: b :: rest => decide (a.1 + 320 ≤ b.1) && edgesApart (b :: rest)
  | _ => true

/-- R75: the fret is valid at a period of 2^56 / ftw placement units. -/
def fretValid (s : State) (t k f ftw : Nat) : Bool :=
  let b := fretB t k f
  let inP := fun o => decide (o * ftw < 2 ^ 56)
  let es := fretEdges s t k f
  let m := rd s b R.TIL_FRET_CMODE_MODE
  let c0 := rd s b R.TIL_FRET_C0_OFS
  let c1 := rd s b R.TIL_FRET_C1_OFS
  let tdc := flag s b R.TIL_FRET_TWIN_EN
  edgesApart es && es.all (fun e => inP e.1) && (!tdc || inP (rd s b R.TIL_FRET_TSTART_OFS)) &&
    (m == 0 || inP c0) && (!(m == 2 || m == 3) || (inP c1 && decide (c0 < c1))) &&
    (!tdc || decide (rd s b R.TIL_FRET_TWIN_OPEN_DLY + rd s b R.TIL_FRET_TWIN_LEN * 256 ≤ 65535))

/-- Every fret of every enabled channel of a tile is valid at a period. -/
def fretsValid (s : State) (t ftw : Nat) : Bool :=
  (List.range 16).all fun k => !chanEnabled s t k || (List.range 16).all fun f => fretValid s t k f ftw

/-! ### Scheduled period changes (R69 to R71) -/

/-- The tiles of a change armed by a register write (R70). -/
def changeTiles (s : State) (t : Nat) : List Nat :=
  match (getTile s t).gang.bind (getGang? s) with
  | some g => if tileLive s t then g.tiles else [t]
  | none => [t]

/-- R70: the first failing check of an arm, as status and RCAUSE. -/
def armCheck (s : State) (tiles : List Nat) (ftw tc : Nat) : Option (Nat × Nat) :=
  let l0 := lawOf s (tiles.headD 0)
  if !ftwOk ftw then some (0x0150, 2)
  else if !(tiles.all fun t => flag s (tileB t) R.TIL_VCLK_CTL_EN && lawOf s t == l0) then some (0x0353, 5)
  else if tc < s.now + usec 2 then some (0x0350, 1)
  else if tiles.any (fun t => match (getTile s t).pend with
      | some c => decide (c.tc < s.now + usec 2) || c.tiles != tiles
      | none => false) then some (0x0351, 4)
  else if !(tiles.all fun t => fretsValid s t ftw) then some (0x0352, 3)
  else none

/-- An arm that passed replaces the pending change of every tile; a replaced SET_PERIOD ends (R70, R285). -/
def armApply (s : State) (tiles : List Nat) (ftw tc : Nat) (job : Option Nat) : State :=
  let old := (getTile s (tiles.headD 0)).pend
  let s0 := match old with
    | some c => endJob? s c.job 0x0300 0 0 0
    | none => s
  tiles.foldl (fun s t =>
    let b := tileB t
    let s1 := wr64 s b R.TIL_VCLK_NFTW_LO_NFTW R.TIL_VCLK_NFTW_HI_NFTW ftw
    let s2 := wrTime s1 b R.TIL_VCLK_NTIME0_FRAC R.TIL_VCLK_NTIME1_NS R.TIL_VCLK_NTIME2_SECL R.TIL_VCLK_NTIME3_SECH tc
    updTile (setF s2 b R.TIL_VCLK_STAT_PEND) t fun x => { x with pend := some ⟨tiles, ftw, tc, job⟩ }) s0

/-- Arm a change of the period at Tc, or refuse it (R70). -/
def vclkArmAt (s : State) (t ftw tc : Nat) : State :=
  match armCheck s (changeTiles s t) ftw tc with
  | some (_, cause) => vclkRefuse s t cause
  | none => armApply s (changeTiles s t) ftw tc none

/-- A write of ARM (R70). -/
def vclkArm (s : State) (t : Nat) : State :=
  vclkArmAt s t (rd64 s (tileB t) R.TIL_VCLK_NFTW_LO_NFTW R.TIL_VCLK_NFTW_HI_NFTW)
    (rdTime s (tileB t) R.TIL_VCLK_NTIME0_FRAC R.TIL_VCLK_NTIME1_NS R.TIL_VCLK_NTIME2_SECL R.TIL_VCLK_NTIME3_SECH)

/-- VCLK_ARM (R70). -/
def execVclkArm (t : TileIx) (s : State) : Host.Outcome State Fault Refusal :=
  .next (barWrite s none (tileB t + 0x100) fun s => vclkArm s t)

/-- A write of CANCEL: the change is withdrawn from every tile of it if its Tc is at least 2 µs ahead (R70). DESIGN CHOICE
(assumption 168): with no change pending it does nothing and is not refused. -/
def vclkCancel (s : State) (t : Nat) : State :=
  match (getTile s t).pend with
  | none => s
  | some c =>
    if c.tc < s.now + usec 2 then vclkRefuse s t 4
    else
      let s1 := c.tiles.foldl (fun s u => updTile (clrF s (tileB u) R.TIL_VCLK_STAT_PEND) u fun x => { x with pend := none }) s
      endJob? s1 c.job 0x0300 0 0 0

/-- VCLK_CANCEL (R70, R285). -/
def execVclkCancel (t : TileIx) (s : State) : Host.Outcome State Fault Refusal :=
  .next (barWrite s none (tileB t + 0x100) fun s => vclkCancel s t)

/-- R69: at boundary n an armed change whose Tc has come applies: E = t(n), PH0 = n and the new word. The job of the
change ends when its last tile has applied it, with Nb in RES1. -/
def applyPeriod (s : State) (t n : Nat) : State :=
  let b := tileB t
  match (getTile s t).pend with
  | none => s
  | some c =>
    let tn := lawTime (lawOf s t) n
    if tn < c.tc then s
    else
      let s1 := wrTime s b R.TIL_VCLK_EPOCH0_FRAC R.TIL_VCLK_EPOCH1_NS R.TIL_VCLK_EPOCH2_SEC R.TIL_VCLK_EPOCH3_SEC tn
      let s2 := wr64 (wr64 s1 b R.TIL_VCLK_PH0_LO_PH0 R.TIL_VCLK_PH0_HI_PH0 n) b R.TIL_VCLK_FTW_LO_FTW R.TIL_VCLK_FTW_HI_FTW c.ftw
      let s3 := wr (setF (clrF s2 b R.TIL_VCLK_STAT_PEND) b R.TIL_VCLK_STAT_APPLIED) b R.TIL_SEQ_LAMBDA_LAMBDA (lambdaOf c.ftw)
      let s4 := updTile s3 t fun x => { x with pend := none }
      if c.tiles.all fun u => (getTile s4 u).pend != some c then
        match c.job with
        | some j => endJob s4 j (((getJob? s j).map fun x => x.tally.getD 0 0).getD 0) 0 n 0
        | none => s4
      else s4

/-! ### TDC (R79 to R87) -/

/-- R72: the placement unit at which an element of offset `ofs` of vector n lands: t(N) + offset, rounded to 2⁻⁹ ns. A unit
is a step of the interpolator, 256 of them from one timing-clock edge to the next (R64). -/
def placedAt (s : State) (t n ofs : Nat) : Nat := roundDiv (lawTime (lawOf s t) n + ofs * 128) 128

/-- The window that fret f of position k opens for vector n (R80). -/
def tdcWindow (s : State) (t k f n : Nat) : TdcWin :=
  let b := fretB t k f
  let start := placedAt s t n (rd s b R.TIL_FRET_TSTART_OFS)
  let o := start + rd s b R.TIL_FRET_TWIN_OPEN_DLY
  ⟨n, f, start, o, o + rd s b R.TIL_FRET_TWIN_LEN * 256, rd s b R.TIL_FRET_TWIN_NSTOP + 1,
   [rd s b R.TIL_FRET_STOPS_STOP0, rd s b R.TIL_FRET_STOPS_STOP1, rd s b R.TIL_FRET_STOPS_STOP2, rd s b R.TIL_FRET_STOPS_STOP3],
   if flag s b R.TIL_FRET_TWIN_LIM_EN then some (rd s b R.TIL_FRET_TLIM_LO, rd s b R.TIL_FRET_TLIM_HI) else none, [], false, false⟩

/-- R79: a TDC-enabled vector takes the next core in turn; its window is due where its fret is valid (R76). -/
def tdcDue (s : State) (t k f n : Nat) (valid : Bool) : State :=
  let x := getTile s t
  let core := mapGet x.tdcTurn k 0 % 2
  let x1 := { x with tdcTurn := mapPut x.tdcTurn k (mapGet x.tdcTurn k 0 + 1) }
  putTile s t (if valid then
    { x1 with tdcWin := mapPut x.tdcWin (tdcKey k core) (mapGet x.tdcWin (tdcKey k core) [] ++ [tdcWindow s t k f n]) } else x1)

/-- h(r) of R83: how many of the 2²⁰ stops of the slice's last code-density run on a core gave raw code r. -/
def tdcHist (s : State) (t p core r : Nat) : Nat :=
  (List.range (2 ^ 20)).countP fun i => (Config.tdcCode (t * 18 + p) core (getSlice s t p).tdcRuns i).toNat == r

/-- The correction table's entry for raw code r (R83): the fine count of a stop. -/
def tdcEntry (s : State) (t p core r : Nat) : Nat :=
  (256 * (2 * ((List.range r).map (tdcHist s t p core)).sum + tdcHist s t p core r) + 2 ^ 20) / 2 ^ 21

/-- R80, R82: an edge of kind `edge` before timing-clock edge ks with fine count `fine`, in the core's running window;
`undecided`: the threshold is X. -/
def tdcStop (w : TdcWin) (edge ks fine : Nat) (undecided : Bool) : TdcWin :=
  let a := ks * 256 - fine
  let n := w.stops.length
  if a < w.openAt ∨ w.closeAt ≤ a ∨ w.wanted ≤ n ∨ w.specs.getD n 0 ≠ edge then w
  else if undecided then { w with xseen := true }
  else if w.stops.any (fun r => decide ((a - (w.start + r)) * 1953125 < 300000000)) then { w with lost := true }
  else { w with stops := w.stops ++ [a - w.start], closeAt := if n + 1 = w.wanted then a else w.closeAt }

/-- R37, R38: the threshold that an edge kind concerns is X: no settled continuous comparator, or nothing decided yet. -/
def tdcX (s : State) (t p edge : Nat) : Bool :=
  !cmpDecides s t p || rd s (sliceB t p) (if edge < 2 then R.CHN_CMP_EVT_HI_STATE else R.CHN_CMP_EVT_LO_STATE) == 2

/-- TDC_STOP (R80, R82, R83): a stop before timing-clock edge ks with raw code `code`, whose fine count the core's correction
table gives; `undecided`: the ball has not decided the threshold. -/
def execTdcStop (t : TileIx) (k : PosIx) (core : Fin 2) (edge : Fin 4) (ks : Nat) (code : Fin 1024) (undecided : Bool)
    (s : State) : Host.Outcome State Fault Refusal :=
  let x := getTile s t
  let p := sliceOf s t k
  match mapGet x.tdcWin (tdcKey k core) [] with
  | [] => .next s
  | w :: rest =>
    if tdcBusy x (tdcKey k core) w then .next s
    else
      let w1 := tdcStop w edge ks (tdcEntry s t p core code) (undecided || tdcX s t p edge)
      .next (putTile s t { x with tdcWin := mapPut x.tdcWin (tdcKey k core) (w1 :: rest) })

/-- TDC_WINDOW_CLOSE (R80, R85). -/
def execTdcWindowClose (t : TileIx) (k : PosIx) (core : Fin 2) (s : State) : Host.Outcome State Fault Refusal :=
  .next (tdcClose s t k core)

/-- TDC_RECORD_WRITE (R86, R87): the oldest record goes to the TDC area of the fail ledger. -/
def execTdcRecordWrite (t : TileIx) (s : State) : Host.Outcome State Fault Refusal :=
  let x := getTile s t
  match x.tdcQ with
  | [] => .next s
  | r :: rest => .next (putTile s t { x with tdcQ := rest, tdcArea := x.tdcArea ++ [r] })

end Sys2Proof.Machine
end

