-- ==== Sys2Proof/Machine/Acquire.lean ====
section
/-! DEFINITION. Waveform acquisition and the digitizer back end (R156 to R209). -/
namespace Sys2Proof.Machine

/-! ### Real-time activity and memory pools (R24, R187, R316) -/

def digState (s : State) (q : Nat) : Nat := rd s (secB q) R.DIG_STAT_STATE

/-- R316: the real-time masters of a sector are active. -/
def rtActive (s : State) (q : Nat) : Bool := digState s q != 0 || (tilesOfSector q).any (tileLive s)

def anyRtActive (s : State) : Bool := (List.range 4).any (rtActive s)

/-- R320: `MEM_CTL.POINT` takes a pending write at the moment RTACT falls. -/
def memBoundary (s : State) : State := if anyRtActive s then s else applyShadow s 0x800000 0x800004

/-- The point in force is HALF, or a change of point runs (R322). -/
def pointHalf (s : State) : Bool := rd s glb R.MEM_STAT_CUR == 1 || rd s glb R.MEM_STAT_STATE == 3

/-- A pool lies inside its sector's home channels (R24): its HDM addresses belong to the sector. -/
def poolInHome (s : State) (q base bytes : Nat) : Bool :=
  committed s && decide (hdmBase s + q * hdmPerSector ≤ base) && decide (base + bytes ≤ hdmBase s + (q + 1) * hdmPerSector)

/-- R255: back-invalidate every line of a new pool that the filter shows held by the host; `BIPEND` meanwhile. -/
def poolBack (s : State) (base bytes : Nat) : State :=
  let d := hdmToDev (base - hdmBase s)
  let l := s.sf.filter fun x => decide (d ≤ x * 64) && decide (x * 64 < d + bytes)
  if l == [] then s else setF (l.foldl askBi s) glb R.HAT_HDM_STAT_BIPEND

/-- R128, R187: the effect of an accepted write of one of a pool's three registers. -/
def poolStore (s : State) (q : Nat) (lo hi size : Field) (r v : Nat) : State :=
  let b := secB q
  let s1 := if r == 0 then wr s b lo (v / 4096 * 4096) else if r == 1 then wr s b hi v else wr s b size v
  let base := rd64 s1 b lo hi
  let n := rd s1 b size * 4096
  if n != 0 && !poolInHome s1 q base n then wr s1 b size 0 else if n != 0 then poolBack s1 base n else s1

/-- The device line of the n-th write to a pool of sector q (R24, R128, R187): a line of the pool, which lies in the sector's home;
which one, the spec does not say (`Config.poolLine`). -/
def poolLineIn (s : State) (q : Nat) (lo hi size : Field) (key n : Nat) : Nat :=
  hdmToDev (rd64 s (secB q) lo hi - hdmBase s) / 64 + Config.poolLine key n % (rd s (secB q) size * 64)

/-- A job has started and has not made its last write. -/
def inProgress (x : Job) : Bool :=
  match x.phase with
  | .running | .draining .. => true
  | _ => false

/-- A READ_SEGMENTS on the sector is in progress. -/
def readSegsRuns (s : State) (q : Nat) : Bool :=
  s.rings.jobs.any fun e => e.2.opcode == 0x31 && inProgress e.2 && arg e.2 0 % 4 == q

/-- A pool register write ignored while its block runs: recorded where it would change the field (R478). -/
def poolIgnored (s : State) (q : Nat) (lo hi size : Field) (r v : Nat) (who : Option Nat) : State :=
  let f := if r == 0 then lo else if r == 1 then hi else size
  if (if r == 0 then v / 4096 * 4096 else v) % 2 ^ f.width == rd s (secB q) f then s else recordAccess s 6 true who (secB q + f.off)

/-- A write of an acquisition-pool register (R187). -/
def acqPoolWrite (s : State) (q r v : Nat) (who : Option Nat) : State :=
  if digState s q != 0 || readSegsRuns s q then
    poolIgnored s q R.SEC_ACQ_BASE_LO_BASE R.SEC_ACQ_BASE_HI_BASE R.SEC_ACQ_SIZE_SIZE r v who
  else
    let s1 := poolStore s q R.SEC_ACQ_BASE_LO_BASE R.SEC_ACQ_BASE_HI_BASE R.SEC_ACQ_SIZE_SIZE r v
    wr (updDig s1 q fun d => { d with store := [] }) (secB q) R.SEC_ACQ_USED_USED 0

def execAcqPoolWrite (s : SectorIx) (r : Fin 3) (v : Word) (s_1 : State) : Host.Outcome State Fault Refusal :=
  .next (barWrite s_1 none (secB s + 0x80010 + r * 4) fun x => acqPoolWrite x s r v.toNat none)

/-! ### The settings in force -/

/-- Sample period Ts in 2^-16 ns, and the number of inputs (R159). -/
def digTs (s : State) (q : Nat) : Nat := 10240 * 2 ^ rd s (secB q) R.DIG_CFG_INMODE
def digInputs (s : State) (q : Nat) : Nat := 2 ^ rd s (secB q) R.DIG_CFG_INMODE
def digN (s : State) (q : Nat) : Nat := 2 ^ rd s (secB q) R.DIG_FILT_K
def digTout (s : State) (q : Nat) : Nat := digTs s q * digN s q
def digMode (s : State) (q : Nat) : Nat := rd s (secB q) R.DIG_FILT_DMODE
def digAcc (s : State) (q : Nat) : Nat := rd s (secB q) R.DIG_FILT_ACC
def digLines (s : State) (q : Nat) : List Nat := maskBits 4 (rd s (secB q) R.DIG_CFG_INMASK)
def digPost (s : State) (q : Nat) : Nat := rd s (secB q) R.DIG_POST_POST
def digSpill (s : State) (q : Nat) : Bool := flag s (secB q) R.DIG_CFG_SPILL
def digCap (s : State) (q : Nat) : Nat := rd s (secB q) R.DIG_CAP_CAP
def wrapMode (s : State) (q : Nat) : Bool := flag s (secB q) R.DIG_CFG_CAPMODE

/-- Components P of a stored value (R190). -/
def digP (s : State) (q : Nat) : Nat := if digMode s q == 1 || digAcc s q == 2 then 2 else 1

/-- Bytes Wv of a component (R190). -/
def digWv (s : State) (q : Nat) : Nat := if digAcc s q == 1 then 4 else 2

/-- 64 W of R191. -/
def digW64 (s : State) (q : Nat) : Nat :=
  digP s q * (64 * digWv s q + rd s (secB q) R.DIG_FILT_CODE)

/-- R171: the capacity of a segment for an area and a number of segments. -/
def capacity (w64 nin area nseg : Nat) : Nat := 64 * ((64 * (area / (nseg * 64)) - 64) / (w64 * nin))

/-- The holdoff in 2^-16 ns (R168). -/
def holdoffOf (s : State) (q : Nat) : Nat := rd64 s (secB q) R.DIG_HOLDOFF_LO_HOLDOFF R.DIG_HOLDOFF_HI_HOLDOFF * 81920

/-- FIR coefficient i of a bank as stored, 18 bits; identity at cold reset (R197). -/
def firCode (d : Dig) (bank i : Nat) : Nat := mapGet (if bank == 0 then d.fir0 else d.fir1) i (if i == 127 then 65536 else 0)

def firPut (d : Dig) (bank i v : Nat) : Dig :=
  if bank == 0 then { d with fir0 := mapPut d.fir0 i (v % 2 ^ 18) } else { d with fir1 := mapPut d.fir1 i (v % 2 ^ 18) }

/-! ### End of a capture (R180, R183) -/

/-- The ARM_ACQ job ends once every spill record has left the device; a success is FLAGGED where a segment carries CLIP,
SPILL_LOST or SHORT by then (R183). -/
def digFinish (s : State) (q : Nat) : State :=
  let d := getDig s q
  match d.ending, d.job with
  | some (st, cause), some j =>
    if d.spillQ.isEmpty then
      let s1 := putDig s q { d with ending := none, job := none }
      if st / 256 == 2 then s1
      else endJob s1 j (if st == 0 && d.flagged then 0x0030 else st) (rd s (secB q) R.DIG_SEGDONE_SEGDONE)
        (min d.missed 0xFFFFFFFF + min d.early 0xFFFFFFFF * 2 ^ 32) cause
    else s
  | _, _ => s

/-- Enter STOPPED with a cause (R162): the digitizer's pending B writes take effect (R12), the filter history is gone,
the job's completion follows. -/
def digHalt (s : State) (q cause st : Nat) : State :=
  let s1 := wr (setDigState s q 0) (secB q) R.DIG_STAT_CAUSE cause
  let s2 := applyShadow s1 (secB q) (secB q + 0x200)
  let s3 := updDig s2 q fun d =>
    { d with open_ := none, autoAt := none, bcast := [], preFull := false, holdOn := false, maskStop := false, undo := none,
             ending := d.job.map fun _ => (st, cause) }
  memBoundary (digFinish s3 q)

/-- The status of a capture that ended by itself or by STOP (R183), but for FLAGGED, which `digFinish` judges. -/
def digStatus (s : State) (q cause : Nat) : Nat :=
  if cause == 3 then 0x0031
  else if cause == 4 then 0x0730
  else if cause == 2 && !wrapMode s q then 0x0434
  else 0

/-! ### Triggers (R163 to R170) -/

def countMissed (s : State) (q : Nat) : State :=
  updDig (setF (incF s (secB q) R.DIG_MISSED_MISSED) (secB q) R.DIG_STAT_MISSED) q fun d => { d with missed := d.missed + 1 }

def countEarly (s : State) (q : Nat) : State :=
  updDig (setF (incF s (secB q) R.DIG_EARLY_EARLY) (secB q) R.DIG_STAT_EARLY) q fun d => { d with early := d.early + 1 }

/-- The trigger sample and TFRAC of an instant (R170). -/
def trigSample (tout tau : Nat) : Nat × Nat :=
  let j := tau / tout
  let f := roundDiv ((tau - j * tout) * 65536) tout
  if f == 65536 then (j + 1, 0) else (j, f)

/-- The vector counter of the tile that holds the channel tapped by the lowest captured line, at stored sample jt. -/
def digVector (s : State) (q jt : Nat) : Nat :=
  match digLines s q with
  | [] => 0
  | l :: _ =>
    let t := 12 * q + rdi s (secB q) R.SEC_TAP_CHAN l / 16
    if flag s (tileB t) R.TIL_VCLK_CTL_EN && decide ((lawOf s t).e ≤ jt * digTout s q) then lawAt (lawOf s t) (jt * digTout s q)
    else vcnt s t

/-- A tapped ball is in the safe state, or was after an instant. -/
def tapSafeSince (s : State) (q since : Nat) : Bool := tapSafe s q || (getDig s q).safeTo.any fun x => decide (since ≤ x)

/-- R167 rows 5 and 6: the trigger opens a segment, or a further acquisition of one under accumulation. -/
def acceptTrigger (s : State) (q src tau jt tfrac pre : Nat) (short : Bool) : State :=
  let d := getDig s q
  let safe := 256 * b2n (tapSafeSince s q ((jt + 1 - pre) * digTout s q))
  let fl := b2n short + 2 * b2n (src == 0xA) + safe + 512 * b2n (rd s glb R.TIM_STAT_QUAL == 2)
  let seg := match d.open_ with
    | some g => { g with jt := jt, flags := g.flags ||| safe }
    | none => ⟨d.nextSeq, tau, src, fl, pre, tfrac, jt, digVector s q jt, 0, []⟩
  let d1 := { d with
    open_ := some seg
    endAt := some ((jt + digPost s q) * digTout s q)
    lastTau := some tau
    holdEnd := tau + holdoffOf s q
    holdOn := holdoffOf s q != 0
    autoAt := none
    flagged := d.flagged || short
    undo := some ⟨s.now / digTout s q, src, jt, digState s q, d.open_, d.endAt, d.lastTau, d.autoAt, d.holdEnd, d.holdOn, d.flagged⟩ }
  setDigState (putDig s q d1) q 4

/-- A trigger at instant τ from a source is judged (R166, R167). A trigger whose sample precedes the fill start that
follows SETTLING falls in the settling and is ignored as in row 1 (assumption 20). -/
def judgeTrigger (s : State) (q src tau : Nat) : State :=
  let d := getDig s q
  let st := digState s q
  let tj := trigSample (digTout s q) tau
  let a := tj.1 + 1 - d.fillJ
  let pre := rd s (secB q) R.DIG_PRE_PRE
  if st == 0 || st == 1 then s
  else if d.nextSeq == 0 && d.open_.isNone && decide (tj.1 + 1 < d.fillJ) then s
  else if d.lastTau.any (fun x => decide (tau < x)) then countMissed s q
  else if decide (tau < d.holdEnd) then s
  else if d.endAt.any (fun e => decide (tau ≤ e) || decide (tau < e + nsec 32)) then countMissed s q
  else if d.maskStop then s
  else if a < pre then
    if flag s (secB q) R.DIG_CFG_POLICY then acceptTrigger s q src tau tj.1 tj.2 a true
    else countEarly s q
  else acceptTrigger s q src tau tj.1 tj.2 pre false

/-- Take an acceptance back. -/
def undoTrigger (s : State) (q : Nat) (u : DigUndo) : State :=
  setDigState (updDig s q fun d => { d with
    open_ := u.seg, endAt := u.endAt, lastTau := u.lastTau, autoAt := u.autoAt, holdEnd := u.holdEnd, holdOn := u.holdOn,
    flagged := u.flagged, undo := none }) q u.state

/-- A decision falls now in the stored sample of the trigger accepted last. -/
def sameSample (s : State) (q : Nat) (u : DigUndo) : Bool := digState s q == 4 && s.now / digTout s q == u.sample

/-- R169, R181: a trigger that meets the one accepted in the same stored sample. A real trigger in the stored sample of an AUTO
trigger takes its place; of two others the earlier τ is accepted, then the lower code, and the other is counted. -/
def meetTrigger (s : State) (q src tau : Nat) (u : DigUndo) : State :=
  let t0 := (getDig s q).lastTau.getD 0
  let auto := u.src == 0xA
  if auto || decide (tau < t0) || (tau == t0 && decide (src < u.src)) then
    let s1 := judgeTrigger (undoTrigger s q u) q src tau
    if digState s1 q == 4 then (if auto then s1 else countMissed s1 q)
    else setDigState (putDig s1 q { getDig s q with missed := (getDig s1 q).missed, early := (getDig s1 q).early }) q 4
  else countMissed s q

/-- A trigger at instant τ from a source. -/
def trigger (s : State) (q src tau : Nat) : State :=
  match (getDig s q).undo with
  | some u =>
    if sameSample s q u || (u.src == 0xA && src != 0xA && digState s q == 4 && tau / digTout s q == u.jt) then meetTrigger s q src tau u
    else judgeTrigger s q src tau
  | none => judgeTrigger s q src tau

/-- The time of the stored sample at or before an instant. -/
def sampleAt (s : State) (q tau : Nat) : Nat := tau / digTout s q * digTout s q

/-- The code of a ball voltage in nV at a line's tap (R34, R157). -/
def sampleCode (s : State) (q l : Nat) (v : Int) : Int :=
  let att : Int := match rdi s (secB q) R.SEC_TAP_ATT l with
    | 0 => 1
    | 1 => 4
    | _ => 12
  clampInt (-2048) 2047 (roundDivInt ((v * 8192 - ((rdi s (secB q) R.SEC_TAP_OFS l : Int) - 8192) * 10 ^ 9) * 4096) (8192 * 1200000000 * att.toNat))

/-- The line moves from one code to another across a bound upward, with the hysteresis (R164). -/
def crossUp (bound : Int) (hys : Nat) (a b : Int) : Bool := decide (2 * a < 2 * bound - hys) && decide (2 * bound + hys < 2 * b)

/-- R164: the condition of `DIG_TRIG_LVL` and `DIG_TRIG_WIN` as the line moves from code a to code b. -/
def analogMeets (s : State) (q : Nat) (a b : Int) : Bool :=
  let r := secB q
  let lo := signed 12 (rd s r R.DIG_TRIG_WIN_LO)
  let hi := signed 12 (rd s r R.DIG_TRIG_WIN_HI)
  let h := rd s r R.DIG_TRIG_LVL_HYS
  let first := if flag s r R.DIG_TRIG_LVL_COND then
      (crossUp lo h a b && decide (b ≤ hi)) || (crossUp hi h b a && decide (lo ≤ b))
    else crossUp lo h a b
  let second := if flag s r R.DIG_TRIG_LVL_COND then
      (crossUp lo h b a && decide (a ≤ hi)) || (crossUp hi h a b && decide (lo ≤ a))
    else crossUp lo h b a
  match rd s r R.DIG_TRIG_LVL_DIR with
  | 0 => first
  | 1 => second
  | _ => first || second

/-- ANALOG_TRIGGER (R164): the trigger line's ball moves from one voltage to another (nV), crossing at τ. -/
def execAnalogTrigger (s : SectorIx) (m : LineMove) (x : State) : Host.Outcome State Fault Refusal :=
  let l := rd x (secB s) R.DIG_TRIG_LVL_LINE
  .next (if flag x (secB s) R.DIG_TRIG_EN_ANALOG && rdi x (secB s) R.SEC_TAP_EN l == 1 &&
      analogMeets x s (sampleCode x s l m.v0) (sampleCode x s l m.v1) then
    trigger { x with now := max x.now m.tau } s (rd x (secB s) R.DIG_TRIG_LVL_COND) m.tau else x)

/-- CMP_TRIGGER (R163): the selected channel's comparator outputs change at τ, by an edge that its `CHN_CMP_EVT` selects. -/
def execCmpTrigger (s : SectorIx) (m : OutputMove) (x : State) : Host.Outcome State Fault Refusal :=
  let c := 192 * s.val + rd x (secB s) R.DIG_TRIG_SRC_CCH
  let t := c / 16
  let p := sliceOf x t (c % 16)
  .next (if flag x (secB s) R.DIG_TRIG_EN_CMP && (cmpMode x t p == 2 || cmpDecides x t p) &&
      cmpEdge x t p (cmpSource x t p m.hi0 m.lo0) (cmpSource x t p m.hi1 m.lo1) then
    trigger { x with now := max x.now m.tau } s 2 m.tau else x)

/-- A software trigger arrives now (R163). -/
def softTrigger (s : State) (q : Nat) : State := trigger s q 9 (sampleAt s q s.now)

def execSoftTrigger (s : SectorIx) (x : State) : Host.Outcome State Fault Refusal :=
  .next (barWrite x none (secB s) fun x => softTrigger x s)

/-- AUTO_TRIGGER (R169): no trigger has been accepted by the auto deadline. -/
def execAutoTrigger (s : SectorIx) (x : State) : Host.Outcome State Fault Refusal :=
  match (getDig x s).autoAt with
  | none => .next x
  | some dl =>
    .next (trigger { updDig x s (fun d => { d with autoAt := none }) with now := max x.now dl } s 0xA (sampleAt x s dl))

/-- VFLAG trigger of tile t at the boundary of a flagged vector (R94, R163). -/
def vflagTrigger (s : State) (t tau : Nat) : State :=
  let b := secB (sectorOf t)
  if flag s b R.DIG_TRIG_EN_VFLAG && rd s b R.DIG_TRIG_SRC_VTILE == t then trigger s (sectorOf t) 3 tau else s

/-- A TRIG_IN edge (R163): polarity per `TINPOL`. -/
def tinTrigger (s : State) (i : Nat) (rise : Bool) (tau : Nat) : State :=
  (List.range 4).foldl (fun s q =>
    if bit (rd s (secB q) R.DIG_TRIG_EN_TIN) i && bit (rd s (secB q) R.DIG_TRIG_SRC_TINPOL) i != rise then
      trigger s q (5 + i) tau else s) s

/-- A BCAST trigger frame with trigger number `id` and instant τ reaches a digitizer now (R165). -/
def bcastTrigger1 (s : State) (q id tau : Nat) : State :=
  let b := secB q
  if !flag s b R.DIG_TRIG_EN_BCAST || rd s b R.DIG_TRIG_SRC_BCID != id || digState s q == 0 then s
  else if tau + nsec 8192 < s.now then countMissed s q
  else if tau ≤ s.now then trigger s q 4 tau
  else if 8 ≤ (getDig s q).bcast.length then countMissed s q
  else updDig s q fun d => { d with bcast := d.bcast ++ [tau] }

def bcastTrigger (s : State) (id tau : Nat) : State := (List.range 4).foldl (fun s q => bcastTrigger1 s q id tau) s

/-- BCAST_TRIGGER_DUE (R165): the earliest held trigger reaches its instant. -/
def execBcastTriggerDue (s : SectorIx) (x : State) : Host.Outcome State Fault Refusal :=
  match (getDig x s).bcast with
  | [] => .next x
  | a :: rest =>
    let tau := rest.foldl min a
    .next (trigger { updDig x s (fun d => { d with bcast := d.bcast.erase tau }) with now := max x.now tau } s 4 tau)

/-! ### Filling and re-arm (R162, R168, R169) -/

/-- The auto timer starts (R169). -/
def autoStart (s : State) (q : Nat) : State :=
  if flag s (secB q) R.DIG_AUTO_EN then
    updDig s q fun d => { d with autoAt := some (s.now + usec (rd s (secB q) R.DIG_AUTO_TO)) }
  else s

/-- FILLING becomes WAITING once PRE is filled and the holdoff has ended; under SHORT the ready instant is the later of
the fill start and the end of holdoff. -/
def fillCheck (s : State) (q : Nat) (wasReady : Bool) : State :=
  let d := getDig s q
  let short := flag s (secB q) R.DIG_CFG_POLICY
  if digState s q != 2 || d.holdOn then s
  else
    let s1 := if short && wasReady then autoStart s q else s
    if d.preFull then
      let s2 := setDigState s1 q 3
      if short then s2 else autoStart s2 q
    else s1

/-- FILLING begins at a stored sample. -/
def fillStart (s : State) (q j : Nat) : State :=
  let s1 := setDigState (updDig s q fun d => { d with fillJ := j, preFull := false }) q 2
  fillCheck s1 q true

/-- The first stored sample whose whole support follows an instant (R194). -/
def firstFull (s : State) (q tau : Nat) : Nat :=
  let n0 := (tau + digTs s q - 1) / digTs s q
  let lead := if digMode s q == 3 then 127 else 0
  (n0 + lead + digN s q - 1) / digN s q

/-- TAP_SETTLED (R158, R162). -/
def execTapSettled (s : SectorIx) (x : State) : Host.Outcome State Fault Refusal :=
  .next (if digState x s == 1 then fillStart x s (firstFull x s x.now) else x)

/-- PRE_FILLED (R162): PRE samples have been taken since the fill start. -/
def execPreFilled (s : SectorIx) (x : State) : Host.Outcome State Fault Refusal :=
  let filled := ((getDig x s).fillJ + rd x (secB s) R.DIG_PRE_PRE - 1) * digTout x s
  .next (if digState x s == 2 && !(getDig x s).preFull then
    fillCheck { updDig x s (fun d => { d with preFull := true }) with now := max x.now filled } s false else x)

/-- HOLDOFF_END (R168). -/
def execHoldoffEnd (s : SectorIx) (x : State) : Host.Outcome State Fault Refusal :=
  .next (if (getDig x s).holdOn then
    fillCheck { updDig x s (fun d => { d with holdOn := false }) with now := max x.now (getDig x s).holdEnd } s true else x)

/-- The capture has all its segments, or a mask stop is pending (R162, R179). -/
def digComplete (s : State) (q : Nat) : Bool :=
  let d := getDig s q
  d.maskStop || (!wrapMode s q && d.open_.isNone && decide (d.nseg ≤ d.nextSeq))

/-- REARM_DONE (R162): 32 ns after the last post-trigger sample. -/
def execRearmDone (s : SectorIx) (x : State) : Host.Outcome State Fault Refusal :=
  let d := getDig x s
  .next (if digState x s != 5 then x
    else if digComplete x s then
      let cause := if d.maskStop then 3 else 1
      digHalt x s cause (digStatus x s cause)
    else
      let e := d.endAt.getD 0
      fillStart { x with now := max x.now (e + nsec 32) } s (e / digTout x s + 1))

/-! ### The back end: stage 1 (R193, R195) -/

/-- Raw samples behind n stored samples, and the offset of the first from the first stored sample's own. -/
def rawLen (mode bigN n : Nat) : Nat :=
  if n == 0 then 0 else if mode == 0 then (n - 1) * bigN + 1 else if mode == 3 then (n - 1) * bigN + 256 else n * bigN

def rawLead (mode : Nat) : Int := if mode == 3 then 127 else 0

/-- Stored samples whose whole support lies in `len` raw samples. -/
def rawWhole (mode bigN len : Nat) : Nat :=
  if mode == 0 then (if len == 0 then 0 else (len - 1) / bigN + 1)
  else if mode == 3 then (if len < 256 then 0 else (len - 256) / bigN + 1)
  else len / bigN

def sumInt (l : List Int) : Int := l.foldl (· + ·) 0
def minInt (l : List Int) : Int := l.foldl min (l.headD 0)
def maxInt (l : List Int) : Int := l.foldl max (l.headD 0)

/-- R195 before the clamp. -/
def firSum (h x : List Int) : Int := roundDivInt (sumInt (List.zipWith (· * ·) h x)) 4096

/-- One stored value from its support (R193): components, and whether a FIR output clamped. -/
def stage1 (mode bigN : Nat) (h x : List Int) : List Int × Bool :=
  if mode == 0 then ([x.headD 0], false)
  else if mode == 1 then ([minInt (x.take bigN), maxInt (x.take bigN)], false)
  else if mode == 2 then ([roundDivInt (16 * sumInt (x.take bigN)) bigN], false)
  else
    let y := firSum h (x.take 256)
    ([clampInt (-32768) 32767 y], decide (y < -32768) || decide (32767 < y))

/-- Stage 1 over one input. -/
def stage1All (mode bigN : Nat) (h : List Int) (n : Nat) (x : List Int) : List (List Int × Bool) :=
  (List.range n).map fun i => stage1 mode bigN h (x.drop (i * bigN))

/-- A clip code stands among the raw samples used (R157). -/
def clipIn (mode bigN n : Nat) (x : List Int) : Bool :=
  if mode == 0 then (List.range n).any fun i => x.getD (i * bigN) 0 == 2047 || x.getD (i * bigN) 0 == -2048
  else x.any fun v => v == 2047 || v == -2048

/-! ### Stage 2: accumulation (R200) -/

def accOne (acc : Nat) (a v : List Int) : List Int :=
  if acc == 1 then [a.headD 0 + v.headD 0]
  else [min (a.headD 0) (v.headD 0), max (a.getLastD 0) (v.getLastD 0)]

/-- Add an acquisition (per input, per sample, components) to an accumulation; the first one starts it. -/
def accumulate (acc : Nat) (old new : List (List (List Int))) : List (List (List Int)) :=
  if acc == 0 then new
  else if old == [] then
    if acc == 2 then new.map fun l => l.map fun v => [v.headD 0, v.getLastD 0] else new
  else List.zipWith (List.zipWith (accOne acc)) old new

/-! ### Stage 3: mask test (R177, R178, R201) -/

/-- Violated and skipped points of a mask over one line's held values; the trigger sample has index `pre - 1`. -/
def maskJudge (mask : List (Int × Int × Int)) (pre : Nat) (mean : List Int → List Int) (held : List (List Int)) : Nat × Nat :=
  mask.foldl (fun a p =>
    let i := (pre : Int) - 1 + p.1
    if i < 0 then (a.1, a.2 + 1)
    else match held[i.toNat]? with
      | none => (a.1, a.2 + 1)
      | some v =>
        let m := mean v
        if m.headD 0 < p.2.1 || p.2.2 < m.getLastD 0 then (a.1 + 1, a.2) else a) (0, 0)

/-! ### Stage 4: ledger coding (R203 to R205) -/

/-- The differences of a block after its first value, step q = 2^m, from reconstruction r. -/
def codeDiffs (q : Nat) : Int → List Int → List Int
  | _, [] => []
  | r, v :: rest =>
    let d := roundDivInt (v - r) q
    d :: codeDiffs q (r + d * q) rest

/-- The reconstruction from the differences, clamped to the component's range. -/
def decodeDiffs (q : Nat) (bound : Int) : Int → List Int → List Int
  | _, [] => []
  | r, d :: rest => clampInt (-bound) (bound - 1) (r + d * q) :: decodeDiffs q bound (r + d * q) rest

/-- The smallest width that holds every difference; 0 when all are 0. -/
def diffWidth (l : List Int) : Nat :=
  if l.all (· == 0) then 0
  else ((List.range 33).find? fun b => b != 0 && l.all fun d => decide (-(2 ^ (b - 1) : Nat) ≤ d) && decide (d < (2 ^ (b - 1) : Nat))).getD 33

/-- Pack differences b bits each from bit 0 upward. -/
def packDiffs (b : Nat) (l : List Int) : Nat := l.foldr (fun d a => unsigned b d + 2 ^ b * a) 0

/-- Code one block: bytes, values as a decoder forms them, escaped. -/
def codeBlock (wv m : Nat) (v : List Int) : List Nat × List Int × Bool :=
  let n := v.length
  let v0 := v.headD 0
  let ds := codeDiffs (2 ^ m) v0 v.tail
  let b := diffWidth ds
  let size := 1 + wv + ((n - 1) * b + 7) / 8
  if 1 + n * wv ≤ size then (0x80 :: v.flatMap (fun x => leBytes wv (unsigned (8 * wv) x)), v, true)
  else (b :: leBytes wv (unsigned (8 * wv) v0) ++ leBytes (((n - 1) * b + 7) / 8) (packDiffs b ds),
    v0 :: decodeDiffs (2 ^ m) (2 ^ (8 * wv - 1) : Nat) v0 ds, false)

/-- Cut a sequence into blocks of 64 (at most `fuel` of them). -/
def blocks64 : Nat → List Int → List (List Int)
  | 0, _ => []
  | _, [] => []
  | fuel + 1, l => l.take 64 :: blocks64 fuel (l.drop 64)

/-- Code one component sequence: bytes, decoded values, escaped blocks. -/
def codeSeq (wv m : Nat) (v : List Int) : List Nat × List Int × Nat :=
  (blocks64 v.length v).foldl (fun a blk =>
    let c := codeBlock wv m blk
    (a.1 ++ c.1, a.2.1 ++ c.2.1, a.2.2 + b2n c.2.2)) ([], [], 0)

/-- Plain bytes of values, input-major, components minimum then maximum (R184, R190). -/
def plainBytes (wv : Nat) (vals : List (List (List Int))) : List Nat :=
  vals.flatMap fun l => l.flatMap fun v => v.flatMap fun c => leBytes wv (unsigned (8 * wv) c)

/-- The body of held values (R203): bytes as stored, bytes decoded, escaped blocks. -/
def codeBody (code : Bool) (p wv m : Nat) (vals : List (List (List Int))) : List Nat × List Nat × Nat :=
  if code then
    let seqs := vals.map fun l => (List.range p).map fun c => codeSeq wv m (l.map fun v => v.getD c 0)
    let dec := seqs.map fun l => (List.range (vals.headD []).length).map fun i => l.map fun x => x.2.1.getD i 0
    (seqs.flatMap fun l => l.flatMap (·.1), plainBytes wv dec, ((seqs.flatMap id).map (·.2.2)).foldl (· + ·) 0)
  else (plainBytes wv vals, plainBytes wv vals, 0)

/-! ### Closing a segment (R172 to R176, R202, R206) -/

/-- The 64-byte segment header (R174). -/
def segHeader (s : State) (q : Nat) (g : DigSeg) (flags post viol skip m cbytes ratio spilled nacc : Nat) : List Nat :=
  let b := secB q
  let coded := rd s b R.DIG_FILT_CODE
  let att := (List.range 4).foldr (fun l a => rdi s b R.SEC_TAP_ATT l + 4 * a) 0
  leBytes 8 (0x5C72 + q * 2 ^ 16 + rd s b R.DIG_CFG_INMODE * 2 ^ 18 + rd s b R.DIG_CFG_INMASK * 2 ^ 20 + g.src * 2 ^ 24 +
    g.seq % 2 ^ 32 * 2 ^ 32) ++
  leBytes 8 (fracOf g.tau + nsOf g.tau * 2 ^ 16) ++
  leBytes 8 (secOf g.tau % 2 ^ 48 + flags * 2 ^ 48) ++
  leBytes 8 (g.pre + post % 2 ^ 32 * 2 ^ 32) ++
  leBytes 8 (g.tfrac + min viol 65535 * 2 ^ 16 + skip * 2 ^ 32 + att * 2 ^ 48) ++
  leBytes 8 (m + coded * 8 + rd s b R.DIG_FILT_K * 16 + digMode s q * 2 ^ 9 + (getDig s q).fbank * 2 ^ 11 + digAcc s q * 2 ^ 12 +
    ratio * 2 ^ 16 + cbytes % 2 ^ 32 * 2 ^ 32) ++
  leBytes 8 (spilled % 2 ^ 48 + nacc * 2 ^ 48) ++ leBytes 8 g.vec

/-- Pad bytes with zero to a multiple of k. -/
def padTo (k : Nat) (l : List Nat) : List Nat := l ++ List.replicate ((k - l.length % k) % k) 0

/-- Samples per input of one spill record: its data stays within 64 KiB whatever the coding (assumption 21). -/
def spillChunk (s : State) (q : Nat) : Nat := max 1 (65536 * 64 / (digW64 s q * digInputs s q))

/-- The spill records of a segment's spilled values, each with its escaped blocks (R175, R205, R207). -/
def spillRecs (s : State) (q seq : Nat) (first : Nat) : Nat → List (List (List Int)) → List (SpillRec × Nat)
  | 0, _ => []
  | fuel + 1, vals =>
    let n := (vals.headD []).length
    if n == 0 then []
    else
      let k := min n (spillChunk s q)
      let coded := flag s (secB q) R.DIG_FILT_CODE
      let body := codeBody coded (digP s q) (digWv s q) (rd s (secB q) R.DIG_FILT_M) (vals.map (·.take k))
      let data := body.1
      let hdr := leBytes 8 (seq % 2 ^ 32 + data.length * 2 ^ 32) ++ leBytes 8 first ++
        leBytes 8 (k + b2n (k == n) * 2 ^ 32 + b2n coded * 2 ^ 33) ++ leBytes 8 0
      (⟨seq, k, padTo 32 (hdr ++ data)⟩, body.2.2) :: spillRecs s q seq (first + k) fuel (vals.map (·.drop k))

/-- A READ_SEGMENTS whose copy of a segment is not complete when the segment is overwritten (R184): the copy's header gets
OVERWRITTEN and its body zeros. The job's `units` and `tally` hold the numbers and lengths of the segments it copies. -/
def overwriteCopy (seq : Nat) (x : Job) (y : Stream) : Stream :=
  let i := x.units.idxOf seq
  let at_ := (x.tally.take i).foldl (· + ·) 0
  let len := x.tally.getD i 0
  if !x.units.contains seq || decide (at_ + len ≤ y.done) then y
  else
    let hdr := ((y.data.drop at_).take 64)
    { y with data := y.data.take at_ ++ listSet hdr 23 (hdr.getD 23 0 ||| 4) ++ List.replicate (len - 64) 0 ++ y.data.drop (at_ + len)
             done := min y.done at_ }

/-- Segment numbers are overwritten while they are copied. -/
def overwriteCopies (s : State) (q : Nat) (gone : List Nat) : State :=
  updXlt s fun z => { z with streams := z.streams.map (fun y =>
    match getJob? s y.job with
    | some x => if x.opcode == 0x31 && arg x 0 % 4 == q && y.wr then gone.foldl (fun y n => overwriteCopy n x y) y else y
    | none => y) }

/-- Write a segment: its values after stage 2, `nacc` acquisitions in it, closed early or not, the lane at fault. Mask points
stand relative to the trigger sample, whatever was captured before it (R178). -/
def writeSegment (s : State) (q : Nat) (g : DigSeg) (vals : List (List (List Int))) (nacc : Nat) (stopped lane : Bool) : State :=
  let b := secB q
  let d := getDig s q
  let n := (vals.headD []).length
  let pre := min g.pre n
  let held := if digSpill s q then min n (g.pre + (digCap s q - rd s b R.DIG_PRE_PRE)) else n
  let hv := vals.map (·.take held)
  let line := (digLines s q).idxOf (rd s b R.DIG_CFG_MLINE)
  let mean := fun (v : List Int) => if digAcc s q == 1 then v.map fun x => roundDivInt x nacc else v
  let j := maskJudge d.mask g.pre mean (hv.getD line [])
  let stop := j.1 != 0 && flag s b R.DIG_CFG_MASKACT && !stopped
  let m := if flag s b R.DIG_FILT_CODE then rd s b R.DIG_FILT_M else 0
  let body := codeBody (flag s b R.DIG_FILT_CODE) (digP s q) (digWv s q) m hv
  let cb := body.1.length
  let ratio := if !flag s b R.DIG_FILT_CODE || cb == 0 then 256 else min 0xFFFF (256 * body.2.1.length / cb)
  let flags := g.flags ||| (8 * b2n (j.1 != 0)) ||| (16 * b2n stop) ||| (64 * b2n stopped) ||| (128 * b2n lane)
  let hdr := segHeader s q { g with pre := pre } flags (held - pre) j.1 j.2 m cb ratio (n - held) (nacc - 1)
  let slot := fun (x : DigStored) => x.seq % max d.nseg 1 == g.seq % max d.nseg 1
  let recs := spillRecs s q g.seq held n (vals.map (·.drop held))
  let escs := (recs.map (·.2)).foldl (· + ·) body.2.2
  let d1 := { d with open_ := none, nextSeq := (g.seq + 1) % 2 ^ 32, maskStop := d.maskStop || stop, undo := none,
                     store := (d.store.filter fun x => !slot x) ++ [⟨g.seq, hdr, body.1, body.2.1⟩],
                     spillQ := d.spillQ ++ recs.map (·.1),
                     flagged := d.flagged || bit flags 2 }
  let s0 := overwriteCopies (putDig s q d1) q ((d.store.filter slot).map (·.seq))
  let s1 := memAsk s0 2 2 q (poolLineIn s q R.SEC_ACQ_BASE_LO_BASE R.SEC_ACQ_BASE_HI_BASE R.SEC_ACQ_SIZE_SIZE (4 + q) g.seq) true 0
  let s2 := if j.1 != 0 then setF (incF s1 b R.DIG_VCNT_VCNT) b R.DIG_STAT_VIOL else s1
  let s3 := if escs != 0 then setF (addF s2 b R.DIG_ESCCNT_ESCCNT escs) b R.DIG_BE_STAT_ESC else s2
  if stopped then s3
  else
    let s4 := raiseRole (incF s3 b R.DIG_SEGDONE_SEGDONE) 4 q 6
    if flag s b R.DIG_CFG_SEGEVT then postEvt s4 2 q (g.seq % 2 ^ 32) flags else s4

/-- The raw codes of the captured lines, lowest first, from their ball voltages. -/
def rawCodes (s : State) (q : Nat) (volts : List (List Int)) : List (List Int) :=
  List.zipWith (fun l v => v.map (sampleCode s q l)) (digLines s q) volts

/-- Stage 1 over every input of an acquisition of n stored samples. -/
def stageOuts (s : State) (q n : Nat) (raw : List (List Int)) : List (List (List Int × Bool)) :=
  raw.map (stage1All (digMode s q) (digN s q) (getDig s q).coefs n)

/-- FIR outputs that clamped are counted (R195). -/
def noteClamps (s : State) (q : Nat) (outs : List (List (List Int × Bool))) : State :=
  let clamps := ((outs.flatMap id).filter (·.2)).length
  if clamps != 0 then setF (addF s (secB q) R.DIG_FSATCNT_FSATCNT clamps) (secB q) R.DIG_BE_STAT_FSAT else s

/-- Stage 1 over every input of an acquisition of n stored samples, with its effects on the back-end status. -/
def backEnd (s : State) (q : Nat) (g : DigSeg) (n : Nat) (raw : List (List Int)) : State × DigSeg × List (List (List Int)) :=
  let outs := stageOuts s q n raw
  let clip := raw.any (clipIn (digMode s q) (digN s q) n)
  let s1 := noteClamps s q outs
  let s2 := if clip then setF s1 (secB q) R.DIG_STAT_CLIP else s1
  (s2, { g with flags := g.flags ||| (4 * b2n clip) }, outs.map fun l => l.map (·.1))

/-- Raw samples per input of n stored samples of the digitizer's path. -/
def rawNeed (s : State) (q n : Nat) : Nat := rawLen (digMode s q) (digN s q) n

/-- CAPTURE_DONE (R162): the ball voltages (nV) at the raw samples of every captured line, over the support of the acquisition's
samples. -/
def execCaptureDone (s : SectorIx) (volts : List (List Int)) (x : State) : Host.Outcome State Fault Refusal :=
  match (getDig x s).open_ with
  | none => .next x
  | some g =>
    let n := g.pre + digPost x s
    let raw := rawCodes x s volts
    if digState x s != 4 || raw.length != digInputs x s || raw.any (fun l => l.length != rawNeed x s n) then .next x
    else
      let x0 := { x with now := max x.now ((getDig x s).endAt.getD 0) }
      let r := backEnd x0 s g n raw
      let acc := accumulate (digAcc x s) g.acc r.2.2
      let x1 := setDigState r.1 s 5
      if digAcc x s != 0 && decide (g.accs + 1 < rd x (secB s) R.DIG_ACC_N + 1) then
        .next (updDig x1 s fun d => { d with open_ := some { r.2.1 with accs := g.accs + 1, acc := acc }, undo := none })
      else .next (writeSegment x1 s r.2.1 acc (g.accs + 1) false false)

/-- Close an open segment early (R174, R180, R202): from the raw samples captured so far of the acquisition in progress,
none when no acquisition is in progress. One in progress after completed ones is discarded, but its clamped outputs count (R195). -/
def closeOpen (s : State) (q : Nat) (raw : List (List Int)) (lane : Bool) : State :=
  match (getDig s q).open_ with
  | none => s
  | some g =>
    let n := min (g.pre + digPost s q) (rawWhole (digMode s q) (digN s q) ((raw.headD []).length))
    if g.accs != 0 then
      writeSegment (if digState s q == 4 then noteClamps s q (stageOuts s q n raw) else s) q g g.acc g.accs true lane
    else
      let r := backEnd s q g n raw
      writeSegment r.1 q r.2.1 (accumulate (digAcc s q) [] r.2.2) 1 true lane

/-- Stop the capture (R180): a trigger accepted in the same stored sample is as if it had not come (R181); the open segment
closes, then STOPPED. -/
def digStop (s : State) (q cause st : Nat) (raw : List (List Int)) (lane : Bool) : State :=
  if digState s q == 0 then s
  else
    let s0 := match (getDig s q).undo with
      | some u => if sameSample s q u then undoTrigger s q u else s
      | none => s
    let s1 := closeOpen s0 q raw lane
    digHalt s1 q cause (if st == 0 then digStatus s1 q cause else st)

/-- DIG_STOP: a write of `DIG_CTL.STOP`, with the ball voltages (nV) at the raw samples captured up to it. -/
def execDigStop (s : SectorIx) (volts : List (List Int)) (x : State) : Host.Outcome State Fault Refusal :=
  .next (barWrite x none (secB s) fun x => digStop x s 2 0 (rawCodes x s volts) false)

/-- The raw samples that stand behind an open segment now, when the device itself closes it (assumption 22). -/
def rawNow (s : State) (q : Nat) : List (List Int) :=
  match (getDig s q).open_ with
  | none => []
  | some g =>
    let j0 := g.jt + 1 - g.pre
    let n := min (g.pre + digPost s q) (s.now / digTout s q + 1 - j0)
    (digLines s q).map fun l => (List.range (rawNeed s q n)).map fun (i : Nat) =>
      sampleCode s q l (Config.rawSample q l ((j0 * digN s q : Nat) - rawLead (digMode s q) + i))

/-- A stop without samples at hand: a job abort, or a fault (R180). -/
def digStopNow (s : State) (q cause st : Nat) (lane : Bool) : State := digStop s q cause st (rawNow s q) lane

/-! ### SPILL (R175, R176) -/

/-- Drop every queued record of a segment (R176). -/
def spillDrop (s : State) (q seq : Nat) : State :=
  let d := getDig s q
  let lost := ((d.spillQ.filter (·.seq == seq)).map (·.count)).foldl (· + ·) 0
  let mark := fun (x : DigStored) =>
    if x.seq == seq then { x with hdr := listSet x.hdr 22 (x.hdr.getD 22 0 ||| 32) } else x
  let s1 := putDig s q { d with spillQ := d.spillQ.filter (·.seq != seq), store := d.store.map mark, flagged := true }
  signal (setF (addF s1 (secB q) R.DIG_SPILL_LOST_LOST lost) (secB q) R.DIG_STAT_SPILL_LOST) 0x0C q 0

/-- Write bytes at the producer offset, move it, and write it to the producer-index location. Offsets run modulo 2^31,
a place in the ring is the offset modulo its size (assumption 23). -/
def spillPut (s : State) (q j : Nat) (bytes : List Nat) : Except Nat State :=
  let d := getDig s q
  let pi_ := rd s (secB q) R.DIG_SPILL_PI_PI
  match jobWrite s j (d.ring + pi_ % 2 ^ d.log2) bytes with
  | .error e => .error e
  | .ok s1 =>
    let s2 := wr s1 (secB q) R.DIG_SPILL_PI_PI (pi_ + bytes.length)
    jobWrite s2 j d.ploc (leBytes 8 ((pi_ + bytes.length) % 2 ^ 31))

/-- SPILL_RECORD_WRITE: the next record, with the filler that a straddle needs. -/
def execSpillRecordWrite (s : SectorIx) (x : State) : Host.Outcome State Fault Refusal :=
  let d := getDig x s
  match d.spillQ, d.job with
  | r :: rest, some j =>
    let pi_ := rd x (secB s) R.DIG_SPILL_PI_PI
    let used := (pi_ + 2 ^ 31 - rd x (secB s) R.DIG_SPILL_CI_CI) % 2 ^ 31
    let gap := 2 ^ d.log2 - pi_ % 2 ^ d.log2
    let fill := if gap < r.bytes.length then gap else 0
    if decide (2 ^ d.log2 < used + fill + r.bytes.length) then .next (digFinish (spillDrop x s r.seq) s)
    else
      let filler := padTo fill (leBytes 8 (r.seq % 2 ^ 32 + (fill - 32) * 2 ^ 32) ++ leBytes 8 0 ++ leBytes 8 0 ++ leBytes 8 0)
      let r1 := if fill == 0 then Except.ok x else spillPut x s j filler
      match r1.bind (fun y => spillPut y s j r.bytes) with
      | .ok y => .next (digFinish (updDig y s fun d => { d with spillQ := rest }) s)
      | .error e =>
        .next (endXlt (digHalt (updDig (closeOpen x s (rawNow x s) false) s fun d => { d with spillQ := [] }) s 4 e) j e
          (d.ring + pi_ % 2 ^ d.log2) 0 true)
  | _, _ => .next x

/-! ### ARM_ACQ (R182) -/

/-- The points of a mask table (R177). -/
def maskPoints : Nat → List Nat → List (Int × Int × Int)
  | 0, _ => []
  | n + 1, l => (signed 32 (leNat (l.take 4)), signed 16 (leNat ((l.drop 4).take 2)), signed 16 (leNat ((l.drop 6).take 2))) ::
    maskPoints n (l.drop 8)

/-- A point with HI below LO. -/
def badPoint (l : List (Int × Int × Int)) : Bool := l.any fun p => decide (p.2.2 < p.2.1)

/-- R192: the combinations of stages an arm refuses. -/
def stagesBad (s : State) (q : Nat) : Bool :=
  (digMode s q == 1 && digAcc s q == 1) || (digAcc s q != 0 && (flag s (secB q) R.DIG_CFG_POLICY || digSpill s q))

/-- The arguments row of R182. -/
def armArgsBad (s : State) (q : Nat) (x : Job) (mask : List (Int × Int × Int)) : Bool :=
  let b := secB q
  let nseg := bits (arg x 0) 8 17
  let mcount := bits (arg x 0) 48 13
  let lines := digLines s q
  nseg == 0 || decide (65536 < nseg) || lines.length != digInputs s q ||
    lines.any (fun l => rdi s b R.SEC_TAP_EN l == 0) ||
    (flag s b R.DIG_TRIG_EN_ANALOG && rdi s b R.SEC_TAP_EN (rd s b R.DIG_TRIG_LVL_LINE) == 0) ||
    decide (4096 < mcount) || badPoint mask || (mcount != 0 && !lines.contains (rd s b R.DIG_CFG_MLINE)) || stagesBad s q

/-- The remaining rows of R182 and R322, in order: the first failing row's status. -/
def armCheckAcq (s : State) (q : Nat) (x : Job) (mask : List (Int × Int × Int)) : Option Nat :=
  let nseg := bits (arg x 0) 8 17
  let area := arg x 1
  let c := capacity (digW64 s q) (digInputs s q) area nseg
  let pre := rd s (secB q) R.DIG_PRE_PRE
  let n := bits (arg x 0) 32 6
  if armArgsBad s q x mask then some 0x0130
  else if decide ((acqPool s q).2 < area) || decide (c < 64) || flag s glb R.HAT_HDM_STAT_BIPEND then some 0x0432
  else if c ≤ pre then some 0x0431
  else if !digSpill s q && decide (c - pre < digPost s q) then some 0x0430
  else if digSpill s q && (decide (n < 16) || decide (30 < n)) then some 0x0130
  else if digSpill s q && (!isRt x.ctx || (ctxCheck s x (arg x 3) (2 ^ n)).isSome || (ctxCheck s x (arg x 4) 8).isSome) then
    some 0x0203
  else if pointHalf s then some 0x0360
  else none

/-- The accepted arm: the previous capture set is discarded, the area allocated, the taps switch. -/
def armAcq (s : State) (q j : Nat) (x : Job) (mask : List (Int × Int × Int)) : State :=
  let b := secB q
  let nseg := bits (arg x 0) 8 17
  let d := getDig s q
  let fb := rd s b R.DIG_FILT_FBANK
  let s1 := putDig s q { d with
    job := some j, nseg := nseg, mask := mask, ring := arg x 3, ploc := arg x 4, log2 := bits (arg x 0) 32 6, fbank := fb,
    coefs := (List.range 256).map fun i => signed 18 (firCode d fb i), pllOn := true, preFull := false, holdOn := decide (s.now < d.holdEnd),
    autoAt := none, bcast := [], open_ := none, nextSeq := 0, store := [], spillQ := [], maskStop := false, missed := 0, early := 0,
    flagged := false, ending := none, undo := none }
  let s2 := wr (wr (setDigState s1 q 1) b R.DIG_SEGDONE_SEGDONE 0) b R.DIG_CAP_CAP
    (capacity (digW64 s q) (digInputs s q) (arg x 1) nseg)
  let s3 := wr (wr s2 b R.SEC_ACQ_USED_USED ((arg x 1 + 4095) / 4096)) b R.DIG_SPILL_CI_CI 0
  startJob (wr s3 b R.DIG_SPILL_PI_PI 0) j

/-- ARM_ACQ (R182). An arm met during a preset load is checked after it (R198); one met after STOPPED while the spill records of
the capture before it still drain waits for them, since ring, offsets and completion are that capture's (R183). -/
def execArmAcq (j : Nat) (s : State) : Host.Outcome State Fault Refusal :=
  match jobReady s j 0x30 with
  | none => .next s
  | some x =>
    let q := arg x 0 % 4
    if x.phase == .running || flag s (secB q) R.DIG_BE_STAT_PLOAD then .next s
    else .next (afterDeferral s j x fun s =>
      if digState s q != 0 then endJob s j 0x0433 0 0 0
      else if (getDig s q).job.isSome then s
      else
        let n := min 4096 (bits (arg x 0) 48 13)
        needBytes s j (arg x 2) (8 * n) fun l =>
          match armCheckAcq s q x (maskPoints n l) with
          | some st => endJob s j st 0 0 0
          | none => armAcq s q j x (maskPoints n l))

/-! ### READ_SEGMENTS (R184) -/

/-- The held segments contiguous from `first`, at most `count`. -/
def segsFrom (store : List DigStored) (first : Nat) : Nat → List DigStored
  | 0 => []
  | n + 1 =>
    match store.find? (·.seq == first) with
    | none => []
    | some x => x :: segsFrom store ((first + 1) % 2 ^ 32) n

/-- The output of one segment: header, then body padded to 64 bytes. -/
def segOut (decoded : Bool) (x : DigStored) : List Nat := x.hdr ++ padTo 64 (if decoded then x.plain else x.body)

/-- Whole segments that fit in `len` bytes. -/
def fitSegs (decoded : Bool) (len : Nat) : List DigStored → List (List Nat)
  | [] => []
  | x :: rest =>
    let o := segOut decoded x
    if o.length ≤ len then o :: fitSegs decoded (len - o.length) rest else []

/-- READ_SEGMENTS. -/
def execReadSegments (j : Nat) (s : State) : Host.Outcome State Fault Refusal :=
  match jobReady s j 0x31 with
  | none => .next s
  | some x =>
    let d := getDig s (arg x 0 % 4)
    let l := segsFrom d.store (bits (arg x 0) 32 32) (min (arg x 1 % 2 ^ 32) d.store.length)
    if !d.store.any (·.seq == bits (arg x 0) 32 32) then .next (endJob s j 0x0435 0 0 0)
    else
      let outs := fitSegs (bit (arg x 0) 8) (arg x 3) l
      let bytes := outs.flatMap id
      let s1 := setWork s j ((l.take outs.length).map (·.seq)) (outs.map List.length) []
      .next (writeAndEnd s1 j (arg x 2) bytes (if outs.length < l.length then 0x0436 else 0) outs.length bytes.length 0)

/-! ### FIR coefficients (R196 to R198) -/

/-- A class S write of the digitizer block (R10, R196): `same` says that the value held is written. -/
def digS (s : State) (q : Nat) (same : Bool) (k : State → State) : State :=
  if digState s q != 0 then (if same then s else setF s (secB q) R.DIG_BE_STAT_WR_IGN) else k s

/-- A write of `DIG_FIR_COEF`: stored at BANK and IDX, then IDX increments. -/
def firCoefWrite (s : State) (q v : Nat) : State :=
  let b := secB q
  let i := rd s b R.DIG_FIR_IDX_IDX
  let k := rd s b R.DIG_FIR_IDX_BANK
  digS s q (firCode (getDig s q) k i == v % 2 ^ 18) fun s =>
    wr (updDig s q fun d => firPut d k i v) b R.DIG_FIR_IDX_IDX ((i + 1) % 256)

def execFirCoefWrite (s : SectorIx) (v : Word) (x : State) : Host.Outcome State Fault Refusal :=
  .next (barWrite x none (secB s + 0x10C) fun x => firCoefWrite x s v.toNat)

/-- K of a preset set (R198). -/
def presetK (set_ : Nat) : Nat := if set_ == 1 then 1 else if set_ == 2 then 3 else 6

/-- A write of `DIG_FIR_PRE`. -/
def firPreset (s : State) (q set_ : Nat) (bank : Bool) : State :=
  if set_ == 0 then s
  else digS s q false fun s =>
    setF (wr (updDig s q fun d => { d with preset := d.preset ++ [(set_, bank)] }) (secB q) R.DIG_FILT_K (presetK set_))
      (secB q) R.DIG_BE_STAT_PLOAD

def execFirPreset (s : SectorIx) (set_ : Fin 4) (bank : Bool) (x : State) : Host.Outcome State Fault Refusal :=
  .next (barWrite x none (secB s + 0x110) fun x => firPreset x s set_ bank)

/-- Coefficient 127 of a preset that makes its sum 65,536, for free coefficients 0 to 126. -/
def presetMid (set_ : Nat) : Int := 32768 - sumInt ((List.range 127).map fun i => signed 18 (Config.firPreset set_ i))

/-- Coefficient i of a preset: free values under the facts R198 states, symmetry and the sum 65,536; free values whose sum no
18-bit coefficient 127 can complete stand for the set that is 0 but in the middle. -/
def presetCoef (set_ i : Nat) : Int :=
  let k := min i (255 - i)
  if presetMid set_ < -131072 ∨ 131071 < presetMid set_ then (if k = 127 then 32768 else 0)
  else if k < 127 then signed 18 (Config.firPreset set_ k) else presetMid set_

/-- FIR_PRESET_DONE: the oldest load under way ends. -/
def execFirPresetDone (s : SectorIx) (x : State) : Host.Outcome State Fault Refusal :=
  match (getDig x s).preset with
  | [] => .next x
  | (set_, bank) :: rest =>
    let x1 := updDig x s fun d => (List.range 256).foldl
      (fun d i => firPut d (b2n bank) i (unsigned 18 (presetCoef set_ i))) { d with preset := rest }
    .next (wr x1 (secB s) R.DIG_BE_STAT_PLOAD (b2n (rest != [])))

/-- DIG_PLL_STOP (R395): 100 ms after STOPPED with no arm or item pending, the digitizer PLL stops. -/
def execDigPllStop (s : SectorIx) (x : State) : Host.Outcome State Fault Refusal :=
  let owes := x.rings.jobs.any fun e => e.2.units.any fun u => [6, 7, 8].contains (u / 1024) && u % 1024 == s.val &&
    (e.2.opcode == 0x50 || x.boot.startCal == some e.1)
  .next (if digState x s == 0 && (getDig x s).job.isNone && !owes then updDig x s fun d => { d with pllOn := false } else x)

end Sys2Proof.Machine
end

