-- ==== Sys2Proof/Machine/FailUnit.lean ====
section
/-! DEFINITION. The fail unit: judgement (R124 to R126), site results (R127 to R129), and the fail ledger with its
journal, its fold and the retest rollback (R130 to R135, R498). -/
namespace Sys2Proof.Machine

/-! ### Judgement (R124, R125) -/

/-- R124: one sample (high output, low output) against an expectation. -/
def samplePass (exp : Nat) (h l : Trit) : Bool :=
  match exp with
  | 1 => l == .below && h == .below
  | 2 => h == .above && l == .above
  | 3 => h == .below && l == .above
  | 4 => (h == .above && l == .above) || (h == .below && l == .below)
  | _ => true

/-- R74: samples a compare mode takes; in WINDOW, every output pair seen, at least one. -/
def sampleCount (mode n : Nat) : Bool :=
  match mode with
  | 0 => n == 0
  | 1 => n == 1
  | 2 => n == 2
  | _ => decide (1 ≤ n)

/-- Samples a position owes: none without an expectation (R125). -/
def owesMode (exp mode : Nat) : Nat := if exp == 0 then 0 else mode

/-- The positions of a tile that fail in a vector: forced, or a sample that mismatches. -/
def failing (a : Await) (samples : List (List (Trit × Trit))) : List Nat :=
  (List.range 16).filter fun k => a.forced.contains k ||
    a.judge.any fun e => e.1 == k && owesMode e.2.1 e.2.2 != 0 && (samples.getD k []).any fun x => !samplePass e.2.1 x.1 x.2

/-! ### Sites (R127 to R129) -/

/-- The site of a position, if assigned (R121). -/
def siteAt (s : State) (t k : Nat) : Option Nat :=
  if rdi s (tileB t) R.TIL_SITE_MAP_V k == 1 then some (rdi s (tileB t) R.TIL_SITE_MAP_SITE k) else none

/-- R129: the sites a gang of these tiles includes, ascending. -/
def gangSites (s : State) (tiles : List Nat) : List Nat :=
  allSites.filter fun i => tiles.any fun t => (List.range 16).any fun k => siteAt s t k == some i && chanEnabled s t k

/-- The gang of a tile. -/
def gangOf (s : State) (t : Nat) : Option (Nat × Gang) := (getTile s t).gang.bind fun l => (getGang? s l).map fun g => (l, g)

/-- Live gangs: a tile of the gang is ARMED, RUN or HOLD. -/
def gangLive (s : State) (g : Gang) : Bool := g.tiles.any (tileLive s)

/-- A job is in progress until its last write is made. -/
def jobRuns (s : State) (j : Nat) : Bool :=
  (getJob? s j).any fun x => match x.phase with
    | .done .. => false
    | _ => true

/-- R129: the site block runs: in a live gang, or while a FAIL_UPLOAD, ANALYZE_REPAIR or BIN that names it is in progress. -/
def siteActive (s : State) (i : Nat) : Bool :=
  s.gangs.any (fun e => gangLive s e.2 && e.2.sites.contains i) || (getSite s i).jobs.any (jobRuns s)

/-- A job that names these sites begins (R129). -/
def siteJoin (s : State) (j : Nat) (sites : List Nat) : State :=
  sites.foldl (fun s i => putSite s i { getSite s i with jobs := j :: (getSite s i).jobs.filter (jobRuns s) }) s

def siteForm (s : State) (i : Nat) : Nat := rd s (siteB i) R.GLB_SITE_LCFG_FORM

/-- Set a flag of every listed site. -/
def flagSites (s : State) (l : List Nat) (f : Field) : State := l.foldl (fun s i => setF s (siteB i) f) s

/-- A site's address word (R127): physical Y above physical X. -/
def writeFaddr (s : State) (i px py : Nat) : State :=
  let a := px % 2 ^ 24 + py % 2 ^ 24 * 2 ^ 24
  wr (wr s (siteB i) R.GLB_SITE_FADDR_LO_FADDR a) (siteB i) R.GLB_SITE_FADDR_HI_FADDR (a / 2 ^ 32)

/-- The first failing vector of a site (R127). -/
def siteFvec (s : State) (i : Nat) : Nat := rd64 s (siteB i) R.GLB_SITE_FVEC_LO_FVEC R.GLB_SITE_FVEC_HI_FVEC

/-- The site's first failing vector belongs to the pattern that runs: `FAIL` was clear at its arm. -/
def firstHere (s : State) (i : Nat) : Bool := (getSite s i).ckpt.any fun c => c.fail == 0

/-- R127 at one failing vector of a site, seen in tile t: counted once for the vector; the first in vector order since the clear
gives vector and address, the address that of the lowest tile, in whatever order the tiles' results come. -/
def countFail (s : State) (l t vec px py i : Nat) : State :=
  match getGang? s l with
  | none => s
  | some g =>
    let b := siteB i
    match g.counted.find? fun e => e.1 == vec && e.2.1 == i with
    | some e =>
      if t < e.2.2 then
        let s1 := putGang s l { g with counted := g.counted.map fun x => if x.1 == vec && x.2.1 == i then (vec, i, t) else x }
        if siteFvec s1 i == vec && firstHere s1 i then writeFaddr s1 i px py else s1
      else s
    | none =>
      let s1 := putGang s l { g with counted := g.counted ++ [(vec, i, t)] }
      let s2 := if flag s1 b R.GLB_SITE_STAT_FAIL && !(firstHere s1 i && decide (vec < siteFvec s1 i)) then s1
        else writeFaddr (wr64 s1 b R.GLB_SITE_FVEC_LO_FVEC R.GLB_SITE_FVEC_HI_FVEC vec) i px py
      setF (setF (incF s2 b R.GLB_SITE_FCNT_FCNT) b R.GLB_SITE_STAT_FAIL) b R.GLB_SITE_STAT_PFAIL

/-! ### Ledger entries (R130 to R132) -/

/-- Sector q's part of a site's ledger. -/
def partOf (x : Site) (q : Nat) : SecLedger := x.parts.getD q ⟨[], [], [], 0⟩
def putPart (s : State) (i q : Nat) (p : SecLedger) : State :=
  putSite s i { getSite s i with parts := listSet (getSite s i).parts q p }

/-- The sector's part has reached CAP (R131). -/
def capReached (s : State) (i q : Nat) : Bool := decide ((getSite s i).cap ≤ (partOf (getSite s i) q).count)

/-- The entry of a site for a failing vector in a tile (R130, R131): its io mask, and whether a cell was left out. -/
def ledgerMask (s : State) (t i px py : Nat) (fails : List Nat) : Nat × Bool :=
  let b := siteB i
  let iow := rd s b R.GLB_SITE_LCFG_IOW + 1
  let ks := fails.filter fun k => siteAt s t k == some i && rdi s (tileB t) R.TIL_FAIL_IO_LGR k == 1
  let out := decide (2 ^ rd s b R.GLB_SITE_LCFG_XW ≤ px) || decide (2 ^ rd s b R.GLB_SITE_LCFG_YW ≤ py)
  if ks.isEmpty then (0, false)
  else if out then (0, true)
  else
    let ios := ks.map fun k => rdi s (tileB t) R.TIL_FAIL_IO_IO k
    (bitsMask (ios.filter (· < iow)), ios.any fun io => decide (iow ≤ io))

/-- Entries queued ahead of the merge unit (`TIL_FAIL_QOCC`). -/
def showQocc (s : State) (t : Nat) : State := wr s (tileB t) R.TIL_FAIL_QOCC_OCC (getTile s t).failQ.length

/-- An entry takes its place in a tile's queue in vector order, whatever order the vectors were judged in (R131). -/
def queueEntry (l : List FailEntry) (e : FailEntry) : List FailEntry :=
  l.takeWhile (fun x => decide (x.vec ≤ e.vec)) ++ e :: l.dropWhile fun x => decide (x.vec ≤ e.vec)

/-- R131, R132: form a site's entry, or drop it where it meets a full queue. -/
def formEntry (s : State) (t vec px py : Nat) (fails : List Nat) (i : Nat) : State :=
  if siteForm s i == 0 then s
  else
    let m := ledgerMask s t i px py fails
    let s1 := if m.2 then setF s (siteB i) R.GLB_SITE_STAT_OOR else s
    if m.1 == 0 || capReached s1 i (sectorOf t) then s1
    else
      let x := getTile s1 t
      if x.failQ.length < 4096 then
        let l := py * 2 ^ rd s (siteB i) R.GLB_SITE_LCFG_XW + px
        let s2 := showQocc (putTile s1 t { x with failQ := queueEntry x.failQ ⟨vec, i, l, m.1⟩ }) t
        if x.failQ.length == 2048 then raiseRole s2 2 t 4 else s2
      else
        let s2 := raiseRole (setF (incF s1 (tileB t) R.TIL_FAIL_DROP_DROP) (tileB t) R.TIL_FAIL_STAT_OVF) 2 t 4
        signal (setF s2 (siteB i) R.GLB_SITE_STAT_LOST) 0x0B t 0

/-- The samples of a vector as the outputs give them (R37, R38): X where the position met an X output at a strobe, or where it has
no settled continuous comparator now. -/
def seenSamples (s : State) (t : Nat) (a : Await) (samples : List (List (Trit × Trit))) : List (List (Trit × Trit)) :=
  (List.range 16).map fun k =>
    if a.xs.contains k || (a.strobes.any (·.1 == k) && !cmpDecides s t (sliceOf s t k)) then
      (samples.getD k []).map fun _ => (.x, .x)
    else samples.getD k []

/-- R38: a strobe that meets an X output in continuous mode sets `UNSETTLED` of the slice. -/
def markUnsettled (s : State) (t : Nat) (samples : List (List (Trit × Trit))) : State :=
  ((List.range 16).filter fun k => chanEnabled s t k && cmpMode s t (sliceOf s t k) == 1 &&
    (samples.getD k []).any fun x => x.1 == .x || x.2 == .x).foldl
    (fun s k => setF s (sliceB t (sliceOf s t k)) R.CHN_STAT_UNSETTLED) s

/-- COMPARE_RESULT (R22, R126): the samples of a vector, tagged with the low 16 bits of its number, reach the fail unit, position
by position, high and low threshold outputs. It waits for TDC windows of the vector that are still open. -/
def compareResult (s : State) (t tag : Nat) (samples : List (List (Trit × Trit))) : State :=
  let x := getTile s t
  match gangOf s t, x.await.find? (·.vec % 2 ^ 16 == tag) with
  | some (l, _), some a =>
    if a.measuring != [] || a.judge.any (fun e => !sampleCount (owesMode e.2.1 e.2.2) (samples.getD e.1 []).length) then s
    else
      let seen := seenSamples s t a samples
      let fails := failing a seen
      let sites := allSites.filter fun i => fails.any fun k => siteAt s t k == some i
      let s1 := putTile (markUnsettled s t seen) t { x with await := x.await.filter (·.vec != a.vec) }
      let s2 := sites.foldl (fun s i => formEntry (countFail s l t a.vec a.px a.py i) t a.vec a.px a.py fails i) s1
      match getGang? s2 l with
      | none => s2
      | some g =>
        let left := g.counted.filter fun e => g.tiles.any fun u => (getTile s2 u).await.any fun w => w.vec == e.1
        putGang s2 l { g with counted := left }
  | _, _ => s

def execCompareResult (t : TileIx) (tag : Nat) (samples : List (List (Trit × Trit))) (s : State) :
    Host.Outcome State Fault Refusal :=
  .next (compareResult s t tag samples)

/-! ### The fail-list code (R137, R138) -/

/-- A pending token of the encoder: op (0 D8, 1 D24, 2 A48), payload, mask bytes if written, extra entries K. -/
structure FlTok where
  op : Nat
  pay : Nat
  mask : Option Nat
  k : Nat
deriving DecidableEq, Repr

/-- Encoder state: address, delta, mask, pending token, pending RUN count. -/
structure FlEnc where
  l : Nat
  d : Int
  m : Option Nat
  tok : Option FlTok
  run : Nat
deriving DecidableEq, Repr

/-- The bytes of a token. -/
def tokBytes (mb : Nat) (t : FlTok) : List Nat :=
  let n := if t.op == 0 then 1 else if t.op == 1 then 3 else 6
  (t.op * 32 + t.k + (if t.mask.isSome then 128 else 0)) :: leBytes n t.pay ++ (match t.mask with
    | some m => leBytes mb m
    | none => [])

/-- The bytes of what is pending. -/
def flFlush (mb : Nat) (e : FlEnc) : List Nat :=
  (match e.tok with
    | some t => tokBytes mb t
    | none => []) ++ (if e.run == 0 then [] else 0x60 :: leBytes 4 e.run)

/-- Encode one entry (R138): bytes closed, and the state after. -/
def flStep (mb : Nat) (e : FlEnc) (x : Nat × Nat) : List Nat × FlEnc :=
  let delta : Int := (x.1 : Int) - (e.l : Int)
  if e.m == some x.2 && delta == e.d then
    match e.tok with
    | some t =>
      if e.run == 0 && t.k < 31 then ([], { e with l := x.1, tok := some { t with k := t.k + 1 } })
      else if e.run < 0xFFFFFFFF then ([], { e with l := x.1, run := e.run + 1 })
      else (flFlush mb e, { e with l := x.1, tok := none, run := 1 })
    | none =>
      if e.run < 0xFFFFFFFF then ([], { e with l := x.1, run := e.run + 1 })
      else (flFlush mb e, { e with l := x.1, run := 1 })
  else
    let mask := if e.m == some x.2 then none else some x.2
    let tok : FlTok :=
      if -128 ≤ delta ∧ delta ≤ 127 then ⟨0, unsigned 8 delta, mask, 0⟩
      else if -8388608 ≤ delta ∧ delta ≤ 8388607 then ⟨1, unsigned 24 delta, mask, 0⟩
      else ⟨2, x.1 % 2 ^ 48, mask, 0⟩
    (flFlush mb e, ⟨x.1, delta, some x.2, some tok, 0⟩)

/-- The fail list of an entry sequence (L, mask), END included. -/
def failList (iow : Nat) (l : List (Nat × Nat)) : List Nat :=
  let mb := (iow + 7) / 8
  let r := l.foldl (fun (a : List Nat × FlEnc) x =>
    let y := flStep mb a.2 x
    (a.1 ++ y.1, y.2)) ([], ⟨0, 1, none, none, 0⟩)
  r.1 ++ flFlush mb r.2 ++ [0x7F]

/-! ### Journal and fold (R131, R133, R134) -/

/-- Add one to a cell's count: 1 in BITMAP, saturating in TALLY; whether it saturated. -/
def tallyCell (form : Nat) (a : Map Nat × Bool) (key : Nat) : Map Nat × Bool :=
  if form == 2 then (mapPut a.1 key 1, a.2)
  else if mapGet a.1 key 0 < 65535 then (mapPut a.1 key (mapGet a.1 key 0 + 1), a.2) else (a.1, true)

/-- The cells of an entry: L * IOW + io. -/
def entryCells (iow : Nat) (x : Nat × Nat) : List Nat := (maskBits iow x.2).map fun io => x.1 * iow + io

/-- R133: fold the journal of sector q into the site's form, and empty it. -/
def foldJournal (s : State) (i q : Nat) : State :=
  let p := partOf (getSite s i) q
  let form := siteForm s i
  let iow := rd s (siteB i) R.GLB_SITE_LCFG_IOW + 1
  if form == 1 then putPart s i q { p with list := p.list ++ p.journal, journal := [] }
  else
    let r := (p.journal.flatMap (entryCells iow)).foldl (tallyCell form) (p.cells, false)
    let s1 := putPart s i q { p with cells := r.1, journal := [] }
    if r.2 then setF s1 (siteB i) R.GLB_SITE_STAT_TSAT else s1

/-- Fold every journal of a site. -/
def foldSite (s : State) (i : Nat) : State := (List.range 4).foldl (fun s q => foldJournal s i q) s

/-- The merge unit of sector q writes an entry to the site's journal (R131, R133). -/
def journalEntry (s : State) (q : Nat) (e : FailEntry) : State :=
  if siteForm s e.site == 0 || capReached s e.site q then s
  else
    let iow := rd s (siteB e.site) R.GLB_SITE_LCFG_IOW + 1
    let p0 := partOf (getSite s e.site) q
    let full := decide (65536 < (failList iow (p0.journal ++ [(e.l, e.mask)])).length)
    let s1 := if full then setF (foldJournal s e.site q) (siteB e.site) R.GLB_SITE_STAT_NORETEST else s
    let p := partOf (getSite s1 e.site) q
    let s2 := memAsk (putPart s1 e.site q { p with journal := p.journal ++ [(e.l, e.mask)], count := p.count + 1 }) 2 1 q
      (poolLineIn s q R.SEC_LGR_BASE_LO_BASE R.SEC_LGR_BASE_HI_BASE R.SEC_LGR_SIZE_SIZE q p.count) true 0
    if capReached s2 e.site q then setF s2 (siteB e.site) R.GLB_SITE_STAT_CAPPED else s2

/-- No tile of the sector in tile t's gang still owes the result of an earlier vector, or of this one in a lower tile (R131). -/
def headReady (s : State) (t vec : Nat) : Bool :=
  match gangOf s t with
  | none => true
  | some (_, g) => g.tiles.all fun u => sectorOf u != sectorOf t || (getTile s u).await.all fun a =>
      decide (vec < a.vec) || (a.vec == vec && decide (t ≤ u))

/-- The tile of sector q whose queue head is first in vector order, then tile order, of those that nothing owed can precede. -/
def mergeTile (s : State) (q : Nat) : Option Nat :=
  (tilesOfSector q).foldl (fun best t =>
    match (getTile s t).failQ with
    | [] => best
    | e :: _ => if !headReady s t e.vec then best else match best with
      | none => some t
      | some b => match (getTile s b).failQ with
        | f :: _ => if e.vec < f.vec then some t else best
        | [] => some t) none

/-- The merge unit of sector q takes the next entry (R131). -/
def mergeNext (s : State) (q : Nat) : State :=
  match mergeTile s q with
  | none => s
  | some t =>
    let x := getTile s t
    match x.failQ with
    | [] => s
    | e :: rest => showQocc (journalEntry (putTile s t { x with failQ := rest }) q e) t

/-- JOURNAL_WRITE (R131). -/
def execJournalWrite (q : SectorIx) (s : State) : Host.Outcome State Fault Refusal := .next (mergeNext s q)

/-- The results still owed to a gang that stops at once are given up, and its tiles' queues empty through the merge units (R133). -/
def mergeAll (s : State) (tiles : List Nat) : State :=
  let s1 := tiles.foldl (fun s t => putTile s t { getTile s t with await := [] }) s
  (tiles.flatMap fun t => (getTile s t).failQ.map fun _ => sectorOf t).foldl mergeNext s1

/-! ### Clearing and allocation (R127, R128, R498) -/

/-- R498: pages of a ledger in every sector. -/
def ledgerPages (form xw yw iow cap : Nat) : Nat :=
  let w := 2 ^ (xw + yw) * iow
  if form == 1 then 16 + (15 * cap + 1 + 4095) / 4096
  else if form == 2 then 16 + (w + 32767) / 32768
  else if form == 3 then 16 + (w + 2047) / 2048
  else 0

/-- Flags and counters of a site that an accepted `GLB_SITE_LCFG` write clears (R127). -/
def siteFields : List Field :=
  [R.GLB_SITE_STAT_FAIL, R.GLB_SITE_STAT_PFAIL, R.GLB_SITE_STAT_STARVED, R.GLB_SITE_STAT_RESTARTED, R.GLB_SITE_STAT_SUSPECT,
   R.GLB_SITE_STAT_RETESTED, R.GLB_SITE_STAT_NORETEST, R.GLB_SITE_STAT_INCOMPL, R.GLB_SITE_STAT_CAPPED, R.GLB_SITE_STAT_LOST,
   R.GLB_SITE_STAT_OOR, R.GLB_SITE_STAT_TSAT, R.GLB_SITE_STAT_NOROOM, R.GLB_SITE_STAT_BINV, R.GLB_SITE_STAT_REPAIR,
   R.GLB_SITE_STAT_BIN, R.GLB_SITE_FCNT_FCNT, R.GLB_SITE_FVEC_LO_FVEC, R.GLB_SITE_FVEC_HI_FVEC, R.GLB_SITE_FADDR_LO_FADDR,
   R.GLB_SITE_FADDR_HI_FADDR]

/-- The site's entries in the parametric table return to NONE (R147). -/
def paramClear (s : State) (i : Nat) : State :=
  { s with param := s.param.filter fun e => siteAt s (e.1 / 256) (e.1 / 16 % 16) != some i }

/-- Pages a pool has free for a ledger, its own old pages counted free. -/
def poolRoom (s : State) (i q : Nat) : Nat :=
  rd s (secB q) R.SEC_LGR_SIZE_SIZE + (getSite s i).pages - rd s (secB q) R.SEC_LGR_USED_USED

/-- R128: a write of `GLB_SITE_LCFG`: ignored while the site block runs; else it clears the site and allocates. -/
def siteLcfgWrite (s : State) (i v : Nat) : State :=
  let b := siteB i
  let form := bits v 0 2
  let xw := min 24 (bits v 2 5)
  let yw := min 24 (bits v 7 5)
  let iow := bits v 12 6
  if siteActive s i then
    if form == siteForm s i && xw == rd s b R.GLB_SITE_LCFG_XW && yw == rd s b R.GLB_SITE_LCFG_YW &&
        iow == rd s b R.GLB_SITE_LCFG_IOW then s
    else setF s b R.GLB_SITE_STAT_WR_IGN
  else
    let cap := rd s b R.GLB_SITE_CAP_CAP
    let want := ledgerPages form xw yw (iow + 1) cap
    let room := want == 0 || (!flag s glb R.HAT_HDM_STAT_BIPEND && (List.range 4).all fun q => decide (want ≤ poolRoom s i q))
    let pages := if room then want else 0
    let s1 := siteFields.foldl (fun s f => clrF s b f) (paramClear s i)
    let s2 := wr (wr (wr (wr s1 b R.GLB_SITE_LCFG_FORM (if room then form else 0)) b R.GLB_SITE_LCFG_XW xw)
      b R.GLB_SITE_LCFG_YW yw) b R.GLB_SITE_LCFG_IOW iow
    let s3 := (List.range 4).foldl (fun x q =>
      wr x (secB q) R.SEC_LGR_USED_USED (rd x (secB q) R.SEC_LGR_USED_USED - (getSite s i).pages + pages)) s2
    let s4 := putSite s3 i { getSite s i with cap := cap, parts := emptyParts, ckpt := none, repair := none, pages := pages }
    if room then s4 else setF s4 b R.GLB_SITE_STAT_NOROOM

/-- SITE_LCFG_WRITE (R128). -/
def execSiteLcfgWrite (site : SiteIx) (v : Word) (s : State) : Host.Outcome State Fault Refusal :=
  .next (barWrite s none (siteB site + 0x18) fun s => siteLcfgWrite s site v.toNat)

/-- A write of a ledger-pool register (R128, R155): ignored while any site has a ledger. -/
def lgrPoolWrite (s : State) (q r v : Nat) (who : Option Nat) : State :=
  if allSites.any fun i => siteForm s i != 0 then
    poolIgnored s q R.SEC_LGR_BASE_LO_BASE R.SEC_LGR_BASE_HI_BASE R.SEC_LGR_SIZE_SIZE r v who
  else poolStore s q R.SEC_LGR_BASE_LO_BASE R.SEC_LGR_BASE_HI_BASE R.SEC_LGR_SIZE_SIZE r v

/-- LGR_POOL_WRITE. -/
def execLgrPoolWrite (q : SectorIx) (r : Fin 3) (v : Word) (s : State) : Host.Outcome State Fault Refusal :=
  .next (barWrite s none (secB q + 0x80000 + r * 4) fun s => lgrPoolWrite s q r v.toNat none)

/-! ### Checkpoint and rollback (R127, R135) -/

/-- What a gang's arm does to an included site: `PFAIL` and `NORETEST` clear, and its checkpoint is saved. -/
def siteArm (s : State) (i : Nat) : State :=
  let b := siteB i
  let s1 := clrF (clrF s b R.GLB_SITE_STAT_PFAIL) b R.GLB_SITE_STAT_NORETEST
  let x := getSite s1 i
  putSite s1 i { x with ckpt := some ⟨rd s b R.GLB_SITE_FCNT_FCNT, siteFvec s i,
    rd64 s b R.GLB_SITE_FADDR_LO_FADDR R.GLB_SITE_FADDR_HI_FADDR, rd s b R.GLB_SITE_STAT_FAIL, rd s b R.GLB_SITE_STAT_PFAIL,
    x.parts.map (·.count)⟩ }

/-- R135: the site's journals are discarded and its checkpoint restored; `SUSPECT` clears, `RETESTED` sets. -/
def siteRollback (s : State) (i : Nat) : State :=
  let b := siteB i
  let x := getSite s i
  match x.ckpt with
  | none => s
  | some c =>
    let parts := (List.range 4).map fun q => { partOf x q with journal := [], count := c.counts.getD q 0 }
    let s1 := putSite s i { x with parts := parts }
    let s2 := wr64 (wr s1 b R.GLB_SITE_FCNT_FCNT c.fcnt) b R.GLB_SITE_FVEC_LO_FVEC R.GLB_SITE_FVEC_HI_FVEC c.fvec
    let s3 := wr64 s2 b R.GLB_SITE_FADDR_LO_FADDR R.GLB_SITE_FADDR_HI_FADDR c.faddr
    let s4 := wr (wr s3 b R.GLB_SITE_STAT_FAIL c.fail) b R.GLB_SITE_STAT_PFAIL c.pfail
    setF (clrF s4 b R.GLB_SITE_STAT_SUSPECT) b R.GLB_SITE_STAT_RETESTED

end Sys2Proof.Machine
end

