-- ==== Sys2Proof/Machine/Pattern.lean ====
section
/-! DEFINITION. Pattern images: words, tokens, loops, the checks of LOAD_PATTERN, the refill margin (R91 to R106), and
the job. -/
namespace Sys2Proof.Machine

/-! ### Pattern words (R94, R95, R97) -/

def wSym (w k : Nat) : Nat := bits w (4 * k) 4
def wFret (w : Nat) : Nat := bits w 64 4
def wVflag (w : Nat) : Bool := bit w 71
def wXop (w : Nat) : Nat := bits w 72 4
def wYop (w : Nat) : Nat := bits w 76 4
def wDop (w : Nat) : Nat := bits w 80 4
def wRepeat (w : Nat) : Nat := bits w 84 16
def wBegin (w : Nat) : Bool := bit w 100
def wEnd (w : Nat) : Bool := bit w 101
def wLcnt (w : Nat) : Nat := bits w 102 4
def wRst (w : Nat) : Bool := bit w 106

/-- A reserved field, reserved op code or reserved symbol stands in the word (R93). -/
def wordBad (w : Nat) : Bool :=
  decide (2 ^ 107 ≤ w) || decide (9 < wXop w) || decide (9 < wYop w) || decide (5 < wDop w) ||
    (List.range 16).any fun k => decide (8 < wSym w k)

/-- Replace the symbols of a word (SYMREF, R101). -/
def withSyms (w syms : Nat) : Nat := w / 2 ^ 64 * 2 ^ 64 + syms % 2 ^ 64

/-! ### Tokens (R101) -/

/-- Bytes of one item of a token kind. -/
def itemSize (kind : Nat) : Nat := if kind == 0 then 16 else if kind == 1 then 1 else 9

/-- A word of a segment's coded bytes: the word, byte offset before it, token bytes if it is a token's first, the token's
own first byte and the byte after its last. -/
structure TokWord where
  w : Nat
  off : Nat
  bytes : Nat
  t0 : Nat
  t1 : Nat
deriving DecidableEq, Repr

/-- The word of an item: its bytes and the dictionary; none for an index above NDICT. -/
def itemWord (kind : Nat) (dict : List Nat) (l : List Nat) : Option Nat :=
  if kind == 0 then some (leNat (l.take 16))
  else match dict[l.headD 0]? with
    | none => none
    | some w => some (if kind == 2 then withSyms w (leNat ((l.drop 1).take 8)) else w)

/-- The items of a token body: `none` for a bad index or a reserved code (R93). -/
def tokItems (kind : Nat) (dict : List Nat) (off t0 t1 bytes : Nat) : Nat → List Nat → Option (List TokWord)
  | 0, _ => some []
  | n + 1, l =>
    match itemWord kind dict l with
    | none => none
    | some w =>
      if wordBad w then none
      else match tokItems kind dict (off + itemSize kind) t0 t1 0 n (l.drop (itemSize kind)) with
        | none => none
        | some r => some (⟨w, if bytes == 0 then off else t0, bytes, t0, t1⟩ :: r)

/-- Decode a segment's coded bytes; `none` for any fault of R93's first row. -/
def segTokens (dict : List Nat) : Nat → Nat → List Nat → Option (List TokWord)
  | 0, _, l => if l.isEmpty then some [] else none
  | fuel + 1, off, l =>
    match l with
    | [] => some []
    | h :: body =>
      let kind := h / 64
      let n := h % 64 + 1
      let size := n * itemSize kind
      if kind == 3 || decide (body.length < size) then none
      else match tokItems kind dict (off + 1) off (off + 1 + size) (1 + size) n body, segTokens dict fuel (off + 1 + size) (body.drop size) with
        | some a, some b => some (a ++ b)
        | _, _ => none

/-! ### Loops (R93, R99, R104, R119) -/

/-- The static walk of a segment: loop stack of (BEGIN word, first vector, count, RST), vector offset, charges and
finished RESTARTABLE loops; a loop fault ends it. -/
structure Walk where
  stack : List (TokWord × Nat × Nat × Bool)
  n : Nat
  charges : List (Nat × Nat)
  rloops : List (Nat × Nat × Nat)
  bad : Bool
deriving DecidableEq, Repr

/-- One word of the walk; `half` bounds a loop body's stream bytes in a stream segment. DESIGN CHOICE (assumption 170): an END with no
open loop is at fault as a loop. -/
def walkWord (lcnt : List Nat) (half : Option Nat) (a : Walk) (x : TokWord) : Walk :=
  let a1 := if wBegin x.w then
    { a with stack := (x, a.n, lcnt.getD (wLcnt x.w) 0, wRst x.w) :: a.stack, bad := a.bad || decide (16 ≤ a.stack.length) } else a
  let a2 := { a1 with charges := if x.bytes == 0 then a1.charges else a1.charges ++ [(a.n, x.bytes)], n := a1.n + wRepeat x.w + 1 }
  if wEnd x.w then
    match a2.stack with
    | [] => { a2 with bad := true }
    | (b, st, cnt, rst) :: rest =>
      let wide := match half with
        | some h => decide (h < x.t1 - b.t0)
        | none => false
      { a2 with stack := rest, n := st + (a2.n - st) * cnt, bad := a2.bad || wide || cnt == 0,
                rloops := if rst then a2.rloops ++ [(b.off, st, (a2.n - st) * cnt)] else a2.rloops }
  else a2

/-- Walk a segment's words. -/
def walkSeg (lcnt : List Nat) (half : Option Nat) (l : List TokWord) : Walk :=
  let a := l.foldl (walkWord lcnt half) ⟨[], 0, [], [], false⟩
  { a with bad := a.bad || a.stack != [] }

/-! ### The image (R91 to R93, R105, R106) -/

def slice (img : List Nat) (off len : Nat) : List Nat := (img.drop off).take len
def leAt (img : List Nat) (off len : Nat) : Nat := leNat (slice img off len)

def imgSc96 (img : List Nat) : Bool := bit (leAt img 0 8) 24
def imgNseg (img : List Nat) : Nat := bits (leAt img 0 8) 32 12 + 1
def imgNdict (img : List Nat) : Nat := bits (leAt img 0 8) 44 8 + 1
def imgSegtab (img : List Nat) : Nat := leAt img 8 4
def imgDictOff (img : List Nat) : Nat := leAt img 12 4
def imgStream (img : List Nat) : Nat := leAt img 16 4
def imgStreamLen (img : List Nat) : Nat := leAt img 20 4
def imgResid (img : List Nat) : Nat := leAt img 24 4
def imgResidLen (img : List Nat) : Nat := leAt img 28 4
def imgTables (img : List Nat) : Nat := leAt img 32 4

/-- The dictionary words. -/
def imgDict (img : List Nat) : List Nat := (List.range (imgNdict img)).map fun i => leAt img (imgDictOff img + 16 * i) 16

/-- The sections: offset and length. -/
def imgSections (img : List Nat) : List (Nat × Nat) :=
  [(imgSegtab img, imgNseg img * 16), (imgDictOff img, imgNdict img * 16), (imgStream img, imgStreamLen img),
   (imgResid img, imgResidLen img), (imgTables img, 816)]

/-- Two byte ranges share a byte. -/
def overlap (a b : Nat × Nat) : Bool := decide (a.1 < b.1 + b.2) && decide (b.1 < a.1 + a.2) && a.2 != 0 && b.2 != 0

def anyOverlap : List (Nat × Nat) → Bool
  | [] => false
  | a :: rest => rest.any (overlap a) || anyOverlap rest

/-- The header of R91 is at fault. -/
def headerBad (img : List Nat) : Bool :=
  let h := leAt img 0 8
  decide (img.length < 64) || bits h 0 16 != 0x5C70 || bits h 16 8 != 1 ||
    leAt img 40 4 != crc32 (img.take 40 ++ [0, 0, 0, 0] ++ img.drop 44) || leAt img 44 4 != img.length ||
    decide (4093 < imgNseg img) || bits h 25 7 != 0 || bits h 52 12 != 0 || leAt img 36 4 != 0 || leAt img 48 16 != 0 ||
    (imgSections img).any (fun x => x.1 % 16 != 0 || decide (x.1 < 64) || decide (img.length < x.1 + x.2)) ||
    anyOverlap (imgSections img)

/-- A generator word, `PINFN`, `SITE_MAP` or select byte of the tables section is at fault (R92, R93). DESIGN CHOICE (assumption 171):
the bytes that the select tables leave over must be 0. -/
def tablesBad (img : List Nat) : Bool :=
  let t := fun (o n : Nat) => leAt img (imgTables img + o) n
  (List.range 6).any (fun i => decide (2 ^ 24 ≤ t (4 * i) 4)) ||
    (List.range 16).any (fun k => decide (2 ^ 8 ≤ t (0x20 + 4 * k) 4) || decide (2 ^ 9 ≤ t (0x60 + 4 * k) 4)) ||
    (List.range 24).any (fun j => [t (0xE0 + j) 1, t (0x100 + j) 1].any fun b => bits b 5 2 != 0 || decide (23 < bits b 0 5)) ||
    (List.range 12).any (fun j => decide (47 < t (0x120 + j) 1)) || decide (1 < t 0x12C 1) ||
    t 0xF8 8 != 0 || t 0x118 8 != 0 || t 0x12D 3 != 0

/-- Loop counts of the tables section. -/
def imgLcnt (img : List Nat) : List Nat := (List.range 16).map fun i => leAt img (imgTables img + 0xA0 + 4 * i) 4

/-- Words of segment i of the image, if its entry and its coded bytes have no fault of R93's first row. -/
def imgSegWords (img : List Nat) (i : Nat) : Option (List TokWord) :=
  let e0 := leAt img (imgSegtab img + 16 * i) 8
  let e1 := leAt img (imgSegtab img + 16 * i + 8) 8
  let off := bits e1 0 32
  let coded := bits e1 32 32
  let sec := if bit e0 0 then (imgResid img, imgResidLen img) else (imgStream img, imgStreamLen img)
  if bits e0 10 2 != 0 || decide (imgNdict img ≤ bits e0 24 8) || bits e0 32 32 == 0 || decide (sec.2 < off + coded) then none
  else segTokens (imgDict img) coded off (slice img (sec.1 + off) coded)

/-- Segment i with its walk. -/
def imgSeg (img : List Nat) (i : Nat) (ws : List TokWord) : Seg × Walk :=
  let e0 := leAt img (imgSegtab img + 16 * i) 8
  let e1 := leAt img (imgSegtab img + 16 * i + 8) 8
  let half := if bit e0 0 then none else some ((65536 - imgResidLen img) / 2)
  let a := walkSeg (imgLcnt img) half ws
  (⟨bit e0 0, bit e0 1, bits e0 2 8, bits e0 12 12, bits e0 24 8, bits e0 32 32, bits e1 0 32, bits e1 32 32, a.charges, a.rloops⟩, a)

/-- R106: stream segments in table order. -/
def streamOrder : Nat → List Seg → Bool
  | _, [] => true
  | e, x :: rest => if x.resident then streamOrder e rest else decide (e ≤ x.off) && streamOrder (x.off + x.coded) rest

/-- R106: a segment's NEXT is allowed. -/
def nextOk (segs : List Seg) (x : Seg) : Bool :=
  if x.nxt == 0xFFF then true
  else if x.nxt == 0xFFD then !x.resident
  else if x.nxt == 0xFFE then x.resident
  else match segs[x.nxt]? with
    | some y => y.resident
    | none => false

/-- All segments of an image, if none has a fault of R93's first row before LEN. -/
def imgSegs (img : List Nat) : Option (List (Seg × Walk)) :=
  (List.range (imgNseg img)).foldr (fun i acc => match imgSegWords img i, acc with
    | some ws, some l => some (imgSeg img i ws :: l)
    | _, _ => none) (some [])

/-- R93: the status of the first row that any fault lies in. -/
def imageStatus (img : List Nat) : Option Nat :=
  if headerBad img || (imgDict img).any wordBad || tablesBad img then some 0x0110
  else match imgSegs img with
    | none => some 0x0110
    | some l =>
      if l.any (fun x => !x.2.bad && x.2.n != x.1.len) then some 0x0110
      else if imgSc96 img && l.any (fun x => x.1.len % 32 != 0 || decide (x.1.len < 256)) then some 0x0111
      else if l.any (fun x => x.2.bad) || (imgLcnt img).any (· == 0) then some 0x0112
      else if decide (49152 < imgResidLen img) || !streamOrder 0 (l.map (·.1)) || !(l.map (·.1)).all (nextOk (l.map (·.1))) then
        some 0x0113
      else none

/-! ### Segment order (R106) -/

/-- The first stream segment at or after index i. -/
def streamFrom (segs : List Seg) (i : Nat) : Option Nat :=
  (List.range segs.length).find? fun j => decide (i ≤ j) && !(segs.getD j ⟨true, false, 0, 0, 0, 0, 0, 0, [], []⟩).resident

/-- What NEXT names after segment `seg`; `last` is the last stream segment run; none is END. -/
def nextSeg (segs : List Seg) (seg : Nat) (last : Option Nat) : Option Nat :=
  match segs[seg]? with
  | none => none
  | some x =>
    if x.nxt == 0xFFF then none
    else if x.nxt == 0xFFD then streamFrom segs (seg + 1)
    else if x.nxt == 0xFFE then streamFrom segs (match last with
      | some l => l + 1
      | none => 0)
    else some x.nxt

/-! ### Refill margin (R104) -/

/-- Charges of the default order: vector offset and bytes; dead time between segments; a resident cycle ends it. -/
def orderCharges (segs : List Seg) (dead : Nat) : Nat → Nat → Option Nat → Int → List (Int × Nat)
  | 0, _, _, _ => []
  | fuel + 1, seg, last, at_ =>
    match segs[seg]? with
    | none => []
    | some x =>
      let own := if x.resident then [] else x.charges.map fun c => (at_ + c.1, c.2)
      let last1 := if x.resident then last else some seg
      own ++ match nextSeg segs seg last1 with
        | none => []
        | some n => orderCharges segs dead fuel n last1 (at_ + x.len + dead)

/-- Margin state: occupancy and least occupancy, scaled by D, and the next step. -/
structure MarginSt where
  occ : Int
  least : Int
  nxt : Nat
deriving DecidableEq, Repr

/-- Steps of 64 vectors between charges refill `amt` each from step j0 on, up to `cap` (all scaled). -/
def marginStep (cap amt : Int) (j0 : Nat) (a : MarginSt) (e : Nat × Nat) (dScale : Int) : MarginSt :=
  let gaps : Nat := e.1 - max a.nxt j0
  let o1 := if gaps = 0 then a.occ else min cap (a.occ + gaps * amt)
  let o2 := o1 - e.2 * dScale
  ⟨if j0 ≤ e.1 then min cap (o2 + amt) else o2, min a.least o2, e.1 + 1⟩

/-- Bytes per step, ascending, from charges at vector 0 or later. -/
def stepBytes (l : List (Int × Nat)) : Map Nat :=
  l.foldl (fun m c => if c.1 < 0 then m else
    let j := c.1.toNat / 64
    mapPut m j (mapGet m j 0 + c.2)) []

/-- R104: the margin in whole bytes, rounded down: stream area S, starting occupancy, rate in bytes per second, latency in
2^-16 ns, tuning word. -/
def marginOf (charges : List (Int × Nat)) (sArea occ0 rate lat ftw : Nat) : Int :=
  let f := max ftw 1
  let dScale : Int := (f * 65536 * 1000000000 : Nat)
  let amt : Int := (rate * 64 * 2 ^ 63 : Nat)
  let j0 := (lat * f + 64 * 2 ^ 63 - 1) / (64 * 2 ^ 63)
  let cap : Int := sArea * dScale
  let o : Int := (min occ0 sArea : Nat) * dScale
  ((stepBytes charges).foldl (fun a e => marginStep cap amt j0 a e dScale) ⟨o, o, 0⟩).least / dScale

/-- Latency of a refill source (R103), in 2^-16 ns. -/
def srcLatency (src : StreamSrc) : Nat :=
  match src with
  | .home _ => nsec 1000
  | .host .. => nsec 5000

/-- The stream area S (R102). -/
def streamArea (p : Pattern) : Nat := 65536 - p.resid.length

/-- Dead time of a pattern (R108). -/
def deadTime (p : Pattern) : Nat := if p.sc96 then 0 else 4

/-- Turns that the default order can take before a resident cycle: between two stream segments it meets each resident one once
at most. -/
def orderFuel (p : Pattern) : Nat := (p.segs.length + 1) ^ 2

/-- The margin of a loaded pattern from its start. -/
def patternMargin (p : Pattern) (ftw : Nat) : Int :=
  marginOf (orderCharges p.segs (deadTime p) (orderFuel p) 0 none 0) (streamArea p) (streamArea p) p.rate (srcLatency p.src) ftw

/-! ### LOAD_PATTERN (R93, R102, R284) -/

/-- A table entry of the job: image address, length, tile, SRC, rate in units of 1/16 GB/s, reserved bits. -/
structure LoadEntry where
  va : Nat
  len : Nat
  tile : Nat
  host : Bool
  rate : Nat
  bad : Bool
deriving DecidableEq, Repr

def loadEntry (l : List Nat) : LoadEntry :=
  let w := leNat ((l.drop 8).take 8)
  ⟨leNat (l.take 8), bits w 0 32, bits w 32 6, bit w 40, bits w 48 7,
   bits w 38 2 != 0 || bits w 41 7 != 0 || bits w 55 9 != 0 || leNat (l.take 8) == 0⟩

def loadEntries : Nat → List Nat → List LoadEntry
  | 0, _ => []
  | n + 1, l => loadEntry l :: loadEntries n (l.drop 16)

/-- The pattern of a checked image. -/
def patternOf (s : State) (x : Job) (e : LoadEntry) (img : List Nat) : Pattern :=
  let tb := fun (o n : Nat) => slice img (imgTables img + o) n
  let stream := slice img (imgStream img) (imgStreamLen img)
  ⟨imgSc96 img, imgDict img, ((imgSegs img).getD []).map (·.1), slice img (imgResid img) (imgResidLen img), imgStreamLen img,
   if e.host then .host (e.va + imgStream img) (jobPv s x) (jobPasid s x) x.ctx else .home stream,
   if e.host then e.rate * 62500000 else 8000000000,
   tb 0xE0 24, tb 0x100 24, tb 0x120 12, (tb 0x12C 1).headD 0 == 1, tb 0x130 512⟩

/-- Registers that the tables section loads (R92), each as its register stores it. -/
def loadTables (s : State) (t : Nat) (img : List Nat) : State :=
  let b := tileB t
  let w := fun (o : Nat) => leAt img (imgTables img + o) 4
  let xm := w 0
  let ym := w 4
  let s1 := wr (wr (wr (wr s b R.TIL_SEQ_XMAX_VAL xm) b R.TIL_SEQ_YMAX_VAL ym) b R.TIL_SEQ_XSTRIDE_VAL (min xm (w 8)))
    b R.TIL_SEQ_YSTRIDE_VAL (min ym (w 12))
  let s2 := wr (wr (wr (wr s1 b R.TIL_SEQ_XBASE_VAL (min xm (w 16))) b R.TIL_SEQ_YBASE_VAL (min ym (w 20))) b R.TIL_SEQ_DATA_A_VAL (w 24))
    b R.TIL_SEQ_DATA_B_VAL (w 28)
  (List.range 16).foldl (fun s k =>
    let pf := w (0x20 + 4 * k)
    let src := bits pf 0 2
    let pb := if (src == 1 || src == 2) && decide (23 < bits pf 2 5) then 23 else bits pf 2 5
    let sm := w (0x60 + 4 * k)
    let s3 := wri (wri (wri s b R.TIL_SEQ_PINFN_SRC k src) b R.TIL_SEQ_PINFN_BIT k pb) b R.TIL_SEQ_PINFN_INV k (bits pf 7 1)
    wri (wri (wri s3 b R.TIL_SITE_MAP_SITE k (bits sm 0 8)) b R.TIL_SITE_MAP_V k (bits sm 8 1)) b R.TIL_SEQ_LCNT_COUNT k (w (0xA0 + 4 * k))) s2

/-- The tile's sequencer takes the pattern: LOADED, tables and resident area loaded, margin computed. -/
def loadTile (s : State) (x : Job) (e : LoadEntry) (img : List Nat) : State :=
  let b := tileB e.tile
  let p := patternOf s x e img
  let m := patternMargin p (rd64 s b R.TIL_VCLK_FTW_LO_FTW R.TIL_VCLK_FTW_HI_FTW)
  let s1 := wr (wr (setSeqState (loadTables s e.tile img) e.tile 1) b R.TIL_SEQ_STAT_SC96 (b2n p.sc96))
    b R.TIL_SEQ_RESSZ_RES p.resid.length
  let s2 := updTile (wr (wr s1 b R.TIL_SEQ_MARGIN_MARGIN (unsigned 32 m)) b R.TIL_SEQ_FILL_OCC 0) e.tile fun y =>
    { y with pat := some p, fifo := [], released := 0, delivered := 0, okLoops := [] }
  if m < (rd s b R.TIL_SEQ_RFTH_TH : Nat) then setF s2 b R.TIL_SEQ_STAT_MARGIN_LOW else s2

/-- Stream bytes a tile keeps in its sector's pattern area. -/
def homeBytes (p : Option Pattern) : Nat :=
  match p with
  | some p => match p.src with
    | .home l => l.length
    | .host .. => 0
  | none => 0

/-- R284, R315: the pattern area of sector q lacks room for the streams a job places there. -/
def areaShort (s : State) (q : Nat) (es : List (LoadEntry × List Nat)) : Bool :=
  let kept := (tilesOfSector q).filter fun t => !es.any fun e => e.1.tile == t
  let old := (kept.map fun t => homeBytes (getTile s t).pat).foldl (· + ·) 0
  let new := ((es.filter fun e => sectorOf e.1.tile == q && !e.1.host).map fun e => imgStreamLen e.2).foldl (· + ·) 0
  Nat.blt 0x8000000 (old + new)

/-- A tile that a load or an arm would disturb: ARMED, RUN or HOLD, or waiting for its re-run (R90, R135). -/
def tileBusy (s : State) (t : Nat) : Bool := tileLive s t || (getTile s t).gang.isSome

/-- The read rate a tile's pattern reserves, in units of 1/16 GB/s (R301). -/
def tileRate (s : State) (t : Nat) : Nat :=
  match (getTile s t).pat with
  | some p => match p.src with
    | .host .. => p.rate / 62500000
    | .home _ => 0
  | none => 0

/-- The rate a real-time context reserves (R297, R301). -/
def ctxRate (s : State) (k : Nat) (isWr : Bool) : Nat :=
  if isRt k && (flag s (ctxB k) R.XLT_CTX_CFG_EN || flag s (ctxB k) R.XLT_CTX_STAT_PBUSY) then
    rd s (ctxB k) (if isWr then R.XLT_CTX_RATE_WR else R.XLT_CTX_RATE_RD)
  else 0

/-- The reserved rate of a direction (R301). -/
def reserved (s : State) (isWr : Bool) : Nat :=
  ((List.range 64).map fun k => ctxRate s k isWr).foldl (· + ·) 0 +
    (if isWr then 0 else (allTiles.map (tileRate s)).foldl (· + ·) 0)

/-- The reads that a LOAD_PATTERN would reserve break the sum (R301). -/
def rateShort (s : State) (es : List LoadEntry) : Bool :=
  let old := (es.map fun e => tileRate s e.tile).foldl (· + ·) 0
  let new := (es.map fun e => if e.host then e.rate else 0).foldl (· + ·) 0
  decide (384 < reserved s false + new - old)

/-- The job's check and effect once table and images are at hand. -/
def loadPatterns (s : State) (j : Nat) (x : Job) (es : List (LoadEntry × List Nat)) : State :=
  if es.any (fun e => tileBusy s e.1.tile) then endJob s j 0x0313 0 0 0
  else match es.findSome? fun e => imageStatus e.2 with
    | some st => endJob s j st 0 0 0
    | none =>
      if (List.range 4).any fun q => areaShort s q es then endJob s j 0x0103 0 0 0
      else if rateShort s (es.map (·.1)) then endJob s j 0x0207 0 0 0
      else
        let s1 := es.foldl (fun s e => loadTile s x e.1 e.2) s
        let ms := es.map fun e => signed 32 (rd s1 (tileB e.1.tile) R.TIL_SEQ_MARGIN_MARGIN)
        let low := (es.filter fun e => decide (signed 32 (rd s1 (tileB e.1.tile) R.TIL_SEQ_MARGIN_MARGIN) <
          (rd s1 (tileB e.1.tile) R.TIL_SEQ_RFTH_TH : Nat))).map fun e => e.1.tile
        endJob s1 j (if low == [] then 0 else 0x0010) (unsigned 64 (minInt ms)) (bitsMask low) 0

/-- Gather the images of the entries, then go on. -/
def gatherImages (s : State) (j : Nat) (k : List (LoadEntry × List Nat) → State) : List LoadEntry → List (LoadEntry × List Nat) → State
  | [], acc => k acc
  | e :: rest, acc => needBytes s j e.va e.len fun img => gatherImages s j k rest (acc ++ [(e, img)])

/-- LOAD_PATTERN (R93), of 1 to 48 entries (R284). -/
def execLoadPattern (j : Nat) (s : State) : Host.Outcome State Fault Refusal :=
  match jobReady s j 0x10 with
  | none => .next s
  | some x =>
    let n := bits (arg x 1) 0 6 + 1
    if 48 < n then .next (endJob s j 0x0101 0 0 0)
    else .next (needBytes s j (arg x 0) (16 * n) fun l =>
      let es := loadEntries n l
      if es.any (fun e => e.bad || decide (47 < e.tile) || (e.host && (decide (e.rate < 8) || decide (64 < e.rate)))) then
        endJob s j 0x0101 0 0 0
      else gatherImages s j (loadPatterns s j x) es [])

end Sys2Proof.Machine
end

