-- ==== Sys2Proof/Machine/Sequencer.lean ====
section
/-! DEFINITION. The vector unit and the gang: generators, words from the FIFO, prefill and start, segments, holds, jumps,
aborts, underrun and restart, the end sequence, the retest, and VECTOR_BOUNDARY (R65, R90, R96 to R120, R135). -/
namespace Sys2Proof.Machine

/-! ### Generators (R96 to R98) -/

/-- R97: an X or Y op: the new value, and whether it wrapped; `other` says that the other generator wrapped. DESIGN CHOICE
(assumption 172): a reserved code, met in a stream that the host delivers, acts as HOLD. -/
def genOp (op v max_ stride base : Nat) (other : Bool) : Nat × Bool :=
  let m := max_ + 1
  let inc := fun (d : Nat) => ((v + d) % m, decide (max_ < v + d))
  let dec := fun (d : Nat) => ((v + m - d % m) % m, decide (v < d))
  match op with
  | 1 => inc 1
  | 2 => dec 1
  | 3 => inc stride
  | 4 => dec stride
  | 5 => (0, false)
  | 6 => (base, false)
  | 7 => (max_, false)
  | 8 => if other then inc 1 else (v, false)
  | 9 => if other then dec 1 else (v, false)
  | _ => (v, false)

/-- R97: a data op on the 32-bit word; a reserved code acts as HOLD (DESIGN CHOICE, assumption 172). -/
def dataOp (op d a b : Nat) : Nat :=
  match op with
  | 1 => d ^^^ 0xFFFFFFFF
  | 2 => a
  | 3 => b
  | 4 => (d * 2 + d / 2 ^ 31) % 2 ^ 32
  | 5 => d / 2 + d % 2 * 2 ^ 31
  | _ => d

/-- R97: apply a word's ops: X, then Y, then data; the Y-wrap flag is renewed. -/
def applyOps (s : State) (t w : Nat) : State :=
  let b := tileB t
  let x := genOp (wXop w) (rd s b R.TIL_SEQ_X_VAL) (rd s b R.TIL_SEQ_XMAX_VAL) (rd s b R.TIL_SEQ_XSTRIDE_VAL)
    (rd s b R.TIL_SEQ_XBASE_VAL) (getTile s t).yw
  let y := genOp (wYop w) (rd s b R.TIL_SEQ_Y_VAL) (rd s b R.TIL_SEQ_YMAX_VAL) (rd s b R.TIL_SEQ_YSTRIDE_VAL)
    (rd s b R.TIL_SEQ_YBASE_VAL) x.2
  let d := dataOp (wDop w) (rd s b R.TIL_SEQ_D_VAL) (rd s b R.TIL_SEQ_DATA_A_VAL) (rd s b R.TIL_SEQ_DATA_B_VAL)
  updTile (wr (wr (wr s b R.TIL_SEQ_X_VAL x.1) b R.TIL_SEQ_Y_VAL y.1) b R.TIL_SEQ_D_VAL d) t fun z => { z with yw := y.2 }

/-- R98: physical address bits from a logical address and its select bytes. -/
def physAddr (v : Nat) (sel : List Nat) : Nat :=
  (sel.foldr (fun c (a : Nat) => 2 * a + b2n (bit v (c % 32) != bit c 7)) 0)

/-- R98: the data word after the scramble. -/
def scrambled (p : Pattern) (px py d : Nat) : Nat :=
  if p.scramble then
    let i := p.dsel.foldr (fun c (a : Nat) => 2 * a + b2n (if c % 64 < 24 then bit px (c % 64) else bit py (c % 64 - 24))) 0
    if bit (p.dtab.getD (i / 8) 0) (i % 8) then d ^^^ 0xFFFFFFFF else d
  else d

/-- R96: the APG bit of position k. -/
def apgBit (s : State) (t k px py d : Nat) : Bool :=
  let b := tileB t
  let i := rdi s b R.TIL_SEQ_PINFN_BIT k
  let v := match rdi s b R.TIL_SEQ_PINFN_SRC k with
    | 1 => bit px i
    | 2 => bit py i
    | 3 => bit d i
    | _ => false
  v != (rdi s b R.TIL_SEQ_PINFN_INV k == 1)

/-- A vector with the address and data in force. -/
def makeVec (s : State) (t w : Nat) (p : Pattern) (hold first : Bool) : Vec :=
  let px := physAddr (rd s (tileB t) R.TIL_SEQ_X_VAL) p.xsel
  let py := physAddr (rd s (tileB t) R.TIL_SEQ_Y_VAL) p.ysel
  ⟨w, hold, px, py, scrambled p px py (rd s (tileB t) R.TIL_SEQ_D_VAL), first⟩

def noSeg : Seg := ⟨true, false, 0, 0xFFF, 0, 0, 0, 0, [], []⟩
def segOf (p : Pattern) (i : Nat) : Seg := p.segs.getD i noSeg

/-- R107: the hold vector of a segment: only SYM and FRET of its dictionary word. -/
def holdVec (s : State) (t seg : Nat) : Vec :=
  match (getTile s t).pat with
  | none => ⟨0x6666666666666666, true, 0, 0, 0, false⟩
  | some p => makeVec s t (p.dict.getD (segOf p seg).hold 0 % 2 ^ 68) p true false

/-! ### Words from the FIFO (R99 to R102) -/

inductive Fetch
  | ok (w : Nat) (pos : Pos)
  | under
  | bad
deriving DecidableEq, Repr

/-- Bytes of the segment's section at an offset: resident area, or the stream area if they have been delivered. -/
def sectionBytes (x : Tile) (p : Pattern) (resident : Bool) (off n : Nat) : Option (List Nat) :=
  let l := if resident then slice p.resid off n else slice x.fifo (off - x.released) n
  if l.length == n && (resident || decide (x.released ≤ off)) then some l else none

/-- Decode the next word at the read position. -/
def nextWord (x : Tile) (p : Pattern) (seg : Nat) : Fetch :=
  let r := (segOf p seg).resident
  let item := fun (q : Pos) =>
    match sectionBytes x p r q.off (itemSize q.kind) with
    | none => Fetch.under
    | some l => match itemWord q.kind p.dict l with
      | none => Fetch.bad
      | some w => Fetch.ok w ⟨q.off + itemSize q.kind, q.kind, q.left - 1⟩
  if x.pos.left == 0 then
    match sectionBytes x p r x.pos.off 1 with
    | none => .under
    | some l =>
      let h := l.headD 0
      if h / 64 == 3 then .bad else item ⟨x.pos.off + 1, h / 64, h % 64 + 1⟩
  else item x.pos

/-- What the tile's next emission needs is at hand. -/
def peekTile (s : State) (t seg : Nat) : Fetch :=
  let x := getTile s t
  match x.pat with
  | none => .bad
  | some p => match x.cur with
    | some w => .ok w x.pos
    | none => nextWord x p seg

/-- Free the stream bytes that no loop on the stack keeps (R100). -/
def releaseBytes (x : Tile) (resident : Bool) : Tile :=
  if resident then x
  else
    let keep := match x.loops.getLast? with
      | some e => e.at_.off
      | none => x.pos.off
    let n := min (keep - x.released) x.fifo.length
    { x with released := x.released + n, fifo := x.fifo.drop n }

/-- Occupancy of the stream area: bytes delivered and not yet read (R119). -/
def streamOcc (x : Tile) : Nat := x.delivered - x.mark

/-- Show depth, counts left and occupancy in the tile's registers. -/
def showTile (s : State) (t : Nat) : State :=
  let b := tileB t
  let x := getTile s t
  let l := x.loops.reverse
  let s1 := wr (wr s b R.TIL_SEQ_STAT_DEPTH l.length) b R.TIL_SEQ_FILL_OCC (streamOcc x)
  (List.range 16).foldl (fun s i => wri s b R.TIL_SEQ_LOOP_LEFT i (match l[i]? with
    | some e => e.count
    | none => 0)) s1

/-- Begin a word at its first emission: read it, and push its loop unless this pass returns to it (R99). -/
def beginWord (s : State) (t seg emitted w : Nat) (pos : Pos) : State :=
  let b := tileB t
  let x := getTile s t
  let r := ((x.pat.map fun p => (segOf p seg).resident).getD true)
  let again := match x.loops with
    | e :: _ => e.at_ == x.pos
    | [] => false
  let n := rdi s b R.TIL_SEQ_LCNT_COUNT (wLcnt w)
  let e : LoopE := ⟨x.pos, n, n, wRst w, wRst w && x.okLoops.contains (seg, x.pos.off), rd s b R.TIL_SEQ_X_VAL,
    rd s b R.TIL_SEQ_Y_VAL, rd s b R.TIL_SEQ_D_VAL, x.yw, emitted⟩
  let loops := if wBegin w && !again then e :: x.loops else x.loops
  putTile s t (releaseBytes { x with pos := pos, cur := some w, repLeft := wRepeat w, loops := loops,
                                     mark := if r then x.mark else max x.mark pos.off } r)

/-- Finish a word: its ops, then the end of a loop pass (R97, R99). -/
def finishWord (s : State) (t w : Nat) : State :=
  let s1 := applyOps s t w
  let x := getTile s1 t
  if wEnd w then
    match x.loops with
    | [] => putTile s1 t { x with cur := none }
    | e :: rest =>
      if e.count ≤ 1 then putTile s1 t { x with cur := none, loops := rest }
      else putTile s1 t { x with cur := none, loops := { e with count := e.count - 1 } :: rest, pos := e.at_ }
  else putTile s1 t { x with cur := none }

/-- Emit one vector of a tile into the pin-die buffer as vector n. -/
def emitTile (s : State) (t seg emitted n : Nat) : State :=
  match peekTile s t seg, (getTile s t).pat with
  | .ok w pos, some p =>
    let first := (getTile s t).cur.isNone
    let s1 := if first then beginWord s t seg emitted w pos else s
    let v := makeVec s1 t w p false first
    let x := getTile s1 t
    let s2 := putTile s1 t { x with vbuf := x.vbuf ++ [(n, v)], repLeft := x.repLeft - 1 }
    showTile (if x.repLeft == 0 then finishWord s2 t w else s2) t
  | _, _ => s

/-- Emit a hold vector in every tile of the gang as vector n. -/
def emitHold (s : State) (tiles : List Nat) (seg n : Nat) : State :=
  tiles.foldl (fun s t => updTile s t fun x => { x with vbuf := x.vbuf ++ [(n, holdVec s t seg)] }) s

/-! ### Latching requests (R112) -/

def leaderOf (g : Gang) : Nat := g.tiles.headD 0

/-- The vector m at whose boundary a request that arrives now latches: Ns before the start vector's boundary. While Ns is not
known, a request waits for it with m = 0 (`latchFromNs`). -/
def latchAt (s : State) (g : Gang) : Nat :=
  let l := leaderOf g
  match g.ns with
  | some n => max (max (getTile s l).nextVec (lawNext (lawOf s l) s.now)) n
  | none => 0

/-- The latch vector n_r = m + Λ of a request that arrives now. -/
def latchVec (s : State) (g : Gang) : Nat := latchAt s g + rd s (tileB (leaderOf g)) R.TIL_SEQ_LAMBDA_LAMBDA

/-- Ns of an ARMED gang is known or has moved: the requests that reached it latch at Ns. -/
def latchFromNs (s : State) (g : Gang) (n : Nat) : Gang :=
  let nr := n + rd s (tileB (leaderOf g)) R.TIL_SEQ_LAMBDA_LAMBDA
  { g with ns := some n, genNext := n, holds := g.holds.map (fun r => { r with nr := nr }), jumps := g.jumps.map fun r => { r with nr := nr } }

/-! ### Withdrawing vectors already sent (R112, R114) -/

/-- The vectors from n on leave the pin dies' buffers of the gang's tiles. -/
def cutTiles (s : State) (g : Gang) (n : Nat) : State :=
  g.tiles.foldl (fun s t => updTile s t fun x => { x with vbuf := x.vbuf.filter fun v => decide (v.1 < n) }) s

/-- What was to happen at the balls from vector n on is withdrawn, and n is generated anew. -/
def cutGang (g : Gang) (n : Nat) : Gang := { g with genNext := min g.genNext n, evs := g.evs.filter fun e => decide (e.1 < n) }

/-- The segment in force at the balls just before vector n. -/
def segBefore (s : State) (g : Gang) (n : Nat) : Nat :=
  g.evs.foldl (fun a e => match e.2 with
    | .start seg => if e.1 < n then seg else a
    | _ => a) (rd s (tileB (leaderOf g)) R.TIL_SEQ_STAT_SEG)

/-! ### The generator: boundaries, jumps, holds, underrun (R106, R108, R113, R115 to R119) -/

/-- The pattern of the leader, whose segment table every tile of the gang shares (R110). -/
def leaderPat (s : State) (g : Gang) : Option Pattern := (getTile s (leaderOf g)).pat

/-- The gang's end sequence begins at vector n (R114, R115). -/
def beginEnd (g : Gang) (n st : Nat) : Gang := { g with phase := .ending 4, stopAt := n, status := st, abort := none }

/-- The end of the gang at vector n, from which on vectors may have been generated (R114). -/
def gangCut (s : State) (l : Nat) (g : Gang) (n st : Nat) : State :=
  putGang (cutTiles s g n) l (beginEnd { cutGang g n with seg := segBefore s g n } n st)

/-- The end sequence of the gang begins at vector n or before it. -/
def endsBy (g : Gang) (n : Nat) : Bool :=
  match g.phase with
  | .ending _ => decide (g.stopAt ≤ n)
  | .over => decide (g.stopAt ≤ n)
  | _ => false

/-- Segment `seg` starts at vector n in every tile. -/
def genStart (s : State) (l : Nat) (g : Gang) (seg n : Nat) : State :=
  let res := match leaderPat s g with
    | some p => (segOf p seg).resident
    | none => true
  let g1 := { g with phase := .seg, seg := seg, segStart := n, emitted := 0, lastStream := if res then g.lastStream else some seg,
                     evs := g.evs ++ [(n, .start seg)] }
  g.tiles.foldl (fun s t => updTile s t fun x =>
    let o := (x.pat.map fun p => (segOf p seg).off).getD 0
    releaseBytes { x with pos := ⟨o, 0, 0⟩, cur := none, repLeft := 0, loops := [], mark := if res then x.mark else max x.mark o } res)
    (putGang s l g1)

/-- R117: requests due at boundary B and those kept, which a boundary at or after their n_r makes due at the next one. -/
def dueJumps (l : List JumpReq) (b : Nat) : List JumpReq := l.filter fun r => r.passed || decide (r.nr + 8 ≤ b)
def keptJumps (l : List JumpReq) (b : Nat) : List JumpReq :=
  (l.filter fun r => !(r.passed || decide (r.nr + 8 ≤ b))).map fun r => { r with passed := decide (r.nr ≤ b) }
def dueHolds (l : List HoldReq) (b : Nat) : List HoldReq := l.filter fun r => r.passed || decide (r.nr + 8 ≤ b)
def keptHolds (l : List HoldReq) (b : Nat) : List HoldReq :=
  (l.filter fun r => !(r.passed || decide (r.nr + 8 ≤ b))).map fun r => { r with passed := decide (r.nr ≤ b) }

/-- R117: the latest latch replaces; at one vector the lower rank wins; a later request of one rank replaces. -/
def bestJump (l : List JumpReq) : Option JumpReq :=
  l.foldl (fun (a : Option JumpReq) r => match a with
    | none => some r
    | some b => if b.nr < r.nr ∨ (b.nr = r.nr ∧ r.rank ≤ b.rank) then some r else some b) none

/-- What follows a segment boundary: a code of a segment, or END (0xFFF). -/
def boundaryNext (s : State) (g : Gang) (b : Nat) : Nat :=
  match bestJump (dueJumps g.jumps b) with
  | some r => r.target
  | none => match leaderPat s g with
    | none => 0xFFF
    | some p => (nextSeg p.segs g.seg g.lastStream).getD 0xFFF

/-- The decision at segment boundary B: hold, end, or the next segment after the dead time. -/
def genBoundary (s : State) (l : Nat) (g : Gang) (b : Nat) : State :=
  let nxt := boundaryNext s g b
  let h := dueHolds g.holds b
  let host := h.any fun r => !r.thm
  let thm := h.any (·.thm)
  let g1 := { g with jumps := keptJumps g.jumps b, holds := keptHolds g.holds b, evs := g.evs ++ [(b, .end_ g.seg host thm)] }
  if !h.isEmpty then putGang s l { g1 with phase := .held nxt, resume := none }
  else if nxt == 0xFFF then putGang s l (beginEnd g1 b 0)
  else if (leaderPat s g).any (·.sc96) then genStart s l g1 nxt b
  else putGang s l { g1 with phase := .dead 4 nxt }

/-- The stack from its innermost restartable loop on, of those that began with one of the segment's first m + 1 vectors (R119). -/
def restartStack (x : Tile) (m : Nat) : List LoopE := x.loops.dropWhile fun e => !e.ok || decide (m < e.emitted)

/-- The restart of an innermost restartable loop in one tile (R119). -/
def restartTile (m : Nat) (s : State) (t : Nat) : State :=
  let b := tileB t
  let x := getTile s t
  match restartStack x m with
  | [] => s
  | e :: rest =>
    let s1 := wr (wr (wr s b R.TIL_SEQ_X_VAL e.x) b R.TIL_SEQ_Y_VAL e.y) b R.TIL_SEQ_D_VAL e.d
    showTile (putTile s1 t { x with loops := { e with count := e.full } :: rest, pos := e.at_, cur := none, repLeft := 0, yw := e.yw }) t

/-- The innermost restartable loop of the gang, if any: vectors emitted of the segment when it began. -/
def restartPoint (s : State) (g : Gang) (m : Nat) : Option Nat := (restartStack (getTile s (leaderOf g)) m).head?.map (·.emitted)

/-- R119: the condition for leaving an underrun hold, in every tile. -/
def refillMet (s : State) (g : Gang) : Bool :=
  g.tiles.all fun t =>
    let x := getTile s t
    match x.pat with
    | none => true
    | some p => decide (rd s (tileB t) R.TIL_SEQ_RFTH_TH ≤ streamOcc x) || decide (p.streamLen ≤ x.delivered) ||
        decide (streamArea p ≤ x.fifo.length)

/-- Emission takes up again at vector r: hold vectors from r on that were generated ahead are withdrawn. -/
def resumeCut (s : State) (l : Nat) (g : Gang) (r : Nat) : State := putGang (cutTiles s g r) l (cutGang g r)

/-- When the threshold is met the condition latches as a request, once. -/
def tryRestart (s : State) (l : Nat) : State :=
  match getGang? s l with
  | some g => if g.phase == .under && g.restart.isNone && refillMet s g then
      resumeCut s l { g with restart := some (latchVec s g + 8) } (latchVec s g + 8) else s
  | none => s

/-- R118: the marks of an underrun: in every tile of the gang, and on its sites. -/
def underrunMarks (s : State) (g : Gang) : State :=
  flagSites (g.tiles.foldl (fun s t =>
    raiseRole (incF (setF s (tileB t) R.TIL_SEQ_STAT_STARVED) (tileB t) R.TIL_SEQ_UNDERCNT_UNDERCNT) 1 t 3) s) g.sites R.GLB_SITE_STAT_STARVED

/-- R118, R119: an underrun at vector n of a segment of which m vectors come before it: hold vectors from it on, sites STARVED,
a restart or the end. -/
def underrun (s : State) (l : Nat) (g : Gang) (n m : Nat) : State :=
  let s2 := underrunMarks s g
  let g1 := { g with anyStarved := true }
  match restartPoint s2 g1 m with
  | none => putGang s2 l (beginEnd g1 n 0x0311)
  | some e =>
    tryRestart (putGang (g.tiles.foldl (restartTile m) s2) l
      { g1 with phase := .under, emitted := e, restart := none, evs := g1.evs ++ [(n, .under)] }) l

/-- R23, R25: vector n of tile t was lost on its lane before it reached the balls: the underrun rules apply to the whole gang at
n, whose later vectors are withdrawn. Where the gang has met a segment boundary since n, no loop is left to restart. -/
def laneUnderrun (s : State) (t n : Nat) : State :=
  match gangOf s t with
  | none => s
  | some (l, g) =>
    if (getTile s t).vbuf.any fun v => v.1 == n && !v.2.hold then
      if g.phase == .seg && !g.evs.any fun e => decide (n ≤ e.1) then
        let g1 := cutGang g n
        underrun (putGang (cutTiles s g n) l g1) l g1 n (g.emitted - (g.genNext - n))
      else gangCut (underrunMarks s g) l { g with anyStarved := true } n 0x0311
    else s

/-- The turn of a phase that no abort cuts; `go` takes the next turn. DESIGN CHOICE (assumption 173): an abort with ST_SEQ_DECODE ends
the gang at the vector whose word cannot be decoded. -/
def genTurnPhase (go : State → State) (s : State) (l : Nat) (g : Gang) (n len : Nat) (ph : GenPhase) : State :=
  match ph with
  | .seg => if len ≤ g.emitted then go (genBoundary s l g n)
    else if g.tiles.any fun t => peekTile s t g.seg == .bad then putGang s l (beginEnd g n 0x0710)
    else if g.tiles.any fun t => peekTile s t g.seg == .under then underrun s l g n g.emitted
    else s
  | .dead 0 nxt => go (genStart s l g nxt n)
  | .held nxt => if g.resume.any fun r => decide (r ≤ n) then
      (if nxt == 0xFFF then putGang s l (beginEnd { g with resume := none } n 0)
       else go (genStart s l { g with resume := none } nxt n))
    else s
  | .under => if g.restart.any fun r => decide (r ≤ n) then
      go (putGang s l { g with phase := .seg, restart := none, evs := g.evs ++ [(n, .back)] })
    else s
  | _ => s

/-- Bring the gang's phase to what vector n needs; a few turns at most. -/
def genTurn : Nat → State → Nat → State
  | 0, s, _ => s
  | fuel + 1, s, l =>
    match getGang? s l with
    | none => s
    | some g =>
      let n := g.genNext
      let len := match leaderPat s g with
        | some p => (segOf p g.seg).len
        | none => 0
      match g.abort, g.phase with
      | _, .over => s
      | _, .ending 0 => putGang s l { g with phase := .over, evs := g.evs ++ [(n, .stop)] }
      | _, .ending _ => s
      | some (na, st), ph =>
        if na ≤ n then putGang s l (beginEnd g n st)
        else genTurnPhase (fun x => genTurn fuel x l) s l g n len ph
      | none, ph => genTurnPhase (fun x => genTurn fuel x l) s l g n len ph

/-- Generate the next vector of the gang in every tile. -/
def genVector (s : State) (l : Nat) : State :=
  let s1 := genTurn 8 s l
  match getGang? s1 l with
  | none => s1
  | some g =>
    let n := g.genNext
    let g1 := { g with genNext := n + 1 }
    match g.phase with
    | .seg => putGang (g.tiles.foldl (fun s t => emitTile s t g.seg g.emitted n) s1) l { g1 with emitted := g.emitted + 1 }
    | .dead k nxt => putGang (emitHold s1 g.tiles g.seg n) l { g1 with phase := .dead (k - 1) nxt }
    | .ending k => putGang (emitHold s1 g.tiles g.seg n) l { g1 with phase := .ending (k - 1) }
    | .held _ => putGang (emitHold s1 g.tiles g.seg n) l g1
    | .under => putGang (emitHold s1 g.tiles g.seg n) l g1
    | .over => s1

/-- Generate every vector up to `upto_` (R112). -/
def genUpTo (s : State) (l upto_ : Nat) : State :=
  match getGang? s l with
  | none => s
  | some g => (List.range (upto_ + 1 - g.genNext)).foldl (fun s _ => genVector s l) s

/-! ### Arming (R97, R110, R111, R119, R127, R129) -/

/-- Prefill is complete in a tile: S bytes, or the whole stream if less. -/
def prefilled (s : State) (t : Nat) : Bool :=
  let x := getTile s t
  match x.pat with
  | none => true
  | some p => decide (min (streamArea p) p.streamLen ≤ x.delivered)

/-- Loops with RST of a tile's pattern: segment, BEGIN offset, first vector, length. -/
def rstLoops (s : State) (t : Nat) : List (Nat × Nat × Nat × Nat) :=
  match (getTile s t).pat with
  | none => []
  | some p => (List.range p.segs.length).flatMap fun i => (segOf p i).rloops.map fun r => (i, r.1, r.2.1, r.2.2)

/-- R119: a loop of tile t is restartable for the gang: every tile has one with the same start and length. -/
def loopShared (s : State) (tiles : List Nat) (r : Nat × Nat × Nat × Nat) : Bool :=
  tiles.all fun u => (rstLoops s u).any fun q => q.1 == r.1 && q.2.2 == r.2.2

/-- A tile's part of a gang's arm. -/
def armTile (s : State) (l : Nat) (tiles : List Nat) (t : Nat) : State :=
  let b := tileB t
  let ok := (rstLoops s t).filter (loopShared s tiles)
  let s1 := wr (wr (clrF (clrF (setSeqState s t 2) b R.TIL_SEQ_STAT_STARVED) b R.TIL_SEQ_STAT_HOLD_THM)
    b R.TIL_SEQ_STAT_LEADER (b2n (t == l))) b R.TIL_SEQ_SEGCNT_SEGCNT 0
  let s2 := wr (wr (wr s1 b R.TIL_SEQ_X_VAL (rd s b R.TIL_SEQ_XBASE_VAL)) b R.TIL_SEQ_Y_VAL (rd s b R.TIL_SEQ_YBASE_VAL))
    b R.TIL_SEQ_D_VAL (rd s b R.TIL_SEQ_DATA_A_VAL)
  showTile (updTile s2 t fun x =>
    { x with gang := some l, pos := ⟨0, 0, 0⟩, cur := none, repLeft := 0, loops := [], yw := false, released := 0, delivered := 0,
             mark := 0, fifo := [], refillStop := false, vbuf := [], await := [], failed := [],
             okLoops := ok.map fun r => (r.1, r.2.1) }) t

/-- Once every tile is prefilled, a start "when ready" gets its time, 2 µs later (R111). -/
def prefillCheck (s : State) (l : Nat) : State :=
  match getGang? s l with
  | none => s
  | some g =>
    if g.ns.isNone && g.tiles.all (prefilled s) && g.tiles.all (fun t => seqState s t == 2) then
      let ts := s.now + usec 2
      let n := lawNext (lawOf s l) ts
      putGang s l { latchFromNs s g n with ts := ts }
    else s

/-- An accepted gang goes to ARMED (R111), segment 0 to start with its first vector: `old` is the gang before a re-run, `only` its retested sites. -/
def armGang (s : State) (tiles : List Nat) (ts : Nat) (job : Option Nat) (auto : Bool) (old : Option Gang) (only : Option (List Nat)) :
    State :=
  let l := tiles.headD 0
  let sites := only.getD (gangSites s tiles)
  let ns := if ts == 0 then none else some (lawNext (lawOf s l) ts)
  let warn := tiles.any fun t => (rstLoops s t).any fun r => !loopShared s tiles r
  let g : Gang := ⟨tiles, job, auto, ts, ns, ns.getD 0, .dead 0 0, 0, 0, 0, none, [], false, false, none, none, [], none, 0, 0, false,
    (old.map (·.restarted)).getD false, (old.map (·.anyStarved)).getD false, warn, [], sites, [],
    (old.map (·.retested)).getD [], [], false⟩
  let s1 := tiles.foldl (fun s t => armTile s l tiles t) (putGang s l g)
  prefillCheck (sites.foldl siteArm s1) l

/-- A CALIBRATE runs that names the tile (R382). -/
def calRunsOn (s : State) (t : Nat) : Bool :=
  s.rings.jobs.any fun e => e.2.opcode == 0x50 && e.2.phase == .running && bit (arg e.2 1) t

/-- R110, R382: the tile cannot be armed. -/
def runBusy (s : State) (t : Nat) : Bool :=
  seqState s t != 1 || (getTile s t).gang.isSome || (getTile s t).remap.isSome || calRunsOn s t

/-- The parts of a segment table that a gang's tiles must share (R110). -/
def tableKey (p : Option Pattern) : Option (Bool × List (Bool × Nat × Nat × Nat × Bool)) :=
  p.map fun p => (p.sc96, p.segs.map fun x => (x.resident, x.nxt, x.len, x.tout, x.bcast))

/-- A site with enabled channels both inside and outside the gang. -/
def siteSplit (s : State) (tiles : List Nat) : Bool :=
  let outside := allTiles.filter fun t => !tiles.contains t
  (gangSites s tiles).any fun i => outside.any fun t => (List.range 16).any fun k => siteAt s t k == some i && chanEnabled s t k

/-- R110, then R322: the first failing check of RUN_PATTERN. -/
def runCheck (s : State) (tiles : List Nat) (ts : Nat) : Option Nat :=
  let l := tiles.headD 0
  if tiles.any (runBusy s) then some 0x0313
  else if !(tiles.all fun t => flag s (tileB t) R.TIL_VCLK_CTL_EN && lawOf s t == lawOf s l) then some 0x0115
  else if !(tiles.all fun t => tableKey (getTile s t).pat == tableKey (getTile s l).pat) then some 0x0115
  else if siteSplit s tiles then some 0x0114
  else if ts != 0 && decide (ts < s.now + usec 10) then some 0x0312
  else if pointHalf s then some 0x0360
  else none

/-- A ring time in two argument words (R284). -/
def argTime (a b : Nat) : Nat := ringTime (bits b 0 48) (bits a 16 30) (bits a 0 16)

/-- RUN_PATTERN (R110). -/
def execRunPattern (j : Nat) (s : State) : Host.Outcome State Fault Refusal :=
  match jobReady s j 0x11 with
  | none => .next s
  | some x =>
    let tiles := maskBits 48 (arg x 0)
    let ts := argTime (arg x 1) (arg x 2)
    if x.phase == .running then .next s
    else .next (afterDeferral s j x fun s =>
      if tiles == [] then endJob s j 0x0101 0 0 0
      else match runCheck s tiles ts with
        | some st => endJob s j st 0 0 0
        | none => armGang (startJob s j) tiles ts (some j) (bit x.flags 0) none none)

/-- TIL_SEQ_ARM (R90, R111): a LOADED tile whose clock runs is armed as a gang of one, Ts from `TIL_SEQ_START`; otherwise the
write is refused, with no completion (assumption 35). -/
def seqArm (s : State) (t : Nat) : State :=
  let b := tileB t
  let ts := rdTime s b R.TIL_SEQ_START0_FRAC R.TIL_SEQ_START1_NS R.TIL_SEQ_START2_SECL R.TIL_SEQ_START3_SECH
  if runBusy s t || !flag s b R.TIL_VCLK_CTL_EN then s else armGang s [t] ts none false none none

def execTilSeqArm (t : TileIx) (s : State) : Host.Outcome State Fault Refusal :=
  .next (barWrite s none (tileB t) fun s => seqArm s t)

/-! ### Returning to LOADED and the completion (R90, R114, R115, R283) -/

/-- A tile enters a pattern: measurements of its enabled slices end (R54), those in sampled mode go continuous (R41), slices
not in the safe state may drive (R60), TDC turns restart (R79). -/
def patternEnter (s : State) (t : Nat) : State :=
  let s1 := updTile s t fun x => { x with tdcTurn := [] }
  (List.range 18).foldl (fun s p =>
    let s2 := updSlice (edgesTake s t p) t p fun x => { x with quiet := isSafe s t p, cmd := x.drive, edges := [] }
    if flag s (sliceB t p) R.CHN_CTL_EN then
      let s3 := updSlice (pmuAbort s2 t p) t p fun x => { x with inPattern := true }
      if rd s (sliceB t p) R.CHN_CMP_CTL_MODE == 2 then cmpRestart s3 t p else s3
    else s2) s1

/-- The pending B writes of a tile's slices in the pattern take effect; a busy slice outside it waits for its own boundary
(R12, R32). -/
def sliceShadows (s : State) (t : Nat) : State :=
  (List.range 18).foldl (fun s p =>
    if flag s (sliceB t p) R.CHN_CTL_EN then applyShadow s (sliceB t p) (sliceB t p + 0x400) else s) s

/-- The tile stops running: pending writes of frets, TDC control and the fail unit take effect (R12, R77, R154). -/
def runLeave (s : State) (t : Nat) : State :=
  let b := tileB t
  let s1 := applyShadow (applyShadow s (b + 0x150) (b + 0x160)) (b + 0x180) (b + 0x190)
  applyShadow (applyShadow s1 (b + 0x300) (b + 0x340)) (b + 0x8000) (b + 0xC000)

/-- A tile leaves a pattern: windows close, pending B writes take effect (R12), slices leave the pattern (R40, R43). -/
def patternLeave (s : State) (t : Nat) : State :=
  let s1 := applyShadow (applyShadow (tdcCloseAll s t) (tileB t) (tileB t + 0x4000)) (tileB t + 0x8000) (tileB t + 0xC000)
  (List.range 18).foldl (fun s p =>
    let s2 := edgesTake s t p
    if (getSlice s t p).inPattern then
      let s3 := updSlice s2 t p fun x => { x with inPattern := false }
      loadSync (if rd s (sliceB t p) R.CHN_CMP_CTL_MODE == 2 then cmpRestart s3 t p else s3) t p
    else s2) s1

/-- Every tile of the gang goes back to LOADED. -/
def tilesLoaded (s : State) (g : Gang) : State :=
  let s1 := g.tiles.foldl (fun s t => clrF (setSeqState s t 1) (tileB t) R.TIL_SEQ_STAT_HOLD_THM) s
  memBoundary (g.tiles.foldl (fun s t => patternLeave (sliceShadows (updTile s t fun x => { x with vbuf := [], atBalls := none }) t) t) s1)

/-- The gang is over: its tiles are free, none of them is its leader any more (assumption 34), and its job completes with the results
of R283. -/
def gangDone (s : State) (l : Nat) (g : Gang) : State :=
  let s1 := g.tiles.foldl (fun s t => clrF (updTile s t fun x => { x with gang := none }) (tileB t) R.TIL_SEQ_STAT_LEADER) (dropGang s l)
  let st := if g.status == 0 && g.warn then 0x0010 else g.status
  endJob? s1 g.job st (rd s (tileB l) R.TIL_SEQ_SEGCNT_SEGCNT) g.stopAt
    (g.retested.length % 2 ^ 16 + b2n g.anyStarved * 2 ^ 16 + b2n g.restarted * 2 ^ 17)

/-- An ARMED gang returns to LOADED without a vector at the balls (R90): no site flag is set (R129). -/
def disarm (s : State) (l : Nat) (g : Gang) (st : Nat) : State :=
  gangDone (tilesLoaded s g) l { g with status := st, stopAt := g.ns.getD 0 }

/-- The gang is ARMED: no tile of it has reached RUN. -/
def gangArmed (s : State) (g : Gang) : Bool := g.tiles.all fun t => seqState s t == 2

/-- R29, R114: a fault abort: it latches at once, at the first vector whose boundary falls now or later; what was sent
down the lane from there on is discarded. -/
def gangFault (s : State) (l st : Nat) : State :=
  match getGang? s l with
  | none => s
  | some g =>
    if g.waiting then s
    else if gangArmed s g then disarm s l g st
    else
      let n := max (getTile s l).nextVec (lawNext (lawOf s l) s.now)
      if endsBy g n then s else gangCut s l g n st

/-- Abort every live gang that has a tile among those listed. -/
def gangsFault (s : State) (tiles : List Nat) (st : Nat) : State :=
  (s.gangs.filter fun e => gangLive s e.2 && e.2.tiles.any fun t => tiles.contains t).foldl (fun s e => gangFault s e.1 st) s

/-- SUSPECT sites of a pattern at its normal end that a re-run may answer: AUTO_RETEST, and NORETEST clear (R135). -/
def retestCandidates (s : State) (g : Gang) : List Nat :=
  if g.status == 0 && g.auto then
    g.sites.filter fun i => flag s (siteB i) R.GLB_SITE_STAT_SUSPECT && !flag s (siteB i) R.GLB_SITE_STAT_NORETEST
  else []

/-- R114: an abort request (host, or job abort). A gang that waits for remaps before a re-run has no vector to end at: it ends with the
run it has made, its SUSPECT sites folded as recorded (R135). It ends the gang at n_r, where that lies among vectors sent already (Λ has
shrunk since) as a fault does. -/
def gangAbort (s : State) (l : Nat) : State :=
  match getGang? s l with
  | none => s
  | some g =>
    let n := latchVec s g
    if g.waiting then gangDone ((retestCandidates s g).foldl foldSite s) l { g with status := 0x0314 }
    else if gangArmed s g then disarm s l g 0x0314
    else if g.abort.isSome || endsBy g n then s
    else if n < g.genNext then gangCut s l g n 0x0314
    else putGang s l { g with abort := some (n, 0x0314) }

/-- A request that reaches a tile of a live gang. -/
def onGang (s : State) (t : Nat) (k : State → Nat → Gang → State) : State :=
  match gangOf s t with
  | some (l, g) => if gangLive s g then k s l g else s
  | none => s

/-- TIL_SEQ_ABORT (R114). -/
def seqAbort (s : State) (t : Nat) : State := onGang s t fun s l _ => gangAbort s l

def execTilSeqAbort (t : TileIx) (s : State) : Host.Outcome State Fault Refusal :=
  .next (barWrite s none (tileB t) fun s => seqAbort s t)

/-- TIL_SEQ_HOLD (R113). -/
def seqHold (s : State) (t : Nat) (thm : Bool) : State :=
  onGang s t fun s l g => putGang s l { g with holds := g.holds ++ [⟨latchVec s g, thm, false⟩] }

def execTilSeqHold (t : TileIx) (s : State) : Host.Outcome State Fault Refusal :=
  .next (barWrite s none (tileB t) fun s => seqHold s t false)

/-- The hold has no cause left: the gang resumes at n_r + 8. -/
def holdRelease (s : State) (l : Nat) (g : Gang) : State :=
  if g.hostHold || g.thermal then putGang s l g
  else resumeCut s l { g with resume := some (latchVec s g + 8) } (latchVec s g + 8)

/-- A host RESUME acts only on a host hold in force (R113). -/
def seqResume (s : State) (t : Nat) : State :=
  onGang s t fun s l g => if g.hostHold then holdRelease s l { g with hostHold := false } else s

def execTilSeqResume (t : TileIx) (s : State) : Host.Outcome State Fault Refusal :=
  .next (barWrite s none (tileB t) fun s => seqResume s t)

/-- A thermal release (R402): it ends the thermal hold in force, and withdraws one that has not applied yet. -/
def thermalRelease (s : State) (l : Nat) : State :=
  match getGang? s l with
  | none => s
  | some g =>
    let g1 := { g with holds := g.holds.filter fun r => !r.thm }
    if g.thermal then
      holdRelease (g.tiles.foldl (fun s t => clrF s (tileB t) R.TIL_SEQ_STAT_HOLD_THM) s) l { g1 with thermal := false }
    else putGang s l g1

/-- R116: a jump request of rank 0 host, 1 + i trigger source i, 8 teller, in the leader's tile. -/
def jumpRequest (s : State) (t target rank : Nat) : State :=
  let refuse := raiseRole (setF s (tileB t) R.TIL_SEQ_STAT_JREF) 1 t 3
  match gangOf s t with
  | none => refuse
  | some (l, g) =>
    let okT := target == 0xFFF || (leaderPat s g).any fun p => (p.segs[target]?).any (·.resident)
    if l != t || !gangLive s g || !okT then refuse
    else putGang s l { g with jumps := g.jumps ++ [⟨latchVec s g, target, rank, false⟩] }

/-- Tile t leads a gang (R116). -/
def leads (s : State) (t : Nat) : Bool := (gangOf s t).any fun e => e.1 == t

/-- A write of `TIL_SEQ_JUMP` (R116): in the leader it stores the target and, with GO, asks for the jump; in another tile it has
no effect and sets `JREF`. -/
def jumpWrite (s : State) (t target : Nat) (go : Bool) : State :=
  if leads s t then
    let s1 := wr s (tileB t) R.TIL_SEQ_JUMP_TARGET target
    if go then jumpRequest s1 t (target % 2 ^ 12) 0 else s1
  else raiseRole (setF s (tileB t) R.TIL_SEQ_STAT_JREF) 1 t 3

/-- TIL_SEQ_JUMP_GO (R116). -/
def execTilSeqJumpGo (t : TileIx) (target : Nat) (s : State) : Host.Outcome State Fault Refusal :=
  .next (barWrite s none (tileB t + 0x18) fun s => jumpWrite s t target true)

/-- A trigger source i fires: every leader with `JTRIG[i].EN` asks for its jump (R116). -/
def triggerJump (s : State) (i : Nat) : State :=
  (s.gangs.filter fun e => gangLive s e.2).foldl (fun s e =>
    if rdi s (tileB e.1) R.TIL_SEQ_JTRIG_EN i == 1 then jumpRequest s e.1 (rdi s (tileB e.1) R.TIL_SEQ_JTRIG_TARGET i) (1 + i) else s) s

/-! ### Prefill and refill (R102, R103, R111, R298, R308) -/

/-- The next n bytes of a tile's stream section from its source: the bytes, or why they do not come. What lies in host memory
comes over the link; a device line that the host holds is snooped back first (R254). -/
def refillBytes (s : State) (src : StreamSrc) (off n : Nat) : Bytes :=
  match src with
  | .home l => .ok (slice l off n)
  | .host va pv pasid _ =>
    (List.range n).foldl (fun (a : Bytes) i => match a with
      | .ok l =>
        let stop := fun (x : Bytes) => if l.isEmpty then x else .ok l
        match resolve s pv pasid (va + off + i) false with
        | .host pa => if linkOpen s then .ok (l ++ [(memByte s.hostMem pa).toNat]) else stop .wait
        | .dev d => if s.sf.contains (d / 64) then stop .wait else if badAt s d then stop (.fail 0x0700)
          else .ok (l ++ [(memByte s.devMem d).toNat])
        | .fail st => stop (.fail st)
        | .miss => stop .wait
      | r => r) (.ok [])

/-- R296: the check of a refill's context, made before its first transfer. -/
def refillCtx (s : State) (pv : Bool) (pasid ctx va len : Nat) : Option Nat :=
  if !flag s (ctxB ctx) R.XLT_CTX_CFG_EN then some 0x0206
  else if isRt ctx && (flag s (ctxB ctx) R.XLT_CTX_CFG_PV != pv || (pv && rd s (ctxB ctx) R.XLT_CTX_PASID_PASID != pasid) ||
      !flag s (ctxB ctx) R.XLT_CTX_STAT_PINNED || !inPinWindows s ctx 4 va len) then some 0x0203
  else none

/-- R309: the record of a RUN_PATTERN whose refill, of tile t, ends with a translation status. -/
def refillRecord (s : State) (t st : Nat) : State :=
  match (gangOf s t).bind (fun e => e.2.job.bind (getJob? s)), (getTile s t).pat with
  | some x, some p => match p.src with
    | .host va pv pasid _ =>
      if st / 256 == 2 then xltRecord s x pv pasid st (va + (getTile s t).delivered) (getTile s t).delivered false else s
    | .home _ => s
  | _, _ => s

/-- R292: a refill near the end of a translated page asks for the next page. -/
def refillAhead (s : State) (t : Nat) : State :=
  match (getTile s t).pat with
  | none => s
  | some p => match p.src with
    | .home _ => s
    | .host va pv pasid ctx =>
      let a := va + (getTile s t).delivered
      let edge := (a / 4096 + 1) * 4096
      if flag s glb R.XLT_CTL_PREF && flag s glb R.XLT_STAT_ATS_EN && !isRt ctx && decide (edge ≤ a + 1024) &&
          decide (edge < va + p.streamLen) && (atcFind s pv pasid edge false).isNone then
        askXlt s pv pasid edge false (700 + t)
      else s

/-- R298: a real-time refill needs a translation that its context does not hold locked: the gang aborts. -/
def refillUnpinned (s : State) (t l ctx : Nat) : State :=
  gangFault (refillRecord (incF (signal s 0x25 ctx 0) (ctxB ctx) R.XLT_CTX_FAULTS_FAULTS) t 0x0203) l 0x0203

/-- The translation that serves an address is not locked by its real-time context. -/
def refillUnlocked (s : State) (pv : Bool) (pasid ctx va : Nat) : Bool :=
  isRt ctx && flag s glb R.XLT_STAT_ATS_EN && !(atcFind s pv pasid va false).any fun e => e.locks.contains (600 + ctx)

/-- A refill from host memory must wait for its next byte: for its translation, which a real-time context must hold (R298), for a snoop
of a device line (R254), or for the link. -/
def refillWait (s : State) (t l : Nat) (va : Nat) (pv : Bool) (pasid ctx : Nat) : State :=
  match resolve s pv pasid va false with
  | .dev d => askBi s (d / 64)
  | .miss => if isRt ctx then refillUnpinned s t l ctx else askXlt s pv pasid va false (700 + t)
  | _ => s

/-- Refill bytes enter the tile's area; prefill and the restart threshold are looked at again. -/
def refillTake (s : State) (t l : Nat) (d : List Nat) : State :=
  let s1 := updTile s t fun x => { x with fifo := x.fifo ++ d, delivered := x.delivered + d.length }
  tryRestart (prefillCheck (wr s1 (tileB t) R.TIL_SEQ_FILL_OCC (streamOcc (getTile s1 t))) l) l

/-- REFILL_DATA (R103): the refill engine delivers up to `count` bytes, as the area's room and the stream allow. A read of host
memory that the host does not answer (`ok` false) ends the job (R288, R308). DESIGN CHOICE (assumption 62): the spec gives no place
of a tile's home stream in the sector's pattern area; every tile's is read from the area's base on. -/
def refillData (s : State) (t count : Nat) (ok : Bool) : State :=
  let x := getTile s t
  match gangOf s t, x.pat with
  | some (l, g), some p =>
    let n := min count (min (streamArea p - x.fifo.length) (p.streamLen - x.delivered))
    if !gangLive s g || n == 0 || x.refillStop then s
    else match p.src with
      | .home d =>
        let s0 := memAsk s 2 0 t ((carveB (sectorOf t) + 0x3000000 + x.delivered) / 64) false 0
        refillTake s0 t l (slice d x.delivered n)
      | .host va pv pasid ctx =>
        let a := va + x.delivered
        let fail := fun (s : State) (st : Nat) => gangFault (refillRecord s t st) l st
        match (if x.delivered == 0 then refillCtx s pv pasid ctx va p.streamLen else none) with
        | some st => fail s st
        | none =>
          match refillBytes s p.src x.delivered n, resolve s pv pasid a false with
          | .ok d, .host _ =>
            if refillUnlocked s pv pasid ctx a then refillUnpinned s t l ctx
            else if ok then refillAhead (refillTake s t l d) t else fail s 0x0200
          | .ok d, _ => refillAhead (refillTake s t l d) t
          | .fail st, .dev d => fail (eccUncorrectable s (d / 64) true) st
          | .fail st, _ => fail s st
          | .wait, _ => refillWait s t l a pv pasid ctx
  | _, _ => s

def execRefillData (t : TileIx) (r : RefillRead) (s : State) : Host.Outcome State Fault Refusal := .next (refillData s t r.count r.ok)

/-- PREFILL_DEADLINE (R111): 1 µs before Ts with prefill incomplete, the whole gang returns to LOADED. -/
def execPrefillDeadline (t : TileIx) (s : State) : Host.Outcome State Fault Refusal :=
  match gangOf s t with
  | some (l, g) =>
    .next (if gangArmed s g && g.ts != 0 && !(g.tiles.all (prefilled s)) then
      disarm { s with now := max s.now (g.ts - usec 1) } l g 0x0310 else s)
  | none => .next s

/-! ### Gang events at the balls -/

/-- Timing corrections move by at most 16 units at a segment boundary (R375). -/
def trackBoundary (s : State) (t : Nat) : State :=
  let x := getTile s t
  if x.trackResid.all (· == 0) then s
  else
    let step := x.trackResid.map (clampInt (-16) 16)
    let rest := List.zipWith (· - ·) x.trackResid step
    let s1 := (List.range 18).foldl (fun s p =>
      let b := sliceB t p
      wr (wr s b R.CHN_TRIM_TRKT_EDGE (unsigned 16 (signed 16 (rd s b R.CHN_TRIM_TRKT_EDGE) + step.getD p 0)))
        b R.CHN_TRIM_TRKT_PEND (unsigned 16 (rest.getD p 0))) s
    wr (putTile s1 t { x with trackResid := rest }) (tileB t) R.TIL_TRK_STAT_LAG (b2n (rest.any fun d => decide (16 < d.natAbs)))

/-- R109: a pulse of 8 ns that rises at `tn` on TRIG_OUT ball i: the pulses on the ball that have not ended by then stay beside
it, and the ball is high while any of them is. -/
def pulseOn (tn : Nat) (m : Map (List Nat)) (i : Nat) : Map (List Nat) :=
  mapPut m i ((mapGet m i []).filter (fun t => decide (tn < t + nsec 8)) ++ [tn])

/-- A segment starts at vector n in every tile (R12, R108, R109): B writes take effect, the count rises, the leader
pulses its TRIG_OUT balls and asks for a START frame. -/
def segmentStart (s : State) (l : Nat) (g : Gang) (seg n : Nat) : State :=
  let s1 := g.tiles.foldl (fun s t =>
    let b := tileB t
    let s2 := sliceShadows (applyShadow (applyShadow s b (b + 0x4000)) (b + 0x8000) (b + 0xC000)) t
    let s3 := incF (wr (raiseRole (setSeqState s2 t 3) 1 t 3) b R.TIL_SEQ_STAT_SEG seg) b R.TIL_SEQ_SEGCNT_SEGCNT
    trackBoundary s3 t) s
  let tn := lawTime (lawOf s l) n
  match leaderPat s g with
  | none => s1
  | some p =>
    let x := segOf p seg
    let s2 := { s1 with trigOut := (maskBits 8 x.tout).foldl (pulseOn tn) s1.trigOut }
    if x.bcast then { s2 with startQ := s2.startQ ++ [(seg, tn)] } else s2

/-- The start vector is at the balls: every tile goes to RUN (R90). -/
def patternStart (s : State) (l : Nat) (g : Gang) (seg n : Nat) : State :=
  let s1 := g.tiles.foldl (fun s t => patternEnter (setSeqState s t 3) t) s
  putGang (segmentStart s1 l g seg n) l { g with started := true }

/-- Remaps under way or waiting in a tile of the gang (R380, R382). -/
def remapsPending (s : State) (g : Gang) : Bool :=
  g.tiles.any fun t => (getTile s t).remap.isSome || !(getTile s t).remapQ.isEmpty

/-- The sites to re-run: candidates one of whose positions has been remapped since the end. -/
def retestSites (s : State) (g : Gang) : List Nat :=
  (retestCandidates s g).filter fun i => g.remapped.any fun c => siteAt s (c / 16) (c % 16) == some i

/-- After the end sequence and every remap (R133, R135): fold, or roll back and arm the same gang again. -/
def gangSettle (s : State) (l : Nat) (g : Gang) : State :=
  let again := retestSites s g
  let s1 := (g.sites.filter fun i => !again.contains i).foldl foldSite s
  if again.isEmpty then gangDone s1 l g
  else
    let s2 := again.foldl siteRollback s1
    let s3 := g.tiles.foldl (fun s t => updTile s t fun x => { x with gang := none }) s2
    armGang s3 g.tiles 0 g.job g.auto
      (some { g with retested := again.foldl (fun l i => if l.contains i then l else l ++ [i]) g.retested }) (some again)

/-- The end sequence has passed (R115): LOADED; flags of an abort; then the fold, of a site that may be run again after the remaps
(R133, R135). -/
def gangStop (s : State) (l : Nat) (g : Gang) : State :=
  let s1 := tilesLoaded s g
  let s2 := if g.status != 0 && g.started then flagSites s1 g.sites R.GLB_SITE_STAT_INCOMPL else s1
  let cand := retestCandidates s2 g
  if cand.isEmpty || !remapsPending s2 g then gangSettle s2 l g
  else putGang ((g.sites.filter fun i => !cand.contains i).foldl foldSite s2) l { g with waiting := true }

/-- Every result of the gang's vectors is in. -/
def resultsIn (s : State) (g : Gang) : Bool :=
  g.tiles.all fun t => (getTile s t).await.isEmpty && (getTile s t).failQ.isEmpty

/-- One gang event takes effect. At END the windows in progress close (R81), and the gang waits for the results still on their
way (R126). -/
def gangEvent (s : State) (l : Nat) (g : Gang) (n : Nat) (e : GangEv) (rest : List (Nat × GangEv)) : State :=
  let g1 := { g with evs := rest }
  match e with
  | .start seg => if g.started then segmentStart (putGang s l g1) l g1 seg n else patternStart (putGang s l g1) l g1 seg n
  | .end_ _ host thm =>
    if host || thm then
      let s1 := g.tiles.foldl (fun s t => wr (setSeqState (runLeave s t) t 4) (tileB t) R.TIL_SEQ_STAT_HOLD_THM (b2n thm)) s
      putGang s1 l { g1 with hostHold := g.hostHold || host, thermal := g.thermal || thm }
    else putGang s l g1
  | .under => putGang (g.tiles.foldl (fun s t => setSeqState (runLeave s t) t 4) s) l g1
  | .back =>
    let s1 := g.tiles.foldl (fun s t => setF (setSeqState s t 3) (tileB t) R.TIL_SEQ_STAT_RESTARTED) s
    flagSites (putGang s1 l { g1 with restarted := true }) g.sites R.GLB_SITE_STAT_RESTARTED
  | .stop =>
    let s1 := g.tiles.foldl tdcCloseAll s
    if resultsIn s1 g then gangStop (putGang s1 l g1) l g1 else s1

/-- Take every event of the gang that is due at vector n. -/
def gangEvents : Nat → State → Nat → Nat → State
  | 0, s, _, _ => s
  | fuel + 1, s, l, n =>
    match getGang? s l with
    | none => s
    | some g => match g.evs with
      | [] => s
      | (v, e) :: rest =>
        if n < v then s
        else if e == .stop then gangEvent s l g v e rest
        else gangEvents fuel (gangEvent s l g v e rest) l n

/-- The first event of a tile's gang, when it is due at the tile's next boundary or has passed and `want` holds for it. -/
def takeEvent (s : State) (t : Nat) (want : GangEv → Bool → Bool) : State :=
  match gangOf s t with
  | none => s
  | some (l, g) =>
    let s0 := genUpTo s l (getTile s l).nextVec
    match getGang? s0 l with
    | none => s
    | some g0 => match g0.evs with
      | [] => s
      | (v, e) :: rest =>
        if g.waiting || (getTile s l).nextVec < v || !want e g.started then s else gangEvent s0 l g0 v e rest

def isStart (e : GangEv) : Bool :=
  match e with
  | .start _ => true
  | _ => false

def isEnd (e : GangEv) : Bool :=
  match e with
  | .end_ _ _ _ => true
  | _ => false

/-- PATTERN_START (R90, R111): the start vector is reached with prefill complete. -/
def execPatternStart (t : TileIx) (s : State) : Host.Outcome State Fault Refusal :=
  .next (match gangOf s t with
    | some (_, g) => if gangArmed s g && g.ns.isSome && g.tiles.all (prefilled s) then takeEvent s t fun e st => isStart e && !st else s
    | none => s)

/-- SEGMENT_END (R108). -/
def execSegmentEnd (t : TileIx) (s : State) : Host.Outcome State Fault Refusal :=
  .next (takeEvent s t fun e _ => isEnd e)

/-- SEGMENT_START (R109). -/
def execSegmentStart (t : TileIx) (s : State) : Host.Outcome State Fault Refusal :=
  .next (takeEvent s t fun e st => isStart e && st)

/-- END_SEQUENCE_DONE (R115). -/
def execEndSequenceDone (t : TileIx) (s : State) : Host.Outcome State Fault Refusal :=
  .next (takeEvent s t fun e _ => e == .stop)

/-- RETEST_ARM (R135, R382): every remap of the gang is complete. -/
def execRetestArm (t : TileIx) (s : State) : Host.Outcome State Fault Refusal :=
  .next (match gangOf s t with
    | some (l, g) => if g.waiting && !remapsPending s g then gangSettle s l g else s
    | none => s)

/-! ### The vector at the balls (R23, R47, R73, R76, R79, R95, R125, R163) -/

/-- R95: the symbol drives, its data bit, its expectation (1 LOW, 2 HIGH, 3 MID, 4 VALID). -/
def symDrives (c : Nat) : Bool := c == 0 || c == 1 || c == 7
def symData (c : Nat) (apg : Bool) : Bool := if c == 7 then apg else c == 1
def symExpect (c : Nat) (apg : Bool) : Nat :=
  match c with
  | 2 => 1
  | 3 => 2
  | 4 => 3
  | 5 => 4
  | 8 => if apg then 2 else 1
  | _ => 0

/-- R73: the drive state after an edge's action. -/
def edgeDrive (act : Nat) (drives data : Bool) : Drive :=
  match act with
  | 1 => if drives then (if data then .vih else .vil) else .off
  | 2 => if drives then (if data then .vil else .vih) else .off
  | 3 => if drives then .vih else .off
  | 4 => if drives then .vil else .off
  | 5 => .vtt
  | _ => .off

/-- The drive edges that vector n places at position k, by time in placement units, with the drive state after each
(R72, R73). -/
def vectorEdges (s : State) (t k n : Nat) (v : Vec) : List (Nat × Drive) :=
  let c := wSym v.word k
  let apg := apgBit s t k v.px v.py v.data
  (fretEdges s t k (wFret v.word)).map fun e => (placedAt s t n e.1, edgeDrive e.2 (symDrives c) (symData c apg))

/-- Position k's driver and load at the boundary of vector n: the edges placed up to now take effect, those of the vector are
placed, none for an invalid fret (R73, R76), and the load follows what R12 applied. -/
def driveChannel (s : State) (t k n : Nat) (v : Vec) (valid : Bool) : State :=
  let p := sliceOf s t k
  let s1 := edgesTake s t p
  let s2 := if valid then updSlice s1 t p fun x => { x with edges := x.edges ++ vectorEdges s t k n v } else s1
  loadSync (edgesTake s2 t p) t p

/-- What position k owes the fail unit for vector n: forced to fail, or expectation and compare mode; none if masked
(R125), of a site the gang does not count (R129, R135), or a hold vector. -/
def judgeOf (s : State) (t k : Nat) (g : Gang) (v : Vec) (valid : Bool) : Option (Bool × Nat × Nat) :=
  let f := fretB t k (wFret v.word)
  match siteAt s t k with
  | none => none
  | some i =>
    if v.hold || !g.sites.contains i || bit (rd s (tileB t) R.TIL_FAIL_MASK_MASK) k then none
    else
      let exp := symExpect (wSym v.word k) (apgBit s t k v.px v.py v.data)
      let mode := rd s f R.TIL_FRET_CMODE_MODE
      if !valid || ballHeld s t (sliceOf s t k) || (getTile s t).failed.contains k then some (true, 0, 0)
      else if (exp == 0 || mode == 0) && !flag s f R.TIL_FRET_TWIN_LIM_EN then none
      else some (false, if mode == 0 then 0 else exp, mode)

/-- The strobes that a judged position owes in vector n, by their last placed time (R72, R74). -/
def vectorStrobes (s : State) (t n fret : Nat) (e : Nat × Nat × Nat) : Option (Nat × Nat × Nat) :=
  let f := fretB t e.1 fret
  let c0 := placedAt s t n (rd s f R.TIL_FRET_C0_OFS)
  match owesMode e.2.1 e.2.2 with
  | 0 => none
  | 1 => some (e.1, c0, c0)
  | _ => some (e.1, c0, placedAt s t n (rd s f R.TIL_FRET_C1_OFS))

/-- Apply a vector at the balls of tile t as vector n. -/
def applyVector (s : State) (t n : Nat) (g : Gang) (v : Vec) : State :=
  let b := tileB t
  let ftw := rd64 s b R.TIL_VCLK_FTW_LO_FTW R.TIL_VCLK_FTW_HI_FTW
  let ks := (List.range 16).filter (chanEnabled s t)
  let valid := fun k => fretValid s t k (wFret v.word) ftw
  let s0 := ks.foldl (fun s k =>
    let p := sliceOf s t k
    lateTake (if v.first && wBkv v.word then requestSwitch s t p (wBank v.word) else s) t p) (strobesTake s t)
  let s1 := ks.foldl (fun s k => driveChannel s t k n v (valid k)) s0
  let s2 := if ks.all valid then s1 else setF s1 b R.TIL_VCLK_STAT_FRET_INV
  let tdcs := ks.filter fun k => flag s (fretB t k (wFret v.word)) R.TIL_FRET_TWIN_EN
  let s3 := tdcs.foldl (fun s k => tdcDue s t k (wFret v.word) n (valid k)) s2
  let js := ks.filterMap fun k => (judgeOf s t k g v (valid k)).map fun r => (k, r)
  let judge := (js.filter fun r => !r.2.1).map fun r => (r.1, r.2.2)
  let a : Await := ⟨n, v.px, v.py, (js.filter fun r => r.2.1).map (·.1),
    (js.filter fun r => !r.2.1 && tdcs.contains r.1 && flag s (fretB t r.1 (wFret v.word)) R.TIL_FRET_TWIN_LIM_EN).map (·.1),
    judge, judge.filterMap (vectorStrobes s t n (wFret v.word)), []⟩
  let s4 := updTile s3 t fun x => { x with atBalls := some v, await := if js.isEmpty then x.await else x.await ++ [a] }
  if v.first && wVflag v.word then vflagTrigger s4 t (lawTime (lawOf s t) n) else s4

/-- R23: vector n is absent: the hold vector of the segment, and the tile's sites STARVED. A lost vector of a segment has already
met the underrun rules (`laneUnderrun`). -/
def absentVector (s : State) (t n : Nat) (g : Gang) : State :=
  let sites := g.sites.filter fun i => (List.range 16).any fun k => siteAt s t k == some i
  let s1 := setF (flagSites s sites R.GLB_SITE_STAT_STARVED) (tileB t) R.TIL_SEQ_STAT_STARVED
  let s2 := match gangOf s1 t with
    | some (l, g1) => putGang s1 l { g1 with anyStarved := true }
    | none => s1
  applyVector s2 t n g (holdVec s t (rd s (tileB t) R.TIL_SEQ_STAT_SEG))

/-- The gang has more vectors to apply at n. -/
def gangRunsAt (g : Gang) (n : Nat) : Bool := g.phase != .over || decide (n < g.genNext)

/-- The tile's part of boundary n in a running gang. -/
def tileVector (s : State) (t n : Nat) : State :=
  match gangOf s t with
  | none => s
  | some (_, g) =>
    if !tileInRun s t || !gangRunsAt g n then s
    else
      let x := getTile s t
      match x.vbuf.find? (·.1 == n) with
      | some (_, v) => applyVector (putTile s t { x with vbuf := x.vbuf.filter fun e => decide (n < e.1) }) t n g v
      | none => absentVector s t n g

/-- An ARMED gang's start vector follows a period change that comes before it (R69, R111). -/
def restartNs (s : State) (t n : Nat) : State :=
  match gangOf s t with
  | some (l, g) =>
    if gangArmed s g && l == t && g.ns.any (fun m => decide (n < m)) && g.genNext == g.ns.getD 0 then
      let m := max n (lawNext (lawOf s l) g.ts)
      putGang s l (latchFromNs s g m)
    else s
  | none => s

/-- R65, R69, R337: the clock of tile t starts its next vector N: a pending period change may apply, `TIL_VCNT` shows N. -/
def boundaryClock (s : State) (t : Nat) : State :=
  let n := (getTile s t).nextVec
  let s0 := { s with now := max s.now (lawTime (lawOf s t) n) }
  let s1 := applyPeriod s0 t n
  let s2 := if (lawOf s1 t).ph0 == n && lawOf s1 t != lawOf s t then restartNs s1 t n else s1
  updTile (setVcnt s2 t n) t fun x => { x with nextVec := n + 1 }

/-- Boundary n of a tile whose gang l has started or has its start vector: due events, the vector, generation up to n + Λ. -/
def boundaryRun (s : State) (t l n : Nat) : State :=
  genUpTo (tileVector (gangEvents 8 (genUpTo s l n) l n) t n) l (n + rd s (tileB t) R.TIL_SEQ_LAMBDA_LAMBDA)

/-- Boundary n of a tile, after its clock. -/
def boundaryGang (s : State) (t n : Nat) : State :=
  match gangOf s t with
  | none => s
  | some (l, g) =>
    if g.waiting || g.ns.isNone || (gangArmed s g && !(g.tiles.all (prefilled s))) then s else boundaryRun s t l n

/-- VECTOR_BOUNDARY (R65): vector N of tile t starts. -/
def vectorBoundary (s : State) (t : Nat) : State := boundaryGang (boundaryClock s t) t (getTile s t).nextVec

def execVectorBoundary (t : TileIx) (s : State) : Host.Outcome State Fault Refusal :=
  .next (if flag s (tileB t) R.TIL_VCLK_CTL_EN && !pllLost s (sectorOf t) && powerReady s then vectorBoundary s t else s)

/-! ### SET_PERIOD (R70, R71) -/

/-- R71: the margin of a running tile at a new period: from its occupancy now and the vector at Tc. -/
def runningMargin (s : State) (t ftw tc : Nat) (g : Gang) : Option Int :=
  let x := getTile s t
  match x.pat with
  | none => none
  | some p =>
    let nb : Int := lawNext (lawOf s t) tc
    let st := match g.phase with
      | .dead k nxt => (nxt, (g.genNext + k : Nat))
      | .held nxt => (nxt, (g.resume.getD (g.genNext) : Nat))
      | _ => (g.seg, if gangArmed s g then g.ns.getD g.genNext else g.segStart)
    some (marginOf (orderCharges p.segs (deadTime p) (orderFuel p) st.1 g.lastStream ((st.2 : Nat) - nb)) (streamArea p)
      (streamOcc x) p.rate (srcLatency p.src) ftw)

/-- SET_PERIOD (R70, R71, R285). DESIGN CHOICE (assumption 167): a refused one leaves `TIL_VCLK_NFTW` and `NTIME` as they are. -/
def execSetPeriod (j : Nat) (s : State) : Host.Outcome State Fault Refusal :=
  match jobReady s j 0x12 with
  | none => .next s
  | some x =>
    let tiles := maskBits 48 (arg x 0)
    let ftw := arg x 1 % 2 ^ 48
    let tc := argTime (arg x 2) (arg x 3)
    if x.phase == .running then .next s
    else if tiles == [] then .next (endJob s j 0x0101 0 0 0)
    else match armCheck s tiles ftw tc with
      | some (st, _) => .next (endJob s j st 0 0 0)
      | none =>
        let ms := tiles.filterMap fun t => match gangOf s t with
          | some (_, g) => if gangLive s g then (runningMargin s t ftw tc g).map fun m => (t, m) else none
          | none => none
        let low := fun (t : Nat) (m : Int) => decide (m < (rd s (tileB t) R.TIL_SEQ_RFTH_TH : Nat))
        let s1 := ms.foldl (fun s e =>
          let s2 := wr s (tileB e.1) R.TIL_SEQ_MARGIN_MARGIN (unsigned 32 e.2)
          if low e.1 e.2 then setF s2 (tileB e.1) R.TIL_SEQ_STAT_MARGIN_LOW else s2) s
        .next (armApply (setWork s1 j [] [if ms.any fun e => low e.1 e.2 then 0x0010 else 0] []) tiles ftw tc (some j))

end Sys2Proof.Machine
end

