-- ==== Sys2Proof/Machine/FailJobs.lean ====
section
/-! DEFINITION. Ledger uploads, repair analysis and binning (R136 to R152, spec/05_fails_repair_and_bins.md). -/
namespace Sys2Proof.Machine

/-! ### A site's cells and entries (R130, R141) -/

def siteXw (s : State) (i : Nat) : Nat := rd s (siteB i) R.GLB_SITE_LCFG_XW
def siteYw (s : State) (i : Nat) : Nat := rd s (siteB i) R.GLB_SITE_LCFG_YW
def siteIow (s : State) (i : Nat) : Nat := rd s (siteB i) R.GLB_SITE_LCFG_IOW + 1

/-- Fail counts of the cells of one sector's part, keyed L * IOW + io: of a LIST, entries per cell. -/
def partCells (s : State) (i q : Nat) : Map Nat :=
  let p := partOf (getSite s i) q
  if siteForm s i == 1 then ((p.list.flatMap (entryCells (siteIow s i))).foldl (tallyCell 3) ([], false)).1 else p.cells

/-- Entries of one sector's part as a LIST: as kept, or one per failing L, ascending, with the mask of its io. -/
def partList (s : State) (i q : Nat) : List (Nat × Nat) :=
  let p := partOf (getSite s i) q
  if siteForm s i == 1 then p.list
  else p.cells.foldl (fun m e => mapPut m (e.1 / siteIow s i) (setBit (mapGet m (e.1 / siteIow s i) 0) (e.1 % siteIow s i))) []

/-- The cells of the included sectors, counts added and saturated (R140). -/
def mergedCells (s : State) (i : Nat) (qs : List Nat) : Map Nat :=
  qs.foldl (fun m q => (partCells s i q).foldl (fun m e => mapPut m e.1 (min 65535 (mapGet m e.1 0 + e.2))) m) []

/-! ### FAIL_UPLOAD (R139 to R141, R150, R151) -/

/-- Bytes of the body. -/
def bodyLen (s : State) (i fmt : Nat) (qs : List Nat) : Nat :=
  let cells := 2 ^ (siteXw s i + siteYw s i) * siteIow s i
  if fmt == 1 then (qs.map fun q => ((failList (siteIow s i) (partList s i q)).length + 7) / 8 * 8).foldl (· + ·) 0
  else if fmt == 2 then (cells + 63) / 64 * 8
  else 2 * cells

/-- The first `n` bytes of the body. -/
def bodyBytes (s : State) (i fmt : Nat) (qs : List Nat) (n : Nat) : List Nat :=
  if fmt == 1 then (qs.flatMap fun q => padTo 8 (failList (siteIow s i) (partList s i q))).take n
  else
    let m := mergedCells s i qs
    if fmt == 2 then (List.range n).map fun k => bitsMask ((List.range 8).filter fun b => mapGet m (8 * k + b) 0 != 0)
    else (List.range n).map fun k => mapGet m (k / 2) 0 / 256 ^ (k % 2) % 256

/-- COUNT of the header. -/
def uploadCount (s : State) (i fmt : Nat) (qs : List Nat) : Nat :=
  if fmt == 1 then (qs.map fun q => (partList s i q).length).foldl (· + ·) 0 else (mergedCells s i qs).length

/-- `GLB_SITE_STAT[15:0]` as a read returns it. -/
def siteFlags (s : State) (i : Nat) : Nat :=
  let b := siteB i
  let f := [R.GLB_SITE_STAT_FAIL, R.GLB_SITE_STAT_PFAIL, R.GLB_SITE_STAT_STARVED, R.GLB_SITE_STAT_RESTARTED,
    R.GLB_SITE_STAT_SUSPECT, R.GLB_SITE_STAT_RETESTED, R.GLB_SITE_STAT_NORETEST, R.GLB_SITE_STAT_INCOMPL, R.GLB_SITE_STAT_CAPPED,
    R.GLB_SITE_STAT_LOST, R.GLB_SITE_STAT_OOR, R.GLB_SITE_STAT_TSAT, R.GLB_SITE_STAT_NOROOM, R.GLB_SITE_STAT_WR_IGN]
  bitsMask ((List.range 14).filter fun n => (f[n]?).any (flag s b)) + b2n (siteActive s i) * 2 ^ 14 +
    rd s b R.GLB_SITE_STAT_BINV * 2 ^ 15

/-- The upload header (R139). -/
def uploadHeader (s : State) (i fmt sect : Nat) : List Nat :=
  let qs := maskBits 4 sect
  leBytes 8 (0x5C71 + i * 2 ^ 16 + fmt * 2 ^ 24 + sect * 2 ^ 28 + siteXw s i * 2 ^ 32 + siteYw s i * 2 ^ 37 + (siteIow s i - 1) * 2 ^ 42 +
    siteFlags s i * 2 ^ 48) ++
  leBytes 8 (bodyLen s i fmt qs) ++ leBytes 8 (uploadCount s i fmt qs) ++ leBytes 8 0

/-- A named site carries CAPPED, LOST, OOR or TSAT (R152). -/
def siteFlagged (s : State) (i : Nat) : Bool := siteFlags s i / 256 % 16 != 0

/-- A line of the site's ledger or journal in sector q's pool holds an uncorrectable error (R152). -/
def ledgerBad (s : State) (i q : Nat) : Bool :=
  s.badLines.any fun d =>
    let p := lgrPool s q
    (match classify s p.1 with
     | .fail 0x0205 => true
     | .dev _ => true
     | _ => false) &&
    decide (hdmToDev (hdmOffset s p.1) ≤ d * 64) && decide (d * 64 < hdmToDev (hdmOffset s p.1) + p.2) && Config.ledgerLine i d

/-- An earlier job of this chapter that names a site is in progress or to come (R151): until its last write, and its CLEAR. -/
def earlierSiteJob (s : State) (j i : Nat) : Bool :=
  s.rings.jobs.any fun e => decide (e.1 < j) && jobRuns s e.1 && [0x40, 0x41, 0x42].contains e.2.opcode &&
    (if e.2.opcode == 0x40 then arg e.2 0 % 256 == i
     else match jobBytes s e.2 (arg e.2 0) 32 with
       | .ok l => bit (leNat l) i
       | .wait => true
       | .fail _ => false)

/-- A gang that includes the site is ARMED, RUN or HOLD (R129). -/
def siteInGang (s : State) (i : Nat) : Bool := s.gangs.any fun e => gangLive s e.2 && e.2.sites.contains i

/-- FAIL_UPLOAD. -/
def execFailUpload (j : Nat) (s : State) : Host.Outcome State Fault Refusal :=
  match jobReady s j 0x40 with
  | none => .next s
  | some x =>
    let i := bits (arg x 0) 0 8
    let sect := bits (arg x 0) 8 4
    let fmt := bits (arg x 0) 12 2
    let qs := maskBits 4 sect
    let len := arg x 2
    if earlierSiteJob s j i then .next s
    else if siteForm s i == 0 || fmt == 0 || sect == 0 then .next (endJob s j 0x0120 0 0 0)
    else if siteInGang s i then .next (endJob s j 0x0124 0 0 0)
    else if qs.any (ledgerBad s i) then .next (endJob (setF s (siteB i) R.GLB_SITE_STAT_LOST) j 0x0720 0 0 0)
    else
      let s0 := siteJoin s j [i]
      let body := bodyLen s i fmt qs
      let out := (uploadHeader s0 i fmt sect ++ bodyBytes s i fmt qs (min body (len - 32))).take len
      let short := decide (len < 32 + body)
      let st := if short then 0x0123 else if siteFlagged s i then 0x0020 else 0
      match jobWrite s0 j (arg x 1) out with
      | .error e => .next (endXlt s0 j e (arg x 1) 0 true)
      | .ok s1 =>
        .next (endJob s1 j st 0 out.length (uploadCount s i fmt qs))

/-! ### Repair search (R142, R143) -/

/-- A region record. -/
structure Region where
  x0 : Nat
  x1 : Nat
  y0 : Nat
  y1 : Nat
  io : Nat
  srows : Nat
  scols : Nat
deriving DecidableEq, Repr

/-- One record, and whether a field is out of range (R142). -/
def regionOf (l : List Nat) : Region × Bool :=
  let w := fun i => leNat ((l.drop (8 * i)).take 8)
  let r : Region := ⟨bits (w 0) 0 24, bits (w 0) 32 24, bits (w 1) 0 24, bits (w 1) 32 24, w 2, bits (w 3) 0 7, bits (w 3) 8 7⟩
  (r, decide (r.x1 < r.x0) || decide (r.y1 < r.y0) || r.io == 0 || decide (64 < r.srows) || decide (64 < r.scols))

/-- A bit of the record outside its fields is set (R152). -/
def regionReserved (l : List Nat) : Bool :=
  let w := fun i => leNat ((l.drop (8 * i)).take 8)
  [w 0, w 1].any (fun v => bits v 24 8 != 0 || bits v 56 8 != 0) || bit (w 3) 7 || bits (w 3) 15 49 != 0

/-- The regions of a table of n records. -/
def regionsOf : Nat → List Nat → List (List Nat)
  | 0, _ => []
  | n + 1, l => l.take 32 :: regionsOf n (l.drop 32)

/-- Two regions share a cell. -/
def regionsMeet (a b : Region) : Bool :=
  decide (a.x0 ≤ b.x1) && decide (b.x0 ≤ a.x1) && decide (a.y0 ≤ b.y1) && decide (b.y0 ≤ a.y1) && a.io &&& b.io != 0

def anyMeet : List Region → Bool
  | [] => false
  | r :: rest => rest.any (regionsMeet r) || anyMeet rest

/-- A failing cell. -/
structure RCell where
  y : Nat
  x : Nat
  io : Nat
deriving DecidableEq, Repr

def inRegion (r : Region) (c : RCell) : Bool :=
  decide (r.x0 ≤ c.x) && decide (c.x ≤ r.x1) && decide (r.y0 ≤ c.y) && decide (c.y ≤ r.y1) && bit r.io c.io

/-- A partial cover: spare rows and columns taken, spares left, and what was taken (kind, address, io), in order. -/
structure Cover where
  rows : List Nat
  cols : List (Nat × Nat)
  rl : Nat
  cl : Nat
  taken : List (Nat × Nat × Nat)
deriving DecidableEq, Repr

def uncovered (cells : List RCell) (c : Cover) : List RCell :=
  cells.filter fun e => !c.rows.contains e.y && !c.cols.contains (e.x, e.io)

def takeRow (c : Cover) (y : Nat) : Cover := { c with rows := y :: c.rows, rl := c.rl - 1, taken := c.taken ++ [(0, y, 0)] }
def takeCol (c : Cover) (x io : Nat) : Cover :=
  { c with cols := (x, io) :: c.cols, cl := c.cl - 1, taken := c.taken ++ [(1, x, io)] }

/-- Counts by key, ascending. -/
def countBy (l : List Nat) : Map Nat := l.foldl (fun m k => mapPut m k (mapGet m k 0 + 1)) []

/-- The must pass over rows. -/
def mustRows (cells : List RCell) (c : Cover) : Option Cover :=
  (countBy ((uncovered cells c).map (·.y))).foldl (fun (a : Option Cover) e =>
    a.bind fun c => if c.cl < e.2 then if c.rl == 0 then none else some (takeRow c e.1) else some c) (some c)

/-- The must pass over columns. -/
def mustCols (cells : List RCell) (c : Cover) : Option Cover :=
  (countBy ((uncovered cells c).map fun e => e.x * 64 + e.io)).foldl (fun (a : Option Cover) e =>
    a.bind fun c => if c.rl < e.2 then if c.cl == 0 then none else some (takeCol c (e.1 / 64) (e.1 % 64)) else some c) (some c)

/-- Must passes until nothing changes; `fuel` bounds the spares. -/
def mustAll : Nat → List RCell → Cover → Option Cover
  | 0, _, c => some c
  | fuel + 1, cells, c =>
    (mustRows cells c).bind fun c1 => (mustCols cells c1).bind fun c2 =>
      if c2.taken.length == c.taken.length then some c2 else mustAll fuel cells c2

/-- The cell of lowest (y, x, io). -/
def lowestCell : List RCell → Option RCell
  | [] => none
  | c :: rest => match lowestCell rest with
    | none => some c
    | some d => if d.y < c.y || (d.y == c.y && (d.x < c.x || (d.x == c.x && d.io < c.io))) then some d else some c

/-- The search of R143; every branch takes a spare, so `fuel` of the spares plus one is enough. -/
def solve : Nat → List RCell → Cover → Option Cover
  | 0, _, _ => none
  | fuel + 1, cells, c =>
    match mustAll (c.rl + c.cl + 1) cells c with
    | none => none
    | some c1 =>
      match lowestCell (uncovered cells c1) with
      | none => some c1
      | some e =>
        match (if 0 < c1.rl then solve fuel cells (takeRow c1 e.y) else none) with
        | some r => some r
        | none => if 0 < c1.cl then solve fuel cells (takeCol c1 e.x e.io) else none

/-- The solution of one region for a die's cells. -/
def solveRegion (cells : List RCell) (r : Region) : Option Cover :=
  solve (r.srows + r.scols + 1) (cells.filter (inRegion r)) ⟨[], [], r.srows, r.scols, []⟩

/-- The solutions of all regions from number n, in order; none where some region has none. -/
def solveAll (cells : List RCell) : Nat → List Region → Option (List (Nat × Nat × Nat × Nat))
  | _, [] => some []
  | n, r :: rest =>
    match solveRegion cells r with
    | none => none
    | some c => (solveAll cells (n + 1) rest).map fun l => c.taken.map (fun e => (n, e.1, e.2.1, e.2.2)) ++ l

/-! ### The die's result (R145, R146) -/

/-- The failing cells of a die, all sectors. -/
def dieCells (s : State) (i : Nat) : List RCell :=
  (mergedCells s i [0, 1, 2, 3]).map fun e =>
    let l := e.1 / siteIow s i
    ⟨l / 2 ^ siteXw s i, l % 2 ^ siteXw s i, e.1 % siteIow s i⟩

/-- Rows 1 to 5 of R145: the cause that decides before any search. -/
def dieCause (s : State) (i : Nat) (cells : List RCell) (regs : List Region) : Option Nat :=
  if flag s (siteB i) R.GLB_SITE_STAT_LOST then some 4
  else if flag s (siteB i) R.GLB_SITE_STAT_CAPPED then some 3
  else if flag s (siteB i) R.GLB_SITE_STAT_OOR then some 5
  else if 1048576 < cells.length then some 6
  else if cells.any fun c => !regs.any fun r => inRegion r c then some 2
  else none

/-- STATUS, CAUSE and solution of a die: none of the causes, then the budget (row 6), then the regions (rows 7, 8). -/
def dieResult (s : State) (i : Nat) (regs : List Region) (expired spilled : Bool) : Nat × Nat × List (Nat × Nat × Nat × Nat) :=
  match dieCause s i (dieCells s i) regs with
  | some c => (2, c, [])
  | none =>
    if expired then (3, b2n (!spilled), [])
    else match solveAll (dieCells s i) 0 regs with
      | none => (2, 1, [])
      | some l => (1, 0, l)

/-- The result record and solution entries (R146). -/
def dieRecord (s : State) (i nreg elapsed : Nat) (r : Nat × Nat × List (Nat × Nat × Nat × Nat)) : List Nat :=
  let rows := (r.2.2.filter (·.2.1 == 0)).length
  leBytes 8 (i + r.1 * 2 ^ 8 + r.2.1 * 2 ^ 16 + r.2.2.length * 2 ^ 32) ++
  leBytes 8 ((dieCells s i).length + elapsed * 2 ^ 32) ++ leBytes 8 (siteFlags s i + nreg * 2 ^ 16) ++
  leBytes 8 (rows + (r.2.2.length - rows) * 2 ^ 32) ++
  r.2.2.flatMap fun e => leBytes 8 (e.1 + e.2.1 * 2 ^ 10 + e.2.2.2 * 2 ^ 11 + e.2.2.1 * 2 ^ 24)

/-- Whole records while they fit. -/
def fitRecords (len : Nat) : List (List Nat) → List (List Nat)
  | [] => []
  | r :: rest => if r.length ≤ len then r :: fitRecords (len - r.length) rest else []

/-- The end of ANALYZE_REPAIR: the records go to the result buffer (R146, R151). -/
def analyzeEnd (s : State) (j : Nat) (x : Job) : State :=
  let recs := x.prior.map fun i => ((getSite s i).repair.map (·.2.2)).getD []
  let fit := fitRecords (arg x 3) recs
  let st := if fit.length < recs.length then 0x0123 else if x.prior.any (siteFlagged s) then 0x0020 else 0
  let n := fun k => x.tally.getD k 0
  writeAndEnd s j (arg x 2) (fit.flatMap id) st (n 0) (n 1 + n 2 * 2 ^ 32) (n 3)

/-- The die at the head of the job's list gets its result; the job ends after its last. The tally holds dies REPAIRED,
UNREPAIRABLE, TIMEOUT and spilled, spilled bytes, and whether a spill no longer fitted. -/
def dieDone (s : State) (j : Nat) (x : Job) (regs : List Region) (expired : Bool) : State :=
  match x.units with
  | [] => s
  | i :: rest =>
    let n := fun k => x.tally.getD k 0
    let up := if expired && dieCause s i (dieCells s i) regs == none then
        uploadHeader s i 2 15 ++ bodyBytes s i 2 [0, 1, 2, 3] (bodyLen s i 2 [0, 1, 2, 3]) else []
    let spilled := up != [] && arg x 4 != 0 && n 5 == 0 && decide (n 4 + up.length ≤ arg x 5)
    let r := dieResult s i regs expired spilled
    let e := freshNat s
    let rec_ := dieRecord s i regs.length (e.1 % (bits (arg x 1) 32 32 + 1)) r
    let rows := (r.2.2.filter (·.2.1 == 0)).length
    match (if spilled then jobWrite e.2 j (arg x 4 + n 4) up else .ok e.2) with
    | .error st => endXlt e.2 j st (arg x 4 + n 4) 0 true
    | .ok s1 =>
      let s2 := wr (putSite s1 i { getSite s1 i with repair := some (rows, r.2.2.length - rows, rec_) })
        (siteB i) R.GLB_SITE_STAT_REPAIR r.1
      let tally := [n 0 + b2n (r.1 == 1), n 1 + b2n (r.1 == 2), n 2 + b2n (r.1 == 3), n 3 + b2n spilled,
        n 4 + (if spilled then up.length else 0), if up != [] && !spilled then 1 else n 5]
      let x1 := { x with units := rest, tally := tally }
      let s3 := { putJob s2 j x1 with items := s2.items.erase (j, i) }
      if rest == [] then analyzeEnd s3 j x1 else s3

/-- The job's site mask and regions are right: it begins, and every die waits (R144, R150). -/
def analyzeStart (s : State) (j : Nat) (x : Job) (mask : Nat) (recs : List (List Nat)) : State :=
  let sites := maskBits 256 mask
  let regs := recs.map regionOf
  if sites.any (earlierSiteJob s j) then s
  else if mask == 0 || bits (arg x 1) 32 32 == 0 || recs.any regionReserved then endJob s j 0x0120 0 0 0
  else if regs.any (·.2) || anyMeet (regs.map (·.1)) then endJob s j 0x0121 0 0 0
  else if sites.any (siteInGang s) then endJob s j 0x0124 0 0 0
  else
    let dies := sites.filter fun i => siteForm s i != 0
    match dies.find? fun i => [0, 1, 2, 3].any (ledgerBad s i) with
    | some i => endJob (setF s (siteB i) R.GLB_SITE_STAT_LOST) j 0x0720 0 0 0
    | none =>
      let s1 := dies.foldl (fun s i => wr s (siteB i) R.GLB_SITE_STAT_REPAIR 4) s
      let s2 := siteJoin s1 j sites
      let x1 := { x with phase := .running, units := dies, tally := [0, 0, 0, 0, 0, 0], prior := dies }
      let s3 := { putJob s2 j x1 with items := s2.items ++ dies.map fun i => (j, i) }
      if dies == [] then analyzeEnd s3 j x1 else s3

/-- The job's table: site mask, then region records. -/
def analyzeWith (s : State) (j : Nat) (x : Job) (k : List Nat → State) : State :=
  needBytes s j (arg x 0) (32 + 32 * (bits (arg x 1) 0 10 + 1)) k

/-- ANALYZE_REPAIR: the first command checks and begins the job, each further one completes its next die. -/
def execAnalyzeRepair (j : Nat) (s : State) : Host.Outcome State Fault Refusal :=
  match jobReady s j 0x41 with
  | none => .next s
  | some x =>
    .next (analyzeWith s j x fun l =>
      let recs := regionsOf (bits (arg x 1) 0 10 + 1) (l.drop 32)
      if x.phase == .running then dieDone s j x (recs.map fun r => (regionOf r).1) false
      else analyzeStart s j x (leNat (l.take 32)) recs)

/-- REPAIR_BUDGET_EXPIRY (R144). -/
def execRepairBudgetExpiry (j : Nat) (s : State) : Host.Outcome State Fault Refusal :=
  match jobReady s j 0x41 with
  | none => .next s
  | some x =>
    if x.phase == .running then
      .next (analyzeWith s j x fun l =>
        dieDone s j x ((regionsOf (bits (arg x 1) 0 10 + 1) (l.drop 32)).map fun r => (regionOf r).1) true)
    else .next s

/-! ### BIN (R147 to R149) -/

/-- A limit entry. -/
structure Limit where
  input : Nat
  slot : Nat
  inside : Bool
  bin : Nat
  fmask : Nat
  lo : Int
  hi : Int
deriving DecidableEq, Repr

def limitOf (l : List Nat) : Limit :=
  let w := leNat (l.take 8)
  let v := leNat ((l.drop 8).take 8)
  let u := bits w 0 4 == 0 || bits w 0 4 == 5
  let n := fun (a : Nat) => if u then (a : Int) else signed 32 a
  ⟨bits w 0 4, bits w 4 4, bit w 8, bits w 16 8, bits w 32 16, n (bits v 0 32), n (bits v 32 32)⟩

/-- A bit of the entry outside its fields is set. -/
def limitReserved (l : List Nat) : Bool :=
  let w := leNat (l.take 8)
  bits w 9 7 != 0 || bits w 24 8 != 0 || bits w 48 16 != 0

def limitsOf : Nat → List Nat → List (List Nat)
  | 0, _ => []
  | n + 1, l => l.take 16 :: limitsOf n (l.drop 16)

/-- The parametric entries of a site's channels in a slot (R147). -/
def paramsOf (s : State) (i slot : Nat) : List ParamEntry :=
  (List.range 768).filterMap fun c =>
    if siteAt s (c / 16) (c % 16) == some i then mapGet? s.param (c * 16 + slot) else none

/-- The value lies inside [LO, HI] (R148); a missing value lies outside. -/
def limitInside (s : State) (i : Nat) (m : Limit) : Bool :=
  let within := fun (v : Int) => decide (m.lo ≤ v) && decide (v ≤ m.hi)
  let stat := rd s (siteB i) R.GLB_SITE_STAT_REPAIR
  match m.input with
  | 0 => within (rd s (siteB i) R.GLB_SITE_FCNT_FCNT)
  | 1 => decide (stat < 4) && within stat
  | 2 => (getSite s i).repair.any fun r => decide (stat < 4) && within r.1
  | 3 => (getSite s i).repair.any fun r => decide (stat < 4) && within r.2.1
  | 4 =>
    let l := paramsOf s i m.slot
    l != [] && l.all fun e => match e with
      | .valid v => within v
      | .void => false
  | _ => within ((siteFlags s i &&& m.fmask : Nat))

/-- The bin of a site (R149). -/
def siteBin (s : State) (x : Job) (lims : List Limit) (i : Nat) : Nat :=
  if flag s (siteB i) R.GLB_SITE_STAT_SUSPECT then bits (arg x 1) 16 8
  else if flag s (siteB i) R.GLB_SITE_STAT_INCOMPL then bits (arg x 1) 24 8
  else match lims.find? fun m => limitInside s i m == m.inside with
    | some m => m.bin
    | none => bits (arg x 1) 32 8

/-- Write one byte per binned site. -/
def binWrites (j out : Nat) : State → List (Nat × Nat) → Except Nat State
  | s, [] => .ok s
  | s, (i, b) :: rest => match jobWrite s j (out + i) [b] with
    | .ok s1 => binWrites j out s1 rest
    | .error e => .error e

/-- BIN. -/
def execBin (j : Nat) (s : State) : Host.Outcome State Fault Refusal :=
  match jobReady s j 0x42 with
  | none => .next s
  | some x =>
    let n := bits (arg x 1) 0 8 + 1
    .next (needBytes s j (arg x 0) (32 + 16 * n) fun l =>
      let sites := maskBits 256 (leNat (l.take 32))
      let recs := limitsOf n (l.drop 32)
      let lims := recs.map limitOf
      if sites.any (earlierSiteJob s j) then s
      else if sites == [] || recs.any limitReserved then endJob s j 0x0120 0 0 0
      else if lims.any fun m => decide (5 < m.input) || decide (m.hi < m.lo) then endJob s j 0x0122 0 0 0
      else if sites.any (siteInGang s) then endJob s j 0x0124 0 0 0
      else
        let s0 := siteJoin s j sites
        let bins := sites.map fun i => (i, siteBin s0 x lims i)
        let s1 := bins.foldl (fun s e => setF (wr s (siteB e.1) R.GLB_SITE_STAT_BIN e.2) (siteB e.1) R.GLB_SITE_STAT_BINV) s0
        match binWrites j (arg x 2) s1 bins with
        | .ok s2 => endJob s2 j (if sites.any (siteFlagged s) then 0x0020 else 0) sites.length 0 0
        | .error e => endXlt s1 j e (arg x 2) 0 true)

end Sys2Proof.Machine
end

