-- ==== Sys2Proof/Machine/Translate.lean ====
section
/-! DEFINITION. The translation cache, DMA contexts, granules, page faults and invalidations (R288 to R311,
spec/11_translation_and_dma.md). -/
namespace Sys2Proof.Machine

/-! ### The translation cache (R290, R291) -/

/-- The largest size the cache holds that does not exceed a returned one (R290). -/
def entrySize (size : Nat) : Nat := if 30 ≤ size then 30 else if 21 ≤ size then 21 else 12

/-- The cache entries of a PASID. -/
def ofPasid (e : AtcEntry) (pasid : Nat) : Bool := e.pv && e.pasid == pasid

/-- The distinct PASIDs that hold entries. -/
def heldPasids (l : List AtcEntry) : List Nat := ((l.filter (·.pv)).map (·.pasid)).eraseDups

/-- The entry or PASID of least use among those given as (use, code). -/
def leastUsed : List (Nat × Nat) → Option (Nat × Nat)
  | [] => none
  | a :: rest => match leastUsed rest with
    | none => some a
    | some b => if b.1 < a.1 then some b else some a

/-- Room for one entry: the least recently used unlocked entry goes where the cache is full, and every entry of the
least recently used PASID without a locked entry where a 4,097th PASID comes (R290). -/
def atcRoom (l : List AtcEntry) (pv : Bool) (pasid : Nat) : List AtcEntry :=
  let ps := heldPasids l
  let l1 := if pv && !ps.contains pasid && decide (4096 ≤ ps.length) then
      let free := ps.filter fun p => !l.any fun e => ofPasid e p && e.locks != []
      match leastUsed (free.map fun p => (((l.filter fun e => ofPasid e p).map (·.used)).foldl max 0, p)) with
      | some x => l.filter fun e => !ofPasid e x.2
      | none => l
    else l
  if decide (8192 ≤ l1.length) then
    match leastUsed ((l1.filter fun e => e.locks == []).map fun e => (e.used, e.used)) with
    | some x => l1.filter fun e => e.locks != [] || e.used != x.1
    | none => l1
  else l1

/-- Store a translation for the page a request named (R290). -/
def atcFill (s : State) (x : XltReq) (va size pa : Nat) (r w : Bool) : State :=
  let z := entrySize size
  let base := x.va / 2 ^ z * 2 ^ z
  let old := s.xlt.atc.filter fun e => !(e.pv == x.pv && (!x.pv || e.pasid == x.pasid) && e.va == base && e.size == z)
  let locks := (s.xlt.atc.filter fun e => e.pv == x.pv && (!x.pv || e.pasid == x.pasid) && e.va == base && e.size == z).flatMap (·.locks)
  let l := atcRoom old x.pv x.pasid
  updXlt s fun y =>
    { y with clock := y.clock + 1, atc := l ++ [⟨x.pv, x.pasid, base, z, pa + (base - va), r, w, locks, y.clock⟩] }

/-- An access uses the entry that serves it. -/
def atcTouch (s : State) (pv : Bool) (pasid va : Nat) (isWr : Bool) : State :=
  match atcFind s pv pasid va isWr with
  | none => s
  | some e =>
    updXlt s fun y =>
      { y with clock := y.clock + 1, atc := y.atc.map (fun x => if x == e then { x with used := y.clock } else x) }

/-- The first 4 KiB page of a range that the cache does not serve; `rw` asks for both permissions (R297). -/
def missingPage (s : State) (pv : Bool) (pasid base len : Nat) (isWr rw : Bool) : Option Nat :=
  ((List.range ((base + len + 4095) / 4096 - base / 4096)).map fun i => (base / 4096 + i) * 4096).find? fun a =>
    (atcFind s pv pasid a isWr).isNone || (rw && (atcFind s pv pasid a (!isWr)).isNone)

/-- An entry overlaps a range. -/
def entryIn (e : AtcEntry) (pv : Bool) (pasid base len : Nat) : Bool :=
  e.pv == pv && (!pv || e.pasid == pasid) && decide (e.va < base + len) && decide (base < e.va + 2 ^ e.size)

/-- Lock every entry of the ranges for a holder; none where more than 4,096 would be locked (R291). -/
def atcLock (s : State) (who : Nat) (pv : Bool) (pasid : Nat) (ranges : List (Nat × Nat)) : Option State :=
  let l := s.xlt.atc.map (fun e =>
    if ranges.any (fun r => entryIn e pv pasid r.1 r.2) && !e.locks.contains who then { e with locks := who :: e.locks } else e)
  if (l.filter fun e => e.locks != []).length ≤ 4096 then some { s with xlt := { s.xlt with atc := l } } else none

/-- Release every lock of a holder. -/
def atcUnlock (s : State) (who : Nat) : State :=
  updXlt s fun y => { y with atc := y.atc.map (fun e => { e with locks := e.locks.filter (· != who) }) }

/-! ### Rings as holders of translations (R265, R294): SQ q is q, CQ or EVR r is 256 + r -/

def isSq (r : Nat) : Bool := decide (r < 256)
def ringB (r : Nat) : Nat := if isSq r then sqB r else cqB (r - 256)
def ringPv (s : State) (r : Nat) : Bool := flag s (ringB r) (if isSq r then R.HAT_SQ_CFG_PV else R.HAT_CQ_CFG_PV)
def ringPasid (s : State) (r : Nat) : Nat := rd s (ringB r) (if isSq r then R.HAT_SQ_PASID_PASID else R.HAT_CQ_PASID_PASID)
def ringLog2 (s : State) (r : Nat) : Nat := rd s (ringB r) (if isSq r then R.HAT_SQ_CFG_LOG2 else R.HAT_CQ_CFG_LOG2)
def ringBase (s : State) (r : Nat) : Nat :=
  if isSq r then rd64 s (ringB r) R.HAT_SQ_BASE_LO_BASE R.HAT_SQ_BASE_HI_BASE
  else rd64 s (ringB r) R.HAT_CQ_BASE_LO_BASE R.HAT_CQ_BASE_HI_BASE
def ringPloc (s : State) (q : Nat) : Nat := rd64 s (sqB q) R.HAT_SQ_PLOC_LO_PLOC R.HAT_SQ_PLOC_HI_PLOC
def ringEn (s : State) (r : Nat) : Bool := flag s (ringB r) (if isSq r then R.HAT_SQ_CTL_EN else R.HAT_CQ_CTL_EN)

/-- The ranges a ring holds: its memory and, for an SQ, its producer-index location. -/
def ringRanges (s : State) (r : Nat) : List (Nat × Nat) :=
  if isSq r then [(ringBase s r, 64 * 2 ^ ringLog2 s r), (ringPloc s r, 8)] else [(ringBase s r, 32 * 2 ^ ringLog2 s r)]

/-- Set a ring's error and cause. -/
def ringErr (s : State) (r cause : Nat) : State :=
  if isSq r then wr (setF s (ringB r) R.HAT_SQ_STAT_ERR) (ringB r) R.HAT_SQ_STAT_ECAUSE cause
  else wr (setF s (ringB r) R.HAT_CQ_STAT_ERR) (ringB r) R.HAT_CQ_STAT_ECAUSE cause

/-- An enabled ring stops by an error: a RING_ERR event with the offending value (R268, R280, R294). -/
def ringStop (s : State) (r cause value : Nat) : State :=
  let s1 := ringErr s r cause
  postEvt { s1 with rings := { s1.rings with stopped := r :: s1.rings.stopped.filter (· != r) } } 0x06 r cause value

/-- An error whose offending value the spec does not name: a free value. -/
def ringStopFree (s : State) (r cause : Nat) : State :=
  let v := freshNat s
  ringStop v.2 r cause (v.1 % 2 ^ 32)

/-! ### Real-time contexts (R297, R298) -/

def ctxPv (s : State) (k : Nat) : Bool := flag s (ctxB k) R.XLT_CTX_CFG_PV
def ctxPasid (s : State) (k : Nat) : Nat := rd s (ctxB k) R.XLT_CTX_PASID_PASID

/-- The pin windows in use. -/
def pinWindows (s : State) (k : Nat) : List (Nat × Nat) :=
  ((List.range 4).map fun w => (rdi s (ctxB k) R.XLT_PIN_BASE_LO_BASE w + rdi s (ctxB k) R.XLT_PIN_BASE_HI_BASE w * 2 ^ 32,
    rdi s (ctxB k) R.XLT_PIN_SIZE_SIZE w * 4096)).filter fun x => x.2 != 0

/-- The first page of a context's windows without a translation for reads and writes. -/
def pinMissing (s : State) (k : Nat) : Option Nat :=
  (pinWindows s k).findSome? fun w => missingPage s (ctxPv s k) (ctxPasid s k) w.1 w.2 true true

/-- Ask for the next page of a pin under way. -/
def pinStep (s : State) (k : Nat) : State :=
  match pinMissing s k with
  | some a => askXlt s (ctxPv s k) (ctxPasid s k) a true (600 + k)
  | none => s

/-- A pin ends without success: locks and reservation are released (R297). -/
def pinFail (s : State) (k : Nat) : State :=
  let s1 := setF (clrF (clrF s (ctxB k) R.XLT_CTX_STAT_PBUSY) (ctxB k) R.XLT_CTX_CFG_EN) (ctxB k) R.XLT_CTX_STAT_PFAIL
  atcUnlock { s1 with xlt := { s1.xlt with pinFail := s1.xlt.pinFail.filter (· != k) } } (600 + k)

/-- A context is in use (R295): by a job in flight, until its completion is written or waits, or by a tile's pattern. -/
def ctxInUse (s : State) (k : Nat) : Bool :=
  s.rings.jobs.any (fun e => e.2.ctx == k) ||
  allTiles.any fun t => match (getTile s t).pat with
    | some p => match p.src with
      | .host _ _ _ c => c == k
      | .home _ => false
    | none => false

/-- CONTEXT_ENABLE (R297); a reservation earns credit from here on (R300). -/
def contextEnable (s : State) (k : Nat) : State :=
  let b := ctxB k
  if flag s b R.XLT_CTX_CFG_EN || flag s b R.XLT_CTX_STAT_PBUSY then s
  else if !isRt k then setF s b R.XLT_CTX_CFG_EN
  else if !flag s glb R.XLT_STAT_ATS_EN then pinFail s k
  else
    let s1 := setF s b R.XLT_CTX_STAT_PBUSY
    if decide (384 < reserved s1 false) || decide (384 < reserved s1 true) then setF (pinFail s1 k) b R.XLT_CTX_STAT_RFAIL
    else pinStep (updXlt s1 fun y => { y with credit := mapPut (mapPut y.credit (2 * k) (0, s.now)) (2 * k + 1) (0, s.now) }) k

def execContextEnable (k : CtxIx) (s : State) : Host.Outcome State Fault Refusal :=
  .next (barWrite s none (ctxB k) fun s => contextEnable s k)

/-- CONTEXT_DISABLE (R295, R297). -/
def contextDisable (s : State) (k : Nat) : State :=
  let b := ctxB k
  if ctxInUse s k then setF s b R.XLT_CTX_STAT_WR_IGN
  else
    let s1 := clrF (clrF (clrF s b R.XLT_CTX_CFG_EN) b R.XLT_CTX_STAT_PINNED) b R.XLT_CTX_STAT_PBUSY
    atcUnlock { s1 with xlt := { s1.xlt with pinFail := s1.xlt.pinFail.filter (· != k) } } (600 + k)

def execContextDisable (k : CtxIx) (s : State) : Host.Outcome State Fault Refusal :=
  .next (barWrite s none (ctxB k) fun s => contextDisable s k)

/-- Cache entries that lie in a context's windows. -/
def pinHeld (s : State) (k : Nat) : Nat :=
  (s.xlt.atc.filter fun e => (pinWindows s k).any fun w => entryIn e (ctxPv s k) (ctxPasid s k) w.1 w.2).length

/-- PIN_DONE (R297): every page is translated and locked, or the pin has failed. A page that has lost its translation meanwhile is
asked for again; windows that need more entries than can be locked fail (R291). -/
def execPinDone (k : CtxIx) (s : State) : Host.Outcome State Fault Refusal :=
  let b := ctxB k
  if !flag s b R.XLT_CTX_STAT_PBUSY then .next s
  else if s.xlt.pinFail.contains k.val then .next (pinFail s k)
  else match pinMissing s k with
    | some _ => .next (if 4096 < pinHeld s k then pinFail s k else pinStep s k)
    | none =>
      match atcLock s (600 + k) (ctxPv s k) (ctxPasid s k) (pinWindows s k) with
      | none => .next (pinFail s k)
      | some s1 => .next (setF (setF (clrF s1 b R.XLT_CTX_STAT_PBUSY) b R.XLT_CTX_STAT_PINNED) b R.XLT_CTX_CFG_EN)

/-! ### Ends by translation (R298, R303, R306, R309) -/

/-- A capture's spill stream failed: the capture ends with FAULT, the open segment closes (R175, R298). -/
def spillFault (s : State) (q j st va done : Nat) : State :=
  endXlt (digHalt (updDig (closeOpen s q (rawNow s q) false) q fun d => { d with spillQ := [] }) q 4 st) j st va done true

/-- A job's transfer cannot go on. -/
def jobFail (s : State) (j st va done : Nat) (isWr : Bool) : State :=
  match getJob? s j with
  | none => s
  | some x =>
    if jobEnded x && !hasOutput s j then s
    else if x.opcode == 0x30 && x.phase == .running then spillFault s (arg x 0 % 4) j st va done
    else endXlt s j st va done isWr

/-- A stream of a job needs bytes of a page. -/
def needsPage (j page : Nat) (y : Stream) : Bool :=
  y.job == j && decide (page < y.va + y.len) && decide (y.va + y.done < page + 4096)

/-- The checkpoint of a job's stream at a page (R304), the offset of its first granule there, and its direction. -/
def waitingAt (s : State) (j page : Nat) : Nat × Bool :=
  match s.xlt.streams.find? (needsPage j page) with
  | some y => (max y.done (page - y.va), y.wr)
  | none => (0, false)

/-- The translation someone waits for has failed with a status. -/
def whoFail (s : State) (page st who : Nat) : State :=
  if who < 600 then
    if s.rings.enabling.contains who then
      ringErr { s with rings := { s.rings with enabling := s.rings.enabling.filter (· != who) } } who 2
    else if ringEn s who then ringStopFree s who 2 else s
  else if who < 700 then { s with xlt := { s.xlt with pinFail := (who - 600) :: s.xlt.pinFail.filter (· != who - 600) } }
  else if who == 790 then updRing s fun r => { r with snapOut := none }
  else if who < 800 then match gangOf s (who - 700) with
    | some (l, _) => gangFault (refillRecord s (who - 700) st) l st
    | none => s
  else if who < 1000 then s
  else jobFail s (who - 1000) st page (waitingAt s (who - 1000) page).1 (waitingAt s (who - 1000) page).2

/-- Suspend or resume a job that waits for a page request (R303, R306, R307). -/
def setSusp (s : State) (who : Nat) (v : Bool) : State :=
  if 1000 ≤ who then match getJob? s (who - 1000) with
    | some x => putJob s (who - 1000) { x with susp := v }
    | none => s
  else s

/-- The sector whose unit a job's transfers serve: a digitizer's, or a FAIL_UPLOAD's first. -/
def jobSector (x : Job) : Option Nat :=
  match x.opcode with
  | 0x30 | 0x31 => some (arg x 0 % 4)
  | 0x40 => (maskBits 4 (bits (arg x 0) 8 4)).head?
  | _ => none

/-- A page fault of a waiting job or refill: counted on its context (`XLT_CTX_FAULTS`); the context or the refill engine asks its
sector's COURIER for service, the DMA event (R219). -/
def countCtxFault (s : State) (who : Nat) : State :=
  if 1000 ≤ who then match getJob? s (who - 1000) with
    | some x =>
      let s1 := incF s (ctxB x.ctx) R.XLT_CTX_FAULTS_FAULTS
      match jobSector x with
      | some q => raiseRole s1 6 q 7
      | none => s1
    | none => s
  else if 700 ≤ who && who < 800 then
    match (getTile s (who - 700)).pat with
    | some p => match p.src with
      | .host _ _ _ k => raiseRole (incF s (ctxB k) R.XLT_CTX_FAULTS_FAULTS) 6 (sectorOf (who - 700)) 7
      | .home _ => s
    | none => s
  else s

/-- A job's stream stands at the page: it has reached the missing translation. -/
def atPage (s : State) (who page : Nat) : Bool :=
  decide (1000 ≤ who) && s.xlt.streams.any fun y => y.job == who - 1000 && (y.va + y.done) / 4096 * 4096 == page && y.wait

/-- Raise a page request group for a fault, or join the one that waits for the page; with no free index it waits (R305). -/
def raiseGroup (s : State) (x : XltReq) : State :=
  let s2 := (x.who.filter fun w => atPage s w x.va).foldl (fun s w => setSusp s w true) s
  match s2.xlt.groups.find? (groupFor x.pv x.pasid x.va x.wr) with
  | some g =>
    updXlt s2 fun y =>
      { y with groups := y.groups.map (fun h => if h == g then { h with who := (h.who ++ x.who).eraseDups } else h) }
  | none =>
    match (List.range 512).find? fun i => !s2.xlt.groups.any fun g => g.idx == i with
    | some i =>
      incF { s2 with xlt := { s2.xlt with groups := s2.xlt.groups ++ [⟨i, x.pv, x.pasid, x.va, x.wr, x.who, false⟩] } }
        glb R.XLT_FAULTS_FAULTS
    | none => { s2 with xlt := { s2.xlt with faultQ := s2.xlt.faultQ ++ [x] } }

/-- A group for which a suspended stream waits remains. -/
def stillSusp (s : State) (who : Nat) : Bool :=
  s.xlt.groups.any fun g => !g.dead && g.who.contains who && atPage s who g.va

/-- R303: a translation that does not grant the access; one that nobody waits for has no effect. -/
def pageFault (s : State) (x : XltReq) : State :=
  if x.who == [] then s
  else if x.retried then x.who.foldl (fun s w => whoFail s x.va 0x0201 w) s
  else if !flag s glb R.XLT_STAT_PRI_EN || flag s glb R.XLT_STAT_PRI_STOP then x.who.foldl (fun s w => whoFail s x.va 0x0200 w) s
  else
    let relock := x.who.filter fun w => decide (800 ≤ w) && decide (w < 1000)
    if relock == x.who then s
    else raiseGroup (x.who.foldl countCtxFault s) { x with who := x.who.filter fun w => !relock.contains w }

/-! ### Rings: enabling, access (R265, R294) -/

/-- Where a ring's own access leads. -/
def ringResolve (s : State) (r va : Nat) (isWr : Bool) : Where := resolve s (ringPv s r) (ringPasid s r) va isWr

/-- R265: the first page of a ring that is not translated, or that cannot be used. -/
def ringFirst (s : State) (r : Nat) : Option (Nat × Where) :=
  (ringRanges s r).findSome? fun w =>
    ((List.range ((w.1 + w.2 + 4095) / 4096 - w.1 / 4096)).map fun i => (w.1 / 4096 + i) * 4096).findSome? fun a =>
      match ringResolve s r a (!isSq r) with
      | .miss => some (a, .miss)
      | .fail st => some (a, .fail st)
      | _ => none

/-- One ring access of a few bytes inside one page: the ring's translation may have to be asked for again (R294). -/
inductive RingAcc
  | ok (w : Where)
  | wait
  | bad
deriving DecidableEq, Repr

def ringAcc (s : State) (r va : Nat) (isWr : Bool) : RingAcc :=
  match ringResolve s r va isWr with
  | .miss => .wait
  | .fail _ => .bad
  | .dev d => if s.sf.contains (d / 64) then .wait else .ok (.dev d)
  | w => .ok w

/-- Ask again for a ring page whose lock was broken, or for the snoop of a device line that the host holds (R254). -/
def ringAsk (s : State) (r va : Nat) (isWr : Bool) : State :=
  match ringResolve s r va isWr with
  | .dev d => askBi s (d / 64)
  | _ => askXlt s (ringPv s r) (ringPasid s r) va isWr r

/-- Bytes at a place. -/
def whereBytes (s : State) (w : Where) (n : Nat) : List Nat :=
  match w with
  | .host pa => hostBytes s pa n
  | .dev d => devBytes s d n
  | _ => []

def whereStore (s : State) (w : Where) (l : List Nat) : State :=
  match w with
  | .host pa => hostStore s pa l
  | .dev d => devStore s d l
  | _ => s

/-- R268: judge a value V read from or written to a doorbell. -/
def judgeIndex (s : State) (q v : Nat) : State :=
  let b := sqB q
  let pd := rd s b R.HAT_SQ_PIDX_PIDX
  let c := rd s b R.HAT_SQ_CIDX_CIDX
  let n := 2 ^ ringLog2 s q
  let back := (pd + 2 ^ 32 - v) % 2 ^ 32
  if v == pd then s
  else if 1 ≤ back && decide (back ≤ n) then setF s b R.HAT_SQ_STAT_STALE
  else if (v + 2 ^ 32 - c) % 2 ^ 32 ≤ n then wr s b R.HAT_SQ_PIDX_PIDX v
  else ringStop s q 1 v

/-- Read the producer-index location and judge it. -/
def readIndex (s : State) (q : Nat) : State :=
  match ringAcc s q (ringPloc s q) false with
  | .ok w => judgeIndex s q (leNat (whereBytes s w 4))
  | .wait => ringAsk s q (ringPloc s q) false
  | .bad => ringStopFree s q 2

/-- The device cache watches the line of an SQ's producer index (R267). -/
def watchLine (s : State) (q : Nat) : State :=
  if !flag s (sqB q) R.HAT_SQ_CFG_SNOOP || !s.cacheEn then s
  else match ringAcc s q (ringPloc s q) false with
    | .ok (.host pa) => { s with dcache := pa / 64 :: s.dcache.filter (· != pa / 64) }
    | _ => s

/-- R265: the ring's translations are at hand: it is locked and enabled, or fails. -/
def ringEnabled (s : State) (r : Nat) : State :=
  let s0 := { s with rings := { s.rings with enabling := s.rings.enabling.filter (· != r) } }
  let lock := if flag s glb R.XLT_STAT_ATS_EN then atcLock s0 r (ringPv s r) (ringPasid s r) (ringRanges s r) else some s0
  match lock with
  | none => ringErr s0 r 2
  | some s1 =>
    let s2 := { s1 with rings := { s1.rings with stopped := s1.rings.stopped.filter (· != r), pend := mapErase s1.rings.pend r,
                                                 timers := s1.rings.timers.filter (· != r) } }
    if isSq r then
      watchLine (readIndex (wr (wr (setF s2 (sqB r) R.HAT_SQ_CTL_EN) (sqB r) R.HAT_SQ_PIDX_PIDX 0) (sqB r) R.HAT_SQ_CIDX_CIDX 0) r) r
    else
      let b := ringB r
      setF (wr (wr (setF s2 b R.HAT_CQ_CTL_EN) b R.HAT_CQ_WIDX_WIDX 0) b R.HAT_CQ_HIDX_HIDX 0) b R.HAT_CQ_STAT_ACTIVE

/-- Go on with a ring's enable. -/
def enableStep (s : State) (r : Nat) : State :=
  match ringFirst s r with
  | some (a, .miss) => ringAsk s r a (!isSq r)
  | some _ => ringErr { s with rings := { s.rings with enabling := s.rings.enabling.filter (· != r) } } r 2
  | none => ringEnabled s r

/-! ### Translation Completions (R290, R293, R294, R303) -/

/-- A granted translation lets who asked go on; a ring with a snoop doorbell reads its index again (R267); a job's streams restart behind
those that were ready (R304). -/
def whoGo (s : State) (x : XltReq) (who : Nat) : State :=
  if who < 600 then
    if s.rings.enabling.contains who then enableStep s who
    else if ringEn s who then
      match atcLock s who (ringPv s who) (ringPasid s who) (ringRanges s who) with
      | some s1 => if isSq who && flag s (sqB who) R.HAT_SQ_CFG_SNOOP && s.cacheEn then readIndex (watchLine s1 who) who else s1
      | none => s
    else s
  else if who < 700 then if flag s (ctxB (who - 600)) R.XLT_CTX_STAT_PBUSY then pinStep s (who - 600) else s
  else if who < 800 then s
  else if who < 1000 then
    let k := who - 800
    if flag s (ctxB k) R.XLT_CTX_CFG_EN && (pinMissing s k).isNone then
      match atcLock s (600 + k) (ctxPv s k) (ctxPasid s k) (pinWindows s k) with
      | some s1 => setF s1 (ctxB k) R.XLT_CTX_STAT_PINNED
      | none => s
    else s
  else
    let mine := s.xlt.streams.filter fun y => y.job == who - 1000
    let go := mine.map fun y => if (y.va + y.done) / 4096 * 4096 == x.va then { y with wait := false } else y
    let s1 := updXlt s fun z => { z with streams := z.streams.filter (fun y => y.job != who - 1000) ++ go }
    setSusp s1 who (stillSusp s1 who)

/-- Send a request again (R293, R306). -/
def reask (s : State) (x : XltReq) (retried : Bool) : State :=
  incF { s with xlt := { s.xlt with reqs := s.xlt.reqs ++ [{ x with stale := false, retried := retried }] } } glb R.XLT_MISS_MISS

/-- Remove one request. -/
def dropReq (s : State) (x : XltReq) : State := { s with xlt := { s.xlt with reqs := s.xlt.reqs.erase x } }

/-- A pin's request needs both permissions (R297). -/
def granted (x : XltReq) (r w : Bool) : Bool :=
  (if x.wr then w else r) && (!(x.who.any fun n => (decide (600 ≤ n) && decide (n < 700)) || (decide (800 ≤ n) && decide (n < 1000))) || (r && w))

def translationCompletion (s : State) (ans : XltAnswer) : State :=
  match ans with
  | .failed =>
    match s.xlt.reqs with
    | [] => s
    | x :: _ =>
      let s1 := dropReq s x
      if x.stale then reask s1 x x.retried else x.who.foldl (fun s w => whoFail s x.va 0x0200 w) s1
  | .present va size pa r w =>
    match s.xlt.reqs.find? fun x => decide (va ≤ x.va) && decide (x.va < va + 2 ^ size) with
    | none => s
    | some x =>
      let s1 := dropReq s x
      if x.stale then reask s1 x x.retried
      else if granted x r w then x.who.foldl (fun s w => whoGo s x w) (atcFill s1 x va size pa r w)
      else pageFault s1 x

/-- TRANSLATION_COMPLETION. A completion reaches the device over the link. -/
def execTranslationCompletion (ans : XltAnswer) (s : State) : Host.Outcome State Fault Refusal :=
  .next (if flag s glb R.HAT_LINK_STAT_UP then translationCompletion s ans else s)

/-! ### Page request responses (R306) -/

/-- The faults that wait for an index ask again, the oldest first: a freed index serves the first that finds no group to join (R305). -/
def nextFault (s : State) : State := s.xlt.faultQ.foldl raiseGroup { s with xlt := { s.xlt with faultQ := [] } }

def dropGroup (s : State) (idx : Nat) : State :=
  nextFault { s with xlt := { s.xlt with groups := s.xlt.groups.filter (·.idx != idx) } }

/-- The end of the stream that a group was raised for (R305). -/
def groupEnd (s : State) (g : PrgGroup) : Nat :=
  match g.who.head? with
  | none => 0
  | some w =>
    if 1000 ≤ w then ((s.xlt.streams.find? (needsPage (w - 1000) g.va)).map fun y => y.va + y.len).getD 0
    else if 700 ≤ w && w < 790 then match (getTile s (w - 700)).pat with
      | some p => match p.src with
        | .host va _ _ _ => va + p.streamLen
        | .home _ => 0
      | none => 0
    else 0

/-- After a Success the pages of the group are translated again (R306): the faulting page for who waits, and up to 7 following pages of
the stream (R305). -/
def regroup (s : State) (g : PrgGroup) : State :=
  let s1 := reask s ⟨g.pv, g.pasid, g.va, g.wr, g.who, false, true⟩ true
  (((List.range 8).drop 1).map fun i => g.va + i * 4096).foldl (fun s a =>
    if groupEnd s g ≤ a || (atcFind s g.pv g.pasid a g.wr).isSome || s.xlt.reqs.any (reqFor g.pv g.pasid a g.wr) then s
    else reask s ⟨g.pv, g.pasid, a, g.wr, [], false, false⟩ false) s1

def execPageRequestResponse (idx : Nat) (code : PrgResponse) (s : State) : Host.Outcome State Fault Refusal :=
  match s.xlt.groups.find? (·.idx == idx) with
  | none => .next s
  | some g =>
    if !flag s glb R.HAT_LINK_STAT_UP then .next s
    else
      let s1 := dropGroup s idx
      if g.dead then .next s1
      else match code with
        | .success => .next (regroup (g.who.foldl (fun s w => setSusp s w (stillSusp s w)) s1) g)
        | .invalid => .next (g.who.foldl (fun s w => whoFail s g.va 0x0200 w) s1)
        | .failure => .next (setF (g.who.foldl (fun s w => whoFail s g.va 0x0200 w) s1) glb R.XLT_STAT_PRI_STOP)

/-- PRI_TIMEOUT: the index stays reserved until a response comes. -/
def execPriTimeout (idx : Nat) (s : State) : Host.Outcome State Fault Refusal :=
  match s.xlt.groups.find? (·.idx == idx) with
  | none => .next s
  | some g =>
    if g.dead || !flag s glb R.HAT_LINK_STAT_UP then .next s
    else
      let s1 := updXlt s fun y =>
        { y with groups := y.groups.map (fun h => if h.idx == idx then { h with who := [], dead := true } else h) }
      .next (g.who.foldl (fun s w => whoFail s g.va 0x0202 w) s1)

/-! ### Invalidation (R293, R294) -/

/-- A context's pinned page lost its translation (R294). -/
def pinBroken (s : State) (e : AtcEntry) (k : Nat) : State :=
  let b := ctxB k
  let s1 := signal (setF (clrF s b R.XLT_CTX_STAT_PINNED) b R.XLT_CTX_STAT_LBRK) 0x24 k 0
  askXlt s1 e.pv e.pasid e.va true (800 + k)

/-- ATS_INVALIDATE: covered entries are dropped, and answers on the way for the range are void. The queue holds 32 requests; the host
sends none beyond it (R248). -/
def execAtsInvalidate (pv : Bool) (pasid base size : Nat) (s : State) : Host.Outcome State Fault Refusal :=
  if !flag s glb R.HAT_LINK_STAT_UP || decide (32 ≤ s.xlt.invs.length) then .next s
  else
    let gone := s.xlt.atc.filter fun e => entryIn e pv pasid base size
    let hit := fun (x : XltReq) =>
      x.pv == pv && (!pv || x.pasid == pasid) && decide (x.va < base + size) && decide (base < x.va + 4096)
    let s0 := updXlt s fun y =>
      { y with
        atc := y.atc.filter fun e => !entryIn e pv pasid base size
        reqs := y.reqs.map (fun x => if hit x then { x with stale := true } else x)
        invs := y.invs ++ [⟨pv, pasid, base, size, y.tagNext⟩] }
    let s1 := setF s0 glb R.XLT_STAT_INVPEND
    let s2 := if gone.any fun e => e.locks != [] then setF s1 glb R.XLT_STAT_LBRK else s1
    .next (gone.foldl (fun s e => (e.locks.filter fun w => decide (600 ≤ w) && decide (w < 700)).foldl (fun s w => pinBroken s e (w - 600)) s) s2)

/-- A read issued before the invalidation came is still out under a translation that it covers. -/
def readCovered (s : State) (i : InvReq) : Bool :=
  s.xlt.reads.any fun t => decide (t.tagNo < i.upTo) && t.pv == i.pv && (!i.pv || t.pasid == i.pasid) &&
    decide (t.va < i.base + i.size) && decide (i.base < t.va + t.len)

/-- INVALIDATE_COMPLETION. -/
def execInvalidateCompletion (s : State) : Host.Outcome State Fault Refusal :=
  match s.xlt.invs with
  | [] => .next s
  | i :: rest =>
    if readCovered s i || !flag s glb R.HAT_LINK_STAT_UP then .next s
    else
      let s1 := incF { s with xlt := { s.xlt with invs := rest } } glb R.XLT_INV_INV
      .next (wr s1 glb R.XLT_STAT_INVPEND (b2n (rest != [])))

/-! ### Granules (R299, R300) -/

/-- The priority class of a stream's granules. -/
def streamClass (s : State) (y : Stream) : Nat :=
  if isRt y.ctx then 7 else match getJob? s y.job with
    | some x => x.pri
    | none => 0

/-- A stream with a granule ready in a direction. -/
def granuleReady (s : State) (isWr : Bool) (y : Stream) : Bool :=
  y.wr == isWr && !y.wait && decide (y.done < y.len) && (getJob? s y.job).any fun x => !x.susp

/-- Credit of a reservation now, in 2^-20 bytes: 1 unit of 1/16 GB/s is 1 byte in 16 ns (R300). -/
def creditNow (s : State) (k dir rate : Nat) : Nat :=
  match mapGet? s.xlt.credit (2 * k + dir) with
  | some (c, t) => min (4096 * 2 ^ 20) (c + rate * (s.now - t))
  | none => min (4096 * 2 ^ 20) (rate * s.now)

/-- Rank 2: a reservation with credit for a granule. -/
def rateFirst (s : State) (isWr : Bool) (y : Stream) : Bool :=
  let rate := ctxRate s y.ctx isWr
  rate != 0 && decide (256 * 2 ^ 20 ≤ creditNow s y.ctx (b2n isWr) rate)

/-- The context whose turn it is among those with granules ready: the one in turn keeps it for WEIGHT granules (R300). -/
def wrrCtx (s : State) (dir : Nat) (ks : List Nat) : Option Nat :=
  let cur := mapGet s.xlt.turn dir (0, 0)
  let order := (List.range 64).map fun i => (cur.1 + 1 + i) % 64
  if ks.contains cur.1 && decide (cur.2 < rd s (ctxB cur.1) R.XLT_CTX_CFG_WEIGHT) then some cur.1
  else order.find? ks.contains

/-- The stream of the lowest dispatch order. -/
def oldestOf (s : State) : List Stream → Option Stream
  | [] => none
  | y :: rest => match oldestOf s rest with
    | none => some y
    | some z =>
      let o := fun (y : Stream) => ((getJob? s y.job).map (·.order)).getD 0
      if o z < o y then some z else some y

/-- Where a stream's next byte leads; a page that has passed the checks of R289 keeps its answer. -/
def streamWhere (s : State) (x : Job) (y : Stream) : Where :=
  let a := y.va + y.done
  match resolveJob s x a y.wr with
  | .fail st =>
    if (st == 0x0204 || st == 0x0205) && y.page == some (a / 4096) then
      match atcFind s (jobPv s x) (jobPasid s x) a y.wr, flag s glb R.XLT_STAT_ATS_EN with
      | some e, true => .dev (hdmToDev (hdmOffset s (e.pa + (a - e.va))))
      | _, _ => .dev (hdmToDev (hdmOffset s a))
    else .fail st
  | w => w

/-- A stream's next byte is not known to lie inside the part (R289). -/
def linkBound (s : State) (y : Stream) : Bool :=
  match getJob? s y.job with
  | none => true
  | some x => match streamWhere s x y with
    | .dev _ => false
    | _ => true

/-- The stream whose granule is issued next, and whether it is of rank 2. -/
def nextStream (s : State) (isWr : Bool) : Option (Stream × Bool) :=
  let l := s.xlt.streams.filter fun y => granuleReady s isWr y && linkBound s y
  match l.find? (rateFirst s isWr) with
  | some y => some (y, true)
  | none =>
    let top := (l.map (streamClass s)).foldl max 0
    let l1 := l.filter fun y => streamClass s y == top
    match wrrCtx s (b2n isWr) (l1.map (·.ctx)) with
    | some k => (oldestOf s (l1.filter (·.ctx == k))).map fun y => (y, false)
    | none => none

/-- Account for a granule issued: credit spent, or a turn taken. -/
def spend (s : State) (y : Stream) (rank2 : Bool) : State :=
  let dir := b2n y.wr
  if rank2 then
    let c := creditNow s y.ctx dir (ctxRate s y.ctx y.wr)
    { s with xlt := { s.xlt with credit := mapPut s.xlt.credit (2 * y.ctx + dir) (c - 256 * 2 ^ 20, s.now) } }
  else
    let cur := mapGet s.xlt.turn dir (0, 0)
    { s with xlt := { s.xlt with turn := mapPut s.xlt.turn dir (if cur.1 == y.ctx then (y.ctx, cur.2 + 1) else (y.ctx, 1)) } }

/-- A job whose last output has left completes as decided (R273 item 6). -/
def drained (s : State) (j : Nat) : State :=
  match getJob? s j with
  | none => s
  | some x => match x.phase with
    | .draining st r0 r1 r2 => if hasOutput s j then s else finishJob s j x st r0 r1 r2
    | _ => s

/-- Move a stream on by n bytes; a stream whose last byte is issued is gone. -/
def advance (s : State) (y : Stream) (n : Nat) : State :=
  let f := fun (z : Stream) => if z == y then
    (if y.len ≤ y.done + n then none else some { z with done := z.done + n }) else some z
  drained { s with xlt := { s.xlt with streams := s.xlt.streams.filterMap f } } y.job

/-- R292: a stream near the end of a translated page asks for the next page. -/
def prefetch (s : State) (x : Job) (y : Stream) : State :=
  let a := y.va + y.done
  let edge := (a / 4096 + 1) * 4096
  if flag s glb R.XLT_CTL_PREF && flag s glb R.XLT_STAT_ATS_EN && !isRt y.ctx && decide (edge ≤ a + 1024) && decide (edge < y.va + y.len) &&
      (atcFind s (jobPv s x) (jobPasid s x) edge y.wr).isNone then
    askXlt s (jobPv s x) (jobPasid s x) edge y.wr (1000 + y.job)
  else s

/-- A granule needs a translation that is not at hand (R298, R303): a real-time job ends; another waits, and is
suspended where a page request is out for the page. -/
def granuleMiss (s : State) (x : Job) (y : Stream) : State :=
  let a := y.va + y.done
  if isRt y.ctx then
    jobFail (incF (signal s 0x25 y.ctx 0) (ctxB y.ctx) R.XLT_CTX_FAULTS_FAULTS) y.job 0x0203 a y.done y.wr
  else
    let s1 := updXlt s fun x => { x with streams := x.streams.map (fun z => if z == y then { z with wait := true } else z) }
    let s2 := askXlt s1 (jobPv s x) (jobPasid s x) a y.wr (1000 + y.job)
    if s2.xlt.groups.any fun g => groupFor (jobPv s x) (jobPasid s x) (a / 4096 * 4096) y.wr g && g.who.contains (1000 + y.job) then
      setSusp s2 (1000 + y.job) true
    else s2

/-- A real-time granule may use only a locked translation (R298). -/
def rtUnlocked (s : State) (x : Job) (y : Stream) : Bool :=
  isRt y.ctx && flag s glb R.XLT_STAT_ATS_EN &&
    !(atcFind s (jobPv s x) (jobPasid s x) (y.va + y.done) y.wr).any fun e => e.locks.contains (600 + y.ctx)

/-- Bytes of a stream's next granule: up to the next boundary of 256 bytes. -/
def granuleLen (y : Stream) : Nat := min (y.len - y.done) (256 - (y.va + y.done) % 256)

/-- Issue the next granule of a stream over the link (R299); before its first one its context is checked (R296). -/
def issueGranule (s : State) (x : Job) (y : Stream) (rank2 : Bool) : State :=
  let a := y.va + y.done
  let n := granuleLen y
  match (if y.checked then none else ctxCheck s x y.va y.len) with
  | some st => jobFail s y.job st a y.done y.wr
  | none =>
  if rtUnlocked s x y then granuleMiss s x y
  else match streamWhere s x y with
    | .miss => granuleMiss s x y
    | .fail st => jobFail s y.job st a y.done y.wr
    | .dev _ => s
    | .host pa =>
      let y1 := { y with checked := true, page := some (a / 4096) }
      let s0 := updXlt s fun z => { z with streams := z.streams.map (fun w => if w == y then y1 else w) }
      let s1 := spend (atcTouch s0 (jobPv s x) (jobPasid s x) a y.wr) y1 rank2
      let s2 := if y.wr then hostStore s1 pa ((y.data.drop y.done).take n)
        else { s1 with xlt := { s1.xlt with
          reads := s1.xlt.reads ++ [⟨s1.xlt.tagNext, y.job, a, pa, n, jobPv s x, jobPasid s x⟩], tagNext := s1.xlt.tagNext + 1 } }
      prefetch (advance s2 y1 n) x { y1 with done := y.done + n }

/-! ### Transfers inside the part (R254, R289) -/

/-- The lines of a stream's next granule that the host holds. -/
def granuleHeld (s : State) (y : Stream) (d : Nat) : List Nat :=
  ((List.range (granuleLen y)).map fun i => (d + i) / 64).eraseDups.filter s.sf.contains

/-- A stream whose next bytes lie inside the part, or fail its checks: neither link nor rank nor context is asked. One that waits for
a snoop's response stands back. -/
def devReady (s : State) (isWr : Bool) (y : Stream) : Bool :=
  granuleReady s isWr y && match getJob? s y.job with
    | none => false
    | some x => match streamWhere s x y with
      | .dev d => !(granuleHeld s y d).any fun l => s.biAsked.contains l || s.biSent.contains l
      | .fail st => st == 0x0204 || st == 0x0205
      | _ => false

/-- The next bytes of such a stream move: a line the host holds is snooped back first; a write goes to device memory; a read is
left to the requests of the job. -/
def devGranule (s : State) (x : Job) (y : Stream) : State :=
  let n := granuleLen y
  match streamWhere s x y with
  | .dev d =>
    let held := granuleHeld s y d
    if held != [] then held.foldl askBi s
    else
      let y1 := { y with page := some ((y.va + y.done) / 4096) }
      let s1 := updXlt s fun z => { z with streams := z.streams.map (fun w => if w == y then y1 else w) }
      if y.wr then advance (memAskWrite (devStore s1 d ((y.data.drop y.done).take n)) 4 5 y.job d n) y1 n else advance s1 y1 n
  | .fail st => jobFail s y.job st (y.va + y.done) y.done y.wr
  | _ => s

/-- The bytes of a range lie in pages at hand: store them, bytes 0 to 7 last. -/
def storeAll (s : State) (pv : Bool) (pasid va : Nat) (l : List Nat) : State :=
  ((List.range l.length).drop 8 ++ List.range (min 8 l.length)).foldl (fun s i =>
    whereStore s (resolve s pv pasid (va + i) true) [l.getD i 0]) s

/-- The lines of a range at hand that the host holds. -/
def rangeHeld (s : State) (pv : Bool) (pasid va len : Nat) : List Nat :=
  ((List.range len).filterMap fun i => match resolve s pv pasid (va + i) true with
    | .dev d => if s.sf.contains (d / 64) then some (d / 64) else none
    | _ => none).eraseDups

/-- The write of a snapshot record to `TIM_SNAPBUF` (R360): now, or once its pages are translated and its device lines snooped back;
where an access cannot be made the record is lost. -/
def snapWrite (s : State) : State :=
  match s.ring.snapOut with
  | none => s
  | some (va, l) =>
    let k := rd s glb R.TIM_SNAPBUF_CTX_CTX
    let pages := [va, va + l.length - 1]
    if !linkOpen s || sealed s then s
    else if pages.any fun a => match resolve s (ctxPv s k) (ctxPasid s k) a true with
      | .fail _ => true
      | _ => false
    then updRing s fun r => { r with snapOut := none }
    else match pages.find? fun a => resolve s (ctxPv s k) (ctxPasid s k) a true == .miss with
      | some a => askXlt s (ctxPv s k) (ctxPasid s k) a true 790
      | none =>
        let held := rangeHeld s (ctxPv s k) (ctxPasid s k) va l.length
        if held != [] then held.foldl askBi s
        else updRing (storeAll s (ctxPv s k) (ctxPasid s k) va l) fun r => { r with snapOut := none }

/-- A granule over the link, where it is open. -/
def linkGranule (s : State) (isWr : Bool) : State :=
  match nextStream s isWr with
  | none => if isWr then snapWrite s else s
  | some (y, rank2) =>
    match getJob? s y.job with
    | none => s
    | some x => if linkOpen s then issueGranule s x y rank2 else s

/-- GRANULE_ISSUE: a transfer inside the part that is ready, else a granule over the link. -/
def execGranuleIssue (wr_ : Bool) (s : State) : Host.Outcome State Fault Refusal :=
  match s.xlt.streams.find? (devReady s wr_) with
  | none => .next (linkGranule s wr_)
  | some y => .next (match getJob? s y.job with
    | none => s
    | some x => devGranule s x y)

/-- DMA_READ_COMPLETION (R288): the granule's bytes come back, or the job ends. -/
def execDmaReadCompletion (tagNo : Nat) (ok : Bool) (s : State) : Host.Outcome State Fault Refusal :=
  match s.xlt.reads.find? (·.tagNo == tagNo) with
  | none => .next s
  | some t =>
    if !flag s glb R.HAT_LINK_STAT_UP then .next s
    else
      let s1 := { s with xlt := { s.xlt with reads := s.xlt.reads.erase t } }
      match getJob? s1 t.job with
      | none => .next s1
      | some x =>
        if ok then .next (putJob s1 t.job { x with buf := (t.va, hostBytes s1 t.pa t.len) :: x.buf })
        else .next (jobFail s1 t.job 0x0200 t.va 0 false)

end Sys2Proof.Machine
end

