-- ==== Sys2Proof/Machine/Rings.lean ====
section
/-! DEFINITION. Rings, doorbells, descriptor fetch and its checks, completions, events, interrupts and moderation
(R263 to R281, spec/10_rings_and_doorbells.md; R259, spec/09_host_attach.md). A ring's code is its BAR2 page: SQ q, CQ c
as 256 + c, EVR e as 512 + e. -/
namespace Sys2Proof.Machine

/-! ### Enable and disable (R265, R266) -/

/-- R265: a write of EN = 1. -/
def ringEnable (s : State) (r : Nat) : State :=
  if ringEn s r || s.rings.enabling.contains r then s
  else if ringPv s r && !(flag s glb R.XLT_STAT_ATS_EN && flag s glb R.XLT_STAT_PASID_EN) then ringErr s r 2
  else enableStep (updRings s fun x => { x with enabling := x.enabling ++ [r] }) r

/-- The codes that name a ring. -/
def isRing (r : Nat) : Bool := decide (r < 516)

/-- Offset of a ring's control register. -/
def ringCtl (r : Nat) : Nat := if isSq r then sqB r + 0x18 else ringB r + 0x14

def execRingEnable (r : Nat) (s : State) : Host.Outcome State Fault Refusal :=
  .next (if isRing r then barWrite s none (ringCtl r) fun s => ringEnable s r else s)

/-- The device cache keeps the lines that enabled rings name. -/
def dropWatch (s : State) : State :=
  { s with dcache := s.dcache.filter fun l => (List.range 256).any fun q =>
      ringEn s q && flag s (sqB q) R.HAT_SQ_CFG_SNOOP && ringAcc s q (ringPloc s q) false == .ok (.host (l * 64 + ringPloc s q % 64)) }

/-- Events that wait for a disabled EVR are handled as for a full one (R266, R280). -/
def evrDrop (s : State) (r : Nat) : State :=
  match mapGet? s.rings.evrWait r with
  | some l => addF (updRings s fun x => { x with evrWait := mapErase x.evrWait r }) (ringB r) R.HAT_EVR_LOST_LOST l.length
  | none => s

/-- R266: a write of EN = 0. -/
def ringDisable (s : State) (r : Nat) : State :=
  let s1 := updRings s fun x => { x with enabling := x.enabling.filter (· != r) }
  if isSq r then dropWatch (atcUnlock (clrF s1 (sqB r) R.HAT_SQ_CTL_EN) r)
  else evrDrop (atcUnlock (clrF (clrF s1 (ringB r) R.HAT_CQ_CTL_EN) (ringB r) R.HAT_CQ_STAT_ACTIVE) r) r

def execRingDisable (r : Nat) (s : State) : Host.Outcome State Fault Refusal :=
  .next (if isRing r then barWrite s none (ringCtl r) fun s => ringDisable s r else s)

/-! ### Interrupts (R259, R281) -/

/-- A dword of configuration space that the host has written, else what it holds at reset. -/
def cfgWord (s : State) (off : Nat) : Nat := mapGet s.cfg off 0

/-- A message of vector v cannot be sent now: link down, MSI-X disabled, function mask or vector mask. -/
def msixBlocked (s : State) (v : Nat) : Bool :=
  !flag s glb R.HAT_LINK_STAT_UP || !bit (cfgWord s 0xA0) 31 || bit (cfgWord s 0xA0) 30 || bit (mapGet s.rings.msixTab (4 * v + 3) 1) 0

/-- Raise MSI-X vector v: the message is sent, or its pending bit set (R259). -/
def sendMsix (s : State) (v : Nat) : State :=
  updRings s fun x =>
    if msixBlocked s v then { x with msixPend := if x.msixPend.contains v then x.msixPend else x.msixPend ++ [v] }
    else { x with msixSent := mapPut x.msixSent v (mapGet x.msixSent v 0 + 1) }

/-- Send what is pending and no longer blocked, once each. -/
def msixFlush (s : State) : State :=
  let go := s.rings.msixPend.filter fun v => !msixBlocked s v
  go.foldl sendMsix (updRings s fun x => { x with msixPend := x.msixPend.filter fun v => !go.contains v })

/-- MSIX_UNMASK: the vector's mask bit is cleared. -/
def execMsixUnmask (v : Nat) (s : State) : Host.Outcome State Fault Refusal :=
  if v < 2048 then
    .next (barWrite s none (0x120000 + 16 * v + 12) fun s =>
      msixFlush (updRings s fun x => { x with msixTab := mapPut x.msixTab (4 * v + 3) (clrBit (mapGet x.msixTab (4 * v + 3) 1) 0) }))
  else .next s

/-- A ring's interrupt: pending count and timer start afresh (R281). -/
def ringInterrupt (s : State) (r : Nat) : State :=
  sendMsix (updRings s fun x => { x with pend := mapErase x.pend r, timers := x.timers.filter (· != r) })
    (rd s (ringB r) R.HAT_CQ_CFG_VEC)

/-- An entry has been written to a CQ or EVR (R281). -/
def entryWritten (s : State) (r : Nat) (cie : Bool) : State :=
  if !flag s (ringB r) R.HAT_CQ_CFG_IEN then s
  else
    let n := mapGet s.rings.pend r 0 + 1
    if cie || decide (rd s (ringB r) R.HAT_CQ_IMOD_COUNT ≤ n) then ringInterrupt s r
    else updRings s fun x =>
      { x with pend := mapPut x.pend r n
               timers := if n == 1 && rd s (ringB r) R.HAT_CQ_IMOD_TIME != 0 then r :: x.timers.filter (· != r) else x.timers }

/-- IMOD_TIMER_EXPIRY. -/
def execImodTimerExpiry (r : Nat) (s : State) : Host.Outcome State Fault Refusal :=
  .next (if s.rings.timers.contains r then ringInterrupt s r else s)

/-! ### Writing entries (R264, R274, R275) -/

def ringW (s : State) (r : Nat) : Nat := rd s (ringB r) R.HAT_CQ_WIDX_WIDX
def ringH (s : State) (r : Nat) : Nat := rd s (ringB r) R.HAT_CQ_HIDX_HIDX

/-- Entries a CQ or EVR holds. -/
def ringHeld (s : State) (r : Nat) : Nat := (ringW s r + 2 ^ 32 - ringH s r) % 2 ^ 32

def ringFull (s : State) (r : Nat) : Bool := ringHeld s r == 2 ^ ringLog2 s r

/-- The stream that carries ring traffic has failed its integrity check (R258): CXL.cache where the cache is enabled. -/
def ideBlocked (s : State) : Bool := if s.cacheEn then s.cmBad else s.ioIde.any (·.2)

/-- The slot of a ring lies inside the part, where no stream carries it. -/
def ringInPart (s : State) (r : Nat) : Bool :=
  match ringResolve s r (ringBase s r) (!isSq r) with
  | .dev _ => true
  | _ => false

/-- Entries can be written to a ring now, as far as the link and its enable go. -/
def ringOpen (s : State) (r : Nat) : Bool :=
  linkOpen s && (!ideBlocked s || ringInPart s r) && ringEn s r && !s.rings.stopped.contains r

/-- Address of the slot of an index. -/
def slotAddr (s : State) (r index size : Nat) : Nat := ringBase s r + index % 2 ^ ringLog2 s r * size

/-- The PHASE of the next entry (R275). -/
def phaseOf (s : State) (r : Nat) : Nat := 1 - ringW s r / 2 ^ ringLog2 s r % 2

/-- An entry with its PHASE bit, bit 63 of its last word. -/
def withPhase (s : State) (r : Nat) (l : List Nat) : List Nat := listSet l 31 (l.getD 31 0 % 128 + 128 * phaseOf s r)

/-- Write one entry of 32 bytes and move W; where the translation is gone it is asked for, where it fails the ring
stops (R294). Answers whether it was written. -/
def putEntry (s : State) (r : Nat) (l : List Nat) (cie : Bool) : State × Bool :=
  let a := slotAddr s r (ringW s r) 32
  match ringAcc s r a true with
  | .wait => (ringAsk s r a true, false)
  | .bad => (ringStopFree s r 2, false)
  | .ok w => (entryWritten (wr (whereStore s w (withPhase s r l)) (ringB r) R.HAT_CQ_WIDX_WIDX (ringW s r + 1)) r cie, true)

/-- The completion entry of a job (R279), its PHASE bit clear. -/
def cplEntry (x : Job) (st r0 r1 r2 : Nat) : List Nat :=
  leBytes 8 (x.tag + st * 2 ^ 32 + x.sq * 2 ^ 48 + x.opcode * 2 ^ 56) ++
  leBytes 8 ((x.cidx + 1) % 2 ^ 32 + r0 % 2 ^ 32 * 2 ^ 32) ++ leBytes 8 r1 ++ leBytes 8 (r2 % 2 ^ 32)

/-- The CQ of a job, as a ring code. -/
def cqOf (s : State) (x : Job) : Nat := 256 + rd s (sqB x.sq) R.HAT_SQ_CFG_CQ

/-- The status and results of a completed job. -/
def jobDone (x : Job) : Option (Nat × Nat × Nat × Nat) :=
  match x.phase with
  | .done st r0 r1 r2 => some (st, r0, r1, r2)
  | _ => none

/-- The first of the completed jobs of a ring, in the order in which they completed (R274). -/
def oldestDone (s : State) (r : Nat) : Option (Nat × Job) :=
  (s.rings.jobs.filter fun e => (jobDone e.2).isSome && cqOf s e.2 == r).foldl (fun (a : Option (Nat × Job)) e => match a with
    | none => some e
    | some b => if e.2.order < b.2.order then some e else some b) none

/-- A job's table entry is freed (R271). -/
def dropJob (s : State) (j : Nat) : State := updRings s fun x => { x with jobs := mapErase x.jobs j }

def waitingFor (s : State) (r : Nat) : List WaitCpl := s.rings.waiting.filter fun w => w.cq == r

/-- Place i of sector q's area of waiting completions (R315). -/
def cplPlace (q i : Nat) : Nat := carveB q + 0x400000 + 32 * i

/-- The place of a new waiting completion: a free one in the area of the lowest-numbered sector that has room. -/
def freePlace (s : State) : Nat :=
  let n := s.rings.waiting.length + 1
  (((List.range 4).findSome? fun q => (List.range (min n 16384)).findSome? fun i =>
    if s.rings.waiting.any fun w => w.place == cplPlace q i then none else some (cplPlace q i))).getD (cplPlace 0 0)

/-- A completion enters the pool in the carve-out where it has a place (R274, R315). -/
def poolCpl (s : State) (r j : Nat) (l : List Nat) (cie : Bool) : State :=
  if s.rings.waiting.length < 65536 then
    let d := freePlace s
    dropJob (updRings (devStore s d l) fun x => { x with waiting := x.waiting ++ [⟨r, l, cie, d⟩] }) j
  else s

/-- COMPLETION_WRITE: the oldest completion of CQ c is written, or waits. -/
def execCompletionWrite (c : RingIx) (s : State) : Host.Outcome State Fault Refusal :=
  let r := 256 + c.val
  match oldestDone s r with
  | none => .next s
  | some (j, x) =>
    match jobDone x with
    | none => .next s
    | some (st, r0, r1, r2) =>
      let l := cplEntry x st r0 r1 r2
      if !ringOpen s r || ringFull s r || waitingFor s r != [] then .next (poolCpl s r j l x.cie)
      else
        let p := putEntry s r l x.cie
        .next (if p.2 then dropJob p.1 j else p.1)

/-- WAITING_COMPLETION_WRITE: the oldest waiting completion of CQ c is written once it has room. -/
def execWaitingCompletionWrite (c : RingIx) (s : State) : Host.Outcome State Fault Refusal :=
  let r := 256 + c.val
  match waitingFor s r with
  | [] => .next s
  | w :: _ =>
    if !ringOpen s r || ringFull s r then .next s
    else
      let p := putEntry s r w.entry w.cie
      .next (if p.2 then updRings p.1 fun x => { x with waiting := x.waiting.erase w } else p.1)

/-! ### Head indices and doorbells (R267 to R269) -/

/-- A head index for a CQ or EVR. -/
def headWrite (s : State) (r v : Nat) : State :=
  let b := ringB r
  if ringHeld s r < (v + 2 ^ 32 - ringH s r) % 2 ^ 32 then setF s b R.HAT_CQ_STAT_STALE
  else
    let s1 := wr s b R.HAT_CQ_HIDX_HIDX v
    if ringHeld s1 r == 0 then updRings s1 fun x => { x with pend := mapErase x.pend r, timers := x.timers.filter (· != r) } else s1

/-- BAR2 is reached: D0, READY, not SEALED, no reset in progress (R245, R416, R479). -/
def bar2Open (s : State) : Bool := !barClosed s && !sealed s && !flag s glb R.GLB_RST_STAT_BUSY

/-- A doorbell write: accepted in either mode, by an enabled ring; an error stops only its fetching (R268). -/
def doorbell (s : State) (q v : Nat) : State := if bar2Open s && ringEn s q then judgeIndex s q v else s

/-- A head-index write. -/
def headDoor (s : State) (r v : Nat) : State := if bar2Open s && decide (256 ≤ r) && isRing r then headWrite s r v else s

/-- HEAD_INDEX_WRITE: BAR2 page r of a CQ or EVR. -/
def execHeadIndexWrite (r : Nat) (v : Word) (s : State) : Host.Outcome State Fault Refusal :=
  .next (headDoor s r v.toNat)

/-- MMIO_DOORBELL. -/
def execMmioDoorbell (q : RingIx) (v : Word) (s : State) : Host.Outcome State Fault Refusal :=
  .next (doorbell s q v.toNat)

/-! ### Events (R280) -/

/-- An event entry, its PHASE bit clear. -/
def evtEntry (type unit arg0 arg1 time : Nat) : List Nat :=
  leBytes 8 (type + unit * 2 ^ 16 + arg0 % 2 ^ 32 * 2 ^ 32) ++ leBytes 8 (fracOf time + nsOf time * 2 ^ 16) ++
  leBytes 8 (secOf time % 2 ^ 48) ++ leBytes 8 (arg1 % 2 ^ 32)

def evrLost (s : State) (e : Nat) : Nat := rd s (ringB (512 + e)) R.HAT_EVR_LOST_LOST

/-- Room has returned to EVR e and it has lost entries: EVT_LOST is posted with their count. -/
def postLost (s : State) (e : Nat) : State :=
  let r := 512 + e
  if evrLost s e == 0 || !ringOpen s r || ringFull s r then s
  else
    let p := putEntry s r (evtEntry 0x07 e (evrLost s e) 0 s.now) false
    if p.2 then clrF p.1 (ringB r) R.HAT_EVR_LOST_LOST else p.1

/-- The events that wait at an EVR, oldest first: written where there is room, lost where it is full, and waiting where its
translation must be asked for again, its stream has failed or it has stopped by an error (R280, R294). -/
def evrDrain (s : State) (e : Nat) : List Event → State × List Event
  | [] => (s, [])
  | x :: rest =>
    let r := 512 + e
    let s1 := postLost s e
    if ringEn s1 r && !ringOpen s1 r then (s1, x :: rest)
    else if !ringEn s1 r || ringFull s1 r then evrDrain (incF s1 (ringB r) R.HAT_EVR_LOST_LOST) e rest
    else if evrLost s1 e != 0 then (s1, x :: rest)
    else
      let p := putEntry s1 r (evtEntry x.type x.unit x.arg0 x.arg1 x.time) false
      if p.2 then evrDrain p.1 e rest else (p.1, x :: rest)

/-- New events for one EVR follow those that wait there. -/
def postAt (s : State) (l : List Event) (e : Nat) : State :=
  let r := 512 + e
  let p := evrDrain s e (mapGet s.rings.evrWait r [] ++ l)
  updRings p.1 fun x => { x with evrWait := if p.2 == [] then mapErase x.evrWait r else mapPut x.evrWait r p.2 }

/-- EVENT_POST: events that wait at an EVR are tried again; the oldest event is posted to every EVR whose mask takes it. All wait
while the link is not open. -/
def execEventPost (s : State) : Host.Outcome State Fault Refusal :=
  if !linkOpen s then .next s
  else match s.rings.events with
    | [] => .next ((List.range 4).foldl (fun s e => if mapGet s.rings.evrWait (512 + e) [] == [] then s else postAt s [] e) s)
    | x :: rest =>
      let s1 := updRings s fun y => { y with events := rest }
      let es := (List.range 4).filter fun e => bit (rd s (ringB (512 + e)) R.HAT_EVR_MASK_MASK) x.type
      let s2 := if es.any fun e => ringEn s (512 + e) then s1 else incF s1 glb R.HAT_EVT_DROP_DROP
      .next (es.foldl (fun s e => postAt s [x] e) s2)

/-- EVT_LOST. -/
def execEvtLost (e : EvrIx) (s : State) : Host.Outcome State Fault Refusal := .next (postLost s e)

/-! ### Fetch (R270 to R272, R276, R277) -/

/-- FLAGS bits an opcode defines (R284). -/
def flagsOf (op : Nat) : Nat := if [0x02, 0x11, 0x20, 0x40, 0x51, 0x61].contains op then 1 else 0

def m64 : Nat := 2 ^ 64 - 1
def m46 : Nat := 2 ^ 46 - 1
def m48 : Nat := 2 ^ 48 - 1

/-- Argument bits an opcode defines, ARG0 to ARG5 (R284); none for a code that is not in the opcode table. -/
def argMasks (op : Nat) : Option (List Nat) :=
  match op with
  | 0x01 => some [m64, 0x7FFFFFFFF, m64, m64, m64, 0]
  | 0x02 => some [m64, 0xFF, 0, 0, 0, 0]
  | 0x10 => some [m64, 0x3F, 0, 0, 0, 0]
  | 0x11 => some [m48, m46, m48, 0, 0, 0]
  | 0x12 => some [m48, m48, m46, m48, 0, 0]
  | 0x20 => some [m64, 0xFFFFF3FF7F, m48, m64, 0, 0]
  | 0x21 => some [m64, m64, 0, 0, 0, 0]
  | 0x30 => some [0x1FFF003F01FFFF03, m64, m64, m64, m64, 0]
  | 0x31 => some [0xFFFFFFFF00000103, 0xFFFFFFFF, m64, m64, 0, 0]
  | 0x40 => some [0x3FFF, m64, m64, 0, 0, 0]
  | 0x41 => some [m64, 0xFFFFFFFF000003FF, m64, m64, m64, m64]
  | 0x42 => some [m64, 0xFFFFFF00FF, m64, 0, 0, 0]
  | 0x50 => some [0x3FF, 0xFFFFFFFFFFFFF, m64, m64, 0, 0]
  | 0x51 => some [0x1F0F3F, 0, 0, 0, 0, 0]
  | 0x60 => some [0x1F0F, m46, m48, m64, m64, m64]
  | 0x61 => some [m46, m48, 0xFFFFFFFF, m64, m64, 0]
  | 0x70 => some [0x7FFFF, m46, m48, m64, 0, 0]
  | 0x7F => some [m64, m64, m64, m64, 0, 0]
  | _ => none

/-- Argument words that must hold an address other than 0. -/
def needAddr (op : Nat) (args : List Nat) : List Nat :=
  match op with
  | 0x01 | 0x10 | 0x20 | 0x21 => [0]
  | 0x02 => if args.getD 1 0 == 0 then [] else [0]
  | 0x30 => (if bits (args.getD 0 0) 48 13 == 0 then [] else [2]) ++ (if bits (args.getD 0 0) 32 6 == 0 then [] else [3, 4])
  | 0x31 | 0x42 => if op == 0x31 then [2] else [0, 2]
  | 0x40 => [1]
  | 0x41 => [0, 2]
  | 0x50 => [2]
  | _ => []

/-- R277: the status of a descriptor's first failing check. -/
def descCheck (l : List Nat) (prio : Nat) : Option Nat :=
  let w := fun i => leNat ((l.drop (8 * i)).take 8)
  let op := bits (w 0) 0 8
  let args := (List.range 6).map fun i => w (2 + i)
  match argMasks op with
  | none => some 0x0100
  | some ms =>
    if bits (w 0) 10 6 != 0 || w 1 / 64 != 0 || (bits (w 0) 16 16) / 2 != 0 || decide (flagsOf op < bits (w 0) 16 16) then some 0x0101
    else if (List.range 6).any (fun i => args.getD i 0 &&& (m64 - ms.getD i 0) != 0) then some 0x0101
    else if (needAddr op args).any (fun i => args.getD i 0 == 0) then some 0x0101
    else if prio == 7 && !isRt (w 1 % 64) then some 0x0102
    else none

/-- The job of a fetched descriptor (R276). -/
def jobOf (s : State) (q : Nat) (l : List Nat) : Job :=
  let w := fun i => leNat ((l.drop (8 * i)).take 8)
  { sq := q, cidx := rd s (sqB q) R.HAT_SQ_CIDX_CIDX, tag := bits (w 0) 32 32, opcode := bits (w 0) 0 8,
    flags := bits (w 0) 16 16, ctx := w 1 % 64, fence := bit (w 0) 8, cie := bit (w 0) 9,
    args := (List.range 6).map fun i => w (2 + i), pri := rd s (sqB q) R.HAT_SQ_CFG_PRIO,
    phase := match descCheck l (rd s (sqB q) R.HAT_SQ_CFG_PRIO) with
      | some st => .done st 0 0 0
      | none => .fetched,
    order := s.rings.nextOrder, susp := false, buf := [], units := [], tally := [], rec_ := [], prior := [] }

/-- A table entry is free for a class (R271). -/
def entryFree (s : State) (prio : Nat) : Bool :=
  decide (s.rings.jobs.length < 1024) &&
    (prio == 7 || decide ((s.rings.jobs.filter fun e => e.2.pri != 7).length < 960))

/-- An SQ has a descriptor that may be fetched. -/
def fetchable (s : State) (q : Nat) : Bool :=
  ringOpen s q && rd s (sqB q) R.HAT_SQ_PIDX_PIDX != rd s (sqB q) R.HAT_SQ_CIDX_CIDX &&
    entryFree s (rd s (sqB q) R.HAT_SQ_CFG_PRIO) && (waitingFor s (256 + rd s (sqB q) R.HAT_SQ_CFG_CQ)).isEmpty

/-- The address of an SQ's next descriptor, and where it leads. -/
def fetchAddr (s : State) (q : Nat) : Nat := slotAddr s q (rd s (sqB q) R.HAT_SQ_CIDX_CIDX) 64
def fetchAcc (s : State) (q : Nat) : RingAcc := ringAcc s q (fetchAddr s q) false

/-- SQs with a fetchable descriptor whose page or line must be asked for first: they alone wait (R294). -/
def fetchWaits (s : State) : List Nat := (List.range 256).filter fun q => fetchable s q && fetchAcc s q == .wait

/-- The SQ to fetch from: the highest class, round-robin within it (R270). -/
def fetchNext (s : State) : Option Nat :=
  let l := (List.range 256).filter fun q => fetchable s q && fetchAcc s q != .wait
  let top := (l.map fun q => rd s (sqB q) R.HAT_SQ_CFG_PRIO).foldl max 0
  let l1 := l.filter fun q => rd s (sqB q) R.HAT_SQ_CFG_PRIO == top
  let last := mapGet s.rings.rr top 255
  ((List.range 256).map fun i => (last + 1 + i) % 256).find? l1.contains

/-- Take one descriptor into the job table. -/
def takeDescriptor (s : State) (q : Nat) (l : List Nat) : State :=
  let x := jobOf s q l
  let s1 := updRings s fun y =>
    { y with jobs := mapPut y.jobs y.nextJob x, nextJob := y.nextJob + 1, nextOrder := y.nextOrder + 1, rr := mapPut y.rr x.pri q }
  wr s1 (sqB q) R.HAT_SQ_CIDX_CIDX (x.cidx + 1)

/-- Fetching goes on: link open, not sealed, no reset in progress. -/
def fetchOpen (s : State) : Bool := linkOpen s && !sealed s && !flag s glb R.GLB_RST_STAT_BUSY

/-- DESCRIPTOR_FETCH. Whether the host answers the read with poison is a free draw; a bad line of device memory is an uncorrectable
error met by the read (R256, R329). Either stops the ring (R287). -/
def execDescriptorFetch (s0 : State) : Host.Outcome State Fault Refusal :=
  if !fetchOpen s0 then .next s0
  else
    let s := (fetchWaits s0).foldl (fun s q => ringAsk s q (fetchAddr s q) false) s0
    match fetchNext s with
    | none => .next s
    | some q =>
      match fetchAcc s q with
      | .wait => .next s
      | .bad => .next (ringStopFree s q 2)
      | .ok (.dev d) => if badAt s d then .next (ringStopFree (eccUncorrectable s (d / 64) false) q 3)
        else .next (takeDescriptor s q (devBytes s d 64))
      | .ok w =>
        let d := freshNat s
        .next (if d.1 % 2 == 1 then ringStopFree d.2 q 3 else takeDescriptor d.2 q (whereBytes s w 64))

end Sys2Proof.Machine
end

