-- ==== Sys2Proof/Machine/HostAttach.lean ====
section
/-! DEFINITION. The CXL link, D-states, configuration space, host-managed device memory and its coherence, the device
cache, DOE, IDE, link errors and viral (R242 to R262, spec/09_host_attach.md; R267). -/
namespace Sys2Proof.Machine

/-! ### The link (R242 to R244) -/

/-- SQs whose producer-index line the device cache watches or should watch (R267). -/
def snoopRings (s : State) : List Nat :=
  (List.range 256).filter fun q => ringEn s q && flag s (sqB q) R.HAT_SQ_CFG_SNOOP

/-- Take the watched lines again and read each index (R267). -/
def rewatch (s : State) : State := if s.cacheEn then (snoopRings s).foldl (fun s q => readIndex (watchLine s q) q) s else s

/-- The link has reached L0 with all three protocols: DEGR as R244 says; page request groups that the loss of the link
voided are raised again; vector 0 carries the link event (R259), and pending messages go out. -/
def linkUp (s : State) (rate width flit : Nat) : State :=
  let degr := rate != 5 || width != 16
  let s1 := wr (wr (wr (setF s glb R.HAT_LINK_STAT_UP) glb R.HAT_LINK_STAT_RATE rate) glb R.HAT_LINK_STAT_WIDTH width)
    glb R.HAT_LINK_STAT_FLIT flit
  let s2 := wr s1 glb R.HAT_LINK_STAT_DEGR (b2n degr)
  let s3 := if degr then levelOn s2 0x1E 0 0 else levelOff s2 0x1E 0
  rewatch (msixFlush (sendMsix (addF s3 glb R.XLT_FAULTS_FAULTS (s.xlt.groups.filter fun g => !g.dead).length) 0))

/-- R242: 64 GT/s runs with 256-byte flits, the rates below it with 68-byte flits. LINK_UP: training may end once PERST_N is high, the CXL PHY is locked and the power state is READY (R394, R456). -/
def execLinkUp (rate : Fin 6) (width : Nat) (flit : Fin 3) (all3 : Bool) (s : State) : Host.Outcome State Fault Refusal :=
  if flag s glb R.HAT_LINK_STAT_UP || !s.boot.perst || !s.boot.locked || !powerUp s || rate.val < 2 ||
      !(width == 4 || width == 8 || width == 16) || (rate.val == 5) != (flit.val != 0) then .next s
  else if all3 then .next (linkUp s rate width flit)
  else .next (setF s glb R.HAT_LINK_STAT_NOCXL)

/-- The link is lost: the device cache drops its lines, reads under way are void. -/
def linkLost (s : State) : State :=
  let s1 := clrF (clrF (clrF (clrF (clrF s glb R.HAT_LINK_STAT_UP) glb R.HAT_LINK_STAT_RATE) glb R.HAT_LINK_STAT_WIDTH)
    glb R.HAT_LINK_STAT_FLIT) glb R.HAT_LINK_STAT_DEGR
  let s2 := updXlt (setF s1 glb R.HAT_LINK_STAT_LDOWN) fun x => { x with reads := [] }
  levelOff { s2 with dcache := [] } 0x1E 0

/-- Component registers that the model places (R248): the RAS uncorrectable status, and the HDM decoder's base, size and control. -/
def rasAt : Nat := 0x111100
def hdmAt : Nat := 0x111200

/-- Log an AER bit, and pass the error to the collector (R260): kind 0 correctable, 1 uncorrectable non-fatal, 2 fatal,
3 CXL.cache or CXL.mem. A masked AER error is logged without a message. -/
def logError (s : State) (kind bitno : Nat) : State :=
  let s1 := if kind == 3 then { s with comp := mapPut s.comp rasAt (setBit (mapGet s.comp rasAt 0) bitno) }
    else
      let off := if kind == 0 then 0x110 else 0x104
      { s with cfg := mapPut s.cfg off (setBit (cfgWord s off) bitno) }
  let masked := kind != 3 && bit (cfgWord s (if kind == 0 then 0x114 else 0x108)) bitno
  let s2 := signal s1 (if kind == 0 then 0x1F else if kind == 2 then 0x21 else 0x20) 0 bitno
  if masked then s2 else sendMsix s2 0

/-- LINK_DOWN: the loss is logged as a surprise-down error, AER bit 5 (R260). -/
def linkDown (s : State) : State := logError (linkLost s) 2 5

def execLinkDown (s : State) : Host.Outcome State Fault Refusal :=
  .next (if flag s glb R.HAT_LINK_STAT_UP then linkDown s else s)

/-- HOST_LINK_ERROR (R260): a fatal error also takes the link down (R29). -/
def execHostLinkError (kind : Fin 4) (bitno : Nat) (s : State) : Host.Outcome State Fault Refusal :=
  let s1 := logError s kind (bitno % 32)
  .next (if kind.val == 2 && flag s glb R.HAT_LINK_STAT_UP then linkLost s1 else s1)

/-- D_STATE_CHANGE (R245). -/
def execDStateChange (d3 : Bool) (s : State) : Host.Outcome State Fault Refusal :=
  .next (if flag s glb R.HAT_LINK_STAT_UP then { s with d3 := d3 } else s)

/-- VIRAL_RECEIVED (R261). -/
def execViralReceived (s : State) : Host.Outcome State Fault Refusal :=
  .next (if flag s glb R.HAT_LINK_STAT_UP then levelOn (setF s glb R.HAT_LINK_STAT_VIRAL) 0x26 0 0 else s)

/-! ### Configuration space (R247 to R250) -/

/-- Dwords the spec fixes, else none. -/
def cfgFixed (s : State) (off : Nat) : Option Nat :=
  match off with
  | 0x000 => some 0x5C761FE3
  | 0x008 => some (0x12000000 + rd s glb R.GLB_ID_REV)
  | 0x02C => some (s.ssid.getD (Config.fuse 0x2C) % 2 ^ 32)
  | 0x020 => some 0
  | 0x024 => some 0
  | 0x030 => some 0
  | 0x0A4 => some 0x00120000
  | 0x0A8 => some 0x00128000
  | 0x14C => some (Config.fuse 0x14C % 2 ^ 32)
  | 0x150 => some (Config.fuse 0x150 % 2 ^ 32)
  | 0x170 => some 512
  | _ => none

/-- The bits of a dword whose values R245 to R249 and R259 give, where the structures' standard layouts put them, as (offset, bits
known, value): header type, BAR0/1 of 64 MiB and BAR2/3 of 16 MiB, the list of capabilities, power management without PME, payload,
ASPM, width and speed, completion timeouts and 10-bit tags, the MSI-X table's size, invalidate queue, PASID width, the DVSECs of
the device, of the Flex Bus port and of the register locator, IDE, and no interrupt message number but 0. -/
def cfgKnown : List (Nat × Nat × Nat) :=
  [(0x00C, 0x00FF0000, 0), (0x010, 0x03FFFFFF, 4), (0x018, 0x00FFFFFF, 4), (0x034, 0xFF, 0x40), (0x03C, 0xFF00, 0),
   (0x040, 0xFE00FFFF, 0x00005001), (0x050, 0x3EF0FFFF, 0x0000A010), (0x054, 7, 2), (0x05C, 0xFFF, 0x106), (0x074, 0x3000F, 0x3000F),
   (0x0A0, 0x3FFFFFFF, 0x07FF0011), (0x100, 0xFFF0FFFF, 0x14800001), (0x130, 0xF8000000, 0), (0x148, 0xFFF0FFFF, 0x15800003),
   (0x158, 0xFFF0FFFF, 0x1680000F), (0x15C, 0x1F, 0), (0x168, 0xFFF0FFFF, 0x17800013), (0x178, 0xFFF0FFFF, 0x1800001B),
   (0x17C, 0x1F06, 0x1400), (0x180, 0xFFF0FFFF, 0x1A00002E)] ++
  [(0x1A0, 0xFFF0FFFF, 0x1E000023), (0x1A4, 0xFFFF, 0x1E98), (0x1A8, 0x67FFFFFF, 0x41D70000), (0x1B4, 0xFF0F0000, 0x04010000),
   (0x1B8, 0xFFFFFFFF, 5), (0x1C8, 0xFFFFFFFF, 0), (0x1CC, 0xF0000000, 0), (0x1E0, 0xFFF0FFFF, 0x20000023), (0x1E4, 0xFFFF, 0x1E98),
   (0x1E8, 0x6047FFFF, 0x20070007), (0x200, 0xFFF0FFFF, 0x23000023), (0x204, 0xFFFF, 0x1E98), (0x208, 0xFFFF, 8),
   (0x20C, 0xFFFFFF07, 0x00110100), (0x210, 0xFFFFFFFF, 0), (0x230, 0xFFFF, 0x30), (0x234, 0xFF0003, 3)]

/-- HBM training has ended (R249). -/
def memInfo (s : State) : Bool := decide (2 ≤ rd s glb R.MEM_STAT_STATE)

/-- Bits of a dword that show the device's state: the link's speed and width, and Range 1 of the CXL Device DVSEC (R249). -/
def cfgShown (s : State) (off : Nat) : Option (Nat × Nat) :=
  match off with
  | 0x060 =>
    let r := rd s glb R.HAT_LINK_STAT_RATE
    some (0x03FF0000, (if r ≤ 1 then r else r + 1) * 2 ^ 16 + rd s glb R.HAT_LINK_STAT_WIDTH * 2 ^ 20)
  | 0x1BC => some (0xF000E003, 0x90000000 + b2n (memInfo s) + 2 * rd s glb R.HAT_HDM_STAT_MEM_ACTIVE)
  | _ => none

/-- A word with some of its bits known. -/
def overlay (mask v w : Nat) : Nat := (w &&& (0xFFFFFFFF - mask)) ||| (v &&& mask)

/-- The bits of a dword that the host writes: ATS, PRI, PASID, MSI-X and CXL enables, base addresses and AER masks where their
structures put them, else those of the standards. -/
def cfgMask (off : Nat) : Nat :=
  match off with
  | 0x010 => 0xFC000000
  | 0x014 => 0xFFFFFFFF
  | 0x018 => 0xFF000000
  | 0x01C => 0xFFFFFFFF
  | 0x0A0 => 0xC0000000
  | 0x108 => 0xFFFFFFFF
  | 0x10C => 0xFFFFFFFF
  | 0x114 => 0xFFFFFFFF
  | 0x15C => 0x801F0000
  | 0x16C => 0x00000003
  | 0x17C => 0x00010000
  | 0x1AC => 0x00000007
  | _ => Config.cfgWritable off

/-- What a configuration read returns. -/
def cfgRead (s : State) (off : Nat) : Nat :=
  match cfgFixed s off with
  | some v => v
  | none =>
    let m := cfgMask off
    let w := ((cfgWord s off) &&& m) ||| (Config.cxlStandard off % 2 ^ 32 &&& (0xFFFFFFFF - m % 2 ^ 32))
    let w1 := match cfgKnown.find? (·.1 == off) with
      | some e => overlay e.2.1 e.2.2 w
      | none => w
    match cfgShown s off with
    | some e => overlay e.1 e.2 w1
    | none => w1

/-- What follows from the enables that configuration space holds: ATS, PASID and PRI enables show in `XLT_STAT`; a PRI
enable of 0 clears `PRI_STOP` (R306), a PRI reset frees the indices that timed out; with ATS disabled the cache holds
nothing; Mem_Enable, Cache_Enable; MSI-X (R259). -/
def cfgEffects (s : State) : State :=
  let ats := bit (cfgWord s 0x15C) 31
  let pri := bit (cfgWord s 0x16C) 0
  let s1 := wr (wr (wr s glb R.XLT_STAT_ATS_EN (b2n ats)) glb R.XLT_STAT_PASID_EN (b2n (bit (cfgWord s 0x17C) 16)))
    glb R.XLT_STAT_PRI_EN (b2n pri)
  let s2 := if pri then s1 else clrF s1 glb R.XLT_STAT_PRI_STOP
  let s3 := updXlt s2 fun x =>
    { x with atc := if ats then x.atc else [], groups := if bit (cfgWord s 0x16C) 1 then x.groups.filter fun g => !g.dead else x.groups }
  let cache := bit (cfgWord s 0x1AC) 0
  let s4 := { s3 with memEn := bit (cfgWord s 0x1AC) 2, cacheEn := cache, dcache := if cache then s3.dcache else [] }
  msixFlush (if cache && !s.cacheEn then rewatch s4 else s4)

/-- CONFIG_ACCESS: configuration requests reach the function in D0 and D3hot while the link is up. -/
def execConfigAccess (wr_ : Bool) (off : Nat) (v : Word) (s : State) : Host.Outcome State Fault Refusal :=
  let a := off % 4096 / 4 * 4
  if !flag s glb R.HAT_LINK_STAT_UP then .next s
  else if wr_ then
    match cfgFixed s a with
    | some _ => .next s
    | none =>
      let clear := a == 0x104 || a == 0x110
      let new := if clear then (cfgWord s a) &&& (0xFFFFFFFF - v.toNat) else v.toNat
      .next (cfgEffects { s with cfg := mapPut s.cfg a new })
  else .next { s with resp := [if a == 0x104 || a == 0x110 then cfgWord s a else cfgRead s a] }

/-! ### The HDM decoder (R251) -/

/-- The decoder's words in the component registers: base, and control with commit (bit 9), committed (10) or error (11). -/
def decoderWords (s : State) (b : Nat) (ok : Bool) : State :=
  let based := mapPut (mapPut s.comp (hdmAt + 0x10) (b % 2 ^ 32)) (hdmAt + 0x14) (b / 2 ^ 32)
  { s with comp := mapPut based (hdmAt + 0x20) (2 ^ 9 + (if ok then 2 ^ 10 else 2 ^ 11)) }

/-- HDM_COMMIT: 1-way interleave only, back-invalidate enabled; else Commit Error in the decoder's control word. -/
def execHdmCommit (base ways : Nat) (bi : Bool) (s : State) : Host.Outcome State Fault Refusal :=
  if !flag s glb R.HAT_LINK_STAT_UP then .next s
  else
    let b := base % 2 ^ 64 / 2 ^ 28 * 2 ^ 28
    let ok := ways == 1 && bi
    let s1 := wr (decoderWords { s with hdmProg := some b } b ok) glb R.HAT_HDM_STAT_BI_EN (b2n bi)
    if ok then .next (wr64 (setF s1 glb R.HAT_HDM_STAT_COMMITTED) glb R.HAT_HDM_BASE_LO_BASE R.HAT_HDM_BASE_HI_BASE b)
    else .next (clrF s1 glb R.HAT_HDM_STAT_COMMITTED)

/-! ### Host accesses to device memory (R254 to R256, R261) -/

/-- CXL.mem decodes the address: committed, Mem_Enable, memory active, link up and the part awake. -/
def memDecodes (s : State) (addr : Nat) : Bool :=
  flag s glb R.HAT_LINK_STAT_UP && powerReady s && committed s && s.memEn && inHdm s addr

/-- Answer a CXL.mem read: the poison mark, then the line's 64 bytes. -/
def memAnswer (s : State) (line : Nat) (poison : Bool) : State :=
  let s1 := { memAsk s 4 6 0 line false 0 with resp := b2n poison :: devBytes s (line * 64) 64 }
  if poison then setF (incF s1 glb R.HAT_POISON_POISON) glb R.HAT_HDM_STAT_POISON else s1

/-- Requests wait while a change of operating point or a retrain runs (R321, R323). -/
def memHeld (s : State) : Bool := rd s glb R.MEM_STAT_STATE == 3 || rd s glb R.MEM_STAT_STATE == 5

/-- A host read of a line that decodes: a snapshot of a held line, poison where uncorrectable or viral; else the snoop filter takes
the line. With a full filter its least recently filled line that is not asked for yet is back-invalidated, and the read waits. -/
def memRead (s : State) (addr : Nat) : State :=
  let line := hdmToDev (hdmOffset s addr) / 64
  let poison := flag s glb R.HAT_LINK_STAT_VIRAL || badAt s (line * 64)
  if memHeld s then updXlt s fun x => { x with memReads := x.memReads ++ [addr] }
  else if heldAt s addr || s.sf.contains line then memAnswer s line poison
  else if 1048576 ≤ s.sf.length then
    let s1 := updXlt s fun x => { x with memReads := x.memReads ++ [addr] }
    match s.sf.find? fun l => !s.biAsked.contains l && !s.biSent.contains l with
    | some l => askBi s1 l
    | none => s1
  else memAnswer { s with sf := s.sf ++ [line] } line poison

/-- HOST_MEM_READ. -/
def execHostMemRead (addr : Nat) (s : State) : Host.Outcome State Fault Refusal :=
  if 2 ^ 64 ≤ addr then .fault (.noSuchHostAddress addr)
  else if !memDecodes s addr then .next s
  else .next (memRead s addr)

/-- A line has left the snoop filter: the oldest host read that waits for room is answered. -/
def serveRead (s : State) : State :=
  match s.xlt.memReads with
  | [] => s
  | a :: rest => memRead (updXlt s fun x => { x with memReads := rest }) a

/-- The controller serves requests again: the host reads that wait are answered, oldest first, the answers in `resp` in that order. -/
def serveReads (s : State) : State :=
  let waiting := s.xlt.memReads
  (waiting.foldl (fun (a : State × List Nat) addr =>
    let before := a.1.xlt.memReads.length
    let t := memRead a.1 addr
    if t.xlt.memReads.length == before then ({ t with resp := a.2 ++ t.resp }, a.2 ++ t.resp) else (t, a.2))
    (updXlt s fun x => { x with memReads := [] }, [])).1

/-- HOST_MEM_WRITE: stored; discarded where device-held (R255) or under viral (R261); poison marks the line (R256). -/
def execHostMemWrite (addr : Nat) (data : List Byte) (poisoned : Bool) (s : State) : Host.Outcome State Fault Refusal :=
  if 2 ^ 64 ≤ addr then .fault (.noSuchHostAddress addr)
  else if !memDecodes s addr || flag s glb R.HAT_LINK_STAT_VIRAL then .next s
  else
    let o := hdmOffset s addr
    let line := hdmToDev o / 64
    if heldAt s addr then
      .next (signal (setF (incF s glb R.HAT_HDM_DROP_DROP) glb R.HAT_HDM_STAT_HWDROP) 0x23 (o / hdmPerSector) 0)
    else
      let s1 := memAsk (devStore s (line * 64) ((data.take 64).map (·.toNat))) 4 6 0 line true 0
      .next (if poisoned then { s1 with badLines := line :: s1.badLines.filter (· != line) } else s1)

/-- BACK_INVALIDATE: the snoop of a line that a device access waits for is sent (R254); the operand is the HDM offset. -/
def execBackInvalidate (off : Nat) (s : State) : Host.Outcome State Fault Refusal :=
  let line := hdmToDev off / 64
  if s.biAsked.contains line && flag s glb R.HAT_LINK_STAT_UP then
    .next (incF { s with biAsked := s.biAsked.filter (· != line), biSent := line :: s.biSent } glb R.HAT_BISNP_BISNP)
  else .next s

/-- A line of a pool range still waits for its response (R255). -/
def poolWaits (s : State) : Bool :=
  (s.biAsked ++ s.biSent).any fun l => (List.range 4).any fun q => [lgrPool s q, acqPool s q].any fun p =>
    decide (hdmToDev (p.1 - hdmBase s) ≤ l * 64) && decide (l * 64 < hdmToDev (p.1 - hdmBase s) + p.2)

/-- SQs whose producer-index location lies in a device line. -/
def indexIn (s : State) (line : Nat) : List Nat :=
  (List.range 256).filter fun q => ringEn s q && match ringResolve s q (ringPloc s q) false with
    | .dev d => d / 64 == line
    | _ => false

/-- BI_SNOOP_RESPONSE: the host no longer holds the line; modified data comes back; who waited for the line goes on. -/
def execBiSnoopResponse (off : Nat) (dirty : Option (List Byte)) (s : State) : Host.Outcome State Fault Refusal :=
  let line := hdmToDev off / 64
  if !s.biSent.contains line || !flag s glb R.HAT_LINK_STAT_UP then .next s
  else
    let s1 := { s with biSent := s.biSent.filter (· != line), sf := s.sf.filter (· != line) }
    let s2 := match dirty with
      | some d => devStore s1 (line * 64) ((d.take 64).map (·.toNat))
      | none => s1
    let s3 := if poolWaits s2 then s2 else clrF s2 glb R.HAT_HDM_STAT_BIPEND
    .next (serveRead ((indexIn s3 line).foldl readIndex s3))

/-! ### The device cache (R267) -/

/-- HOST_SNOOP: the host stores bytes in host memory; where one of their lines is one that the device cache watches, the device reads
it again and judges every index that lies in it. An SQ whose location must be translated again reads it then. -/
def execHostSnoop (addr : Nat) (data : List Byte) (s : State) : Host.Outcome State Fault Refusal :=
  if 2 ^ 64 ≤ addr then .fault (.noSuchHostAddress addr)
  else
    let s1 := hostStore s addr (data.map (·.toNat))
    let last := (addr + max data.length 1 - 1) / 64
    let hit := fun (l : Nat) => decide (addr / 64 ≤ l) && decide (l ≤ last)
    if s1.dcache.any hit && flag s glb R.HAT_LINK_STAT_UP then
      let qs := (snoopRings s1).filter fun q => match ringAcc s1 q (ringPloc s1 q) false with
        | .ok (.host pa) => hit (pa / 64)
        | .wait => true
        | _ => false
      .next (qs.foldl readIndex s1)
    else .next s1

/-! ### DOE (R257, R258) -/

/-- CDAT entry e as numbers: 0 to 3 DSMAS (type 0, handle, DPA base, length, flags), 4 to 19 DSLBIS (type 1, handle, data
type 0 read latency, 1 write latency, 2 read bandwidth, 3 write bandwidth, value in ns or GB/s), 20 to 23 DSEMTS
(type 4, handle, memory type, base, length). -/
def cdatEntry (s : State) (e : Nat) : List Nat :=
  let half := rd s glb R.MEM_STAT_CUR == 1
  if e < 4 then [0, e, e * hdmPerSector, hdmPerSector, 0]
  else if e < 20 then
    let k := (e - 4) % 4
    [1, (e - 4) / 4, k, if k < 2 then (if half then 190 else 170) else (if half then 95 else 190)]
  else if e < 24 then [4, e - 20, 1, 0, hdmPerSector]
  else []

/-- Show the CXL.io IDE streams: secure where a stream has keys and none has failed, the detector on while one has. -/
def showIoIde (s : State) : State :=
  let bad := s.ioIde.any (·.2)
  let s1 := wr s glb R.HAT_IDE_STAT_IO_SECURE (b2n (s.ioIde != [] && !bad))
  if bad then levelOn s1 0x22 0 0 else levelOff s1 0x22 0

/-- Keys are in place for a stream (R258): 0 the CXL.io link stream, 1 CXL.cachemem with its mode, 2 the CXL.io selective stream. -/
def ideSecure (s : State) (stream mode : Nat) : State :=
  if stream == 1 then levelOff (wr (setF { s with cmBad := false } glb R.HAT_IDE_STAT_CM_SECURE) glb R.HAT_IDE_STAT_CM_MODE mode) 0x22 1
  else showIoIde { s with ioIde := mapPut s.ioIde stream false }

/-- DOE_REQUEST: protocol 0 discovery (answers the protocol numbers), 1 CDAT table access, 2 IDE key management (body:
stream, CXL.cachemem mode). -/
def execDoeRequest (proto entry : Nat) (body : List Nat) (s : State) : Host.Outcome State Fault Refusal :=
  if !flag s glb R.HAT_LINK_STAT_UP then .next s
  else match proto with
    | 0 => .next { s with resp := [0, 1, 2] }
    | 1 => .next { s with resp := cdatEntry s entry }
    | 2 => match body with
      | [stream, mode] =>
        if stream < 3 && (stream != 1 || mode == 1 || mode == 2) then .next { ideSecure s stream mode with resp := [0] }
        else .next { s with resp := [] }
      | _ => .next { s with resp := [] }
    | _ => .next { s with resp := [] }

/-- IDE_INTEGRITY_FAILURE (R258): of a stream that has keys and has not failed; where the link goes down with it, it is still
logged. -/
def execIdeIntegrityFailure (stream : Fin 3) (s : State) : Host.Outcome State Fault Refusal :=
  if stream.val == 1 then
    if flag s glb R.HAT_IDE_STAT_CM_SECURE then
      .next (levelOn (setF (clrF { s with cmBad := true } glb R.HAT_IDE_STAT_CM_SECURE) glb R.HAT_IDE_STAT_CM_FAIL) 0x22 1 0)
    else .next s
  else if mapGet? s.ioIde stream.val == some false then
    .next (showIoIde (setF { s with ioIde := mapPut s.ioIde stream.val true } glb R.HAT_IDE_STAT_IO_FAIL))
  else .next s

end Sys2Proof.Machine
end

