-- ==== Sys2Proof/Machine/Hbm.lean ====
section
/-! DEFINITION. The HBM controller: scheduling, page policy, operating points, training, refresh, neighbour refresh, ECC,
scrub and row repair (R312 to R334, spec/12_device_memory.md; the home-channel row of R29). -/
namespace Sys2Proof.Machine

def memState (s : State) : Nat := rd s glb R.MEM_STAT_STATE

/-! ### The home-channel row of R29 -/

/-- A running job moves data of sector q: a READ_SEGMENTS of its digitizer, a FAIL_UPLOAD that names it. -/
def readsSector (x : Job) (q : Nat) : Bool :=
  x.phase == .running && ((x.opcode == 0x31 && arg x 0 % 4 == q) || (x.opcode == 0x40 && bit (arg x 0) (8 + q)))

/-- A home channel of sector q is lost to its real-time masters: live gangs reaching the sector abort at once, the
capture ends with FAULT, the sector's jobs fail. -/
def homeLost (s : State) (q : Nat) : State :=
  let s1 := gangsFault s (tilesOfSector q) 0x0700
  let s2 := if digState s1 q != 0 then digStopNow s1 q 4 0 false else s1
  (s2.rings.jobs.filter fun e => readsSector e.2 q).foldl (fun s e => jobFail s e.1 0x0760 0 0 false) s2

/-! ### Training and operating points (R319 to R323) -/

/-- Channels whose bit is set in a result mask. -/
def failedChannels (results : Nat) : List Nat := maskBits 16 results

/-- HBM_TRAINING_DONE (R319): the operand marks the channels that failed. -/
def execHbmTrainingDone (results : Nat) (s : State) : Host.Outcome State Fault Refusal :=
  if memState s != 1 then .next s
  else if failedChannels results == [] then
    let s1 := setF (setF (wr (clrF s glb R.MEM_STAT_CUR) glb R.MEM_STAT_STATE 2) glb R.MEM_STAT_SET_FULL) glb R.MEM_STAT_SET_HALF
    let s2 := setF (setF s1 glb R.HAT_HDM_STAT_MEM_ACTIVE) glb R.GLB_ST_STAT_MEMOK
    .next (updHbm (wr s2 glb R.MEM_TEMP_TRAINT (rd s glb R.MEM_TEMP_TEMP)) fun x => { x with otherT := rd s glb R.MEM_TEMP_TEMP })
  else
    let s1 := wr (wr s glb R.MEM_STAT_STATE 6) glb R.MEM_CHSTAT_FAIL (rd s glb R.MEM_CHSTAT_FAIL ||| results % 2 ^ 16)
    .next ((failedChannels results).foldl (fun s h => signal s 0x14 h 0) s1)

/-- The point that software asks for, once its write is in force (R320). -/
def pointWanted (s : State) : Nat := rd s glb R.MEM_CTL_POINT

/-- POINT_CHANGE_START (R320, R321). -/
def execPointChangeStart (s : State) : Host.Outcome State Fault Refusal :=
  .next (if memState s == 2 && !anyRtActive s && s.hbm.repairing == [] && pointWanted s != rd s glb R.MEM_STAT_CUR then
    updHbm (wr s glb R.MEM_STAT_STATE 3) fun x => { x with target := pointWanted s }
  else s)

/-- POINT_CHANGE_DONE (R321, R257); `TRAINT` is that of the point in force. -/
def execPointChangeDone (s : State) : Host.Outcome State Fault Refusal :=
  .next (if memState s == 3 then
    let s1 := wr (wr s glb R.MEM_STAT_STATE 2) glb R.MEM_STAT_CUR s.hbm.target
    let s2 := updHbm (wr s1 glb R.MEM_TEMP_TRAINT s.hbm.otherT) fun x => { x with otherT := rd s glb R.MEM_TEMP_TRAINT }
    serveReads (postEvt (setF s2 glb R.HAT_HDM_STAT_CDAT_CHG) 0x03 0 s.hbm.target 0)
  else s)

/-- A retrain is requested (R323); without a training set there is none to replace. -/
def retrainRequest (s : State) : State := if flag s glb R.MEM_STAT_SET_FULL then setF s glb R.MEM_STAT_RTPEND else s

/-- RETRAIN_REQUEST. -/
def execRetrainRequest (s : State) : Host.Outcome State Fault Refusal := .next (barWrite s none 0x800000 retrainRequest)

/-- RETRAIN_START: a waiting change of point runs first. -/
def execRetrainStart (s : State) : Host.Outcome State Fault Refusal :=
  .next (if flag s glb R.MEM_STAT_RTPEND && memState s == 2 && !anyRtActive s && s.hbm.repairing == [] &&
      pointWanted s == rd s glb R.MEM_STAT_CUR then
    updHbm (wr (clrF s glb R.MEM_STAT_RTPEND) glb R.MEM_STAT_STATE 5) fun x => { x with retry := [] }
  else s)

/-- A channel in service that has failed a second time in a retrain goes out of service (R323). -/
def channelOut (s : State) (h : Nat) : State :=
  homeLost (signal (wr s glb R.MEM_CHSTAT_FAIL (rd s glb R.MEM_CHSTAT_FAIL ||| 2 ^ h)) 0x14 h 0) (h / 4)

/-- RETRAIN_DONE: a channel that fails for the first time has the retrain run once more; one that fails again is out of service. -/
def execRetrainDone (results : Nat) (s : State) : Host.Outcome State Fault Refusal :=
  if memState s != 5 then .next s
  else
    let bad := (failedChannels results).filter fun h => !bit (rd s glb R.MEM_CHSTAT_FAIL) h
    let first := bad.filter fun h => !s.hbm.retry.contains h
    let s1 := (bad.filter s.hbm.retry.contains).foldl channelOut s
    if first != [] then .next (updHbm s1 fun x => { x with retry := x.retry ++ first })
    else .next (serveReads (wr (wr s1 glb R.MEM_STAT_STATE 2) glb R.MEM_TEMP_TRAINT (rd s glb R.MEM_TEMP_TEMP)))

/-! ### Refresh (R324, R325) -/

/-- A bank has a real-time request pending. -/
def bankBusy (s : State) (x b : Nat) : Bool := s.hbm.reqs.any fun r => r.rank == 2 && pcOf r.line == x && bankOf r.line == b

/-- Banks still due in the round. -/
def banksDue (s : State) (x : Nat) : List Nat :=
  (List.range nbanks).filter fun b => !(mapGet s.hbm.round x []).contains b

/-- A bank of the round without a real-time request. -/
def freeBank (s : State) (x : Nat) : Option Nat := (banksDue s x).find? fun b => !bankBusy s x b

/-- Refresh one bank: its row closes, and a round of NB refreshes begins anew. -/
def refreshBank (s : State) (x b : Nat) : State :=
  updHbm s fun h =>
    let done := b :: mapGet h.round x []
    { h with round := mapPut h.round x (if done.length < nbanks then done else []), rows := mapErase h.rows (64 * x + b) }

/-- Refresh n banks of the round, whatever is pending. -/
def refreshMany : Nat → State → Nat → State
  | 0, s, _ => s
  | n + 1, s, x => refreshMany n (match (banksDue s x).head? with
      | some b => refreshBank s x b
      | none => s) x

def debtOf (s : State) (x : Nat) : Nat := mapGet s.hbm.debt x 0

/-- The controller serves requests and refreshes: ACTIVE. -/
def memServes (s : State) : Bool := memState s == 2

/-- REFRESH_DUE: issued, postponed, or forced at a debt of 8. -/
def execRefreshDue (x : PcIx) (s : State) : Host.Outcome State Fault Refusal :=
  if !memServes s then .next s
  else match freeBank s x with
    | some b => .next (refreshBank s x b)
    | none =>
      if debtOf s x < 8 then .next (updHbm s fun h => { h with debt := mapPut h.debt x (debtOf s x + 1) })
      else
        let s1 := refreshMany 9 s x
        .next (incF (updHbm s1 fun h => { h with debt := mapErase h.debt x, held := x.val :: h.held.filter (· != x.val) })
          glb R.MEM_REF_FORCED_FORCED)

/-- FORCED_REFRESH_RELEASE. -/
def execForcedRefreshRelease (x : PcIx) (s : State) : Host.Outcome State Fault Refusal :=
  .next (updHbm s fun h => { h with held := h.held.filter (· != x.val) })

/-! ### Row repair (R331) -/

def dayUnits : Nat := 24 * 3600 * 1000000000 * 65536

/-- A correctable error was found in a row: the third occasion within 24 hours makes it due. -/
def rowOccasion (s : State) (x row : Nat) : State :=
  let l := ((mapGet s.hbm.occ row []).filter fun t => decide (s.now < t + dayUnits)) ++ [s.now]
  let s1 := updHbm s fun h => { h with occ := mapPut h.occ row l }
  if 3 ≤ l.length then rowDue s1 x row else s1

/-- ROW_REPAIR_START: the oldest row due in the pseudo-channel, once the sector's real-time masters are idle. -/
def execRowRepairStart (x : PcIx) (s : State) : Host.Outcome State Fault Refusal :=
  match s.hbm.due.find? fun e => e.1 == x.val with
  | none => .next s
  | some e =>
    if !memServes s || rtActive s (sectorOfPc x) || s.hbm.repairing.any (fun r => r.1 == x.val) then .next s
    else
      let s1 := updHbm s fun h => { h with due := h.due.erase e, repairing := e :: h.repairing }
      .next (wr s1 glb R.MEM_STAT_RPEND (b2n (s1.hbm.due != [])))

/-- ROW_REPAIR_DONE: the row is replaced, its uncorrectable lines keeping their marks; or no spare row is left. -/
def execRowRepairDone (x : PcIx) (spare : Bool) (s : State) : Host.Outcome State Fault Refusal :=
  match s.hbm.repairing.find? fun e => e.1 == x.val with
  | none => .next s
  | some e =>
    let s1 := updHbm s fun h => { h with repairing := h.repairing.erase e, occ := mapErase h.occ e.2 }
    if spare then .next (signal (incF s1 glb R.MEM_PPR_DONE) 0x17 (channelOf x) 0)
    else .next (signal (setF s1 glb R.MEM_PPR_EXH) 0x16 (channelOf x) 0)

/-! ### ECC (R328, R329) -/

/-- A corrected line is counted and written back at rank 4. -/
def eccCorrected (s : State) (line : Nat) : State :=
  rowOccasion (memAsk (incF s glb R.MEM_CE_CE) 4 7 0 line true 0) (pcOf line) (rowOf line)

/-- A teller's loads of a line get their data (R217). -/
def telLanded (s : State) (n line : Nat) (v : Nat → Nat → List Nat) : State :=
  updTel s n fun x =>
    { x with loads := x.loads.map fun l =>
        if l.val.isNone && l.line == line then { l with val := some (v (line * 64 + l.off) (if l.t < 8 then 8 else 64)) } else l }

/-- The effect of an uncorrectable line on its reader (R329): a teller goes on, and the job whose analysis it runs ends. -/
def readerHit (s : State) (r : MemReq) : State :=
  match r.kind with
  | 0 => homeLost s (sectorOf r.who)
  | 5 => jobFail s r.who 0x0760 r.va 0 false
  | 3 | 4 =>
    let d := freshNat s
    let s1 := telLanded d.2 r.who r.line fun _ n => leBytes n d.1
    match (getTel s r.who).item with
    | some (j, _) => jobFail s1 j 0x0760 0 0 false
    | none => s1
  | _ => s

/-! ### The scheduler (R317, R318, R327) -/

/-- The bank of a request is under repair. -/
def repairBlocks (s : State) (x line : Nat) : Bool :=
  s.hbm.repairing.any fun e => e.1 == x && Config.bankHash e.2 % nbanks == bankOf line

/-- The next request of a pseudo-channel: lowest rank; at rank 4 round-robin by requester kind; oldest first. A forced refresh, of
rank 1, holds them all. -/
def nextReq (s : State) (x : Nat) : Option MemReq :=
  let l := s.hbm.reqs.filter fun r => pcOf r.line == x && !repairBlocks s x r.line && !s.hbm.held.contains x &&
    !((r.kind == 3 || r.kind == 4) && s.sf.contains r.line)
  match l.find? (·.rank == 2) with
  | some r => some r
  | none =>
    let last := mapGet s.hbm.turn x 7
    ((List.range 8).map fun i => (last + 1 + i) % 8).findSome? fun k => l.find? fun r => r.rank == 4 && r.kind == k

/-- Page hint CLOSE (R317). -/
def closesPage (s : State) (r : MemReq) : Bool :=
  r.kind == 3 || r.kind == 7 || r.kind == 8 || (r.kind == 6 && flag s glb R.MEM_CTL_HOSTPOL)

/-- An activate may select its row for neighbour refresh (R327): a free draw, with 16 places. -/
def neighbourDraw (s : State) (x : Nat) : State :=
  let d := freshNat s
  if d.1 % 2 ^ rd s glb R.MEM_CTL_NRK != 0 then d.2
  else if mapGet s.hbm.nrr x 0 < 16 then updHbm d.2 fun h => { h with nrr := mapPut h.nrr x (mapGet h.nrr x 0 + 1) }
  else signal (incF d.2 glb R.MEM_NRR_DROP_DROP) 0x18 x 0

/-- The row of a request is opened where it is not, and closed after a CLOSE request (R318). -/
def openRow (s : State) (x : Nat) (r : MemReq) : State :=
  let key := 64 * x + bankOf r.line
  let s1 := if mapGet? s.hbm.rows key == some (rowOf r.line) then s else neighbourDraw s x
  updHbm s1 fun h => { h with rows := if closesPage s r then mapErase h.rows key else mapPut h.rows key (rowOf r.line) }

/-- A job's line, or a teller's load, is at hand. -/
def deliver (s : State) (r : MemReq) : State :=
  if (r.kind == 3 || r.kind == 4) && !r.wr then telLanded s r.who r.line (devBytes s)
  else if r.kind != 5 || r.wr then s
  else match getJob? s r.who with
    | none => s
    | some y => putJob s r.who { y with buf := (r.va, devBytes s (r.line * 64) 64) :: y.buf }

/-- A request is carried out with its ECC judgement; a line marked uncorrectable stays so until it is written. -/
def issueReq (s : State) (x : Nat) (r : MemReq) (ecc : EccResult) : State :=
  let s1 := openRow (updHbm s fun h => { h with reqs := h.reqs.erase r, turn := if r.rank == 4 then mapPut h.turn x r.kind else h.turn }) x r
  if r.wr then s1
  else if badAt s (r.line * 64) then readerHit (eccUncorrectable s1 r.line (r.kind == 0)) r
  else match ecc with
    | .good => deliver s1 r
    | .corrected => deliver (eccCorrected s1 r.line) r
    | .uncorrectable => readerHit (eccUncorrectable s1 r.line (r.kind == 0)) r

/-- A rank 3 operation: a postponed refresh, else a neighbour refresh, unless the pseudo-channel is held. -/
def rank3 (s : State) (x : Nat) : Option State :=
  if s.hbm.held.contains x then none
  else if 0 < debtOf s x && (freeBank s x).isSome then
    (freeBank s x).map fun b => updHbm (refreshBank s x b) fun h => { h with debt := mapPut h.debt x (debtOf s x - 1) }
  else if 0 < mapGet s.hbm.nrr x 0 then
    some (incF (updHbm s fun h => { h with nrr := mapPut h.nrr x (mapGet h.nrr x 0 - 1) }) glb R.MEM_NRR_NRR)
  else none

/-- MEM_REQUEST_ISSUE. -/
def execMemRequestIssue (x : PcIx) (ecc : EccResult) (s : State) : Host.Outcome State Fault Refusal :=
  if !memServes s then .next s
  else match nextReq s x, rank3 s x with
    | some r, some s3 => .next (if r.rank == 2 then issueReq s x r ecc else s3)
    | some r, none => .next (issueReq s x r ecc)
    | none, some s3 => .next s3
    | none, none => .next s

/-- ROW_IDLE_CLOSE (R318). -/
def execRowIdleClose (x : PcIx) (bank : Nat) (s : State) : Host.Outcome State Fault Refusal :=
  .next (updHbm s fun h => { h with rows := mapErase h.rows (64 * x + bank % 64) })

/-! ### Patrol scrub (R330) -/

/-- The n-th line of a pseudo-channel. -/
def scrubLine (x n : Nat) : Nat := (x / 8 * homeSize + n / 4 * 2048 + x % 8 * 256) / 64 + n % 4

/-- PATROL_SCRUB: the next line, at rank 5: only where no other request of the pseudo-channel waits. -/
def execPatrolScrub (x : PcIx) (ecc : EccResult) (s : State) : Host.Outcome State Fault Refusal :=
  if !memServes s || s.hbm.held.contains x.val || (nextReq s x).isSome then .next s
  else
    let n := mapGet s.hbm.patrol x 0
    let line := scrubLine x n
    let s1 := openRow (updHbm s fun h => { h with patrol := mapPut h.patrol x ((n + 1) % (homeSize / 512)) }) x ⟨5, 8, 0, line, false, 0⟩
    if badAt s (line * 64) then .next (eccUncorrectable s1 line false)
    else match ecc with
      | .good => .next s1
      | .corrected => .next (eccCorrected s1 line)
      | .uncorrectable => .next (eccUncorrectable s1 line false)

/-! ### Self-refresh (R332) -/

/-- The controller can enter self-refresh: no change, retrain or repair runs. -/
def memQuiet (s : State) : Bool := memState s != 3 && memState s != 5 && memState s != 1 && s.hbm.repairing == []

/-- No request is out: the controller can precharge every bank. -/
def memIdle (s : State) : Bool := memQuiet s && (memState s != 2 || s.hbm.reqs == [])

def memSleep (s : State) : State := if memState s == 2 then wr s glb R.MEM_STAT_STATE 4 else s

def memWake (s : State) : State :=
  if memState s == 4 then updHbm (wr s glb R.MEM_STAT_STATE 2) fun h => { h with debt := [], nrr := [], rows := [] } else s

end Sys2Proof.Machine
end

