-- ==== Sys2Proof/Machine/TimeRing.lean ====
section
/-! DEFINITION. Ring time, references, steering, the Fjarvor ring's frames and links, peer delay, scheduled launches, the
Strum pulse and snapshots (R335 to R367, spec/13_time_and_fjarvor_ring.md). MSG frames reach the tellers in
Machine/TellerRoles.lean. -/
namespace Sys2Proof.Machine

/-! ### Ring time and its quality (R335, R341, R342) -/

def ringPosition (s : State) : Nat := rd s glb R.TIM_CFG_POS
def ringNumber (s : State) : Nat := rd s glb R.TIM_CFG_RING

/-- The ring master is the device at position 0 (R363). -/
def isMaster (s : State) : Bool := ringPosition s == 0

/-- R341, first table: the worst row that holds. -/
def qualRow (s : State) : Nat :=
  if !s.ring.everSet then 3
  else if flag s glb R.TIM_REF_STAT_HOLD || s.ring.holdSlew || !powerReady s then 2
  else if !isMaster s && s.ring.noFrame then 1
  else 0

/-- R341: QUAL, for a device that is not the master no better than the last TIME frame's. -/
def qualOf (s : State) : Nat := if isMaster s then qualRow s else max (qualRow s) s.ring.qualIn

/-- Show QUAL after anything it depends on has changed. -/
def showQual (s : State) : State := wr s glb R.TIM_STAT_QUAL (qualOf s)

/-- The device is live (Steering). -/
def timeLive (s : State) : Bool :=
  allTiles.any (fun t => flag s (tileB t) R.TIL_VCLK_CTL_EN) || (List.range 4).any (fun q => digState s q != 0) ||
    s.ring.launches.any (·.job.isSome) || s.ring.snaps != []

/-- A natural number moved by an integer, not below 0. -/
def shiftBy (d : Int) (x : Nat) : Nat := ((x : Int) + d).toNat

/-- Ring time jumps (R342): what the transmitters count on the same clock moves with it. -/
def stepTime (s : State) (d : Int) : State :=
  updRing { s with now := shiftBy d s.now } fun r =>
    { r with outFree := shiftBy d r.outFree
             retFree := shiftBy d r.retFree
             strumAt := r.strumAt.map (shiftBy d)
             fwd := r.fwd.map fun f => (shiftBy d f.1, f.2) }

/-- A correction begins to be slewed (R342); it replaces one that still ran. With nothing to correct, a holdover slew has ended (R340). -/
def slewBy (s : State) (d : Int) : State :=
  let s1 := wr (updRing s fun r => { r with slew := d, holdSlew := r.holdSlew && d != 0 }) glb R.TIM_STAT_SLEWING (b2n (d != 0))
  if s.ring.holdSlew && d == 0 then showQual s1 else s1

/-- A free integer below a bound in magnitude. -/
def freshInt (s : State) (bound : Nat) : Int × State :=
  let d := freshNat s
  ((d.1 % (2 * bound + 1) : Nat) - (bound : Int), d.2)

/-! ### References (R338 to R340) -/

/-- Input b is present: REF_A for false, REF_B for true. -/
def refOk (s : State) (b : Bool) : Bool := if b then flag s glb R.TIM_REF_STAT_B_OK else flag s glb R.TIM_REF_STAT_A_OK

def setRef (s : State) (b v : Bool) : State :=
  if b then wr s glb R.TIM_REF_STAT_B_OK (b2n v) else wr s glb R.TIM_REF_STAT_A_OK (b2n v)

/-- The input in use and the preferred one, true for REF_B. -/
def refSel (s : State) : Bool := flag s glb R.TIM_REF_STAT_SEL
def refPref (s : State) : Bool := flag s glb R.TIM_REF_CTL_PREF

/-- Switch to input b (R339): a phase step within 50 ps, 3 units, and the NOTE. -/
def refSwitch (s : State) (b : Bool) : State :=
  let d := freshInt s 3
  signal (setF (wr (stepTime d.2 d.1) glb R.TIM_REF_STAT_SEL (b2n b)) glb R.TIM_REF_STAT_SWITCHED) 0x19 0 (b2n b)

/-- The reference and Strum inputs are ignored in cold reset and in SEALED (R436). -/
def inputsOff (s : State) : Bool := s.boot.por || sealed s

/-- REFERENCE_LOST (R338 to R340). -/
def execReferenceLost (b : Bool) (s : State) : Host.Outcome State Fault Refusal :=
  if inputsOff s then .next s else
  let s1 := setRef s b false
  if flag s glb R.TIM_REF_STAT_HOLD then .next s1
  else if !refOk s1 (!b) then .next (showQual (levelOn (setF s1 glb R.TIM_REF_STAT_HOLD) 0x1A 0 0))
  else if refSel s == b then .next (refSwitch s1 (!b))
  else .next s1

/-- REFERENCE_PRESENT: holdover ends in a slew onto the reference's phase, whose size no rule gives. -/
def execReferencePresent (b : Bool) (s : State) : Host.Outcome State Fault Refusal :=
  if inputsOff s then .next s else
  let s1 := setRef s b true
  if flag s glb R.TIM_REF_STAT_HOLD then
    let d := freshInt s1 (usec 1000)
    let s2 := levelOff (clrF (wr d.2 glb R.TIM_REF_STAT_SEL (b2n b)) glb R.TIM_REF_STAT_HOLD) 0x1A 0
    .next (showQual (setF (updRing s2 fun r => { r with slew := d.1, holdSlew := true }) glb R.TIM_STAT_SLEWING))
  else .next s1

/-- REFERENCE_REVERT (R339). -/
def execReferenceRevert (s : State) : Host.Outcome State Fault Refusal :=
  .next (if flag s glb R.TIM_REF_CTL_REVERT && !flag s glb R.TIM_REF_STAT_HOLD && refSel s != refPref s && refOk s (refPref s) then
    refSwitch s (refPref s)
  else s)

/-- SLEW_END (R342): the correction is spent; with the holdover slew, QUAL leaves HOLDOVER (R340). -/
def execSlewEnd (s : State) : Host.Outcome State Fault Refusal :=
  .next (if flag s glb R.TIM_STAT_SLEWING then
    showQual (clrF (updRing { s with now := shiftBy s.ring.slew s.now } fun r => { r with slew := 0, holdSlew := false })
      glb R.TIM_STAT_SLEWING)
  else s)

/-- R344: a write of SET. -/
def timeSet (s : State) : State :=
  if timeLive s then setF s glb R.TIM_STAT_REFUSED
  else
    let v := rdTime s glb R.TIM_SET0_FRAC R.TIM_SET1_NS R.TIM_SET2_SECL R.TIM_SET3_SECH
    showQual (updRing (stepTime s ((v : Int) - (s.now : Int))) fun r => { r with everSet := true })

/-- TIME_SET. -/
def execTimeSet (s : State) : Host.Outcome State Fault Refusal := .next (barWrite s none 0x300000 timeSet)

/-- JOIN_WRITE (R364). -/
def execJoinWrite (v : Bool) (s : State) : Host.Outcome State Fault Refusal :=
  .next (barWrite s none 0x300000 fun s => wr s glb R.TIM_CTL_JOIN (b2n v))

/-- R364: the device drives BYPASS_N low. -/
def bypassLow (s : State) : Bool :=
  !s.boot.por && powerUp s && !sealed s && flag s glb R.TIM_CTL_JOIN

/-! ### Frames (R346, R348, R355) -/

/-- Bytes of a frame from an offset. -/
def frameBytes (f : List Nat) (off n : Nat) : List Nat := (f.drop off).take n

/-- A little-endian and a big-endian number in a frame. -/
def frameLe (f : List Nat) (off n : Nat) : Nat := leNat (frameBytes f off n)
def frameBe (f : List Nat) (off n : Nat) : Nat := leNat (frameBytes f off n).reverse

def frameHead (f : List Nat) : Nat := frameLe f 0 8
def frameType (f : List Nat) : Nat := bits (frameHead f) 0 4
def frameHops (f : List Nat) : Nat := bits (frameHead f) 8 8
def frameSrc (f : List Nat) : Nat := bits (frameHead f) 16 5
def frameDst (f : List Nat) : Nat := bits (frameHead f) 24 5
def frameAll (f : List Nat) : Bool := bit (frameHead f) 31
def frameRing (f : List Nat) : Nat := bits (frameHead f) 32 4
def frameDlyInv (f : List Nat) : Bool := bit (frameHead f) 40
def frameReport (f : List Nat) : Bool := bit (frameHead f) 41
def frameSeq (f : List Nat) : Nat := bits (frameHead f) 48 16
def framePay (f : List Nat) : List Nat := frameBytes f 28 32
def frameCorr (f : List Nat) : Int := signed 64 (frameBe f 18 8)

/-- ORIGIN in 2^-16 ns. -/
def frameOrigin (f : List Nat) : Nat := ringTime (frameBe f 8 6) (frameBe f 14 4) 0

/-- The CRC of a frame is good: CRC-32 over bytes 0 to 59, little-endian. -/
def frameCrcOk (f : List Nat) : Bool := f.length == 64 && frameLe f 60 4 == crc32 (f.take 60)

/-- A frame from its first 8 bytes as a number, ORIGIN, CORR and payload. -/
def makeFrame (head origin : Nat) (corr : Int) (pay : List Nat) : List Nat :=
  let l := leBytes 8 head ++ (leBytes 6 (secOf origin)).reverse ++ (leBytes 4 (nsOf origin)).reverse ++
    (leBytes 8 (unsigned 64 corr)).reverse ++ [0, 0] ++ (List.range 32).map fun i => pay.getD i 0 % 256
  l ++ leBytes 4 (crc32 l)

/-- R346: the first block boundary at or after an instant; boundaries lie 6.4 ns apart from each whole second. -/
def blockAt (x : Nat) : Nat :=
  let sec := 1000000000 * 65536
  let j := (x % sec * 10 + 4194303) / 4194304
  let at_ := fun (i : Nat) => x / sec * sec + roundDiv (i * 4194304) 10
  if 0 < j && decide (x ≤ at_ (j - 1)) then at_ (j - 1) else at_ j

/-- A frame occupies 64 ns of its pair (R345). -/
def frameTime : Nat := nsec 64

def linkOut (s : State) : Nat := rd s glb R.TIM_LINK_STAT_OUT
def linkIn (s : State) : Nat := rd s glb R.TIM_LINK_STAT_IN
def outUp (s : State) : Bool := linkOut s == 2

/-- The next SEQ of a frame type (R348). -/
def takeSeq (s : State) (type : Nat) : Nat × State :=
  let n := mapGet s.ring.seqs type 0
  (n, updRing s fun r => { r with seqs := mapPut r.seqs type ((n + 1) % 2 ^ 16) })

/-- Launch an own frame on OUT at boundary b (R355): its ORIGIN and CORR; without a valid link delay DLYINV is set. -/
def launchOwn (s : State) (b type dst : Nat) (all report : Bool) (pay : List Nat) : Nat × State :=
  let q := takeSeq s type
  let head := type + 0x10 + ringPosition s * 2 ^ 16 + dst % 32 * 2 ^ 24 + b2n all * 2 ^ 31 + ringNumber s * 2 ^ 32 +
    b2n (!outUp s) * 2 ^ 40 + b2n report * 2 ^ 41 + q.1 * 2 ^ 48
  let corr := (fracOf b : Int) + (if outUp s then signed 32 (rd s glb R.TIM_LINK_DLY_DLY) else 0)
  (q.1, updRing { q.2 with now := max s.now b } fun r => { r with lastOut := some (b, makeFrame head b corr pay), outFree := b + frameTime })

/-- Forward a frame on OUT at boundary b (R350). -/
def launchForward (s : State) (b arrival : Nat) (f : List Nat) : State :=
  let head := frameHead f + 2 ^ 8
  let corr := frameCorr f + ((b - arrival : Nat) : Int) + signed 32 (rd s glb R.TIM_LINK_DLY_DLY)
  let out := if outUp s then makeFrame head (frameOrigin f) corr (framePay f)
    else makeFrame (setBit head 40) (frameOrigin f) (frameCorr f) (framePay f)
  updRing { s with now := max s.now b } fun r => { r with lastOut := some (b, out), outFree := b + frameTime }

/-! ### Links (R347, R354) -/

/-- BLOCK_LOCK_GAINED. -/
def execBlockLockGained (out : Bool) (s : State) : Host.Outcome State Fault Refusal :=
  .next (if !powerUp s || sealed s then s else if out then (if linkOut s == 0 then updRing (wr s glb R.TIM_LINK_STAT_OUT 1) (fun r => { r with samples := [], outliers := 0 }) else s)
    else (if linkIn s == 0 then wr s glb R.TIM_LINK_STAT_IN 1 else s))

/-- BLOCK_LOCK_LOST: the lane goes DOWN; on OUT the request in flight is lost. -/
def execBlockLockLost (out : Bool) (s : State) : Host.Outcome State Fault Refusal :=
  if (if out then linkOut s else linkIn s) == 0 then .next s
  else
    let s1 := if out then updRing (wr s glb R.TIM_LINK_STAT_OUT 0) (fun r => { r with req := none }) else wr s glb R.TIM_LINK_STAT_IN 0
    .next (levelOn (setF s1 glb R.TIM_LINK_STAT_DOWN_SEEN) 0x1B (b2n out) 0)

/-- The mean of a list of integers. -/
def meanInt (l : List Int) : Int := if l.length = 0 then 0 else roundDivInt (l.foldl (· + ·) 0) l.length

/-- R354: one sample of the OUT link delay; in LEARNING the sixteenth brings the lane UP; in UP a sample outside 1 ns of the
mean is discarded, and 16 in a row send the lane back to LEARNING (R347). -/
def delaySample (s : State) (d : Int) : State :=
  let r := s.ring
  if linkOut s == 1 then
    let l := (d :: r.samples).take 16
    let s1 := updRing s fun r => { r with samples := l }
    if l.length < 16 then s1
    else levelOff (wr (wr (updRing s1 fun r => { r with outliers := 0 }) glb R.TIM_LINK_STAT_OUT 2) glb R.TIM_LINK_DLY_DLY
      (unsigned 32 (meanInt l))) 0x1B 1
  else if linkOut s == 2 then
    let m := meanInt r.samples
    if (d - m).natAbs ≤ nsec 1 then
      let l := (d :: r.samples).take 16
      wr (updRing s fun r => { r with samples := l, outliers := 0 }) glb R.TIM_LINK_DLY_DLY (unsigned 32 (meanInt l))
    else if r.outliers + 1 < 16 then updRing s fun r => { r with outliers := r.outliers + 1 }
    else
      let v := freshNat s
      levelOn (wr (wr (updRing v.2 fun r => { r with samples := [], outliers := 0 }) glb R.TIM_LINK_STAT_OUT 1)
        glb R.TIM_LINK_DLY_DLY v.1) 0x1B 1 0
  else s

/-- PDELAY_RESP (R354): the response to the request in flight arrives on the return pair. -/
def execPdelayResp (f : Frame) (tau : Nat) (s : State) : Host.Outcome State Fault Refusal :=
  if linkOut s == 0 || !frameCrcOk f || frameType f != 3 || frameRing f != ringNumber s then .next s
  else match s.ring.req with
    | none => .next s
    | some (t1, seq) =>
      if frameLe (framePay f) 0 2 != seq then .next s
      else
        let d := ((tau : Int) - (t1 : Int) - frameCorr f + signed 32 (rd s glb R.TIM_LINK_ASYM_ASYM)) / 2
        .next (delaySample (updRing { s with now := max s.now tau } fun r => { r with req := none }) d)

/-! ### Arrival on IN (R350) -/

/-- A frame that R350 drops, counted; none where it goes on. -/
def dropFrame (s : State) (f : List Nat) : Option State :=
  if !frameCrcOk f then some (incF s glb R.TIM_RING_CRC_COUNT)
  else if frameRing f != ringNumber s || frameType f < 1 || decide (6 < frameType f) then some (incF s glb R.TIM_RING_DROP_COUNT)
  else if frameSrc f == ringPosition s then some s
  else if frameHops f == 31 then some (incF s glb R.TIM_RING_DROP_COUNT)
  else none

/-- FRAME_DROP. -/
def execFrameDrop (f : Frame) (s : State) : Host.Outcome State Fault Refusal :=
  .next (if linkIn s == 0 then s else (dropFrame s f).getD s)

/-- The first good frame from upstream brings IN UP (R347). -/
def inLearned (s : State) (f : List Nat) : State :=
  if linkIn s == 1 && !frameDlyInv f then levelOff (wr s glb R.TIM_LINK_STAT_IN 2) 0x1B 0 else s

/-- Missing SEQ values of BCAST and SNAP frames, by originator and type. -/
def countGaps (s : State) (f : List Nat) : State :=
  let key := 32 * frameType f + frameSrc f
  let s1 := match mapGet? s.ring.lastSeq key with
    | some n => addF s glb R.TIM_GAPS_COUNT ((frameSeq f + 2 ^ 16 - (n + 1) % 2 ^ 16) % 2 ^ 16)
    | none => s
  updRing s1 fun r => { r with lastSeq := mapPut r.lastSeq key (frameSeq f) }

/-- A frame of a type arrives on IN at an instant (R350): it is dropped, consumed, forwarded, or both; `k` consumes. -/
def receive (s : State) (type : Nat) (f : List Nat) (tau : Nat) (k : State → State) : State :=
  if linkIn s == 0 || frameType f != type then s
  else match dropFrame s f with
    | some s1 => s1
    | none =>
      let s1 := inLearned { s with now := max s.now tau } f
      let mine := frameAll f || type == 2 || frameDst f == ringPosition s
      let s2 := if mine then k s1 else s1
      if type != 2 && (frameAll f || !mine) then updRing s2 fun r => { r with fwd := r.fwd ++ [(tau, f)] } else s2

/-- PDELAY_REQ (R354): the response leaves on the return pair at its next free boundary. -/
def execPdelayReq (f : Frame) (tau : Nat) (s : State) : Host.Outcome State Fault Refusal :=
  .next (receive s 2 f tau fun s =>
    let b := blockAt (max tau s.ring.retFree)
    let q := takeSeq s 3
    let head := 3 + 0x10 + ringPosition s * 2 ^ 16 + frameSrc f * 2 ^ 24 + ringNumber s * 2 ^ 32 + q.1 * 2 ^ 48
    updRing q.2 fun r =>
      { r with lastRet := some (b, makeFrame head b ((b - tau : Nat) : Int) (leBytes 2 (frameSeq f)))
               retFree := b + frameTime })

/-- R343: steering by a valid TIME frame. -/
def steer (s : State) (f : List Nat) (tau : Nat) : State :=
  let q := frameLe (framePay f) 0 1 % 16
  if isMaster s || frameSrc f != 0 || frameDlyInv f || q == 3 then s
  else
    let x : Int := (frameOrigin f : Int) + frameCorr f - (tau : Int)
    let offs := (x :: s.ring.offs).take 8
    let m := meanInt offs
    let s1 := updRing s fun r => { r with offs := offs, qualIn := q, noFrame := false }
    let s2 := wr s1 glb R.TIM_OFS_OFS (unsigned 32 (clampInt (-2147483648) 2147483647 m))
    let big := decide (rd s glb R.TIM_CFG_STEPTH * nsec 10 < m.natAbs)
    if !timeLive s && (rd s glb R.TIM_STAT_QUAL == 3 || big) then
      showQual (updRing (stepTime s2 m) fun r => { r with everSet := true })
    else
      let s3 := slewBy s2 m
      showQual (if big then signal (setF s3 glb R.TIM_STAT_OFSBIG) 0x1C 0 0 else s3)

/-- TIME_FRAME. -/
def execTimeFrame (f : Frame) (tau : Nat) (s : State) : Host.Outcome State Fault Refusal :=
  .next (receive s 1 f tau fun s => steer s f tau)

/-- TIME_FRAME_TIMEOUT (R341). -/
def execTimeFrameTimeout (s : State) : Host.Outcome State Fault Refusal :=
  .next (if isMaster s then s else showQual (updRing s fun r => { r with noFrame := true }))

/-! ### BCAST (R349, R351) -/

/-- A request reaches a gang's leader at an instant not before now: its latch vector under the law in force. -/
def atInstant (s : State) (tau : Nat) : State := { s with now := max s.now tau }

/-- Trigger source i fires at an instant (R116, R351). -/
def triggerJumpAt (s : State) (i tau : Nat) : State := { triggerJump (atInstant s tau) i with now := s.now }

/-- An abort reaches a gang at an instant (R114, R351); an earlier one stands. -/
def gangAbortAt (s : State) (l tau : Nat) : State := { gangAbort (atInstant s tau) l with now := s.now }

/-- A consumed BCAST frame acts (R351). -/
def bcastAct (s : State) (pay : List Nat) : State :=
  let head := frameLe pay 0 8
  let tau := argTime (frameLe pay 8 8) (frameLe pay 16 8)
  match bits head 0 4 with
  | 3 =>
    if flag s glb R.TIM_BC_CTL_ABORT_EN then
      let m := rd s glb R.TIM_BCAB_LO_TILES + rd s glb R.TIM_BCAB_HI_TILES * 2 ^ 32
      (s.gangs.filter fun e => gangLive s e.2 && e.2.tiles.any fun t => bit m t).foldl (fun s e => gangAbortAt s e.1 tau) s
    else s
  | 1 | 2 =>
    let s1 := bcastTrigger s (bits head 8 8) tau
    if bits head 8 8 == rd s glb R.TIM_BC_CTL_JBCID then triggerJumpAt s1 4 tau else s1
  | _ => s

/-- BCAST. -/
def execBcastFrame (f : Frame) (tau : Nat) (s : State) : Host.Outcome State Fault Refusal :=
  .next (receive s 4 f tau fun s => bcastAct (countGaps s f) (framePay f))

/-! ### Snapshots (R359 to R362) -/

def showSnaps (s : State) : State := wr s glb R.TIM_SNAP_STAT_PEND s.ring.snaps.length

def addSnap (s : State) (x : Snap) : State := showSnaps (updRing s fun r => { r with snaps := r.snaps ++ [x] })

/-- SNAP (R360). -/
def execSnapFrame (f : Frame) (tau : Nat) (s : State) : Host.Outcome State Fault Refusal :=
  .next (receive s 6 f tau fun s =>
    let s1 := countGaps s f
    let t := argTime (frameLe (framePay f) 0 8) (frameLe (framePay f) 8 8)
    if t ≤ tau || decide (4 ≤ s.ring.snaps.length) then signal (incF s1 glb R.TIM_SNAP_LATE_LATE) 0x1D 0 0
    else addSnap s1 ⟨t, frameLe (framePay f) 16 4, true, none, false⟩)

/-- Timing-clock edges lie 500 ps apart (R64). -/
def latchEdge (t : Nat) : Nat := (t + 32767) / 32768 * 32768

/-- The vector counter at an instant (R337). -/
def vcntAt (s : State) (t x : Nat) : Nat :=
  if flag s (tileB t) R.TIL_VCLK_CTL_EN && decide ((lawOf s t).e ≤ x) then lawAt (lawOf s t) x else vcnt s t

/-- A register's word from the fields of its table. -/
def wordOf (s : State) (b : Nat) (tbl : List Field) (off : Nat) : Nat :=
  (tbl.filter fun f => f.off == off).foldl (fun n f => n + rd s b f * 2 ^ f.lsb) 0

/-- `GLB_SITE_STAT` as read: `ACTIVE` follows R129. -/
def siteStat (s : State) (i : Nat) : Nat :=
  wordOf (wr s (siteB i) R.GLB_SITE_STAT_ACTIVE (b2n (siteActive s i))) (siteB i) R.siteTable 0

/-- Two words of ring time (R335). -/
def timeWords (t : Nat) : List Nat := leBytes 8 (fracOf t + nsOf t * 2 ^ 16) ++ leBytes 8 (secOf t)

/-- R362: the record of a latch. -/
def snapRecord (s : State) (x : Snap) (edge : Nat) : List Nat :=
  let head := 0x5C74 + ringNumber s * 2 ^ 16 + ringPosition s * 2 ^ 20 + b2n x.frame * 2 ^ 25 + x.seqn * 2 ^ 32
  leBytes 8 head ++ timeWords x.t ++ timeWords edge ++ leBytes 8 (rd s glb R.TIM_STAT_QUAL) ++ List.replicate 16 0 ++
    (allTiles.flatMap fun t =>
      leBytes 8 (vcntAt s t edge) ++ leBytes 4 (rd s (tileB t) R.TIL_SEQ_SEGCNT_SEGCNT) ++
        leBytes 4 (rd s (tileB t) R.TIL_SEQ_STAT_STATE + rd s (tileB t) R.TIL_SEQ_STAT_SEG * 2 ^ 4)) ++
    ((List.range 4).flatMap fun q => leBytes 4 (rd s (secB q) R.DIG_SEGDONE_SEGDONE) ++ leBytes 4 (digState s q)) ++
    (allSites.flatMap fun i => leBytes 4 (rd s (siteB i) R.GLB_SITE_FCNT_FCNT) ++ leBytes 4 (siteStat s i))

/-- R359: the shadows and `TIM_SNAP_*` take the values of the latch edge. -/
def snapShadows (s : State) (seqn edge : Nat) : State :=
  let s1 := allTiles.foldl (fun s t =>
    wr (wr64 s (tileB t) R.TIL_SNAP_VCNT_LO_VCNT R.TIL_SNAP_VCNT_HI_VCNT (vcntAt s t edge))
      (tileB t) R.TIL_SNAP_SEGCNT_SEGCNT (rd s (tileB t) R.TIL_SEQ_SEGCNT_SEGCNT)) s
  setF (wrTime (wr s1 glb R.TIM_SNAP_SEQ_SEQN seqn) glb R.TIM_SNAP_TIME0_FRAC R.TIM_SNAP_TIME1_NS R.TIM_SNAP_TIME2_SECL
    R.TIM_SNAP_TIME3_SECH edge) glb R.TIM_SNAP_STAT_LATCHED

/-- R360: the record of a latched SNAP frame goes to `TIM_SNAPBUF`, where its context allows it. -/
def snapToBuf (s : State) (l : List Nat) : State :=
  let k := rd s glb R.TIM_SNAPBUF_CTX_CTX
  let va := rd64 s glb R.TIM_SNAPBUF_LO_ADDR R.TIM_SNAPBUF_HI_ADDR
  if !flag s glb R.TIM_SNAPBUF_CTX_EN || !flag s (ctxB k) R.XLT_CTX_CFG_EN then s
  else if isRt k && (!flag s (ctxB k) R.XLT_CTX_STAT_PINNED || !inPinWindows s k 4 va l.length) then
    incF (signal s 0x25 k 0) (ctxB k) R.XLT_CTX_FAULTS_FAULTS
  else snapWrite (updRing s fun r => { r with snapOut := some (va, l) })

/-- A job's snapshot ends with its record and status (R361). -/
def snapJob (s : State) (x : Snap) (edge : Nat) : State :=
  match x.job with
  | none => s
  | some j => match getJob? s j with
    | none => s
    | some y => writeAndEnd s j (arg y 3) (snapRecord s x edge) (if x.noRing then 0x0372 else 0) x.seqn 2912 0

/-- A result is owed of a vector that ends at or before the latch edge (R359). -/
def latchOwed (s : State) (edge : Nat) : Bool :=
  allTiles.any fun t => (getTile s t).await.any fun a => decide (lawTime (lawOf s t) (a.vec + 1) ≤ edge)

/-- SNAPSHOT_LATCH: the earliest pending snapshot's latch edge; equal T latch once. The site values wait until every result of a vector
that ends at or before the edge has been counted: until then the command finds nothing to take. -/
def execSnapshotLatch (s : State) : Host.Outcome State Fault Refusal :=
  match s.ring.snaps with
  | [] => .next s
  | a :: rest =>
    let t := rest.foldl (fun m x => min m x.t) a.t
    let due := s.ring.snaps.filter (·.t == t)
    let edge := latchEdge t
    if latchOwed s edge then .next s else
    let s1 := { s with now := max s.now edge }
    let seqn := (due.getLast?.getD a).seqn
    let s2 := showSnaps (updRing (snapShadows s1 seqn edge) fun r => { r with snaps := r.snaps.filter (·.t != t) })
    let s3 := due.foldl (fun s x => snapJob s x edge) s2
    match due.reverse.find? (·.frame) with
    | some x => .next (snapToBuf s3 (snapRecord s2 x edge))
    | none => .next s3

/-! ### Jobs of the time base (R356, R361) -/

/-- A job that stands first at its owner and has not started. -/
def jobNew (s : State) (j op : Nat) : Option Job :=
  match jobReady s j op with
  | some x => if x.phase == .dispatched then some x else none
  | none => none

/-- The two-word time at argument words i and i + 1 (R335, R284). -/
def argAt (x : Job) (i : Nat) : Nat := argTime (arg x i) (arg x (i + 1))

/-- TIME_LAUNCH: with 16 launches pending the job waits in its owner queue. -/
def execTimeLaunch (j : Nat) (s : State) : Host.Outcome State Fault Refusal :=
  match jobNew s j 0x60 with
  | none => .next s
  | some x =>
    let kind := bits (arg x 3) 0 4
    if bits (arg x 0) 0 4 != 4 || bits (arg x 0) 8 5 != 24 || kind == 0 || decide (3 < kind) then .next (endJob s j 0x0170 0 0 0)
    else if 16 ≤ (s.ring.launches.filter (·.job.isSome)).length then .next s
    else
      let pay := leBytes 8 (arg x 3) ++ leBytes 8 (arg x 4) ++ leBytes 8 (arg x 5)
      .next (updRing (startJob s j) fun r => { r with launches := r.launches ++ [⟨argAt x 1, 4, pay, some j, decide (argAt x 1 < s.now)⟩] })

/-- SNAPSHOT. -/
def execSnapshot (j : Nat) (s : State) : Host.Outcome State Fault Refusal :=
  match jobNew s j 0x61 with
  | none => .next s
  | some x =>
    let ring := bit x.flags 0
    let t := argAt x 0
    let seqn := bits (arg x 2) 0 32
    if arg x 4 < 2912 || arg x 3 == 0 then .next (endJob s j 0x0170 0 0 0)
    else if t < s.now + usec (if ring then 200 else 2) then .next (endJob s j 0x0370 0 0 0)
    else if 4 ≤ s.ring.snaps.length then .next (endJob s j 0x0371 0 0 0)
    else
      let s1 := addSnap (startJob s j) ⟨t, seqn, false, some j, ring && !outUp s⟩
      let pay := leBytes 8 (fracOf t + nsOf t * 2 ^ 16) ++ leBytes 8 (secOf t) ++ leBytes 8 seqn
      .next (if ring && outUp s then
        updRing s1 fun r => { r with launches := r.launches ++ [⟨s.now, 6, pay, none, false⟩] }
      else s1)

/-! ### The OUT transmitter (R353) -/

/-- TIME_PERIOD_TIMER: the master's TIME frame is due. -/
def execTimePeriodTimer (s : State) : Host.Outcome State Fault Refusal :=
  .next (if isMaster s then updRing s (fun r => { r with timeDue := true }) else s)

/-- PDELAY_TIMER. -/
def execPdelayTimer (s : State) : Host.Outcome State Fault Refusal := .next (updRing s fun r => { r with reqDue := true })

/-- START frames (R109) as launches due at their τ. -/
def startLaunch (s : State) (e : Nat × Nat) : Launch :=
  let head := 1 + rd s glb R.TIM_BC_CTL_SSBCID * 2 ^ 8 + e.1 * 2 ^ 16
  ⟨e.2, 4, leBytes 8 head ++ timeWords e.2, none, false⟩

def allLaunches (s : State) : List Launch := s.ring.launches ++ s.startQ.map (startLaunch s)

/-- The launch of the earliest time, first in dispatch order. -/
def firstLaunch : List Launch → Option Launch
  | [] => none
  | a :: rest => match firstLaunch rest with
    | none => some a
    | some b => if b.tl < a.tl then some b else some a

/-- The instant from which a forwarded frame is ready. -/
def readyAt (e : Nat × List Nat) : Nat := e.1 + nsec 40

/-- A scheduled launch is made at boundary b: on the ring, or to the device itself where OUT is not UP (R356). -/
def makeLaunch (s : State) (x : Launch) (b : Nat) : State :=
  let s0 := if s.ring.launches.contains x then updRing s fun r => { r with launches := r.launches.erase x }
    else { s with startQ := ((s.startQ.find? fun e => startLaunch s e == x).map s.startQ.erase).getD s.startQ }
  let s1 := if outUp s then (launchOwn s0 b x.type 0 true false x.payload).2 else { s0 with now := max s.now b }
  let s2 := if x.type == 4 then bcastAct s1 x.payload
    else if outUp s then s1
    else updRing s1 fun r => { r with snaps := r.snaps.map fun y => if y.job.isSome && y.seqn == frameLe x.payload 16 4 then { y with noRing := true } else y }
  let st := if !outUp s then 0x0372 else if x.late then 0x0070 else 0
  endJob? s2 x.job st (secOf b / 2 ^ 32) (fracOf b + nsOf b * 2 ^ 16) (secOf b % 2 ^ 32)

/-- A local message leaves in a MSG frame. -/
def launchMsg (s : State) (b : Nat) (m : Bool × Nat × List Nat) : State := (launchOwn s b 5 m.2.1 false m.1 m.2.2).2

/-- FRAME_LAUNCH: at the first boundary at which OUT is free and a frame is ready, the first of R353. -/
def execFrameLaunch (s : State) : Host.Outcome State Fault Refusal :=
  let r := s.ring
  let free := max s.now r.outFree
  let l := firstLaunch (allLaunches s)
  let f := r.fwd.head?
  let soon := r.timeDue || r.reqDue || (r.msgs != [] && r.fwd == [])
  let starts := (l.map (·.tl)).toList ++ (f.map readyAt).toList ++ (if soon then [free] else [])
  match starts with
  | [] => .next s
  | a :: rest =>
    let b := blockAt (max free (rest.foldl min a))
    match l.filter (fun x => decide (x.tl ≤ b)), f.filter (fun e => decide (readyAt e ≤ b)) with
    | some x, _ => .next (makeLaunch s x b)
    | none, some e => .next (launchForward (updRing s fun r => { r with fwd := r.fwd.drop 1 }) b e.1 e.2)
    | none, none =>
      if r.timeDue then
        .next (launchOwn (updRing s fun r => { r with timeDue := false }) b 1 0 true false [rd s glb R.TIM_STAT_QUAL]).2
      else if r.reqDue then
        let x := launchOwn (updRing s fun r => { r with reqDue := false }) b 2 0 false false []
        .next (updRing x.2 fun r => { r with req := some (b, x.1) })
      else match r.msgs with
        | m :: more => if r.fwd == [] then .next (launchMsg (updRing s fun r => { r with msgs := more }) b m) else .next s
        | [] => .next s

/-! ### Strum pulse (R357) -/

/-- ARR - DLY - W, with W the nearest whole second, and ARR - DLY. -/
def strumOffset (s : State) (tau : Nat) : Int × Int :=
  let sec : Int := 1000000000 * 65536
  let x : Int := (tau : Int) - signed 32 (rd s glb R.TIM_STRUM_DLY_DLY)
  (x - (2 * x + sec) / (2 * sec) * sec, x)

/-- An accepted edge as MEASURE. -/
def strumMeasure (s : State) (tau : Nat) (ofs : Int) : State :=
  let s1 := wrTime s glb R.TIM_STRUM_ARR0_FRAC R.TIM_STRUM_ARR1_NS R.TIM_STRUM_ARR2_SECL R.TIM_STRUM_ARR3_SECH tau
  let s2 := wr s1 glb R.TIM_STRUM_OFS_OFS (unsigned 32 (clampInt (-2147483648) 2147483647 ofs))
  let l := (ofs :: s.ring.strumOfs).take 3
  let s3 := wr (updRing s2 fun r => { r with strumOfs := l }) glb R.TIM_STRUM_STAT_LOCKED
    (b2n (l.length == 3 && l.all fun o => decide (o.natAbs ≤ nsec 1)))
  if isMaster s && flag s glb R.TIM_STRUM_CTL_STEER then slewBy s3 (-ofs) else s3

/-- STRUM_EDGE. In DORMANT and WATCH the core-die TDC that stamps it stands (R391). -/
def execStrumEdge (tau : Nat) (s : State) : Host.Outcome State Fault Refusal :=
  if inputsOff s || !powerReady s then .next s else
  let o := strumOffset s tau
  let near := s.ring.strumAt.any fun a => decide (tau < a + nsec 100000000)
  let s1 := setF (updRing { s with now := max s.now tau } fun r => { r with strumAt := some tau }) glb R.TIM_STRUM_STAT_SEEN
  if near || decide (nsec 100000000 < o.1.natAbs) then .next (setF s1 glb R.TIM_STRUM_STAT_STRAY)
  else match rd s glb R.TIM_STRUM_CTL_MODE with
    | 1 => .next (strumMeasure s1 tau o.1)
    | 2 =>
      if timeLive s then .next (setF (strumMeasure s1 tau o.1) glb R.TIM_STRUM_STAT_SETFAIL)
      else
        let want : Int := (ringTime (rd s glb R.TIM_STRUM_SET_LO_SEC + rd s glb R.TIM_STRUM_SET_HI_SEC * 2 ^ 32) 0 0 : Nat)
        let s2 := updRing (stepTime s1 (want - o.2)) fun r => { r with everSet := true }
        .next (showQual (wr (setF s2 glb R.TIM_STRUM_STAT_SETDONE) glb R.TIM_STRUM_CTL_MODE 1))
    | _ => .next s1

end Sys2Proof.Machine
end

