-- ==== Sys2Proof/Machine/TellerRoles.lean ====
section
/-! DEFINITION. Messages, roles and epochs, halts and reload, teller images and ASSIGN_ROLE (R226 to R241, R384, R385;
spec/08_tellers_and_microcode.md, spec/14_calibration_and_spares.md). -/
namespace Sys2Proof.Machine

/-! ### Messages (R235 to R238) -/

/-- The first 8 bytes of a message as a number, and its fields. -/
def msgHead (m : List Nat) : Nat := leNat (m.take 8)
def msgRoleMode (m : List Nat) : Bool := bit (msgHead m) 0
def msgRemote (m : List Nat) : Bool := bit (msgHead m) 1
def msgDev (m : List Nat) : Nat := bits (msgHead m) 2 9
def msgRole (m : List Nat) : Nat := bits (msgHead m) 11 3
def msgDst (m : List Nat) : Nat := bits (msgHead m) 14 8
def msgEpoch (m : List Nat) : Nat := bits (msgHead m) 22 16
def msgSrc (m : List Nat) : Nat := bits (msgHead m) 38 8
def msgSdev (m : List Nat) : Nat := bits (msgHead m) 46 9

/-- A field of the head takes a value. -/
def putBits (w lsb width v : Nat) : Nat := w - bits w lsb width * 2 ^ lsb + v % 2 ^ width * 2 ^ lsb

def withHead (m : List Nat) (h : Nat) : List Nat := leBytes 8 h ++ m.drop 8

/-- The device's own number in the head (R19). -/
def ownDev (s : State) : Nat := ringNumber s * 32 + ringPosition s

/-- The teller of a list with the fewest inbox entries, lowest number first (R236). -/
def leastInbox (s : State) (l : List Nat) : Option Nat :=
  l.foldl (fun b n => match b with
    | none => some n
    | some k => if (getTel s n).inbox.length < (getTel s k).inbox.length then some n else some k) none

/-- R236: the teller a message is for; none is NOHOLDER. -/
def resolveMsg (s : State) (m : List Nat) : Option Nat :=
  let d := msgDst m
  if !msgRoleMode m then (if d < 192 then some d else none)
  else
    let holders := fun (l : List Nat) => l.filter fun n => telRole s n == msgRole m
    match msgRole m with
    | 1 | 2 | 3 => if d < 48 then (holders (tellersOfTile d)).head? else none
    | 4 => if d < 4 then (holders (tellersOfSector d)).head? else none
    | 5 => leastInbox s (holders allTellers)
    | 6 => if d < 4 then leastInbox s (holders (tellersOfSector d)) else none
    | _ => none

/-- A send report (R237): the first 8 bytes as resolved, and the outcome word. -/
def sendReport (m : List Nat) (outcome role epoch : Nat) : List Nat :=
  (m ++ List.replicate 8 0).take 8 ++ leBytes 8 (outcome + role * 2 ^ 3 + epoch * 2 ^ 8)

/-- A message reaches this device (R236, R237): it is delivered, or dropped with a report. -/
def deliverMsg (s : State) (m : List Nat) : State × Option (List Nat) :=
  match resolveMsg s m with
  | none => (s, some (sendReport m 4 0 0))
  | some n =>
    let m1 := if msgRoleMode m then withHead m (putBits (msgHead m) 22 16 (telEpoch s n)) else m
    let x := getTel s n
    if msgEpoch m1 != telEpoch s n then
      (incF s (telB n) R.TIL_TEL_STALE_STALE, some (sendReport m1 1 (telRole s n) (telEpoch s n)))
    else if 16 ≤ x.inbox.length then (incF s (telB n) R.TIL_TEL_FULL_FULL, some (sendReport m1 2 (telRole s n) (telEpoch s n)))
    else (raiseTel (showTelQ (putTel s n { x with inbox := x.inbox ++ [m1] }) n) n 8, none)

/-- A report reaches its sender (R237): the slot is freed and REPORT raised. -/
def takeReport (s : State) (n : Nat) (slot : SendSlot) (r : List Nat) : State :=
  let x := getTel s n
  raiseTel (showTelQ (putTel s n { x with slots := x.slots.erase slot, reports := x.reports ++ [r] }) n) n 9

/-- MESSAGE_LEAVES_OUTBOX: a message for a device of this ring goes to the transmitter; one for another ring stays in its
slot (R352). -/
def execMessageLeavesOutbox (n : TellerIx) (s : State) : Host.Outcome State Fault Refusal :=
  let x := getTel s n
  match x.outbox with
  | [] => .next s
  | m :: rest =>
    if 4 ≤ x.slots.length then .next s
    else
      let away := msgRemote m && msgDev m / 32 == ringNumber s
      let s1 := showTelQ (putTel s n { x with outbox := rest, slots := x.slots ++ [⟨m, away⟩] }) n
      .next (if away then updRing s1 fun r => { r with msgs := r.msgs ++ [(false, msgDev m % 32, m)] } else s1)

/-- The outcome of a message can be taken now: it is delivered, or its report has a place. -/
def arrives (s : State) (n : Nat) (e : SendSlot) : Bool :=
  !msgRemote e.msg && ((deliverMsg s e.msg).2.isNone || decide ((getTel s n).reports.length < 4))

/-- MESSAGE_ARRIVAL: the oldest message of teller n for this device whose outcome can be taken arrives. One to be dropped while
four reports are queued waits, and holds up none (R238). -/
def execMessageArrival (n : TellerIx) (s : State) : Host.Outcome State Fault Refusal :=
  match (getTel s n).slots.find? (arrives s n) with
  | none => .next s
  | some e =>
    match deliverMsg s e.msg with
    | (s1, none) => .next (showTelQ (updTel s1 n fun x => { x with slots := x.slots.erase e }) n)
    | (s1, some r) => .next (takeReport s1 n e r)

/-- MESSAGE_NOROUTE: 1 ms after leaving the outbox the oldest message has no outcome. Whether a message that left the
device was delivered, no frame tells: a free value. -/
def execMessageNoroute (n : TellerIx) (s : State) : Host.Outcome State Fault Refusal :=
  match (getTel s n).slots with
  | [] => .next s
  | e :: _ =>
    let waiting := s.ring.msgs.contains (false, msgDev e.msg % 32, e.msg)
    let d := freshNat s
    if e.away && !waiting && d.1 % 2 == 0 then
      .next (showTelQ (updTel d.2 n fun x => { x with slots := x.slots.erase e }) n)
    else if 4 ≤ (getTel s n).reports.length then .next s
    else
      let s1 := if e.away && waiting then updRing s fun r => { r with msgs := r.msgs.erase (false, msgDev e.msg % 32, e.msg) } else d.2
      .next (takeReport s1 n e (sendReport e.msg 3 0 0))

/-- A message with its epoch left out, by which a report finds its slot. -/
def msgKey (m : List Nat) : Nat := putBits (msgHead m) 22 16 0

/-- MSG (R351): a message for a teller here, or a report on one sent from here. -/
def execMsgFrame (f : Frame) (tau : Nat) (s : State) : Host.Outcome State Fault Refusal :=
  .next (receive s 5 f tau fun s =>
    let m := framePay f
    if frameReport f then
      match (getTel s (msgSrc m)).slots.find? fun e => e.away && msgKey e.msg == msgKey m with
      | some e => takeReport s (msgSrc m) e (m.take 16)
      | none => s
    else match deliverMsg s m with
      | (s1, none) => s1
      | (s1, some r) => updRing s1 fun q => { q with msgs := q.msgs ++ [(true, msgSdev m % 32, r)] })

/-! ### Roles and epochs (R232 to R234, R384) -/

/-- R234: the epoch rises, and every inbox message of another epoch is purged and reported STALE. -/
def epochStep (s : State) (n : Nat) : State :=
  let e := (telEpoch s n + 1) % 2 ^ 16
  let s1 := wr s (telB n) R.TIL_TEL_EPOCH_EPOCH e
  let x := getTel s1 n
  let gone := x.inbox.filter fun m => msgEpoch m != e
  let s2 := showTelQ (putTel s1 n { x with inbox := x.inbox.filter fun m => msgEpoch m == e }) n
  gone.foldl (fun s m =>
    let r := sendReport m 1 (telRole s n) e
    let s3 := incF s (telB n) R.TIL_TEL_STALE_STALE
    if msgSdev m == ownDev s then
      if msgSrc m < 192 then
        let y := getTel s3 (msgSrc m)
        raiseTel (showTelQ (putTel s3 (msgSrc m) { y with reports := y.reports ++ [r] }) (msgSrc m)) (msgSrc m) 9
      else s3
    else updRing s3 fun q => { q with msgs := q.msgs ++ [(true, msgSdev m % 32, r)] }) s2

/-- Pending events of a role wait for its next holder; ROLE is the teller's own. -/
def shelveEvents (s : State) (n : Nat) : State :=
  let r := telRole s n
  let x := getTel s n
  let s1 := putTel s n { x with pend := [] }
  if r == 0 || r == 5 then s1
  else
    let key := r * 256 + roleUnit r n
    let l := mapGet s.roleEvts key []
    { s1 with roleEvts := mapPut s.roleEvts key (l ++ x.pend.filter fun e => e != 0 && !l.contains e) }

/-- The events that waited for a role reach its holder. -/
def unshelveEvents (s : State) (n : Nat) : State :=
  let r := telRole s n
  let key := r * 256 + roleUnit r n
  if r == 0 then s
  else (mapGet s.roleEvts key []).foldl (fun s e => raiseTel s n e) { s with roleEvts := mapErase s.roleEvts key }

/-- The events of a teller's old role reach another holder of it, where one stands already (R233). -/
def passEvents (s : State) (role n : Nat) : State :=
  match holderOf s role (roleUnit role n) with
  | some k => unshelveEvents s k
  | none => s

/-- Teller n gives up its role and holds r. Messages purged at the new epoch are reported with the role then held (R237). -/
def takeRole (s : State) (n r : Nat) : State :=
  let r0 := telRole s n
  unshelveEvents (passEvents (epochStep (wr (shelveEvents s n) (telB n) R.TIL_TEL_STAT_ROLE r) n) r0 n) n

/-- An assignment for a teller waits its turn (R234). -/
def queueAssign (s : State) (n r : Nat) (job : Option Nat) : State :=
  updTel s n fun x => { x with assign := x.assign ++ [(r, job)] }

/-- A teller still owes ASSIGN_ROLE job j its ROLE routine. -/
def owesRole (s : State) (j : Nat) : Bool :=
  s.tellers.any fun e => e.2.roleJobs.contains j || e.2.assign.any fun a => a.2 == some j

/-- Units of calibration left to do are coded item * 1024 + unit. -/
def unitCode (item unit : Nat) : Nat := item * 1024 + unit

/-- The items and units of a calibration (R368, R371). -/
def calUnits (s : State) (items tiles sectors : Nat) : List Nat :=
  (maskBits 10 items).flatMap fun i =>
    if 1 ≤ i ∧ i ≤ 5 then (maskBits 48 tiles).flatMap fun t =>
      ((List.range 18).filter fun p => !isRetired s t p).map fun p => unitCode i (t * 18 + p)
    else if i = 9 then [unitCode 9 0]
    else (maskBits 4 sectors).map fun q => unitCode i q

/-- Start-up is over; where HBM training has failed, `READY` is never set (R460). -/
def setReady (s : State) : State := if memState s == 6 then s else setF s glb R.GLB_ST_STAT_READY

/-- The digitizer PLLs of the named sectors start (R395). -/
def digPllStart (s : State) (l : List Nat) : State := l.foldl (fun s q => updDig s q fun d => { d with pllOn := true }) s

/-- The role condition of R458: a SERVO in every tile and an ACQUIRER in every sector. -/
def rolesMet (s : State) : Bool :=
  (allTiles.all fun t => (tellersOfTile t).any fun n => telRole s n == 3) &&
    (List.range 4).all fun q => (tellersOfSector q).any fun n => telRole s n == 4

/-- R458: the first ASSIGN_ROLE that leaves the role condition met starts the start-up calibration, or, with AUTOCAL = 0, is
marked so that its completion sets `READY`. An ASSIGN_ROLE's tally holds, at 0 to 3, what a calibration counts; at 4 its own
result; at 5 the mark. -/
def startupCal (s : State) (j : Nat) : State :=
  if flag s glb R.GLB_ST_STAT_ROLES || !rolesMet s || allTellers.any (fun n => (getTel s n).assign.any fun a => a.2 == some j) then s
  else
    let s1 := setF s glb R.GLB_ST_STAT_ROLES
    match getJob? s j with
    | none => s1
    | some x =>
      if flag s glb R.GLB_ST_CFG_AUTOCAL then
        let s2 := putJob s1 j { x with units := calUnits s 0x1FF (2 ^ 48 - 1) 0xF }
        updBoot (digPllStart (setF s2 glb R.GLB_CAL_STAT_RUN) [0, 1, 2, 3]) fun b => { b with startCal := some j }
      else putJob s1 j { x with tally := listSet x.tally 5 1 }

/-- R233: an ASSIGN_ROLE completes when every named teller has ended its ROLE routine, and the start-up calibration that it
started, if any, has ended (R458). -/
def assignDone (s : State) (j : Nat) : State :=
  match getJob? s j with
  | none => s
  | some x =>
    if owesRole s j || x.phase != .running || s.boot.startCal == some j then s
    else
      let s1 := if x.tally.getD 5 0 == 1 then setReady s else s
      endJob s1 j 0 (x.tally.getD 4 0) 0 0

/-- The ROLE routine of a teller has ended, or will never run. -/
def roleEnded (s : State) (n : Nat) : State :=
  (getTel s n).roleJobs.foldl assignDone (updTel s n fun x => { x with roleJobs := [] })

/-- ROLE_ASSIGNMENT_APPLY (R224, R225, R234): at most one assignment to a teller per 1 µs, and not between COMMIT and END. -/
def execRoleAssignmentApply (n : TellerIx) (s : State) : Host.Outcome State Fault Refusal :=
  let x := getTel s n
  match x.assign with
  | [] => .next s
  | (r, job) :: rest =>
    if telState s n == 3 && flag s (telB n) R.TIL_TEL_STAT_POSTC then .next s
    else
      let t := match x.lastAssign with
        | some a => max s.now (a + usec 1)
        | none => s.now
      let s0 := if telState s n == 3 then telAbandon s n else s
      let s1 := updTel { s0 with now := t } n fun y => { y with assign := rest, lastAssign := some t }
      let s2 := takeRole s1 n r
      let s3 := match job with
        | some j => startupCal (updTel s2 n fun y => { y with roleJobs := y.roleJobs ++ [j] }) j
        | none => s2
      if (entryOf x r 0).isSome && telState s3 n == 2 then .next (raiseTel s3 n 0)
      else .next (roleEnded (incF s3 (telB n) R.TIL_TEL_NOENT_NOENT) n)

/-- The first teller of a list that will hold a role and can serve: loaded, WAITING or RUNNING. -/
def firstWith (s : State) (l : List Nat) (role : Nat) : Option Nat :=
  l.find? fun n => willHold s n == role && (telState s n == 2 || telState s n == 3)

/-- Record a move in the fault history (R385, R407): the teller now holding, or the halted one. -/
def moveNoted (s : State) (n role : Nat) : State := signal s 0x0E n role

/-- R384: ACQUIRER or COURIER of a sector moves. -/
def moveSector (s : State) (role q from_ : Nat) : State :=
  let l := tellersOfSector q
  match firstWith s l 0 with
  | some n => moveNoted (queueAssign s n role none) n role
  | none => match (if role == 4 then firstWith s l 6 else none) with
    | some n => moveNoted (queueAssign s n role none) n role
    | none => moveNoted s from_ role

/-- The lowest role code of a tile that no teller will hold. -/
def lacking (s : State) (t : Nat) : List Nat := [1, 2, 3].filter fun r => !roleHeld s r t

/-- R384: a tile-bound role moves; with two roles left without a holder, SEQUENCER is kept before COMPARER and COMPARER
before SERVO. -/
def moveTile (s : State) (role t from_ : Nat) : State :=
  let l := tellersOfTile t
  match firstWith s l 0 with
  | some n => moveNoted (queueAssign s n role none) n role
  | none => match firstWith s l 6 with
    | some n => moveNoted (queueAssign s n role none) n role
    | none => match firstWith s l 4 with
      | some n => moveSector (moveNoted (queueAssign s n role none) n role) 4 (t / 12) from_
      | none =>
        let s1 := moveNoted s from_ role
        match lacking s1 t with
        | a :: _ :: _ => match [3, 2].findSome? fun r => if a < r then firstWith s1 l r else none with
          | some n => moveNoted (queueAssign s1 n a none) n a
          | none => s1
        | _ => s1

/-- R384: the role a teller has lost moves. -/
def moveRole (s : State) (role n : Nat) : State :=
  match role with
  | 1 | 2 | 3 => moveTile s role (n / 4) n
  | 4 => moveSector s 4 (n / 48) n
  | 6 => if (tellersOfSector (n / 48)).any fun k => k != n && willHold s k == 6 then passEvents s 6 n else moveSector s 6 (n / 48) n
  | _ => s

/-! ### Halts and reload (R226 to R228, R385) -/

/-- Count the tellers whose store came from each image slot. -/
def showUsers (s : State) : State :=
  (List.range 8).foldl (fun s j => wri s glb R.GLB_IMGSTAT_USERS j
    (allTellers.filter fun n => telState s n != 0 && rd s (telB n) R.TIL_TEL_STAT_SLOT == j).length) s

/-- A teller is RETIRED: it takes no role until a LOAD_IMAGE names it. -/
def telRetire (s : State) (n : Nat) : State := wr s (telB n) R.TIL_TEL_STAT_STATE 6

/-- R227: a teller halts with a cause; a routine before COMMIT is abandoned (R224). -/
def telHalt (s : State) (n cause : Nat) : State :=
  let b := telB n
  let x := getTel s n
  let role := telRole s n
  let keep := { dropRoutine x with g := [], scratch := [], outbox := [], sm := 0, cs := 0, timer := none, assign := []
                                   halts := (x.halts.filter fun t => decide (s.now < t + usec 1000000)) ++ [s.now] }
  let s0 := { putTel s n keep with items := (if flag s b R.TIL_TEL_STAT_POSTC then [] else x.item.toList) ++ s.items }
  let s1 := if beforeCommit s n then incF s0 b R.TIL_TEL_RESTART_RESTART else s0
  let s2 := incF (wr (telLeave s1 n) b R.TIL_TEL_STAT_HCAUSE cause) b R.TIL_TEL_HALTS_HALTS
  let s3 := epochStep (wr (shelveEvents (signal s2 0x0D n cause) n) b R.TIL_TEL_STAT_ROLE 0) n
  let s4 := wr s3 b R.TIL_TEL_STAT_STATE 5
  let s5 := if 3 ≤ keep.halts.length || rdi s glb R.GLB_IMGSTAT_VALID (rd s b R.TIL_TEL_STAT_SLOT) == 0 then telRetire s4 n else s4
  let owed := x.assign.filterMap (·.2)
  let s6 := moveRole (roleEnded s5 n) role n
  showTelQ (owed.foldl assignDone s6) n

/-- WATCHDOG_EXPIRY (R226): WDOG µs have passed since entry without END. -/
def execWatchdogExpiry (n : TellerIx) (s : State) : Host.Outcome State Fault Refusal :=
  .next (if telState s n == 3 then
    telHalt { s with now := max s.now ((getTel s n).since + usec (rd s (telB n) R.TIL_TEL_CFG_WDOG)) } n 1
  else s)

/-- COMMIT_OVERRUN (R225). -/
def execCommitOverrun (n : TellerIx) (s : State) : Host.Outcome State Fault Refusal :=
  .next (if telState s n == 3 && flag s (telB n) R.TIL_TEL_STAT_POSTC then
    telHalt { s with now := max s.now ((getTel s n).commitAt + nsec 64) } n 4
  else s)

/-! ### Images (R229 to R231) -/

/-- Little-endian fields of an image. -/
def imgLe (l : List Nat) (off n : Nat) : Nat := leNat ((l.drop off).take n)
def imgWords (l : List Nat) : Nat := bits (imgLe l 0 8) 32 12 + 1
def imgCs (l : List Nat) : Nat := imgLe l 8 4
def imgEntry (l : List Nat) : Nat := imgLe l 12 4
def imgScratch (l : List Nat) : Nat := imgLe l 16 4
def imgScrLen (l : List Nat) : Nat := bits (imgLe l 16 8) 32 17
def imgTotal (l : List Nat) : Nat := imgLe l 24 4
def imgKey (l : List Nat) : Nat := bits (imgLe l 24 8) 32 2
def imgRoles (l : List Nat) : Nat := bits (imgLe l 0 8) 24 7

def imgWord (l : List Nat) (w : Nat) : Nat := imgLe l (imgCs l + 18 * w) 18
def imgStore (l : List Nat) : List Nat := (List.range (imgWords l)).map (imgWord l)
def imgEntries (l : List Nat) : List Nat := (List.range 112).map fun i => imgLe l (imgEntry l + 2 * i) 2
def imgScratchWords (l : List Nat) : Map Nat :=
  (List.range ((imgScrLen l + 7) / 8)).map fun i => (i, imgLe (((l.drop (imgScratch l)).take (imgScrLen l))) (8 * i) 8)

def allZero (l : List Nat) : Bool := l.all (· == 0)

/-- Two byte ranges share no byte. -/
def apart (a n b m : Nat) : Bool := decide (a + n ≤ b) || decide (b + m ≤ a) || n == 0 || m == 0

/-- R230: the header is right: MAGIC, VERSION, reserved fields, section bounds. -/
def imgHeaderOk (l : List Nat) : Bool :=
  let bounds := fun (o n : Nat) => o % 16 == 0 && decide (320 ≤ o) && decide (o + n ≤ imgTotal l)
  let n := 18 * imgWords l
  bits (imgLe l 0 8) 0 16 == 0x5C73 && bits (imgLe l 0 8) 16 8 == 1 && bits (imgLe l 0 8) 31 1 == 0 && bits (imgLe l 0 8) 44 20 == 0 &&
  bits (imgLe l 16 8) 49 15 == 0 && bits (imgLe l 24 8) 34 30 == 0 && allZero ((l.drop 40).take 24) && allZero ((l.drop 161).take 15) &&
  allZero ((l.drop 272).take 48) && decide (imgScrLen l ≤ 57344) &&
  bounds (imgCs l) n && bounds (imgEntry l) 224 && bounds (imgScratch l) (imgScrLen l) &&
  apart (imgCs l) n (imgEntry l) 224 && apart (imgCs l) n (imgScratch l) (imgScrLen l) && apart (imgEntry l) 224 (imgScratch l) (imgScrLen l)

/-- The hash in a key slot (R229). -/
def keyHashOf (s : State) (i : Nat) : List Nat := mapGet s.keyHash i (Config.keyHash i)

/-- The image's key slot is programmed, not revoked, and holds the hash of PUBKEY. -/
def imgKeyOk (s : State) (l : List Nat) : Bool :=
  let i := imgKey l
  bit (rd s glb R.GLB_KEYSTAT_PROG) i && !bit (rd s glb R.GLB_KEYSTAT_REVOKED) i &&
    (leBytes 48 (Config.sha384 ((l.drop 64).take 97))).reverse == keyHashOf s i

/-- The signature verifies over bytes 0 to TOTAL - 1 with bytes 176 to 271 taken as 0. -/
def imgSigOk (l : List Nat) : Bool :=
  Config.verifyEcdsa ((l.drop 64).take 97) (Config.sha384 (l.take 176 ++ List.replicate 96 0 ++ l.drop 272)) ((l.drop 176).take 96)

/-! ### The codes of a microword (R211 to R216) -/

def mwSeq (w : Nat) : Nat := bits w 136 8
def mwNext (w : Nat) : Nat := bits w 124 12
def mwCond (w : Nat) : Nat := bits w 120 4
def mwCommit (w : Nat) : Bool := bit w 119
def mwAlu (w : Nat) : Nat := bits w 113 6
def mwASel (w : Nat) : Nat := bits w 108 5
def mwBSel (w : Nat) : Nat := bits w 103 5
def mwDst (w : Nat) : Nat := bits w 98 5
def mwWidth (w : Nat) : Nat := 64 / 2 ^ bits w 96 2
def mwImm (w : Nat) : Nat := unsigned 64 (signed 32 (bits w 64 32))
def mwVec (w : Nat) : Nat := bits w 56 8
def mwFail (w : Nat) : Nat := bits w 48 8
def mwMem (w : Nat) : Nat := bits w 40 8
def mwMsg (w : Nat) : Nat := bits w 32 8
def mwWait (w : Nat) : Nat := bits w 24 8
def mwFret (w : Nat) : Nat := bits w 16 8
def mwSite (w : Nat) : Nat := bits w 8 8

/-- A port field: op up to `top`, bit 3 clear. -/
def portOk (f top : Nat) : Bool := decide (f / 16 ≤ top) && !bit f 3

/-- The microword holds no reserved code and no reserved bit. TRAP is no reserved code. -/
def mwCodesOk (w : Nat) : Bool :=
  w % 256 == 0 && decide (mwSeq w ≤ 8) && decide (mwAlu w ≤ 0x16) && !((mwSeq w == 2 || mwSeq w == 3) && decide (13 ≤ mwCond w)) &&
  portOk (mwVec w) 5 && portOk (mwFail w) 3 && portOk (mwMem w) 8 && portOk (mwMsg w) 5 &&
  !(mwMsg w / 16 == 2 && mwMsg w % 4 != 0) && !(mwMsg w / 16 == 4 && mwMsg w % 2 != 0) &&
  (decide (mwWait w ≤ 0x83) || mwWait w == 0xC0) && bits (mwFret w) 4 3 == 0 && decide (mwSite w ≤ 5)

/-- R231, last check: every word up to NWORDS, and every valid entry below NWORDS. -/
def imgMicroOk (l : List Nat) : Bool :=
  (imgStore l).all mwCodesOk &&
  (imgEntries l).all fun e => bits e 12 3 == 0 && (!bit e 15 || decide (bits e 0 12 < imgWords l))

/-- A teller takes an image: control store, entry table, roles served, scratch (R228, R230). A routine lent to an analysis item
ends with it; before COMMIT the item returns to the queue's head (R221). -/
def telLoad (s : State) (n slot : Nat) (l : List Nat) : State :=
  let item := if beforeCommit s n then (getTel s n).item.toList else []
  let s1 := updTel { s with items := item ++ s.items } n fun x =>
    { dropRoutine x with store := imgStore l, entries := imgEntries l, roles := imgRoles l, scratch := imgScratchWords l, pend := [] }
  wr (wr (telLeave s1 n) (telB n) R.TIL_TEL_STAT_SLOT slot) (telB n) R.TIL_TEL_STAT_STATE 2

/-- The device-memory offset of a sector's copy of image slot j, and of a sector's holding area (R315). -/
def slotAt (q j : Nat) : Nat := carveB q + j * 0x40000
def holdingAt (q : Nat) : Nat := carveB q + 0x200000

/-- The lowest sector whose home channels are all in service. -/
def holdingSector (s : State) : Nat :=
  ((List.range 4).find? fun q => bits (rd s glb R.MEM_CHSTAT_FAIL) (4 * q) 4 == 0).getD 0

/-- R231: the check that fails first; a staged image too short to hold TOTAL differs from it. -/
def loadCheck (s : State) (j tellers len : Nat) (l : List Nat) : Option Nat :=
  let named := maskBits 192 tellers
  if tellers == 0 || decide (262144 < len) || decide (len < 28) || imgTotal l != len then some 0x0140
  else if named.any (fun n => telRole s n != 0 || telState s n == 1 || telState s n == 5) ||
      allTellers.any (fun n => telState s n != 0 && rd s (telB n) R.TIL_TEL_STAT_SLOT == j && !named.contains n) then some 0x0340
  else if !imgHeaderOk l then some 0x0141
  else if !imgKeyOk s l then some 0x0740
  else if !imgSigOk l then some 0x0741
  else if !imgMicroOk l then some 0x0141
  else none

/-- A checked image replaces its slot and loads every named teller. -/
def loadImage (s : State) (j slot tellers : Nat) (l : List Nat) : State :=
  let named := maskBits 192 tellers
  let s1 := (List.range 4).foldl (fun s q => memAskWrite (devStore s (slotAt q slot) l) 4 5 j (slotAt q slot) l.length) s
  let s2 := wri (wri (wri s1 glb R.GLB_IMGSTAT_VALID slot 1) glb R.GLB_IMGSTAT_KEY slot (imgKey l)) glb R.GLB_IMGSTAT_BUILD slot (imgLe l 32 2)
  let s3 := named.foldl (fun s n => telLoad s n slot l) s2
  endJob (showUsers s3) j 0 named.length 0 slot

/-- LOAD_IMAGE (R231). -/
def execLoadImage (j : Nat) (s : State) : Host.Outcome State Fault Refusal :=
  match jobReady s j 0x01 with
  | none => .next s
  | some x =>
    let len := bits (arg x 1) 0 32
    let slot := bits (arg x 1) 32 3
    let tellers := arg x 2 + arg x 3 * 2 ^ 64 + arg x 4 * 2 ^ 128
    if tellers == 0 || decide (262144 < len) then .next (endJob s j 0x0140 0 0 0)
    else .next (needBytes s j (arg x 0) len fun l =>
      let s1 := devStore s (holdingAt (holdingSector s)) l
      match loadCheck s slot tellers len l with
      | some st => endJob s1 j st 0 0 0
      | none => loadImage s1 j slot tellers l)

/-- R228: the copy of a slot read for a reload: the own sector's, or the next whose lines are all readable. -/
def reloadCopy (s : State) (q j : Nat) : Option (List Nat) :=
  ((List.range 4).map fun i => (q + i) % 4).findSome? fun k =>
    let a := slotAt k j
    let n := imgTotal (devBytes s a 28)
    if n ≤ 262144 && !(List.range ((n + 63) / 64 + 1)).any fun i => badAt s (a + 64 * i) then some (devBytes s a n) else none

/-- R385: the role a teller returning from reload takes. -/
def returningRole (s : State) (n : Nat) : Nat :=
  match (lacking s (n / 4)).head? with
  | some r => r
  | none => if !roleHeld s 4 (n / 48) then 4 else if !roleHeld s 6 (n / 48) then 6 else 0

/-- RELOAD_DONE (R228, R385). From a slot that another teller's failed check has closed no reload is taken. -/
def execReloadDone (n : TellerIx) (s : State) : Host.Outcome State Fault Refusal :=
  if telState s n != 5 then .next s
  else
    let slot := rd s (telB n) R.TIL_TEL_STAT_SLOT
    let ok := match (if rdi s glb R.GLB_IMGSTAT_VALID slot == 0 then none else reloadCopy s (n.val / 48) slot) with
      | some l => if imgHeaderOk l && imgKeyOk s l && imgSigOk l then some l else none
      | none => none
    match ok with
    | none => .next (telRetire (wri s glb R.GLB_IMGSTAT_VALID slot 0) n)
    | some l =>
      let s1 := telLoad s n slot l
      let r := returningRole s1 n
      .next (if r == 0 then s1 else moveNoted (queueAssign s1 n r none) n r)

/-! ### ASSIGN_ROLE (R232, R233) -/

/-- The role of a teller under the DEFAULT flag (R232). -/
def defaultRole (n : Nat) : Nat :=
  match n % 4 with
  | 0 => 1
  | 1 => 2
  | 2 => 3
  | _ => if n / 4 % 12 == 0 then 4 else 6

/-- The map after the job: teller and role in order, later pairs on top. -/
def mapAfter (s : State) (pairs : List (Nat × Nat)) (n : Nat) : Nat :=
  match (pairs.filter fun p => p.1 == n).getLast? with
  | some p => p.2
  | none => willHold s n

/-- The map keeps R21 and the one-holder rule. -/
def mapOk (m : Nat → Nat) : Bool :=
  allTiles.all (fun t => [1, 2, 3].all fun r => decide (((tellersOfTile t).filter fun n => m n == r).length ≤ 1)) &&
  (List.range 4).all fun q => decide (((tellersOfSector q).filter fun n => m n == 4).length ≤ 1)

/-- The job moves a tile-bound role of a live tile, or ACQUIRER of a sector whose digitizer is not STOPPED. -/
def mapBusy (s : State) (m : Nat → Nat) : Bool :=
  allTellers.any fun n =>
    let a := willHold s n
    let b := m n
    a != b && ((([1, 2, 3].contains a || [1, 2, 3].contains b) && tileLive s (n / 4)) ||
      ((a == 4 || b == 4) && digState s (n / 48) != 0))

/-- R233: the check that fails first. -/
def assignCheck (s : State) (dflt : Bool) (list : List (Nat × Nat)) (pairs : List (Nat × Nat)) : Option Nat :=
  if list.any (fun p => decide (191 < p.1) || p.2 == 7) || (list == [] && !dflt) then some 0x0140
  else
    let bad := pairs.any fun p =>
      !(telState s p.1 == 2 || telState s p.1 == 3) || (p.2 != 0 && !bit (getTel s p.1).roles p.2)
    if bad || !mapOk (mapAfter s pairs) then some 0x0142
    else if mapBusy s (mapAfter s pairs) then some 0x0340
    else none

/-- The named tellers with the role each gets. -/
def lastPairs (pairs : List (Nat × Nat)) : List (Nat × Nat) :=
  allTellers.filterMap fun n => (pairs.filter fun p => p.1 == n).getLast?

/-- ASSIGN_ROLE. -/
def execAssignRole (j : Nat) (s : State) : Host.Outcome State Fault Refusal :=
  match jobNew s j 0x02 with
  | none => .next s
  | some x =>
    let dflt := bit x.flags 0
    let count := bits (arg x 1) 0 8
    if 192 < count then .next (endJob s j 0x0140 0 0 0)
    else .next (needBytes s j (arg x 0) (2 * count) fun l =>
      let word := fun (i : Nat) => l.getD (2 * i) 0 + 256 * l.getD (2 * i + 1) 0
      let list := (List.range count).map fun i => (bits (word i) 0 8, bits (word i) 8 3)
      let pairs := (if dflt then allTellers.map fun n => (n, defaultRole n) else []) ++ list
      if (List.range count).any fun i => bits (word i) 11 5 != 0 then endJob s j 0x0140 0 0 0
      else match assignCheck s dflt list pairs with
        | some st => endJob s j st 0 0 0
        | none =>
          let named := lastPairs pairs
          let s1 := named.foldl (fun s p => queueAssign s p.1 p.2 (some j)) (setWork s j [] [0, 0, 0, 0, named.length, 0] [])
          assignDone s1 j)

end Sys2Proof.Machine
end

