-- ==== Sys2Proof/Machine/Microcode.lean ====
section
/-! DEFINITION. Teller microcode: the dispatcher, COMMIT, and the ops of a microword (R210 to R226,
spec/08_tellers_and_microcode.md). Each command carries out one part of the microword at a teller's PC; the sequencing op
ends the microword. MEM_LDR and MEM_STR stand in Machine/RegAccess.lean. -/
namespace Sys2Proof.Machine

/-! ### Registers and the microword in progress -/

/-- A register by its select code (R210): G0 to G23, then T0 to T7. -/
def telReg (x : Teller) (sel : Nat) : Nat := if sel < 24 then mapGet x.g sel 0 else mapGet x.t (sel - 24) 0

def putReg (x : Teller) (sel v : Nat) : Teller :=
  if sel < 24 then { x with g := mapPut x.g sel (v % 2 ^ 64) } else { x with t := mapPut x.t (sel - 24) (v % 2 ^ 64) }

def telPc (s : State) (n : Nat) : Nat := rd s (telB n) R.TIL_TEL_PC_PC

/-- The microword at the PC; words that an image does not fill are 0 (TRAP). -/
def telWord (s : State) (n : Nat) : Nat := (getTel s n).store.getD (telPc s n) 0

/-- A T register has a load outstanding. -/
def loading (x : Teller) (sel : Nat) : Bool := decide (24 ≤ sel) && x.loads.any fun l => l.t + 24 == sel

/-- The timer reads 0. -/
def timerZero (s : State) (x : Teller) : Bool := x.timer.all fun t => decide (t ≤ s.now)

/-- Port conditions of R213: bit 8 inbox not empty, 9 report, 10 timer 0, 11 no load outstanding, 12 a send slot free. -/
def portConds (s : State) (x : Teller) : Nat :=
  b2n (x.inbox != []) * 2 ^ 8 + b2n (x.reports != []) * 2 ^ 9 + b2n (timerZero s x) * 2 ^ 10 + b2n (x.loads == []) * 2 ^ 11 +
    b2n (decide (x.slots.length < 4)) * 2 ^ 12

/-- The hold of the last microword's WAIT is over (R216). -/
def holdOver (s : State) (x : Teller) : Bool :=
  match x.hold with
  | .none => true
  | .until_ t => decide (t ≤ s.now)
  | .cond 0 => x.loads == []
  | .cond 1 => x.inbox != []
  | .cond 2 => x.reports != []
  | .cond _ => timerZero s x

/-! ### Legality (R218, R222) -/

/-- The T registers that a microword writes. -/
def tWriters (w : Nat) : List Nat :=
  (if mwAlu w != 0 && mwAlu w != 3 && mwAlu w != 0x16 && decide (24 ≤ mwDst w) then [mwDst w - 24] else []) ++
  (if mwVec w / 16 == 2 then [mwVec w % 8] else []) ++
  (if mwFail w / 16 == 1 || mwFail w / 16 == 2 then [mwFail w % 8] else []) ++
  (if [1, 3, 7].contains (mwMem w / 16) then [mwMem w % 8] else []) ++
  (match mwMsg w / 16 with
   | 2 => (List.range 4).map (· + mwMsg w % 8)
   | 4 => [mwMsg w % 8, mwMsg w % 8 + 1]
   | _ => [])

def hasRepeat : List Nat → Bool
  | [] => false
  | a :: rest => rest.contains a || hasRepeat rest

/-- EA = A + I (R215). -/
def effAddr (w a : Nat) : Nat := (a + mwImm w) % 2 ^ 64

/-- The offset in the local register space that LDR and STR address: the FRET field shifts it to a fret (R216). -/
def localAddr (w a : Nat) : Nat := if bit (mwFret w) 7 then 0x8000 + bits (mwFret w) 0 4 * 0x40 + effAddr w a else effAddr w a

/-- A port or a scratch address is misaligned. -/
def misaligned (w a b : Nat) : Bool :=
  ((mwMem w / 16 == 1 || mwMem w / 16 == 2) && effAddr w a % 8 != 0) || ((mwMem w / 16 == 5 || mwMem w / 16 == 6) && b % 64 != 0) ||
    (mwMsg w / 16 == 1 && effAddr w a % 8 != 0)

/-- ILLEGAL of R218, but for the next address, which the sequencing op judges. -/
def mwIllegal (x : Teller) (postc : Bool) (w a b : Nat) : Bool :=
  mwSeq w == 0 || !mwCodesOk w || (mwCommit w && postc) || hasRepeat (tWriters w) ||
    (mwSite w == 4 && mwAlu w != 0 && mwAlu w != 0x16) || misaligned w a b ||
    (mwSeq w == 4 && decide (8 ≤ x.stack.length)) || (mwSeq w == 5 && x.stack == [])

/-- Bytes of device memory (R312, R313). -/
def devSize : Nat := 4 * homeSize

/-- A range meets the image slots of a carve-out (R315). -/
def inSlots (a n : Nat) : Bool := (List.range 4).any fun q => decide (a < carveB q + 0x200000) && decide (carveB q < a + n)

/-- PROT of R218: an op the role lacks, an address outside the port's reach, a store into the image slots. -/
def mwProt (role w a b : Nat) : Bool :=
  let m := mwMem w / 16
  let ea := effAddr w a
  let n := if m == 5 || m == 6 then 64 else 8
  (mwVec w / 16 != 0 && role != 1) || (mwFail w / 16 != 0 && role != 2) ||
  ((m == 7 || m == 8) && (if 1 ≤ role && decide (role ≤ 3) then decide (0x20000 ≤ localAddr w a)
    else if role == 4 then bit (mwFret w) 7 || decide (0x100000 ≤ localAddr w a) else true)) ||
  ((m == 3 || m == 4 || m == 5 || m == 6) && decide (devSize < ea + n)) ||
  ((m == 4 || m == 6) && inSlots ea n) ||
  (m == 5 && decide (bits b 0 16 < 0xE000))

/-- The microword issues an architectural op (R215, R216): one that is not allowed before COMMIT (R222). -/
def mwArch (w a : Nat) : Bool :=
  let v := mwVec w / 16
  let m := mwMem w / 16
  let g := mwMsg w / 16
  v == 1 || v == 3 || v == 4 || v == 5 || m == 4 || m == 6 || m == 8 || (m == 2 && decide (effAddr w a % 2 ^ 16 < 0xE000)) ||
  g == 1 || g == 3 || g == 5 || mwWait w == 0xC0 || mwSite w == 1 || mwSite w == 2 || mwSite w == 3 || mwSite w == 5 ||
  (mwAlu w != 0 && mwAlu w != 3 && mwAlu w != 0x16 && decide (mwDst w < 24))

/-- The halt cause of a microword: 2 ILLEGAL, 5 PROT, 3 EARLY. -/
def mwFault (s : State) (n w a b : Nat) : Option Nat :=
  let x := getTel s n
  let postc := flag s (telB n) R.TIL_TEL_STAT_POSTC
  if mwIllegal x (postc && !x.done.contains 0) w a b then some 2
  else if mwProt (telRole s n) w a b then some 5
  else if mwArch w a && !postc && !mwCommit w then some 3
  else none

/-! ### Issue (R217, R223) -/

/-- Tellers run: in READY or RUN, and not SEALED (R391, R416). -/
def tellersRun (s : State) : Bool := powerReady s && !sealed s

/-- The microword of a running teller begins: A and B are read, unless a T register's load is outstanding. -/
def mwBegin (s : State) (n : Nat) : Option State :=
  let x := getTel s n
  let w := telWord s n
  match x.mw with
  | some _ => some s
  | none =>
    if !holdOver s x || loading x (mwASel w) || loading x (mwBSel w) then none
    else some (putTel s n { x with mw := some (telReg x (mwASel w), telReg x (mwBSel w), portConds s x), hold := .none, done := [] })

def mwA (s : State) (n : Nat) : Nat := ((getTel s n).mw.map (·.1)).getD 0
def mwB (s : State) (n : Nat) : Nat := ((getTel s n).mw.map (·.2.1)).getD 0
def mwConds (s : State) (n : Nat) : Nat := ((getTel s n).mw.map (·.2.2)).getD 0

/-- A part of the microword is done: 0 COMMIT, 1 ALU, 2 VEC, 3 FAIL, 4 MEM, 5 MSG, 6 WAIT, 7 SITE. -/
def partDone (s : State) (n part : Nat) : State := updTel s n fun x => { x with done := part :: x.done }

/-- Carry out one part of the microword at teller n's PC, where the microword has it (`has`), it is not done yet, and
nothing holds or stalls the microword. An illegal microword halts the teller. A COMMIT microword's parts follow COMMIT. -/
def micro (s : State) (n part : Nat) (has : Nat → Bool) (k : State → State) : State :=
  if !tellersRun s || telState s n != 3 || !has (telWord s n) || (getTel s n).done.contains part then s
  else match mwBegin s n with
    | none => s
    | some s1 =>
      match mwFault s1 n (telWord s n) (mwA s1 n) (mwB s1 n) with
      | some cause => telHalt s1 n cause
      | none => if mwCommit (telWord s n) && part != 0 && !(getTel s1 n).done.contains 0 then s else k (partDone s1 n part)

/-- The running routine's event is consumed (R220). -/
def consumeEvent (s : State) (n : Nat) : State :=
  let e := rd s (telB n) R.TIL_TEL_STAT_EVENT
  updTel s n fun x => { x with pend := x.pend.filter (· != e), used := true, item := none }

/-- A teller's posted stores that device memory has not taken yet. -/
def postedStores (s : State) (n : Nat) : Nat :=
  (s.hbm.reqs.filter fun r => (r.kind == 3 || r.kind == 4) && r.who == n && r.wr).length

/-- COMMIT (R223): no load outstanding, the outbox empty, and room for 16 posted stores in a buffer of 16. -/
def execCommit (n : TellerIx) (s : State) : Host.Outcome State Fault Refusal :=
  let x := getTel s n
  if telState s n == 3 && mwCommit (telWord s n) && (x.loads != [] || x.outbox != [] || postedStores s n != 0) then .next s
  else .next (micro s n 0 mwCommit fun s =>
    updTel (consumeEvent (setF s (telB n) R.TIL_TEL_STAT_POSTC) n) n fun x => { x with commitAt := s.now })

/-! ### The dispatcher (R219 to R221) -/

/-- Events pending for a teller under its held role, lowest number first. -/
def pendingEvents (s : State) (n : Nat) : List Nat :=
  let x := getTel s n
  let on := fun (e : Nat) => match e with
    | 8 => x.inbox != []
    | 9 => x.reports != []
    | 2 => x.pend.contains 2 || (telRole s n == 5 && s.items != [])
    | _ => x.pend.contains e
  (List.range 11).filter fun e => on e && (entryOf x (telRole s n) e).isSome

/-- Enter a routine: routine-local state is 0 (R210). -/
def enterRoutine (s : State) (n e entry : Nat) (lent : Bool) : State :=
  let b := telB n
  let item := if e == 2 && (lent || telRole s n == 5) then s.items.head? else none
  let x := { dropRoutine (getTel s n) with since := s.now, item := item }
  let s1 := { putTel s n x with items := if item.isSome then s.items.drop 1 else s.items }
  let s2 := wr (wr (wr (wr s1 b R.TIL_TEL_STAT_STATE 3) b R.TIL_TEL_PC_PC entry) b R.TIL_TEL_STAT_ENTRY entry) b R.TIL_TEL_STAT_EVENT e
  wr (clrF s2 b R.TIL_TEL_STAT_POSTC) b R.TIL_TEL_STAT_LENT (b2n lent)

/-- ROUTINE_DISPATCH: with no event of the held role pending, a teller may lend itself to an analysis item. -/
def execRoutineDispatch (n : TellerIx) (s : State) : Host.Outcome State Fault Refusal :=
  let x := getTel s n
  if !tellersRun s || telState s n != 2 then .next s
  else match pendingEvents s n with
    | e :: _ => .next (enterRoutine s n e ((entryOf x (telRole s n) e).getD 0) false)
    | [] =>
      match entryOf x 5 2 with
      | some entry =>
        .next (if flag s (telB n) R.TIL_TEL_CFG_LEND && telRole s n != 5 && bit x.roles 5 && s.items != [] then enterRoutine s n 2 entry true else s)
      | none => .next s

/-! ### Sequencing ops (R212, R213, R225) -/

/-- A condition of R213. -/
def condHolds (s : State) (n c : Nat) : Bool :=
  let x := getTel s n
  match c with
  | 0 => true
  | 1 => x.z
  | 2 => !x.z
  | 3 => x.n
  | 4 => x.c
  | 5 => !x.c
  | 6 => x.v
  | 7 => x.lc == 0
  | c => bit (mwConds s n) c

/-- The parts a microword has, but for its sequencing op. -/
def mwParts (w : Nat) : List Nat :=
  (if mwCommit w then [0] else []) ++ (if mwAlu w != 0 then [1] else []) ++ (if mwVec w / 16 != 0 then [2] else []) ++
  (if mwFail w / 16 != 0 then [3] else []) ++ (if mwMem w / 16 != 0 then [4] else []) ++ (if mwMsg w / 16 != 0 then [5] else []) ++
  (if mwWait w != 0 then [6] else []) ++ (if mwSite w != 0 then [7] else [])

/-- The microword ends and the next address is `a`; one above 4,095 is illegal. -/
def seqTo (s : State) (n a : Nat) : State :=
  if 4095 < a then telHalt s n 2
  else updTel (wr s (telB n) R.TIL_TEL_PC_PC a) n fun x => { x with mw := none, done := [] }

/-- A sequencing op: the last part of its microword. -/
def seqOp (s : State) (n op : Nat) (k : State → State) : State :=
  micro s n 8 (fun w => mwSeq w == op) fun s1 =>
    if (mwParts (telWord s n)).all ((getTel s1 n).done.contains ·) then k s1 else s

/-- SEQ_TRAP: the microword at the PC is illegal, by TRAP or by any case of R218. -/
def execSeqTrap (n : TellerIx) (s : State) : Host.Outcome State Fault Refusal :=
  .next (micro s n 8 (fun w => mwSeq w == 0 || decide (8 < mwSeq w)) fun s => s)

def execSeqGoto (n : TellerIx) (s : State) : Host.Outcome State Fault Refusal :=
  .next (seqOp s n 1 fun s => seqTo s n (mwNext (telWord s n)))

def execSeqBr (n : TellerIx) (s : State) : Host.Outcome State Fault Refusal :=
  .next (seqOp s n 2 fun s => seqTo s n (if condHolds s n (mwCond (telWord s n)) then mwNext (telWord s n) else telPc s n + 1))

def execSeqBrn (n : TellerIx) (s : State) : Host.Outcome State Fault Refusal :=
  .next (seqOp s n 3 fun s => seqTo s n (if condHolds s n (mwCond (telWord s n)) then telPc s n + 1 else mwNext (telWord s n)))

def execSeqCall (n : TellerIx) (s : State) : Host.Outcome State Fault Refusal :=
  .next (seqOp s n 4 fun s => seqTo (updTel s n fun x => { x with stack := (telPc s n + 1) :: x.stack }) n (mwNext (telWord s n)))

def execSeqRet (n : TellerIx) (s : State) : Host.Outcome State Fault Refusal :=
  .next (seqOp s n 5 fun s =>
    let st := (getTel s n).stack
    seqTo (updTel s n fun x => { x with stack := st.drop 1 }) n (st.headD 0))

def execSeqDisp (n : TellerIx) (s : State) : Host.Outcome State Fault Refusal :=
  .next (seqOp s n 6 fun s => seqTo s n (mwNext (telWord s n) + bits (mwA s n) 0 4))

def execSeqLoop (n : TellerIx) (s : State) : Host.Outcome State Fault Refusal :=
  .next (seqOp s n 7 fun s =>
    let lc := ((getTel s n).lc + 2 ^ 32 - 1) % 2 ^ 32
    seqTo (updTel s n fun x => { x with lc := lc }) n (if lc != 0 then mwNext (telWord s n) else telPc s n + 1))

/-- SEQ_END: the routine ends; an event it never committed is consumed, pending B writes take effect (R10, R220). -/
def execSeqEnd (n : TellerIx) (s : State) : Host.Outcome State Fault Refusal :=
  .next (seqOp s n 8 fun s =>
    let b := telB n
    let e := rd s b R.TIL_TEL_STAT_EVENT
    let s1 := if (getTel s n).used then s else consumeEvent s n
    let s2 := updTel s1 n dropRoutine
    let s3 := telLeave (wr s2 b R.TIL_TEL_STAT_STATE 2) n
    if e == 0 then roleEnded s3 n else s3)

/-! ### ALU ops (R214) -/

/-- The flags of an op that sets only Z and N. -/
def flagsZN (x : Teller) (width v : Nat) : Teller := { x with z := v == 0, n := bit v (width - 1), c := false, v := false }

/-- The flags of an addition a + b, both taken to the width. -/
def flagsAdd (x : Teller) (width a b : Nat) : Teller :=
  let a1 := a % 2 ^ width
  let b1 := b % 2 ^ width
  let r := (a1 + b1) % 2 ^ width
  { x with z := r == 0, n := bit r (width - 1), c := decide (2 ^ width ≤ a1 + b1)
           v := bit a1 (width - 1) == bit b1 (width - 1) && bit r (width - 1) != bit a1 (width - 1) }

/-- The flags of a subtraction a - b; what C tells of the borrow is left open. -/
def flagsSub (x : Teller) (width a b : Nat) : Teller :=
  let a1 := a % 2 ^ width
  let b1 := b % 2 ^ width
  let r := (a1 + 2 ^ width - b1) % 2 ^ width
  { x with z := r == 0, n := bit r (width - 1), c := decide (a1 < b1) == Config.subBorrow
           v := bit a1 (width - 1) != bit b1 (width - 1) && bit r (width - 1) != bit a1 (width - 1) }

/-- The ALU part of the microword: `f` of the width, A and B gives the teller with the flags set, and the result if one is
written; the result is truncated to the width. -/
def aluOp (s : State) (n op : Nat) (f : Teller → Nat → Nat → Nat → Nat → Teller × Option Nat) : State :=
  micro s n 1 (fun w => mwAlu w == op) fun s =>
    let w := telWord s n
    let r := f (getTel s n) (mwWidth w) (mwA s n) (mwB s n) (mwImm w)
    putTel s n (match r.2 with
      | some v => putReg r.1 (mwDst w) (v % 2 ^ mwWidth w)
      | none => r.1)

/-- An op that sets Z and N on its truncated result and writes it. -/
def aluZN (s : State) (n op : Nat) (f : Nat → Nat → Nat → Nat) : State :=
  aluOp s n op fun x width a b i => let v := f a b i % 2 ^ width; (flagsZN x width v, some v)

/-- The lesser of two 64-bit numbers as signed. -/
def lessSigned (a b : Nat) : Bool := decide (signed 64 a < signed 64 b)

/-- Set bits, and leading zeros, of 64 bits. -/
def popCount (a : Nat) : Nat := (maskBits 64 a).length
def leadZeros (a : Nat) : Nat := 64 - Nat.log2 (2 * (a % 2 ^ 64) + 1)

def execAluNop (n : TellerIx) (s : State) : Host.Outcome State Fault Refusal :=
  .next (aluOp s n 0x00 fun x _ _ _ _ => (x, none))

def execAluAdd (n : TellerIx) (s : State) : Host.Outcome State Fault Refusal :=
  .next (aluOp s n 0x01 fun x width a b _ => (flagsAdd x width a b, some (a + b)))

def execAluSub (n : TellerIx) (s : State) : Host.Outcome State Fault Refusal :=
  .next (aluOp s n 0x02 fun x width a b _ => (flagsSub x width a b, some (a + 2 ^ 64 - b % 2 ^ 64)))

def execAluCmp (n : TellerIx) (s : State) : Host.Outcome State Fault Refusal :=
  .next (aluOp s n 0x03 fun x width a b _ => (flagsSub x width a b, none))

def execAluAnd (n : TellerIx) (s : State) : Host.Outcome State Fault Refusal := .next (aluZN s n 0x04 fun a b _ => a &&& b)

def execAluOr (n : TellerIx) (s : State) : Host.Outcome State Fault Refusal := .next (aluZN s n 0x05 fun a b _ => a ||| b)

def execAluXor (n : TellerIx) (s : State) : Host.Outcome State Fault Refusal := .next (aluZN s n 0x06 fun a b _ => a ^^^ b)

def execAluShl (n : TellerIx) (s : State) : Host.Outcome State Fault Refusal := .next (aluZN s n 0x07 fun a b _ => a <<< bits b 0 6)

def execAluShr (n : TellerIx) (s : State) : Host.Outcome State Fault Refusal := .next (aluZN s n 0x08 fun a b _ => a >>> bits b 0 6)

def execAluSar (n : TellerIx) (s : State) : Host.Outcome State Fault Refusal :=
  .next (aluZN s n 0x09 fun a b _ => unsigned 64 (signed 64 a / (2 ^ bits b 0 6 : Nat)))

def execAluMul (n : TellerIx) (s : State) : Host.Outcome State Fault Refusal := .next (aluZN s n 0x0A fun a b _ => a * b)

def execAluMin (n : TellerIx) (s : State) : Host.Outcome State Fault Refusal :=
  .next (aluZN s n 0x0B fun a b _ => if lessSigned a b then a else b)

def execAluMax (n : TellerIx) (s : State) : Host.Outcome State Fault Refusal :=
  .next (aluZN s n 0x0C fun a b _ => if lessSigned a b then b else a)

def execAluMinu (n : TellerIx) (s : State) : Host.Outcome State Fault Refusal := .next (aluZN s n 0x0D fun a b _ => min a b)

def execAluMaxu (n : TellerIx) (s : State) : Host.Outcome State Fault Refusal := .next (aluZN s n 0x0E fun a b _ => max a b)

def execAluPopc (n : TellerIx) (s : State) : Host.Outcome State Fault Refusal := .next (aluZN s n 0x0F fun a _ _ => popCount a)

def execAluClz (n : TellerIx) (s : State) : Host.Outcome State Fault Refusal := .next (aluZN s n 0x10 fun a _ _ => leadZeros a)

def execAluAddi (n : TellerIx) (s : State) : Host.Outcome State Fault Refusal :=
  .next (aluOp s n 0x11 fun x width a _ i => (flagsAdd x width a i, some (a + i)))

def execAluAndi (n : TellerIx) (s : State) : Host.Outcome State Fault Refusal := .next (aluZN s n 0x12 fun a _ i => a &&& i)

def execAluLdi (n : TellerIx) (s : State) : Host.Outcome State Fault Refusal := .next (aluZN s n 0x13 fun _ _ i => i)

def execAluLdih (n : TellerIx) (s : State) : Host.Outcome State Fault Refusal :=
  .next (aluZN s n 0x14 fun a _ i => a % 2 ^ 32 + i % 2 ^ 32 * 2 ^ 32)

def execAluExt (n : TellerIx) (s : State) : Host.Outcome State Fault Refusal :=
  .next (aluZN s n 0x15 fun a _ i => (a >>> bits i 0 6) % 2 ^ (if bits i 8 6 == 0 then 64 else bits i 8 6))

def execAluLdlc (n : TellerIx) (s : State) : Host.Outcome State Fault Refusal :=
  .next (aluOp s n 0x16 fun x _ a _ _ => ({ x with lc := a % 2 ^ 32 }, none))

/-! ### Loads (R215, R217) -/

/-- A read op's data is on its way to T register t. -/
def loadT (s : State) (n t v : Nat) : State :=
  updTel s n fun x => { x with loads := x.loads ++ [⟨t, 0, 0, 0, some (leBytes 8 v)⟩] }

/-- 8 bytes of scratch at an aligned address. -/
def scratchAt (x : Teller) (a : Nat) : Nat := mapGet x.scratch (a % 2 ^ 16 / 8) 0

def scratchPut (x : Teller) (a v : Nat) : Teller := { x with scratch := mapPut x.scratch (a % 2 ^ 16 / 8) (v % 2 ^ 64) }

/-- n bytes of scratch from an aligned address. -/
def scratchBytes (x : Teller) (a n : Nat) : List Nat := (List.range (n / 8)).flatMap fun i => leBytes 8 (scratchAt x (a + 8 * i))

def scratchStore (x : Teller) (a : Nat) (l : List Nat) : Teller :=
  (List.range (l.length / 8)).foldl (fun x i => scratchPut x (a + 8 * i) (leNat ((l.drop (8 * i)).take 8))) x

/-- LOAD_LANDS: the oldest load whose data is at hand fills its T register, or the staging window. -/
def execLoadLands (n : TellerIx) (s : State) : Host.Outcome State Fault Refusal :=
  let x := getTel s n
  match x.loads.find? (·.val.isSome) with
  | none => .next s
  | some l =>
    let v := l.val.getD []
    let x1 := { x with loads := x.loads.erase l }
    .next (putTel s n (if l.t < 8 then putReg x1 (24 + l.t) (leNat v) else scratchStore x1 l.dst v))

/-! ### Vector-bus and fail-bus ops (R215) -/

/-- The tile of a teller. -/
def telTile (n : Nat) : Nat := n / 4

def vecOp (s : State) (n op : Nat) (k : State → State) : State := micro s n 2 (fun w => mwVec w / 16 == op) k

def execVecJreq (n : TellerIx) (s : State) : Host.Outcome State Fault Refusal :=
  .next (vecOp s n 1 fun s => jumpRequest s (telTile n) (bits (mwA s n) 0 12) 8)

def execVecRdst (n : TellerIx) (s : State) : Host.Outcome State Fault Refusal :=
  .next (vecOp s n 2 fun s =>
    let b := tileB (telTile n)
    loadT s n (mwVec (telWord s n) % 8) (rd s b R.TIL_SEQ_STAT_STATE + rd s b R.TIL_SEQ_STAT_SEG * 2 ^ 16 + rd s b R.TIL_SEQ_FILL_OCC * 2 ^ 32))

def execVecHold (n : TellerIx) (s : State) : Host.Outcome State Fault Refusal := .next (vecOp s n 3 fun s => seqHold s (telTile n) false)

def execVecResume (n : TellerIx) (s : State) : Host.Outcome State Fault Refusal := .next (vecOp s n 4 fun s => seqResume s (telTile n))

def execVecAbort (n : TellerIx) (s : State) : Host.Outcome State Fault Refusal := .next (vecOp s n 5 fun s => seqAbort s (telTile n))

def failOp (s : State) (n op : Nat) (k : State → State) : State := micro s n 3 (fun w => mwFail w / 16 == op) k

def execFailRdst (n : TellerIx) (s : State) : Host.Outcome State Fault Refusal :=
  .next (failOp s n 1 fun s =>
    let b := tileB (telTile n)
    loadT s n (mwFail (telWord s n) % 8) (wordOf s b R.tilTable 0x184 + rd s b R.TIL_FAIL_QOCC_OCC * 2 ^ 32))

def execFailRdcnt (n : TellerIx) (s : State) : Host.Outcome State Fault Refusal :=
  .next (failOp s n 2 fun s =>
    let i := (getTel s n).cs % 256
    loadT s n (mwFail (telWord s n) % 8) (rd s (siteB i) R.GLB_SITE_FCNT_FCNT + siteStat s i * 2 ^ 32))

/-- FAIL_SYNC: the microword stalls while the fail queue holds entries. -/
def execFailSync (n : TellerIx) (s : State) : Host.Outcome State Fault Refusal :=
  .next (if rd s (tileB (telTile n)) R.TIL_FAIL_QOCC_OCC == 0 then failOp s n 3 fun s => s else s)

/-! ### Memory ops (R215, R254, R317) -/

def memOp (s : State) (n op : Nat) (k : State → State) : State := micro s n 4 (fun w => mwMem w / 16 == op) k

def execMemLds (n : TellerIx) (s : State) : Host.Outcome State Fault Refusal :=
  .next (memOp s n 1 fun s => loadT s n (mwMem (telWord s n) % 8) (scratchAt (getTel s n) (effAddr (telWord s n) (mwA s n))))

def execMemSts (n : TellerIx) (s : State) : Host.Outcome State Fault Refusal :=
  .next (memOp s n 2 fun s => updTel s n fun x => scratchPut x (effAddr (telWord s n) (mwA s n)) (mwB s n))

/-- A load from device memory: a line the host holds is snooped back first; the scheduler brings the data. -/
def devLoad (s : State) (n kind t dst d : Nat) : State :=
  let s1 := if s.sf.contains (d / 64) then askBi s (d / 64) else s
  memAsk (updTel s1 n fun x => { x with loads := x.loads ++ [⟨t, dst, d / 64, d % 64, none⟩] }) 4 kind n (d / 64) false 0

def execMemLdh (n : TellerIx) (s : State) : Host.Outcome State Fault Refusal :=
  .next (memOp s n 3 fun s => devLoad s n 3 (mwMem (telWord s n) % 8) 0 (effAddr (telWord s n) (mwA s n)))

/-- The line held by the host that a store op of the microword would write: it is snooped back first (R254). -/
def heldStore (s : State) (n op : Nat) : Option Nat :=
  let s1 := (mwBegin s n).getD s
  let d := effAddr (telWord s n) (mwA s1 n)
  if telState s n == 3 && mwMem (telWord s n) / 16 == op then
    [d / 64, (d + (if op == 4 then 7 else 63)) / 64].find? s.sf.contains
  else none

def execMemSth (n : TellerIx) (s : State) : Host.Outcome State Fault Refusal :=
  match heldStore s n 4 with
  | some l => .next (askBi s l)
  | none => .next (memOp s n 4 fun s =>
    let d := effAddr (telWord s n) (mwA s n)
    memAskWrite (devStore s d (leBytes 8 (mwB s n))) 4 3 n d 8)

def execMemBlk (n : TellerIx) (s : State) : Host.Outcome State Fault Refusal :=
  .next (memOp s n 5 fun s => devLoad s n 4 8 (bits (mwB s n) 0 16) (effAddr (telWord s n) (mwA s n)))

def execMemBst (n : TellerIx) (s : State) : Host.Outcome State Fault Refusal :=
  match heldStore s n 6 with
  | some l => .next (askBi s l)
  | none => .next (memOp s n 6 fun s =>
    let d := effAddr (telWord s n) (mwA s n)
    memAskWrite (devStore s d (scratchBytes (getTel s n) (bits (mwB s n) 0 16) 64)) 4 4 n d 64)

/-! ### Message ops (R215, R235, R237) -/

def msgOp (s : State) (n op : Nat) (k : State → State) : State := micro s n 5 (fun w => mwMsg w / 16 == op) k

/-- MSG_SEND: the port writes SRC and SDEV. An outbox of four messages stalls the microword. -/
def execMsgSend (n : TellerIx) (s : State) : Host.Outcome State Fault Refusal :=
  .next (if 4 ≤ (getTel s n).outbox.length then s else msgOp s n 1 fun s =>
    let m := scratchBytes (getTel s n) (effAddr (telWord s n) (mwA s n)) 32
    let h := putBits (putBits (putBits (msgHead m) 38 8 n) 46 9 (ownDev s)) 55 1 0
    showTelQ (updTel s n fun x => { x with outbox := x.outbox ++ [withHead m h] }) n)

/-- Words of a message or report to successive T registers, or 0. -/
def loadWords (s : State) (n t count : Nat) (l : List Nat) : State :=
  (List.range count).foldl (fun s i => loadT s n (t + i) (leNat ((l.drop (8 * i)).take 8))) s

def execMsgPeek (n : TellerIx) (s : State) : Host.Outcome State Fault Refusal :=
  .next (msgOp s n 2 fun s => loadWords s n (mwMsg (telWord s n) % 8) 4 ((getTel s n).inbox.headD []))

def execMsgPop (n : TellerIx) (s : State) : Host.Outcome State Fault Refusal :=
  .next (msgOp s n 3 fun s => showTelQ (updTel s n fun x => { x with inbox := x.inbox.drop 1 }) n)

def execMsgRpeek (n : TellerIx) (s : State) : Host.Outcome State Fault Refusal :=
  .next (msgOp s n 4 fun s => loadWords s n (mwMsg (telWord s n) % 8) 2 ((getTel s n).reports.headD []))

def execMsgRpop (n : TellerIx) (s : State) : Host.Outcome State Fault Refusal :=
  .next (msgOp s n 5 fun s => showTelQ (updTel s n fun x => { x with reports := x.reports.drop 1 }) n)

/-! ### WAIT, timer and site ops (R216, R219) -/

/-- WAIT_DELAY: the next microword issues n periods of 1 ns after this one. -/
def execWaitDelay (n : TellerIx) (s : State) : Host.Outcome State Fault Refusal :=
  .next (micro s n 6 (fun w => decide (1 ≤ mwWait w) && decide (mwWait w ≤ 0x7F)) fun s =>
    updTel s n fun x => { x with hold := .until_ (s.now + nsec (mwWait (telWord s n))) })

def execWaitCond (n : TellerIx) (s : State) : Host.Outcome State Fault Refusal :=
  .next (micro s n 6 (fun w => decide (0x80 ≤ mwWait w) && decide (mwWait w ≤ 0x83)) fun s =>
    updTel s n fun x => { x with hold := .cond (mwWait (telWord s n) - 0x80) })

def execSett (n : TellerIx) (s : State) : Host.Outcome State Fault Refusal :=
  .next (micro s n 6 (fun w => mwWait w == 0xC0) fun s =>
    updTel s n fun x => { x with timer := some (s.now + nsec (mwA s n % 2 ^ 32)) })

/-- TELLER_TIMER_EXPIRY. -/
def execTellerTimerExpiry (n : TellerIx) (s : State) : Host.Outcome State Fault Refusal :=
  match (getTel s n).timer with
  | none => .next s
  | some t => .next (raiseTel (updTel { s with now := max s.now t } n fun x => { x with timer := none }) n 0xA)

def siteOp (s : State) (n op : Nat) (k : Teller → Nat → Teller) : State :=
  micro s n 7 (fun w => mwSite w == op) fun s => updTel s n fun x => k x (bits (mwA s n) 0 8)

def execSmclr (n : TellerIx) (s : State) : Host.Outcome State Fault Refusal := .next (siteOp s n 1 fun x _ => { x with sm := 0 })

def execSmset (n : TellerIx) (s : State) : Host.Outcome State Fault Refusal := .next (siteOp s n 2 fun x i => { x with sm := setBit x.sm i })

def execSmrst (n : TellerIx) (s : State) : Host.Outcome State Fault Refusal := .next (siteOp s n 3 fun x i => { x with sm := clrBit x.sm i })

def execSmtst (n : TellerIx) (s : State) : Host.Outcome State Fault Refusal := .next (siteOp s n 4 fun x i => { x with z := !bit x.sm i })

def execCsset (n : TellerIx) (s : State) : Host.Outcome State Fault Refusal := .next (siteOp s n 5 fun x i => { x with cs := i })

end Sys2Proof.Machine
end

