-- ==== Sys2Proof/Machine/Calib.lean ====
section
/-! DEFINITION. Calibration, assay, tracking, level references, spare slices and remap, and the loss of an interpolator bank
or a timing PLL (R29, R33, R368 to R390; spec/14_calibration_and_spares.md, spec/01_organization.md). -/
namespace Sys2Proof.Machine

/-! ### Spare slices (R379 to R382) -/

/-- Slice p of tile t serves a position. -/
def serves (s : State) (t p : Nat) : Option Nat := (List.range 16).find? fun k => sliceOf s t k == p

/-- The candidate of the tile's remap. -/
def remapCand (s : State) (t : Nat) : Option Nat := (getTile s t).remap.map (·.cand)

/-- Free slices: neither serving nor retired, nor the candidate of a remap. -/
def freeSlices (s : State) (t : Nat) : List Nat :=
  (List.range 18).filter fun p => (serves s t p).isNone && !isRetired s t p && remapCand s t != some p

/-- Tracking corrections of the tile's serving slices move to a level, threshold and timing value: by glide on a live tile, by
step otherwise (R374 to R376). -/
def applyTracking (s : State) (t : Nat) (lvl cmp edge : Int) : State :=
  let now := fun (s : State) (p : Nat) (f : Field) => signed 16 (rd s (sliceB t p) f)
  let ps := (List.range 18).filter fun p => (serves s t p).isSome
  if tileLive s t then
    let rest := (List.range 18).map fun p => if ps.contains p then edge - now s p R.CHN_TRIM_TRKT_EDGE else 0
    let s1 := ps.foldl (fun s p =>
      let s1 := updSlice s t p fun x => { x with glideTrim := [lvl - now s p R.CHN_TRIM_TRK_LVL, cmp - now s p R.CHN_TRIM_TRK_CMP, x.glideTrim.getD 2 0] }
      wr s1 (sliceB t p) R.CHN_TRIM_TRKT_PEND (unsigned 16 (rest.getD p 0))) s
    wr (updTile s1 t fun x => { x with trackResid := rest }) (tileB t) R.TIL_TRK_STAT_LAG (b2n (rest.any fun d => decide (16 < d.natAbs)))
  else
    let s1 := ps.foldl (fun s p =>
      let b := sliceB t p
      let s1 := updSlice s t p fun x => { x with glideTrim := [0, 0, x.glideTrim.getD 2 0] }
      wr (wr (wr (wr s1 b R.CHN_TRIM_TRK_LVL (unsigned 16 lvl)) b R.CHN_TRIM_TRK_CMP (unsigned 16 cmp)) b R.CHN_TRIM_TRKT_EDGE (unsigned 16 edge))
        b R.CHN_TRIM_TRKT_PEND 0) s
    clrF (updTile s1 t fun x => { x with trackResid := [] }) (tileB t) R.TIL_TRK_STAT_LAG

/-- Show `FREE`; a slice that becomes free ends the suspension of tracking, and its corrections clear (R377). -/
def showFree (s : State) (t : Nat) : State :=
  let n := (freeSlices s t).length
  let s1 := wr s (tileB t) R.TIL_XPT_STAT_FREE (min 3 n)
  if n != 0 && flag s (tileB t) R.TIL_TRK_STAT_NOTRK then
    applyTracking (levelOff (clrF s1 (tileB t) R.TIL_TRK_STAT_NOTRK) 0x09 t) t 0 0 0
  else s1

/-- Job j runs calibration items: a CALIBRATE, or the ASSIGN_ROLE that waits for the start-up calibration (R458). -/
def calJob (s : State) (j : Nat) (x : Job) : Bool := x.phase == .running && (x.opcode == 0x50 || s.boot.startCal == some j)

/-- A CALIBRATE, the start-up calibration or a remap runs (`GLB_CAL_STAT.RUN`). -/
def showCal (s : State) : State :=
  wr s glb R.GLB_CAL_STAT_RUN (b2n (s.rings.jobs.any (fun e => calJob s e.1 e.2) || s.tiles.any fun e => e.2.remap.isSome))

/-- Set the RETIRED bit of a slice (R379); `SC_DEP` clears when the slice is retired (R58). -/
def markRetired (s : State) (t p : Nat) : State :=
  clrF (wr s (tileB t) R.TIL_XPT_STAT_RETIRED (setBit (rd s (tileB t) R.TIL_XPT_STAT_RETIRED) p)) (sliceB t p) R.CHN_STAT_SC_DEP

/-- INFO of a signal whose second class applies (R408). -/
def second (info : Nat) (yes : Bool) : Nat := info + (if yes then 2 ^ 16 else 0)

/-- A free slice is taken out of use (R379). -/
def retireFree (s : State) (t p : Nat) : State :=
  if isRetired s t p then s else signal (showFree (markRetired s t p) t) 0x03 (t * 18 + p) 0xFFFF

/-- The fields a remap copies: every RW field that is not a trim (R33). -/
def copyFields : List Field := R.chnTable.filter fun f => f.acc == .rw && !(decide (0x200 ≤ f.off) && decide (f.off < 0x234))

/-- R33: the settings of the old slice go to the new one, whose levels take the selected bank. -/
def copySlice (s : State) (t old new_ : Nat) : State :=
  let s1 := copyFields.foldl (fun s f =>
    (List.range f.count).foldl (fun s i => wri s (sliceB t new_) f i (rdi s (sliceB t old) f i)) s) s
  let b := rd s1 (sliceB t new_) R.CHN_BANK_SEL_BANK
  updSlice (wr (clrF s1 (sliceB t new_) R.CHN_BANK_STAT_GLIDING) (sliceB t new_) R.CHN_BANK_STAT_TGT b) t new_
    fun x => { x with glide := none, dac := bankLevels s1 t new_ b, late := none }

/-- The items that a remap runs on its candidate (R380): LEVEL, CMPOFS, EDGE, and those whose assay is not valid and passed. -/
def remapItems (s : State) (t p : Nat) : List Nat :=
  [1, 2, 3, 4, 5].filter fun i => i == 1 || i == 3 || i == 5 ||
    !(rdi s (sliceB t p) R.CHN_ASSAY_VALID i == 1 && rdi s (sliceB t p) R.CHN_ASSAY_PASS i == 1)

/-- A CALIBRATE job whose items, retirements and remaps are complete writes its records and ends (R371, R373, R386). -/
def calFinish (s : State) (j : Nat) : State :=
  match getJob? s j with
  | none => s
  | some x =>
    let n := fun k => x.tally.getD k 0
    if x.opcode != 0x50 || x.phase != .running || x.units != [] ||
        s.tiles.any (fun e => (e.2.remap.toList ++ e.2.remapQ).any fun r => r.job == some j) then s
    else
      let st := if n 2 != 0 then 0x0500 else if n 3 != 0 then 0x0501 else if n 1 != 0 then 0x0050 else 0
      let out := if arg x 2 == 0 then [] else x.rec_.take (arg x 3 / 8 * 8)
      showCal (writeAndEnd s j (arg x 2) out st (n 0) (n 1) 0)

/-- A slice's records with PASS = 0 in a CALIBRATE take RETIRED = 1. -/
def markRecords (l : List Nat) (unit : Nat) : List Nat :=
  (List.range (l.length / 8)).flatMap fun i =>
    let w := leNat ((l.drop (8 * i)).take 8)
    let hit := decide (1 ≤ bits w 0 8) && decide (bits w 0 8 ≤ 5) && bits w 8 10 == unit && bits w 18 3 == 0
    leBytes 8 (if hit then setBit w 21 else w)

def calRetired (s : State) (j : Option Nat) (unit : Nat) : State :=
  match j.bind (getJob? s) with
  | none => s
  | some x => if !calJob s (j.getD 0) x then s else putJob s (j.getD 0) { x with rec_ := markRecords x.rec_ unit }

/-- The remap's job, if it is a REMAP. -/
def remapJob (s : State) (r : RemapRun) : Option Nat := r.job.filter fun j => (getJob? s j).any fun x => x.opcode == 0x51

/-- R381: no free slice remains; but for a monitor's cause the old slice keeps serving the ball. -/
def noSpare (s : State) (t : Nat) (r : RemapRun) : State :=
  let b := tileB t
  let s1 := setF (updTile s t fun x => { x with remap := none }) b R.TIL_XPT_STAT_NOSPARE
  match remapJob s r with
  | some j => endJob (loadSync s1 t r.old) j 0x0501 r.old 0 0
  | none =>
    match r.job.bind (getJob? s1) with
    | some x =>
      let s2 := putJob (loadSync s1 t r.old) (r.job.getD 0) { x with tally := listSet x.tally 3 (x.tally.getD 3 0 + 1) }
      signal s2 0x03 (t * 18 + r.old) (second r.pos true)
    | none =>
      let s2 := markRetired s1 t r.old
      signal s2 0x03 (t * 18 + r.old) (second r.pos true)

/-- A remap takes its next candidate (R380): the slice asked for, or the lowest free one not yet tried; or none is left. -/
def tryCand (s : State) (t : Nat) (r : RemapRun) (want : Option Nat) : State :=
  let l := (freeSlices (updTile s t fun x => { x with remap := none }) t).filter fun p => !r.tried.contains p
  match (match want with
    | some p => if l.contains p then some p else l.head?
    | none => l.head?) with
  | none => noSpare s t r
  | some p => showFree (copySlice (updTile s t fun x => { x with remap := some { r with cand := p } }) t r.old p) t

/-- A remap starts (R380): the crosspoint opens the old slice from the ball. -/
def startRemap (s : State) (t : Nat) (r : RemapRun) (want : Option Nat) : State :=
  let s1 := updSlice (setF s (tileB t) R.TIL_XPT_STAT_BUSY) t r.old fun x => { x with drive := .off, load := false }
  tryCand s1 t r want

/-- Go on with a tile's remaps: the oldest that waits starts once none runs and the tile is not live. -/
def nextRemap : Nat → State → Nat → State
  | 0, s, _ => s
  | n + 1, s, t =>
    let x := getTile s t
    if x.remap.isSome || tileLive s t then showCal s
    else match x.remapQ with
      | [] => showCal (clrF s (tileB t) R.TIL_XPT_STAT_BUSY)
      | r :: rest => nextRemap n (startRemap (updTile s t fun x => { x with remapQ := rest }) t { r with old := sliceOf s t r.pos } none) t

/-- Ask for a remap of a position; it runs at once if the tile is not live. -/
def askRemap (s : State) (t : Nat) (r : RemapRun) : State :=
  nextRemap 32 (updTile s t fun x => { x with remapQ := x.remapQ ++ [r] }) t

/-- A slice is retired for a cause of R379 other than REMAP: a serving one is replaced, a free one taken out of use. -/
def retireSlice (s : State) (t p : Nat) (job : Option Nat) : State :=
  match serves s t p with
  | none => calRetired (retireFree s t p) job (t * 18 + p)
  | some k =>
    if ((getTile s t).remap.toList ++ (getTile s t).remapQ).any fun r => r.pos == k then s
    else askRemap s t ⟨k, 0, [], p, job, true⟩

/-! ### Assays and trims (R368 to R370) -/

/-- FIG limits by item bit. -/
def figLimit (i : Nat) : Nat := [500, 1000, 1500, 1500, 150, 100, 500, 50, 10, 100].getD i 0

/-- PASS: FIG within the limit, and for EDGE an eye of at least 192. -/
def itemPasses (r : CalResult) : Bool := decide (r.fig ≤ figLimit r.item) && (r.item != 5 || decide (192 ≤ r.eye))

/-- The assay fields of an item on a unit: block, fields, element. -/
def assayAt (item unit : Nat) : Nat × Field × Field × Field × Field × Field × Nat :=
  if 1 ≤ item ∧ item ≤ 5 then
    (sliceB (unit / 18) (unit % 18), R.CHN_ASSAY_FIG, R.CHN_ASSAY_EYE, R.CHN_ASSAY_PASS, R.CHN_ASSAY_VALID, R.CHN_ASSAY_PRE, item)
  else if item = 9 then
    (glb, R.GLB_ASSAY_STRUM_FIG, R.GLB_ASSAY_STRUM_EYE, R.GLB_ASSAY_STRUM_PASS, R.GLB_ASSAY_STRUM_VALID, R.GLB_ASSAY_STRUM_PRE, 0)
  else (secB unit, R.SEC_ASSAY_FIG, R.SEC_ASSAY_EYE, R.SEC_ASSAY_PASS, R.SEC_ASSAY_VALID, R.SEC_ASSAY_PRE, item - 5)

/-- "Valid and passed" (R369). -/
def assayGood (s : State) (item unit : Nat) : Bool :=
  let a := assayAt item unit
  rdi s a.1 a.2.2.2.1 a.2.2.2.2.2.2 == 1 && rdi s a.1 a.2.2.2.2.1 a.2.2.2.2.2.2 == 1

/-- An assay is written (R370). -/
def writeAssay (s : State) (unit : Nat) (r : CalResult) : State :=
  let a := assayAt r.item unit
  let i := a.2.2.2.2.2.2
  let s1 := wri (wri s a.1 a.2.1 i (min 0xFFFF r.fig)) a.1 a.2.2.1 i (if r.item == 5 then r.eye else 0)
  wri (wri (wri s1 a.1 a.2.2.2.1 i (b2n (itemPasses r))) a.1 a.2.2.2.2.1 i 1) a.1 a.2.2.2.2.2.1 i 0

/-- New trims of an item on a unit (R368, R387 to R389); an item on a slice folds and zeroes its tracking correction (R376). -/
def writeTrims (s : State) (unit : Nat) (serving : Option Nat) (r : CalResult) : State :=
  let b := sliceB (unit / 18) (unit % 18)
  let w := fun (i : Nat) => r.trims.getD i 0
  let each := fun (s : State) (n base : Nat) (f g : Field) =>
    (List.range n).foldl (fun s i => wri (wri s base f i (w i)) base g i (w i / 2 ^ 16)) s
  match r.item with
  | 1 => clrF (updSlice (each s 6 b R.CHN_TRIM_LVL_OFS R.CHN_TRIM_LVL_GAIN) (unit / 18) (unit % 18)
      fun x => { x with glideTrim := listSet x.glideTrim 0 0 }) b R.CHN_TRIM_TRK_LVL
  | 2 => wr (wr s b R.CHN_TRIM_FING_FING (w 0)) b R.CHN_TRIM_FING_NFING (maskBits 24 (w 0)).length
  | 3 => clrF (updSlice (each s 2 b R.CHN_TRIM_CMP_OFS R.CHN_TRIM_CMP_GAIN) (unit / 18) (unit % 18)
      fun x => { x with glideTrim := listSet x.glideTrim 1 0 }) b R.CHN_TRIM_TRK_CMP
  | 4 => updSlice (wr s b R.CHN_TRIM_TDC_CORE1 (w 0)) (unit / 18) (unit % 18) fun x => { x with tdcRuns := x.tdcRuns + 1 }
  | 5 =>
    let s0 := updTile s (unit / 18) fun x => { x with trackResid := listSet x.trackResid (unit % 18) 0 }
    let s1 := clrF (clrF (wr (wr s0 b R.CHN_TRIM_EDGE_DRV (w 0)) b R.CHN_TRIM_EDGE_STB (w 0 / 2 ^ 16)) b R.CHN_TRIM_TRKT_EDGE)
      b R.CHN_TRIM_TRKT_PEND
    match serving with
    | some k => wri s1 (tileB (unit / 18)) R.TIL_BALL_DLY_DLY k (w 1)
    | none => s1
  | 6 => (List.range 8).foldl (fun s i => wri s (secB unit) R.DIG_TRIM_GAIN i (w i)) s
  | 7 => (List.range 8).foldl (fun s i => wri s (secB unit) R.DIG_TRIM_OFS i (w i)) s
  | 8 => (List.range 8).foldl (fun s i => wri s (secB unit) R.DIG_TRIM_SKEW i (w i)) s
  | 9 => wr s glb R.TIM_STRUM_DLY_DLY (w 0)
  | _ => s

/-- An item completes on a unit: trims and assay together. -/
def itemDone (s : State) (unit : Nat) (serving : Option Nat) (r : CalResult) : State :=
  writeAssay (writeTrims s unit serving r) unit r

/-! ### Level references (R378, R29) -/

def sectorSlices (q : Nat) : List (Nat × Nat) := (tilesOfSector q).flatMap fun t => (List.range 18).map fun p => (t, p)

/-- Both level references of a sector are retired. -/
def refsLost (s : State) (q : Nat) : Bool := !flag s (secB q) R.SEC_REF_STAT_LREF0_OK && !flag s (secB q) R.SEC_REF_STAT_LREF1_OK

/-- The offset at a handover, in trim units: the difference of the references at the last LEVREF, of either sign (R378). -/
def refOffset (s : State) (q : Nat) : Int × State :=
  let d := freshNat s
  let m := roundDiv (rdi s (secB q) R.SEC_ASSAY_FIG 0 * 65536) 1000000
  (if d.1 % 2 == 0 then (m : Int) else -(m : Int), d.2)

/-- LEVEL_REFERENCE_RETIRED: the sector passes to the other reference with a compensating offset that then glides out, or its
channels go to the safe state when none is left. -/
def levelReferenceRetired (s : State) (q r : Nat) : State :=
  let b := secB q
  let mine := if r = 0 then R.SEC_REF_STAT_LREF0_OK else R.SEC_REF_STAT_LREF1_OK
  if !flag s b mine then s
  else
    let s1 := clrF s b mine
    if refsLost s1 q then (safeEnterAll (signal s1 0x08 (2 * q + r) (second 0 true)) (sectorSlices q) R.CHN_STAT_SC_DEP)
    else
      let s2 := signal s1 0x08 (2 * q + r) 0
      if rd s b R.SEC_REF_STAT_SEL != r then s2
      else
        let d := refOffset s2 q
        let s3 := setF (wr d.2 b R.SEC_REF_STAT_SEL (1 - r)) b R.SEC_REF_STAT_SWITCHED
        ((sectorSlices q).foldl (fun s x =>
          if tileLive s x.1 then updSlice s x.1 x.2 fun y =>
            { y with glideTrim := [y.glideTrim.getD 0 0, y.glideTrim.getD 1 0, y.glideTrim.getD 2 0 + d.1] }
          else s) s3)

/-- LEVREF fails: a level reference of the sector is retired (R378). The rule does not say which: a free draw among those in service. -/
def levrefFailed (s : State) (q : Nat) : State :=
  let d := freshNat s
  let r := d.1 % 2
  let ok := fun (r : Nat) => flag s (secB q) (if r = 0 then R.SEC_REF_STAT_LREF0_OK else R.SEC_REF_STAT_LREF1_OK)
  levelReferenceRetired d.2 q (if ok r then r else 1 - r)

def execLevelReferenceRetired (q : SectorIx) (r : Fin 2) (s : State) : Host.Outcome State Fault Refusal :=
  .next (levelReferenceRetired s q r)

/-! ### CALIBRATE (R368 to R373) -/

/-- R285, R373: a named tile or, for bits 6 to 8, a named sector's digitizer is live. -/
def calBusy (s : State) (items tiles sectors : Nat) : Bool :=
  (maskBits 48 tiles).any (tileLive s) || (bits items 6 3 != 0 && (maskBits 4 sectors).any fun q => digState s q != 0)

/-- CALIBRATE. -/
def execCalibrate (j : Nat) (s : State) : Host.Outcome State Fault Refusal :=
  match jobNew s j 0x50 with
  | none => .next s
  | some x =>
    let items := arg x 0
    let tiles := bits (arg x 1) 0 48
    let sectors := bits (arg x 1) 48 4
    .next (afterDeferral s j x fun s =>
      if calBusy s items tiles sectors then endJob s j 0x0301 0 0 0
      else
        let s1 := if bits items 6 3 != 0 then digPllStart s (maskBits 4 sectors) else s
        calFinish (showCal (setWork s1 j (calUnits s items tiles sectors) [0, 0, 0, 0] [])) j)

/-- A record of R371. -/
def calRecord (item unit result pass retired fig eye : Nat) : List Nat :=
  leBytes 8 (item + unit * 2 ^ 8 + result * 2 ^ 18 + pass * 2 ^ 20 + retired * 2 ^ 21 + fig * 2 ^ 32 + eye * 2 ^ 48)

/-- The items that an item needs on a unit (R368): item and unit, as "valid and passed". -/
def itemNeeds (item unit : Nat) : List (Nat × Nat) :=
  match item with
  | 1 => [(0, unit / 18 / 12)]
  | 2 | 3 | 5 => [(1, unit)]
  | 8 => [(6, unit), (7, unit)]
  | _ => []

/-- R372: the precondition of an item, with what only the outside shows in `pre`. -/
def itemPre (s : State) (item unit : Nat) (pre : Bool) : Bool :=
  match item with
  | 5 => (serves s (unit / 18) (unit % 18)).isNone || (pre && flag s glb R.GLB_IO_STAT_CARD && !flag s glb R.GLB_IO_STAT_TOUCH)
  | 6 | 7 => pre
  | 9 => pre && ringPosition s != 0 && rd s glb R.TIM_STAT_QUAL == 0 && rd s glb R.TIM_STRUM_CTL_MODE == 1 && flag s glb R.TIM_STRUM_STAT_SEEN
  | _ => true

/-- The slices of a tile whose items in a job failed a limit. -/
def failedSlices (l : List Nat) (t : Nat) : List Nat :=
  (List.range 18).filter fun p => (List.range (l.length / 8)).any fun i =>
    let w := leNat ((l.drop (8 * i)).take 8)
    decide (1 ≤ bits w 0 8) && decide (bits w 0 8 ≤ 5) && bits w 8 10 == t * 18 + p && bits w 18 2 == 0 && !bit w 20

/-- The job's items on a tile have ended: with AUTORET, failing slices are retired (R379). -/
def tileEnded (s : State) (j : Nat) (x : Job) (t : Nat) : State :=
  if !flag s glb R.GLB_CAL_CFG_AUTORET || x.units.any (fun u => decide (1 ≤ u / 1024) && decide (u / 1024 ≤ 5) && u % 1024 / 18 == t) then s
  else (failedSlices x.rec_ t).foldl (fun s p => retireSlice s t p (some j)) s

/-- One item on one unit leaves the job with a record. -/
def calStep (s : State) (j : Nat) (x : Job) (item unit : Nat) (record : List Nat) (tally : List Nat) (bad : Bool) : State :=
  let x1 := { x with
    units := x.units.filter (· != unitCode item unit)
    rec_ := x.rec_ ++ record
    tally := tally
    prior := if bad then unitCode item unit :: x.prior else x.prior }
  let s1 := putJob s j x1
  calFinish (if 1 ≤ item ∧ item ≤ 5 then tileEnded s1 j x1 (unit / 18) else s1) j

/-- Items 1 to 5 run on slices; of these all but TDC use the tile's bus (R368). -/
def sliceItem (i : Nat) : Bool := decide (1 ≤ i) && decide (i ≤ 5)
def busItem (i : Nat) : Bool := sliceItem i && i != 4

/-- A lower slice of the tile still has items of the bus to run. -/
def busTaken (x : Job) (unit : Nat) : Bool :=
  x.units.any fun u => busItem (u / 1024) && u % 1024 / 18 == unit / 18 && decide (u % 1024 < unit)

/-- An item is due on a unit (R369): it is left and no lower item of the unit is; slices take the bus in ascending order. STRUM's unit is
the device. -/
def itemDue (x : Job) (item unit : Nat) : Bool :=
  x.units.contains (unitCode item unit) && !(busItem item && busTaken x unit) &&
    (item == 9 || !(List.range item).any fun i => x.units.contains (unitCode i unit) && sliceItem item == sliceItem i)

/-- The sector of an item's unit. -/
def itemSector (item unit : Nat) : Nat := if 1 ≤ item ∧ item ≤ 5 then unit / 18 / 12 else unit

/-- A digitizer trim found while the digitizer runs waits for STOPPED (R374). -/
def trimWaits (s : State) (item unit : Nat) : Bool := decide (6 ≤ item) && decide (item ≤ 8) && digState s unit != 0

/-- CAL_ITEM_DONE: the item runs on the unit, or finds a prerequisite or a precondition missing. -/
def execCalItemDone (j unit : Nat) (pre : Bool) (r : CalResult) (s : State) : Host.Outcome State Fault Refusal :=
  match getJob? s j with
  | none => .next s
  | some x =>
    let start := x.opcode != 0x50
    if !calJob s j x || !itemDue x r.item unit || trimWaits s r.item unit || (start && sectorEnforced s (itemSector r.item unit)) then .next s
    else
      let n := fun k => x.tally.getD k 0
      let serving := if !start && decide (1 ≤ r.item) && decide (r.item ≤ 5) then serves s (unit / 18) (unit % 18) else none
      if (itemNeeds r.item unit).any fun e => !assayGood s e.1 e.2 || x.prior.contains (unitCode e.1 e.2) then
        .next (calStep s j x r.item unit (calRecord r.item unit 2 0 0 0 0) x.tally true)
      else if !(start && r.item == 5) && !itemPre s r.item unit pre then
        let a := assayAt r.item unit
        let s1 := setF (wri s a.1 a.2.2.2.2.2.1 a.2.2.2.2.2.2 1) glb R.GLB_CAL_STAT_PRECOND
        .next (calStep s1 j x r.item unit (calRecord r.item unit 1 0 0 0 0) (listSet x.tally 2 (n 2 + 1)) true)
      else
        let ok := itemPasses r
        let s1 := itemDone s unit serving r
        let s2 := if ok then s1 else setF (if r.item == 0 then levrefFailed s1 unit else s1) glb R.GLB_CAL_STAT_LIMIT
        .next (calStep s2 j x r.item unit
          (calRecord r.item unit 0 (b2n ok) 0 (min 0xFFFF r.fig) (if r.item == 5 then r.eye % 512 else 0))
          (listSet (listSet x.tally 0 (n 0 + 1)) 1 (n 1 + b2n (!ok))) false)

/-- STRUM_SEEN_TIMEOUT (R372, R373): no Strum edge within 1.5 s. -/
def execStrumSeenTimeout (s : State) : Host.Outcome State Fault Refusal :=
  match s.rings.jobs.find? fun e => e.2.opcode == 0x50 && e.2.phase == .running && itemDue e.2 9 0 with
  | none => .next s
  | some (j, x) =>
    if flag s glb R.TIM_STRUM_STAT_SEEN then .next s
    else
      let s1 := setF (setF s glb R.GLB_ASSAY_STRUM_PRE) glb R.GLB_CAL_STAT_PRECOND
      .next (calStep s1 j x 9 0 (calRecord 9 0 1 0 0 0 0) (listSet x.tally 2 (x.tally.getD 2 0 + 1)) true)

/-- STARTUP_CAL_DONE (R458): every item of the start-up calibration is over; the part is READY, and the ASSIGN_ROLE that
waited completes unless a ROLE routine is still owed. -/
def execStartupCalDone (s : State) : Host.Outcome State Fault Refusal :=
  match s.boot.startCal with
  | none => .next s
  | some j =>
    let x := getJob? s j
    if x.any (fun y => y.units != []) || s.tiles.any (fun e => e.2.remap.isSome || e.2.remapQ != []) then .next s
    else
      let n := fun k => (x.map fun y => y.tally.getD k 0).getD 0
      let s1 := setReady (setF (updBoot s fun b => { b with startCal := none }) glb R.GLB_ST_STAT_CALDONE)
      let s2 := if n 1 != 0 then setF s1 glb R.GLB_ST_STAT_CALLIM else s1
      let s3 := if n 2 != 0 then setF s2 glb R.GLB_ST_STAT_CALPRE else s2
      .next (showCal (assignDone s3 j))

/-! ### Tracking and glides (R375 to R377) -/

/-- The mean of drifts, rounded to nearest. -/
def meanOf (l : List Int) : Int := if l.length = 0 then 0 else roundDivInt (l.foldl (· + ·) 0) l.length

/-- TRACKING_PASS of the tile's SERVO (R376): the operand gives the level, threshold and timing drift of each free slice. -/
def execTrackingPass (t : TileIx) (drift : List (Int × Int × Int)) (s : State) : Host.Outcome State Fault Refusal :=
  let b := tileB t
  if !flag s glb R.GLB_CAL_CFG_TRK || (getTile s t).remap.isSome || !powerReady s || !(tellersOfTile t).any (fun n => telRole s n == 3) then .next s
  else if freeSlices s t == [] then .next (levelOn (setF s b R.TIL_TRK_STAT_NOTRK) 0x09 t 0)
  else
    let l := drift.take (freeSlices s t).length
    let s1 := wr s b R.TIL_TRK_STAT_PASSES (rd s b R.TIL_TRK_STAT_PASSES + 1)
    .next (applyTracking s1 t (meanOf (l.map (·.1))) (meanOf (l.map (·.2.1))) (meanOf (l.map (·.2.2))))

/-- TRIM_GLIDE_STEP: at most 32 trim units toward the corrected values; where the tile is not live all at once, the timing correction
that was left too (R374). -/
def execTrimGlideStep (t : TileIx) (p : SliceIx) (s : State) : Host.Outcome State Fault Refusal :=
  let x := getSlice s t p
  let b := sliceB t p
  let step := fun (d : Int) => if tileLive s t then clampInt (-32) 32 d else d
  let l := step (x.glideTrim.getD 0 0)
  let c := step (x.glideTrim.getD 1 0)
  let f := step (x.glideTrim.getD 2 0)
  let e := if tileLive s t then 0 else (getTile s t).trackResid.getD p 0
  if l == 0 && c == 0 && f == 0 && e == 0 then .next s
  else
    let s0 := if e == 0 then s else
      let rest := listSet (getTile s t).trackResid p 0
      wr (wr (wr (updTile s t fun y => { y with trackResid := rest }) b R.CHN_TRIM_TRKT_EDGE
        (unsigned 16 (signed 16 (rd s b R.CHN_TRIM_TRKT_EDGE) + e))) b R.CHN_TRIM_TRKT_PEND 0)
        (tileB t) R.TIL_TRK_STAT_LAG (b2n (rest.any fun d => decide (16 < d.natAbs)))
    let s1 := putSlice s0 t p { x with glideTrim := [x.glideTrim.getD 0 0 - l, x.glideTrim.getD 1 0 - c, x.glideTrim.getD 2 0 - f] }
    .next (wr (wr s1 b R.CHN_TRIM_TRK_LVL (unsigned 16 (signed 16 (rd s b R.CHN_TRIM_TRK_LVL) + l)))
      b R.CHN_TRIM_TRK_CMP (unsigned 16 (signed 16 (rd s b R.CHN_TRIM_TRK_CMP) + c)))

/-! ### Slice monitors, interpolator banks, timing PLLs (R29, R379) -/

/-- SLICE_MONITOR_FAIL: cause 0 DAC readback, 1 timing clock lost, 2 TDC stuck. A slice under an item leaves it with a
record, and none of its items runs any more; it is retired at once, or after the pattern. -/
def sliceMonitorFail (s : State) (t p cause : Nat) : State :=
  if isRetired s t p then s
  else
    let unit := t * 18 + p
    let s1 := safeEnter s t p R.CHN_STAT_SC_DEP
    let s2 := signal s1 0x02 unit (second (cause + 1) (freeSlices s t == []))
    let cal := s2.rings.jobs.find? fun e => calJob s2 e.1 e.2 &&
      e.2.units.any fun u => decide (1 ≤ u / 1024) && decide (u / 1024 ≤ 5) && u % 1024 == unit
    let s3 := match cal with
      | none => s2
      | some (j, x) =>
        let rest := { x with units := x.units.filter (fun u => !(decide (1 ≤ u / 1024) && decide (u / 1024 ≤ 5) && u % 1024 == unit)) }
        putJob s2 j (match [1, 2, 3, 4, 5].find? fun i => itemDue x i unit with
          | some item => { rest with
              rec_ := x.rec_ ++ calRecord item unit 0 0 1 0xFFFF 0
              tally := listSet (listSet x.tally 0 (x.tally.getD 0 0 + 1)) 1 (x.tally.getD 1 0 + 1) }
          | none => rest)
    let s4 := if remapCand s3 t == some p then markRetired s3 t p
      else if (serves s3 t p).isNone && tileLive s3 t then updTile s3 t fun x => { x with remapQ := x.remapQ ++ [⟨16, 0, [], p, none, true⟩] }
      else retireSlice s3 t p none
    (match cal with
      | some (j, _) => calFinish s4 j
      | none => s4)

def execSliceMonitorFail (t : TileIx) (p : SliceIx) (cause : Fin 3) (s : State) : Host.Outcome State Fault Refusal :=
  .next (sliceMonitorFail s t p cause)

/-- The tile and slices of a quad (R407): 0 to 191, and 192 + t for the spare pair. -/
def quadSlices (q : Nat) : Nat × List Nat := if q < 192 then (q / 4, (List.range 4).map fun i => q % 4 * 4 + i) else (q - 192, [16, 17])

/-- INTERPOLATOR_BANK_LOST: the quad's slices go to the safe state and are retired; the positions they served move to free
slices in ascending order, as far as there are any. -/
def interpolatorBankLost (s : State) (q : Nat) : State :=
  let t := (quadSlices q).1
  let l := (quadSlices q).2.filter fun p => !isRetired s t p
  let waits := ((getTile s t).remap.toList ++ (getTile s t).remapQ).map (·.pos)
  let pos := (List.range 16).filter fun k => l.contains (sliceOf s t k) && !waits.contains k
  let s1 := l.foldl (fun s p => safeEnter s t p R.CHN_STAT_SC_DEP) s
  let s2 := l.foldl (fun s p => markRetired s t p) s1
  let n := (freeSlices s2 t).length
  let s3 := signal (showFree s2 t) 0x04 q (second (min n pos.length) (decide (n < pos.length)))
  let s4 := updTile s3 t fun x => { x with remapQ := x.remapQ ++ pos.map fun k => ⟨k, 0, [], sliceOf s t k, none, true⟩ }
  (nextRemap 32 s4 t)

def execInterpolatorBankLost (q : Fin 240) (s : State) : Host.Outcome State Fault Refusal :=
  .next (interpolatorBankLost s q)

/-- A sector loses its timing clock (R29): its tiles stop at once, their channels go to the safe state, and gangs reaching it abort. -/
def sectorStop (s : State) (q : Nat) : State :=
  let s1 := gangsFault (safeEnterAll s (sectorSlices q) R.CHN_STAT_SC_DEP) (tilesOfSector q) 0x0700
  (s1.gangs.filter fun e => gangLive s1 e.2 && sectorOf e.1 == q).foldl (fun s e =>
    match getGang? s e.1 with
    | some g => if g.waiting then s else gangStop (mergeAll (g.tiles.foldl tdcCloseAll s) g.tiles) e.1 { g with evs := [], phase := .over }
    | none => s) s1

/-- The sector's timing PLL is in lock or out of it: its enabled vector clocks produce boundaries, from the phase that R65 gives
now on, or none (R65, R67, R88). -/
def clocksRun (s : State) (q : Nat) (on : Bool) : State :=
  ((tilesOfSector q).filter fun t => flag s (tileB t) R.TIL_VCLK_CTL_EN).foldl (fun s t =>
    let s1 := wr s (tileB t) R.TIL_VCLK_STAT_RUNNING (b2n on)
    if on then updTile s1 t fun x => { x with nextVec := max x.nextVec (lawNext (lawOf s t) s.now) } else s1) s

/-- TIMING_PLL_UNLOCK. -/
def execTimingPllUnlock (q : SectorIx) (s : State) : Host.Outcome State Fault Refusal :=
  .next (if pllLost s q then s else sectorStop (clocksRun (levelOn s 0x07 q 0) q false) q)

/-- A dependency other than the timing PLL still holds the slice in `SC_DEP` (R58). -/
def depHeld (s : State) (t p : Nat) : Bool :=
  refsLost s (sectorOf t) || (getTile s t).laneLost || isRetired s t p ||
    ((getTile s t).remap.toList ++ (getTile s t).remapQ).any fun r => r.old == p

/-- TIMING_PLL_RELOCK. -/
def execTimingPllRelock (q : SectorIx) (s : State) : Host.Outcome State Fault Refusal :=
  .next (if pllLost s q then
    let s1 := clocksRun (levelOff s 0x07 q) q true
    if injHeld s1 (detNo 0x07 q) then s1
    else causeClear s1 ((sectorSlices q).filter fun x => !depHeld s x.1 x.2) R.CHN_STAT_SC_DEP
  else s)

/-! ### Remaps (R380 to R383) -/

/-- A waiting free slice that failed its monitor inside a pattern is taken out of use at its end. -/
def retireWaiting (s : State) (t : Nat) : State :=
  let l := (getTile s t).remapQ.filter fun r => r.pos == 16
  l.foldl (fun s r => retireFree s t r.old) (updTile s t fun x => { x with remapQ := x.remapQ.filter fun r => r.pos != 16 })

/-- REMAP_START: the remap of a position that waited for the end of a pattern. -/
def execRemapStart (t : TileIx) (k : PosIx) (s : State) : Host.Outcome State Fault Refusal :=
  if tileLive s t || (getTile s t).remap.isSome then .next s
  else
    let s1 := retireWaiting s t
    match (getTile s1 t).remapQ.find? fun r => r.pos == k.val with
    | none => .next (nextRemap 32 s1 t)
    | some r => .next (showCal (startRemap (updTile s1 t fun x => { x with remapQ := x.remapQ.erase r }) t { r with old := sliceOf s t k } none))

/-- The candidate joins the ball (R380). -/
def joinSlice (s : State) (t : Nat) (r : RemapRun) : State :=
  let b := tileB t
  let s1 := wri (updTile s t fun x => { x with remap := none }) b R.TIL_XPT_MAP_SLICE r.pos r.cand
  let s2 := wr s1 (sliceB t r.cand) R.CHN_STAT_DRIVE_LOCK (rd s (sliceB t r.old) R.CHN_STAT_DRIVE_LOCK)
  let s3 := loadSync (if r.retire then markRetired s2 t r.old else s2) t r.cand
  let s4 := { signal s3 0x03 (t * 18 + r.old) r.pos with
    gangs := s3.gangs.map fun e => if e.2.waiting && e.2.tiles.contains t then (e.1, { e.2 with remapped := (t * 16 + r.pos) :: e.2.remapped }) else e }
  let s5 := calRetired (showFree s4 t) r.job (t * 18 + r.old)
  match remapJob s r with
  | some j => endJob s5 j 0 r.cand 0 0
  | none => s5

/-- The items of a remap with their results; none where a result is missing. The items that need LEVEL do not run where it
fails. -/
def remapResults (need : List Nat) (l : List CalResult) : Option (List CalResult) :=
  let level := (l.find? (·.item == 1)).any itemPasses
  let run := need.filter fun i => i == 1 || i == 4 || level
  let got := run.filterMap fun i => l.find? (·.item == i)
  if got.length == run.length then some got else none

/-- REMAP_DONE: the items of the candidate are over. -/
def execRemapDone (t : TileIx) (results : List CalResult) (s : State) : Host.Outcome State Fault Refusal :=
  match (getTile s t).remap with
  | none => .next s
  | some r =>
    match remapResults (remapItems s t r.cand) results with
    | none => .next s
    | some l =>
      let s1 := l.foldl (fun s y => itemDone s (t * 18 + r.cand) none y) s
      let ok := l.all itemPasses && !isRetired s t r.cand
      let s2 :=
        if ok then joinSlice s1 t r
        else
          let s3 := updTile s1 t fun x => { x with remap := none }
          let s4 := if isRetired s t r.cand then showFree (signal s3 0x03 (t * 18 + r.cand) 0xFFFF) t
            else if flag s glb R.GLB_CAL_CFG_AUTORET then retireFree s3 t r.cand else showFree s3 t
          tryCand s4 t { r with tried := r.cand :: r.tried } none
      let s5 := nextRemap 32 (retireWaiting s2 t) t
      match r.job with
      | some j => .next (calFinish s5 j)
      | none => .next s5

/-- REMAP (R383). -/
def execRemap (j : Nat) (s : State) : Host.Outcome State Fault Refusal :=
  match jobNew s j 0x51 with
  | none => .next s
  | some x =>
    let t := bits (arg x 0) 0 6
    let k := bits (arg x 0) 8 4
    let want := bits (arg x 0) 16 5
    let y := getTile s t
    if t < 48 && (tileLive s t || calRunsOn s t || y.remap.isSome || y.remapQ != []) then .next (endJob s j 0x0301 0 0 0)
    else if 47 < t || (decide (17 < want) && want != 0x1F) then .next (endJob s j 0x0101 0 0 0)
    else if want != 0x1F && !(freeSlices s t).contains want then .next (endJob s j 0x0180 0 0 0)
    else if want == 0x1F && freeSlices s t == [] then
      .next (endJob (setF s (tileB t) R.TIL_XPT_STAT_NOSPARE) j 0x0501 (sliceOf s t k) 0 0)
    else
      let r : RemapRun := ⟨k, 0, [], sliceOf s t k, some j, bit x.flags 0⟩
      .next (showCal (startRemap (setWork s j [] [] []) t r (if want == 0x1F then none else some want)))

end Sys2Proof.Machine
end

