-- ==== Sys2Proof/Machine/Power.lean ====
section
/-! DEFINITION. Power states, the housekeeping round, thermal states and throttling (R391 to R406, R456;
spec/15_thermal_and_power.md). -/
namespace Sys2Proof.Machine

def updThm (s : State) (f : Thermal → Thermal) : State := { s with thm := f s.thm }

/-! ### Power states (R391 to R395) -/

/-- Slices named by the timing PLL of a sector, free of every other dependency (R58). -/
def freeOfDeps (s : State) : List (Nat × Nat) := allSlices.filter fun x => !depHeld s x.1 x.2 && !pllLost s (sectorOf x.1)

/-- R393: the device is quiet. -/
def quiet (s : State) : Bool :=
  flag s glb R.GLB_ST_STAT_READY && !flag s glb R.GLB_RST_STAT_BUSY && !allTiles.any (tileLive s) && (List.range 4).all (fun q => digState s q == 0) &&
    s.rings.jobs == [] && s.rings.waiting == [] && allLaunches s == [] && s.ring.snaps == [] && s.boot.startCal.isNone &&
    s.tiles.all (fun e => e.2.remap.isNone && e.2.remapQ == [] && e.2.trackResid.all (· == 0)) && s.slices.all (fun e => e.2.glideTrim.all (· == 0)) && memQuiet s

/-- The state of the sampled comparators restarts as WATCH begins or ends (R40). -/
def restartSampled (s : State) : State :=
  (allSlices.filter fun x => rd s (sliceB x.1 x.2) R.CHN_CMP_CTL_MODE == 2).foldl (fun s x => cmpRestart s x.1 x.2) s

/-- A request for DORMANT or WATCH (R393): refused, or the entry begins: every slice safe, the link idle. From DORMANT or
WATCH the state changes at once. -/
def powerGo (s : State) (target : Nat) : State :=
  if 2 ≤ target then s
  else if !powerReady s then
    if flag s glb R.PWR_STAT_CHANGING then s else restartSampled (wr s glb R.PWR_STAT_STATE target)
  else if !quiet s || flag s glb R.PWR_STAT_CHANGING then setF s glb R.PWR_STAT_REFUSED
  else
    let s1 := safeEnterAll (setF s glb R.PWR_STAT_CHANGING) allSlices R.CHN_STAT_SC_DEP
    if flag s glb R.HAT_LINK_STAT_UP then linkLost s1 else setF s1 glb R.HAT_LINK_STAT_LDOWN

/-- `PWR_CTL` as written: TARGET 0b11 is stored as 0b10. -/
def pwrCtlStore (s : State) (v : Nat) : State :=
  wr (wr (wr (wr (wr s glb R.PWR_CTL_TARGET (min 2 (bits v 0 2))) glb R.PWR_CTL_WK_CMP (bits v 3 1)) glb R.PWR_CTL_WK_TOUCH (bits v 4 1))
    glb R.PWR_CTL_WK_CARD (bits v 5 1)) glb R.PWR_CTL_WK_TIMER (bits v 6 1)

/-- POWER_GO: a write of `PWR_CTL` with GO = 1. -/
def execPowerGo (v : Word) (s : State) : Host.Outcome State Fault Refusal :=
  let k := fun (s : State) => let s1 := pwrCtlStore s v.toNat
    powerGo s1 (rd s1 glb R.PWR_CTL_TARGET)
  .next (if powerReady s then barWrite s none 0x420000 k else if sealed s then s else k s)

/-- The timing PLLs of the four pin dies stop with DORMANT or WATCH, and run again from a wake on where they lock (R395). -/
def timingClocks (s : State) (on : Bool) : State :=
  (List.range 4).foldl (fun s q => if on && pllLost s q then s else clocksRun s q on) s

/-- POWER_ENTRY_DONE: the PLLs stop and HBM is in self-refresh, which waits for its requests, a change, a retrain or a repair (R332);
the ring transmitters are off. -/
def execPowerEntryDone (s : State) : Host.Outcome State Fault Refusal :=
  if !powerReady s || !flag s glb R.PWR_STAT_CHANGING || !memIdle s then .next s
  else
    let s1 := clrF (wr (memSleep s) glb R.PWR_STAT_STATE (rd s glb R.PWR_CTL_TARGET)) glb R.PWR_STAT_CHANGING
    let s2 := (List.range 4).foldl (fun s q => updDig s q fun d => { d with pllOn := false }) { s1 with wakeReq := 0 }
    let s3 := updRing (clrF (clrF s2 glb R.TIM_LINK_STAT_IN) glb R.TIM_LINK_STAT_OUT) fun r => { r with req := none, fwd := [], samples := [] }
    .next (showQual (timingClocks (restartSampled s3) false))

/-- WAKE_TIMER_EXPIRY. -/
def execWakeTimerExpiry (s : State) : Host.Outcome State Fault Refusal :=
  .next (if flag s glb R.PWR_CTL_WK_TIMER then askWake s 5 else s)

/-- WAKE: the first enabled cause starts the wake. -/
def execWake (s : State) : Host.Outcome State Fault Refusal :=
  .next (if powerReady s || s.wakeReq == 0 || flag s glb R.PWR_STAT_CHANGING then s
  else setF (wr { s with wakeReq := 0 } glb R.PWR_STAT_WCAUSE s.wakeReq) glb R.PWR_STAT_CHANGING)

/-- WAKE_DONE: READY; `SC_DEP` clears; ring time is steered out of holdover if a reference is present (R340). -/
def execWakeDone (s : State) : Host.Outcome State Fault Refusal :=
  if powerReady s || !flag s glb R.PWR_STAT_CHANGING then .next s
  else
    let s1 := timingClocks (memWake (clrF (wr (restartSampled s) glb R.PWR_STAT_STATE 2) glb R.PWR_STAT_CHANGING)) true
    let s2 := causeClear s1 (freeOfDeps s1) R.CHN_STAT_SC_DEP
    if flag s2 glb R.TIM_REF_STAT_HOLD then .next (showQual s2)
    else
      let d := freshInt s2 (usec 1000)
      .next (showQual (setF (updRing d.2 fun r => { r with slew := d.1, holdSlew := true }) glb R.TIM_STAT_SLEWING))

/-! ### Sensors (R396, R397, R398) -/

/-- Neighbours of a sensor. -/
def sensorNear (i : Nat) : List Nat :=
  if i < 24 then
    let b := i / 6 * 6
    let k := i % 6
    ([(k / 3, k % 3 + 1), (1 - k / 3, k % 3)] ++ (if k % 3 = 0 then [] else [(k / 3, k % 3 - 1)])).filterMap fun x =>
      if x.2 < 3 then some (b + x.1 * 3 + x.2) else none
  else ((List.range 4).map fun j => (i - 24) / 4 * 4 + 24 + j).filter (· != i)

/-- The sector in which a sensor lies. -/
def sensorSector (i : Nat) : Nat := if i < 24 then i / 6 else (i - 24) / 4

def sensorsOf (q : Nat) : List Nat := (List.range 6).map (6 * q + ·) ++ (List.range 4).map (24 + 4 * q + ·)

/-- The sensor has failed. -/
def sensorFailed (s : State) (i : Nat) : Bool :=
  if i < 32 then bit (rd s glb R.THM_SFAIL_LO_FAIL) i else bit (rd s glb R.THM_SFAIL_HI_FAIL) (i - 32)

/-- A sensor's judgement in a round: raw reading, failed at once (or before), rounds suspect in a row, used value before
them. -/
structure SensorNow where
  raw : Int
  bad : Bool
  count : Nat
  held : Int
deriving DecidableEq, Repr

/-- R397: failed at once, and suspect. -/
def sensorNow (s : State) (temps : List Int) (valid : List Bool) (i : Nat) : SensorNow :=
  let raw := fun (i : Nat) => temps.getD i 0
  let bad := fun (i : Nat) => sensorFailed s i || !valid.getD i false || decide (raw i < -400) || decide (1500 < raw i) ||
    (decide (24 ≤ i) && s.laneDown.contains ((i - 24) / 4))
  let suspect := !bad i && decide (2 ≤ ((sensorNear i).filter fun j => !bad j && decide (80 < (raw i - raw j).natAbs)).length)
  let old := mapGet? s.thm.suspect i
  let before := if s.thm.temps == [] then raw i else signed 16 (rdi s glb R.THM_SENS_USED i)
  ⟨raw i, bad i, if suspect then (old.map (·.1)).getD 0 + 1 else 0, (old.map (·.2)).getD before⟩

/-- The greatest of a list of integers. -/
def maxOf : List Int → Option Int
  | [] => none
  | a :: l => match maxOf l with
    | none => some a
    | some m => some (if a < m then m else a)

/-- The used value of a sensor, from every sensor's judgement. -/
def sensorUsed (l : List SensorNow) (i : Nat) : Int :=
  let x := fun (i : Nat) => l.getD i ⟨0, true, 0, 0⟩
  let failed := fun (i : Nat) => (x i).bad || decide (4 ≤ (x i).count)
  let own := fun (i : Nat) => if 0 < (x i).count && decide ((x i).raw < (x i).held) then (x i).held else (x i).raw
  if !failed i then own i
  else match maxOf (((sensorNear i).filter fun j => !failed j).map own) with
    | some m => m + 50
    | none => match maxOf (((List.range 40).filter fun j => !failed j).map own) with
      | some m => m + 50
      | none => 1250

/-- A THERMAL event of a sector (R405). -/
def thermalEvt (s : State) (q kind : Nat) : State := postEvt s 0x05 q kind (unsigned 32 (signed 16 (rdi s glb R.THM_SEC_T_T q)))

/-- The sensors of a round: raw and used values, failures, sector temperatures. -/
def sensorRound (s : State) (temps : List Int) (valid : List Bool) : State :=
  let l := (List.range 40).map (sensorNow s temps valid)
  let x := fun (i : Nat) => l.getD i ⟨0, true, 0, 0⟩
  let failed := fun (i : Nat) => (x i).bad || decide (4 ≤ (x i).count)
  let used := (List.range 40).map (sensorUsed l)
  let fresh := (List.range 40).filter fun i => failed i && !sensorFailed s i
  let s1 := (List.range 40).foldl (fun s i =>
    let s1 := if valid.getD i false then wri s glb R.THM_SENS_RAW i (unsigned 16 (x i).raw) else s
    wri s1 glb R.THM_SENS_USED i (unsigned 16 (used.getD i 0))) s
  let mask := bitsMask ((List.range 40).filter failed)
  let s2 := wr (wr s1 glb R.THM_SFAIL_LO_FAIL mask) glb R.THM_SFAIL_HI_FAIL (mask / 2 ^ 32)
  let t := (List.range 4).map fun q => (maxOf ((sensorsOf q).map fun i => used.getD i 0)).getD 0
  let s3 := (List.range 4).foldl (fun s q => wri s glb R.THM_SEC_T_T q (unsigned 16 (t.getD q 0))) s2
  let s4 := updThm (wr s3 glb R.THM_TMAX_TMAX (unsigned 16 ((maxOf t).getD 0))) fun y =>
    { y with
      suspect := ((List.range 40).filter fun i => !(x i).bad && 0 < (x i).count && decide ((x i).count < 4)).map fun i => (i, (x i).count, (x i).held)
      temps := (t :: y.temps).take 19 }
  fresh.foldl (fun s i => signal (thermalEvt s (sensorSector i) (0x09 + i * 256)) 0x0F i 0) s4

/-! ### Thermal states (R400 to R405) -/

def setThm (s : State) (q v : Nat) : State :=
  wr s glb (match q with | 0 => R.THM_STAT_S0 | 1 => R.THM_STAT_S1 | 2 => R.THM_STAT_S2 | _ => R.THM_STAT_S3) v

def riseField (q : Nat) : Field := match q with | 0 => R.THM_STAT_R0 | 1 => R.THM_STAT_R1 | 2 => R.THM_STAT_R2 | _ => R.THM_STAT_R3

/-- The last temperatures of a sector, newest first. -/
def sectorTemps (s : State) (q : Nat) : List Int := s.thm.temps.map fun l => l.getD q 0

/-- A condition has held in each of the last three rounds. -/
def lastThree {α : Type} (l : List α) (p : α → Bool) : Bool := decide (3 ≤ l.length) && (l.take 3).all p

/-- The grace timer of a sector stops. -/
def graceStop (s : State) (q : Nat) : State := updThm s fun x => { x with grace := x.grace.filter (· != q) }

/-- Gangs, by leader, with a tile in the sector. -/
def gangsIn (s : State) (q : Nat) : List (Nat × Gang) := s.gangs.filter fun e => gangLive s e.2 && e.2.tiles.any fun t => sectorOf t == q

/-- Enforcement (R401): event ENFORCE, the count, and a thermal hold for each gang of the sector. -/
def enforce (s : State) (q : Nat) : State :=
  let s1 := incF (thermalEvt (graceStop (setThm s q 3) q) q 0x04) glb R.THM_THROTTLES_COUNT
  markDeferred ((gangsIn s1 q).foldl (fun s e => if e.2.thermal || e.2.holds.any (·.thm) then s else seqHold s e.1 true) s1)

/-- R402: the gangs that only this sector held are released. -/
def leaveEnforced (s : State) (q : Nat) : State :=
  ((gangsIn s q).filter fun e => !e.2.tiles.any fun t => sectorEnforced s (sectorOf t)).foldl (fun s e => thermalRelease s e.1)
    (thermalEvt s q 0x05)

/-- R403: entry into CRITICAL: every slice safe, the detector, then each sector below ENFORCED, this one too, is enforced. -/
def criticalEntry (s : State) (q : Nat) : State :=
  let s1 := levelOn (safeEnterAll (thermalEvt s q 0x06) allSlices R.CHN_STAT_SC_CRIT) 0x11 q 0
  setThm ((List.range 4).foldl (fun s r => if sectorEnforced s r then s else enforce s r) s1) q 4

/-- `SC_CRIT` clears when no sector is CRITICAL. -/
def criticalExit (s : State) (q : Nat) : State :=
  let s1 := levelOff (thermalEvt (setThm s q 3) q 0x07) 0x11 q
  if (List.range 4).any fun r => thmState s1 r == 4 then s1 else causeClear s1 allSlices R.CHN_STAT_SC_CRIT

/-- A sector meets the condition to enter CRITICAL. -/
def criticalDue (s : State) (q : Nat) : Bool := lastThree (sectorTemps s q) (fun t => decide (1200 ≤ t)) && thmState s q != 4

/-- A sector's state in a round, but for entry to CRITICAL, which follows every sector's own step. -/
def thermalStep (s : State) (q : Nat) : State :=
  let h := sectorTemps s q
  let above := fun (x : Int) => lastThree h fun t => decide (x ≤ t)
  let below := fun (x : Int) => lastThree h fun t => decide (t < x)
  let cur := thmState s q
  if criticalDue s q then s
  else if above 1050 && decide (cur < 2) then
    updThm (thermalEvt (setThm s q 2) q 0x03) fun x => { x with grace := q :: x.grace.filter (· != q) }
  else if above 950 && cur == 0 then thermalEvt (setThm s q 1) q 0x01
  else if cur == 4 && below 1180 then criticalExit s q
  else if cur == 3 && below 1030 then
    let s1 := leaveEnforced (setThm s q 1) q
    if below 930 then thermalEvt (setThm s1 q 0) q 0x02 else s1
  else if cur == 2 && below 1030 then thermalEvt (graceStop (setThm s q 1) q) q 0x05
  else if cur == 1 && below 930 then thermalEvt (setThm s q 0) q 0x02
  else s

/-- The sectors' entries to CRITICAL in a round (R403). -/
def criticalStep (s : State) (q : Nat) : State := if criticalDue s q then criticalEntry s q else s

/-- R404: the rate of rise over 16 rounds, against RISE. -/
def riseStep (s : State) (q : Nat) : State :=
  let h := sectorTemps s q
  let r : Int := rd s glb R.THM_CFG_RISE
  let d := (List.range 3).filterMap fun i => match h[i]?, h[i + 16]? with
    | some a, some b => some ((a - b) * 25)
    | _, _ => none
  if !flag s glb (riseField q) && lastThree d (fun x => decide (r * 4 ≤ x)) then
    levelOn (thermalEvt (setF s glb (riseField q)) q 0x08) 0x10 q 0
  else if flag s glb (riseField q) && lastThree d (fun x => decide (x < (r - 2) * 4)) then levelOff (clrF s glb (riseField q)) 0x10 q
  else s

/-- GRACE_EXPIRY. -/
def execGraceExpiry (q : SectorIx) (s : State) : Host.Outcome State Fault Refusal :=
  .next (if thmState s q == 2 && s.thm.grace.contains q.val then enforce s q else s)

/-! ### Supply monitors and start-up (R399, R456) -/

/-- Nominal reading of a monitor, mV (R399, R433). -/
def nominalMv (j : Nat) : Int :=
  if j < 12 then 750 else if j < 13 then 800 else if j < 16 then 900 else if j < 18 then 1200 else if j < 22 then 1800
  else if j < 26 then 7500 else if j < 30 then -2500 else (Config.vddqNominal : Int)

/-- The reading is within a percentage of nominal. -/
def within (pct j : Nat) (v : Int) : Bool := decide ((v - nominalMv j).natAbs * 100 ≤ pct * (nominalMv j).natAbs)

/-- One limit of a monitor: raised after three rounds outside, cleared after three inside. -/
def monitorStep (s : State) (j pct kind : Nat) (f : Field) : State :=
  let h := s.thm.volts.map fun l => l.getD j 0
  if lastThree h fun v => !within pct j v then levelOn (wri s glb f j 1) kind j (unsigned 16 (h.headD 0))
  else if lastThree h (within pct j) then levelOff (wri s glb f j 0) kind j
  else s

/-- The supply monitors of a round; at start-up, three good rounds in a row set `RAILS` and start the PLLs. -/
def supplyRound (s : State) (volts : List Int) : State :=
  let s1 := updThm s fun x => { x with volts := (volts :: x.volts).take 3 }
  let s2 := (List.range 32).foldl (fun s j =>
    monitorStep (monitorStep (wri s glb R.THM_VMON_MV j (unsigned 16 (volts.getD j 0))) j 5 0x12 R.THM_VMON_OUTW) j 10 0x13 R.THM_VMON_FAULT) s1
  if s2.boot.plls || sealed s2 then s2
  else
    let n := if (List.range 32).all fun j => within 5 j (volts.getD j 0) then s2.boot.rounds + 1 else 0
    let s3 := updBoot s2 fun b => { b with rounds := n, plls := decide (3 ≤ n) }
    if 3 ≤ n then setF s3 glb R.GLB_ST_STAT_RAILS else s3

/-- The stack temperature of a round (R323, R324): the retrain limit of 20 °C has a tolerance of 2 °C. -/
def stackRound (s : State) (t : Int) : State :=
  let s1 := wr (wr s glb R.MEM_TEMP_TEMP (unsigned 16 t)) glb R.MEM_STAT_HOT (b2n (decide (850 < t)))
  let d := (t - signed 16 (rd s glb R.MEM_TEMP_TRAINT)).natAbs
  if d ≤ 180 then s1
  else
    let x := freshNat s1
    if 180 + x.1 % 41 < d then retrainRequest x.2 else x.2

/-- HOUSEKEEPING_ROUND: readings of the 40 sensors and of the stack (0.1 °C), which conversions completed, and the 32
supply readings (mV). -/
def execHousekeepingRound (temps : List Int) (valid : List Bool) (volts : List Int) (s : State) : Host.Outcome State Fault Refusal :=
  if s.boot.por then .next s
  else
    let was := (List.range 4).any fun q => thmState s q != 0
    let s1 := sensorRound s temps valid
    let s2 := (List.range 4).foldl criticalStep ((List.range 4).foldl (fun s q => riseStep (thermalStep s q) q) s1)
    let is := (List.range 4).any fun q => thmState s2 q != 0
    let s3 := smbAlert s2 was is
    let s4 := stackRound (supplyRound s3 volts) (temps.getD 40 0)
    .next (if is then askWake s4 6 else s4)

end Sys2Proof.Machine
end

