-- ==== Sys2Proof/Machine/Faults.lean ====
section
/-! DEFINITION. The fault collector: classes, history, reactions, status, SEALED, and injection (R407 to R428, R499;
spec/16_faults_and_injection.md). A waiting signal is a detector with its INFO; above INFO, bit 16 says that the second class
of R408 holds, bit 17 that an injection raised it, bit 18 that its rails disagree. -/
namespace Sys2Proof.Machine

/-! ### Detectors (R407, R408) -/

/-- Instances of each kind; 0 for a kind that names no detector. -/
def detCount (kind : Nat) : Nat :=
  if kind = 0 ∨ 0x28 < kind then 0
  else if kind ≤ 3 then 864
  else [240, 48, 4, 4, 8, 48, 48, 48, 4, 192, 192, 40, 4, 4, 32, 32, 16, 16, 16, 16, 32, 1, 1, 2, 1, 1, 1, 1, 1, 1, 2, 4, 64, 64,
    1, 1, 1].getD (kind - 4) 0

/-- A number that names a detector. -/
def detOk (det : Nat) : Bool := decide (det % 1024 < detCount (det / 1024)) && decide (det < 0x10000)

/-- The sector of a detector instance, where R408 can class it SITE_FATAL or the source acts on a sector. -/
def detSector (det : Nat) : Nat :=
  let i := det % 1024
  match det / 1024 with
  | 0x08 => i / 2
  | 0x14 => i / 4
  | 0x15 => i / 4
  | _ => i

/-- The second class of R408 holds: judged at the source, or here for a raise that has no source. -/
def secondClass (s : State) (det info : Nat) : Bool :=
  let i := det % 1024
  match det / 1024 with
  | 0x02 => bit info 16 || (bit info 18 && freeSlices s (i / 18) == [])
  | 0x0E => willHold s i != info % 2 ^ 16
  | 0x14 => flag s glb R.GLB_ST_STAT_MEMOK
  | 0x27 => rdi s glb R.FLT_KSTAT_LATCHED 0x27 == 1
  | _ => bit info 16

/-- The class of a raise (R408): 0 NOTE, 1 ADVISORY, 2 DEGRADED, 3 SITE_FATAL, 4 DEVICE_FATAL, 5 SEALED. -/
def classOf (s : State) (det info : Nat) : Nat :=
  let two := fun (a b : Nat) => if secondClass s det info then b else a
  match det / 1024 with
  | 0x02 => two 0 2
  | 0x03 => two 0 2
  | 0x04 => two 2 3
  | 0x05 => two 2 3
  | 0x06 => 2
  | 0x07 => 3
  | 0x08 => two 1 3
  | 0x0D => 0
  | 0x0E => two 0 2
  | 0x11 => 2
  | 0x13 => 4
  | 0x14 => two 4 3
  | 0x15 => two 1 3
  | 0x17 => 0
  | 0x18 => 0
  | 0x19 => 0
  | 0x1D => 0
  | 0x1F => 0
  | 0x22 => 2
  | 0x23 => 0
  | 0x26 => 4
  | 0x27 => two 1 5
  | 0x28 => 5
  | _ => 1

/-- The tile and positions named by a SITE_FATAL entry (R418). -/
def detPositions (s : State) (det : Nat) : List (Nat × Nat) :=
  let i := det % 1024
  let whole := fun (t : Nat) => (List.range 16).map fun k => (t, k)
  match det / 1024 with
  | 0x04 => ((List.range 16).filter fun k => (quadSlices i).2.contains (sliceOf s (quadSlices i).1 k)).map fun k => ((quadSlices i).1, k)
  | 0x05 => whole i
  | _ => (tilesOfSector (detSector det)).flatMap whole

/-! ### Statuses and the FAULT pair (R417, R422) -/

/-- `FLT_STAT.LATCHED` and `ASSERT` from the kinds' statuses; the alert of R446 at the rise of ASSERT. -/
def showFaults (s : State) : State :=
  let mask := (List.range 64).foldl (fun m k =>
    if rdi s glb R.FLT_KSTAT_LATCHED k == 1 then setBit m (rdi s glb R.FLT_KSTAT_CLASS k) else m) 0
  let is := (List.range 6).any fun c => bit mask c && (decide (rd s glb R.FLT_CFG_PINCLS ≤ c) || decide (4 ≤ c))
  smbAlert (wr (wr s glb R.FLT_STAT_LATCHED mask) glb R.FLT_STAT_ASSERT (b2n is)) (flag s glb R.FLT_STAT_ASSERT) is

/-- The FAULT pair: none while released in cold reset; else the collector state (R417). -/
def faultPair (s : State) : Option Bool := if s.boot.por then none else some (flag s glb R.FLT_STAT_ASSERT)

/-! ### Reactions (R412 to R416) -/

/-- The DEVICE_FATAL reaction: every slice safe, its banks reset (R50), every gang aborted, calibrations ended, viral
signalled (R261). -/
def deviceFatal (s : State) : State :=
  let s0 := allSlices.foldl (fun s x => banksReset s x.1 x.2) (safeEnterAll s allSlices R.CHN_STAT_SC_DEV)
  let s1 := gangsFault s0 allTiles 0x0700
  let js := (s1.rings.jobs.filter fun e => e.2.opcode == 0x50 && e.2.phase == .running).map (·.1)
  setF (showCal (js.foldl (fun s j => endJob s j 0x0700 0 0 0) s1)) glb R.HAT_LINK_STAT_VIRAL

/-- R416: the device is sealed: jobs in flight end, the ring is left, EOT_N is released, TRIG_OUT is driven low (R436). -/
def sealDevice (s : State) (cause : Nat) : State :=
  let s1 := wr (setF s glb R.FLT_STAT_SEALED) glb R.FLT_STAT_SCAUSE cause
  let s2 := (s1.rings.jobs.map (·.1)).foldl (fun s j => endJob s j 0x0700 0 0 0) s1
  let s3 := clrF (clrF (clrF s2 glb R.GLB_IO_STAT_EOT_OUT) glb R.TIM_LINK_STAT_IN) glb R.TIM_LINK_STAT_OUT
  { updRing s3 (fun r => { r with req := none, fwd := [] }) with trigOut := [] }

/-- A DEVICE_FATAL reaction is complete. -/
def reactionOver (s : State) : Bool :=
  allSlices.all (fun x => isSafe s x.1 x.2) && allTiles.all fun t => decide (seqState s t ≤ 1)

/-- Run the reaction of a class. In DORMANT and WATCH a DEVICE_FATAL reaction is complete at the decision. -/
def react (s : State) (det cls : Nat) : State :=
  if cls == 4 then
    let s1 := deviceFatal s
    if powerReady s1 then wr s1 glb R.FLT_STAT_REACT 4 else s1
  else if cls == 5 then sealDevice (wr (deviceFatal s) glb R.FLT_STAT_REACT 5) (if det / 1024 == 0x28 then 1 else 2)
  else s

/-! ### History (R418 to R421) -/

/-- The words of an entry. -/
def entryWords (s : State) (det cls info : Nat) (inj wire reacts : Bool) : List Nat :=
  [det + cls * 2 ^ 16 + b2n inj * 2 ^ 19 + b2n wire * 2 ^ 20 + b2n reacts * 2 ^ 21, info % 2 ^ 16, s.flt.seq % 2 ^ 32,
    rd s glb R.TIM_STAT_QUAL, fracOf s.now, nsOf s.now, secOf s.now % 2 ^ 32, secOf s.now / 2 ^ 32]

/-- Write the entry to the history; an unread entry that it overwrites is counted (R419). -/
def histWrite (s : State) (w : List Nat) : State :=
  let n := s.flt.seq
  let ridx := rd s glb R.FLT_HIST_RIDX_RIDX
  let lost := decide (32 ≤ n) && decide ((n - 32 + 2 ^ 32 - ridx) % 2 ^ 32 < (n + 2 ^ 32 - ridx) % 2 ^ 32)
  let s1 := if lost then incF s glb R.FLT_OVF_OVF else s
  let s2 := (List.range 8).foldl (fun s i => wri s glb R.FLT_HIST_WORD (n % 32 * 8 + i) (w.getD i 0)) s1
  updFlt (wr s2 glb R.FLT_HIST_WIDX_WIDX (n + 1)) fun f => { f with seq := n + 1 }

/-- R420: freeze the first entry of its class or above. -/
def firstFreeze (s : State) (cls : Nat) (w : List Nat) : State :=
  if flag s glb R.FLT_FIRST_CTL_VALID || decide (cls < rd s glb R.FLT_CFG_FIRSTCLS) then s
  else setF ((List.range 8).foldl (fun s i => wri s glb R.FLT_FIRST_WORD i (w.getD i 0)) s) glb R.FLT_FIRST_CTL_VALID

/-- The kind's status at a raise (R422). -/
def kindLatch (s : State) (det cls : Nat) (wire : Bool) : State :=
  let k := det / 1024
  let old := if rdi s glb R.FLT_KSTAT_LATCHED k == 1 then rdi s glb R.FLT_KSTAT_CLASS k else 0
  let s1 := wri (wri (wri s glb R.FLT_KSTAT_LATCHED k 1) glb R.FLT_KSTAT_CLASS k (max old cls)) glb R.FLT_KSTAT_LAST k (det % 1024)
  let s2 := incFi s1 glb R.FLT_KCNT_COUNT k
  if wire then wri s2 glb R.FLT_KSTAT_WIRE k 1 else s2

/-- R418: the sites of a SITE_FATAL entry. -/
def siteFatal (s : State) (det : Nat) : State :=
  ((detPositions s det).filterMap fun x => siteAt s x.1 x.2).foldl (fun s i =>
    wri s glb R.FLT_SITEF_SITES (i / 32) (setBit (rdi s glb R.FLT_SITEF_SITES (i / 32)) (i % 32))) s

/-- R421: the FAULT event, dropped while the event rings cannot be written; the collector's routing to a teller (R219). -/
def faultEvent (s : State) (det cls info seq : Nat) (inj wire reacts : Bool) : State :=
  let s1 := if !bit (rd s glb R.FLT_CFG_EVTCLS) cls then s
    else if linkOpen s then
      postEvt s 0x04 det (cls + b2n wire * 8 + b2n reacts * 16 + seq % 2 ^ 24 * 256) (b2n inj + info % 2 ^ 16 * 2 ^ 16)
    else incF s glb R.HAT_EVT_DROP_DROP
  let n := Config.faultRoute (det / 1024) (det % 1024) % 256
  if n < 192 then raiseTel s1 n 1 else s1

/-- Decide a raise: log it, and run its reaction unless one of its class or graver is in progress (R414). -/
def decideRaise (s : State) (det cls info : Nat) (inj wire : Bool) : State :=
  let now := rd s glb R.FLT_STAT_REACT
  let reacts := now == 7 || decide (now < cls)
  let w := entryWords s det cls info inj wire reacts
  let seq := s.flt.seq
  let s1 := kindLatch (firstFreeze (histWrite s w) cls w) det cls wire
  let s2 := showFaults (if cls == 3 then siteFatal s1 det else s1)
  let s3 := faultEvent s2 det cls info seq inj wire reacts
  if reacts then react s3 det cls else s3

/-- A raise decided at once: kinds 0x27 at a load of the safety image, and 0x28 (R411, R416). -/
def raiseNow (s : State) (det info : Nat) : State := decideRaise s det (classOf s det info) info false false

/-! ### Source actions of an injection (R413, R424) -/

/-- What the source does when the detector is raised, apart from the detector itself. Kinds that only report a happening do
nothing, and no measured quantity changes. -/
def sourceAct (s : State) (det info : Nat) : State :=
  let i := det % 1024
  match det / 1024 with
  | 0x01 => overcurrent s (i / 18) (i % 18)
  | 0x02 => sliceMonitorFail s (i / 18) (i % 18) 0
  | 0x04 => interpolatorBankLost s i
  | 0x06 => if digState s i != 0 then digStopNow s i 4 0 true else s
  | 0x07 => sectorStop s i
  | 0x08 => levelReferenceRetired s (i / 2) (i % 2)
  | 0x0D => telHalt s i info
  | 0x0F =>
    let s1 := if i < 32 then wr s glb R.THM_SFAIL_LO_FAIL (setBit (rd s glb R.THM_SFAIL_LO_FAIL) i)
      else wr s glb R.THM_SFAIL_HI_FAIL (setBit (rd s glb R.THM_SFAIL_HI_FAIL) (i - 32))
    if sensorFailed s i then s else thermalEvt s1 (sensorSector i) (0x09 + i * 256)
  | 0x11 =>
    (List.range 4).foldl (fun s r => if sectorEnforced s r then s else enforce s r) (safeEnterAll s allSlices R.CHN_STAT_SC_CRIT)
  | 0x14 => if flag s glb R.GLB_ST_STAT_MEMOK then homeLost s (i / 4) else s
  | _ => s

/-- What the source undoes when an injected level condition ceases and the real one does not hold. -/
def sourceClear (s : State) (det : Nat) : State :=
  if s.flt.real.contains det then s
  else match det / 1024 with
    | 0x07 => causeClear s ((sectorSlices (det % 1024)).filter fun x => !depHeld s x.1 x.2) R.CHN_STAT_SC_DEP
    | 0x11 =>
      if (List.range 4).any (fun q => thmState s q == 4) || s.flt.points.any (fun p => p.inForce && p.det / 1024 == 0x11) then s
      else causeClear s allSlices R.CHN_STAT_SC_CRIT
    | _ => s

/-- An injected raise: the source acts, and the signal waits with INFO from PARAM. -/
def injectRaise (s : State) (det info : Nat) : State :=
  let s1 := sourceAct (updFlt s fun f => { f with signals := [] }) det info
  let added := s1.flt.signals
  let sec := added.any fun x => x.1 == det && bit x.2 16
  updFlt s1 fun f =>
    { f with
      real := if s.flt.real.contains det then f.real else f.real.filter (· != det)
      signals := s.flt.signals ++ added.filter (fun x => x.1 != det) ++ [(det, info % 2 ^ 16 + (if sec then 2 ^ 16 else 0) + 2 ^ 17)] }

/-! ### Injection points (R423 to R426) -/

def pointOf (s : State) (det : Nat) : Option InjPoint := s.flt.points.find? fun p => p.det == det

/-- Show the armed points. -/
def showPoints (s : State) (kind : Nat) : State :=
  let n := s.flt.points.length
  let m := (s.flt.points.filter fun p => !p.inForce).length
  wri (wr (wr s glb R.FLT_INJ_STAT_ARMED n) glb R.FLT_INJ_STAT_PENDING m) glb R.FLT_KSTAT_INJ kind
    (b2n (s.flt.points.any fun p => p.det / 1024 == kind))

/-- A point is cleared: its output falls unless the real condition holds it; a job whose arm has had no effect is aborted. -/
def dropPoint (s : State) (det : Nat) : State :=
  match pointOf s det with
  | none => s
  | some p =>
    let s1 := updFlt s fun f =>
      { f with
        points := f.points.filter fun x => x.det != det
        signals := f.signals.filter fun x => !(x.1 == det && bit x.2 17)
        raised := if f.real.contains det then f.raised else f.raised.filter (· != det)
        wires := if p.inForce && bit p.param 63 then f.wires.filter (· != det) else f.wires }
    let s2 := if p.inForce then sourceClear s1 det else s1
    endJob? (showActive (showPoints s2 (det / 1024)) (det / 1024)) p.job 0x0300 0 0 0

/-- A point comes into force: it raises its output unless that is raised already; a persistent arm's job is complete. -/
def pointForce (s : State) (p : InjPoint) : State :=
  let s1 := updFlt s fun f =>
    { f with points := f.points.map fun x => if x.det == p.det then { x with inForce := true, job := if p.persistent then none else x.job } else x }
  let s2 :=
    if bit p.param 63 then
      updFlt s1 fun f => { f with wires := p.det :: f.wires.filter (· != p.det), signals := f.signals ++ [(p.det, p.param % 2 ^ 16 + 2 ^ 17 + 2 ^ 18)] }
    else if s1.flt.raised.contains p.det || s1.flt.real.contains p.det then s1
    else injectRaise s1 p.det p.param
  let s3 := showPoints s2 (p.det / 1024)
  if p.persistent then endJob? s3 p.job 0 0 0 0 else s3

/-- The point is armed, in place of an earlier arm; an output held raised stays so through an untimed replacement. -/
def armPoint (s : State) (p : InjPoint) : State :=
  let held := !p.timed && s.flt.raised.contains p.det
  let s1 := dropPoint s p.det
  let s2 := updFlt s1 fun f =>
    { f with points := f.points ++ [p], raised := if held && !f.raised.contains p.det then f.raised ++ [p.det] else f.raised }
  if p.timed then showPoints s2 (p.det / 1024) else pointForce s2 p

/-- INJECT (R425). -/
def execInjectJob (j : Nat) (s : State) : Host.Outcome State Fault Refusal :=
  match jobNew s j 0x70 with
  | none => .next s
  | some x =>
    let det := bits (arg x 0) 0 16
    let mode := bits (arg x 0) 16 2
    let timed := bit (arg x 0) 18
    let t := argAt x 1
    let param := arg x 3
    if !detOk det || mode == 3 || bits param 16 47 != 0 then .next (endJob s j 0x0190 0 0 0)
    else if !flag s glb R.FLT_INJ_CTL_EN || (decide (0x27 ≤ det / 1024) && !flag s glb R.FLT_INJ_CTL_SEALOK) then
      .next (endJob s j 0x0191 0 0 0)
    else if timed && decide (t < s.now + usec 2) then .next (endJob s j 0x0390 0 0 0)
    else if mode != 0 && decide (16 ≤ s.flt.points.length) && (pointOf s det).isNone then .next (endJob s j 0x0391 0 0 0)
    else if mode == 0 then .next (endJob (dropPoint s det) j 0 0 0 0)
    else .next (armPoint (setWork s j [] [] []) ⟨det, mode == 2, timed, t, param, false, false, some j⟩)

/-- INJECTION_IN_FORCE: the first collector sample at or after T. -/
def execInjectionInForce (det : Nat) (s : State) : Host.Outcome State Fault Refusal :=
  match pointOf s det with
  | none => .next s
  | some p => .next (if p.inForce then s else pointForce { s with now := max s.now p.t } p)

/-- INJECT_DISALL: a write of `FLT_INJ_CTL.DISALL`. -/
def disarmAll (s : State) : State := (s.flt.points.map (·.det)).foldl dropPoint s

def execInjectDisall (s : State) : Host.Outcome State Fault Refusal :=
  .next (barWrite s none 0x400018 disarmAll)

/-! ### The collector's sample (R409 to R411, R414, R426) -/

/-- A raise to decide: detector, class, INFO, INJ, WIRE. -/
structure Raise where
  det : Nat
  cls : Nat
  info : Nat
  inj : Bool
  wire : Bool
deriving DecidableEq, Repr

/-- The one raise of a detector from its signals in a sample: the real condition's INFO, else the injection's (R426), in the
gravest class that a signal of it has. -/
def mergeRaise (s : State) (det : Nat) : Raise :=
  let l := s.flt.signals.filter fun x => x.1 == det
  let real := l.filter fun x => !bit x.2 17 && !bit x.2 18
  let inj := l.filter fun x => bit x.2 17
  let from_ := if real != [] then real else if inj != [] then inj else l
  let x := from_.headD (det, 0)
  ⟨det, (from_.map fun y => classOf s det y.2).foldl max 0, x.2 % 2 ^ 16, inj != [] && real == [] && !s.flt.real.contains det, l.any fun x => bit x.2 18⟩

/-- Gravest class first, then ascending detector (R414). -/
def raiseBefore (a b : Raise) : Bool := decide (b.cls < a.cls) || (a.cls == b.cls && decide (a.det ≤ b.det))

def insertRaise (a : Raise) : List Raise → List Raise
  | [] => [a]
  | b :: l => if raiseBefore a b then a :: b :: l else b :: insertRaise a l

def sortRaises (l : List Raise) : List Raise := l.foldr insertRaise []

/-- One-shot arms whose sample this was are spent (R425). -/
def spendShots (s : State) : State :=
  (s.flt.points.filter fun p => p.inForce && !p.persistent).foldl (fun s p => dropPoint (endJob? s p.job 0 0 0 0) p.det) s

/-- The outputs that stay raised after the sample: level conditions, and points held (R422, R423). -/
def showRaised (s : State) (dets : List Nat) : State :=
  let s1 := updFlt s fun f => { f with raised := f.raised ++ dets.filter fun d => !f.raised.contains d && (f.real.contains d || injHeld s d) }
  dets.foldl (fun s d => showActive s (d / 1024)) s1

/-- DETECTOR_RAISE: one sample of the collector. -/
def execDetectorRaise (s : State) : Host.Outcome State Fault Refusal :=
  if s.boot.por || (s.flt.signals == [] && s.flt.points.all fun p => !p.inForce || p.persistent) then .next s
  else
    let dets := (s.flt.signals.map (·.1)).eraseDups
    let l := sortRaises (dets.map (mergeRaise s))
    let s1 := updFlt s fun f => { f with signals := [] }
    let s2 := l.foldl (fun s r => decideRaise s r.det r.cls r.info r.inj r.wire) s1
    .next (spendShots (showRaised s2 dets))

/-- RAIL_DISAGREEMENT: rails that disagree in 2 samples, or agree again. -/
def execRailDisagreement (det : Nat) (on : Bool) (s : State) : Host.Outcome State Fault Refusal :=
  if !detOk det || s.flt.wires.contains det == on then .next s
  else if on then
    let d := freshNat s
    .next (updFlt d.2 fun f => { f with wires := f.wires ++ [det], signals := f.signals ++ [(det, d.1 % 2 ^ 16 + 2 ^ 18)] })
  else .next (showActive (updFlt s fun f => { f with wires := f.wires.filter (· != det) }) (det / 1024))

/-- COLLECTOR_DUAL_RAIL: the device is SEALED. -/
def execCollectorDualRail (s : State) : Host.Outcome State Fault Refusal :=
  .next (if s.boot.por then s else raiseNow s (detNo 0x28 0) 0)

/-- REACTION_COMPLETE. -/
def execReactionComplete (s : State) : Host.Outcome State Fault Refusal :=
  .next (if rd s glb R.FLT_STAT_REACT == 4 && reactionOver s then wr s glb R.FLT_STAT_REACT 7 else s)

/-! ### Clearing (R420, R422) -/

/-- A write of 1 to LATCHED or WIRE of a kind: ignored while the kind is ACTIVE, and never clears SEALED. When no
DEVICE_FATAL status is left, `SC_DEV` clears (R58). -/
def kstatClear (s : State) (k : Nat) (latched wire : Bool) : State :=
  if kindActive s k || s.flt.signals.any (fun x => x.1 / 1024 == k) then s
  else
    let s1 := if latched && rdi s glb R.FLT_KSTAT_CLASS k != 5 then wri (wri s glb R.FLT_KSTAT_LATCHED k 0) glb R.FLT_KSTAT_CLASS k 0 else s
    let s2 := showFaults (if wire && rdi s glb R.FLT_KSTAT_CLASS k != 5 then wri s1 glb R.FLT_KSTAT_WIRE k 0 else s1)
    if fatalLatched s && !fatalLatched s2 then causeClear s2 allSlices R.CHN_STAT_SC_DEV else s2

def execKstatClear (k : Fin 64) (latched wire : Bool) (s : State) : Host.Outcome State Fault Refusal :=
  .next (barWrite s none (0x400100 + 4 * k) fun s => kstatClear s k latched wire)

/-- FIRST_RELEASE: the record is free for the next entry. -/
def execFirstRelease (s : State) : Host.Outcome State Fault Refusal :=
  .next (barWrite s none 0x400014 fun s => clrF s glb R.FLT_FIRST_CTL_VALID)

end Sys2Proof.Machine
end

