-- ==== Sys2Proof/Machine/RegMap.lean ====
section
/-! DEFINITION. The register map: which block and which fields lie at a BAR0 offset, and the value of a register (R4, R465 to
R472; spec/19_register_map.md). Fields that only mirror other state are computed here. -/
namespace Sys2Proof.Machine

/-- A register block (R465). -/
inductive Blk
  | glb | site (i : Nat) | hat | sq (q : Nat) | ring (r : Nat) | xlt | ctx (k : Nat) | tim | flt | thm | pwr | mem
  | sec (q : Nat) | tile (t : Nat) | teller (n : Nat) | fret (t k f : Nat) | slice (t p : Nat)
deriving DecidableEq, Repr

/-- The block of a tile offset (R470, R472). -/
def tileBlk (t o : Nat) : Blk :=
  if 0x10000 ≤ o then .slice t ((o - 0x10000) / 0x400)
  else if 0x8000 ≤ o ∧ o < 0xC000 then .fret t ((o - 0x8000) / 0x400) ((o - 0x8000) % 0x400 / 0x40)
  else if 0x4000 ≤ o ∧ o < 0x4400 then .teller (4 * t + (o - 0x4000) / 0x100)
  else .tile t

/-- The block that holds a BAR0 offset; none where R465 maps no register table. -/
def blkOf (a : Nat) : Option Blk :=
  if a < 0x100000 then some (if 0x4000 ≤ a ∧ a < 0x6000 then .site ((a - 0x4000) / 0x20) else .glb)
  else if a < 0x101000 then some .hat
  else if a < 0x105000 then some (.sq ((a - 0x101000) / 0x40))
  else if a < 0x109100 then some (.ring ((a - 0x105000) / 0x40))
  else if 0x200000 ≤ a ∧ a < 0x203000 then some (if 0x201000 ≤ a then .ctx ((a - 0x201000) / 0x80) else .xlt)
  else if 0x300000 ≤ a ∧ a < 0x300100 then some .tim
  else if 0x400000 ≤ a ∧ a < 0x400800 then some .flt
  else if 0x410000 ≤ a ∧ a < 0x410300 then some .thm
  else if 0x420000 ≤ a ∧ a < 0x420100 then some .pwr
  else if 0x800000 ≤ a ∧ a < 0x800100 then some .mem
  else if 0x1000000 ≤ a ∧ a < 0x1400000 then some (.sec ((a - 0x1000000) / 0x100000))
  else if 0x2000000 ≤ a ∧ a < 0x2600000 then
    if 0x14800 ≤ (a - 0x2000000) % 0x20000 then none else some (tileBlk ((a - 0x2000000) / 0x20000) ((a - 0x2000000) % 0x20000))
  else none

/-- Where a block's fields start. -/
def blkBase : Blk → Nat
  | .site i => siteB i
  | .sq q => sqB q
  | .ring r => cqB r
  | .ctx k => ctxB k
  | .sec q => secB q
  | .tile t => tileB t
  | .teller n => telB n
  | .fret t k f => fretB t k f
  | .slice t p => sliceB t p
  | _ => glb

/-- The fields of a block; the CQ blocks lack the two registers that only EVRs have (R287). -/
def blkTable : Blk → List Field
  | .glb => R.glbTable
  | .site _ => R.siteTable
  | .hat => R.hatTable
  | .sq _ => R.sqTable
  | .ring r => if r < 256 then R.cqTable.filter fun f => decide (f.off < 0x28) else R.cqTable
  | .xlt => R.xltTable
  | .ctx _ => R.ctxTable
  | .tim => R.timTable
  | .flt => R.fltTable
  | .thm => R.thmTable
  | .pwr => R.pwrTable
  | .mem => R.memTable
  | .sec _ => R.secTable
  | .tile _ => R.tilTable
  | .teller _ => R.telTable
  | .fret .. => R.fretTable
  | .slice .. => R.chnTable

/-- The element of a field at offset `o` of its block; `CHN_ASSAY[0]` does not exist (R471). -/
def fieldElem (b : Blk) (o : Nat) (f : Field) : Option Nat :=
  let slice := match b with
    | .slice .. => o == 0x300
    | _ => false
  if f.off ≤ o ∧ (o - f.off) % f.stride = 0 ∧ (o - f.off) / f.stride < f.count ∧ !slice then some ((o - f.off) / f.stride) else none

/-- The fields of the register at offset `a`, with their elements. -/
def regFields (b : Blk) (a : Nat) : List (Field × Nat) :=
  (blkTable b).filterMap fun f => (fieldElem b (a - blkBase b) f).map fun i => (f, i)

/-! ### Values that mirror other state -/

/-- A tile is ungated (R392). -/
def ungated (s : State) (t : Nat) : Bool :=
  tileLive s t || (getTile s t).remap.isSome || s.boot.startCal.isSome || s.rings.jobs.any fun e =>
    e.2.phase == .running && (((e.2.opcode == 0x11 || e.2.opcode == 0x50) && bit (arg e.2 (if e.2.opcode == 0x11 then 0 else 1)) t) ||
      ((e.2.opcode == 0x20 || e.2.opcode == 0x21) && e.2.units.any fun c => c / 16 == t))

/-- `PWR_STAT.STATE` (R391, R392): RUN while a tile is ungated or a digitizer PLL runs. -/
def powerState (s : State) : Nat :=
  if !powerReady s then rd s glb R.PWR_STAT_STATE
  else if allTiles.any (ungated s) || (List.range 4).any (fun q => (getDig s q).pllOn) then 3 else 2

/-- Translation-cache entries held by a ring or context. -/
def locksOf (s : State) (who : Nat) : Nat := (s.xlt.atc.filter fun e => e.locks.contains who).length

/-- Jobs fetched from an SQ and not completed. -/
def sqInfl (s : State) (q : Nat) : Nat := (s.rings.jobs.filter fun e => e.2.sq == q).length

/-- An SQ's jobs whose completion has not been written: in the table, or waiting in the pool (R266, R274). -/
def sqOwed (s : State) (q : Nat) : Nat := sqInfl s q + (s.rings.waiting.filter fun w => w.entry.getD 6 0 == q).length

/-- A tile's refill stands at a page for which a page request is out (R308). -/
def refillSusp (s : State) (t : Nat) : Bool :=
  match (getTile s t).pat with
  | none => false
  | some p => match p.src with
    | .home _ => false
    | .host va _ _ _ => s.xlt.groups.any fun g =>
        !g.dead && g.who.contains (700 + t) && g.va == (va + (getTile s t).delivered) / 4096 * 4096

/-- Jobs suspended (R307), a RUN_PATTERN by its refill (R308). -/
def jobsSusp (s : State) : Nat :=
  (s.rings.jobs.filter fun e => e.2.susp).length + (s.gangs.filter fun e => e.2.job.isSome && e.2.tiles.any (refillSusp s)).length

/-- The state with a block's mirroring fields brought up to date. -/
def synced (s : State) : Blk → State
  | .glb => wr s glb R.GLB_IO_STAT_BYP (b2n (bypassLow s))
  | .site i => wr s (siteB i) R.GLB_SITE_STAT_ACTIVE (b2n (siteActive s i))
  | .hat => wr (wr (wr s glb R.HAT_SF_OCC_OCC s.sf.length) glb R.HAT_JOBS_INFL s.rings.jobs.length) glb R.HAT_JOBS_WAIT
      (min 65535 s.rings.waiting.length)
  | .sq q => wr (wr s (sqB q) R.HAT_SQ_STAT_ACTIVE (b2n (decide (0 < sqOwed s q) || flag s (sqB q) R.HAT_SQ_CTL_EN))) (sqB q)
      R.HAT_SQ_INFL_INFL (sqInfl s q)
  | .ring r => wr (wr s (cqB r) R.HAT_CQ_STAT_FULL (b2n (ringFull s (256 + r)))) (cqB r) R.HAT_CQ_WAIT_WAIT
      (if r < 256 then (waitingFor s (256 + r)).length else 0)
  | .xlt =>
    let l := s.xlt.atc
    let s1 := wr (wr s glb R.XLT_ATC_OCC_USED l.length) glb R.XLT_ATC_OCC_LOCKED (l.filter fun e => e.locks != []).length
    let s2 := wr (wr s1 glb R.XLT_PASIDS_PASIDS (heldPasids l).length) glb R.XLT_PRI_OUT_GROUPS (s.xlt.groups.filter fun g => !g.dead).length
    wr (wr (wr s2 glb R.XLT_PRI_OUT_SUSP (jobsSusp s)) glb R.XLT_RES_RD (reserved s false)) glb R.XLT_RES_WR
      (reserved s true)
  | .ctx k => wr (wr s (ctxB k) R.XLT_CTX_STAT_ACTIVE (b2n (ctxInUse s k))) (ctxB k) R.XLT_CTX_STAT_LOCKS (locksOf s (600 + k))
  | .tim => wrTime s glb R.TIM_NOW0_FRAC R.TIM_NOW1_NS R.TIM_NOW2_SECL R.TIM_NOW3_SECH s.now
  | .sec q => wr s (secB q) R.DIG_FIR_COEF_COEF (firCode (getDig s q) (rd s (secB q) R.DIG_FIR_IDX_BANK) (rd s (secB q) R.DIG_FIR_IDX_IDX))
  | .pwr => wr (wr s glb R.PWR_STAT_STATE (powerState s)) glb R.PWR_STAT_DIGCLK
      (bitsMask ((List.range 4).filter fun q => (getDig s q).pllOn))
  | .mem => wr (wr s glb R.MEM_STAT_RTACT (b2n (anyRtActive s))) glb R.MEM_STAT_PEND
      (b2n (pointWanted s != rd s glb R.MEM_STAT_CUR || s.shadow.any fun e => e.1 == fieldKey glb R.MEM_CTL_POINT 0))
  | _ => s

/-- What a read of a field returns (R7, R11): nothing of a WO field; the pending value of a B field. -/
def readField (s : State) (b : Nat) (f : Field) (i : Nat) : Nat :=
  if f.acc == .wo then 0 else mapGet s.shadow (fieldKey b f i) (rdi s b f i)

/-- Bits above a signed field that read its sign: `DIG_FIR_COEF` [31:18] (R209). -/
def signExt (b : Blk) (a w : Nat) : Nat :=
  match b with
  | .sec q => if a == secB q + R.DIG_FIR_COEF_COEF.off && bit w 17 then w + (2 ^ 32 - 2 ^ 18) else w
  | _ => w

/-- The word of the register at offset `a` of a block. -/
def regWord (s : State) (b : Blk) (a : Nat) : Nat :=
  let s1 := synced s b
  signExt b a ((regFields b a).foldl (fun n x => n + readField s1 (blkBase b) x.1 x.2 * 2 ^ x.1.lsb) 0)

/-- The word of a named register of a block without elements. -/
def wordAt (s : State) (a : Nat) : Nat :=
  match blkOf a with
  | some b => regWord s b a
  | none => 0

end Sys2Proof.Machine
end

