-- ==== Sys2Proof/Machine/Board.lean ====
section
/-! DEFINITION. The outside world: lanes to the pin dies, lock-out, probe card, prober, trigger inputs, and the SMBus
sideband with its fuses (R16, R23, R29, R30, R435 to R448; spec/17_balls_and_outside_world.md,
spec/01_organization.md). -/
namespace Sys2Proof.Machine

/-! ### Lanes (R16, R23, R29, R30) -/

/-- The slices of a tile that no lost dependency holds. -/
def tileFree (s : State) (t : Nat) : List (Nat × Nat) :=
  ((List.range 18).map fun p => (t, p)).filter fun x => !depHeld s x.1 x.2 && !pllLost s (sectorOf t)

/-- R29: three consecutive vectors, of which `vec` is one, had a transfer that failed, down the lane or up. -/
def threeInRow (l : List Nat) (vec : Nat) : Bool :=
  let m := fun (a b : Nat) => l.contains a && l.contains b
  m (vec + 1) (vec + 2) || (decide (1 ≤ vec) && m (vec - 1) (vec + 1)) || (decide (2 ≤ vec) && m (vec - 2) (vec - 1))

/-- A tile-lane transfer of vector `vec` failed twice: the vector is absent, and the underrun rules apply to the gang (R23, R25), or
its results are lost. With three vectors in a row the lane is lost: the tile's channels go to the safe state and its gang aborts. -/
def tileLaneFail (s : State) (t : Nat) (up : Bool) (vec : Nat) : State :=
  let x := getTile s t
  let fails := vec :: x.laneFails.filter fun v => v != vec && decide (vec < v + 256)
  let lost := x.laneLost || threeInRow fails vec
  let s0 := if up then s else laneUnderrun s t vec
  let s1 := updTile s0 t fun x =>
    { x with
      laneFails := fails
      laneLost := lost
      vbuf := if up then x.vbuf else x.vbuf.filter fun e => e.1 != vec
      await := if up then x.await.filter fun a => a.vec != vec else x.await }
  let s2 := signal s1 0x05 t (second (b2n up) lost)
  let s3 := if up && x.await.any (fun a => a.vec == vec) then
      flagSites (setF s2 (tileB t) R.TIL_SEQ_STAT_STARVED) ((List.range 16).filterMap (siteAt s t)).eraseDups R.GLB_SITE_STAT_STARVED
    else s2
  if lost && !x.laneLost then
    gangsFault (safeEnterAll s3 ((List.range 18).map fun p => (t, p)) R.CHN_STAT_SC_DEP) [t] 0x0700
  else s3

/-- TILE_LANE_TRANSFER: the CRC of the transfer and of its repeat. A good transfer brings a lost lane back. -/
def execTileLaneTransfer (t : TileIx) (up : Bool) (vec : Nat) (ok1 ok2 : Bool) (s : State) : Host.Outcome State Fault Refusal :=
  if !ok1 && !ok2 then .next (tileLaneFail s t up vec)
  else if (getTile s t).laneLost then
    let s1 := updTile s t fun x => { x with laneFails := [], laneLost := false }
    .next (causeClear s1 (tileFree s1 t) R.CHN_STAT_SC_DEP)
  else .next s

/-- SECTOR_LANE_TRANSFER: a second failure ends the running capture and blocks the pin die's registers and sensors until a
transfer passes. -/
def execSectorLaneTransfer (q : SectorIx) (up ok1 ok2 : Bool) (s : State) : Host.Outcome State Fault Refusal :=
  if ok1 || ok2 then .next { s with laneDown := s.laneDown.filter (· != q.val) }
  else
    let s1 := signal { s with laneDown := q.val :: s.laneDown.filter (· != q.val) } 0x06 q (b2n up)
    .next (if digState s1 q != 0 then digStopNow s1 q 4 0 true else s1)

/-! ### The grid (R429, R430) -/

/-- Row letters of the ball grid, rows 1 to 54. -/
def rowName (row : Nat) : String :=
  let letter := fun (i : Nat) => String.singleton ("ABCDEFGHJKLMNPTUVWY".toList.getD i ' ')
  if row ≤ 19 then letter (row - 1) else if row ≤ 38 then "A" ++ letter (row - 20) else "B" ++ letter (row - 39)

/-- Row and column of the ball of a logical channel: sector c div 192, place j along its band, depth d from the edge. -/
def channelBall (c : Nat) : Nat × Nat :=
  let j := c % 192 / 4
  let d := [0, 1, 3, 4].getD (c % 4) 0
  match c / 192 with
  | 0 => (d + 1, j + 1)
  | 1 => (j + 1, 54 - d)
  | 2 => (54 - d, 54 - j)
  | _ => (54 - j, d + 1)

/-! ### Pin-die lock-out (R435) -/

/-- PIN_DIE_LOCKOUT: every ball of the sector is held as unpowered; R61 counts its slices as safe. -/
def execPinDieLockout (q : SectorIx) (s : State) : Host.Outcome State Fault Refusal :=
  if s.boot.por || s.lockout.contains q.val then .next s
  else
    let s1 := setF { s with lockout := q.val :: s.lockout } glb R.GLB_IO_STAT_LOCKOUT
    .next ((sectorSlices q).foldl (fun s x => updSlice (markSuspect s x.1 x.2) x.1 x.2 fun y => { y with drive := .off, load := false }) s1)

/-- LOCKOUT_RELEASE. -/
def execLockoutRelease (q : SectorIx) (s : State) : Host.Outcome State Fault Refusal :=
  let s1 := { tapNote s q with lockout := s.lockout.filter (· != q.val) }
  .next (if s.lockout.contains q.val then (sectorSlices q).foldl (fun s x => loadSync s x.1 x.2) s1 else s)

/-! ### The probe card and the prober (R437 to R441) -/

/-- Running PARAMETRIC and CONTACT_CHECK jobs end; channels not yet measured count as aborted. -/
def pmuJobsEnd (s : State) (st : Nat) : State :=
  (s.rings.jobs.filter fun e => e.2.phase == .running && (e.2.opcode == 0x20 || e.2.opcode == 0x21)).foldl (fun s e =>
    let n := fun k => e.2.tally.getD k 0
    if e.2.opcode == 0x20 then endJob s e.1 st (n 0) (n 1) (n 2 + e.2.units.length)
    else endJob s e.1 st (n 0) (n 1 + n 2 * 2 ^ 32) 0) s

/-- The drive lock sets, unless `CONTACT_OVR` holds it clear (R56). -/
def lockDrive (s : State) (t p : Nat) : State :=
  wr s (sliceB t p) R.CHN_STAT_DRIVE_LOCK (b2n (!flag s (sliceB t p) R.CHN_CTL_CONTACT_OVR))

/-- CARD_REMOVAL: every slice safe and locked; gangs and PMU jobs end. -/
def execCardRemoval (s : State) : Host.Outcome State Fault Refusal :=
  if s.boot.por then .next s
  else
    let s1 := setF (clrF (clrF s glb R.GLB_IO_STAT_CARD) glb R.GLB_IO_STAT_CARD_RAW) glb R.GLB_IO_STAT_REMOVED
    let s2 := safeEnterAll (pmuJobsEnd s1 0x03A2) allSlices R.CHN_STAT_SC_CARD
    let s3 := allSlices.foldl (fun s x => loadSync (lockDrive s x.1 x.2) x.1 x.2) s2
    .next (gangsFault s3 allTiles 0x03A2)

/-- CARD_INSERTION: low for 50 ms. -/
def execCardInsertion (s : State) : Host.Outcome State Fault Refusal :=
  if s.boot.por || flag s glb R.GLB_IO_STAT_CARD then .next s
  else
    let s1 := setF (setF (causeClear s allSlices R.CHN_STAT_SC_CARD) glb R.GLB_IO_STAT_CARD) glb R.GLB_IO_STAT_CARD_RAW
    .next (if flag s glb R.PWR_CTL_WK_CARD then askWake s1 4 else s1)

/-- TOUCH_CHANGE: the filtered TOUCH_N is low (touched down) or high. -/
def execTouchChange (down : Bool) (s : State) : Host.Outcome State Fault Refusal :=
  if s.boot.por || flag s glb R.GLB_IO_STAT_TOUCH == down then .next s
  else if down then
    let s1 := incF (setF s glb R.GLB_IO_STAT_TOUCH) glb R.GLB_PRB_CNT_TOUCHES
    .next (if flag s glb R.PWR_CTL_WK_TOUCH then askWake s1 3 else s1)
  else
    let s1 := setEot (clrF s glb R.GLB_IO_STAT_TOUCH) false
    if flag s glb R.GLB_PRB_CTL_LIFTABORT && s.gangs.any (fun e => gangLive s e.2) then
      .next (gangsFault (setF s1 glb R.GLB_IO_STAT_LIFT) allTiles 0x03A3)
    else .next s1

/-- A write of EOT: 1 is ignored while not touched down. -/
def eotWrite (s : State) (v : Bool) : State := if v && !flag s glb R.GLB_IO_STAT_TOUCH then s else setEot s v

/-- EOT_WRITE. -/
def execEotWrite (v : Bool) (s : State) : Host.Outcome State Fault Refusal :=
  .next (barWrite s none 0x1004 fun s => eotWrite s v)

/-- TRIG_IN_EDGE: a digitizer trigger by polarity, and on a rising edge a jump request; ignored in cold reset, DORMANT, WATCH
and SEALED (R436). -/
def execTrigInEdge (i : Fin 4) (rise : Bool) (tau : Nat) (s : State) : Host.Outcome State Fault Refusal :=
  if s.boot.por || !powerReady s || sealed s then .next s
  else
    let s1 := tinTrigger s i rise tau
    .next (if rise then triggerJumpAt s1 i tau else s1)

/-! ### The sideband (R443, R444) -/

/-- CRC-8 of SMBus over a byte list, polynomial 0x07. -/
def crc8 (l : List Nat) : Nat :=
  l.foldl (fun c b => (List.range 8).foldl (fun c _ => if 128 ≤ c then ((c * 2) % 256) ^^^ 0x07 else c * 2) (c ^^^ (b % 256))) 0

/-- The target's address byte, with the direction bit. -/
def smbAddr (s : State) (dir : Nat) : Nat := (0x58 + rd s glb R.GLB_IO_STAT_SMBADDR) * 2 + dir

/-- The sideband answers; none while power-on reset holds. -/
def smbAnswer (s : State) (l : List Nat) : State := { s with resp := l }

/-- A read command: its data, with the count for a block read, and the PEC if the host clocks it. -/
def smbRead (s : State) (code : Nat) (block : Bool) (data : List Nat) (pec : Bool) : State :=
  if s.boot.por then s
  else
    let out := if block then data.length :: data else data
    smbAnswer s (out ++ if pec then [crc8 ([smbAddr s 0, code, smbAddr s 1] ++ out)] else [])

/-- A write command: NACKed (no answer byte) in SEALED, or while fuses burn for a fuse command; discarded for its PEC;
else acknowledged (answer 1) and carried out. -/
def smbWrite (s : State) (fuse : Bool) (pec : Pec) (k : State → State) : State :=
  if s.boot.por then s
  else if sealed s || (fuse && flag s glb R.GLB_SMB_STAT_FUSE_BUSY) then smbAnswer s []
  else if pec == .bad || (pec == .absent && flag s glb R.GLB_SMB_CFG_PECREQ) then smbAnswer (setF s glb R.GLB_SMB_STAT_PECERR) [1]
  else smbAnswer (k s) [1]

/-- IDENT. -/
def execIdent (pec : Bool) (s : State) : Host.Outcome State Fault Refusal :=
  .next (smbRead s 0x01 true (leBytes 4 (wordAt s 0) ++ leBytes 4 (cfgRead s 0x14C) ++ leBytes 4 (cfgRead s 0x150)) pec)

/-- STATUS. -/
def execStatus (pec : Bool) (s : State) : Host.Outcome State Fault Refusal :=
  .next (smbRead s 0x02 true (leBytes 4 (wordAt s 0x100000) ++ leBytes 4 (wordAt s 0x400004) ++ leBytes 2 (wordAt s 0x410008) ++
    leBytes 2 (wordAt s 0x410004) ++ leBytes 1 (wordAt s 0x420004) ++ leBytes 1 (wordAt s 0x1000) ++ [0, 0]) pec)

/-- SMBUS_WAKE. -/
def execSmbusWake (pec : Pec) (s : State) : Host.Outcome State Fault Refusal := .next (smbWrite s false pec fun s => askWake s 1)

/-- FIRST. -/
def execFirst (pec : Bool) (s : State) : Host.Outcome State Fault Refusal :=
  .next (smbRead s 0x04 true ((List.range 8).flatMap fun i => leBytes 4 (rdi s glb R.FLT_FIRST_WORD i)) pec)

/-- KEYSTAT. -/
def execKeystat (pec : Bool) (s : State) : Host.Outcome State Fault Refusal := .next (smbRead s 0x05 false (leBytes 2 (wordAt s 0x3000)) pec)

/-- FUSE_STAT. -/
def execFuseStat (pec : Bool) (s : State) : Host.Outcome State Fault Refusal :=
  .next (smbRead s 0x14 false [rd s glb R.GLB_SMB_STAT_FUSE_BUSY + rd s glb R.GLB_SMB_STAT_FUSE_DONE * 2 +
    rd s glb R.GLB_SMB_STAT_FUSE_ERR * 4] pec)

/-- SMBUS_TIMEOUT: the transaction in progress is abandoned; a command that has come whole is not touched. -/
def execSmbusTimeout (s : State) : Host.Outcome State Fault Refusal := .next s

/-- ALERT_RESPONSE: the address, and the alert is released. -/
def execAlertResponse (s : State) : Host.Outcome State Fault Refusal :=
  .next (if flag s glb R.GLB_SMB_STAT_ALERT && !s.boot.por then smbAnswer (clrF s glb R.GLB_SMB_STAT_ALERT) [smbAddr s 0] else smbAnswer s [])

/-! ### Fuses (R445, R446) -/

def updSmb (s : State) (f : Sideband → Sideband) : State := { s with smb := f s.smb }

/-- FUSE_ARM: 0x5C76 arms one fuse command, another value disarms. -/
def execFuseArm (pec : Pec) (v : BitVec 16) (s : State) : Host.Outcome State Fault Refusal :=
  .next (smbWrite s false pec fun s => updSmb s fun x => { x with armed := v == 0x5C76#16 })

/-- FUSE_ARM_EXPIRY. -/
def execFuseArmExpiry (s : State) : Host.Outcome State Fault Refusal := .next (updSmb s fun x => { x with armed := false })

/-- `FUSE_DONE` or `FUSE_ERR` is set; an alert at its rise. -/
def fuseEnd (s : State) (f : Field) : State := smbAlert (setF s glb f) (flag s glb f) true

/-- A fuse command: it spends the arm, and burns if every condition holds. -/
def fuseCommand (s : State) (code slot : Nat) (bytes : List Nat) (blank : Bool) : State :=
  let s1 := updSmb s fun x => { x with armed := false }
  if s.smb.armed && flag s glb R.GLB_SMB_CFG_FUSE_EN && powerReady s && blank then
    setF (updSmb s1 fun x => { x with burn := some (code, slot, bytes) }) glb R.GLB_SMB_STAT_FUSE_BUSY
  else fuseEnd s1 R.GLB_SMB_STAT_FUSE_ERR

/-- FUSE_KEY: slots 1 to 3, while not programmed. -/
def execFuseKey (pec : Pec) (slot : BitVec 8) (hash : List Nat) (s : State) : Host.Outcome State Fault Refusal :=
  .next (smbWrite s true pec fun s => fuseCommand s 0x11 slot.toNat (hash.map (· % 256))
    (decide (1 ≤ slot.toNat) && decide (slot.toNat ≤ 3) && hash.length == 48 && !bit (rd s glb R.GLB_KEYSTAT_PROG) slot.toNat))

/-- FUSE_REVOKE. -/
def execFuseRevoke (pec : Pec) (slot : BitVec 8) (s : State) : Host.Outcome State Fault Refusal :=
  .next (smbWrite s true pec fun s => fuseCommand s 0x12 slot.toNat []
    (decide (slot.toNat ≤ 3) && !bit (rd s glb R.GLB_KEYSTAT_REVOKED) slot.toNat))

/-- The subsystem IDs in the fuses: vendor in [15:0]. -/
def ssidFuse (s : State) : Nat := s.smb.ssid.getD (s.ssid.getD (Config.fuse 0x2C)) % 2 ^ 32

/-- FUSE_SSID. -/
def execFuseSsid (pec : Pec) (v : Word) (s : State) : Host.Outcome State Fault Refusal :=
  .next (smbWrite s true pec fun s => fuseCommand s 0x13 0 (leBytes 4 v.toNat) (ssidFuse s / 2 ^ 16 == 0))

def keySet (s : State) (f : Field) (slot : Nat) : State := wr s glb f (setBit (rd s glb f) slot)

/-- The revoke fuse of a slot is burned. -/
def keyRevoke (s : State) (slot : Nat) : State :=
  updBoot (keySet s R.GLB_KEYSTAT_REVOKED slot) fun b => { b with misread := b.misread.filter (· != slot) }

/-- FUSE_BURN_DONE: the fuses read back as burned, or not. What a mismatch leaves in them is free; a key slot is then revoked
too. -/
def execFuseBurnDone (ok : Bool) (s : State) : Host.Outcome State Fault Refusal :=
  match s.smb.burn with
  | none => .next s
  | some (code, slot, bytes) =>
    let s1 := clrF (updSmb s fun x => { x with burn := none }) glb R.GLB_SMB_STAT_FUSE_BUSY
    let d := freshNat s1
    let s2 :=
      if code == 0x11 then
        let s3 := keySet s1 R.GLB_KEYSTAT_PROG slot
        if ok then { s3 with keyHash := mapPut s3.keyHash slot bytes }
        else keyRevoke { d.2 with regs := s3.regs, keyHash := mapPut s3.keyHash slot (leBytes 48 d.1) } slot
      else if code == 0x12 then
        if ok then keyRevoke s1 slot
        else if d.1 % 2 == 1 then keyRevoke d.2 slot else d.2
      else if ok then updSmb s1 fun x => { x with ssid := some (leNat bytes) }
      else updSmb d.2 fun x => { x with ssid := some (d.1 % 2 ^ 32) }
    .next (fuseEnd s2 (if ok then R.GLB_SMB_STAT_FUSE_DONE else R.GLB_SMB_STAT_FUSE_ERR))

end Sys2Proof.Machine
end

