-- ==== Sys2Proof/Machine/Jobs.lean ====
section
/-! DEFINITION. Dispatch, NOP_FENCE and the abort of jobs (R273, R278, R282, R401; spec/10_rings_and_doorbells.md). -/
namespace Sys2Proof.Machine

/-! ### Dispatch (R273, R278) -/

/-- A job has completed: its completion is decided and its last write has been made. -/
def jobOver (x : Job) : Bool := (jobDone x).isSome

/-- R273 items 1 and 4: earlier descriptors of the SQ let job j be dispatched. -/
def orderAllows (s : State) (j : Nat) (x : Job) : Bool :=
  !s.rings.jobs.any fun e => decide (e.1 < j) && e.2.sq == x.sq && !jobOver e.2 &&
    (e.2.phase == .fetched || e.2.fence || x.fence)

/-- The owners that are tellers learn of the job: a JOB event of their role. -/
def tellOwners (s : State) (x : Job) : State :=
  if x.opcode == 0x40 then match maskBits 4 (bits (arg x 0) 8 4) with
    | q :: _ => raiseRole s 6 q 2
    | [] => s
  else (ownersOf s x).foldl (fun s o =>
    if o < 48 then raiseRole s 1 o 2
    else if 100 ≤ o ∧ o < 148 then raiseRole s 3 (o - 100) 2
    else if 200 ≤ o ∧ o < 204 then raiseRole s 4 (o - 200) 2
    else s) s

/-- The job joins its owners' queues. -/
def dispatchTo (s : State) (j : Nat) (x : Job) (units : List Nat) : State :=
  let s1 := putJob s j { x with phase := .dispatched, order := s.rings.nextOrder, units := units }
  tellOwners (updRings s1 fun r => { r with nextOrder := r.nextOrder + 1 }) x

/-- The list of a job's role check cannot be read: the checks that need no list still come before that failure. -/
def listFails (s : State) (x : Job) (va n : Nat) : Bool :=
  match jobBytes s x va n with
  | .ok _ => false
  | .fail _ => true
  | .wait => hostNeeded s x va n && (ctxCheck s x va n).isSome

/-- JOB_DISPATCH: a job that R401 defers meets the checks when it leaves the deferral. -/
def execJobDispatch (j : Nat) (s : State) : Host.Outcome State Fault Refusal :=
  match getJob? s j with
  | none => .next s
  | some x =>
    if x.phase != .fetched || !orderAllows s j x then .next s
    else if thermalWait s x then .next (dispatchTo s j x [1])
    else
      let check := fun (l : List Nat) (s : State) => match getJob? s j with
        | none => s
        | some y => match dispatchCheck s y l with
          | some st => endJob s j st 0 0 0
          | none => dispatchTo s j y []
      match ownerList x with
      | none => .next (check [] s)
      | some (va, n) =>
        let early := dispatchCheck s x []
        if early == some 0x03B0 || (early.isSome && listFails s x va n) then .next (check [] s)
        else .next (needBytes s j va n fun l => check l s)

/-! ### NOP_FENCE (R273 item 5) -/

/-- The SQs a NOP_FENCE names: its own and those of its mask. -/
def fenceNames (x : Job) (q : Nat) : Bool := q == x.sq || bit (arg x (q / 64)) (q % 64)

/-- NOP_FENCE: every descriptor fetched before it from the SQs it names has completed. -/
def execNopFence (j : Nat) (s : State) : Host.Outcome State Fault Refusal :=
  match jobReady s j 0x7F with
  | none => .next s
  | some x =>
    .next (if s.rings.jobs.any fun e => decide (e.1 < j) && fenceNames x e.2.sq && !jobOver e.2 then s else endJob s j 0 0 0 0)

/-! ### Abort (R282) -/

/-- Nothing more is read or written for the job. -/
def dropTransfers (s : State) (j : Nat) : State :=
  updXlt s fun x => { x with streams := x.streams.filter (·.job != j), reads := x.reads.filter (·.job != j) }

/-- The slices that measure for a job. -/
def measuringFor (s : State) (j : Nat) : List (Nat × Nat) :=
  allSlices.filter fun x => match (getSlice s x.1 x.2).pmu with
    | .idle => false
    | .measuring k => k == some j
    | .contact _ k => k == some j

/-- A running job ends at its chapter's abort point, or at once with ST_JOB_ABORTED. A running ASSIGN_ROLE is decided. -/
def abortRunning (s : State) (j : Nat) (x : Job) : State :=
  let n := fun k => x.tally.getD k 0
  match x.opcode with
  | 0x02 => s
  | 0x11 => (s.gangs.filter fun e => e.2.job == some j).foldl (fun s e => gangAbort s e.1) s
  | 0x12 => match s.tiles.findSome? fun e => e.2.pend.bind fun c => if c.job == some j then some (e.1, c.tc) else none with
    | some (t, tc) => if tc < s.now + usec 2 then s else vclkCancel s t
    | none => s
  | 0x20 | 0x21 =>
    let s1 := if x.opcode == 0x20 then endJob s j 0x0300 (n 0) (n 1) (n 2 + x.units.length) else endJob s j 0x0300 (n 0) (n 1 + n 2 * 2 ^ 32) 0
    (measuringFor s j).foldl (fun s p => loadSync (pmuAbort s p.1 p.2) p.1 p.2) s1
  | 0x30 => digStopNow s (arg x 0 % 4) 2 0 false
  | 0x41 =>
    endJob (dropTransfers s j) j 0x0300 (n 0) (n 1 + n 2 * 2 ^ 32) (n 3)
  | 0x50 => showCal (endJob (dropTransfers s j) j 0x0300 (n 0) (n 1) 0)
  | 0x51 =>
    endJob { s with tiles := s.tiles.map fun e => (e.1, { e.2 with remapQ := e.2.remapQ.filter fun r => r.job != some j }) } j 0x0300 0 0 0
  | 0x60 | 0x61 =>
    endJob (updRing (dropTransfers s j) fun r =>
      { r with launches := r.launches.filter fun y => y.job != some j, snaps := r.snaps.filter fun y => y.job != some j }) j 0x0300 0 0 0
  | 0x70 =>
    let s1 := (s.flt.points.filter fun p => p.job == some j).foldl (fun s p => dropPoint s p.det) s
    endJob s1 j 0x0300 0 0 0
  | _ => endJob (dropTransfers s j) j 0x0300 0 0 0

/-- Abort one job. One that has not started ends at once. -/
def abortJob (s : State) (j : Nat) : State :=
  match getJob? s j with
  | none => s
  | some x => match x.phase with
    | .running => abortRunning s j x
    | .fetched => endJob (dropTransfers s j) j 0x0300 0 0 0
    | .dispatched => endJob (dropTransfers s j) j 0x0300 0 0 0
    | _ => s

/-- The jobs that `HAT_ABORT` and `HAT_ABORT_TAG` name: fetched and not completed. -/
def abortNamed (s : State) : List Nat :=
  (s.rings.jobs.filter fun e => e.2.sq == rd s glb R.HAT_ABORT_SQ && !jobOver e.2 &&
    (flag s glb R.HAT_ABORT_ALL || e.2.tag == rd s glb R.HAT_ABORT_TAG_TAG)).map (·.1)

/-- A write of GO = 1. -/
def abortGo (s : State) : State :=
  match abortNamed s with
  | [] => setF s glb R.HAT_ABORT_STAT_MISS
  | l => l.foldl abortJob s

/-- JOB_ABORT. -/
def execJobAbort (s : State) : Host.Outcome State Fault Refusal := .next (barWrite s none 0x100100 abortGo)

end Sys2Proof.Machine
end

