-- ==== Sys2Proof/Machine/Boot.lean ====
section
/-! DEFINITION. Resets and start-up (R449 to R460; spec/18_startup_and_identity.md). -/
namespace Sys2Proof.Machine

/-! ### Cold reset (R449 to R451) -/

/-- What the fuses hold of `GLB_KEYSTAT`: a slot only misread at the last boot is not revoked. -/
def keyFuses (s : State) : Map Nat :=
  let keep := s.regs.filter fun e => e.1 == fieldKey glb R.GLB_KEYSTAT_PROG 0 || e.1 == fieldKey glb R.GLB_KEYSTAT_REVOKED 0
  keep.map fun e => if e.1 == fieldKey glb R.GLB_KEYSTAT_REVOKED 0 then (e.1, s.boot.misread.foldl clrBit e.2) else e

/-- The state after a cold reset: what is outside the part (host memory, the queue, the level of CARD_PRESENT_N, lock-outs)
and the fuses stay. -/
def coldReset (s : State) (cause : Nat) (perst : Bool) : State :=
  let s1 := { State.reset with
    regs := keyFuses s
    fresh := s.fresh
    resp := s.resp
    hostMem := s.hostMem
    ssid := s.smb.ssid.or s.ssid
    keyHash := s.keyHash
    lockout := s.lockout
    pending := s.pending }
  let s2 := if flag s glb R.GLB_IO_STAT_CARD_RAW then setF s1 glb R.GLB_IO_STAT_CARD_RAW else s1
  updBoot (if cause == 0 then s2 else wr s2 glb R.GLB_RST_STAT_CAUSE cause) fun b => { b with perst := perst }

/-- R451: the reset that reaches a SEALED part: the CXL port, its decoders and IDE, and configuration space. -/
def portReset (s : State) : State :=
  let s1 := { linkLost s with cfg := [], comp := [], hdmProg := none, memEn := false, cacheEn := false, d3 := false, ioIde := [], cmBad := false }
  let s2 := { s1 with regs := mapDropRange (mapDropRange s1.regs (0x100008 * 32) (0x100010 * 32)) (0x100020 * 32) (0x100024 * 32) }
  cfgEffects (clrF (clrF s2 glb R.HAT_HDM_STAT_COMMITTED) glb R.HAT_HDM_STAT_BI_EN)

/-- POWER_ON_RESET (R454, R451): VDD_AON fell, or VDD_IO alone. -/
def execPowerOnReset (aon : Bool) (s : State) : Host.Outcome State Fault Refusal :=
  .next (if sealed s && !aon then portReset s else coldReset s 0 s.boot.perst)

/-! ### The Warden boot (R455) -/

/-- A bit address names a factory trim: a writable field of a sector or tile loaded from fuses. -/
def isTrim (key : Nat) : Bool :=
  decide (0x1000000 ≤ key / 32) && match blkOf (key / 32) with
    | some b => (regFields b (key / 32)).any fun x => x.1.lsb == key % 32 && x.1.rst == .fuse && x.1.acc == .rw
    | none => false

/-- Fuse fields that do not read alike: key slots count as revoked, trims load as 0. -/
def fuseErrors (s : State) (keys trims : List Nat) : State :=
  let trims1 := trims.filter isTrim
  let s1 := keys.foldl (fun s k =>
    if bit (rd s glb R.GLB_KEYSTAT_REVOKED) k then s
    else updBoot (keySet s R.GLB_KEYSTAT_REVOKED k) fun b => { b with misread := k :: b.misread }) s
  let s2 := { s1 with regs := trims1.foldl (fun m k => mapPut m k 0) s1.regs }
  if keys == [] && trims1 == [] then s2 else setF s2 glb R.GLB_ST_STAT_FUSEERR

/-- The boot from ROM. The image passes, at once or when loaded again, and the cold reset ends; or it fails twice and the part
is sealed (R416). -/
def wardenBoot (s : State) (keys trims : List Nat) (imageOk again : Bool) : State :=
  let s1 := updBoot (fuseErrors s keys trims) fun b => { b with por := false }
  let s2 := if imageOk then s1 else raiseNow s1 (detNo 0x27 0) 0
  let s3 := if imageOk || again then s2 else raiseNow s2 (detNo 0x27 0) 0
  if flag s3 glb R.GLB_IO_STAT_CARD_RAW then s3 else allSlices.foldl (fun s x => setF s (sliceB x.1 x.2) R.CHN_STAT_SC_CARD) s3

/-- POR_RELEASE (R454, R455). -/
def execPorRelease (badKeys : List (Fin 4)) (badTrims : List Nat) (imageOk again : Bool) (s : State) : Host.Outcome State Fault Refusal :=
  .next (if s.boot.por then wardenBoot s (badKeys.map (·.val)).eraseDups badTrims imageOk again else s)

/-- PERST_RESET (R449, R451, R455): absorbed by a power-on reset in progress. -/
def execPerstReset (badKeys : List (Fin 4)) (badTrims : List Nat) (imageOk again : Bool) (s : State) : Host.Outcome State Fault Refusal :=
  .next (if s.boot.por then updBoot s fun b => { b with perst := false }
  else if sealed s then updBoot (portReset s) fun b => { b with perst := false }
  else wardenBoot (coldReset s 1 false) (badKeys.map (·.val)).eraseDups badTrims imageOk again)

/-- PERST_RELEASE (R456). -/
def execPerstRelease (s : State) : Host.Outcome State Fault Refusal := .next (updBoot s fun b => { b with perst := true })

/-! ### Start-up (R456) -/

/-- STARTUP_PLLS_LOCKED: the self-test and HBM training start. -/
def execStartupPllsLocked (s : State) : Host.Outcome State Fault Refusal :=
  .next (if s.boot.plls && !s.boot.locked && !sealed s then showQual (wr (updBoot s fun b => { b with locked := true }) glb R.MEM_STAT_STATE 1)
  else s)

/-- Positions of a tile left unserved, mapped in ascending order to the lowest free slices. -/
def mapPositions (s : State) (t : Nat) : State :=
  ((List.range 16).filter fun k => isRetired s t (sliceOf s t k)).foldl (fun s k =>
    match (freeSlices s t).head? with
    | some p => wri s (tileB t) R.TIL_XPT_MAP_SLICE k p
    | none => setF s (tileB t) R.TIL_XPT_STAT_NOSPARE) s

/-- A slice that the self-test retired, with the position it served before. -/
def selfRetired (s : State) (was : State) (x : Nat × Nat) : State :=
  match serves was x.1 x.2 with
  | none => signal s 0x03 (x.1 * 18 + x.2) 0xFFFF
  | some k => signal s 0x03 (x.1 * 18 + x.2) (second k (sliceOf s x.1 k == x.2))

/-- SELFTEST_DONE: the slices that fail, and the quads whose interpolator bank fails, are retired; then `SC_RST` clears, and
with no other cause a slice that is not retired leaves the safe state (R60, R379). -/
def execSelftestDone (fails quads : List Nat) (s : State) : Host.Outcome State Fault Refusal :=
  if !s.boot.locked || flag s glb R.GLB_ST_STAT_SELFTEST || sealed s then .next s
  else
    let bad := allSlices.filter fun x => !isRetired s x.1 x.2 && (fails.contains (x.1 * 18 + x.2) ||
      quads.any fun q => decide (q < 240) && (quadSlices q).1 == x.1 && (quadSlices q).2.contains x.2)
    let s1 := bad.foldl (fun s x => markRetired s x.1 x.2) s
    let tiles := (bad.map (·.1)).eraseDups
    let s2 := tiles.foldl (fun s t => showFree (mapPositions s t) t) s1
    let s3 := bad.foldl (fun a x => selfRetired a s x) s2
    let s4 := wr (setF s3 glb R.GLB_ST_STAT_SELFTEST) glb R.GLB_ST_STAT_STRET bad.length
    let s5 := causeClear s4 allSlices R.CHN_STAT_SC_RST
    .next ((allSlices.filter fun x => !anyCause s5 x.1 x.2 && !isRetired s5 x.1 x.2).foldl (fun s x => safeRelease s x.1 x.2) s5)

/-! ### Warm reset and CXL Reset (R451 to R453) -/

/-- Jobs, waiting completions and what serves them are discarded. -/
def dropJobs (s : State) : State :=
  let s1 := updRings { s with items := [] } fun r => { r with jobs := [], waiting := [], events := [], timers := [], pend := [], enabling := [] }
  let s2 := updXlt s1 fun x => { x with streams := [], reads := [], reqs := [], faultQ := [], groups := [], invs := [] }
  let s3 := updRing s2 fun r => { r with launches := r.launches.filter (·.job.isNone), snaps := r.snaps.filter (·.job.isNone) }
  updFlt s3 fun f => { f with points := f.points.map fun p => { p with job := none } }

/-- Routines in progress are abandoned; the tellers wait for their reload. -/
def stopTellers (s : State) : State :=
  allTellers.foldl (fun s n =>
    if telState s n == 2 || telState s n == 3 || telState s n == 5 then
      wr (clrF (clrF (updTel s n dropRoutine) (telB n) R.TIL_TEL_STAT_LENT) (telB n) R.TIL_TEL_STAT_POSTC) (telB n) R.TIL_TEL_STAT_STATE 1
    else s) s

/-- A warm reset starts: every slice safe, gangs and captures end, jobs are lost (R452). -/
def warmStart (s : State) : State :=
  let s1 := safeEnterAll (setF s glb R.GLB_RST_STAT_BUSY) allSlices R.CHN_STAT_SC_RST
  let s2 := gangsFault s1 allTiles 0x0314
  let s3 := (List.range 4).foldl (fun s q => digStopNow s q 2 0 false) s2
  stopTellers (dropJobs s3)

/-- A write of WARM with its key (R451): refused while a reset runs or before READY, ignored in SEALED. -/
def warmWrite (s : State) : State :=
  if sealed s then s
  else if flag s glb R.GLB_RST_STAT_BUSY || !flag s glb R.GLB_ST_STAT_READY then setF s glb R.GLB_RST_STAT_REFUSED
  else warmStart s

/-- The write reaches the part: while a reset runs it is recorded as well (R479). -/
def warmAccess (s : State) : State :=
  if flag s glb R.GLB_RST_STAT_BUSY && !sealed s then recordAccess (setF s glb R.GLB_RST_STAT_REFUSED) 3 true none 4
  else barWrite s none 4 warmWrite

/-- WARM_RESET. -/
def execWarmReset (s : State) : Host.Outcome State Fault Refusal := .next (warmAccess s)

/-- A gang that still runs ends where it stands. -/
def gangsStop (s : State) : State :=
  (s.gangs.filter fun e => gangLive s e.2).foldl (fun s e => match getGang? s e.1 with
    | some g => if g.waiting then s else gangStop s e.1 { g with evs := [], phase := .over }
    | none => s) s

/-- The registers after the reset: those of R450, and of `CHN_STAT` the drive lock and the causes that still hold. -/
def keptRegs (s : State) : Map Nat :=
  s.regs.filter fun e => keptReg s.boot.cxl (e.1 / 32) ||
    (decide (0x2000000 * 32 ≤ e.1) && (e.1 / 32 - 0x2000000) % 0x20000 ≥ 0x10000 && (e.1 / 32) % 0x400 == 4 &&
      [0, 1, 17, 18, 19, 20].contains (e.1 % 32))

/-- The unregistered state in reach returns to reset: what outlives it are trims, retirements and remaps, lanes, capture sets,
ledgers and results. -/
def warmUnits (s : State) : State :=
  { s with
    regs := keptRegs s
    shadow := []
    latch := []
    slices := s.slices.map fun e => (e.1, { Slice.reset with glideTrim := e.2.glideTrim, tdcRuns := e.2.tdcRuns })
    tiles := s.tiles.map fun e => (e.1, { Tile.reset with
      laneFails := e.2.laneFails
      laneLost := e.2.laneLost
      trackResid := e.2.trackResid
      remap := e.2.remap
      remapQ := e.2.remapQ })
    gangs := []
    sites := s.sites.map fun e => (e.1, { e.2 with jobs := [] })
    digs := s.digs.map fun e => (e.1, { Dig.reset with nextSeq := e.2.nextSeq, store := e.2.store })
    xlt := { State.reset.xlt with tagNext := s.xlt.tagNext }
    rings := { State.reset.rings with
      nextJob := s.rings.nextJob
      nextOrder := s.rings.nextOrder
      msixTab := s.rings.msixTab
      msixPend := s.rings.msixPend
      msixSent := s.rings.msixSent }
    hbm := { s.hbm with reqs := [] }
    roleEvts := []
    startQ := []
    trigOut := [] }

/-- One teller's reload at the end of a warm reset (R452, R228): the image if its slot is valid, and the default role if it
serves it, as one assignment (R234). A teller without a valid slot is EMPTY. -/
def warmTeller (s : State) (n : Nat) : State :=
  let slot := rd s (telB n) R.TIL_TEL_STAT_SLOT
  if telState s n != 1 || rdi s glb R.GLB_IMGSTAT_VALID slot != 1 then
    if telState s n == 1 then wr (takeRole (showTelQ (putTel s n Teller.reset) n) n 0) (telB n) R.TIL_TEL_STAT_STATE 0 else s
  else match reloadCopy s (n / 48) slot with
    | some l =>
      if imgHeaderOk l && imgKeyOk s l && imgSigOk l then
        let r := if bit (imgRoles l) (defaultRole n) then defaultRole n else 0
        let s1 := telLoad (putTel s n Teller.reset) n slot l
        let s2 := takeRole (wr (showTelQ s1 n) (telB n) R.TIL_TEL_STAT_ROLE 0) n r
        raiseTel (wr s2 (telB n) R.TIL_TEL_STAT_HCAUSE 0) n 0
      else telRetire (wri s glb R.GLB_IMGSTAT_VALID slot 0) n
    | none => telRetire (wri s glb R.GLB_IMGSTAT_VALID slot 0) n

/-- R453: what a CXL Reset does beyond a warm reset. -/
def cxlExtras (s : State) : State :=
  let s1 := levelOff (clrF { s with dcache := [], sf := [], biAsked := [], biSent := [], hdmProg := none, comp := mapErase (mapErase (mapErase s.comp (hdmAt + 0x10)) (hdmAt + 0x14)) (hdmAt + 0x20), param := [] }
    glb R.HAT_LINK_STAT_VIRAL) 0x26 0
  let s2 := clrF (clrF (clrF s1 glb R.HAT_HDM_STAT_COMMITTED) glb R.HAT_HDM_STAT_BI_EN) glb R.HAT_HDM_STAT_BIPEND
  { s2 with regs := mapDropRange s2.regs (0x100008 * 32) (0x100010 * 32), sites := [] }

/-- WARM_RESET_DONE. -/
def execWarmResetDone (s : State) : Host.Outcome State Fault Refusal :=
  if !flag s glb R.GLB_RST_STAT_BUSY then .next s
  else
    let cxl := s.boot.cxl
    let s1 := warmUnits (gangsStop s)
    let s2 := cfgEffects (if cxl then cxlExtras s1 else s1)
    let s3 := showUsers (allTellers.foldl warmTeller s2)
    let s4 := causeClear s3 allSlices R.CHN_STAT_SC_RST
    let s5 := wr (clrF s4 glb R.GLB_RST_STAT_BUSY) glb R.GLB_RST_STAT_CAUSE (if cxl then 3 else 2)
    .next (showCal (updBoot (incF s5 glb R.GLB_RST_STAT_WARMCNT) fun b => { b with cxl := false }))

/-- CXL_RESET: through the link; without effect in SEALED; it absorbs a warm reset in progress (R451). -/
def execCxlReset (s : State) : Host.Outcome State Fault Refusal :=
  if s.boot.por || sealed s || !flag s glb R.HAT_LINK_STAT_UP then .next s
  else
    let s1 := updBoot s fun b => { b with cxl := true }
    .next (if flag s glb R.GLB_RST_STAT_BUSY then s1 else warmStart s1)

end Sys2Proof.Machine
end

