-- ==== Sys2Proof/Machine/RegAccess.lean ====
section
/-! DEFINITION. Register accesses of the host and of tellers through BAR0 (R4, R7 to R12, R336, R473 to R481;
spec/19_register_map.md), with the actions of registers that act. -/
namespace Sys2Proof.Machine

/-! ### Running state of a register's block (R481) -/

/-- An SQ, or a CQ or EVR, runs (R266). -/
def ringRuns (s : State) (r : Nat) : Bool :=
  if isSq r then ringEn s r || decide (0 < sqOwed s r) else ringEn s r || flag s (ringB r) R.HAT_CQ_STAT_ACTIVE

/-- The block that governs the register at offset o of a register block runs. -/
def blkRuns (s : State) (b : Blk) (o : Nat) : Bool :=
  match b with
  | .slice t p => sliceRuns s t p
  | .tile t =>
    if 0x100 ≤ o ∧ o < 0x150 then flag s (tileB t) R.TIL_VCLK_CTL_EN
    else if (0x150 ≤ o ∧ o < 0x160) ∨ (0x180 ≤ o ∧ o < 0x190) ∨ (0x300 ≤ o ∧ o < 0x340) then tileRuns s t
    else tileLive s t
  | .fret t _ _ => tileRuns s t
  | .teller n => telState s n == 3
  | .sec q => digState s q != 0
  | .site i => siteActive s i
  | .sq q => ringRuns s q
  | .ring r => ringRuns s (256 + r)
  | .ctx k => ctxInUse s k
  | .tim => flag s glb R.TIM_CTL_JOIN
  | .mem => anyRtActive s
  | _ => false

/-- The flag that an ignored S write of the register at offset o sets. -/
def ignFlag (b : Blk) (o : Nat) : Option Field :=
  match b with
  | .slice .. => some R.CHN_STAT_WR_IGN
  | .tile _ => some (
      if 0x100 ≤ o ∧ o < 0x150 then R.TIL_VCLK_STAT_WR_IGN
      else if 0x150 ≤ o ∧ o < 0x160 then R.TIL_TDC_STAT_WR_IGN
      else if (0x180 ≤ o ∧ o < 0x190) ∨ (0x300 ≤ o ∧ o < 0x340) then R.TIL_FAIL_STAT_WR_IGN
      else R.TIL_SEQ_STAT_WR_IGN)
  | .teller _ => some R.TIL_TEL_STAT_WR_IGN
  | .sec _ => some R.DIG_BE_STAT_WR_IGN
  | .site _ => some R.GLB_SITE_STAT_WR_IGN
  | .sq _ => some R.HAT_SQ_STAT_WR_IGN
  | .ring _ => some R.HAT_CQ_STAT_WR_IGN
  | .ctx _ => some R.XLT_CTX_STAT_WR_IGN
  | .tim => some R.TIM_STAT_WR_IGN
  | _ => none

/-! ### Stored values -/

/-- The stored value of a field whose rule depends on other state: the PMU's codes, the refill threshold, the address
generator's values, a pin function's bit, a context's rates and pin sizes, STEER, RIDX. -/
def storeIn (s : State) (blk : Blk) (o : Nat) (f : Field) (v : Nat) : Nat :=
  if f.sto != .custom then storeAs f.sto v
  else match blk with
    | .slice t p => pmuStore (rd s (sliceB t p) R.CHN_PMU_CTL_MODE) (o == 0x24) v
    | .tile t =>
      let area := match (getTile s t).pat with
        | some p => streamArea p
        | none => 65536
      if o == 0x40 then min (max v 1024) (area / 2)
      else if o == 0x60 || o == 0x68 then min v (rd s (tileB t) R.TIL_SEQ_XMAX_VAL)
      else if o == 0x64 || o == 0x6C then min v (rd s (tileB t) R.TIL_SEQ_YMAX_VAL)
      else if 0x240 ≤ o then
        let src := rdi s (tileB t) R.TIL_SEQ_PINFN_SRC ((o - 0x240) / 4)
        if src == 1 || src == 2 then min v 23 else v
      else v
    | .ctx k => if !isRt k then 0 else if 0x40 ≤ o then min v 262144 else v
    | .tim => if rd s glb R.TIM_CFG_POS == 0 then v else 0
    | .flt =>
      let w := rd s glb R.FLT_HIST_WIDX_WIDX
      let d := (v + 2 ^ 32 - w) % 2 ^ 32
      if d != 0 && decide (d < 2 ^ 31) then w else v
    | _ => v

/-! ### Fields -/

/-- Fields that act by themselves: they are not stored by the common rule. -/
def actsAlone (b : Blk) (o lsb : Nat) : Bool :=
  match b with
  | .slice .. => (o == 0x20 && lsb == 7) || (o == 4 && lsb == 8)
  | .tile _ => (o == 0x100 && lsb == 0) || o == 0x18
  | .sq _ => o == 0x18
  | .ring _ => o == 0x14
  | .ctx _ => o == 0 && lsb == 0
  | .glb => o == 0x1004 && lsb == 0
  | _ => false

/-- R7, R10: one field of a write. -/
def writeField (blk : Blk) (o : Nat) (run : Bool) (v : Nat) (s : State) (x : Field × Nat) : State :=
  let b := blkBase blk
  let raw := bits v x.1.lsb x.1.width
  let old := rdi s b x.1 x.2
  match x.1.acc with
  | .rw =>
    let w := storeIn s blk o x.1 raw
    if actsAlone blk o x.1.lsb then s
    else if !run || x.1.cls == .l then wri s b x.1 x.2 w
    else if x.1.cls == .b then { s with shadow := mapPut s.shadow (fieldKey b x.1 x.2) (w % 2 ^ x.1.width) }
    else if w % 2 ^ x.1.width == old then s
    else match ignFlag blk o with
      | some f => setF s b f
      | none => s
  | .w1c => if actsAlone blk o x.1.lsb then s else wri s b x.1 x.2 (old &&& (2 ^ x.1.width - 1 - raw))
  | _ => s

/-- The fields of a register take a write. -/
def writeFields (s : State) (blk : Blk) (a v : Nat) : State :=
  let o := a - blkBase blk
  (regFields blk a).foldl (writeField blk o (blkRuns s blk o) v) s

/-! ### Registers that act (R7) -/

/-- `CHN_CTL`, `CHN_STAT`, `CHN_CMP_CTL`, `CHN_LOAD_CTL`, `CHN_TRIM_FING` and `CHN_PMU_CTL` after their fields. -/
def sliceActs (old s : State) (t p o v : Nat) : State :=
  let b := sliceB t p
  if o == 0 then
    let s1 := if flag s b R.CHN_CTL_CONTACT_OVR && flag s b R.CHN_STAT_DRIVE_LOCK then loadSync (clrF s b R.CHN_STAT_DRIVE_LOCK) t p else s
    if bit v R.CHN_CTL_SAFE_REQ.lsb then safeEnter s1 t p R.CHN_STAT_SC_SW
    else if bit v R.CHN_CTL_SAFE_REL.lsb then safeRel s1 t p else s1
  else if o == 4 then if bit v R.CHN_STAT_DRV_OVC.lsb then drvOvcClear s t p else s
  else if o == 0x10 then if rd s b R.CHN_CMP_CTL_MODE == rd old b R.CHN_CMP_CTL_MODE then s else cmpRestart s t p
  else if o == 0x18 then loadSync s t p
  else if o == 0x220 then
    if rd s b R.CHN_TRIM_FING_FING == rd old b R.CHN_TRIM_FING_FING then s
    else wr s b R.CHN_TRIM_FING_NFING (maskBits 24 (rd s b R.CHN_TRIM_FING_FING)).length
  else if o == 0x20 then
    let s1 :=
      if bit v R.CHN_PMU_CTL_CONNECT.lsb then
        sliceS s t p (flag s b R.CHN_PMU_CTL_CONNECT) fun s => if isSafe s t p then clrF s b R.CHN_PMU_CTL_CONNECT else connectPmu s t p
      else pmuDisconnect s t p
    let s2 := if bit v R.CHN_PMU_CTL_START.lsb then pmuStart s1 t p none else s1
    if bit v R.CHN_PMU_CTL_CC_START.lsb then contactStart s2 t p none else s2
  else s

/-- `TIL_SEQ_CTL`, `TIL_SEQ_JUMP` and `TIL_VCLK_CTL` (EN, then CANCEL, then ARM: R70). -/
def tileActs (s : State) (t o v : Nat) : State :=
  let on := fun (f : Field) => bit v f.lsb
  if o == 0 then
    let s1 := if on R.TIL_SEQ_CTL_ARM then seqArm s t else s
    let s2 := if on R.TIL_SEQ_CTL_ABORT then seqAbort s1 t else s1
    let s3 := if on R.TIL_SEQ_CTL_HOLD then seqHold s2 t false else s2
    if on R.TIL_SEQ_CTL_RESUME then seqResume s3 t else s3
  else if o == 0x18 then jumpWrite s t (bits v R.TIL_SEQ_JUMP_TARGET.lsb 12) (on R.TIL_SEQ_JUMP_GO)
  else if o == 0x100 then
    let s1 := if on R.TIL_VCLK_CTL_EN then vclkEnable s t else vclkDisable s t
    let s2 := if on R.TIL_VCLK_CTL_CANCEL then vclkCancel s1 t else s1
    if on R.TIL_VCLK_CTL_ARM then vclkArm s2 t else s2
  else s

/-- `DIG_CTL`, and the bound on the holdoff, which lies over two registers. -/
def secActs (s : State) (q o v : Nat) : State :=
  if o == 0 then
    let s1 := if bit v R.DIG_CTL_STOP.lsb then digStopNow s q 2 0 false else s
    if bit v R.DIG_CTL_SOFT.lsb then softTrigger s1 q else s1
  else if o == 0x24 || o == 0x28 then
    wr64 s (secB q) R.DIG_HOLDOFF_LO_HOLDOFF R.DIG_HOLDOFF_HI_HOLDOFF
      (min 8000000000 (rd64 s (secB q) R.DIG_HOLDOFF_LO_HOLDOFF R.DIG_HOLDOFF_HI_HOLDOFF))
  else s

/-- The actions of the time, fault, power and memory registers. -/
def glbActs (old s : State) (a v : Nat) : State :=
  if a == 0x1004 then eotWrite s (bit v 0)
  else if a == 0x100100 then if bit v R.HAT_ABORT_GO.lsb then abortGo s else s
  else if a == 0x300000 then if bit v R.TIM_CTL_SET.lsb then timeSet s else s
  else if a == 0x300008 then showQual s
  else if a == 0x30000C then
    if refPref s != refPref old && refPref s != refSel s && refOk s (refPref s) then refSwitch s (refPref s) else s
  else if a == 0x400000 then showFaults s
  else if a == 0x400018 then if bit v R.FLT_INJ_CTL_DISALL.lsb then disarmAll s else s
  else if a == 0x420000 then if bit v R.PWR_CTL_GO.lsb then powerGo s (rd s glb R.PWR_CTL_TARGET) else s
  else if a == 0x800000 then if bit v R.MEM_CTL_RETRAIN.lsb then retrainRequest s else s
  else s

/-- What a write does beyond its fields. -/
def writeActs (old s : State) (blk : Blk) (a v : Nat) : State :=
  let o := a - blkBase blk
  match blk with
  | .slice t p => sliceActs old s t p o v
  | .tile t => tileActs s t o v
  | .sec q => secActs s q o v
  | .sq q => if o == 0x18 then if bit v 0 then ringEnable s q else ringDisable s q else s
  | .ring r => if o == 0x14 then if bit v 0 then ringEnable s (256 + r) else ringDisable s (256 + r) else s
  | .ctx k =>
    if o != 0 then s
    else if bit v 0 then (if flag s (ctxB k) R.XLT_CTX_CFG_EN then s else contextEnable s k)
    else if flag s (ctxB k) R.XLT_CTX_CFG_EN || flag s (ctxB k) R.XLT_CTX_STAT_PBUSY then contextDisable s k else s
  | _ => glbActs old s a v

/-- Registers with an operation of their own for the whole write. -/
def ownWrite (s : State) (who : Option Nat) (blk : Blk) (a v : Nat) : Option State :=
  let o := a - blkBase blk
  match blk with
  | .glb => if a == 4 then some (if v % 2 ^ 16 == 0x5C76 && bit v 16 then warmWrite s else s) else none
  | .site i => if o == 0x18 then some (siteLcfgWrite s i v) else none
  | .flt => if 0x400100 ≤ a ∧ a < 0x400200 then
      some (kstatClear s ((a - 0x400100) / 4) (bit v R.FLT_KSTAT_LATCHED.lsb) (bit v R.FLT_KSTAT_WIRE.lsb)) else none
  | .slice t p =>
    if o == 8 then some (bankSelect (wr s (sliceB t p) R.CHN_BANK_SEL_BANK v) t p (v % 4))
    else if 0x100 ≤ o ∧ o < 0x200 then some (bankFieldWrite s t p ((o - 0x100) / 0x40) ((o - 0x100) % 0x40 / 4) v)
    else none
  | .sec q =>
    if o == 0x10C then some (firCoefWrite s q v)
    else if o == 0x110 then some (firPreset s q (bits v R.DIG_FIR_PRE_SET.lsb 2) (bit v R.DIG_FIR_PRE_BANK.lsb))
    else if 0x80000 ≤ o ∧ o < 0x8000C then some (lgrPoolWrite s q ((o - 0x80000) / 4) v who)
    else if 0x80010 ≤ o ∧ o < 0x8001C then some (acqPoolWrite s q ((o - 0x80010) / 4) v who)
    else none
  | _ => none

/-- A whole write of a named register. -/
def blockWrite (s : State) (who : Option Nat) (blk : Blk) (a v : Nat) : State :=
  let k := fun (s : State) => match ownWrite s who blk a v with
    | some s1 => s1
    | none => writeActs s (writeFields s blk a v) blk a v
  match blk with
  | .slice t p => sliceWrite s t p k
  | _ => k s

/-! ### MSI-X and component registers (R248, R259, R473) -/

/-- The range of BAR0 that follows the PCI Express and CXL standards. -/
def standardRange (a : Nat) : Bool := decide (0x110000 ≤ a) && decide (a < 0x128100)

/-- A dword with some of its bytes replaced. -/
def mergeBytes (old v be : Nat) : Nat :=
  leNat ((List.range 4).map fun i => if bit be i then bits v (8 * i) 8 else bits old (8 * i) 8)

/-- A word of the MSI-X table: vectors are masked at reset. -/
def msixWord (s : State) (i : Nat) : Nat := mapGet s.rings.msixTab i (if i % 4 == 3 then 1 else 0)

/-- Component registers with known bits, as (offset, bits known, value): the capability array names RAS, link, HDM decoder, BI
decoder and cachemem IDE, and points to the two the model places (R248). -/
def compKnown : List (Nat × Nat × Nat) :=
  [(0x111000, 0xFF00FFFF, 0x05000001), (0x111004, 0xFFF0FFFF, 0x10000002), (0x111008, 0xFFFF, 4), (0x11100C, 0xFFF0FFFF, 0x20000005),
   (0x111010, 0xFFFF, 0xC), (0x111014, 0xFFFF, 7), (hdmAt, 0xF, 0), (hdmAt + 0x18, 0xF0000000, 0x90000000), (hdmAt + 0x1C, 0xFFFFFFFF, 5)]

/-- Component registers that hold what the device logs or the host has programmed. -/
def compHeld (a : Nat) : Bool := [rasAt, hdmAt + 0x10, hdmAt + 0x14, hdmAt + 0x20].contains a

/-- What a word of that range reads as. -/
def standardRead (s : State) (a : Nat) : Nat :=
  if a < 0x120000 then
    if compHeld a then mapGet s.comp a 0
    else
      let m := Config.cfgWritable a
      let w := (mapGet s.comp a 0 &&& m) ||| (Config.cxlStandard a % 2 ^ 32 &&& (0xFFFFFFFF - m % 2 ^ 32))
      match compKnown.find? (·.1 == a) with
      | some e => overlay e.2.1 e.2.2 w
      | none => w
  else if a < 0x128000 then msixWord s ((a - 0x120000) / 4)
  else bitsMask ((List.range 32).filter fun i => s.rings.msixPend.contains ((a - 0x128000) / 4 * 32 + i))

/-- A write there: RAS status bits clear by a 1; a decoder's base moves the range as programmed (R289) until it is committed. -/
def standardWrite (s : State) (a v be : Nat) : State :=
  if a == rasAt then { s with comp := mapPut s.comp a (mapGet s.comp a 0 &&& (0xFFFFFFFF - mergeBytes 0 v be)) }
  else if a == hdmAt + 0x20 then s
  else if a < 0x120000 then
    let s1 := { s with comp := mapPut s.comp a (mergeBytes (mapGet s.comp a 0) v be) }
    if (a == hdmAt + 0x10 || a == hdmAt + 0x14) && !committed s then
      { s1 with hdmProg := some ((mapGet s1.comp (hdmAt + 0x10) 0 + mapGet s1.comp (hdmAt + 0x14) 0 * 2 ^ 32) / 2 ^ 28 * 2 ^ 28) }
    else if (a == hdmAt + 0x10 || a == hdmAt + 0x14) && committed s then s
    else s1
  else if a < 0x128000 then
    let i := (a - 0x120000) / 4
    msixFlush (updRings s fun x => { x with msixTab := mapPut x.msixTab i (mergeBytes (msixWord s i) v be) })
  else s

/-! ### Writes (R473 to R479) -/

/-- BAR0 ends here (R465). -/
def bar0Size : Nat := 0x4000000

/-- A write of BAR2 (R267, R269): 32 bits at offset 0 of a ring's page; every other write has no effect. -/
def bar2Write (s : State) (o v be : Nat) : State :=
  let r := o / 4096
  if be % 16 != 15 || o % 4096 != 0 then s
  else if r < 256 then doorbell s r v
  else headDoor s r v

/-- A read of BAR2 (R269): offset 0 of a ring's page returns the index accepted last, everything else 0. -/
def bar2Read (s : State) (o be : Nat) : Nat :=
  let r := o / 4096
  if be % 16 != 15 || o % 4096 != 0 then 0
  else if r < 256 then rd s (sqB r) R.HAT_SQ_PIDX_PIDX
  else if isRing r then ringH s r
  else 0

/-- One dword write, by the host or by teller `who`. The host's offsets from the end of BAR0 on are those of BAR2. -/
def regWrite (s : State) (who : Option Nat) (off v be : Nat) : State :=
  let a := off / 4 * 4
  if be % 16 == 0 then s
  else if bar0Size ≤ a then (if who.isNone && decide (a < bar0Size + 2 ^ 24) then bar2Write s (a - bar0Size) v be else s)
  else if standardRange a then if sealed s || (who.isNone && barClosed s) then s else standardWrite s a v (be % 16)
  else if a == 4 && be % 16 == 15 && v % 2 ^ 16 == 0x5C76 && bit v 16 && who.isNone then warmAccess s
  else barWrite s who a fun s =>
    if be % 16 != 15 then recordAccess s 2 true who a
    else match blkOf a with
      | none => recordAccess s 1 true who a
      | some b => if regFields b a == [] then recordAccess s 1 true who a else blockWrite s who b a v

/-- REGISTER_WRITE: offset, value and byte enables of one dword (R473). -/
def execRegisterWrite (off : Nat) (v : Word) (be : Nat) (s : State) : Host.Outcome State Fault Refusal :=
  .next (regWrite s none off v.toNat be)

/-! ### Reads (R4, R7, R473 to R479) -/

/-- The upper registers that a read of the register at offset a latches: of 64-bit pairs, and of ring time (R336). -/
def uppers (b : Blk) (a : Nat) : List Nat :=
  let o := a - blkBase b
  let lower := match b with
    | .site _ => o == 8 || o == 0x10
    | .hat => a == 0x100008
    | .sq _ => o == R.HAT_SQ_BASE_LO_BASE.off || o == R.HAT_SQ_PLOC_LO_PLOC.off
    | .ring _ => o == R.HAT_CQ_BASE_LO_BASE.off
    | .xlt => a == 0x200028
    | .ctx _ => decide (0x40 ≤ o) && o % 0x10 == 0
    | .tim => [0x300054, 0x300070, 0x3000AC].contains a
    | .mem => a == 0x800014
    | .thm => a == 0x410010
    | .sec _ => [0x24, 0x80000, 0x80010].contains o
    | .tile _ => [0x108, 0x120, 0x128, 0x160, 0x168].contains o
    | _ => false
  if a == 0x300014 then [0x300018, 0x30001C, 0x300020] else if lower then [a + 4] else []

/-- R7: the RC fields that a read returns clear. -/
def clearRead (s : State) (b : Blk) (a : Nat) : State :=
  (regFields b a).foldl (fun s x => if x.1.acc == .rc then wri s (blkBase b) x.1 x.2 0 else s) s

/-- The value of a read, and the state after it (R4): a latched upper register answers what it holds and is released, a lower
one latches its uppers. `peek`: a teller's LDR clears no RC field (R215). -/
def readReg (s : State) (b : Blk) (a : Nat) (peek : Bool) : Nat × State :=
  let clear := fun (s : State) => if peek then s else clearRead s b a
  match mapGet? s.latch a with
  | some v => (v, clear { s with latch := mapErase s.latch a })
  | none => (regWord s b a, clear { s with latch := (uppers b a).foldl (fun m u => mapPut m u (regWord s b u)) s.latch })

/-- One dword read: the value returned, and the state after. In SEALED only the fault block and `GLB_ID` answer (R416). -/
def regRead (s : State) (who : Option Nat) (off : Nat) : Nat × State :=
  let a := off / 4 * 4
  if bar0Size ≤ a then (0, s)
  else if sealed s && !(a == 0 || (0x400000 ≤ a && a < 0x400800)) then (0, s)
  else if standardRange a then (standardRead s a, s)
  else if laneBlocked s a && !sealed s then (0, recordAccess s 4 false who a)
  else match blkOf a with
    | none => (0, s)
    | some b => readReg s b a who.isSome

/-- The enabled bytes of a word. -/
def enabled (v be : Nat) : Nat := mergeBytes 0 v be

/-- A host read: no byte enabled, nothing happens; in D3hot, DORMANT or WATCH no completion comes (R479). -/
def hostRead (s : State) (off be : Nat) : State :=
  if be % 16 == 0 then s
  else if barClosed s then { s with resp := [] }
  else if bar0Size ≤ off then
    { s with resp := [if off < bar0Size + 2 ^ 24 then enabled (if sealed s then 0 else bar2Read s (off / 4 * 4 - bar0Size) be) be else 0] }
  else
    let r := regRead s none off
    { r.2 with resp := [enabled r.1 be] }

/-- REGISTER_READ. -/
def execRegisterRead (off be : Nat) (s : State) : Host.Outcome State Fault Refusal := .next (hostRead s off be)

/-- TIME_READ (R336): a read of `TIM_NOW0`. -/
def execTimeRead (s : State) : Host.Outcome State Fault Refusal := .next (hostRead s 0x300014 15)

/-- UPPER_LATCH_TIMEOUT (R4): the latched upper register at the offset is released. -/
def execUpperLatchTimeout (off : Nat) (s : State) : Host.Outcome State Fault Refusal :=
  .next { s with latch := mapErase s.latch (off / 4 * 4) }

/-! ### LDR and STR (R215) -/

/-- Base of the local register space of a teller's role (R470): its tile's block, or its sector's for the ACQUIRER. -/
def localB (s : State) (n : Nat) : Nat := if telRole s n == 4 then secB (n / 48) else tileB (n / 4)

/-- MEM_LDR. -/
def execMemLdr (n : TellerIx) (s : State) : Host.Outcome State Fault Refusal :=
  .next (memOp s n 7 fun s =>
    let r := regRead s (some n) (localB s n + localAddr (telWord s n) (mwA s n))
    loadT r.2 n (mwMem (telWord s n) % 8) r.1)

/-- MEM_STR. -/
def execMemStr (n : TellerIx) (s : State) : Host.Outcome State Fault Refusal :=
  .next (memOp s n 8 fun s =>
    regWrite s (some n) (localB s n + localAddr (telWord s n) (mwA s n)) (mwB s n % 2 ^ 32) 15)

end Sys2Proof.Machine
end

