-- ==== Sys2Proof/Machine/Dispatch.lean ====
section
/-! DEFINITION. One arm per command: its meaning, or its rejection by name. -/
namespace Sys2Proof.Machine

/-- The effect of a command on everything but the queue. -/
def exec (i : Instr) (s : State) : Host.Outcome State Fault Refusal :=
  match i with
  | .registerWrite off v be => Sys2Proof.Machine.execRegisterWrite off v be s
  | .upperLatchTimeout off => Sys2Proof.Machine.execUpperLatchTimeout off s
  | .tileLaneTransfer t up vec ok1 ok2 => Sys2Proof.Machine.execTileLaneTransfer t up vec ok1 ok2 s
  | .sectorLaneTransfer q up ok1 ok2 => Sys2Proof.Machine.execSectorLaneTransfer q up ok1 ok2 s
  | .vectorBoundary t => Sys2Proof.Machine.execVectorBoundary t s
  | .driverOvercurrent t p => Sys2Proof.Machine.execDriverOvercurrent t p s
  | .clampOvercurrent t p high => Sys2Proof.Machine.execClampOvercurrent t p high s
  | .cmpSettled t p => Sys2Proof.Machine.execCmpSettled t p s
  | .sampledTick t p high low => Sys2Proof.Machine.execSampledTick t p high low s
  | .cmpEdge t p high low => Sys2Proof.Machine.execCmpEdge t p high low s
  | .bankSelectWrite t p b => Sys2Proof.Machine.execBankSelectWrite t p b s
  | .bankFieldWrite t p b f v => Sys2Proof.Machine.execBankFieldWrite t p b f v s
  | .glideUpdate t p => Sys2Proof.Machine.execGlideUpdate t p s
  | .pmuConnect t p => Sys2Proof.Machine.execPmuConnect t p s
  | .pmuDisconnect t p => Sys2Proof.Machine.execPmuDisconnect t p s
  | .pmuStart t p => Sys2Proof.Machine.execPmuStart t p s
  | .pmuMeasureDone t p conv limit clamped => Sys2Proof.Machine.execPmuMeasureDone t p conv limit clamped s
  | .contactCheckStart t p => Sys2Proof.Machine.execContactCheckStart t p s
  | .contactCheckDone t p conv clamped => Sys2Proof.Machine.execContactCheckDone t p conv clamped s
  | .safeReq t p => Sys2Proof.Machine.execSafeReq t p s
  | .safeRel t p => Sys2Proof.Machine.execSafeRel t p s
  | .drvOvcClear t p => Sys2Proof.Machine.execDrvOvcClear t p s
  | .vclkEnable t => Sys2Proof.Machine.execVclkEnable t s
  | .vclkDisable t => Sys2Proof.Machine.execVclkDisable t s
  | .vclkArm t => Sys2Proof.Machine.execVclkArm t s
  | .vclkCancel t => Sys2Proof.Machine.execVclkCancel t s
  | .setPeriod j => Sys2Proof.Machine.execSetPeriod j s
  | .tdcStop t k core edge ks code undecided => Sys2Proof.Machine.execTdcStop t k core edge ks code undecided s
  | .tdcWindowClose t k core => Sys2Proof.Machine.execTdcWindowClose t k core s
  | .tdcRecordWrite t => Sys2Proof.Machine.execTdcRecordWrite t s
  | .loadPattern j => Sys2Proof.Machine.execLoadPattern j s
  | .runPattern j => Sys2Proof.Machine.execRunPattern j s
  | .tilSeqArm t => Sys2Proof.Machine.execTilSeqArm t s
  | .refillData t r => Sys2Proof.Machine.execRefillData t r s
  | .prefillDeadline t => Sys2Proof.Machine.execPrefillDeadline t s
  | .patternStart t => Sys2Proof.Machine.execPatternStart t s
  | .segmentEnd t => Sys2Proof.Machine.execSegmentEnd t s
  | .segmentStart t => Sys2Proof.Machine.execSegmentStart t s
  | .tilSeqHold t => Sys2Proof.Machine.execTilSeqHold t s
  | .tilSeqResume t => Sys2Proof.Machine.execTilSeqResume t s
  | .tilSeqAbort t => Sys2Proof.Machine.execTilSeqAbort t s
  | .tilSeqJumpGo t target => Sys2Proof.Machine.execTilSeqJumpGo t target s
  | .endSequenceDone t => Sys2Proof.Machine.execEndSequenceDone t s
  | .retestArm t => Sys2Proof.Machine.execRetestArm t s
  | .compareResult t tag samples => Sys2Proof.Machine.execCompareResult t tag samples s
  | .journalWrite q => Sys2Proof.Machine.execJournalWrite q s
  | .siteLcfgWrite site v => Sys2Proof.Machine.execSiteLcfgWrite site v s
  | .lgrPoolWrite q r v => Sys2Proof.Machine.execLgrPoolWrite q r v s
  | .acqPoolWrite q r v => Sys2Proof.Machine.execAcqPoolWrite q r v s
  | .failUpload j => Sys2Proof.Machine.execFailUpload j s
  | .analyzeRepair j => Sys2Proof.Machine.execAnalyzeRepair j s
  | .repairBudgetExpiry j => Sys2Proof.Machine.execRepairBudgetExpiry j s
  | .bin j => Sys2Proof.Machine.execBin j s
  | .parametric j => Sys2Proof.Machine.execParametric j s
  | .contactCheck j => Sys2Proof.Machine.execContactCheck j s
  | .armAcq j => Sys2Proof.Machine.execArmAcq j s
  | .tapSettled q => Sys2Proof.Machine.execTapSettled q s
  | .preFilled q => Sys2Proof.Machine.execPreFilled q s
  | .analogTrigger q m => Sys2Proof.Machine.execAnalogTrigger q m s
  | .cmpTrigger q m => Sys2Proof.Machine.execCmpTrigger q m s
  | .softTrigger q => Sys2Proof.Machine.execSoftTrigger q s
  | .autoTrigger q => Sys2Proof.Machine.execAutoTrigger q s
  | .bcastTriggerDue q => Sys2Proof.Machine.execBcastTriggerDue q s
  | .holdoffEnd q => Sys2Proof.Machine.execHoldoffEnd q s
  | .captureDone q raw => Sys2Proof.Machine.execCaptureDone q raw s
  | .rearmDone q => Sys2Proof.Machine.execRearmDone q s
  | .spillRecordWrite q => Sys2Proof.Machine.execSpillRecordWrite q s
  | .digStop q raw => Sys2Proof.Machine.execDigStop q raw s
  | .readSegments j => Sys2Proof.Machine.execReadSegments j s
  | .firCoefWrite q v => Sys2Proof.Machine.execFirCoefWrite q v s
  | .firPreset q set_ bank => Sys2Proof.Machine.execFirPreset q set_ bank s
  | .firPresetDone q => Sys2Proof.Machine.execFirPresetDone q s
  | .routineDispatch n => Sys2Proof.Machine.execRoutineDispatch n s
  | .commit n => Sys2Proof.Machine.execCommit n s
  | .seqTrap n => Sys2Proof.Machine.execSeqTrap n s
  | .seqGoto n => Sys2Proof.Machine.execSeqGoto n s
  | .seqBr n => Sys2Proof.Machine.execSeqBr n s
  | .seqBrn n => Sys2Proof.Machine.execSeqBrn n s
  | .seqCall n => Sys2Proof.Machine.execSeqCall n s
  | .seqRet n => Sys2Proof.Machine.execSeqRet n s
  | .seqDisp n => Sys2Proof.Machine.execSeqDisp n s
  | .seqLoop n => Sys2Proof.Machine.execSeqLoop n s
  | .seqEnd n => Sys2Proof.Machine.execSeqEnd n s
  | .aluNop n => Sys2Proof.Machine.execAluNop n s
  | .aluAdd n => Sys2Proof.Machine.execAluAdd n s
  | .aluSub n => Sys2Proof.Machine.execAluSub n s
  | .aluCmp n => Sys2Proof.Machine.execAluCmp n s
  | .aluAnd n => Sys2Proof.Machine.execAluAnd n s
  | .aluOr n => Sys2Proof.Machine.execAluOr n s
  | .aluXor n => Sys2Proof.Machine.execAluXor n s
  | .aluShl n => Sys2Proof.Machine.execAluShl n s
  | .aluShr n => Sys2Proof.Machine.execAluShr n s
  | .aluSar n => Sys2Proof.Machine.execAluSar n s
  | .aluMul n => Sys2Proof.Machine.execAluMul n s
  | .aluMin n => Sys2Proof.Machine.execAluMin n s
  | .aluMax n => Sys2Proof.Machine.execAluMax n s
  | .aluMinu n => Sys2Proof.Machine.execAluMinu n s
  | .aluMaxu n => Sys2Proof.Machine.execAluMaxu n s
  | .aluPopc n => Sys2Proof.Machine.execAluPopc n s
  | .aluClz n => Sys2Proof.Machine.execAluClz n s
  | .aluAddi n => Sys2Proof.Machine.execAluAddi n s
  | .aluAndi n => Sys2Proof.Machine.execAluAndi n s
  | .aluLdi n => Sys2Proof.Machine.execAluLdi n s
  | .aluLdih n => Sys2Proof.Machine.execAluLdih n s
  | .aluExt n => Sys2Proof.Machine.execAluExt n s
  | .aluLdlc n => Sys2Proof.Machine.execAluLdlc n s
  | .vecJreq n => Sys2Proof.Machine.execVecJreq n s
  | .vecRdst n => Sys2Proof.Machine.execVecRdst n s
  | .vecHold n => Sys2Proof.Machine.execVecHold n s
  | .vecResume n => Sys2Proof.Machine.execVecResume n s
  | .vecAbort n => Sys2Proof.Machine.execVecAbort n s
  | .failRdst n => Sys2Proof.Machine.execFailRdst n s
  | .failRdcnt n => Sys2Proof.Machine.execFailRdcnt n s
  | .failSync n => Sys2Proof.Machine.execFailSync n s
  | .memLds n => Sys2Proof.Machine.execMemLds n s
  | .memSts n => Sys2Proof.Machine.execMemSts n s
  | .memLdh n => Sys2Proof.Machine.execMemLdh n s
  | .memSth n => Sys2Proof.Machine.execMemSth n s
  | .memBlk n => Sys2Proof.Machine.execMemBlk n s
  | .memBst n => Sys2Proof.Machine.execMemBst n s
  | .memLdr n => Sys2Proof.Machine.execMemLdr n s
  | .memStr n => Sys2Proof.Machine.execMemStr n s
  | .loadLands n => Sys2Proof.Machine.execLoadLands n s
  | .msgSend n => Sys2Proof.Machine.execMsgSend n s
  | .msgPeek n => Sys2Proof.Machine.execMsgPeek n s
  | .msgPop n => Sys2Proof.Machine.execMsgPop n s
  | .msgRpeek n => Sys2Proof.Machine.execMsgRpeek n s
  | .msgRpop n => Sys2Proof.Machine.execMsgRpop n s
  | .waitDelay n => Sys2Proof.Machine.execWaitDelay n s
  | .waitCond n => Sys2Proof.Machine.execWaitCond n s
  | .sett n => Sys2Proof.Machine.execSett n s
  | .smclr n => Sys2Proof.Machine.execSmclr n s
  | .smset n => Sys2Proof.Machine.execSmset n s
  | .smrst n => Sys2Proof.Machine.execSmrst n s
  | .smtst n => Sys2Proof.Machine.execSmtst n s
  | .csset n => Sys2Proof.Machine.execCsset n s
  | .tellerTimerExpiry n => Sys2Proof.Machine.execTellerTimerExpiry n s
  | .watchdogExpiry n => Sys2Proof.Machine.execWatchdogExpiry n s
  | .commitOverrun n => Sys2Proof.Machine.execCommitOverrun n s
  | .reloadDone n => Sys2Proof.Machine.execReloadDone n s
  | .messageLeavesOutbox n => Sys2Proof.Machine.execMessageLeavesOutbox n s
  | .messageArrival n => Sys2Proof.Machine.execMessageArrival n s
  | .messageNoroute n => Sys2Proof.Machine.execMessageNoroute n s
  | .loadImage j => Sys2Proof.Machine.execLoadImage j s
  | .assignRole j => Sys2Proof.Machine.execAssignRole j s
  | .roleAssignmentApply n => Sys2Proof.Machine.execRoleAssignmentApply n s
  | .startupCalDone => Sys2Proof.Machine.execStartupCalDone s
  | .linkUp rate width flit all3 => Sys2Proof.Machine.execLinkUp rate width flit all3 s
  | .linkDown => Sys2Proof.Machine.execLinkDown s
  | .dStateChange d3 => Sys2Proof.Machine.execDStateChange d3 s
  | .configAccess wr off v => Sys2Proof.Machine.execConfigAccess wr off v s
  | .hdmCommit base ways bi => Sys2Proof.Machine.execHdmCommit base ways bi s
  | .hostMemRead addr => Sys2Proof.Machine.execHostMemRead addr s
  | .hostMemWrite addr data poisoned => Sys2Proof.Machine.execHostMemWrite addr data poisoned s
  | .backInvalidate off => Sys2Proof.Machine.execBackInvalidate off s
  | .hostSnoop addr data => Sys2Proof.Machine.execHostSnoop addr data s
  | .doeRequest proto entry body => Sys2Proof.Machine.execDoeRequest proto entry body s
  | .ideIntegrityFailure stream => Sys2Proof.Machine.execIdeIntegrityFailure stream s
  | .hostLinkError kind bitno => Sys2Proof.Machine.execHostLinkError kind bitno s
  | .viralReceived => Sys2Proof.Machine.execViralReceived s
  | .msixUnmask v => Sys2Proof.Machine.execMsixUnmask v s
  | .ringEnable r => Sys2Proof.Machine.execRingEnable r s
  | .ringDisable r => Sys2Proof.Machine.execRingDisable r s
  | .mmioDoorbell q v => Sys2Proof.Machine.execMmioDoorbell q v s
  | .headIndexWrite r v => Sys2Proof.Machine.execHeadIndexWrite r v s
  | .descriptorFetch => Sys2Proof.Machine.execDescriptorFetch s
  | .jobDispatch j => Sys2Proof.Machine.execJobDispatch j s
  | .completionWrite c => Sys2Proof.Machine.execCompletionWrite c s
  | .waitingCompletionWrite c => Sys2Proof.Machine.execWaitingCompletionWrite c s
  | .eventPost => Sys2Proof.Machine.execEventPost s
  | .evtLost e => Sys2Proof.Machine.execEvtLost e s
  | .imodTimerExpiry r => Sys2Proof.Machine.execImodTimerExpiry r s
  | .jobAbort => Sys2Proof.Machine.execJobAbort s
  | .nopFence j => Sys2Proof.Machine.execNopFence j s
  | .translationCompletion ans => Sys2Proof.Machine.execTranslationCompletion ans s
  | .pageRequestResponse idx code => Sys2Proof.Machine.execPageRequestResponse idx code s
  | .priTimeout idx => Sys2Proof.Machine.execPriTimeout idx s
  | .atsInvalidate pv pasid base size => Sys2Proof.Machine.execAtsInvalidate pv pasid base size s
  | .invalidateCompletion => Sys2Proof.Machine.execInvalidateCompletion s
  | .contextEnable k => Sys2Proof.Machine.execContextEnable k s
  | .contextDisable k => Sys2Proof.Machine.execContextDisable k s
  | .pinDone k => Sys2Proof.Machine.execPinDone k s
  | .granuleIssue wr => Sys2Proof.Machine.execGranuleIssue wr s
  | .hbmTrainingDone results => Sys2Proof.Machine.execHbmTrainingDone results s
  | .pointChangeStart => Sys2Proof.Machine.execPointChangeStart s
  | .pointChangeDone => Sys2Proof.Machine.execPointChangeDone s
  | .retrainRequest => Sys2Proof.Machine.execRetrainRequest s
  | .retrainStart => Sys2Proof.Machine.execRetrainStart s
  | .retrainDone results => Sys2Proof.Machine.execRetrainDone results s
  | .refreshDue x => Sys2Proof.Machine.execRefreshDue x s
  | .forcedRefreshRelease x => Sys2Proof.Machine.execForcedRefreshRelease x s
  | .memRequestIssue x ecc => Sys2Proof.Machine.execMemRequestIssue x ecc s
  | .rowIdleClose x bank => Sys2Proof.Machine.execRowIdleClose x bank s
  | .patrolScrub x ecc => Sys2Proof.Machine.execPatrolScrub x ecc s
  | .rowRepairStart x => Sys2Proof.Machine.execRowRepairStart x s
  | .rowRepairDone x spare => Sys2Proof.Machine.execRowRepairDone x spare s
  | .timeRead => Sys2Proof.Machine.execTimeRead s
  | .referenceLost b => Sys2Proof.Machine.execReferenceLost b s
  | .referencePresent b => Sys2Proof.Machine.execReferencePresent b s
  | .referenceRevert => Sys2Proof.Machine.execReferenceRevert s
  | .slewEnd => Sys2Proof.Machine.execSlewEnd s
  | .timeSet => Sys2Proof.Machine.execTimeSet s
  | .joinWrite v => Sys2Proof.Machine.execJoinWrite v s
  | .timeFrame f tau => Sys2Proof.Machine.execTimeFrame f tau s
  | .pdelayReq f tau => Sys2Proof.Machine.execPdelayReq f tau s
  | .pdelayResp f tau => Sys2Proof.Machine.execPdelayResp f tau s
  | .bcastFrame f tau => Sys2Proof.Machine.execBcastFrame f tau s
  | .msgFrame f tau => Sys2Proof.Machine.execMsgFrame f tau s
  | .snapFrame f tau => Sys2Proof.Machine.execSnapFrame f tau s
  | .frameDrop f => Sys2Proof.Machine.execFrameDrop f s
  | .frameLaunch => Sys2Proof.Machine.execFrameLaunch s
  | .timePeriodTimer => Sys2Proof.Machine.execTimePeriodTimer s
  | .pdelayTimer => Sys2Proof.Machine.execPdelayTimer s
  | .timeFrameTimeout => Sys2Proof.Machine.execTimeFrameTimeout s
  | .blockLockGained out => Sys2Proof.Machine.execBlockLockGained out s
  | .blockLockLost out => Sys2Proof.Machine.execBlockLockLost out s
  | .strumEdge tau => Sys2Proof.Machine.execStrumEdge tau s
  | .timeLaunch j => Sys2Proof.Machine.execTimeLaunch j s
  | .snapshot j => Sys2Proof.Machine.execSnapshot j s
  | .snapshotLatch => Sys2Proof.Machine.execSnapshotLatch s
  | .calibrate j => Sys2Proof.Machine.execCalibrate j s
  | .calItemDone j unit pre r => Sys2Proof.Machine.execCalItemDone j unit pre r s
  | .trackingPass t drift => Sys2Proof.Machine.execTrackingPass t drift s
  | .trimGlideStep t p => Sys2Proof.Machine.execTrimGlideStep t p s
  | .levelReferenceRetired q r => Sys2Proof.Machine.execLevelReferenceRetired q r s
  | .sliceMonitorFail t p cause => Sys2Proof.Machine.execSliceMonitorFail t p cause s
  | .interpolatorBankLost q => Sys2Proof.Machine.execInterpolatorBankLost q s
  | .timingPllUnlock q => Sys2Proof.Machine.execTimingPllUnlock q s
  | .remap j => Sys2Proof.Machine.execRemap j s
  | .remapStart t k => Sys2Proof.Machine.execRemapStart t k s
  | .remapDone t results => Sys2Proof.Machine.execRemapDone t results s
  | .powerGo v => Sys2Proof.Machine.execPowerGo v s
  | .powerEntryDone => Sys2Proof.Machine.execPowerEntryDone s
  | .wakeTimerExpiry => Sys2Proof.Machine.execWakeTimerExpiry s
  | .wake => Sys2Proof.Machine.execWake s
  | .wakeDone => Sys2Proof.Machine.execWakeDone s
  | .digPllStop q => Sys2Proof.Machine.execDigPllStop q s
  | .housekeepingRound temps valid volts => Sys2Proof.Machine.execHousekeepingRound temps valid volts s
  | .graceExpiry q => Sys2Proof.Machine.execGraceExpiry q s
  | .detectorRaise => Sys2Proof.Machine.execDetectorRaise s
  | .railDisagreement det on => Sys2Proof.Machine.execRailDisagreement det on s
  | .collectorDualRail => Sys2Proof.Machine.execCollectorDualRail s
  | .reactionComplete => Sys2Proof.Machine.execReactionComplete s
  | .kstatClear k latched wire => Sys2Proof.Machine.execKstatClear k latched wire s
  | .firstRelease => Sys2Proof.Machine.execFirstRelease s
  | .injectJob j => Sys2Proof.Machine.execInjectJob j s
  | .injectionInForce det => Sys2Proof.Machine.execInjectionInForce det s
  | .injectDisall => Sys2Proof.Machine.execInjectDisall s
  | .cardRemoval => Sys2Proof.Machine.execCardRemoval s
  | .cardInsertion => Sys2Proof.Machine.execCardInsertion s
  | .touchChange down => Sys2Proof.Machine.execTouchChange down s
  | .eotWrite v => Sys2Proof.Machine.execEotWrite v s
  | .trigInEdge ball rise tau => Sys2Proof.Machine.execTrigInEdge ball rise tau s
  | .pinDieLockout q => Sys2Proof.Machine.execPinDieLockout q s
  | .lockoutRelease q => Sys2Proof.Machine.execLockoutRelease q s
  | .ident pec => Sys2Proof.Machine.execIdent pec s
  | .status pec => Sys2Proof.Machine.execStatus pec s
  | .smbusWake pec => Sys2Proof.Machine.execSmbusWake pec s
  | .first pec => Sys2Proof.Machine.execFirst pec s
  | .keystat pec => Sys2Proof.Machine.execKeystat pec s
  | .fuseArm pec v => Sys2Proof.Machine.execFuseArm pec v s
  | .fuseArmExpiry => Sys2Proof.Machine.execFuseArmExpiry s
  | .fuseKey pec slot hash => Sys2Proof.Machine.execFuseKey pec slot hash s
  | .fuseRevoke pec slot => Sys2Proof.Machine.execFuseRevoke pec slot s
  | .fuseSsid pec v => Sys2Proof.Machine.execFuseSsid pec v s
  | .fuseStat pec => Sys2Proof.Machine.execFuseStat pec s
  | .fuseBurnDone ok => Sys2Proof.Machine.execFuseBurnDone ok s
  | .alertResponse => Sys2Proof.Machine.execAlertResponse s
  | .powerOnReset aon => Sys2Proof.Machine.execPowerOnReset aon s
  | .porRelease badKeys badTrims imageOk again => Sys2Proof.Machine.execPorRelease badKeys badTrims imageOk again s
  | .perstReset badKeys badTrims imageOk again => Sys2Proof.Machine.execPerstReset badKeys badTrims imageOk again s
  | .selftestDone fails quads => Sys2Proof.Machine.execSelftestDone fails quads s
  | .warmReset => Sys2Proof.Machine.execWarmReset s
  | .warmResetDone => Sys2Proof.Machine.execWarmResetDone s
  | .cxlReset => Sys2Proof.Machine.execCxlReset s
  | .registerRead off be => Sys2Proof.Machine.execRegisterRead off be s
  | .perstRelease => Sys2Proof.Machine.execPerstRelease s
  | .startupPllsLocked => Sys2Proof.Machine.execStartupPllsLocked s
  | .timingPllRelock q => Sys2Proof.Machine.execTimingPllRelock q s
  | .biSnoopResponse off dirty => Sys2Proof.Machine.execBiSnoopResponse off dirty s
  | .dmaReadCompletion tagNo ok => Sys2Proof.Machine.execDmaReadCompletion tagNo ok s
  | .strumSeenTimeout => Sys2Proof.Machine.execStrumSeenTimeout s
  | .smbusTimeout => Sys2Proof.Machine.execSmbusTimeout s
  | .clampConducts t p => Sys2Proof.Machine.execClampConducts t p s
  | .loadSaturates t p => Sys2Proof.Machine.execLoadSaturates t p s

end Sys2Proof.Machine
end

