-- ==== Sys2Proof/WellFormed.lean ====
section
/-! DEFINITION. Well-formed commands: the bounds of the operands whose type does not give them (units have bounded types;
job numbers, instants and identifiers of transfers are unbounded). -/
namespace Sys2Proof

/-- A register access: a dword of BAR0 (R465, R473) with four byte enables. -/
def dwordOk (off be : Nat) : Bool := off % 4 == 0 && decide (off < 0x4000000) && decide (be < 16)

/-- A frame of the Fjarvor ring: 64 bytes (R348). -/
def frameOk (f : Frame) : Bool := f.length == 64 && f.all fun b => decide (b < 256)

/-- A line of 64 bytes within 2^64 bytes (R255, R267). -/
def lineOk (addr n : Nat) : Bool := decide (addr < 2 ^ 64) && n == 64

/-- A ring number: SQ q, CQ 256 + c, EVR 512 + e (R263). -/
def ringOk (r : Nat) : Bool := decide (r < 516)

/-- A completion or event ring. -/
def outRingOk (r : Nat) : Bool := decide (256 ≤ r) && decide (r < 516)

/-- A detector number (R407): kind below 0x29. -/
def detectorOk (det : Nat) : Bool := decide (1024 ≤ det) && decide (det < 0x29 * 1024)

/-- A calibration result: an item of R368, figure and eye of 16 bits. -/
def calOk (r : CalResult) : Bool := decide (r.item < 10) && decide (r.eye < 2 ^ 16)

/-- The command is well formed. -/
def wellFormed (c : Instr) : Bool :=
  match c with
  | .registerWrite off _ be => dwordOk off be
  | .registerRead off be => dwordOk off be
  | .upperLatchTimeout off => dwordOk off 15
  | .tileLaneTransfer _ _ vec _ _ => decide (vec < 2 ^ 64)
  | .pmuMeasureDone _ _ conv _ _ => decide (0 < conv.length) && decide (conv.length ≤ 65536) && conv.all fun x => decide (-(2 ^ 31) ≤ x) && decide (x < 2 ^ 31)
  | .contactCheckDone _ _ conv _ => conv.length == 16 && conv.all fun x => decide (-(2 ^ 31) ≤ x) && decide (x < 2 ^ 31)
  | .tilSeqJumpGo _ target => decide (target < 4096)
  | .refillData _ r => decide (0 < r.count) && decide (r.count ≤ 65536)
  | .compareResult _ tag samples => decide (tag < 2 ^ 16) && decide (samples.length ≤ 16)
  | .linkUp _ width _ _ => [1, 2, 4, 8, 16].contains width
  | .configAccess _ off _ => off % 4 == 0 && decide (off < 4096)
  | .hdmCommit base _ _ => decide (base < 2 ^ 64)
  | .hostMemRead addr => decide (addr < 2 ^ 64)
  | .hostMemWrite addr data _ => lineOk addr data.length
  | .hostSnoop addr data => lineOk addr data.length
  | .doeRequest proto _ _ => decide (proto < 3)
  | .hostLinkError _ bitno => decide (bitno < 32)
  | .msixUnmask v => decide (v < 2048)
  | .ringEnable r => ringOk r
  | .ringDisable r => ringOk r
  | .headIndexWrite r _ => outRingOk r
  | .imodTimerExpiry r => outRingOk r
  | .pageRequestResponse idx _ => decide (idx < 512)
  | .priTimeout idx => decide (idx < 512)
  | .atsInvalidate _ pasid base _ => decide (pasid < 2 ^ 20) && base % 4096 == 0
  | .hbmTrainingDone results => decide (results < 2 ^ 16)
  | .retrainDone results => decide (results < 2 ^ 16)
  | .rowIdleClose _ bank => decide (bank < 64)
  | .timeFrame f _ => frameOk f
  | .pdelayReq f _ => frameOk f
  | .pdelayResp f _ => frameOk f
  | .bcastFrame f _ => frameOk f
  | .msgFrame f _ => frameOk f
  | .snapFrame f _ => frameOk f
  | .frameDrop f => frameOk f
  | .calItemDone _ _ _ r => calOk r
  | .remapDone _ results => results.all calOk
  | .trackingPass _ drift => decide (drift.length ≤ 18)
  | .housekeepingRound temps valid volts => temps.length == 41 && valid.length == 40 && volts.length == 32
  | .railDisagreement det _ => detectorOk det
  | .injectionInForce det => detectorOk det
  | .fuseKey _ _ hash => hash.all fun b => decide (b < 256)
  | .selftestDone fails quads => (fails.all fun i => decide (i < 864)) && quads.all fun q => decide (q < 240)
  | .biSnoopResponse _ dirty => match dirty with
    | some l => l.length == 64
    | none => true
  | _ => true

end Sys2Proof
end

