-- ==== Sys2Proof/Safety.lean ====
section
/-! DEFINITION. What statements are made about: the canonical state, the outcome of a command that runs, and the
conditions under which a host access reaches its register. -/
namespace Sys2Proof.Machine

/-- The invariant of every step: both memories in canonical form, the register map with rising keys. -/
def Canonical (s : State) : Prop :=
  Memory.wf s.hostMem = true ∧ Memory.wf s.devMem = true ∧ mapRising 0 s.regs = true

/-- Every register field but those at the listed keys reads as before. -/
def RegsBut (s t : State) (ks : List Nat) : Prop := ∀ k, k ∉ ks → mapGet? t.regs k = mapGet? s.regs k

/-- Every byte of host memory and of device memory reads as before. -/
def SameBytes (s t : State) : Prop :=
  (∀ a, memByte t.hostMem a = memByte s.hostMem a) ∧ ∀ a, memByte t.devMem a = memByte s.devMem a

/-- The command answers a next state, of which P holds. -/
def Runs (c : Instr) (s : State) (P : State → Prop) : Prop := ∃ t, exec c s = .next t ∧ P t

/-- A host access of BAR0 completes (R479): no reset in progress, not SEALED, neither D3hot nor a power state below READY, no
lane down. -/
def HostOpen (s : State) : Prop :=
  flag s glb R.GLB_RST_STAT_BUSY = false ∧ sealed s = false ∧ s.d3 = false ∧ powerReady s = true ∧ s.laneDown = []


/-- Bytes are stored from address a up, and every other byte of the memory stays. -/
def StoresAt (m m' : List Host.Cell) (a : Nat) (l : List Nat) : Prop :=
  ∀ b, memByte m' b = if a ≤ b ∧ b < a + l.length then BitVec.ofNat 8 (l.getD (b - a) 0) else memByte m b

/-- A counter that saturates has counted one (R9). -/
def Counted (s t : State) (b : Nat) (f : Field) : Prop := rd t b f = if rd s b f + 1 < 2 ^ f.width then rd s b f + 1 else 2 ^ f.width - 1

/-- Tellers but those listed are as before. -/
def TellersBut (s t : State) (ns : List Nat) : Prop := ∀ m, m ∉ ns → getTel t m = getTel s m

/-- The keys of a teller's queue counts. -/
def queueKeys (n : Nat) : List Nat :=
  [fieldKey (telB n) R.TIL_TEL_QOCC_INBOX 0, fieldKey (telB n) R.TIL_TEL_QOCC_SLOTS 0, fieldKey (telB n) R.TIL_TEL_QOCC_REPORTS 0,
   fieldKey (telB n) R.TIL_TEL_QOCC_OUTBOX 0]

/-- No B write is pending for the listed register fields (fields of other classes never have one: R10). -/
def NotPending (s : State) (ks : List Nat) : Prop := ∀ k ∈ ks, mapGet? s.shadow k = none

/-- No B write is pending for what a teller shows of its state, role, epoch, restarts and halts (no such field is of class B). -/
def TelSettled (s : State) (n : Nat) : Prop :=
  NotPending s ([R.TIL_TEL_STAT_STATE, R.TIL_TEL_STAT_ROLE, R.TIL_TEL_STAT_HCAUSE, R.TIL_TEL_EPOCH_EPOCH, R.TIL_TEL_RESTART_RESTART,
    R.TIL_TEL_HALTS_HALTS].map fun f => fieldKey (telB n) f 0)

/-! ### Tellers: the microword at the PC -/

/-- A and B of the microword at teller n's PC: as latched when it was issued, or as its registers stand. -/
def opA (s : State) (n : Nat) : Nat :=
  match (getTel s n).mw with
  | some m => m.1
  | none => telReg (getTel s n) (mwASel (telWord s n))
def opB (s : State) (n : Nat) : Nat :=
  match (getTel s n).mw with
  | some m => m.2.1
  | none => telReg (getTel s n) (mwBSel (telWord s n))

/-- Part `part` of the microword at teller n's PC can issue: the teller runs, nothing holds or stalls the microword, it is
legal (R218), and its COMMIT, if it carries one, has issued or is this part (R222). -/
def PartReady (s : State) (n part : Nat) : Prop :=
  tellersRun s = true ∧ telState s n = 3 ∧ part ∉ (getTel s n).done ∧
  ∃ s1, mwBegin s n = some s1 ∧ mwFault s1 n (telWord s n) (opA s n) (opB s n) = none ∧
    (mwCommit (telWord s n) = true → part = 0 ∨ 0 ∈ (getTel s1 n).done)

/-- Only teller n changes, and of its parts outside the microword's progress only those a statement names. -/
def TelOnly (s t : State) (n : Nat) : Prop :=
  t = { s with tellers := t.tellers } ∧ ∀ m, m ≠ n → getTel t m = getTel s m

/-- An ALU op of R214 that sets Z and N on its result, cut to the width, and clears C and V: the result goes to DST, every
other register stays. -/
def AluWrites (c : TellerIx → Instr) (code : Nat) (res : Nat → Nat → Nat → Nat) : Prop :=
  ∀ (n : TellerIx) (s : State), PartReady s n 1 → mwAlu (telWord s n) = code →
    Runs (c n) s fun t =>
      let w := telWord s n
      let x := getTel s n
      let y := getTel t n
      let r := res (opA s n) (opB s n) (mwImm w) % 2 ^ mwWidth w
      TelOnly s t n ∧ telReg y (mwDst w) = r ∧ (∀ k, k ≠ mwDst w → telReg y k = telReg x k) ∧
      y.z = decide (r = 0) ∧ y.n = r.testBit (mwWidth w - 1) ∧ y.c = false ∧ y.v = false ∧ 1 ∈ y.done ∧
      y = { x with g := y.g, t := y.t, z := y.z, n := y.n, c := y.c, v := y.v, mw := y.mw, done := y.done, hold := y.hold }

/-- The parts of teller n's microword that have issued. -/
def partsIssued (s : State) (n : Nat) : List Nat := if (getTel s n).mw.isSome then (getTel s n).done else []

/-- The port conditions of teller n's microword, as latched at its issue or as they stand (R217). -/
def opConds (s : State) (n : Nat) : Nat :=
  match (getTel s n).mw with
  | some m => m.2.2
  | none => portConds s (getTel s n)

/-- A condition of R213 as teller n's microword sees it. -/
def condTrue (s : State) (n : Nat) : Bool :=
  let x := getTel s n
  match mwCond (telWord s n) with
  | 0 => true
  | 1 => x.z
  | 2 => !x.z
  | 3 => x.n
  | 4 => x.c
  | 5 => !x.c
  | 6 => x.v
  | 7 => decide (x.lc = 0)
  | k => (opConds s n).testBit k

/-- A sequencing op of R212 with every other part of its microword issued: the microword ends, the PC takes the address that
`f` gives (of the teller, the PC and whether COND holds, A and NEXT), with the loop counter and micro-stack it gives. -/
def SeqMoves (c : TellerIx → Instr) (code : Nat) (f : Teller → Nat → Bool → Nat → Nat → Nat × Nat × List Nat) : Prop :=
  ∀ (n : TellerIx) (s : State), PartReady s n 8 → mwSeq (telWord s n) = code → (∀ p ∈ mwParts (telWord s n), p ∈ partsIssued s n) →
    let x := getTel s n
    let r := f x (telPc s n) (condTrue s n) (opA s n) (mwNext (telWord s n))
    r.1 ≤ 4095 →
    Runs (c n) s fun t =>
      t = { s with tellers := t.tellers, regs := t.regs } ∧ (∀ m, m ≠ n.val → getTel t m = getTel s m) ∧
      RegsBut s t [fieldKey (telB n) R.TIL_TEL_PC_PC 0] ∧ telPc t n = r.1 ∧
      getTel t n = { x with mw := none, done := [], hold := (getTel t n).hold, lc := r.2.1, stack := r.2.2 } ∧
      (x.mw.isSome → (getTel t n).hold = x.hold)

/-- A part of a microword that changes its own teller alone, as `f` says of the state. -/
def PartMakes (c : TellerIx → Instr) (part : Nat) (has : Nat → Bool) (f : State → TellerIx → Teller → Teller) : Prop :=
  ∀ (n : TellerIx) (s : State), PartReady s n part → has (telWord s n) = true →
    Runs (c n) s fun t =>
      TelOnly s t n ∧ part ∈ (getTel t n).done ∧
      getTel t n = { f s n (getTel s n) with mw := (getTel t n).mw, done := (getTel t n).done, hold := (getTel t n).hold }

/-- A read op puts 8 bytes on their way to the T register it names. -/
def onTheWay (x : Teller) (t v : Nat) : Teller := { x with loads := x.loads ++ [⟨t, 0, 0, 0, some (leBytes 8 v)⟩] }

/-! ### Pin channels -/

/-- Keys of status fields of slice p of tile t: those that entry into the safe state settles. -/
def safeKeys (t p : Nat) (cause : Field) : List Nat :=
  [cause, R.CHN_STAT_SAFE, R.CHN_STAT_CMP_RDY, R.CHN_PMU_CTL_CONNECT, R.CHN_PMU_STAT_BUSY, R.CHN_PMU_STAT_DONE, R.CHN_PMU_STAT_ABORTED,
   R.CHN_PMU_RES_RES, R.CHN_CMP_EVT_HI_STATE, R.CHN_CMP_EVT_LO_STATE].map fun f => fieldKey (sliceB t p) f 0

/-- Slice p of tile t has entered the safe state for a cause (R57 to R59): the cause and `SAFE` read 1, `CONNECT` 0, the
comparators X and not ready, driver and load off; a measurement that ran has ended with `ABORTED`, its result unchanged. -/
def EnteredSafe (s t : State) (ti p : Nat) (cause : Field) : Prop :=
  let b := sliceB ti p
  flag t b cause = true ∧ flag t b R.CHN_STAT_SAFE = true ∧ flag t b R.CHN_PMU_CTL_CONNECT = false ∧ flag t b R.CHN_STAT_CMP_RDY = false ∧
  rd t b R.CHN_CMP_EVT_HI_STATE = 2 ∧ rd t b R.CHN_CMP_EVT_LO_STATE = 2 ∧ (getSlice t ti p).drive = .off ∧ (getSlice t ti p).load = false ∧
  (∀ j, (getSlice s ti p).pmu = .measuring j → flag t b R.CHN_PMU_STAT_ABORTED = true ∧ flag t b R.CHN_PMU_STAT_DONE = false ∧
    flag t b R.CHN_PMU_STAT_BUSY = false ∧ rd t b R.CHN_PMU_RES_RES = rd s b R.CHN_PMU_RES_RES) ∧
  ((getSlice s ti p).pmu = .idle → SameBytes s t)

/-! ### Timing -/

/-- R65: the boundary of vector n by the registers of tile t: E + round_half_up((N - PH0) * 2^63 / FTW), in 2^-16 ns. -/
def boundaryTime (s : State) (t n : Nat) : Nat :=
  let l := lawOf s t
  l.e + (2 * ((n - l.ph0) * 2 ^ 63) + l.ftw) / (2 * l.ftw)

/-- A refused EN, ARM or CANCEL shows `REFUSED` with its cause and changes nothing else. -/
def VclkRefused (s t : State) (ti cause : Nat) : Prop :=
  flag t (tileB ti) R.TIL_VCLK_STAT_REFUSED = true ∧ rd t (tileB ti) R.TIL_VCLK_STAT_RCAUSE = cause ∧ t = { s with regs := t.regs } ∧
  RegsBut s t [fieldKey (tileB ti) R.TIL_VCLK_STAT_REFUSED 0, fieldKey (tileB ti) R.TIL_VCLK_STAT_RCAUSE 0]

/-! ### Jobs, gangs and patterns -/

/-- Job j has not ended. -/
def JobOpen (s : State) (j : Nat) : Prop := ∃ x, getJob? s j = some x ∧ jobEnded x = false

/-- Job j has ended with a status and results; its completion follows its last write (R273). -/
def JobEnds (t : State) (j st r0 r1 r2 : Nat) : Prop :=
  ∃ x, getJob? t j = some x ∧ (x.phase = .done st r0 r1 r2 ∨ x.phase = .draining st r0 r1 r2)

/-- Job j of opcode op stands at the head of its owners' queues and is not one that R401 has deferred. -/
def JobStarts (s : State) (j op : Nat) (x : Job) : Prop := jobReady s j op = some x ∧ x.phase = .dispatched ∧ x.units = []

/-- Gang l is g; every other gang is as before. -/
def GangTo (s t : State) (l : Nat) (g : Gang) : Prop := getGang? t l = some g ∧ ∀ m, m ≠ l → getGang? t m = getGang? s m

/-- The gang has returned from ARMED to LOADED (R90, R111): it is gone, its tiles are LOADED and free, and its job has ended
with the status, the start vector in RES1. -/
def Disarmed (s t : State) (l : Nat) (g : Gang) (st : Nat) : Prop :=
  getGang? t l = none ∧ (∀ m, m ≠ l → getGang? t m = getGang? s m) ∧
  (∀ u ∈ g.tiles, (getTile t u).gang = none ∧ (NotPending s [fieldKey (tileB u) R.TIL_SEQ_STAT_STATE 0] → seqState t u = 1)) ∧
  (∀ j, g.job = some j → JobOpen s j → ∃ r0 r2, JobEnds t j st r0 (g.ns.getD 0) r2) ∧ SameBytes s t

/-- The tiles are ARMED as one gang that starts at Ts, 0 for when ready (R97, R110, R111, R127, R129): generators at their
bases, nothing delivered, the sites' `PFAIL` and `NORETEST` clear and their results saved. -/
def ArmedAs (s t : State) (tiles : List Nat) (ts : Nat) (job : Option Nat) : Prop :=
  let l := tiles.headD 0
  (∃ g, GangTo s t l g ∧ g.tiles = tiles ∧ g.job = job ∧ g.started = false ∧ g.holds = [] ∧ g.jumps = [] ∧ g.abort = none ∧
    g.sites = gangSites s tiles ∧ (ts ≠ 0 → g.ts = ts ∧ g.ns = some (lawNext (lawOf s l) ts)) ∧
    (ts = 0 → g.ns = none ∨ g.ns = some (lawNext (lawOf s l) (s.now + usec 2)))) ∧
  (∀ u ∈ tiles, seqState t u = 2 ∧ (getTile t u).gang = some l ∧ (getTile t u).delivered = 0 ∧ (getTile t u).fifo = [] ∧
    flag t (tileB u) R.TIL_SEQ_STAT_LEADER = (u == l) ∧ rd t (tileB u) R.TIL_SEQ_SEGCNT_SEGCNT = 0 ∧
    rd t (tileB u) R.TIL_SEQ_X_VAL = rd s (tileB u) R.TIL_SEQ_XBASE_VAL % 2 ^ 24 ∧
    rd t (tileB u) R.TIL_SEQ_Y_VAL = rd s (tileB u) R.TIL_SEQ_YBASE_VAL % 2 ^ 24 ∧
    rd t (tileB u) R.TIL_SEQ_D_VAL = rd s (tileB u) R.TIL_SEQ_DATA_A_VAL % 2 ^ 32) ∧
  (∀ u, u ∉ tiles → getTile t u = getTile s u) ∧
  (∀ i ∈ gangSites s tiles, flag t (siteB i) R.GLB_SITE_STAT_PFAIL = false ∧ flag t (siteB i) R.GLB_SITE_STAT_NORETEST = false ∧
    ∃ k, (getSite t i).ckpt = some k ∧ k.fcnt = rd s (siteB i) R.GLB_SITE_FCNT_FCNT ∧ k.fvec = siteFvec s i ∧
      k.fail = rd s (siteB i) R.GLB_SITE_STAT_FAIL ∧ k.pfail = rd s (siteB i) R.GLB_SITE_STAT_PFAIL) ∧
  t = { s with regs := t.regs, gangs := t.gangs, tiles := t.tiles, sites := t.sites, tellers := t.tellers, roleEvts := t.roleEvts
               items := t.items, rings := t.rings }

/-- A target that a jump accepts (R116): END, or a resident segment of the gang's pattern. -/
def JumpTarget (s : State) (g : Gang) (target : Nat) : Prop :=
  target = 0xFFF ∨ ∃ p x, leaderPat s g = some p ∧ p.segs[target]? = some x ∧ x.resident = true

/-! ### Segments, sites and ledgers -/

/-- The first event of tile t's gang, due at the leader's next boundary, which the generator has passed. -/
def EventDue (s : State) (t l : Nat) (g : Gang) (v : Nat) (e : GangEv) (rest : List (Nat × GangEv)) : Prop :=
  gangOf s t = some (l, g) ∧ g.waiting = false ∧ g.evs = (v, e) :: rest ∧ v ≤ (getTile s l).nextVec ∧ (getTile s l).nextVec < g.genNext ∧
  g.tiles.Nodup ∧ (∀ i ∈ g.sites, i < 256)

/-- Segment seg has started at vector v (R12, R108, R109): its tiles are in RUN at it, one segment more is counted, and the
leader's pattern gives the TRIG_OUT pulses and the START frame. -/
def SegmentBegun (s t : State) (l : Nat) (g : Gang) (seg v : Nat) : Prop :=
  let tn := lawTime (lawOf s l) v
  (∀ u ∈ g.tiles, seqState t u = 3 ∧ rd t (tileB u) R.TIL_SEQ_STAT_SEG = seg % 2 ^ 12 ∧
    Counted s t (tileB u) R.TIL_SEQ_SEGCNT_SEGCNT ∧
    ∀ k, tileB u * 32 ≤ k → k < (tileB u + 0x4000) * 32 → mapGet? t.shadow k = none) ∧
  ∀ p, leaderPat s g = some p →
    (∀ i, i < 8 → mapGet? t.trigOut i = if (segOf p seg).tout.testBit i then
      some ((mapGet s.trigOut i []).filter (fun x => decide (tn < x + nsec 8)) ++ [tn]) else mapGet? s.trigOut i) ∧
    t.startQ = if (segOf p seg).bcast then s.startQ ++ [(seg, tn)] else s.startQ

/-- The gang is over (R115, R283): it is gone, its tiles are free, and its job ends with its status, its last run's first vector
not emitted and the sites retested; no journal of its sites holds an entry. -/
def GangEnded (s t : State) (l : Nat) (g : Gang) : Prop :=
  getGang? t l = none ∧ (∀ m, m ≠ l → getGang? t m = getGang? s m) ∧ (∀ u ∈ g.tiles, (getTile t u).gang = none) ∧
  (∀ i ∈ g.sites, (getSite s i).parts.length = 4 → ∀ q, q < 4 → (partOf (getSite t i) q).journal = []) ∧
  ∀ j, g.job = some j → JobOpen s j → ∃ r0, JobEnds t j (if g.status = 0 ∧ g.warn = true then 0x0010 else g.status) r0 g.stopAt
    (g.retested.length % 2 ^ 16 + b2n g.anyStarved * 2 ^ 16 + b2n g.restarted * 2 ^ 17)

/-- R128: a register of a pool takes value v of register r: BASE_LO, BASE_HI or SIZE; a non-empty pool outside the sector's home
channels stores SIZE 0. -/
def PoolTakes (s t : State) (q : Nat) (lo hi size : Field) (r v : Nat) : Prop :=
  let b := secB q
  let l := if r = 0 then v / 4096 * 4096 else rd s b lo
  let h := if r = 1 then v else rd s b hi
  let n := if r = 2 then v else rd s b size
  rd t b lo = l ∧ rd t b hi = h ∧ rd t b size = if n = 0 ∨ poolInHome s q (l + h * 2 ^ 32) (n * 4096) = true then n else 0

/-- The host's write to an s field while its block runs (R10, R478): recorded with cause STATIC where it would change the
field, and nothing else. -/
def PoolIgnores (s t : State) (same : Bool) : Prop :=
  t = { s with regs := t.regs } ∧
  RegsBut s t ([R.GLB_ACC_STAT_VALID, R.GLB_ACC_STAT_CAUSE, R.GLB_ACC_STAT_WR, R.GLB_ACC_STAT_TELLER, R.GLB_ACC_STAT_TNUM,
    R.GLB_ACC_ADDR_OFFSET, R.GLB_ACC_CNT_COUNT].map fun f => fieldKey glb f 0) ∧
  (same = true → t = s) ∧
  (same = false → flag t glb R.GLB_ACC_STAT_VALID = true ∧ Counted s t glb R.GLB_ACC_CNT_COUNT ∧
    (flag s glb R.GLB_ACC_STAT_VALID = false → rd t glb R.GLB_ACC_STAT_CAUSE = 6))

/-! ### Digitizers -/

/-- R167, R168, R170, R174, R181: what has come of a trigger at instant tau from a source at digitizer q: ignored while STOPPED or
SETTLING; before the last accepted instant, or not past the last post-trigger sample by 32 ns, counted missed; before the end
of the holdoff ignored; with too few samples before it counted early, or accepted SHORT; else accepted, and CAPTURE runs;
counted missed where one accepted in the same stored sample goes before it. -/
def TriggerJudged (s t : State) (q src tau : Nat) : Prop :=
  let b := secB q
  let d := getDig s q
  let e := getDig t q
  let jt := (trigSample (digTout s q) tau).1
  let a := jt + 1 - d.fillJ
  let pre := rd s b R.DIG_PRE_PRE
  let clear := d.maskStop = false ∧ d.holdEnd ≤ tau ∧ (∀ x, d.lastTau = some x → x ≤ tau) ∧ ∀ x, d.endAt = some x → x + nsec 32 ≤ tau
  let fits := d.nextSeq ≠ 0 ∨ d.open_ ≠ none ∨ d.fillJ ≤ jt + 1
  let meets := fun (u : DigUndo) => digState s q = 4 ∧ (s.now / digTout s q = u.sample ∨ (u.src = 0xA ∧ src ≠ 0xA ∧ tau / digTout s q = u.jt))
  (∀ u, d.undo = some u → meets u → u.src ≠ 0xA → (∃ x, d.lastTau = some x ∧ (x < tau ∨ (x = tau ∧ u.src ≤ src))) →
    Counted s t b R.DIG_MISSED_MISSED ∧ e = { d with missed := d.missed + 1 } ∧ digState t q = 4) ∧
  ((∀ u, d.undo = some u → ¬meets u) →
  (digState s q ≤ 1 → e = d ∧ digState t q = digState s q) ∧
  (2 ≤ digState s q → fits → (∃ x, d.lastTau = some x ∧ tau < x) → Counted s t b R.DIG_MISSED_MISSED ∧ e = { d with missed := d.missed + 1 }) ∧
  (2 ≤ digState s q → fits → (∀ x, d.lastTau = some x → x ≤ tau) → tau < d.holdEnd → e = d ∧ digState t q = digState s q) ∧
  (2 ≤ digState s q → fits → (∀ x, d.lastTau = some x → x ≤ tau) → d.holdEnd ≤ tau → (∃ x, d.endAt = some x ∧ tau < x + nsec 32) →
    Counted s t b R.DIG_MISSED_MISSED ∧ e = { d with missed := d.missed + 1 } ∧ digState t q = digState s q) ∧
  (2 ≤ digState s q → fits → clear → a < pre → flag s b R.DIG_CFG_POLICY = false →
    Counted s t b R.DIG_EARLY_EARLY ∧ e = { d with early := d.early + 1 } ∧ digState t q = digState s q) ∧
  (2 ≤ digState s q → fits → clear → (pre ≤ a ∨ flag s b R.DIG_CFG_POLICY = true) →
    digState t q = 4 ∧ e.lastTau = some tau ∧ e.holdEnd = tau + holdoffOf s q ∧ e.endAt = some ((jt + digPost s q) * digTout s q) ∧ e.autoAt = none ∧
    e.store = d.store ∧ e.spillQ = d.spillQ ∧ e.nextSeq = d.nextSeq ∧
    (d.open_ = none → ∃ g, e.open_ = some g ∧ g.seq = d.nextSeq ∧ g.tau = tau ∧ g.src = src ∧ g.jt = jt ∧ g.pre = min a pre ∧
      g.tfrac = (trigSample (digTout s q) tau).2 ∧ g.flags.testBit 0 = decide (a < pre) ∧ g.flags.testBit 1 = decide (src = 0xA)) ∧
    ∀ g, d.open_ = some g → ∃ h, e.open_ = some h ∧ h.jt = jt ∧ h.tau = g.tau ∧ h.seq = g.seq ∧ h.pre = g.pre ∧ h.accs = g.accs))

/-- R164: the line crosses what `DIG_TRIG_LVL` and `DIG_TRIG_WIN` watch as it moves from code a to code b: of the level LO, up or down; of the window, in
or out of LO to HI; a crossing lies half the hysteresis beyond the bound on both sides. -/
def LineCrosses (s : State) (q : Nat) (a b : Int) : Prop :=
  let lo := signed 12 (rd s (secB q) R.DIG_TRIG_WIN_LO)
  let hi := signed 12 (rd s (secB q) R.DIG_TRIG_WIN_HI)
  let hys : Int := rd s (secB q) R.DIG_TRIG_LVL_HYS
  let dir := rd s (secB q) R.DIG_TRIG_LVL_DIR
  let past := fun (x u v : Int) => 2 * u < 2 * x - hys ∧ 2 * x + hys < 2 * v
  let first := if flag s (secB q) R.DIG_TRIG_LVL_COND = true then (past lo a b ∧ b ≤ hi) ∨ (past hi b a ∧ lo ≤ b) else past lo a b
  let second := if flag s (secB q) R.DIG_TRIG_LVL_COND = true then (past lo b a ∧ a ≤ hi) ∨ (past hi a b ∧ lo ≤ a) else past lo b a
  (dir ≠ 1 ∧ first) ∨ (dir ≠ 0 ∧ second)

/-- Of the state, a trigger at digitizer q changes the digitizer, its registers and what its ACQUIRER is told. -/
def DigOnly (s t : State) (q : Nat) : Prop :=
  t = { s with now := t.now, regs := t.regs, digs := t.digs, tellers := t.tellers, roleEvts := t.roleEvts, items := t.items } ∧
  (∀ r, r ≠ q → getDig t r = getDig s r) ∧ s.now ≤ t.now

/-! ### Register accesses -/

/-- The register at offset o of its block has no operation of its own: a write does to its fields what their classes say. -/
def PlainReg (blk : Blk) (o : Nat) : Bool :=
  match blk with
  | .slice _ _ => !([0, 4, 8, 0x10, 0x18, 0x20, 0x220].contains o) && !(decide (0x100 ≤ o) && decide (o < 0x200))
  | .tile _ => !([0, 0x18, 0x100].contains o)
  | .sec _ => !([0, 0x24, 0x28, 0x10C, 0x110].contains o) && !(decide (0x80000 ≤ o) && decide (o < 0x8001C))
  | .sq _ => o != 0x18
  | .ring _ => o != 0x14
  | .ctx _ => o != 0
  | .site _ => o != 0x18
  | .flt => !([0x400000, 0x400018].contains o) && !(decide (0x400100 ≤ o) && decide (o < 0x400200))
  | .glb => !([4, 0x1004].contains o)
  | .hat => o != 0x100100
  | .tim => !([0x300000, 0x300008, 0x30000C].contains o)
  | .pwr => o != 0x420000
  | .mem => o != 0x800000
  | .xlt => true
  | .thm => true
  | .teller _ => true
  | .fret _ _ _ => true

/-- The key of a register's field element. -/
def fieldAt (blk : Blk) (x : Field × Nat) : Nat := fieldKey (blkBase blk) x.1 x.2

/-- R7, R10, R11, R477: each field of the register takes its part of the value as its access and class say: RW as stored, at once or
(B, running) when its boundary comes, or (S, running) not at all, with the block's `WR_IGN` where it would change; W1C loses
the bits written 1; every other field, and every other register, stays. -/
def FieldsTake (s t : State) (blk : Blk) (a v : Nat) : Prop :=
  let b := blkBase blk
  let run := blkRuns s blk (a - b)
  (∀ x ∈ regFields blk a, x.1.sto ≠ .custom →
    let w := storeAs x.1.sto (bits v x.1.lsb x.1.width) % 2 ^ x.1.width
    (x.1.acc = .rw → (run = false ∨ x.1.cls = .l) → rdi t b x.1 x.2 = w) ∧
    (x.1.acc = .rw → run = true → x.1.cls = .b → mapGet? t.shadow (fieldAt blk x) = some w ∧ rdi t b x.1 x.2 = rdi s b x.1 x.2) ∧
    (x.1.acc = .rw → run = true → x.1.cls = .s → rdi t b x.1 x.2 = rdi s b x.1 x.2 ∧
      (w ≠ rdi s b x.1 x.2 → ∀ f, ignFlag blk (a - b) = some f → flag t b f = true))) ∧
  (∀ x ∈ regFields blk a, x.1.acc = .w1c → rdi t b x.1 x.2 = rdi s b x.1 x.2 &&& (2 ^ x.1.width - 1 - bits v x.1.lsb x.1.width)) ∧
  (∀ x ∈ regFields blk a, (x.1.acc = .ro ∨ x.1.acc = .wo ∨ x.1.acc = .rc) → rdi t b x.1 x.2 = rdi s b x.1 x.2) ∧
  (∀ k, k ∉ (regFields blk a).map (fieldAt blk) → (∀ f, ignFlag blk (a - b) = some f → k ≠ fieldKey b f 0) → mapGet? t.regs k = mapGet? s.regs k) ∧
  (∀ k, k ∉ (regFields blk a).map (fieldAt blk) → mapGet? t.shadow k = mapGet? s.shadow k)

/-- The offset names a plain register of a block, no retired slice's. -/
def PlainAt (s : State) (blk : Blk) (a : Nat) : Prop :=
  blkOf a = some blk ∧ a < bar0Size ∧ standardRange a = false ∧ regFields blk a ≠ [] ∧ PlainReg blk (a - blkBase blk) = true ∧
  (∀ t p, blk = .slice t p → isRetired s t p = false) ∧ ((regFields blk a).map (fieldAt blk)).Nodup ∧
  ∀ x ∈ regFields blk a, x.1.acc = .rw → ∀ f, ignFlag blk (a - blkBase blk) = some f → fieldKey (blkBase blk) f 0 ∉ (regFields blk a).map (fieldAt blk)

/-- R468: a host access is recorded with a cause, and does nothing else. -/
def AccessRecorded (s t : State) (cause : Nat) (isWr : Bool) (a : Nat) : Prop :=
  t = { s with regs := t.regs } ∧
  RegsBut s t ([R.GLB_ACC_STAT_VALID, R.GLB_ACC_STAT_CAUSE, R.GLB_ACC_STAT_WR, R.GLB_ACC_STAT_TELLER, R.GLB_ACC_STAT_TNUM,
    R.GLB_ACC_ADDR_OFFSET, R.GLB_ACC_CNT_COUNT].map fun f => fieldKey glb f 0) ∧
  flag t glb R.GLB_ACC_STAT_VALID = true ∧ Counted s t glb R.GLB_ACC_CNT_COUNT ∧
  (flag s glb R.GLB_ACC_STAT_VALID = false → rd t glb R.GLB_ACC_STAT_CAUSE = cause ∧ flag t glb R.GLB_ACC_STAT_WR = isWr ∧
    rd t glb R.GLB_ACC_ADDR_OFFSET = a % 2 ^ 26) ∧
  (flag s glb R.GLB_ACC_STAT_VALID = true → rd t glb R.GLB_ACC_STAT_CAUSE = rd s glb R.GLB_ACC_STAT_CAUSE ∧
    rd t glb R.GLB_ACC_ADDR_OFFSET = rd s glb R.GLB_ACC_ADDR_OFFSET)

/-! ### Host attach and rings -/

/-- Someone's Translation Request for a page is out, or its page request group waits. -/
def XltAsked (t : State) (page who : Nat) : Prop :=
  (∃ x ∈ t.xlt.reqs, x.va = page ∧ who ∈ x.who) ∨ ∃ g ∈ t.xlt.groups, g.va = page ∧ who ∈ g.who

/-- The condition of a level detector holds, or holds no more (R499). -/
def LevelSet (t : State) (kind inst : Nat) (b : Prop) : Prop := detNo kind inst ∈ t.flt.real ↔ b

/-- R259: vector v has been raised: its message is sent, or its pending bit set. -/
def VectorRaised (s t : State) (v : Nat) : Prop :=
  if msixBlocked s v = true then v ∈ t.rings.msixPend else mapGet t.rings.msixSent v 0 = mapGet s.rings.msixSent v 0 + 1

/-- R268: value v has been judged at SQ q: nothing; stale; accepted; or a ring error PIDX, with its event. -/
def IndexJudged (s t : State) (q v : Nat) : Prop :=
  let b := sqB q
  let pd := rd s b R.HAT_SQ_PIDX_PIDX
  let n := 2 ^ ringLog2 s q
  let back := (pd + 2 ^ 32 - v) % 2 ^ 32
  let ahead := (v + 2 ^ 32 - rd s b R.HAT_SQ_CIDX_CIDX) % 2 ^ 32
  (v = pd → t.regs = s.regs ∧ t.rings = s.rings) ∧
  (v ≠ pd → 1 ≤ back → back ≤ n → flag t b R.HAT_SQ_STAT_STALE = true ∧ RegsBut s t [fieldKey b R.HAT_SQ_STAT_STALE 0] ∧ t.rings = s.rings) ∧
  (v ≠ pd → ¬(1 ≤ back ∧ back ≤ n) → ahead ≤ n → rd t b R.HAT_SQ_PIDX_PIDX = v ∧ RegsBut s t [fieldKey b R.HAT_SQ_PIDX_PIDX 0] ∧ t.rings = s.rings) ∧
  (v ≠ pd → ¬(1 ≤ back ∧ back ≤ n) → n < ahead → flag t b R.HAT_SQ_STAT_ERR = true ∧ rd t b R.HAT_SQ_STAT_ECAUSE = 1 ∧ q ∈ t.rings.stopped ∧
    RegsBut s t [fieldKey b R.HAT_SQ_STAT_ERR 0, fieldKey b R.HAT_SQ_STAT_ECAUSE 0] ∧
    t.rings = { s.rings with stopped := t.rings.stopped, events := s.rings.events ++ [⟨0x06, q, 1, v, s.now⟩] })

/-- SQ r is enabled and gets its producer index from the device cache (R267). -/
def Snoops (s : State) (r : Nat) : Prop := ringEn s r = true ∧ flag s (sqB r) R.HAT_SQ_CFG_SNOOP = true

/-- The producer index of a snooping SQ lies at host address pa, in one of the lines lo to hi. -/
def Watches (s : State) (r lo hi pa : Nat) : Prop :=
  Snoops s r ∧ ringAcc s r (ringPloc s r) false = .ok (.host pa) ∧ lo ≤ pa / 64 ∧ pa / 64 ≤ hi

/-- A ring has stopped by an error (R294): `ERR` with its cause, and a RING_ERR event. -/
def RingStopped (s t : State) (r cause : Nat) : Prop :=
  flag t (ringB r) (if isSq r then R.HAT_SQ_STAT_ERR else R.HAT_CQ_STAT_ERR) = true ∧
  rd t (ringB r) (if isSq r then R.HAT_SQ_STAT_ECAUSE else R.HAT_CQ_STAT_ECAUSE) = cause ∧ r ∈ t.rings.stopped ∧
  ∃ v, t.rings.events = s.rings.events ++ [⟨0x06, r, cause, v, s.now⟩]

/-- R275, R280: one entry of four words goes to the slot that W names, with the lap's PHASE in bit 63 of the last, and W moves on. -/
def EntryAt (s t : State) (r : Nat) (w : Where) (l : List Nat) : Prop :=
  let l1 := withPhase s r l
  (∀ pa, w = .host pa → StoresAt s.hostMem t.hostMem pa l1 ∧ t.devMem = s.devMem) ∧
  (∀ d, w = .dev d → StoresAt s.devMem t.devMem d l1 ∧ t.hostMem = s.hostMem) ∧
  rd t (ringB r) R.HAT_CQ_WIDX_WIDX = (ringW s r + 1) % 2 ^ 32

/-- CQ or EVR r takes entries now: its link, stream, enable and slot (R274, R280, R294). -/
def RingTakes (s : State) (r : Nat) (w : Where) : Prop :=
  ringOpen s r = true ∧ ringFull s r = false ∧ ringAcc s r (slotAddr s r (ringW s r) 32) true = .ok w ∧ 256 ≤ r ∧ r < 516

/-- R281: an interrupt has been raised for an entry, or one more is pending, its timer started with the first. -/
def EntryCounts (s t : State) (r : Nat) (cie : Bool) : Prop :=
  let n := mapGet s.rings.pend r 0 + 1
  let vec := rd s (ringB r) R.HAT_CQ_CFG_VEC
  if flag s (ringB r) R.HAT_CQ_CFG_IEN = false then t.rings.pend = s.rings.pend ∧ t.rings.timers = s.rings.timers ∧ t.rings.msixSent = s.rings.msixSent
  else if cie = true ∨ rd s (ringB r) R.HAT_CQ_IMOD_COUNT ≤ n then mapGet? t.rings.pend r = none ∧ r ∉ t.rings.timers ∧ VectorRaised s t vec
  else mapGet? t.rings.pend r = some n ∧ (r ∈ t.rings.timers ↔ (r ∈ s.rings.timers ∨ (n = 1 ∧ rd s (ringB r) R.HAT_CQ_IMOD_TIME ≠ 0)))

/-! ### Translation -/

/-- R309: the record of a job that ended with a translation status, its page and its TAG. -/
def FaultRecorded (s t : State) (x : Job) (st va : Nat) : Prop :=
  flag t glb R.XLT_FLT_STAT_VALID = true ∧ rd t glb R.XLT_FLT_STAT_STATUS = st ∧ rd t glb R.XLT_FLT_TAG_TAG = x.tag % 2 ^ 32 ∧
  flag t glb R.XLT_FLT_INFO_PV = jobPv s x ∧ rd t glb R.XLT_FLT_INFO_PASID = jobPasid s x % 2 ^ 20 ∧ rd t glb R.XLT_FLT_INFO_SQ = x.sq % 2 ^ 8 ∧
  rd64 t glb R.XLT_FLT_ADDR_LO_ADDR R.XLT_FLT_ADDR_HI_ADDR = va / 4096 * 4096 % 2 ^ 64

/-- Job j, no capture's, has ended with a translation status, results 0 and its record (R298, R303, R306, R309); its streams are gone. -/
def XltEnds (s t : State) (j st va : Nat) : Prop :=
  JobEnds t j st 0 0 0 ∧ (∀ x, getJob? s j = some x → FaultRecorded s t x st va) ∧ (∀ y ∈ t.xlt.streams, y.job ≠ j) ∧ SameBytes s t

/-- Job j is open and is no ARM_ACQ, whose spill stream R175 ends by its own rule. -/
def Ordinary (s : State) (j : Nat) : Prop := ∃ x, getJob? s j = some x ∧ jobEnded x = false ∧ x.opcode ≠ 0x30

/-- An invalidation of a range covers a translation (R293). -/
def Covers (pv : Bool) (pasid base size : Nat) (e : AtcEntry) : Prop :=
  e.pv = pv ∧ (pv = true → e.pasid = pasid) ∧ e.va < base + size ∧ base < e.va + 2 ^ e.size

/-- The pin of context k has ended without success (R297). -/
def PinFailed (s t : State) (k : Nat) : Prop :=
  flag t (ctxB k) R.XLT_CTX_CFG_EN = false ∧ flag t (ctxB k) R.XLT_CTX_STAT_PBUSY = false ∧ flag t (ctxB k) R.XLT_CTX_STAT_PFAIL = true ∧
  (∀ e ∈ t.xlt.atc, 600 + k ∉ e.locks) ∧ t = { s with regs := t.regs, xlt := t.xlt } ∧
  RegsBut s t ([R.XLT_CTX_CFG_EN, R.XLT_CTX_STAT_PBUSY, R.XLT_CTX_STAT_PFAIL, R.XLT_CTX_STAT_RFAIL].map fun f => fieldKey (ctxB k) f 0)

/-! ### Device memory controller -/

/-- A bank of the refresh round of pseudo-channel x without a real-time request (R325). -/
def FreeBank (s : State) (x b : Nat) : Prop := b < nbanks ∧ b ∉ mapGet s.hbm.round x [] ∧ bankBusy s x b = false

/-- Bank b of pseudo-channel x has been refreshed: its row is closed, and a round of NB refreshes begins anew (R318, R324). -/
def BankRefreshed (s t : State) (x b : Nat) : Prop :=
  let done := b :: mapGet s.hbm.round x []
  mapGet? t.hbm.rows (64 * x + b) = none ∧ mapGet t.hbm.round x [] = if done.length < nbanks then done else []

/-- R328, R329, R331, R408: an uncorrectable line has been counted, its address latched, its detector signalled, with the second of its two classes
where a real-time master read it, and its row is due for repair. -/
def Uncorrectable (s t : State) (line : Nat) (rt : Bool) : Prop :=
  Counted s t glb R.MEM_UE_UE ∧ rd t glb R.MEM_UE_ADDR_LO_ADDR = line * 64 % 2 ^ 32 ∧ rd t glb R.MEM_UE_ADDR_HI_ADDR = line * 64 / 2 ^ 32 % 2 ^ 3 ∧
  flag t glb R.MEM_UE_ADDR_HI_VALID = true ∧ line ∈ t.badLines ∧ (detNo 0x15 (pcOf line / 2), b2n rt * 2 ^ 16) ∈ t.flt.signals ∧
  ((pcOf line, rowOf line) ∈ t.hbm.due ∨ (pcOf line, rowOf line) ∈ t.hbm.repairing)

/-- R328: a corrected line has been counted and is written back at rank 4. -/
def Corrected (s t : State) (line : Nat) : Prop := Counted s t glb R.MEM_CE_CE ∧ ⟨4, 7, 0, line, true, 0⟩ ∈ t.hbm.reqs

/-! ### Time base and ring -/

/-- R341: QUAL is the worst row that holds, for a device that is not the master no better than the last TIME frame's. -/
def QualShown (t : State) : Prop :=
  let master := rd t glb R.TIM_CFG_POS = 0
  let row := if t.ring.everSet = false then 3 else if flag t glb R.TIM_REF_STAT_HOLD = true ∨ t.ring.holdSlew = true ∨ powerReady t = false then 2
    else if ¬master ∧ t.ring.noFrame = true then 1 else 0
  rd t glb R.TIM_STAT_QUAL = (if master then row else max row t.ring.qualIn) % 2 ^ 4

/-- The presence field of reference b: REF_A for false, REF_B for true. -/
def refField (b : Bool) : Field := if b then R.TIM_REF_STAT_B_OK else R.TIM_REF_STAT_A_OK

/-- R339: the time base has switched to input b, ring time moved by at most 50 ps; which step it makes no rule gives. -/
def RefSwitched (s t : State) (b : Bool) : Prop :=
  flag t glb R.TIM_REF_STAT_SEL = b ∧ flag t glb R.TIM_REF_STAT_SWITCHED = true ∧ (detNo 0x19 0, b2n b) ∈ t.flt.signals ∧
  (∃ d : Int, -3 ≤ d ∧ d ≤ 3 ∧ t.now = ((s.now : Int) + d).toNat) ∧ t = { s with now := t.now, fresh := t.fresh, regs := t.regs, flt := t.flt, ring := t.ring }

/-- R357: what an accepted edge measures at instant tau: ARR, OFS against the nearest second and, on a steering master, the slew. -/
def StrumMeasured (s t : State) (tau : Nat) : Prop :=
  let sec : Int := 65536000000000
  let x : Int := (tau : Int) - signed 32 (rd s glb R.TIM_STRUM_DLY_DLY)
  let ofs := x - (2 * x + sec) / (2 * sec) * sec
  rd t glb R.TIM_STRUM_ARR0_FRAC = tau % 65536 ∧ rd t glb R.TIM_STRUM_ARR1_NS = tau / 65536 % 1000000000 ∧
  rd t glb R.TIM_STRUM_ARR2_SECL = tau / 65536 / 1000000000 % 2 ^ 32 ∧
  rd t glb R.TIM_STRUM_OFS_OFS = unsigned 32 (clampInt (-2147483648) 2147483647 ofs) % 2 ^ 32 ∧
  (rd s glb R.TIM_CFG_POS = 0 → flag s glb R.TIM_STRUM_CTL_STEER = true → t.ring.slew = -ofs ∧ flag t glb R.TIM_STAT_SLEWING = (-ofs != 0)) ∧ t.now = max s.now tau

/-- R350: a frame of a type that arrives on IN is neither dropped nor removed. -/
def Accepted (s : State) (f : List Nat) (type : Nat) : Prop :=
  linkIn s ≠ 0 ∧ frameCrcOk f = true ∧ frameType f = type ∧ frameRing f = ringNumber s ∧ frameSrc f ≠ ringPosition s ∧ frameHops f ≠ 31

/-- R350: the frame is for this device; the frame goes on to the next. -/
def ForMe (s : State) (f : List Nat) : Prop := frameAll f = true ∨ frameDst f = ringPosition s
def Passed (s t : State) (f : List Nat) (tau : Nat) : Prop :=
  (frameAll f = true → (tau, f) ∈ t.ring.fwd) ∧ (frameAll f = false → t.ring.fwd.length = s.ring.fwd.length) ∧
  (linkIn s = 1 → frameDlyInv f = false → linkIn t = 2) ∧ (linkIn s = 2 → linkIn t = 2)

/-- What the OUT transmitter could send next, by the instants from which each is ready (R353). -/
def sendReady (s : State) : List Nat :=
  ((firstLaunch (allLaunches s)).map (·.tl)).toList ++ (s.ring.fwd.head?.map readyAt).toList ++
    if s.ring.timeDue || s.ring.reqDue || (s.ring.msgs != [] && s.ring.fwd == []) then [max s.now s.ring.outFree] else []

/-- The next frame leaves at block boundary b: the first at which OUT is free and a frame is ready (R346, R353). -/
def SendsAt (s : State) (b : Nat) : Prop :=
  ∃ m ∈ sendReady s, (∀ k ∈ sendReady s, m ≤ k) ∧ b = blockAt (max (max s.now s.ring.outFree) m)

/-- R348, R355: an own frame has been launched on OUT at boundary b. -/
def OwnFrame (s t : State) (b type dst : Nat) (all report : Bool) (pay : List Nat) : Prop :=
  let up := rd s glb R.TIM_LINK_STAT_OUT = 2
  let seq := mapGet s.ring.seqs type 0
  let head := type + 2 ^ 4 + ringPosition s * 2 ^ 16 + dst % 32 * 2 ^ 24 + b2n all * 2 ^ 31 + ringNumber s * 2 ^ 32 + (if up then 0 else 1) * 2 ^ 40 +
    b2n report * 2 ^ 41 + seq * 2 ^ 48
  t.ring.lastOut = some (b, makeFrame head b ((b % 65536 : Nat) + if up then signed 32 (rd s glb R.TIM_LINK_DLY_DLY) else 0) pay) ∧
  t.ring.outFree = b + nsec 64 ∧ mapGet t.ring.seqs type 0 = (seq + 1) % 2 ^ 16 ∧ t.now = max s.now b

/-- R354: a delay sample has been taken on OUT: learned with the sixteenth, kept within 1 ns of the mean, else an outlier, the sixteenth of which
sends the lane back to LEARNING. -/
def DelayTaken (s t : State) (d : Int) : Prop :=
  let l := (d :: s.ring.samples).take 16
  let far := nsec 1 < (d - meanInt s.ring.samples).natAbs
  (linkOut s = 1 → l.length < 16 → linkOut t = 1 ∧ t.ring.samples = l) ∧
  (linkOut s = 1 → l.length = 16 → linkOut t = 2 ∧ rd t glb R.TIM_LINK_DLY_DLY = unsigned 32 (meanInt l) % 2 ^ 32 ∧ LevelSet t 0x1B 1 False) ∧
  (linkOut s = 2 → ¬far → linkOut t = 2 ∧ t.ring.samples = l ∧ t.ring.outliers = 0 ∧ rd t glb R.TIM_LINK_DLY_DLY = unsigned 32 (meanInt l) % 2 ^ 32) ∧
  (linkOut s = 2 → far → s.ring.outliers + 1 < 16 → linkOut t = 2 ∧ t.ring.samples = s.ring.samples ∧ t.ring.outliers = s.ring.outliers + 1) ∧
  (linkOut s = 2 → far → 16 ≤ s.ring.outliers + 1 → linkOut t = 1 ∧ t.ring.samples = [] ∧ LevelSet t 0x1B 1 True)

/-! ### Calibration -/

/-- R371, R373, R386: the item has left CALIBRATE job j with a record and a tally (run, below a limit, precondition missing, no spare); the job
goes on with what is left, or, with nothing left and no OUT, completes: a missing precondition before a missing spare before a missed limit. -/
def ItemLeaves (t : State) (j : Nat) (x : Job) (item unit : Nat) (record tally : List Nat) : Prop :=
  let left := x.units.filter (· != item * 1024 + unit)
  let n := fun k => tally.getD k 0
  (left ≠ [] → getJob? t j = some { x with units := left, rec_ := x.rec_ ++ record, tally := tally, prior := ((getJob? t j).map (·.prior)).getD [] }) ∧
  (left = [] → arg x 2 = 0 →
    JobEnds t j (if n 2 ≠ 0 then 0x0500 else if n 3 ≠ 0 then 0x0501 else if n 1 ≠ 0 then 0x0050 else 0) (n 0) (n 1) 0)

/-- A running CALIBRATE whose item is next on the unit, no slice waiting to be retired or replaced for it. -/
def ItemDue (s : State) (j : Nat) (x : Job) (item unit : Nat) : Prop :=
  getJob? s j = some x ∧ x.opcode = 0x50 ∧ x.phase = .running ∧ itemDue x item unit = true ∧
  (flag s glb R.GLB_CAL_CFG_AUTORET = false ∨ ¬(1 ≤ item ∧ item ≤ 5)) ∧
  ∀ e ∈ s.tiles, ∀ r ∈ e.2.remap.toList ++ e.2.remapQ, r.job ≠ some j

/-- The trims an item writes on a unit, with block, field, element and value (R368, R376, R387 to R389). -/
def itemTrims (unit : Nat) (serving : Option Nat) (r : CalResult) : List (Nat × Field × Nat × Nat) :=
  let b := sliceB (unit / 18) (unit % 18)
  let w := fun i => r.trims.getD i 0
  let pairs := fun (n base : Nat) (f g : Field) => (List.range n).flatMap fun i => [(base, f, i, w i % 2 ^ 16), (base, g, i, w i / 2 ^ 16)]
  if r.item = 1 then pairs 6 b R.CHN_TRIM_LVL_OFS R.CHN_TRIM_LVL_GAIN ++ [(b, R.CHN_TRIM_TRK_LVL, 0, 0)]
  else if r.item = 2 then [(b, R.CHN_TRIM_FING_FING, 0, w 0), (b, R.CHN_TRIM_FING_NFING, 0, ((List.range 24).filter (Nat.testBit (w 0))).length)]
  else if r.item = 3 then pairs 2 b R.CHN_TRIM_CMP_OFS R.CHN_TRIM_CMP_GAIN ++ [(b, R.CHN_TRIM_TRK_CMP, 0, 0)]
  else if r.item = 4 then [(b, R.CHN_TRIM_TDC_CORE1, 0, w 0)]
  else if r.item = 5 then [(b, R.CHN_TRIM_EDGE_DRV, 0, w 0), (b, R.CHN_TRIM_EDGE_STB, 0, w 0 / 2 ^ 16), (b, R.CHN_TRIM_TRKT_EDGE, 0, 0), (b, R.CHN_TRIM_TRKT_PEND, 0, 0)] ++
    (serving.map fun k => (tileB (unit / 18), R.TIL_BALL_DLY_DLY, k, w 1)).toList
  else if r.item = 6 then (List.range 8).map fun i => (secB unit, R.DIG_TRIM_GAIN, i, w i)
  else if r.item = 7 then (List.range 8).map fun i => (secB unit, R.DIG_TRIM_OFS, i, w i)
  else if r.item = 8 then (List.range 8).map fun i => (secB unit, R.DIG_TRIM_SKEW, i, w i)
  else if r.item = 9 then [(glb, R.TIM_STRUM_DLY_DLY, 0, w 0)]
  else []

/-- R368, R370: the item has written its trims and its assay on the unit: the figure and eye cut to their widths, `PASS` by the limit. -/
def ItemWritten (t : State) (unit : Nat) (serving : Option Nat) (r : CalResult) : Prop :=
  let a := assayAt r.item unit
  let limit := [500, 1000, 1500, 1500, 150, 100, 500, 50, 10, 100].getD r.item 0
  (∀ e ∈ itemTrims unit serving r, rdi t e.1 e.2.1 e.2.2.1 = e.2.2.2 % 2 ^ e.2.1.width) ∧
  rdi t a.1 a.2.1 a.2.2.2.2.2.2 = min 0xFFFF r.fig ∧ rdi t a.1 a.2.2.1 a.2.2.2.2.2.2 = (if r.item = 5 then r.eye % 2 ^ 9 else 0) ∧
  (rdi t a.1 a.2.2.2.1 a.2.2.2.2.2.2 = 1 ↔ r.fig ≤ limit ∧ (r.item = 5 → 192 ≤ r.eye)) ∧
  rdi t a.1 a.2.2.2.2.1 a.2.2.2.2.2.2 = 1 ∧ rdi t a.1 a.2.2.2.2.2.1 a.2.2.2.2.2.2 = 0

/-- Every slice of a list is in the safe state for a cause. -/
def SafeFor (t : State) (l : List (Nat × Nat)) (cause : Field) : Prop :=
  ∀ x ∈ l, flag t (sliceB x.1 x.2) cause = true ∧ flag t (sliceB x.1 x.2) R.CHN_STAT_SAFE = true

/-- No boundary write waits for a slice's status. -/
def StatusFree (s : State) (l : List (Nat × Nat)) (cause : Field) : Prop :=
  ∀ x ∈ l, NotPending s [fieldKey (sliceB x.1 x.2) cause 0, fieldKey (sliceB x.1 x.2) R.CHN_STAT_SAFE 0]

/-- A remap of position k of the tile runs: its candidate is the lowest of the free slices it may try, and has the settings of slice `old` (R33, R380). -/
def RemapRuns (s t : State) (ti k old cand : Nat) (job : Option Nat) : Prop :=
  (∃ r, (getTile t ti).remap = some r ∧ r.pos = k ∧ r.cand = cand ∧ r.old = old ∧ r.job = job) ∧
  flag t (tileB ti) R.TIL_XPT_STAT_BUSY = true ∧ (getSlice t ti old).drive = .off ∧ (getSlice t ti old).load = false ∧
  (∀ f ∈ R.chnTable, f.acc = .rw → ¬(0x200 ≤ f.off ∧ f.off < 0x234) → ∀ i, i < f.count → rdi t (sliceB ti cand) f i = rdi s (sliceB ti old) f i % 2 ^ f.width) ∧
  (∀ p, p ≠ cand → p ≠ old → getSlice t ti p = getSlice s ti p) ∧ flag t glb R.GLB_CAL_STAT_RUN = true ∧ SameBytes s t

/-! ### Power and heat -/

/-- `PWR_CTL` holds a written value (R406): TARGET 0b11 is stored as 0b10. -/
def PowerWritten (t : State) (v : Nat) : Prop :=
  rd t glb R.PWR_CTL_TARGET = (if v % 4 = 3 then 2 else v % 4) ∧ flag t glb R.PWR_CTL_WK_CMP = v.testBit 3 ∧
  flag t glb R.PWR_CTL_WK_TOUCH = v.testBit 4 ∧ flag t glb R.PWR_CTL_WK_CARD = v.testBit 5 ∧ flag t glb R.PWR_CTL_WK_TIMER = v.testBit 6

def powerKeys : List Nat :=
  [R.PWR_CTL_TARGET, R.PWR_CTL_WK_CMP, R.PWR_CTL_WK_TOUCH, R.PWR_CTL_WK_CARD, R.PWR_CTL_WK_TIMER].map fun f => fieldKey glb f 0

/-- A round in which every sensor is good: converted, in range, not failed before, none suspect (R397). -/
def GoodRound (s : State) (temps : List Int) (valid : List Bool) : Prop :=
  s.laneDown = [] ∧ ∀ i, i < 40 → sensorFailed s i = false ∧ valid.getD i false = true ∧ -400 ≤ temps.getD i 0 ∧ temps.getD i 0 ≤ 1500 ∧
    ∀ j ∈ sensorNear i, (temps.getD i 0 - temps.getD j 0).natAbs ≤ 80

/-- The hottest of the ten sensors of sector q (R398). -/
def Hottest (temps : List Int) (q : Nat) (x : Int) : Prop := (∃ i ∈ sensorsOf q, temps.getD i 0 = x) ∧ ∀ i ∈ sensorsOf q, temps.getD i 0 ≤ x

/-- R400: where a sector's thermal state goes from `cur`, short of CRITICAL, by the temperatures of the last rounds. -/
def thermalNext (cur : Nat) (h : List Int) : Nat :=
  let above := fun (x : Int) => decide (3 ≤ h.length) && (h.take 3).all fun t => decide (x ≤ t)
  let below := fun (x : Int) => decide (3 ≤ h.length) && (h.take 3).all fun t => decide (t < x)
  if above 1050 ∧ cur < 2 then 2
  else if above 950 ∧ cur = 0 then 1
  else if cur = 4 ∧ below 1180 then 3
  else if cur = 3 ∧ below 930 then 0
  else if (cur = 2 ∨ cur = 3) ∧ below 1030 then 1
  else if cur = 1 ∧ below 930 then 0
  else cur

/-! ### Fault collection -/

/-- The entry, status and event of one raise have been made (R414, R417 to R422): `reacts` says whether no reaction as grave was in progress. -/
def Logged (s t : State) (det cls info : Nat) (inj wire : Bool) : Prop :=
  let k := det / 1024
  let n := s.flt.seq
  let reacts := rd s glb R.FLT_STAT_REACT = 7 ∨ rd s glb R.FLT_STAT_REACT < cls
  let bits := fun (r : Nat) => det + cls * 2 ^ 16 + b2n inj * 2 ^ 19 + b2n wire * 2 ^ 20 + r * 2 ^ 21
  let words := fun (r : Nat) => [bits r, info, n % 2 ^ 32, rd s glb R.TIM_STAT_QUAL, s.now % 65536, s.now / 65536 % 1000000000,
    s.now / 65536 / 1000000000 % 2 ^ 32, s.now / 65536 / 1000000000 / 2 ^ 32]
  let entry := fun (f : Field) (at_ : Nat) => ∀ i, i < 8 → ∀ r, (r = 1 ∧ reacts ∨ r = 0 ∧ ¬reacts) →
    rdi t glb f (at_ + i) = (words r).getD i 0 % 2 ^ 32
  entry R.FLT_HIST_WORD (n % 32 * 8) ∧ t.flt.seq = n + 1 ∧ rd t glb R.FLT_HIST_WIDX_WIDX = (n + 1) % 2 ^ 32 ∧
  (flag s glb R.FLT_FIRST_CTL_VALID = false → rd s glb R.FLT_CFG_FIRSTCLS ≤ cls → entry R.FLT_FIRST_WORD 0 ∧ flag t glb R.FLT_FIRST_CTL_VALID = true) ∧
  ((flag s glb R.FLT_FIRST_CTL_VALID = true ∨ cls < rd s glb R.FLT_CFG_FIRSTCLS) → ∀ i, i < 8 → rdi t glb R.FLT_FIRST_WORD i = rdi s glb R.FLT_FIRST_WORD i) ∧
  rdi t glb R.FLT_KSTAT_LATCHED k = 1 ∧ rdi t glb R.FLT_KSTAT_LAST k = det % 1024 ∧ (wire = true → rdi t glb R.FLT_KSTAT_WIRE k = 1) ∧
  rdi t glb R.FLT_KSTAT_CLASS k = max (if rdi s glb R.FLT_KSTAT_LATCHED k = 1 then rdi s glb R.FLT_KSTAT_CLASS k else 0) cls % 2 ^ 3 ∧
  rdi t glb R.FLT_KCNT_COUNT k = (if rdi s glb R.FLT_KCNT_COUNT k + 1 < 2 ^ 32 then rdi s glb R.FLT_KCNT_COUNT k + 1 else 2 ^ 32 - 1) ∧
  (flag t glb R.FLT_STAT_ASSERT = true ↔ ∃ m, m < 64 ∧ rdi t glb R.FLT_KSTAT_LATCHED m = 1 ∧ rdi t glb R.FLT_KSTAT_CLASS m < 6 ∧
    (rd s glb R.FLT_CFG_PINCLS ≤ rdi t glb R.FLT_KSTAT_CLASS m ∨ 4 ≤ rdi t glb R.FLT_KSTAT_CLASS m)) ∧
  ((rd s glb R.FLT_CFG_EVTCLS).testBit cls = true → linkOpen s = true → ∀ r, (r = 1 ∧ reacts ∨ r = 0 ∧ ¬reacts) → t.rings.events = s.rings.events ++
    [⟨4, det, cls + b2n wire * 8 + r * 16 + n % 2 ^ 24 * 256, b2n inj + info * 2 ^ 16, s.now⟩]) ∧
  ((rd s glb R.FLT_CFG_EVTCLS).testBit cls = true → linkOpen s = false → Counted s t glb R.HAT_EVT_DROP_DROP ∧ t.rings.events = s.rings.events) ∧
  ((rd s glb R.FLT_CFG_EVTCLS).testBit cls = false → t.rings.events = s.rings.events)

/-- A detector kind whose source does nothing but raise it: a report, no loss (R413, R424). -/
def Reports (det : Nat) : Prop := det / 1024 ∉ [0x01, 0x02, 0x04, 0x06, 0x07, 0x08, 0x0D, 0x0F, 0x11, 0x14]

/-! ### Sideband -/

/-- R443: the part answers a read command with its data and, if the host clocks it, the PEC over address, code, address and data. -/
def SmbReads (s t : State) (code : Nat) (pec : Bool) (out : List Nat) : Prop :=
  let addr := (0x58 + rd s glb R.GLB_IO_STAT_SMBADDR) * 2
  t = { s with resp := out ++ if pec then [crc8 ([addr, code, addr + 1] ++ out)] else [] }

/-- R443, R444: a write command is served: not SEALED, its PEC right or, without PECREQ, absent; a fuse command while none is burning. -/
def SmbServed (s : State) (fuse : Bool) (pec : Pec) : Prop :=
  s.boot.por = false ∧ sealed s = false ∧ (fuse = true → flag s glb R.GLB_SMB_STAT_FUSE_BUSY = false) ∧
  (pec = .good ∨ (pec = .absent ∧ flag s glb R.GLB_SMB_CFG_PECREQ = false))

/-- R443, R444: what becomes of a write command that is not served: NACKed, or discarded with `PECERR`. -/
def SmbTurned (s t : State) (fuse : Bool) (pec : Pec) : Prop :=
  ((sealed s = true ∨ (fuse = true ∧ flag s glb R.GLB_SMB_STAT_FUSE_BUSY = true)) → t = { s with resp := [] }) ∧
  (sealed s = false → ¬(fuse = true ∧ flag s glb R.GLB_SMB_STAT_FUSE_BUSY = true) →
    (pec = .bad ∨ (pec = .absent ∧ flag s glb R.GLB_SMB_CFG_PECREQ = true)) → t = { s with regs := t.regs, resp := [1] } ∧
    flag t glb R.GLB_SMB_STAT_PECERR = true ∧ RegsBut s t [fieldKey glb R.GLB_SMB_STAT_PECERR 0])

/-- R445: a fuse command has spent the arm, and burns, or sets `FUSE_ERR` where a condition fails. -/
def FuseTaken (s t : State) (code slot : Nat) (bytes : List Nat) (blank : Prop) : Prop :=
  let may := s.smb.armed = true ∧ flag s glb R.GLB_SMB_CFG_FUSE_EN = true ∧ powerReady s = true ∧ blank
  t = { s with regs := t.regs, smb := t.smb, resp := [1] } ∧
  (may → t.smb = { s.smb with armed := false, burn := some (code, slot, bytes) } ∧ flag t glb R.GLB_SMB_STAT_FUSE_BUSY = true ∧
    RegsBut s t [fieldKey glb R.GLB_SMB_STAT_FUSE_BUSY 0]) ∧
  (¬may → t.smb = { s.smb with armed := false } ∧ flag t glb R.GLB_SMB_STAT_FUSE_ERR = true ∧
    flag t glb R.GLB_SMB_STAT_ALERT = (flag s glb R.GLB_SMB_STAT_ALERT || !flag s glb R.GLB_SMB_STAT_FUSE_ERR) ∧
    RegsBut s t [fieldKey glb R.GLB_SMB_STAT_FUSE_ERR 0, fieldKey glb R.GLB_SMB_STAT_ALERT 0])

/-! ### Reset and start-up -/

/-- R449, R450: after a cold reset every register reads its Reset value but the fuse-held key status, `CARD_RAW` and the listed ones; all else is as
after power-on but host memory, fuses, lock-outs and what is outside the part. -/
def ColdState (s t : State) (por perst : Bool) (ks : List Nat) : Prop :=
  (∀ k, k ∉ fieldKey glb R.GLB_KEYSTAT_PROG 0 :: fieldKey glb R.GLB_KEYSTAT_REVOKED 0 :: fieldKey glb R.GLB_IO_STAT_CARD_RAW 0 :: ks → mapGet? t.regs k = none) ∧
  rd t glb R.GLB_KEYSTAT_PROG = rd s glb R.GLB_KEYSTAT_PROG ∧ flag t glb R.GLB_IO_STAT_CARD_RAW = flag s glb R.GLB_IO_STAT_CARD_RAW ∧
  t = { State.reset with
    regs := t.regs
    fresh := s.fresh
    resp := s.resp
    hostMem := s.hostMem
    ssid := s.smb.ssid.or s.ssid
    keyHash := s.keyHash
    lockout := s.lockout
    pending := s.pending
    boot := { State.reset.boot with por := por, perst := perst } }

/-- R451: the port reset that reaches a SEALED part: link, decoders and configuration space; the part stays sealed. -/
def PortReset (s t : State) : Prop :=
  sealed t = true ∧ flag t glb R.HAT_LINK_STAT_UP = false ∧ flag t glb R.HAT_HDM_STAT_COMMITTED = false ∧ t.cfg = [] ∧ t.comp = [] ∧ t.hdmProg = none ∧
  t.d3 = false ∧ SameBytes s t ∧ t.slices = s.slices ∧ t.tellers = s.tellers ∧ t.now = s.now ∧ t.pending = s.pending

/-- Every slice without a card has `SC_CARD` (R439). -/
def CardCause (s t : State) : Prop :=
  flag s glb R.GLB_IO_STAT_CARD_RAW = false → ∀ x ∈ allSlices, flag t (sliceB x.1 x.2) R.CHN_STAT_SC_CARD = true

/-- Every slice as a warm reset or CXL Reset starts: safe for `SC_RST`, jobs gone, gangs aborted, tellers waiting for their reload (R452). -/
def WarmStarts (s t : State) : Prop :=
  flag t glb R.GLB_RST_STAT_BUSY = true ∧ SafeFor t allSlices R.CHN_STAT_SC_RST ∧ t.rings.jobs = [] ∧ t.rings.waiting = [] ∧ t.rings.events = [] ∧
  t.items = [] ∧ t.xlt.streams = [] ∧ t.xlt.reqs = [] ∧
  (∀ l g, s.gangs = [(l, g)] → g.waiting = false → gangArmed s g = true → (∃ u ∈ g.tiles, u < 48) → getGang? t l = none) ∧
  ∀ n, n < 192 → telState t n ≠ 2 ∧ telState t n ≠ 3 ∧ telState t n ≠ 5

/-- The self-test fails slice p of tile t: named, or of a named quad (R456). -/
def SelfFails (s : State) (fails quads : List Nat) (t p : Nat) : Prop :=
  isRetired s t p = false ∧ (t * 18 + p ∈ fails ∨ ∃ q ∈ quads, q < 240 ∧ (quadSlices q).1 = t ∧ p ∈ (quadSlices q).2)

end Sys2Proof.Machine
end

