-- ==== Sys2Proof/Certificates/Slice0/Obligations.lean ====
section
/-! DEFINITION. The statements for the provers. -/
open Sys2Proof Sys2Proof.Machine

/-- A step takes the command at the front of the queue and answers what exec answers on the state with the queue's rest; with an empty queue the block
idles, and one 500 ps period of the timing clock passes (the model's own choice: assumption 1): nothing else changes where no drive edge, no strobe and
no bank request is placed by its end. -/
def Obligations.StepTakesCommand : Prop :=
  (∀ (c : Instr) (s : State) (rest : List Instr), s.pending = c :: rest → step s = exec c { s with pending := rest }) ∧
  ∀ s : State, s.pending = [] →
    (∃ t, step s = .next t ∧ t.now = s.now + 32768 ∧ t.pending = [] ∧ SameBytes s t ∧ t.rings = s.rings ∧ t.gangs = s.gangs) ∧
    ((∀ e ∈ s.slices, e.2.edges = [] ∧ e.2.late = none) → (∀ e ∈ s.tiles, ∀ a ∈ e.2.await, a.strobes = []) →
      step s = .next { s with now := s.now + 32768 })
/-- R449, R454, R62, R391, R421: right after power-on every register reads its Reset column, power-on reset holds, every slice is in the safe state under
the drive lock for `SC_RST`, nothing is loaded, listed or queued, and the state is canonical. -/
def Obligations.ResetState : Prop :=
  Canonical State.reset ∧ State.reset.pending = [] ∧ State.reset.rings.jobs = [] ∧ State.reset.gangs = [] ∧ State.reset.shadow = [] ∧
  (∀ b f i, rdi State.reset b f i = resetOf b f i) ∧ (∀ a, memByte State.reset.hostMem a = 0 ∧ memByte State.reset.devMem a = 0) ∧
  State.reset.boot.por = true ∧ powerReady State.reset = true ∧ sealed State.reset = false ∧
  (∀ t p : Nat, flag State.reset (sliceB t p) R.CHN_STAT_SAFE = true ∧ flag State.reset (sliceB t p) R.CHN_STAT_SC_RST = true ∧
    flag State.reset (sliceB t p) R.CHN_STAT_DRIVE_LOCK = true ∧ (getSlice State.reset t p).drive = .off) ∧
  (∀ n, telState State.reset n = 0 ∧ telRole State.reset n = 0 ∧ telEpoch State.reset n = 0) ∧
  (∀ q, thmState State.reset q = 0) ∧ rd State.reset glb R.FLT_STAT_REACT = 7 ∧ rd State.reset glb R.TIM_STAT_QUAL = 3
/-- Every step keeps both memories in canonical form and the register map with rising keys, from whatever state has them so; and a step takes one
command off the queue and leaves the rest as it stands: no command's effect adds, drops or reorders a waiting command. -/
def Obligations.CanonicalKept : Prop :=
  ∀ s t : State, Canonical s → step s = .next t → Canonical t ∧ t.pending = s.pending.tail

/-- R214: the ALU ops that set Z and N alone, where their microword issues: result, flags, frame. Signed comparisons,
arithmetic shifts and leading zeros are said by the 64-bit vector operations. -/
def Obligations.AluLogic : Prop :=
  AluWrites .aluAnd 0x04 (fun a b _ => a &&& b) ∧ AluWrites .aluOr 0x05 (fun a b _ => a ||| b) ∧
  AluWrites .aluXor 0x06 (fun a b _ => a ^^^ b) ∧ AluWrites .aluShl 0x07 (fun a b _ => a * 2 ^ (b % 64)) ∧
  AluWrites .aluShr 0x08 (fun a b _ => a / 2 ^ (b % 64)) ∧
  AluWrites .aluSar 0x09 (fun a b _ => ((BitVec.ofNat 64 a).sshiftRight (b % 64)).toNat) ∧
  AluWrites .aluMul 0x0A (fun a b _ => a * b) ∧
  AluWrites .aluMin 0x0B (fun a b _ => if (BitVec.ofNat 64 a).slt (BitVec.ofNat 64 b) then a else b) ∧
  AluWrites .aluMax 0x0C (fun a b _ => if (BitVec.ofNat 64 a).slt (BitVec.ofNat 64 b) then b else a) ∧
  AluWrites .aluMinu 0x0D (fun a b _ => if a < b then a else b) ∧ AluWrites .aluMaxu 0x0E (fun a b _ => if a < b then b else a) ∧
  AluWrites .aluPopc 0x0F (fun a _ _ => (List.range 64).countP fun i => a.testBit i) ∧
  AluWrites .aluClz 0x10 (fun a _ _ => (BitVec.ofNat 64 a).clz.toNat) ∧
  AluWrites .aluAndi 0x12 (fun a _ i => a &&& i) ∧ AluWrites .aluLdi 0x13 (fun _ _ i => i) ∧
  AluWrites .aluLdih 0x14 (fun a _ i => a % 2 ^ 32 + i % 2 ^ 32 * 2 ^ 32) ∧
  AluWrites .aluExt 0x15 (fun a _ i => if i / 2 ^ 8 % 64 = 0 then a / 2 ^ (i % 64) % 2 ^ 64 else a / 2 ^ (i % 64) % 2 ^ (i / 2 ^ 8 % 64))

/-- R214: ADD, SUB, CMP and ADDI at width w: the result, Z and N on it, C and V of the operation on w bits (carry out and
signed overflow); CMP writes no register. What C tells of a borrow the spec does not say: it is the borrow or its
complement, by the free value Config.subBorrow (log entry 79). -/
def Obligations.AluArithmetic : Prop :=
  ∀ (n : TellerIx) (s : State), PartReady s n 1 →
    let w := telWord s n
    let k := mwWidth w
    let x := getTel s n
    let a := BitVec.ofNat k (opA s n)
    let b := BitVec.ofNat k (opB s n)
    let i := BitVec.ofNat k (mwImm w)
    let flags := fun (y : Teller) (r : BitVec k) (c v : Bool) =>
      y.z = (r == 0#k) ∧ y.n = r.msb ∧ y.c = c ∧ y.v = v ∧ 1 ∈ y.done ∧
      y = { x with g := y.g, t := y.t, z := y.z, n := y.n, c := y.c, v := y.v, mw := y.mw, done := y.done, hold := y.hold }
    let writes := fun (y : Teller) (r : BitVec k) => telReg y (mwDst w) = r.toNat ∧ ∀ j, j ≠ mwDst w → telReg y j = telReg x j
    (mwAlu w = 0x01 → Runs (.aluAdd n) s fun t => TelOnly s t n ∧ writes (getTel t n) (a + b) ∧
      flags (getTel t n) (a + b) (BitVec.carry k a b false) (BitVec.saddOverflow a b)) ∧
    (mwAlu w = 0x02 → Runs (.aluSub n) s fun t => TelOnly s t n ∧ writes (getTel t n) (a - b) ∧
      flags (getTel t n) (a - b) (a.ult b == Config.subBorrow) (BitVec.ssubOverflow a b)) ∧
    (mwAlu w = 0x03 → Runs (.aluCmp n) s fun t => TelOnly s t n ∧ (∀ j, telReg (getTel t n) j = telReg x j) ∧
      flags (getTel t n) (a - b) (a.ult b == Config.subBorrow) (BitVec.ssubOverflow a b)) ∧
    (mwAlu w = 0x11 → Runs (.aluAddi n) s fun t => TelOnly s t n ∧ writes (getTel t n) (a + i) ∧
      flags (getTel t n) (a + i) (BitVec.carry k a i false) (BitVec.saddOverflow a i))

/-- R212: GOTO, BR, BRN, CALL, RET, DISP and LOOP, once the rest of their microword has issued: the next address, the loop
counter, the micro-stack; nothing but the teller's PC and these changes. (A next address above 4,095 is ILLEGAL, R218.) -/
def Obligations.SequencingOps : Prop :=
  SeqMoves .seqGoto 0x01 (fun x _ _ _ next => (next, x.lc, x.stack)) ∧
  SeqMoves .seqBr 0x02 (fun x pc holds _ next => (if holds then next else pc + 1, x.lc, x.stack)) ∧
  SeqMoves .seqBrn 0x03 (fun x pc holds _ next => (if holds then pc + 1 else next, x.lc, x.stack)) ∧
  SeqMoves .seqCall 0x04 (fun x pc _ _ next => (next, x.lc, (pc + 1) :: x.stack)) ∧
  SeqMoves .seqRet 0x05 (fun x _ _ _ _ => (x.stack.headD 0, x.lc, x.stack.tail)) ∧
  SeqMoves .seqDisp 0x06 (fun x _ _ a next => (next + a % 16, x.lc, x.stack)) ∧
  SeqMoves .seqLoop 0x07 (fun x pc _ _ next =>
    let lc := (BitVec.ofNat 32 x.lc - 1#32).toNat
    (if lc ≠ 0 then next else pc + 1, lc, x.stack))

/-- R214 and R216: the ops that change the issuing teller alone: NOP and LDLC of the ALU, the site-mask ops, SETT, and the
two forms of WAIT, which hold the next microword for n ns or until a port condition. -/
def Obligations.SiteTimerWaitOps : Prop :=
  PartMakes .aluNop 1 (fun w => mwAlu w == 0) (fun _ _ x => x) ∧
  PartMakes .aluLdlc 1 (fun w => mwAlu w == 0x16) (fun s n x => { x with lc := opA s n % 2 ^ 32 }) ∧
  PartMakes .smclr 7 (fun w => mwSite w == 1) (fun _ _ x => { x with sm := 0 }) ∧
  PartMakes .smset 7 (fun w => mwSite w == 2) (fun s n x => { x with sm := x.sm ||| 2 ^ (opA s n % 256) }) ∧
  PartMakes .smrst 7 (fun w => mwSite w == 3) (fun s n x =>
    { x with sm := if x.sm.testBit (opA s n % 256) then x.sm - 2 ^ (opA s n % 256) else x.sm }) ∧
  PartMakes .smtst 7 (fun w => mwSite w == 4) (fun s n x => { x with z := !x.sm.testBit (opA s n % 256) }) ∧
  PartMakes .csset 7 (fun w => mwSite w == 5) (fun s n x => { x with cs := opA s n % 256 }) ∧
  PartMakes .sett 6 (fun w => mwWait w == 0xC0) (fun s n x => { x with timer := some (s.now + nsec (opA s n % 2 ^ 32)) }) ∧
  ∀ (n : TellerIx) (s : State), PartReady s n 6 →
    let k := mwWait (telWord s n)
    let held := fun (t : State) (h : TelHold) => TelOnly s t n ∧ 6 ∈ (getTel t n).done ∧
      getTel t n = { getTel s n with hold := h, mw := (getTel t n).mw, done := (getTel t n).done }
    (1 ≤ k → k ≤ 0x7F → Runs (.waitDelay n) s fun t => held t (.until_ (s.now + nsec k))) ∧
    (0x80 ≤ k → k ≤ 0x83 → Runs (.waitCond n) s fun t => held t (.cond (k - 0x80)))

/-- R215: the reads of the ports and of scratch put their words on their way to T registers (of a message or report word by
word, 0 from an empty queue); STS stores B in scratch; SYNC passes once the fail queue is empty; and the oldest load whose
data is at hand lands in its T register, or, a block, in the staging window. -/
def Obligations.PortReads : Prop :=
  PartMakes .vecRdst 2 (fun w => mwVec w / 16 == 2) (fun s n x =>
    let b := tileB (n.val / 4)
    onTheWay x (mwVec (telWord s n) % 8) (rd s b R.TIL_SEQ_STAT_STATE + rd s b R.TIL_SEQ_STAT_SEG * 2 ^ 16 + rd s b R.TIL_SEQ_FILL_OCC * 2 ^ 32)) ∧
  PartMakes .failRdst 3 (fun w => mwFail w / 16 == 1) (fun s n x =>
    let b := tileB (n.val / 4)
    onTheWay x (mwFail (telWord s n) % 8) (wordOf s b R.tilTable 0x184 + rd s b R.TIL_FAIL_QOCC_OCC * 2 ^ 32)) ∧
  PartMakes .failRdcnt 3 (fun w => mwFail w / 16 == 2) (fun s n x =>
    onTheWay x (mwFail (telWord s n) % 8) (rd s (siteB (x.cs % 256)) R.GLB_SITE_FCNT_FCNT + siteStat s (x.cs % 256) * 2 ^ 32)) ∧
  (∀ (n : TellerIx) (s : State), PartReady s n 3 → mwFail (telWord s n) / 16 = 3 →
    rd s (tileB (n.val / 4)) R.TIL_FAIL_QOCC_OCC = 0 →
    Runs (.failSync n) s fun t => TelOnly s t n ∧ 3 ∈ (getTel t n).done ∧
      getTel t n = { getTel s n with mw := (getTel t n).mw, done := (getTel t n).done, hold := (getTel t n).hold }) ∧
  PartMakes .memLds 4 (fun w => mwMem w / 16 == 1) (fun s n x =>
    onTheWay x (mwMem (telWord s n) % 8) (mapGet x.scratch ((opA s n + mwImm (telWord s n)) % 2 ^ 16 / 8) 0)) ∧
  PartMakes .memSts 4 (fun w => mwMem w / 16 == 2) (fun s n x =>
    { x with scratch := mapPut x.scratch ((opA s n + mwImm (telWord s n)) % 2 ^ 16 / 8) (opB s n % 2 ^ 64) }) ∧
  PartMakes .msgPeek 5 (fun w => mwMsg w / 16 == 2) (fun s n x =>
    let m := x.inbox.headD []
    (List.range 4).foldl (fun y i => onTheWay y (mwMsg (telWord s n) % 8 + i) (leNat ((m.drop (8 * i)).take 8))) x) ∧
  PartMakes .msgRpeek 5 (fun w => mwMsg w / 16 == 4) (fun s n x =>
    let m := x.reports.headD []
    (List.range 2).foldl (fun y i => onTheWay y (mwMsg (telWord s n) % 8 + i) (leNat ((m.drop (8 * i)).take 8))) x) ∧
  ∀ (n : TellerIx) (s : State) (l : TelLoad), (getTel s n).loads.find? (·.val.isSome) = some l →
    Runs (.loadLands n) s fun t => TelOnly s t n ∧ (getTel t n).loads = (getTel s n).loads.erase l ∧
      (l.t < 8 → (∀ v, l.val = some v → telReg (getTel t n) (24 + l.t) = leNat v % 2 ^ 64) ∧ (getTel t n).scratch = (getTel s n).scratch) ∧
      (8 ≤ l.t → (∀ k, telReg (getTel t n) k = telReg (getTel s n) k) ∧
        getTel t n = { getTel s n with loads := (getTel t n).loads, scratch := (getTel t n).scratch })

/-- R215, R254: the device-memory ops of a teller at EA = A + I. LDH and BLK put a load on its way and a read at the line's
scheduler; STH stores B, BST 64 bytes of scratch, when the host holds none of the lines, and each line is asked to be
written; every other byte of both memories stays. -/
def Obligations.TellerDeviceMemory : Prop :=
  ∀ (n : TellerIx) (s : State), PartReady s n 4 → Canonical s →
    let w := telWord s n
    let d := (opA s n + mwImm w) % 2 ^ 64
    let b := opB s n % 2 ^ 16
    let x := getTel s n
    let load := fun (t : State) (kind tr dst : Nat) =>
      t = { s with tellers := t.tellers, biAsked := t.biAsked, hbm := t.hbm } ∧ TellersBut s t [n] ∧
      (getTel t n).loads = x.loads ++ [⟨tr, dst, d / 64, d % 64, none⟩] ∧
      t.hbm = { s.hbm with reqs := s.hbm.reqs ++ [⟨4, kind, n, d / 64, false, 0⟩] } ∧
      (s.sf.contains (d / 64) → d / 64 ∈ t.biAsked ∨ d / 64 ∈ t.biSent)
    let store := fun (t : State) (kind : Nat) (l : List Nat) =>
      t = { s with tellers := t.tellers, devMem := t.devMem, badLines := t.badLines, hbm := t.hbm } ∧ TellersBut s t [n] ∧
      StoresAt s.devMem t.devMem d l ∧ (∀ k, telReg (getTel t n) k = telReg x k) ∧ (getTel t n).scratch = x.scratch ∧
      t.hbm.reqs = s.hbm.reqs ++ (List.range ((d + l.length + 63) / 64 - d / 64)).map fun i => ⟨4, kind, n, d / 64 + i, true, 0⟩
    (mwMem w / 16 = 3 → Runs (.memLdh n) s fun t => load t 3 (mwMem w % 8) 0) ∧
    (mwMem w / 16 = 5 → Runs (.memBlk n) s fun t => load t 4 8 b) ∧
    (mwMem w / 16 = 4 → d / 64 ∉ s.sf → (d + 7) / 64 ∉ s.sf →
      Runs (.memSth n) s fun t => store t 3 ((List.range 8).map fun i => opB s n / 256 ^ i % 256)) ∧
    (mwMem w / 16 = 6 → d / 64 ∉ s.sf → (d + 63) / 64 ∉ s.sf →
      Runs (.memBst n) s fun t => store t 4 ((List.range 64).map fun i => mapGet x.scratch ((b + 8 * (i / 8)) % 2 ^ 16 / 8) 0 / 256 ^ (i % 8) % 256))

/-- R215, R235 to R237: SEND puts a message of 32 scratch bytes, with SRC and SDEV written by the port, at the end of an
outbox with room; POP and RPOP remove the heads of inbox and report queue; a message leaves the outbox for a free slot, and
goes to the transmitter where it is for another device of the ring; a direct message that meets the receiver's epoch and room
is delivered and frees its slot; one of another epoch is dropped, counted and reported STALE; after 1 ms a message that has not
left the device is reported NOROUTE. -/
def Obligations.TellerMessages : Prop :=
  (∀ (n : TellerIx) (s : State), PartReady s n 5 →
    let w := telWord s n
    let x := getTel s n
    let ea := (opA s n + mwImm w) % 2 ^ 64
    let frame := fun (t : State) =>
      t = { s with tellers := t.tellers, regs := t.regs } ∧ TellersBut s t [n] ∧ RegsBut s t (queueKeys n) ∧ 5 ∈ (getTel t n).done
    (mwMsg w / 16 = 1 → x.outbox.length < 4 → Runs (.msgSend n) s fun t => frame t ∧
      ∃ m, (getTel t n).outbox = x.outbox ++ [m] ∧ m.length = 32 ∧ m.drop 8 = (scratchBytes x ea 32).drop 8 ∧ msgSrc m = n ∧
        msgSdev m = ownDev s % 2 ^ 9 ∧ msgEpoch m = msgEpoch (scratchBytes x ea 32) ∧ msgDst m = msgDst (scratchBytes x ea 32) ∧
        rd t (telB n) R.TIL_TEL_QOCC_OUTBOX = (x.outbox.length + 1) % 2 ^ R.TIL_TEL_QOCC_OUTBOX.width) ∧
    (mwMsg w / 16 = 3 → Runs (.msgPop n) s fun t => frame t ∧ (getTel t n).inbox = x.inbox.tail ∧ (getTel t n).reports = x.reports) ∧
    (mwMsg w / 16 = 5 → Runs (.msgRpop n) s fun t => frame t ∧ (getTel t n).reports = x.reports.tail ∧ (getTel t n).inbox = x.inbox)) ∧
  (∀ (n : TellerIx) (s : State) (m : List Nat) (rest : List (List Nat)),
    (getTel s n).outbox = m :: rest → (getTel s n).slots.length < 4 →
    let away := msgRemote m && msgDev m / 32 == ringNumber s
    Runs (.messageLeavesOutbox n) s fun t =>
      t = { s with tellers := t.tellers, regs := t.regs, ring := t.ring } ∧ TellersBut s t [n] ∧ RegsBut s t (queueKeys n) ∧
      getTel t n = { getTel s n with outbox := rest, slots := (getTel s n).slots ++ [⟨m, away⟩] } ∧
      t.ring = if away then { s.ring with msgs := s.ring.msgs ++ [(false, msgDev m % 32, m)] } else s.ring) ∧
  (∀ (n : TellerIx) (s : State) (e : SendSlot), (getTel s n).slots.find? (fun e => !msgRemote e.msg) = some e →
    msgRoleMode e.msg = false → msgDst e.msg < 192 → msgDst e.msg ≠ n →
    let d := msgDst e.msg
    (msgEpoch e.msg = telEpoch s d → (getTel s d).inbox.length < 16 → Runs (.messageArrival n) s fun t =>
      (getTel t d).inbox = (getTel s d).inbox ++ [e.msg] ∧ (getTel t n).slots = (getTel s n).slots.erase e ∧
      (getTel t n).reports = (getTel s n).reports ∧ TellersBut s t [n, d] ∧ SameBytes s t) ∧
    (msgEpoch e.msg ≠ telEpoch s d → (getTel s n).reports.length < 4 → Runs (.messageArrival n) s fun t =>
      getTel t d = getTel s d ∧ Counted s t (telB d) R.TIL_TEL_STALE_STALE ∧ (getTel t n).slots = (getTel s n).slots.erase e ∧
      (∃ r, (getTel t n).reports = (getTel s n).reports ++ [r] ∧ r.take 8 = (e.msg ++ List.replicate 8 0).take 8 ∧
        r.drop 8 = leBytes 8 (1 + telRole s d * 2 ^ 3 + telEpoch s d * 2 ^ 8)) ∧ TellersBut s t [n] ∧ SameBytes s t)) ∧
  ∀ (n : TellerIx) (s : State) (e : SendSlot) (rest : List SendSlot), (getTel s n).slots = e :: rest → e.away = false →
    (getTel s n).reports.length < 4 → Runs (.messageNoroute n) s fun t =>
      (getTel t n).slots = rest ∧ (∃ r, (getTel t n).reports = (getTel s n).reports ++ [r] ∧ r.take 8 = (e.msg ++ List.replicate 8 0).take 8 ∧
        r.drop 8 = leBytes 8 3) ∧ TellersBut s t [n] ∧ SameBytes s t

/-- R210, R219, R220, R223, R10: a teller that waits enters the routine of its lowest pending event, with routine-local state
0 and its general registers, scratch and pending events kept; COMMIT, once no load, outgoing message or posted store is left,
marks the routine committed and consumes its event; END leaves the routine, makes pending B writes take effect and waits; the
timer at 0 raises TIMER. -/
def Obligations.RoutineLife : Prop :=
  (∀ (n : TellerIx) (s : State) (e : Nat) (rest : List Nat), tellersRun s = true → telState s n = 2 → pendingEvents s n = e :: rest →
    let x := getTel s n
    Runs (.routineDispatch n) s fun t =>
      let y := getTel t n
      telState t n = 3 ∧ rd t (telB n) R.TIL_TEL_STAT_EVENT = e % 16 ∧ flag t (telB n) R.TIL_TEL_STAT_POSTC = false ∧
      flag t (telB n) R.TIL_TEL_STAT_LENT = false ∧ telPc t n = ((entryOf x (telRole s n) e).getD 0) % 4096 ∧
      y.t = [] ∧ (y.z, y.n, y.c, y.v) = (false, false, false, false) ∧ y.lc = 0 ∧ y.stack = [] ∧ y.mw = none ∧ y.loads = [] ∧
      y.g = x.g ∧ y.scratch = x.scratch ∧ y.pend = x.pend ∧ y.sm = x.sm ∧ y.cs = x.cs ∧ y.timer = x.timer ∧ y.since = s.now ∧
      TellersBut s t [n] ∧ t = { s with tellers := t.tellers, regs := t.regs, items := t.items }) ∧
  (∀ (n : TellerIx) (s : State), PartReady s n 0 → mwCommit (telWord s n) = true → (getTel s n).loads = [] → (getTel s n).outbox = [] →
    postedStores s n = 0 → Runs (.commit n) s fun t =>
      flag t (telB n) R.TIL_TEL_STAT_POSTC = true ∧ RegsBut s t [fieldKey (telB n) R.TIL_TEL_STAT_POSTC 0] ∧ TellersBut s t [n] ∧
      (getTel t n).pend = (getTel s n).pend.filter (· != rd s (telB n) R.TIL_TEL_STAT_EVENT) ∧ (getTel t n).used = true ∧
      (getTel t n).commitAt = s.now ∧ (∀ k, telReg (getTel t n) k = telReg (getTel s n) k) ∧
      t = { s with tellers := t.tellers, regs := t.regs }) ∧
  (∀ (n : TellerIx) (s : State), PartReady s n 8 → mwSeq (telWord s n) = 8 → (∀ p ∈ mwParts (telWord s n), p ∈ partsIssued s n) →
    rd s (telB n) R.TIL_TEL_STAT_EVENT ≠ 0 → Runs (.seqEnd n) s fun t =>
      let y := getTel t n
      t = { s with tellers := t.tellers, regs := t.regs, shadow := t.shadow } ∧ TellersBut s t [n] ∧
      (∀ k, telB n * 32 ≤ k → k < (telB n + 0x100) * 32 → mapGet? t.shadow k = none) ∧
      (∀ k, ¬(telB n * 32 ≤ k ∧ k < (telB n + 0x100) * 32) → mapGet? t.shadow k = mapGet? s.shadow k ∧ mapGet? t.regs k = mapGet? s.regs k) ∧
      y.t = [] ∧ y.lc = 0 ∧ y.stack = [] ∧ y.mw = none ∧ y.g = (getTel s n).g ∧ y.scratch = (getTel s n).scratch ∧
      y.pend = (if (getTel s n).used then (getTel s n).pend else (getTel s n).pend.filter (· != rd s (telB n) R.TIL_TEL_STAT_EVENT)) ∧
      ((∀ k, telB n * 32 ≤ k → k < (telB n + 8) * 32 → mapGet? s.shadow k = none) → telState t n = 2 ∧
        flag t (telB n) R.TIL_TEL_STAT_POSTC = false ∧ flag t (telB n) R.TIL_TEL_STAT_LENT = false)) ∧
  ∀ (n : TellerIx) (s : State) (a : Nat), (getTel s n).timer = some a → Runs (.tellerTimerExpiry n) s fun t =>
    (getTel t n).timer = none ∧ s.now ≤ t.now ∧ a ≤ t.now ∧ TellersBut s t [n] ∧ SameBytes s t ∧
    (∀ w, entryOf (getTel s n) (telRole s n) 0xA = some w → 0xA ∈ (getTel t n).pend) ∧
    (entryOf (getTel s n) (telRole s n) 0xA = none → Counted s t (telB n) R.TIL_TEL_NOENT_NOENT)

/-- R218, R225 to R228: a TRAP or reserved sequencing code, the watchdog, and END not issued 64 ns after COMMIT halt a running
teller: the cause is recorded, the halt counted, and before COMMIT a restart, role IDLE, the epoch one higher, registers, scratch, outbox and
timer discarded, and the teller reloads, or is RETIRED at the third halt within 1 s or with no valid image slot. A reload loads the
image of its slot again and the teller waits; a reload whose check fails, or from a slot no
longer valid, retires it and clears the slot's VALID. -/
def Obligations.TellerHalts : Prop :=
  (∀ (n : TellerIx) (s : State), telState s n = 3 → (∀ m, m < 192 → TelSettled s m) →
    let x := getTel s n
    let halted := fun (now cause : Nat) (t : State) =>
      let y := getTel t n
      rd t (telB n) R.TIL_TEL_STAT_HCAUSE = cause ∧ Counted s t (telB n) R.TIL_TEL_HALTS_HALTS ∧ telRole t n = 0 ∧
      telEpoch t n = (telEpoch s n + 1) % 2 ^ 16 ∧ y.g = [] ∧ y.t = [] ∧ y.scratch = [] ∧ y.outbox = [] ∧ y.timer = none ∧ y.mw = none ∧
      telState t n = (if 2 ≤ (x.halts.filter fun a => decide (now < a + usec 1000000)).length ∨
        rdi s glb R.GLB_IMGSTAT_VALID (rd s (telB n) R.TIL_TEL_STAT_SLOT) = 0 then 6 else 5) ∧
      (flag s (telB n) R.TIL_TEL_STAT_POSTC = false → Counted s t (telB n) R.TIL_TEL_RESTART_RESTART) ∧ SameBytes s t
    (tellersRun s = true → 8 ∉ x.done → mwBegin s n ≠ none → (mwSeq (telWord s n) = 0 ∨ 8 < mwSeq (telWord s n)) →
      Runs (.seqTrap n) s (halted s.now 2)) ∧
    Runs (.watchdogExpiry n) s (fun t => halted t.now 1 t ∧ s.now ≤ t.now ∧ x.since + usec (rd s (telB n) R.TIL_TEL_CFG_WDOG) ≤ t.now) ∧
    (flag s (telB n) R.TIL_TEL_STAT_POSTC = true → Runs (.commitOverrun n) s (fun t => halted t.now 4 t ∧ s.now ≤ t.now ∧ x.commitAt + nsec 64 ≤ t.now))) ∧
  ∀ (n : TellerIx) (s : State), telState s n = 5 →
    let slot := rd s (telB n) R.TIL_TEL_STAT_SLOT
    Runs (.reloadDone n) s fun t => SameBytes s t ∧
      match (if rdi s glb R.GLB_IMGSTAT_VALID slot = 0 then none else reloadCopy s (n.val / 48) slot).filter
          fun l => imgHeaderOk l && imgKeyOk s l && imgSigOk l with
      | none => telState t n = 6 ∧ rdi t glb R.GLB_IMGSTAT_VALID slot = 0 ∧ t = { s with regs := t.regs }
      | some l => telState t n = 2 ∧ (getTel t n).store = imgStore l ∧ (getTel t n).entries = imgEntries l ∧
          (getTel t n).roles = imgRoles l ∧ (getTel t n).scratch = imgScratchWords l ∧ (TelSettled s n → telEpoch t n = telEpoch s n)

/-- R36, R44, R57 to R59, R81: SAFE_REQ, a driver overcurrent and an overcurrent of a connected clamp put the slice in the safe
state for their cause; the overcurrents also show `DRV_OVC` (and `CLAMP_HIT`) and raise detector 0x01. The TDC windows of the
slice's position close; with none open, no other detector is signalled. -/
def Obligations.SafeStateEntry : Prop :=
  ∀ (s : State) (ti : TileIx) (p : SliceIx),
    let b := sliceB ti p
    let open_ := fun (t : State) (k core : Nat) => mapGet (getTile t ti).tdcWin (k * 2 + core) []
    let closed := fun (t : State) => ∀ k, posOf s ti p = some k → open_ t k 0 = [] ∧ open_ t k 1 = []
    let still := ∀ k, posOf s ti p = some k → open_ s k 0 = [] ∧ open_ s k 1 = []
    let raised := fun (t : State) (info : Nat) => (0x01 * 1024 + (ti.val * 18 + p.val), info) ∈ t.flt.signals ∧
      (still → t.flt = { s.flt with signals := s.flt.signals ++ [(0x01 * 1024 + (ti.val * 18 + p.val), info)] })
    (HostOpen s → isRetired s ti p = false → NotPending s (safeKeys ti p R.CHN_STAT_SC_SW) →
      Runs (.safeReq ti p) s fun t => EnteredSafe s t ti p R.CHN_STAT_SC_SW ∧ closed t ∧ (still → t.flt = s.flt)) ∧
    (NotPending s (safeKeys ti p R.CHN_STAT_SC_OVC) → NotPending s [fieldKey b R.CHN_STAT_DRV_OVC 0] →
      (Runs (.driverOvercurrent ti p) s fun t => EnteredSafe s t ti p R.CHN_STAT_SC_OVC ∧ flag t b R.CHN_STAT_DRV_OVC = true ∧
        closed t ∧ raised t 0) ∧
      ∀ high : Bool, flag s b R.CHN_CTL_CLAMP_EN = true → flag s b R.CHN_STAT_SAFE = false → NotPending s [fieldKey b R.CHN_STAT_CLAMP_HIT 0] →
        Runs (.clampOvercurrent ti p high) s fun t => EnteredSafe s t ti p R.CHN_STAT_SC_OVC ∧ flag t b R.CHN_STAT_DRV_OVC = true ∧
          flag t b R.CHN_STAT_CLAMP_HIT = true ∧ closed t ∧ raised t (if high then 1 else 2))

/-- R60: `SAFE_REL` clears `SC_SW`, and releases the slice only if no other cause is set; the driver stays off. R58: a 1 written
to `DRV_OVC` clears it and `SC_OVC` and releases nothing (a digitizer that taps the ball notes until when it was safe, R174). R43, R44: a conducting connected clamp and a connected load that
saturates set their flags, in any slice, and nothing else changes. -/
def Obligations.SafeStateExit : Prop :=
  ∀ (s : State) (ti : TileIx) (p : SliceIx),
    let b := sliceB ti p
    let key := fun f => fieldKey b f 0
    let others := [R.CHN_STAT_SC_RST, R.CHN_STAT_SC_CARD, R.CHN_STAT_SC_DEV, R.CHN_STAT_SC_CRIT, R.CHN_STAT_SC_DEP, R.CHN_STAT_SC_OVC].any (flag s b)
    (HostOpen s → isRetired s ti p = false →
      (Runs (.safeRel ti p) s fun t => flag t b R.CHN_STAT_SC_SW = false ∧
        flag t b R.CHN_STAT_SAFE = (flag s b R.CHN_STAT_SAFE && others) ∧ (getSlice t ti p).drive = (getSlice s ti p).drive ∧
        t = { s with regs := t.regs, slices := t.slices, digs := t.digs } ∧ (tapSafe s (ti.val / 12) = false → t.digs = s.digs) ∧
        (∀ q, getDig t q = { getDig s q with safeTo := (getDig t q).safeTo }) ∧
        RegsBut s t (key R.CHN_STAT_SC_SW :: if flag s b R.CHN_STAT_SAFE && !others then
          [key R.CHN_STAT_SAFE, key R.CHN_STAT_CMP_RDY, key R.CHN_CMP_EVT_HI_STATE, key R.CHN_CMP_EVT_LO_STATE] else [])) ∧
      (Runs (.drvOvcClear ti p) s fun t => flag t b R.CHN_STAT_DRV_OVC = false ∧ flag t b R.CHN_STAT_SC_OVC = false ∧
        t = { s with regs := t.regs } ∧ RegsBut s t [key R.CHN_STAT_DRV_OVC, key R.CHN_STAT_SC_OVC])) ∧
    (flag s b R.CHN_CTL_CLAMP_EN = true → flag s b R.CHN_STAT_SAFE = false → Runs (.clampConducts ti p) s fun t =>
      flag t b R.CHN_STAT_CLAMP_HIT = true ∧ t = { s with regs := t.regs } ∧ RegsBut s t [key R.CHN_STAT_CLAMP_HIT]) ∧
    ((getSlice s ti p).load = true → Runs (.loadSaturates ti p) s fun t =>
      flag t b R.CHN_STAT_LOAD_SAT = true ∧ t = { s with regs := t.regs } ∧ RegsBut s t [key R.CHN_STAT_LOAD_SAT])

/-- R37 to R42: a continuous comparator settles; an edge between decided outputs of the selected source sets `EVT`, once;
a sampled comparator decides by a majority of M of its last N samples, and holds X until N samples are in. The outputs read
what was decided; `MODE` never changes. -/
def Obligations.Comparator : Prop :=
  ∀ (s : State) (ti : TileIx) (p : SliceIx),
    let b := sliceB ti p
    let hi0 := codeTrit (rd s b R.CHN_CMP_EVT_HI_STATE)
    let lo0 := codeTrit (rd s b R.CHN_CMP_EVT_LO_STATE)
    let shows := fun (t : State) (hi lo : Trit) =>
      rd t b R.CHN_CMP_EVT_HI_STATE = tritCode hi ∧ rd t b R.CHN_CMP_EVT_LO_STATE = tritCode lo ∧ SameBytes s t ∧
      rd t b R.CHN_CMP_CTL_MODE = rd s b R.CHN_CMP_CTL_MODE ∧
      flag t b R.CHN_CMP_EVT_EVT = (flag s b R.CHN_CMP_EVT_EVT || cmpEdge s ti p (cmpSource s ti p hi0 lo0) (cmpSource s ti p hi lo))
    (cmpMode s ti p = 1 → Runs (.cmpSettled ti p) s fun t => flag t b R.CHN_STAT_CMP_RDY = true ∧ t = { s with regs := t.regs, tiles := t.tiles } ∧
      RegsBut s t [fieldKey b R.CHN_STAT_CMP_RDY 0] ∧
      ((∀ a ∈ (getTile s ti).await, ∀ e ∈ a.strobes, s.now < e.2.2 * 128) → t.tiles = s.tiles)) ∧
    (cmpMode s ti p = 1 → flag s b R.CHN_STAT_CMP_RDY = true → ∀ hi lo : Trit, hi ≠ .x → lo ≠ .x →
      Runs (.cmpEdge ti p hi lo) s fun t => shows t hi lo ∧ getSlice t ti p = getSlice s ti p) ∧
    (cmpMode s ti p = 2 → ∀ hi lo : Trit,
      let n := if flag s b R.CHN_CMP_CTL_FILT then 9 else 5
      let m := if flag s b R.CHN_CMP_CTL_FILT then 5 else 3
      let x := getSlice s ti p
      let last := fun (v old : Trit) (l : List Trit) => ((if v = .x then old else v) :: l).take n
      let decide3 := fun (old : Trit) (l : List Trit) =>
        if old = .x ∧ x.ticks + 1 < n then Trit.x
        else if m ≤ l.countP (· = .above) then .above
        else if m ≤ l.countP (· = .below) then .below
        else old
      Runs (.sampledTick ti p hi lo) s fun t =>
        shows t (decide3 hi0 (last hi hi0 x.samplesHi)) (decide3 lo0 (last lo lo0 x.samplesLo)) ∧
        getSlice t ti p = { x with samplesHi := last hi hi0 x.samplesHi, samplesLo := last lo lo0 x.samplesLo, ticks := x.ticks + 1 })

/-- R45 to R49: a request that meets a vector's command in one timing-clock period waits for that; any other request for a valid bank takes its levels at once, or starts a glide of (T + 1) us from the levels in force; an
invalid bank is refused; a request during a glide waits in the queue. A level written to a bank is stored, and steps the ball
only where that bank is in force and no glide runs. At update k of K a glide's levels are source + round((target - source) k / K);
update K lands on the target and, with nothing queued, ends the glide. -/
def Obligations.LevelBanks : Prop :=
  ∀ (s : State) (ti : TileIx) (p : SliceIx), isRetired s ti p = false →
    let b := sliceB ti p
    let key := fun f => fieldKey b f 0
    let x := getSlice s ti p
    (HostOpen s → vectorAsks s ti p = true → ∀ k : BankIx, Runs (.bankSelectWrite ti p k) s fun t =>
      getSlice t ti p = { x with late := some k.val } ∧ t = { s with regs := t.regs, slices := t.slices } ∧ RegsBut s t [key R.CHN_BANK_SEL_BANK]) ∧
    (HostOpen s → vectorAsks s ti p = false → ∀ k : BankIx,
      (x.glide = none → bankValid (wr s b R.CHN_BANK_SEL_BANK k) ti p k = false → Runs (.bankSelectWrite ti p k) s fun t =>
        flag t b R.CHN_STAT_BANK_INV = true ∧ getSlice t ti p = x ∧ rd t b R.CHN_BANK_STAT_TGT = rd s b R.CHN_BANK_STAT_TGT ∧
        t = { s with regs := t.regs } ∧ RegsBut s t [key R.CHN_BANK_SEL_BANK, key R.CHN_STAT_BANK_INV]) ∧
      (x.glide = none → bankValid (wr s b R.CHN_BANK_SEL_BANK k) ti p k = true → rdi s b R.CHN_GLIDE_EN k = 0 →
        Runs (.bankSelectWrite ti p k) s fun t =>
          getSlice t ti p = { x with dac := bankLevels s ti p k } ∧ rd t b R.CHN_BANK_STAT_TGT = k ∧
          t = { s with regs := t.regs, slices := t.slices } ∧ RegsBut s t [key R.CHN_BANK_SEL_BANK, key R.CHN_BANK_STAT_TGT]) ∧
      (x.glide = none → bankValid (wr s b R.CHN_BANK_SEL_BANK k) ti p k = true → rdi s b R.CHN_GLIDE_EN k ≠ 0 →
        Runs (.bankSelectWrite ti p k) s fun t =>
          getSlice t ti p = { x with glide := some ⟨rd s b R.CHN_BANK_STAT_TGT, k, x.dac, bankLevels s ti p k, (rdi s b R.CHN_GLIDE_T k + 1) * 10, 0⟩ } ∧
          flag t b R.CHN_BANK_STAT_GLIDING = true ∧ rd t b R.CHN_BANK_STAT_TGT = k ∧ t = { s with regs := t.regs, slices := t.slices }) ∧
      (x.glide ≠ none → Runs (.bankSelectWrite ti p k) s fun t =>
        getSlice t ti p = x ∧ flag t b R.CHN_BANK_STAT_QV = true ∧ rd t b R.CHN_BANK_STAT_QBANK = k ∧
        t = { s with regs := t.regs } ∧ RegsBut s t [key R.CHN_BANK_SEL_BANK, key R.CHN_BANK_STAT_QV, key R.CHN_BANK_STAT_QBANK])) ∧
    (HostOpen s → ∀ (k : BankIx) (f : Fin 11) (v : Word), f.val < 10 →
      let fd := bankFields.getD f R.CHN_VIH_CODE
      Runs (.bankFieldWrite ti p k f v) s fun t =>
        rdi t b fd k = storeAs fd.sto (v.toNat % 2 ^ 16) % 2 ^ 16 ∧ RegsBut s t [fieldKey b fd k] ∧ t = { s with regs := t.regs, slices := t.slices } ∧
        getSlice t ti p = if x.glide = none ∧ rd s b R.CHN_BANK_STAT_TGT = k then { x with dac := listSet x.dac f (storeAs fd.sto (v.toNat % 2 ^ 16)) } else x) ∧
    ∀ g : Glide, x.glide = some g →
      (g.done + 1 < g.updates → Runs (.glideUpdate ti p) s fun t =>
        getSlice t ti p = { x with glide := some { g with done := g.done + 1 }
                                   dac := List.zipWith (fun (a c : Nat) =>
                                     ((a : Int) + (2 * (((c : Int) - a) * (g.done + 1)) + g.updates) / (2 * g.updates)).toNat) g.from_ g.to_ } ∧
        t = { s with regs := t.regs, slices := t.slices } ∧ RegsBut s t [key R.CHN_BANK_STAT_REMAIN]) ∧
      (g.updates ≤ g.done + 1 → flag s b R.CHN_BANK_STAT_QV = false → Runs (.glideUpdate ti p) s fun t =>
        getSlice t ti p = { x with glide := none, dac := g.to_ } ∧ flag t b R.CHN_BANK_STAT_GLIDING = false ∧
        t = { s with regs := t.regs, slices := t.slices } ∧ RegsBut s t [key R.CHN_BANK_STAT_GLIDING, key R.CHN_BANK_STAT_REMAIN])

/-- R10, R52 to R54: `CONNECT` turns driver and load off (it is stored as 0 in the safe state, and ignored while the slice's block
runs); a START makes an unlocked slice outside the safe state busy, is ignored with `STIGN` while busy, refused with `LOCKED`
under the drive lock; the measurement's end, with `N` + 1 conversions (R199), shows their mean rounded half up, cut at full scale with `OVR`, and `DONE`; and `CONNECT` = 0 opens the
switch whether or not the block runs, aborting a running measurement. -/
def Obligations.PmuMeasurement : Prop :=
  ∀ (s : State) (ti : TileIx) (p : SliceIx),
    let b := sliceB ti p
    let key := fun f => fieldKey b f 0
    let x := getSlice s ti p
    let pend := NotPending s ([R.CHN_PMU_STAT_BUSY, R.CHN_PMU_STAT_DONE, R.CHN_PMU_STAT_ABORTED, R.CHN_PMU_RES_RES, R.CHN_PMU_STAT_OVR].map key)
    (HostOpen s → isRetired s ti p = false →
      (sliceRuns s ti p = false → Runs (.pmuConnect ti p) s fun t =>
        flag t b R.CHN_PMU_CTL_CONNECT = !flag s b R.CHN_STAT_SAFE ∧ RegsBut s t [key R.CHN_PMU_CTL_CONNECT] ∧
        t = { s with regs := t.regs, slices := t.slices } ∧
        (flag s b R.CHN_STAT_SAFE = false → getSlice t ti p = { x with drive := .off, load := false })) ∧
      (Runs (.pmuStart ti p) s fun t => t = { s with regs := t.regs, slices := t.slices } ∧
        if flag s b R.CHN_PMU_STAT_BUSY then flag t b R.CHN_PMU_STAT_STIGN = true ∧ getSlice t ti p = x ∧ RegsBut s t [key R.CHN_PMU_STAT_STIGN]
        else if flag s b R.CHN_STAT_DRIVE_LOCK then flag t b R.CHN_PMU_STAT_LOCKED = true ∧ getSlice t ti p = x ∧ RegsBut s t [key R.CHN_PMU_STAT_LOCKED]
        else if flag s b R.CHN_STAT_SAFE then flag t b R.CHN_PMU_STAT_ABORTED = true ∧ flag t b R.CHN_PMU_STAT_DONE = false ∧ getSlice t ti p = x
        else flag t b R.CHN_PMU_STAT_BUSY = true ∧ getSlice t ti p = { x with pmu := .measuring none } ∧ RegsBut s t [key R.CHN_PMU_STAT_BUSY]) ∧
      (x.pmu = .measuring none → pend → Runs (.pmuDisconnect ti p) s fun t =>
        flag t b R.CHN_PMU_CTL_CONNECT = false ∧ flag t b R.CHN_PMU_STAT_ABORTED = true ∧ flag t b R.CHN_PMU_STAT_DONE = false ∧
        flag t b R.CHN_PMU_STAT_BUSY = false ∧ rd t b R.CHN_PMU_RES_RES = rd s b R.CHN_PMU_RES_RES ∧ (getSlice t ti p).pmu = .idle ∧ SameBytes s t) ∧
      (x.pmu = .idle → Runs (.pmuDisconnect ti p) s fun t => flag t b R.CHN_PMU_CTL_CONNECT = false ∧
        RegsBut s t [key R.CHN_PMU_CTL_CONNECT] ∧ (getSlice t ti p).pmu = .idle ∧ t = { s with regs := t.regs, slices := t.slices })) ∧
    (∀ (conv : List Int) (limit : Option Bool) (clamped : Bool), x.pmu = .measuring none → conv.length ≠ rd s b R.CHN_PMU_CNT_N + 1 →
      Runs (.pmuMeasureDone ti p conv limit clamped) s fun t => t = s) ∧
    ∀ (conv : List Int) (limit : Option Bool) (clamped : Bool), x.pmu = .measuring none → pend → conv.length = rd s b R.CHN_PMU_CNT_N + 1 →
      let mean : Int := (2 * conv.sum + conv.length) / (2 * conv.length)
      let lo : Int := if rd s b R.CHN_PMU_CTL_MODE = 2 then -1000000 else -8388608
      let hi : Int := if rd s b R.CHN_PMU_CTL_MODE = 2 then 6000000 else 8388608
      let v : Int := match limit with
        | some true => hi
        | some false => lo
        | none => max lo (min mean hi)
      Runs (.pmuMeasureDone ti p conv limit clamped) s fun t =>
        flag t b R.CHN_PMU_STAT_DONE = true ∧ flag t b R.CHN_PMU_STAT_BUSY = false ∧ (getSlice t ti p).pmu = .idle ∧ SameBytes s t ∧
        (BitVec.ofNat 32 (rd t b R.CHN_PMU_RES_RES)).toInt = v ∧
        ((limit ≠ none ∨ mean < lo ∨ hi < mean) → flag t b R.CHN_PMU_STAT_OVR = true)

/-- R55, R56: a contact check saves the PMU fields, connects the PMU in FI mode at -100 uA between its clamps, and judges the
mean of 16 conversions: OPEN at the clamp or below `VLO`, SHORT above `VHI`, else PASS; its end restores the saved fields, and a PASS
clears the drive lock, another result sets it (unless `CONTACT_OVR` holds it clear). -/
def Obligations.ContactCheck : Prop :=
  ∀ (s : State) (ti : TileIx) (p : SliceIx),
    let b := sliceB ti p
    let key := fun f => fieldKey b f 0
    let x := getSlice s ti p
    (HostOpen s → isRetired s ti p = false → flag s b R.CHN_PMU_STAT_BUSY = false → flag s b R.CHN_STAT_SAFE = false →
      Runs (.contactCheckStart ti p) s fun t =>
        rd t b R.CHN_PMU_CTL_MODE = 2 ∧ rd t b R.CHN_PMU_FORCE_CODE = 2 ^ 16 - 16384 ∧ rd t b R.CHN_PMU_CLAMP_LO = 0 ∧
        rd t b R.CHN_PMU_CLAMP_HI = 0x4000 ∧ rd t b R.CHN_PMU_CNT_N + 1 = 16 ∧ flag t b R.CHN_PMU_CTL_CONNECT = true ∧
        flag t b R.CHN_PMU_STAT_BUSY = true ∧ (getSlice t ti p).pmu = .contact (pmuSaved s ti p) none ∧
        (getSlice t ti p).drive = .off ∧ (getSlice t ti p).load = false ∧ t = { s with regs := t.regs, slices := t.slices }) ∧
    ∀ (saved : List Nat) (conv : List Int) (clamped : Bool), x.pmu = .contact saved none → saved.length = 9 → flag s b R.CHN_STAT_SAFE = false →
      conv.length = 16 →
      NotPending s ([R.CHN_CC_RES_RESULT, R.CHN_CC_RES_VMEAS, R.CHN_STAT_DRIVE_LOCK, R.CHN_PMU_STAT_BUSY, R.CHN_PMU_CTL_MODE,
        R.CHN_PMU_CTL_CONNECT, R.CHN_PMU_FORCE_CODE, R.CHN_PMU_CNT_N].map key) →
      let vmeas : Int := (conv.sum + 8) / 16
      let r := if clamped = true ∨ vmeas * 128 < ((rd s b R.CHN_CC_WIN_VLO : Int) - 8192) * 15625 then 2
        else if ((rd s b R.CHN_CC_WIN_VHI : Int) - 8192) * 15625 < vmeas * 128 then 3 else 1
      Runs (.contactCheckDone ti p conv clamped) s fun t =>
        rd t b R.CHN_CC_RES_RESULT = r ∧ (-(2 ^ 23) ≤ vmeas → vmeas < 2 ^ 23 → (BitVec.ofNat 24 (rd t b R.CHN_CC_RES_VMEAS)).toInt = vmeas) ∧
        flag t b R.CHN_STAT_DRIVE_LOCK = (r ≠ 1 && !flag s b R.CHN_CTL_CONTACT_OVR) ∧ flag t b R.CHN_PMU_STAT_BUSY = false ∧
        rd t b R.CHN_PMU_CTL_MODE = saved.getD 0 0 % 2 ^ R.CHN_PMU_CTL_MODE.width ∧ rd t b R.CHN_PMU_CTL_CONNECT = saved.getD 3 0 % 2 ∧
        rd t b R.CHN_PMU_FORCE_CODE = saved.getD 5 0 % 2 ^ 16 ∧ rd t b R.CHN_PMU_CNT_N = saved.getD 8 0 % 2 ^ 16 ∧
        (getSlice t ti p).pmu = .idle ∧ SameBytes s t

/-- R65 to R67, R70: `EN` = 1 with FTW in range starts boundaries (none while the pin die's timing PLL is out of lock) at the first vector whose boundary lies at or after now, and is
refused out of range; `EN` = 0 stops them, and is ignored with `WR_IGN` while the sequencer is ARMED, RUN or HOLD; an arm that
passes the checks makes one change pending in every tile of it, a failing one is refused with its cause; a cancel at least 2 us
ahead withdraws the change from every tile of it, a later one is refused. -/
def Obligations.VectorClock : Prop :=
  ∀ (s : State) (ti : TileIx), HostOpen s →
    let b := tileB ti
    let l := lawOf s ti
    let key := fun f => fieldKey b f 0
    (flag s b R.TIL_VCLK_CTL_EN = false → 0x8637BD1 ≤ l.ftw → l.ftw ≤ 0x666666666666 →
      Runs (.vclkEnable ti) s fun t =>
        flag t b R.TIL_VCLK_CTL_EN = true ∧ flag t b R.TIL_VCLK_STAT_RUNNING = !pllLost s (ti.val / 12) ∧ t = { s with regs := t.regs, tiles := t.tiles } ∧
        (∃ n, (getTile t ti).nextVec = n ∧ l.ph0 ≤ n ∧ s.now ≤ boundaryTime s ti n ∧
          ∀ m, l.ph0 ≤ m → m < n → boundaryTime s ti m < s.now) ∧ lawOf t ti = l) ∧
    (flag s b R.TIL_VCLK_CTL_EN = false → (l.ftw < 0x8637BD1 ∨ 0x666666666666 < l.ftw) →
      Runs (.vclkEnable ti) s fun t => VclkRefused s t ti 2) ∧
    (flag s b R.TIL_VCLK_CTL_EN = true → tileLive s ti = false → Runs (.vclkDisable ti) s fun t =>
      flag t b R.TIL_VCLK_CTL_EN = false ∧ flag t b R.TIL_VCLK_STAT_RUNNING = false ∧ t = { s with regs := t.regs } ∧
      RegsBut s t [key R.TIL_VCLK_CTL_EN, key R.TIL_VCLK_STAT_RUNNING]) ∧
    (flag s b R.TIL_VCLK_CTL_EN = true → tileLive s ti = true → Runs (.vclkDisable ti) s fun t =>
      flag t b R.TIL_VCLK_STAT_WR_IGN = true ∧ t = { s with regs := t.regs } ∧ RegsBut s t [key R.TIL_VCLK_STAT_WR_IGN]) ∧
    (let ftw := rd64 s b R.TIL_VCLK_NFTW_LO_NFTW R.TIL_VCLK_NFTW_HI_NFTW
     let tc := rdTime s b R.TIL_VCLK_NTIME0_FRAC R.TIL_VCLK_NTIME1_NS R.TIL_VCLK_NTIME2_SECL R.TIL_VCLK_NTIME3_SECH
     (∀ st cause, armCheck s (changeTiles s ti) ftw tc = some (st, cause) → Runs (.vclkArm ti) s fun t => VclkRefused s t ti (cause % 8)) ∧
     (armCheck s (changeTiles s ti) ftw tc = none → (∀ c, (getTile s ((changeTiles s ti).headD 0)).pend = some c → c.job = none) →
      Runs (.vclkArm ti) s fun t => t = { s with regs := t.regs, tiles := t.tiles } ∧
        (∀ u ∈ changeTiles s ti, (getTile t u).pend = some ⟨changeTiles s ti, ftw, tc, none⟩ ∧ flag t (tileB u) R.TIL_VCLK_STAT_PEND = true) ∧
        (∀ u, u ∉ changeTiles s ti → getTile t u = getTile s u) ∧ lawOf t ti = l)) ∧
    ∀ c, (getTile s ti).pend = some c →
      (c.tc < s.now + usec 2 → Runs (.vclkCancel ti) s fun t => VclkRefused s t ti 4) ∧
      (s.now + usec 2 ≤ c.tc → c.job = none → Runs (.vclkCancel ti) s fun t => t = { s with regs := t.regs, tiles := t.tiles } ∧
        ∀ u ∈ c.tiles, (getTile t u).pend = none ∧ flag t (tileB u) R.TIL_VCLK_STAT_PEND = false)

/-- R79, R80, R82, R83, R85 to R87: an edge of the wanted kind inside a measured window, its threshold decided and at least 300 ps after the stops
before it, is taken with the result (ks * 256 - F) - start, F from its raw code by the core's correction table; one too close marks the window LOST,
one that meets an X output is seen as such; any other edge changes nothing.
A closing window leaves its core, and its record, if REC wants one, enters the tile's queue, or is counted as dropped at a full
queue; the oldest record goes to the ledger's TDC area. -/
def Obligations.TdcWindows : Prop :=
  (∀ (s : State) (ti : TileIx) (k : PosIx) (core : Fin 2) (edge : Fin 4) (ks : Nat) (code : Fin 1024) (w : TdcWin) (rest : List TdcWin),
    let x := getTile s ti
    let p := sliceOf s ti k
    let c := k.val * 2 + core.val
    mapGet x.tdcWin c [] = w :: rest → tdcBusy x c w = false →
    let a := ks * 256 - tdcEntry s ti p core code
    let n := w.stops.length
    let fits := w.openAt ≤ a ∧ a < w.closeAt ∧ n < w.wanted ∧ w.specs.getD n 0 = edge.val
    let near := ∃ r ∈ w.stops, (a - (w.start + r)) * 1953125 < 300000000
    let out := rd s (sliceB ti p) (if edge.val < 2 then R.CHN_CMP_EVT_HI_STATE else R.CHN_CMP_EVT_LO_STATE)
    let decided := cmpMode s ti p = 1 ∧ flag s (sliceB ti p) R.CHN_STAT_CMP_RDY = true ∧ out ≠ 2
    let becomes := fun (t : State) (w1 : TdcWin) => t = { s with tiles := t.tiles } ∧ mapGet (getTile t ti).tdcWin c [] = w1 :: rest ∧
      (∀ u, u ≠ ti.val → getTile t u = getTile s u)
    (fits → ¬near → decided → Runs (.tdcStop ti k core edge ks code false) s fun t => becomes t
      { w with stops := w.stops ++ [a - w.start], closeAt := if n + 1 = w.wanted then a else w.closeAt }) ∧
    (fits → near → decided → Runs (.tdcStop ti k core edge ks code false) s fun t => becomes t { w with lost := true }) ∧
    (fits → ∀ u, (u = true ∨ ¬decided) → Runs (.tdcStop ti k core edge ks code u) s fun t => becomes t { w with xseen := true }) ∧
    (a < w.openAt ∨ w.closeAt ≤ a → ∀ u, Runs (.tdcStop ti k core edge ks code u) s fun t => becomes t w)) ∧
  (∀ (s : State) (ti : TileIx) (k : PosIx) (core : Fin 2) (w : TdcWin) (rest : List TdcWin),
    let x := getTile s ti
    let b := tileB ti
    let c := k.val * 2 + core.val
    mapGet x.tdcWin c [] = w :: rest →
    let busy := tdcBusy x c w
    let lim := w.limits.any fun m => busy || !w.stops.head?.any fun r => decide (m.1 ≤ r) && decide (r ≤ m.2)
    let want := rd s b R.TIL_TDC_CTL_REC = 1 ∨ (rd s b R.TIL_TDC_CTL_REC = 2 ∧ (lim || busy || w.lost || w.xseen) = true)
    let r := tdcRecord ti k core w busy lim
    Runs (.tdcWindowClose ti k core) s fun t =>
      mapGet (getTile t ti).tdcWin c [] = rest ∧ (busy = true → Counted s t b R.TIL_TDC_BUSYCNT_BUSYCNT) ∧
      (busy = false → mapGet? (getTile t ti).tdcLast c = some (w.openAt, w.closeAt)) ∧
      (¬want → (getTile t ti).tdcQ = x.tdcQ ∧ t.flt = s.flt) ∧
      (want → x.tdcQ.length < 1024 → (getTile t ti).tdcQ = x.tdcQ ++ [r] ∧ t.flt = s.flt) ∧
      (want → 1024 ≤ x.tdcQ.length → (getTile t ti).tdcQ = x.tdcQ ∧ Counted s t b R.TIL_TDC_DROP_DROP ∧
        flag t b R.TIL_TDC_STAT_OVF = true ∧ t.flt.signals = s.flt.signals ++ [(0x0A * 1024 + ti.val, 0)]) ∧
      t = { s with regs := t.regs, tiles := t.tiles, flt := t.flt }) ∧
  ∀ (s : State) (ti : TileIx) (r : List Nat) (rest : List (List Nat)), (getTile s ti).tdcQ = r :: rest →
    Runs (.tdcRecordWrite ti) s fun t => t = { s with tiles := t.tiles } ∧
      getTile t ti = { getTile s ti with tdcQ := rest, tdcArea := (getTile s ti).tdcArea ++ [r] }

/-- R65, R69: at boundary N of an idle tile's clock ring time has reached t(N), `TIL_VCNT` shows N, and a pending change whose Tc
has come applies: E = t(N), PH0 = N, the new FTW, `APPLIED`. R16, R23, R30: a lane transfer that passes, at once or repeated,
changes nothing on a sound lane, and brings a lost one back; a tile-lane vector that fails twice is absent (its results, upward, are lost) and raises
detector 0x05, and with three vectors in a row so the lane is lost and its slices are safe (R29); a sector lane that fails twice is down and raises 0x06, until a transfer passes. -/
def Obligations.BoundariesAndLanes : Prop :=
  (∀ (s : State) (ti : TileIx),
    let b := tileB ti
    let n := (getTile s ti).nextVec
    flag s b R.TIL_VCLK_CTL_EN = true → pllLost s (ti.val / 12) = false → powerReady s = true → gangOf s ti = none → n < 2 ^ 64 →
    Runs (.vectorBoundary ti) s fun t =>
      (getTile t ti).nextVec = n + 1 ∧ t.now = max s.now (boundaryTime s ti n) ∧ vcnt t ti = n ∧ SameBytes s t ∧
      ((getTile s ti).pend = none → lawOf t ti = lawOf s ti) ∧
      ∀ c, (getTile s ti).pend = some c →
        (boundaryTime s ti n < c.tc → lawOf t ti = lawOf s ti ∧ (getTile t ti).pend = some c) ∧
        (c.tc ≤ boundaryTime s ti n → c.ftw < 2 ^ 48 → boundaryTime s ti n / 65536 / 1000000000 < 2 ^ 48 →
          lawOf t ti = ⟨boundaryTime s ti n, n, c.ftw⟩ ∧ (getTile t ti).pend = none ∧ flag t b R.TIL_VCLK_STAT_APPLIED = true)) ∧
  (∀ (s : State) (ti : TileIx) (up : Bool) (vec : Nat) (ok1 ok2 : Bool),
    let x := getTile s ti
    let fails := vec :: x.laneFails.filter fun v => v != vec && decide (vec < v + 256)
    let row := fun (v : Nat) => v ∈ fails ∧ v + 1 ∈ fails ∧ v + 2 ∈ fails
    let third := row vec ∨ (1 ≤ vec ∧ row (vec - 1)) ∨ (2 ≤ vec ∧ row (vec - 2))
    ((ok1 || ok2) = true → x.laneLost = false → Runs (.tileLaneTransfer ti up vec ok1 ok2) s fun t => t = s) ∧
    ((ok1 || ok2) = true → x.laneLost = true → Runs (.tileLaneTransfer ti up vec ok1 ok2) s fun t =>
      getTile t ti = { x with laneFails := [], laneLost := false } ∧ t = { s with regs := t.regs, tiles := t.tiles } ∧
      (pllLost s (ti.val / 12) = false → ∀ p, p < 18 → depHeld { s with tiles := t.tiles } ti p = false → flag t (sliceB ti p) R.CHN_STAT_SC_DEP = false)) ∧
    ((ok1 || ok2) = false → x.laneLost = false → ¬third → (up = true ∨ gangOf s ti = none) → Runs (.tileLaneTransfer ti up vec ok1 ok2) s fun t =>
      (getTile t ti).laneFails = fails ∧ (getTile t ti).laneLost = false ∧
      (getTile t ti).vbuf = (if up then x.vbuf else x.vbuf.filter (·.1 != vec)) ∧
      (getTile t ti).await = (if up then x.await.filter (·.vec != vec) else x.await) ∧
      (∃ i, t.flt.signals = s.flt.signals ++ [(0x05 * 1024 + ti.val, i)]) ∧ t = { s with regs := t.regs, tiles := t.tiles, flt := t.flt }) ∧
    ((ok1 || ok2) = false → x.laneLost = false → third → (up = true ∨ gangOf s ti = none) → StatusFree s ((List.range 18).map fun p => (ti.val, p)) R.CHN_STAT_SC_DEP →
      Runs (.tileLaneTransfer ti up vec ok1 ok2) s fun t =>
        (getTile t ti).laneLost = true ∧ SafeFor t ((List.range 18).map fun p => (ti.val, p)) R.CHN_STAT_SC_DEP)) ∧
  ∀ (s : State) (q : SectorIx) (up ok1 ok2 : Bool),
    ((ok1 || ok2) = true → Runs (.sectorLaneTransfer q up ok1 ok2) s fun t => q.val ∉ t.laneDown ∧ t = { s with laneDown := t.laneDown } ∧
      ∀ r, r ≠ q.val → (r ∈ t.laneDown ↔ r ∈ s.laneDown)) ∧
    ((ok1 || ok2) = false → digState s q = 0 → Runs (.sectorLaneTransfer q up ok1 ok2) s fun t => q.val ∈ t.laneDown ∧
      t.flt.signals = s.flt.signals ++ [(0x06 * 1024 + q.val, b2n up)] ∧ t = { s with laneDown := t.laneDown, flt := t.flt } ∧
      ∀ r, r ≠ q.val → (r ∈ t.laneDown ↔ r ∈ s.laneDown))

/-- R112 to R114, R116: a request to a live gang, from a register of a tile or from a VEC op of a teller of the tile, latches at
n_r: Λ past the first boundary at or after now, or past Ns before it (not known yet, the request waits for it). HOLD and JUMP wait with it; RESUME
ends a host hold in force, and the next segment starts at n_r + 8 unless a thermal hold stays, and is ignored otherwise; ABORT of a gang that has
started keeps n_r as the first vector not emitted, withdrawing those sent from there on, of an ARMED gang takes it back to LOADED; a jump of a tile
that is not the leader, or to a target that is no resident segment, sets `JREF` alone. -/
def Obligations.GangRequests : Prop :=
  ∀ (s : State) (ti : TileIx) (l : Nat) (g : Gang), gangOf s ti = some (l, g) → gangLive s g = true →
    let nr := latchVec s g
    let law := lawOf s (leaderOf g)
    let via := fun (host : Instr) (tel : TellerIx → Instr) (op : Nat) (P : State → Prop) =>
      (HostOpen s → Runs host s fun t => t = { s with gangs := t.gangs, tiles := t.tiles } ∧ P t) ∧
      ∀ n : TellerIx, n.val / 4 = ti.val → PartReady s n 2 → mwVec (telWord s n) / 16 = op →
        Runs (tel n) s fun t => t = { s with gangs := t.gangs, tiles := t.tiles, tellers := t.tellers } ∧ TellersBut s t [n] ∧ P t
    let withdrawn := fun (t : State) (r : Nat) => (∀ u ∈ g.tiles, getTile t u = { getTile s u with vbuf := (getTile s u).vbuf.filter fun v => decide (v.1 < r) }) ∧
      ∀ u, u ∉ g.tiles → getTile t u = getTile s u
    let evsTo := fun (r : Nat) => g.evs.filter fun e => decide (e.1 < r)
    let runs := (∀ k, g.phase = .ending k → nr < g.stopAt) ∧ (g.phase = .over → nr < g.stopAt)
    (g.ns = none → nr = rd s (tileB (leaderOf g)) R.TIL_SEQ_LAMBDA_LAMBDA) ∧
    (∀ m n, g.ns = some n → 0x8637BD1 ≤ law.ftw → law.ftw ≤ 0x666666666666 → law.ph0 ≤ m → (getTile s (leaderOf g)).nextVec ≤ m →
      s.now ≤ law.e + (2 * ((m - law.ph0) * 2 ^ 63) + law.ftw) / (2 * law.ftw) →
      (∀ k, law.ph0 ≤ k → k < m → law.e + (2 * ((k - law.ph0) * 2 ^ 63) + law.ftw) / (2 * law.ftw) < s.now) →
      nr = max m n + rd s (tileB (leaderOf g)) R.TIL_SEQ_LAMBDA_LAMBDA) ∧
    via (.tilSeqHold ti) .vecHold 3 (fun t => GangTo s t l { g with holds := g.holds ++ [⟨nr, false, false⟩] } ∧ t.tiles = s.tiles) ∧
    (g.hostHold = true → g.thermal = true → via (.tilSeqResume ti) .vecResume 4 fun t => GangTo s t l { g with hostHold := false } ∧ t.tiles = s.tiles) ∧
    (g.hostHold = true → g.thermal = false → g.tiles.Nodup → via (.tilSeqResume ti) .vecResume 4 fun t =>
      GangTo s t l { g with hostHold := false, resume := some (nr + 8), genNext := min g.genNext (nr + 8), evs := evsTo (nr + 8) } ∧ withdrawn t (nr + 8)) ∧
    (g.hostHold = false → via (.tilSeqResume ti) .vecResume 4 fun t => t.gangs = s.gangs ∧ t.tiles = s.tiles) ∧
    (g.waiting = false → g.abort = none → gangArmed s g = false → runs → g.genNext ≤ nr →
      via (.tilSeqAbort ti) .vecAbort 5 fun t => GangTo s t l { g with abort := some (nr, 0x0314) } ∧ t.tiles = s.tiles) ∧
    (g.waiting = false → g.abort = none → gangArmed s g = false → runs → nr < g.genNext → g.tiles.Nodup →
      via (.tilSeqAbort ti) .vecAbort 5 fun t => withdrawn t nr ∧ ∃ seg, GangTo s t l
        { g with phase := .ending 4, stopAt := nr, status := 0x0314, genNext := nr, evs := evsTo nr, seg := seg }) ∧
    (g.waiting = false → gangArmed s g = true → HostOpen s → Runs (.tilSeqAbort ti) s fun t => Disarmed s t l g 0x0314) ∧
    (∀ target : Nat, let a := target % 2 ^ 12
      let key := fieldKey (tileB ti) R.TIL_SEQ_JUMP_TARGET 0
      let out := fun (t : State) (rank : Nat) (ks : List Nat) =>
        (l = ti.val → JumpTarget s g a → GangTo s t l { g with jumps := g.jumps ++ [⟨nr, a, rank, false⟩] } ∧ RegsBut s t ks ∧
          t = { s with regs := t.regs, gangs := t.gangs, tellers := t.tellers }) ∧
        ((l ≠ ti.val ∨ ¬JumpTarget s g a) → flag t (tileB ti) R.TIL_SEQ_STAT_JREF = true ∧ t.gangs = s.gangs ∧ t.tiles = s.tiles ∧ SameBytes s t)
      (HostOpen s → Runs (.tilSeqJumpGo ti target) s fun t =>
       rd t (tileB ti) R.TIL_SEQ_JUMP_TARGET = (if l = ti.val then a else rd s (tileB ti) R.TIL_SEQ_JUMP_TARGET) ∧ out t 0 [key]) ∧
      ∀ n : TellerIx, n.val / 4 = ti.val → PartReady s n 2 → mwVec (telWord s n) / 16 = 1 → opA s n = target →
        Runs (.vecJreq n) s fun t => out t 8 [])

/-- R110, R111, R322: a RUN_PATTERN at its owners ends with the status of its first failing check, or runs and arms its tiles as a gang;
`TIL_SEQ_CTL.ARM` arms one LOADED tile whose clock runs, Ts from `TIL_SEQ_START`; 1 us before Ts with prefill incomplete the
gang returns to LOADED with ST_SEQ_PREFILL. R102, R103: a delivery from home HBM appends to the stream area what its room and the
stream allow. -/
def Obligations.Arming : Prop :=
  (∀ (s : State) (j : Nat) (x : Job), JobStarts s j 0x11 x →
    let tiles := maskBits 48 (arg x 0)
    let ts := argTime (arg x 1) (arg x 2)
    (tiles = [] → Runs (.runPattern j) s fun t => JobEnds t j 0x0101 0 0 0 ∧ t.gangs = s.gangs ∧ t.tiles = s.tiles) ∧
    (tiles ≠ [] → ∀ st, runCheck s tiles ts = some st → Runs (.runPattern j) s fun t =>
      JobEnds t j st 0 0 0 ∧ t.gangs = s.gangs ∧ t.tiles = s.tiles ∧ SameBytes s t) ∧
    (tiles ≠ [] → runCheck s tiles ts = none → Runs (.runPattern j) s fun t =>
      ArmedAs s t tiles ts (some j) ∧ getJob? t j = some { x with phase := .running })) ∧
  (∀ (s : State) (ti : TileIx), HostOpen s → runBusy s ti = false → flag s (tileB ti) R.TIL_VCLK_CTL_EN = true →
    Runs (.tilSeqArm ti) s fun t => ArmedAs s t [ti.val]
      (rdTime s (tileB ti) R.TIL_SEQ_START0_FRAC R.TIL_SEQ_START1_NS R.TIL_SEQ_START2_SECL R.TIL_SEQ_START3_SECH) none) ∧
  (∀ (s : State) (ti : TileIx) (l : Nat) (g : Gang), gangOf s ti = some (l, g) → gangArmed s g = true → g.ts ≠ 0 →
    g.tiles.all (prefilled s) = false → Runs (.prefillDeadline ti) s fun t => Disarmed s t l g 0x0310 ∧ t.now = max s.now (g.ts - usec 1)) ∧
  ∀ (s : State) (ti : TileIx) (count l : Nat) (g : Gang) (p : Pattern) (d : List Nat), gangOf s ti = some (l, g) → gangLive s g = true →
    let x := getTile s ti
    x.pat = some p → p.src = .home d → d.length = p.streamLen → x.refillStop = false →
    let n := min count (min (65536 - p.resid.length - x.fifo.length) (p.streamLen - x.delivered))
    0 < n → g.phase ≠ .under → ∀ ok, Runs (.refillData ti ⟨count, ok⟩) s fun t =>
      (getTile t ti).fifo = x.fifo ++ (d.drop x.delivered).take n ∧ (getTile t ti).delivered = x.delivered + n ∧
      rd t (tileB ti) R.TIL_SEQ_FILL_OCC = (x.delivered + n - x.mark) % 2 ^ R.TIL_SEQ_FILL_OCC.width ∧ RegsBut s t [fieldKey (tileB ti) R.TIL_SEQ_FILL_OCC 0] ∧
      (∀ u, u ≠ ti.val → getTile t u = getTile s u) ∧ t = { s with regs := t.regs, tiles := t.tiles, gangs := t.gangs, hbm := t.hbm } ∧
      ((∀ u ∈ g.tiles, prefilled t u = true ∧ seqState s u = 2) → g.ns = none → ∃ h, getGang? t l = some h ∧ h.ts = s.now + usec 2 ∧
        h.ns = some (lawNext (lawOf s l) (s.now + usec 2)))

/-- R12, R54, R60, R90, R108, R109, R113, R115, R133, R135: at its start vector, with prefill complete, an ARMED gang goes to RUN and its first segment
starts; a later segment starts the same way; at a segment's end a due host or thermal hold takes the gang to HOLD, where writes pending for its frets take effect (R77); once the end
sequence has passed and every result is in, the tiles are LOADED, an aborted pattern marks its sites `INCOMPL`, the journals
fold and the job ends; a gang that waits for its remaps then ends, or is armed again for the sites that roll back. -/
def Obligations.Segments : Prop :=
  ∀ (s : State) (ti : TileIx) (l : Nat) (g : Gang),
    (∀ v rest,
      (∀ seg, EventDue s ti l g v (.start seg) rest → g.started = false → gangArmed s g = true → g.ns ≠ none → g.tiles.all (prefilled s) = true →
        Runs (.patternStart ti) s fun t => SegmentBegun s t l g seg v ∧ GangTo s t l { g with evs := rest, started := true } ∧
          ∀ u ∈ g.tiles, ∀ p, p < 18 → (getSlice t u p).quiet = isSafe s u p ∧
            (flag s (sliceB u p) R.CHN_CTL_EN = true → (getSlice t u p).inPattern = true)) ∧
      (∀ seg, EventDue s ti l g v (.start seg) rest → g.started = true → Runs (.segmentStart ti) s fun t =>
        SegmentBegun s t l g seg v ∧ GangTo s t l { g with evs := rest } ∧
        t = { s with regs := t.regs, shadow := t.shadow, gangs := t.gangs, tiles := t.tiles, tellers := t.tellers
                     roleEvts := t.roleEvts, items := t.items, trigOut := t.trigOut, startQ := t.startQ }) ∧
      (∀ seg host thm, EventDue s ti l g v (.end_ seg host thm) rest → Runs (.segmentEnd ti) s fun t =>
        GangTo s t l { g with evs := rest, hostHold := g.hostHold || host, thermal := g.thermal || thm } ∧
        ((host || thm) = true → ∀ u ∈ g.tiles, seqState t u = 4 ∧ flag t (tileB u) R.TIL_SEQ_STAT_HOLD_THM = thm ∧
          ∀ k, (tileB u + 0x8000) * 32 ≤ k → k < (tileB u + 0xC000) * 32 → mapGet? t.shadow k = none) ∧
        ((host || thm) = false → t.regs = s.regs ∧ t.shadow = s.shadow) ∧
        t = { s with regs := t.regs, shadow := t.shadow, gangs := t.gangs, tellers := t.tellers, roleEvts := t.roleEvts, items := t.items }) ∧
      (EventDue s ti l g v .stop rest → resultsIn s g = true → (g.status ≠ 0 ∨ g.auto = false) → Runs (.endSequenceDone ti) s fun t =>
        GangEnded s t l g ∧ SameBytes s t ∧ (∀ u ∈ g.tiles, NotPending s [fieldKey (tileB u) R.TIL_SEQ_STAT_STATE 0] → seqState t u = 1) ∧
        (g.status ≠ 0 → g.started = true → ∀ i ∈ g.sites, flag t (siteB i) R.GLB_SITE_STAT_INCOMPL = true))) ∧
    (gangOf s ti = some (l, g) → g.waiting = true → remapsPending s g = false → l = g.tiles.headD 0 → g.tiles.Nodup → (∀ i ∈ g.sites, i < 256) →
      let again := retestSites s g
      Runs (.retestArm ti) s fun t => SameBytes s t ∧
        (again = [] → GangEnded s t l g) ∧
        (again ≠ [] → (∃ h, GangTo s t l h ∧ h.tiles = g.tiles ∧ h.job = g.job ∧ h.auto = g.auto ∧ h.sites = again ∧ h.waiting = false ∧
            ∀ i ∈ again, i ∈ h.retested) ∧
          (∀ u ∈ g.tiles, seqState t u = 2) ∧
          ∀ i ∈ again, ∀ k, (getSite s i).ckpt = some k → k.fail < 2 → k.fcnt < 2 ^ 32 → flag t (siteB i) R.GLB_SITE_STAT_SUSPECT = false ∧
            flag t (siteB i) R.GLB_SITE_STAT_RETESTED = true ∧ rd t (siteB i) R.GLB_SITE_FCNT_FCNT = k.fcnt ∧
            rd t (siteB i) R.GLB_SITE_STAT_FAIL = k.fail))

/-- R22, R37, R38, R124 to R128, R131 to R133, R187, R498: a vector's samples, tagged with the low 16 bits of its number, are judged position by position,
an unsettled or switched-off comparator's as X; each site that fails counts the vector once, the first one in vector order gives vector and address, and
entries of the sites with a ledger join the tile's queue in vector order; the merge unit moves the first entry of its sector, in vector and then tile
order and with no earlier result owed, to the site's journal, folding a full one; an accepted
`GLB_SITE_LCFG` write clears the site and allocates in every pool or in none; a pool register takes its value. -/
def Obligations.FailUnit : Prop :=
  (∀ (s : State) (ti : TileIx) (tag l : Nat) (g : Gang) (a : Await) (samples : List (List (Trit × Trit))),
    gangOf s ti = some (l, g) → (getTile s ti).await.find? (fun w => w.vec % 2 ^ 16 == tag) = some a → a.measuring = [] → a.vec < 2 ^ 64 →
    (∀ e ∈ a.judge, sampleCount (owesMode e.2.1 e.2.2) (samples.getD e.1 []).length = true) →
    let x := getTile s ti
    let unsettled := fun k => k ∈ a.xs ∨ ((∃ e ∈ a.strobes, e.1 = k) ∧ ¬(cmpMode s ti (sliceOf s ti k) = 1 ∧
      flag s (sliceB ti (sliceOf s ti k)) R.CHN_STAT_CMP_RDY = true))
    let fails := failing a (seenSamples s ti a samples)
    let hit := fun i => fails.any fun k => siteAt s ti k == some i
    let b := tileB ti
    let first := fun i => flag s (siteB i) R.GLB_SITE_STAT_FAIL = false ∨ ((∃ k, (getSite s i).ckpt = some k ∧ k.fail = 0) ∧ a.vec < siteFvec s i)
    Runs (.compareResult ti tag samples) s fun t =>
      (∀ k, k ∈ fails ↔ k < 16 ∧ (k ∈ a.forced ∨ ∃ e ∈ a.judge, e.1 = k ∧ e.2.1 ≠ 0 ∧ e.2.2 ≠ 0 ∧
        ((unsettled k ∧ samples.getD k [] ≠ []) ∨ (¬unsettled k ∧ ∃ y ∈ samples.getD k [], samplePass e.2.1 y.1 y.2 = false)))) ∧
      (∀ i, i < 256 → hit i = false → rd t (siteB i) R.GLB_SITE_FCNT_FCNT = rd s (siteB i) R.GLB_SITE_FCNT_FCNT ∧
        flag t (siteB i) R.GLB_SITE_STAT_FAIL = flag s (siteB i) R.GLB_SITE_STAT_FAIL) ∧
      (∀ i, i < 256 → hit i = true → (∀ e ∈ g.counted, ¬(e.1 = a.vec ∧ e.2.1 = i)) →
        Counted s t (siteB i) R.GLB_SITE_FCNT_FCNT ∧ flag t (siteB i) R.GLB_SITE_STAT_FAIL = true ∧ flag t (siteB i) R.GLB_SITE_STAT_PFAIL = true ∧
        (first i → siteFvec t i = a.vec ∧
          rd64 t (siteB i) R.GLB_SITE_FADDR_LO_FADDR R.GLB_SITE_FADDR_HI_FADDR = a.px % 2 ^ 24 + a.py % 2 ^ 24 * 2 ^ 24) ∧
        (¬first i → siteFvec t i = siteFvec s i)) ∧
      (∀ i, i < 256 → hit i = true → (∃ e ∈ g.counted, e.1 = a.vec ∧ e.2.1 = i) →
        rd t (siteB i) R.GLB_SITE_FCNT_FCNT = rd s (siteB i) R.GLB_SITE_FCNT_FCNT) ∧
      (x.failQ.length + 256 ≤ 4096 → (getTile t ti).failQ = x.failQ.takeWhile (fun e => decide (e.vec ≤ a.vec)) ++
        ((allSites.filter hit).filterMap fun i =>
          let m := (ledgerMask s ti i a.px a.py fails).1
          if siteForm s i = 0 ∨ m = 0 ∨ capReached s i (sectorOf ti) = true then none
          else some ⟨a.vec, i, a.py * 2 ^ rd s (siteB i) R.GLB_SITE_LCFG_XW + a.px, m⟩) ++ x.failQ.dropWhile fun e => decide (e.vec ≤ a.vec)) ∧
      (getTile t ti).await = x.await.filter (·.vec != a.vec) ∧
      (∀ k, k < 16 → chanEnabled s ti k = true → cmpMode s ti (sliceOf s ti k) = 1 →
        ((unsettled k ∧ samples.getD k [] ≠ []) ∨ ∃ y ∈ samples.getD k [], y.1 = .x ∨ y.2 = .x) →
        flag t (sliceB ti (sliceOf s ti k)) R.CHN_STAT_UNSETTLED = true) ∧
      (∀ k, k ≠ fieldKey b R.TIL_FAIL_QOCC_OCC 0 → b * 32 ≤ k → k < (b + 0x4000) * 32 → x.failQ.length + 256 ≤ 4096 → mapGet? t.regs k = mapGet? s.regs k) ∧
      t = { s with regs := t.regs, tiles := t.tiles, gangs := t.gangs, tellers := t.tellers, roleEvts := t.roleEvts, items := t.items
                   flt := t.flt }) ∧
  (∀ (s : State) (q : SectorIx) (u : Nat) (e : FailEntry) (rest : List FailEntry), u ∈ tilesOfSector q → (getTile s u).failQ = e :: rest →
    (∀ v ∈ tilesOfSector q, ∀ f r, (getTile s v).failQ = f :: r → e.vec < f.vec ∨ (e.vec = f.vec ∧ u ≤ v)) →
    (∀ l g, gangOf s u = some (l, g) → ∀ v ∈ g.tiles, v / 12 = q.val → ∀ a ∈ (getTile s v).await, e.vec < a.vec ∨ (a.vec = e.vec ∧ u ≤ v)) →
    (getSite s e.site).parts.length = 4 → e.site < 256 →
    let p := partOf (getSite s e.site) q
    let full := 65536 < (failList (rd s (siteB e.site) R.GLB_SITE_LCFG_IOW + 1) (p.journal ++ [(e.l, e.mask)])).length
    Runs (.journalWrite q) s fun t =>
      (getTile t u).failQ = rest ∧ rd t (tileB u) R.TIL_FAIL_QOCC_OCC = rest.length % 2 ^ R.TIL_FAIL_QOCC_OCC.width ∧
      (∀ v, v ≠ u → getTile t v = getTile s v) ∧ (∀ i, i ≠ e.site → getSite t i = getSite s i) ∧ SameBytes s t ∧
      (siteForm s e.site = 0 ∨ capReached s e.site q = true → getSite t e.site = getSite s e.site ∧ RegsBut s t [fieldKey (tileB u) R.TIL_FAIL_QOCC_OCC 0]) ∧
      (siteForm s e.site ≠ 0 → capReached s e.site q = false →
        (partOf (getSite t e.site) q).count = p.count + 1 ∧
        (¬full → (partOf (getSite t e.site) q).journal = p.journal ++ [(e.l, e.mask)]) ∧
        (full → (partOf (getSite t e.site) q).journal = [(e.l, e.mask)] ∧ flag t (siteB e.site) R.GLB_SITE_STAT_NORETEST = true) ∧
        ((getSite s e.site).cap ≤ p.count + 1 → flag t (siteB e.site) R.GLB_SITE_STAT_CAPPED = true))) ∧
  (∀ (s : State) (i : SiteIx) (v : Word), HostOpen s →
    let b := siteB i
    let form := v.toNat % 4
    let xw := min 24 (v.toNat / 4 % 32)
    let yw := min 24 (v.toNat / 128 % 32)
    let iow := v.toNat / 4096 % 64
    let want := ledgerPages form xw yw (iow + 1) (rd s b R.GLB_SITE_CAP_CAP)
    let room := want = 0 ∨ (flag s glb R.HAT_HDM_STAT_BIPEND = false ∧ ∀ q, q < 4 → want ≤ poolRoom s i q)
    (siteActive s i = false → Runs (.siteLcfgWrite i v) s fun t =>
      (∀ f ∈ siteFields, f ≠ R.GLB_SITE_STAT_NOROOM → rd t b f = 0) ∧
      rd t b R.GLB_SITE_LCFG_XW = xw ∧ rd t b R.GLB_SITE_LCFG_YW = yw ∧ rd t b R.GLB_SITE_LCFG_IOW = iow ∧
      (room → rd t b R.GLB_SITE_LCFG_FORM = form ∧ flag t b R.GLB_SITE_STAT_NOROOM = false ∧ (getSite t i).pages = want) ∧
      (¬room → rd t b R.GLB_SITE_LCFG_FORM = 0 ∧ flag t b R.GLB_SITE_STAT_NOROOM = true ∧ (getSite t i).pages = 0) ∧
      (getSite t i).parts = emptyParts ∧ (getSite t i).ckpt = none ∧ (getSite t i).repair = none ∧ (getSite t i).cap = rd s b R.GLB_SITE_CAP_CAP ∧
      (∀ q, q < 4 → rd t (secB q) R.SEC_LGR_USED_USED =
        (rd s (secB q) R.SEC_LGR_USED_USED - (getSite s i).pages + (getSite t i).pages) % 2 ^ 32) ∧
      (∀ n, n ≠ i.val → getSite t n = getSite s n) ∧
      (∀ k, siteAt s (k / 256) (k / 16 % 16) = some i.val → mapGet? t.param k = none) ∧
      (∀ k, siteAt s (k / 256) (k / 16 % 16) ≠ some i.val → mapGet? t.param k = mapGet? s.param k) ∧
      t = { s with regs := t.regs, sites := t.sites, param := t.param }) ∧
    (siteActive s i = true → Runs (.siteLcfgWrite i v) s fun t => t = { s with regs := t.regs } ∧ RegsBut s t [fieldKey b R.GLB_SITE_STAT_WR_IGN 0] ∧
      (form ≠ siteForm s i → flag t b R.GLB_SITE_STAT_WR_IGN = true))) ∧
  ∀ (s : State) (q : SectorIx) (r : Fin 3) (v : Word), HostOpen s →
    let key := fun f => fieldKey (secB q) f 0
    let same := fun (lo hi size : Field) => decide ((if r = 0 then v.toNat / 4096 * 4096 else v.toNat) =
      rd s (secB q) (if r = 0 then lo else if r = 1 then hi else size))
    ((∀ i, i < 256 → siteForm s i = 0) → Runs (.lgrPoolWrite q r v) s fun t =>
      PoolTakes s t q R.SEC_LGR_BASE_LO_BASE R.SEC_LGR_BASE_HI_BASE R.SEC_LGR_SIZE_SIZE r v.toNat ∧ t = { s with regs := t.regs, biAsked := t.biAsked } ∧
      RegsBut s t [key R.SEC_LGR_BASE_LO_BASE, key R.SEC_LGR_BASE_HI_BASE, key R.SEC_LGR_SIZE_SIZE, fieldKey glb R.HAT_HDM_STAT_BIPEND 0]) ∧
    ((∃ i, i < 256 ∧ siteForm s i ≠ 0) → Runs (.lgrPoolWrite q r v) s fun t =>
      PoolIgnores s t (same R.SEC_LGR_BASE_LO_BASE R.SEC_LGR_BASE_HI_BASE R.SEC_LGR_SIZE_SIZE)) ∧
    (digState s q = 0 → readSegsRuns s q = false → Runs (.acqPoolWrite q r v) s fun t =>
      PoolTakes s t q R.SEC_ACQ_BASE_LO_BASE R.SEC_ACQ_BASE_HI_BASE R.SEC_ACQ_SIZE_SIZE r v.toNat ∧ rd t (secB q) R.SEC_ACQ_USED_USED = 0 ∧
      (getDig t q).store = [] ∧ t = { s with regs := t.regs, biAsked := t.biAsked, digs := t.digs } ∧
      RegsBut s t [key R.SEC_ACQ_BASE_LO_BASE, key R.SEC_ACQ_BASE_HI_BASE, key R.SEC_ACQ_SIZE_SIZE, key R.SEC_ACQ_USED_USED,
        fieldKey glb R.HAT_HDM_STAT_BIPEND 0]) ∧
    (digState s q ≠ 0 → Runs (.acqPoolWrite q r v) s fun t =>
      PoolIgnores s t (same R.SEC_ACQ_BASE_LO_BASE R.SEC_ACQ_BASE_HI_BASE R.SEC_ACQ_SIZE_SIZE))

/-- R136 to R152: FAIL_UPLOAD ends with ST_FAIL_ARG without a ledger, a format or a sector, with ST_FAIL_BUSY while a gang holds the site, and otherwise
writes header and body as far as they fit and reports the bytes written and the count. ANALYZE_REPAIR makes every named die
wait, and each die gets its status, its numbers of spare rows and columns and its record; a die whose budget runs out before any
cause decides gets TIMEOUT. BIN writes each site's bin and one byte per site. While an upload or a
BIN runs, its sites are ACTIVE in what it reports (R129). -/
def Obligations.LedgerJobs : Prop :=
  (∀ (s : State) (j : Nat) (x : Job), JobStarts s j 0x40 x → Canonical s →
    let i := bits (arg x 0) 0 8
    let sect := bits (arg x 0) 8 4
    let fmt := bits (arg x 0) 12 2
    let body := bodyLen s i fmt (maskBits 4 sect)
    let out := (uploadHeader (siteJoin s j [i]) i fmt sect ++ bodyBytes s i fmt (maskBits 4 sect) (min body (arg x 2 - 32))).take (arg x 2)
    earlierSiteJob s j i = false →
    ((siteForm s i = 0 ∨ fmt = 0 ∨ sect = 0) → Runs (.failUpload j) s fun t => JobEnds t j 0x0120 0 0 0 ∧ SameBytes s t) ∧
    (siteForm s i ≠ 0 → fmt ≠ 0 → sect ≠ 0 →
      (siteInGang s i = true → Runs (.failUpload j) s fun t => JobEnds t j 0x0124 0 0 0 ∧ SameBytes s t) ∧
      (siteInGang s i = false → (∀ q ∈ maskBits 4 sect, ledgerBad s i q = false) → ∀ d, out ≠ [] → allDev s x (arg x 1) out.length = some d →
        Runs (.failUpload j) s fun t =>
          JobEnds t j (if arg x 2 < 32 + body then 0x0123 else if siteFlagged s i then 0x0020 else 0) out.length (uploadCount s i fmt (maskBits 4 sect)) 0 ∧
          StoresAt s.devMem t.devMem d out ∧ t.hostMem = s.hostMem ∧ t.regs = s.regs ∧
          (hasOutput s j = false → bit x.flags 0 = true → 32 + body ≤ arg x 2 → (getSite t i).parts = emptyParts) ∧
          (bit x.flags 0 = false → getSite t i = { getSite s i with jobs := (getSite t i).jobs }) ∧ (∀ n, n ≠ i → getSite t n = getSite s n) ∧
          t = { s with rings := t.rings, devMem := t.devMem, badLines := t.badLines, hbm := t.hbm, sites := t.sites }))) ∧
  (∀ (s : State) (j : Nat) (x : Job) (l : List Nat), JobStarts s j 0x41 x → jobBytes s x (arg x 0) (32 + 32 * (bits (arg x 1) 0 10 + 1)) = .ok l →
    let recs := regionsOf (bits (arg x 1) 0 10 + 1) (l.drop 32)
    let sites := maskBits 256 (leNat (l.take 32))
    let dies := sites.filter fun i => siteForm s i != 0
    sites.any (earlierSiteJob s j) = false → leNat (l.take 32) ≠ 0 → bits (arg x 1) 32 32 ≠ 0 → recs.any regionReserved = false →
    let bad := (recs.map regionOf).any (·.2) || anyMeet ((recs.map regionOf).map (·.1))
    (bad = true → Runs (.analyzeRepair j) s fun t => JobEnds t j 0x0121 0 0 0) ∧
    (bad = false → sites.any (siteInGang s) = false → dies ≠ [] → (∀ i ∈ dies, ∀ q, q < 4 → ledgerBad s i q = false) →
      Runs (.analyzeRepair j) s fun t =>
        (∀ i ∈ dies, rd t (siteB i) R.GLB_SITE_STAT_REPAIR = 4) ∧ (∀ i ∈ sites, j ∈ (getSite t i).jobs) ∧
        (∃ y, getJob? t j = some y ∧ y.phase = .running ∧ y.units = dies ∧ y.prior = dies) ∧ t.items = s.items ++ dies.map (fun i => (j, i)) ∧
        RegsBut s t (dies.map fun i => fieldKey (siteB i) R.GLB_SITE_STAT_REPAIR 0) ∧
        t = { s with regs := t.regs, sites := t.sites, rings := t.rings, items := t.items })) ∧
  (∀ (s : State) (j : Nat) (x : Job) (l : List Nat) (i : Nat) (rest : List Nat) (expired : Bool), jobReady s j 0x41 = some x → x.phase = .running →
    x.units = i :: rest → rest ≠ [] → i < 256 → (expired = true → arg x 4 = 0) →
    jobBytes s x (arg x 0) (32 + 32 * (bits (arg x 1) 0 10 + 1)) = .ok l →
    let regs := (regionsOf (bits (arg x 1) 0 10 + 1) (l.drop 32)).map fun r => (regionOf r).1
    let r := match dieCause s i (dieCells s i) regs with
      | some c => (2, c, [])
      | none => if expired then (3, 1, []) else match solveAll (dieCells s i) 0 regs with
        | some sol => (1, 0, sol)
        | none => (2, 1, [])
    let rows := (r.2.2.filter fun e => e.2.1 == 0).length
    Runs (if expired then .repairBudgetExpiry j else .analyzeRepair j) s fun t =>
      rd t (siteB i) R.GLB_SITE_STAT_REPAIR = r.1 ∧
      (∃ e, e ≤ bits (arg x 1) 32 32 ∧ (getSite t i).repair = some (rows, r.2.2.length - rows, dieRecord s i regs.length e r)) ∧
      (∃ y, getJob? t j = some y ∧ y.phase = .running ∧ y.units = rest) ∧ (∀ n, n ≠ i → getSite t n = getSite s n) ∧
      RegsBut s t [fieldKey (siteB i) R.GLB_SITE_STAT_REPAIR 0] ∧
      t = { s with regs := t.regs, sites := t.sites, rings := t.rings, items := t.items, fresh := t.fresh }) ∧
  ∀ (s : State) (j : Nat) (x : Job) (l : List Nat), JobStarts s j 0x42 x → Canonical s →
    let n := bits (arg x 1) 0 8 + 1
    jobBytes s x (arg x 0) (32 + 16 * n) = .ok l →
    let sites := maskBits 256 (leNat (l.take 32))
    let recs := limitsOf n (l.drop 32)
    sites.any (earlierSiteJob s j) = false → sites ≠ [] → recs.any limitReserved = false →
    ((∃ m ∈ recs.map limitOf, 5 < m.input ∨ m.hi < m.lo) → Runs (.bin j) s fun t => JobEnds t j 0x0122 0 0 0 ∧ SameBytes s t) ∧
    ((∀ m ∈ recs.map limitOf, m.input ≤ 5 ∧ m.lo ≤ m.hi) → sites.any (siteInGang s) = false → ∀ d, (∀ i ∈ sites, allDev s x (arg x 2 + i) 1 = some (d + i)) →
      Runs (.bin j) s fun t => JobEnds t j (if sites.any (siteFlagged s) then 0x0020 else 0) sites.length 0 0 ∧
        (∀ i ∈ sites, flag t (siteB i) R.GLB_SITE_STAT_BINV = true ∧ rd t (siteB i) R.GLB_SITE_STAT_BIN = siteBin (siteJoin s j sites) x (recs.map limitOf) i % 256 ∧
          memByte t.devMem (d + i) = BitVec.ofNat 8 (siteBin (siteJoin s j sites) x (recs.map limitOf) i)) ∧
        (∀ a, (∀ i ∈ sites, a ≠ d + i) → memByte t.devMem a = memByte s.devMem a) ∧
        RegsBut s t ([fieldKey glb R.GLB_PRB_CTL_EOT 0, fieldKey glb R.GLB_IO_STAT_EOT_OUT 0] ++
          sites.flatMap fun i => [fieldKey (siteB i) R.GLB_SITE_STAT_BINV 0, fieldKey (siteB i) R.GLB_SITE_STAT_BIN 0]) ∧
        (∀ i, getSite t i = { getSite s i with jobs := (getSite t i).jobs }) ∧
        t = { s with regs := t.regs, devMem := t.devMem, badLines := t.badLines, hbm := t.hbm, rings := t.rings, sites := t.sites })

/-- R93, R102, R284, R301: a LOAD_PATTERN of more than 48 entries is refused; one whose table and images are at hand ends with ST_SEQ_BUSY if a tile of it is busy, with the
status of the first fault of an image, or with the status of a reservation that does not fit; in each case no tile changes.
Otherwise every named tile takes its pattern and is LOADED, and the job reports the least margin and the tiles that lack it. -/
def Obligations.LoadPattern : Prop :=
  ∀ (s : State) (j : Nat) (x : Job) (tab : List Nat) (img : LoadEntry → List Nat), JobStarts s j 0x10 x →
    let n := bits (arg x 1) 0 6 + 1
    let es := loadEntries n tab
    (48 < n → Runs (.loadPattern j) s fun t => JobEnds t j 0x0101 0 0 0 ∧ t.tiles = s.tiles ∧ t.regs = s.regs ∧ SameBytes s t) ∧
    (n ≤ 48 → jobBytes s x (arg x 0) (16 * n) = .ok tab →
    (∀ e ∈ es, e.bad = false ∧ e.tile < 48 ∧ (e.host = true → 8 ≤ e.rate ∧ e.rate ≤ 64) ∧ jobBytes s x e.va e.len = .ok (img e)) →
    let fails := fun (st : Nat) => Runs (.loadPattern j) s fun t =>
      JobEnds t j st 0 0 0 ∧ t.tiles = s.tiles ∧ t.regs = s.regs ∧ SameBytes s t
    let busy := es.any fun e => tileBusy s e.tile
    let fault := es.findSome? fun e => imageStatus (img e)
    let full := (List.range 4).any fun q => areaShort s q (es.map fun e => (e, img e))
    (busy = true → fails 0x0313) ∧
    (busy = false → ∀ st, fault = some st → fails st) ∧
    (busy = false → fault = none → full = true → fails 0x0103) ∧
    (busy = false → fault = none → full = false → rateShort s es = true → fails 0x0207) ∧
    (busy = false → fault = none → full = false → rateShort s es = false → (es.map (·.tile)).Nodup →
      Runs (.loadPattern j) s fun t => SameBytes s t ∧
        (∀ e ∈ es, let b := tileB e.tile
          seqState t e.tile = 1 ∧ (getTile t e.tile).pat = some (patternOf s x e (img e)) ∧ (getTile t e.tile).delivered = 0 ∧
          flag t b R.TIL_SEQ_STAT_SC96 = imgSc96 (img e) ∧ rd t b R.TIL_SEQ_FILL_OCC = 0 ∧
          (∀ k, k < 16 → rdi t b R.TIL_SEQ_LCNT_COUNT k = leAt (img e) (imgTables (img e) + 0xA0 + 4 * k) 4 % 2 ^ R.TIL_SEQ_LCNT_COUNT.width) ∧
          (let m := patternMargin (patternOf s x e (img e)) (rd64 s b R.TIL_VCLK_FTW_LO_FTW R.TIL_VCLK_FTW_HI_FTW)
           rd t b R.TIL_SEQ_MARGIN_MARGIN = unsigned 32 m ∧ (m < rd s b R.TIL_SEQ_RFTH_TH → flag t b R.TIL_SEQ_STAT_MARGIN_LOW = true))) ∧
        (∀ u, (∀ e ∈ es, e.tile ≠ u) → getTile t u = getTile s u) ∧
        (∃ r0 r1, JobEnds t j (if es.any fun e => decide (signed 32 (rd t (tileB e.tile) R.TIL_SEQ_MARGIN_MARGIN) < rd t (tileB e.tile) R.TIL_SEQ_RFTH_TH)
          then 0x0010 else 0) r0 r1 0) ∧
        t = { s with regs := t.regs, tiles := t.tiles, rings := t.rings, tellers := t.tellers, roleEvts := t.roleEvts, items := t.items }))

/-- R70, R285: SET_PERIOD with no tile, or at the first check of an arm that fails, ends; else its change is pending in every tile, an earlier one's job
ends, and it goes on. R52, R54, R55, R147, R284, R285: PARAMETRIC, like CONTACT_CHECK, refuses a live tile or a busy slice, and then a mode that is none;
each channel then measures, or where it cannot start is VOID or left out, and with none started the job ends. -/
def Obligations.PeriodAndMeasureJobs : Prop :=
  (∀ (s : State) (j : Nat) (x : Job), JobStarts s j 0x12 x →
    let tiles := (List.range 48).filter (arg x 0).testBit
    let ftw := arg x 1 % 2 ^ 48
    let tc := argAt x 2
    (tiles = [] → Runs (.setPeriod j) s fun t => JobEnds t j 0x0101 0 0 0 ∧ t.tiles = s.tiles) ∧
    (tiles ≠ [] → ∀ st cause, armCheck s tiles ftw tc = some (st, cause) → Runs (.setPeriod j) s fun t => JobEnds t j st 0 0 0 ∧ t.tiles = s.tiles) ∧
    (tiles ≠ [] → armCheck s tiles ftw tc = none → (∀ c, (getTile s (tiles.headD 0)).pend = some c → c.job ≠ some j) → Runs (.setPeriod j) s fun t =>
      (∀ u ∈ tiles, getTile t u = { getTile s u with pend := some ⟨tiles, ftw, tc, some j⟩ } ∧ flag t (tileB u) R.TIL_VCLK_STAT_PEND = true ∧
        rd64 t (tileB u) R.TIL_VCLK_NFTW_LO_NFTW R.TIL_VCLK_NFTW_HI_NFTW = ftw ∧ lawOf t u = lawOf s u) ∧
      (∀ u, u ∉ tiles → getTile t u = getTile s u) ∧ (∃ y, getJob? t j = some y ∧ y.phase = .running) ∧ SameBytes s t ∧
      ∀ c i, (getTile s (tiles.headD 0)).pend = some c → c.job = some i → JobOpen s i → JobEnds t i 0x0300 0 0 0)) ∧
  (∀ (s : State) (j op : Nat) (x : Job) (mask : List Nat), JobStarts s j op x → jobBytes s x (arg x 0) 96 = .ok mask →
    let chans := (List.range 768).filter fun c => (mask.getD (c / 8) 0).testBit (c % 8)
    let mode := arg x 1 % 4
    let slice := fun c => sliceB (c / 16) (sliceOf s (c / 16) (c % 16))
    let busy := ∃ c ∈ chans, tileLive s (c / 16) = true ∨ flag s (slice c) R.CHN_PMU_STAT_BUSY = true
    let apart := (∀ c ∈ chans, sliceOf s (c / 16) (c % 16) < 18) ∧ ∀ c ∈ chans, ∀ d ∈ chans, slice c = slice d → c = d
    let pmu := fun (t : State) c => (getSlice t (c / 16) (sliceOf s (c / 16) (c % 16))).pmu
    (op = 0x20 → (mode = 0 ∨ mode = 3) → ¬busy → Runs (.parametric j) s fun t => JobEnds t j 0x0101 0 0 0 ∧ t.regs = s.regs) ∧
    (op = 0x20 → busy → Runs (.parametric j) s fun t => JobEnds t j 0x0301 0 0 0 ∧ t.regs = s.regs) ∧
    (op = 0x20 → (mode = 1 ∨ mode = 2) → ¬busy → apart →
      let able := fun c => !flag s (slice c) R.CHN_STAT_DRIVE_LOCK && !flag s (slice c) R.CHN_STAT_SAFE
      Runs (.parametric j) s fun t =>
        (∀ c ∈ chans, rd t (slice c) R.CHN_PMU_CTL_MODE = mode ∧ rd t (slice c) R.CHN_PMU_CNT_N = arg x 1 / 2 ^ 20 % 2 ^ 16 ∧
          (able c = true → flag t (slice c) R.CHN_PMU_STAT_BUSY = true ∧ flag t (slice c) R.CHN_PMU_CTL_CONNECT = true ∧ pmu t c = .measuring (some j)) ∧
          (able c = false → flag t (slice c) R.CHN_PMU_STAT_BUSY = false ∧ mapGet? t.param (c * 16 + arg x 1 / 2 ^ 36 % 2 ^ 4) = some .void)) ∧
        ((∃ c ∈ chans, able c = true) → ∃ y, getJob? t j = some y ∧ y.phase = .running ∧ y.units = chans.filter able ∧
          y.tally = [0, 0, (chans.filter fun c => !able c).length]) ∧
        ((∀ c ∈ chans, able c = false) → arg x 3 = 0 → JobEnds t j (if chans = [] then 0 else 1) 0 0 chans.length)) ∧
    (op = 0x21 → busy → Runs (.contactCheck j) s fun t => JobEnds t j 0x0301 0 0 0 ∧ t.regs = s.regs) ∧
    (op = 0x21 → ¬busy → apart →
      let able := fun c => !(flag s (slice c) R.CHN_STAT_SAFE && anyCause s (c / 16) (sliceOf s (c / 16) (c % 16)))
      Runs (.contactCheck j) s fun t =>
        (∀ c ∈ chans, (able c = true → flag t (slice c) R.CHN_PMU_STAT_BUSY = true ∧ flag t (slice c) R.CHN_PMU_CTL_CONNECT = true ∧
            rd t (slice c) R.CHN_PMU_FORCE_CODE = 0xC000 ∧ ∃ l, pmu t c = .contact l (some j)) ∧
          (able c = false → flag t (slice c) R.CHN_PMU_STAT_BUSY = false ∧ flag t (slice c) R.CHN_PMU_STAT_ABORTED = true)) ∧
        ((∃ c ∈ chans, able c = true) → ∃ y, getJob? t j = some y ∧ y.phase = .running ∧ y.units = chans.filter able ∧ y.tally = [0, 0, 0]) ∧
        ((∀ c ∈ chans, able c = false) → arg x 1 = 0 → JobEnds t j 0 0 0 0)))

/-- R163 to R170, R181: each trigger source, where `DIG_TRIG_EN` and its selection watch it, brings its instant to its digitizer, which
judges it, or the meeting of two in one stored sample: a crossing of the level or window with its hysteresis, and an edge of the selected comparator
source, else nothing; the analog and comparator triggers and the TRIG_IN edges theirs, the software trigger and the auto timer the stored
sample at or before now or the deadline, a held BCAST trigger the earliest instant held. A rising TRIG_IN edge asks each
leader that names it for its jump (R116). -/
def Obligations.Triggers : Prop :=
  (∀ (s : State) (q : SectorIx) (tau : Nat),
   let at_ := { s with now := max s.now tau }
   (∀ v0 v1 : Int,
     let line := rd s (secB q) R.DIG_TRIG_LVL_LINE
     let on := flag s (secB q) R.DIG_TRIG_EN_ANALOG = true ∧ rdi s (secB q) R.SEC_TAP_EN line = 1 ∧
       LineCrosses s q (sampleCode s q line v0) (sampleCode s q line v1)
     (on → Runs (.analogTrigger q ⟨tau, v0, v1⟩) s fun t => TriggerJudged at_ t q (rd s (secB q) R.DIG_TRIG_LVL_COND) tau ∧ DigOnly s t q ∧ tau ≤ t.now) ∧
     (¬on → Runs (.analogTrigger q ⟨tau, v0, v1⟩) s fun t => t = s)) ∧
   ∀ hi0 lo0 hi1 lo1 : Trit,
    let c := 192 * q.val + rd s (secB q) R.DIG_TRIG_SRC_CCH
    let p := sliceOf s (c / 16) (c % 16)
    let on := flag s (secB q) R.DIG_TRIG_EN_CMP = true ∧
      (cmpMode s (c / 16) p = 2 ∨ (cmpMode s (c / 16) p = 1 ∧ flag s (sliceB (c / 16) p) R.CHN_STAT_CMP_RDY = true)) ∧
      cmpEdge s (c / 16) p (cmpSource s (c / 16) p hi0 lo0) (cmpSource s (c / 16) p hi1 lo1) = true
    (on → Runs (.cmpTrigger q ⟨tau, hi0, lo0, hi1, lo1⟩) s fun t => TriggerJudged at_ t q 2 tau ∧ DigOnly s t q ∧ tau ≤ t.now) ∧
    (¬on → Runs (.cmpTrigger q ⟨tau, hi0, lo0, hi1, lo1⟩) s fun t => t = s)) ∧
  (∀ (s : State) (q : SectorIx), HostOpen s → Runs (.softTrigger q) s fun t =>
    TriggerJudged s t q 9 (s.now / digTout s q * digTout s q) ∧ DigOnly s t q ∧ t.now = s.now) ∧
  (∀ (s : State) (q : SectorIx) (dl : Nat), (getDig s q).autoAt = some dl → Runs (.autoTrigger q) s fun t =>
    TriggerJudged { updDig s q (fun d => { d with autoAt := none }) with now := max s.now dl } t q 0xA (dl / digTout s q * digTout s q) ∧ DigOnly s t q ∧ dl ≤ t.now) ∧
  (∀ (s : State) (q : SectorIx) (tau : Nat), tau ∈ (getDig s q).bcast → (∀ x ∈ (getDig s q).bcast, tau ≤ x) →
    Runs (.bcastTriggerDue q) s fun t =>
      TriggerJudged { updDig s q (fun d => { d with bcast := d.bcast.erase tau }) with now := max s.now tau } t q 4 tau ∧ DigOnly s t q ∧ tau ≤ t.now) ∧
  ∀ (s : State) (i : Fin 4) (rise : Bool) (tau : Nat), s.boot.por = false → powerReady s = true → sealed s = false →
    Runs (.trigInEdge i rise tau) s fun t => t.now = s.now ∧ SameBytes s t ∧
      (∀ q, q < 4 → (rd s (secB q) R.DIG_TRIG_EN_TIN).testBit i = true → (rd s (secB q) R.DIG_TRIG_SRC_TINPOL).testBit i ≠ rise →
        TriggerJudged s t q (5 + i.val) tau) ∧
      (∀ q, q < 4 → ((rd s (secB q) R.DIG_TRIG_EN_TIN).testBit i = false ∨ (rd s (secB q) R.DIG_TRIG_SRC_TINPOL).testBit i = rise) →
        getDig t q = getDig s q) ∧
      (rise = false → t.gangs = s.gangs) ∧
      (rise = true → mapRising 0 s.gangs = true → ∀ l g, getGang? s l = some g → gangLive s g = true → gangOf s l = some (l, g) →
        rdi s (tileB l) R.TIL_SEQ_JTRIG_EN i = 1 → JumpTarget s g (rdi s (tileB l) R.TIL_SEQ_JTRIG_TARGET i) →
        ∃ r, getGang? t l = some { g with jumps := g.jumps ++ [r] } ∧ r.target = rdi s (tileB l) R.TIL_SEQ_JTRIG_TARGET i ∧ r.rank = 1 + i.val)

/-- R157, R162, R167 to R169, R173, R174, R180, R181, R184, R190, R395: SETTLING ends in FILLING at the first sample settled; FILLING ends in WAITING with PRE filled and
the holdoff over; the last post-trigger sample stores the segment, with the samples taken as its body, and counts it, or adds an
acquisition; 32 ns later the capture is complete, or FILLING begins again; a stop closes an open segment, unless its
trigger falls in the same stored sample and is as if it had not come, and ends the capture; the PLL of a stopped digitizer that owes nothing stops. -/
def Obligations.CaptureStates : Prop :=
  ∀ (s : State) (q : SectorIx),
    let b := secB q
    let d := getDig s q
    let only := fun (t : State) => t = { s with now := t.now, regs := t.regs, digs := t.digs, tellers := t.tellers, roleEvts := t.roleEvts, items := t.items }
    let ends := fun (t : State) (st cause : Nat) => ∀ j, d.job = some j → d.spillQ = [] → JobOpen s j → st / 256 ≠ 2 →
      ∃ r0, JobEnds t j (if st = 0 ∧ d.flagged = true then 0x0030 else st) r0 (min d.missed 0xFFFFFFFF + min d.early 0xFFFFFFFF * 2 ^ 32) cause
    (digState s q = 1 → Runs (.tapSettled q) s fun t => only t ∧ digState t q = 2 ∧ (getDig t q).fillJ = firstFull s q s.now ∧
      (getDig t q).preFull = false ∧ (getDig t q).open_ = d.open_) ∧
    (digState s q = 2 → d.preFull = false → Runs (.preFilled q) s fun t => only t ∧ (getDig t q).preFull = true ∧
      digState t q = (if d.holdOn then 2 else 3) ∧
      (d.holdOn = false → flag s b R.DIG_CFG_POLICY = false → flag s b R.DIG_AUTO_EN = true →
        (getDig t q).autoAt = some (t.now + usec (rd s b R.DIG_AUTO_TO))) ∧
      t.now = max s.now ((d.fillJ + rd s b R.DIG_PRE_PRE - 1) * digTout s q)) ∧
    (d.holdOn = true → Runs (.holdoffEnd q) s fun t => only t ∧ (getDig t q).holdOn = false ∧ s.now ≤ t.now ∧ d.holdEnd ≤ t.now ∧
      (digState s q = 2 → digState t q = if d.preFull then 3 else 2) ∧ (digState s q ≠ 2 → digState t q = digState s q)) ∧
    (∀ (volts : List (List Int)) (g : DigSeg), d.open_ = some g → digState s q = 4 → volts.length = digInputs s q →
      let n := g.pre + digPost s q
      let raw := rawCodes s q volts
      (∀ l ∈ volts, l.length = rawNeed s q n) →
      Runs (.captureDone q volts) s fun t => digState t q = 5 ∧ s.now ≤ t.now ∧ d.endAt.getD 0 ≤ t.now ∧ SameBytes s t ∧
        (digAcc s q ≠ 0 → g.accs < rd s b R.DIG_ACC_N → (getDig t q).store = d.store ∧
          ∃ h, (getDig t q).open_ = some h ∧ h.seq = g.seq ∧ h.accs = g.accs + 1) ∧
        ((digAcc s q = 0 ∨ rd s b R.DIG_ACC_N ≤ g.accs) → (getDig t q).open_ = none ∧ (getDig t q).nextSeq = (g.seq + 1) % 2 ^ 32 ∧
          Counted s t b R.DIG_SEGDONE_SEGDONE ∧
          ∃ e ∈ (getDig t q).store, e.seq = g.seq ∧ leNat (e.hdr.take 2) = 0x5C72 ∧ e.hdr.length = 64 ∧
            (digAcc s q = 0 → digMode s q = 0 → flag s b R.DIG_FILT_CODE = false → digSpill s q = false →
              e.body = plainBytes 2 (raw.map fun l => (List.range n).map fun i => [l.getD (i * digN s q) 0])))) ∧
    (digState s q = 5 → NotPending s [fieldKey b R.DIG_STAT_STATE 0, fieldKey b R.DIG_STAT_CAUSE 0] → Runs (.rearmDone q) s fun t =>
      (digComplete s q = true → digState t q = 0 ∧ (getDig t q).open_ = none ∧
        rd t b R.DIG_STAT_CAUSE = (if d.maskStop then 3 else 1) ∧ ends t (if d.maskStop then 0x0031 else 0) (if d.maskStop then 3 else 1)) ∧
      (digComplete s q = false → only t ∧ digState t q = 2 ∧ (getDig t q).fillJ = d.endAt.getD 0 / digTout s q + 1 ∧
        d.endAt.getD 0 + nsec 32 ≤ t.now ∧ (getDig t q).preFull = false)) ∧
    (∀ volts, HostOpen s → digState s q ≠ 0 → NotPending s [fieldKey b R.DIG_STAT_STATE 0, fieldKey b R.DIG_STAT_CAUSE 0] →
      let undone := fun (u : DigUndo) => digState s q = 4 ∧ s.now / digTout s q = u.sample
      Runs (.digStop q volts) s fun t => digState t q = 0 ∧ rd t b R.DIG_STAT_CAUSE = 2 ∧ (getDig t q).open_ = none ∧ SameBytes s t ∧
        (∀ u, d.undo = some u → undone u → u.seg = none → (getDig t q).store = d.store) ∧
        ((∀ u, d.undo = some u → ¬undone u) → (∀ g, d.open_ = some g → ∃ e ∈ (getDig t q).store, e.seq = g.seq) ∧
          (d.open_ = none → (getDig t q).store = d.store ∧ ends t (if flag s b R.DIG_CFG_CAPMODE then 0 else 0x0434) 2))) ∧
    (digState s q = 0 → d.job = none → (∀ e ∈ s.rings.jobs, ∀ u ∈ e.2.units, ¬(6 ≤ u / 1024 ∧ u / 1024 ≤ 8 ∧ u % 1024 = q.val)) →
      Runs (.digPllStop q) s fun t => t = { s with digs := t.digs } ∧ getDig t q = { d with pllOn := false } ∧ ∀ r, r ≠ q.val → getDig t r = getDig s r)

/-- R175, R176, R182, R184, R196, R198: ARM_ACQ waits while the capture before it drains, ends with the first failing check, and nothing changes, or discards the capture set, shows the capacity and
goes to SETTLING; READ_SEGMENTS writes the whole segments that fit, in order from the first asked for; a spill record goes to
the ring, then the producer offset to its location, or without room the segment's records are dropped; while STOPPED a
coefficient write is stored at the index, which moves on, and a preset loads K and, when done, a symmetric set of sum 65,536. -/
def Obligations.AcquisitionJobs : Prop :=
  (∀ (s : State) (j : Nat) (x : Job), JobStarts s j 0x30 x →
    let q := arg x 0 % 4
    let n := min 4096 (bits (arg x 0) 48 13)
    flag s (secB q) R.DIG_BE_STAT_PLOAD = false →
    (digState s q ≠ 0 → Runs (.armAcq j) s fun t => JobEnds t j 0x0433 0 0 0 ∧ t.digs = s.digs ∧ t.regs = s.regs ∧ SameBytes s t) ∧
    (digState s q = 0 → (getDig s q).job.isSome = true → Runs (.armAcq j) s fun t => t.digs = s.digs ∧ t.regs = s.regs ∧ SameBytes s t) ∧
    ∀ l, digState s q = 0 → (getDig s q).job = none → jobBytes s x (arg x 2) (8 * n) = .ok l →
      (∀ st, armCheckAcq s q x (maskPoints n l) = some st → Runs (.armAcq j) s fun t =>
        JobEnds t j st 0 0 0 ∧ t.digs = s.digs ∧ t.regs = s.regs ∧ SameBytes s t) ∧
      (armCheckAcq s q x (maskPoints n l) = none → Runs (.armAcq j) s fun t =>
        digState t q = 1 ∧ rd t (secB q) R.DIG_STAT_CAUSE = rd s (secB q) R.DIG_STAT_CAUSE ∧ rd t (secB q) R.DIG_SEGDONE_SEGDONE = 0 ∧
        rd t (secB q) R.DIG_CAP_CAP = capacity (digW64 s q) (digInputs s q) (arg x 1) (bits (arg x 0) 8 17) % 2 ^ 32 ∧
        rd t (secB q) R.DIG_SPILL_PI_PI = 0 ∧ rd t (secB q) R.DIG_SPILL_CI_CI = 0 ∧
        (getDig t q).job = some j ∧ (getDig t q).store = [] ∧ (getDig t q).nextSeq = 0 ∧ (getDig t q).open_ = none ∧ (getDig t q).pllOn = true ∧
        (getDig t q).mask = maskPoints n l ∧ (getDig t q).nseg = bits (arg x 0) 8 17 ∧ (∀ r, r ≠ q → getDig t r = getDig s r) ∧
        getJob? t j = some { x with phase := .running } ∧
        t = { s with regs := t.regs, digs := t.digs, rings := t.rings, tellers := t.tellers, roleEvts := t.roleEvts, items := t.items })) ∧
  (∀ (s : State) (j : Nat) (x : Job), JobStarts s j 0x31 x → Canonical s →
    let store := (getDig s (arg x 0 % 4)).store
    let first := bits (arg x 0) 32 32
    let l := segsFrom store first (min (arg x 1 % 2 ^ 32) store.length)
    let outs := fitSegs (bit (arg x 0) 8) (arg x 3) l
    ((∀ e ∈ store, e.seq ≠ first) → Runs (.readSegments j) s fun t => JobEnds t j 0x0435 0 0 0 ∧ SameBytes s t) ∧
    ((∃ e ∈ store, e.seq = first) → ∀ d, outs.flatten ≠ [] → allDev s x (arg x 2) outs.flatten.length = some d → Runs (.readSegments j) s fun t =>
      JobEnds t j (if outs.length < l.length then 0x0436 else 0) outs.length outs.flatten.length 0 ∧ StoresAt s.devMem t.devMem d outs.flatten ∧
      t = { s with rings := t.rings, devMem := t.devMem, badLines := t.badLines, hbm := t.hbm })) ∧
  (∀ (s : State) (q : SectorIx) (j : Nat) (x : Job) (r : SpillRec) (rest : List SpillRec),
    let b := secB q
    let dg := getDig s q
    dg.job = some j → getJob? s j = some x → dg.spillQ = r :: rest → dg.ending = none →
    let at_ := rd s b R.DIG_SPILL_PI_PI
    let used := (at_ + 2 ^ 31 - rd s b R.DIG_SPILL_CI_CI) % 2 ^ 31
    at_ % 2 ^ dg.log2 + r.bytes.length ≤ 2 ^ dg.log2 →
    (2 ^ dg.log2 < used + r.bytes.length → Runs (.spillRecordWrite q) s fun t =>
      (getDig t q).spillQ = dg.spillQ.filter (·.seq != r.seq) ∧ flag t b R.DIG_STAT_SPILL_LOST = true ∧ SameBytes s t ∧
      t.flt.signals = s.flt.signals ++ [(0x0C * 1024 + q.val, 0)]) ∧
    (used + r.bytes.length ≤ 2 ^ dg.log2 → Canonical s → r.bytes ≠ [] → ∀ d p, allDev s x (dg.ring + at_ % 2 ^ dg.log2) r.bytes.length = some d →
      allDev s x dg.ploc 8 = some p → (p + 8 ≤ d ∨ d + r.bytes.length ≤ p) → Runs (.spillRecordWrite q) s fun t =>
        (getDig t q).spillQ = rest ∧ rd t b R.DIG_SPILL_PI_PI = (at_ + r.bytes.length) % 2 ^ 31 ∧ RegsBut s t [fieldKey b R.DIG_SPILL_PI_PI 0] ∧
        (∀ a, memByte t.devMem a = if d ≤ a ∧ a < d + r.bytes.length then BitVec.ofNat 8 (r.bytes.getD (a - d) 0)
          else if p ≤ a ∧ a < p + 8 then BitVec.ofNat 8 ((at_ + r.bytes.length) % 2 ^ 31 / 256 ^ (a - p)) else memByte s.devMem a) ∧
        t = { s with regs := t.regs, digs := t.digs, devMem := t.devMem, badLines := t.badLines, hbm := t.hbm })) ∧
  ∀ (s : State) (q : SectorIx),
    let b := secB q
    (HostOpen s →
      (∀ v : Word, digState s q = 0 → let i := rd s b R.DIG_FIR_IDX_IDX
        Runs (.firCoefWrite q v) s fun t => firCode (getDig t q) (rd s b R.DIG_FIR_IDX_BANK) i = v.toNat % 2 ^ 18 ∧
          rd t b R.DIG_FIR_IDX_IDX = (i + 1) % 256 ∧ RegsBut s t [fieldKey b R.DIG_FIR_IDX_IDX 0] ∧
          (∀ k m, m ≠ i → firCode (getDig t q) k m = firCode (getDig s q) k m) ∧ t = { s with regs := t.regs, digs := t.digs }) ∧
      (∀ v : Word, digState s q ≠ 0 → firCode (getDig s q) (rd s b R.DIG_FIR_IDX_BANK) (rd s b R.DIG_FIR_IDX_IDX) ≠ v.toNat % 2 ^ 18 →
        Runs (.firCoefWrite q v) s fun t => t = { s with regs := t.regs } ∧ RegsBut s t [fieldKey b R.DIG_BE_STAT_WR_IGN 0] ∧ flag t b R.DIG_BE_STAT_WR_IGN = true) ∧
      (∀ (set_ : Fin 4) (bank : Bool), digState s q = 0 → set_ ≠ 0 → Runs (.firPreset q set_ bank) s fun t =>
        rd t b R.DIG_FILT_K = (if set_ = 1 then 1 else if set_ = 2 then 3 else 6) ∧ flag t b R.DIG_BE_STAT_PLOAD = true ∧
        getDig t q = { getDig s q with preset := (getDig s q).preset ++ [(set_.val, bank)] } ∧ RegsBut s t [fieldKey b R.DIG_FILT_K 0, fieldKey b R.DIG_BE_STAT_PLOAD 0] ∧
        t = { s with regs := t.regs, digs := t.digs }) ∧
      ∀ bank : Bool, Runs (.firPreset q 0 bank) s fun t => t = s) ∧
    ∀ set_ bank rest, (getDig s q).preset = (set_, bank) :: rest → Runs (.firPresetDone q) s fun t =>
      let h := fun i => signed 18 (firCode (getDig t q) (b2n bank) i)
      (∀ i, i < 256 → h i = h (255 - i)) ∧ ((List.range 256).map h).foldl (· + ·) 0 = 65536 ∧ (getDig t q).preset = rest ∧
      (∀ i, firCode (getDig t q) (1 - b2n bank) i = firCode (getDig s q) (1 - b2n bank) i) ∧
      flag t b R.DIG_BE_STAT_PLOAD = (rest != []) ∧ RegsBut s t [fieldKey b R.DIG_BE_STAT_PLOAD 0] ∧ t = { s with regs := t.regs, digs := t.digs }

/-- R7, R10 to R12, R215, R468, R473 to R478: a 4-byte write of a register without an operation of its own, by the host or by a teller's STR in its
local space, goes to each field under its access and class; at an offset that names no register it is recorded with cause
UNMAPPED, with some but not all bytes enabled with cause SIZE, and with no byte enabled it does nothing. -/
def Obligations.RegisterWrites : Prop :=
  (∀ (s : State) (off : Nat) (v : Word) (be : Nat) (blk : Blk), HostOpen s → be % 16 = 15 → PlainAt s blk (off / 4 * 4) →
    Runs (.registerWrite off v be) s fun t => FieldsTake s t blk (off / 4 * 4) v.toNat ∧ t = { s with regs := t.regs, shadow := t.shadow }) ∧
  (∀ (s : State) (off : Nat) (v : Word) (be : Nat), HostOpen s →
    let a := off / 4 * 4
    a < bar0Size → standardRange a = false →
      (be % 16 = 15 → a ≠ 4 → (∀ blk, blkOf a = some blk → regFields blk a = []) →
        Runs (.registerWrite off v be) s fun t => AccessRecorded s t 1 true a) ∧
      (be % 16 ≠ 15 → be % 16 ≠ 0 → Runs (.registerWrite off v be) s fun t => AccessRecorded s t 2 true a) ∧
      (be % 16 = 0 → Runs (.registerWrite off v be) s fun t => t = s)) ∧
  (∀ (s : State) (n : TellerIx) (blk : Blk), HostOpen s → PartReady s n 4 → mwMem (telWord s n) / 16 = 8 →
    let a := (localB s n + localAddr (telWord s n) (opA s n)) / 4 * 4
    PlainAt s blk a → Runs (.memStr n) s fun t => FieldsTake s t blk a (opB s n % 2 ^ 32) ∧ TellersBut s t [n] ∧
      (∀ k, telReg (getTel t n) k = telReg (getTel s n) k) ∧ 4 ∈ (getTel t n).done ∧
      t = { s with regs := t.regs, shadow := t.shadow, tellers := t.tellers })

/-- R4, R7, R215, R336: a read returns the register's word, or the latched upper half, clears RC fields, and latches the upper half of a
pair it reads the lower of, which 1 us later is released; a read of `TIM_NOW0` returns the fraction of ring time and latches
nanoseconds and seconds; a teller's LDR puts the word on its way, latches and releases the same, and clears nothing. -/
def Obligations.RegisterReads : Prop :=
  (∀ (s : State) (off be : Nat) (blk : Blk),
    let a := off / 4 * 4
    barClosed s = false → sealed s = false → s.laneDown = [] → be % 16 ≠ 0 → a < bar0Size → standardRange a = false → blkOf a = some blk →
    Runs (.registerRead off be) s fun t =>
      (mapGet? s.latch a = none → t.resp = [enabled (regWord s blk a) be] ∧ ∀ u ∈ uppers blk a, mapGet? t.latch u = some (regWord s blk u)) ∧
      (∀ v, mapGet? s.latch a = some v → t.resp = [enabled v be] ∧ mapGet? t.latch a = none) ∧
      (∀ x ∈ regFields blk a, x.1.acc = .rc → rdi t (blkBase blk) x.1 x.2 = 0) ∧
      (∀ k, (∀ x ∈ regFields blk a, x.1.acc = .rc → k ≠ fieldAt blk x) → mapGet? t.regs k = mapGet? s.regs k) ∧
      t = { s with regs := t.regs, latch := t.latch, resp := t.resp }) ∧
  (∀ s : State, barClosed s = false → sealed s = false → mapGet? s.latch 0x300014 = none →
    NotPending s ([R.TIM_NOW0_FRAC, R.TIM_NOW1_NS, R.TIM_NOW2_SECL, R.TIM_NOW3_SECH].map fun f => fieldKey glb f 0) →
    Runs .timeRead s fun t => t.resp = [s.now % 65536] ∧ mapGet? t.latch 0x300018 = some (s.now / 65536 % 1000000000) ∧
      mapGet? t.latch 0x30001C = some (s.now / 65536 / 1000000000 % 2 ^ 32) ∧
      mapGet? t.latch 0x300020 = some (s.now / 65536 / 1000000000 / 2 ^ 32 % 2 ^ 16) ∧ t = { s with latch := t.latch, resp := t.resp }) ∧
  (∀ (s : State) (off : Nat), Runs (.upperLatchTimeout off) s fun t => mapGet? t.latch (off / 4 * 4) = none ∧
    (∀ k, k ≠ off / 4 * 4 → mapGet? t.latch k = mapGet? s.latch k) ∧ t = { s with latch := t.latch }) ∧
  ∀ (s : State) (n : TellerIx) (blk : Blk), PartReady s n 4 → mwMem (telWord s n) / 16 = 7 →
    let a := (localB s n + localAddr (telWord s n) (opA s n)) / 4 * 4
    sealed s = false → s.laneDown = [] → a < bar0Size → standardRange a = false → blkOf a = some blk →
    Runs (.memLdr n) s fun t => t = { s with tellers := t.tellers, latch := t.latch } ∧ TellersBut s t [n] ∧ 4 ∈ (getTel t n).done ∧
      getTel t n = { onTheWay (getTel s n) (mwMem (telWord s n) % 8) ((mapGet? s.latch a).getD (regWord s blk a)) with
        mw := (getTel t n).mw, done := (getTel t n).done, hold := (getTel t n).hold } ∧
      (mapGet? s.latch a = none → ∀ u ∈ uppers blk a, mapGet? t.latch u = some (regWord s blk u)) ∧
      (∀ v, mapGet? s.latch a = some v → mapGet? t.latch a = none)

/-- R231 to R234: an assignment applies at least 1 us after the last one: the teller, abandoning a routine before COMMIT, holds the
role, its epoch is one higher, and messages of another epoch leave its inbox. ASSIGN_ROLE ends with the first check that fails, or queues
its role at every teller it names and waits. LOAD_IMAGE ends with the first check that fails, or writes the image to its slot in
every sector, shows it, and loads and readies every named teller. -/
def Obligations.RolesAndImages : Prop :=
  (∀ (s : State) (n : TellerIx) (r : Nat) (job : Option Nat) (rest : List (Nat × Option Nat)), (getTel s n).assign = (r, job) :: rest →
    ¬(telState s n = 3 ∧ flag s (telB n) R.TIL_TEL_STAT_POSTC = true) → (∀ m, m < 192 → TelSettled s m) →
    Runs (.roleAssignmentApply n) s fun t => telRole t n = r % 8 ∧ telEpoch t n = (telEpoch s n + 1) % 2 ^ 16 ∧
      (getTel t n).assign = rest ∧ (getTel t n).lastAssign = some t.now ∧ s.now ≤ t.now ∧
      (∀ a, (getTel s n).lastAssign = some a → a + usec 1 ≤ t.now) ∧
      (getTel t n).inbox = (getTel s n).inbox.filter (fun m => msgEpoch m == telEpoch t n) ∧
      (telState s n = 3 → Counted s t (telB n) R.TIL_TEL_RESTART_RESTART ∧ telState t n = 2) ∧
      (getTel t n).g = (getTel s n).g ∧ (getTel t n).scratch = (getTel s n).scratch ∧ SameBytes s t ∧
      ∀ m, m < 192 → m ≠ n.val → telRole t m = telRole s m ∧ telEpoch t m = telEpoch s m) ∧
  (∀ (s : State) (j : Nat) (x : Job) (l : List Nat), JobStarts s j 0x02 x →
    let count := bits (arg x 1) 0 8
    let word := fun (i : Nat) => l.getD (2 * i) 0 + 256 * l.getD (2 * i + 1) 0
    let list := (List.range count).map fun i => (bits (word i) 0 8, bits (word i) 8 3)
    let pairs := (if bit x.flags 0 then allTellers.map fun n => (n, defaultRole n) else []) ++ list
    count ≤ 192 → jobBytes s x (arg x 0) (2 * count) = .ok l → (∀ i, i < count → bits (word i) 11 5 = 0) →
    (∀ st, assignCheck s (bit x.flags 0) list pairs = some st → Runs (.assignRole j) s fun t => JobEnds t j st 0 0 0 ∧ t.tellers = s.tellers ∧ SameBytes s t) ∧
    (assignCheck s (bit x.flags 0) list pairs = none → Runs (.assignRole j) s fun t =>
      (∀ n, n < 192 → ∀ p, (pairs.filter fun p => p.1 == n).getLast? = some p →
        getTel t n = { getTel s n with assign := (getTel s n).assign ++ [(p.2, some j)] }) ∧
      (∀ n, (∀ p ∈ pairs, p.1 ≠ n) → getTel t n = getTel s n) ∧
      (∃ y, getJob? t j = some y ∧ y.phase = .running) ∧ t = { s with tellers := t.tellers, rings := t.rings })) ∧
  ∀ (s : State) (j : Nat) (x : Job) (l : List Nat), JobStarts s j 0x01 x → Canonical s →
    let len := bits (arg x 1) 0 32
    let slot := bits (arg x 1) 32 3
    let tellers := arg x 2 + arg x 3 * 2 ^ 64 + arg x 4 * 2 ^ 128
    let hold := holdingAt (holdingSector s)
    tellers ≠ 0 → len ≤ 262144 → jobBytes s x (arg x 0) len = .ok l →
    (∀ st, loadCheck s slot tellers len l = some st → Runs (.loadImage j) s fun t =>
      JobEnds t j st 0 0 0 ∧ StoresAt s.devMem t.devMem hold l ∧ t.tellers = s.tellers ∧ t.regs = s.regs) ∧
    (loadCheck s slot tellers len l = none → Runs (.loadImage j) s fun t => JobEnds t j 0 (maskBits 192 tellers).length 0 slot ∧
      rdi t glb R.GLB_IMGSTAT_VALID slot = 1 ∧ rdi t glb R.GLB_IMGSTAT_KEY slot = imgKey l ∧ rdi t glb R.GLB_IMGSTAT_BUILD slot = imgLe l 32 2 % 2 ^ 16 ∧
      (∀ n, n < 192 → tellers.testBit n = true → telState t n = 2 ∧ rd t (telB n) R.TIL_TEL_STAT_SLOT = slot ∧ (getTel t n).store = imgStore l ∧
        (getTel t n).entries = imgEntries l ∧ (getTel t n).roles = imgRoles l ∧ (getTel t n).scratch = imgScratchWords l ∧ (getTel t n).halts = (getTel s n).halts) ∧
      (∀ n, tellers.testBit n = false → getTel t n = getTel s n) ∧
      (∀ q, q < 4 → ∀ i, i < l.length → memByte t.devMem (slotAt q slot + i) = BitVec.ofNat 8 (l.getD i 0)) ∧
      (∀ a, (∀ q, q < 4 → ¬(slotAt q slot ≤ a ∧ a < slotAt q slot + l.length)) → ¬(hold ≤ a ∧ a < hold + l.length) →
        memByte t.devMem a = memByte s.devMem a) ∧
      t = { s with regs := t.regs, shadow := t.shadow, tellers := t.tellers, devMem := t.devMem, badLines := t.badLines, hbm := t.hbm
                   rings := t.rings, items := t.items })

/-- R242 to R245, R258, R260, R261: the link comes up with rate, width and flit, degraded below 64 GT/s or x16, or stays down
without all three protocols, and vector 0 tells of it; it goes down with `LDOWN`, the device cache and reads under way lost and AER bit 5 logged; the
D-state is the host's; a viral indication shows and raises its detector; a failed IDE stream is insecure; an error sets its AER or RAS bit,
raises its detector and, unmasked, vector 0. Which signals carry a loss of the link, and the places of the bits, are the model's choice
(log entries 93 and 13). -/
def Obligations.LinkEvents : Prop :=
  (∀ (s : State) (rate : Fin 6) (width : Nat) (flit : Fin 3) (all3 : Bool), flag s glb R.HAT_LINK_STAT_UP = false → s.boot.perst = true →
    s.boot.locked = true → powerUp s = true → 2 ≤ rate.val → (width = 4 ∨ width = 8 ∨ width = 16) → (rate.val = 5 ↔ flit.val ≠ 0) →
    (all3 = false → Runs (.linkUp rate width flit all3) s fun t => flag t glb R.HAT_LINK_STAT_NOCXL = true ∧ t = { s with regs := t.regs } ∧
      RegsBut s t [fieldKey glb R.HAT_LINK_STAT_NOCXL 0]) ∧
    (all3 = true → Runs (.linkUp rate width flit all3) s fun t =>
      flag t glb R.HAT_LINK_STAT_UP = true ∧ rd t glb R.HAT_LINK_STAT_RATE = rate ∧ rd t glb R.HAT_LINK_STAT_WIDTH = width ∧
      rd t glb R.HAT_LINK_STAT_FLIT = flit ∧ flag t glb R.HAT_LINK_STAT_DEGR = (rate.val != 5 || width != 16) ∧
      LevelSet t 0x1E 0 (rate.val ≠ 5 ∨ width ≠ 16) ∧ (∀ v ∈ t.rings.msixPend, msixBlocked t v = true) ∧
      (msixBlocked t 0 = true → 0 ∈ t.rings.msixPend) ∧ (msixBlocked t 0 = false → mapGet s.rings.msixSent 0 0 < mapGet t.rings.msixSent 0 0) ∧
      t = { s with regs := t.regs, xlt := t.xlt, rings := t.rings, flt := t.flt, dcache := t.dcache, fresh := t.fresh } ∧
      (s.cacheEn = false → t.dcache = s.dcache ∧ t.xlt = s.xlt ∧
        RegsBut s t ([R.HAT_LINK_STAT_UP, R.HAT_LINK_STAT_RATE, R.HAT_LINK_STAT_WIDTH, R.HAT_LINK_STAT_FLIT, R.HAT_LINK_STAT_DEGR,
          R.XLT_FAULTS_FAULTS].map (fun f => fieldKey glb f 0) ++ [fieldKey glb R.FLT_KSTAT_ACTIVE 0x1E])))) ∧
  (∀ s : State, flag s glb R.HAT_LINK_STAT_UP = true → Runs .linkDown s fun t =>
    flag t glb R.HAT_LINK_STAT_UP = false ∧ rd t glb R.HAT_LINK_STAT_RATE = 0 ∧ rd t glb R.HAT_LINK_STAT_WIDTH = 0 ∧
    rd t glb R.HAT_LINK_STAT_FLIT = 0 ∧ flag t glb R.HAT_LINK_STAT_DEGR = false ∧ flag t glb R.HAT_LINK_STAT_LDOWN = true ∧
    t.dcache = [] ∧ t.xlt = { s.xlt with reads := [] } ∧ LevelSet t 0x1E 0 False ∧ (detNo 0x21 0, 5) ∈ t.flt.signals ∧
    t.cfg = mapPut s.cfg 0x104 (setBit (cfgWord s 0x104) 5) ∧
    t.rings = { s.rings with msixPend := t.rings.msixPend } ∧ (bit (cfgWord s 0x108) 5 = false → 0 ∈ t.rings.msixPend) ∧
    (bit (cfgWord s 0x108) 5 = true → t.rings = s.rings) ∧
    t = { s with regs := t.regs, xlt := t.xlt, rings := t.rings, flt := t.flt, dcache := t.dcache, cfg := t.cfg } ∧
    RegsBut s t ([R.HAT_LINK_STAT_UP, R.HAT_LINK_STAT_RATE, R.HAT_LINK_STAT_WIDTH, R.HAT_LINK_STAT_FLIT, R.HAT_LINK_STAT_DEGR,
      R.HAT_LINK_STAT_LDOWN].map (fun f => fieldKey glb f 0) ++ [fieldKey glb R.FLT_KSTAT_ACTIVE 0x1E])) ∧
  (∀ (s : State) (d3 : Bool), flag s glb R.HAT_LINK_STAT_UP = true → Runs (.dStateChange d3) s fun t => t = { s with d3 := d3 }) ∧
  (∀ s : State, flag s glb R.HAT_LINK_STAT_UP = true → Runs .viralReceived s fun t => flag t glb R.HAT_LINK_STAT_VIRAL = true ∧
    LevelSet t 0x26 0 True ∧ t = { s with regs := t.regs, flt := t.flt } ∧ RegsBut s t [fieldKey glb R.HAT_LINK_STAT_VIRAL 0]) ∧
  (∀ s : State, flag s glb R.HAT_IDE_STAT_CM_SECURE = true → Runs (.ideIntegrityFailure 1) s fun t =>
    flag t glb R.HAT_IDE_STAT_CM_SECURE = false ∧ flag t glb R.HAT_IDE_STAT_CM_FAIL = true ∧ LevelSet t 0x22 1 True ∧ t.cmBad = true ∧
    t = { s with regs := t.regs, flt := t.flt, cmBad := t.cmBad } ∧
    RegsBut s t [fieldKey glb R.HAT_IDE_STAT_CM_SECURE 0, fieldKey glb R.HAT_IDE_STAT_CM_FAIL 0]) ∧
  (∀ (s : State) (stream : Fin 3), stream.val ≠ 1 → mapGet? s.ioIde stream = some false → Runs (.ideIntegrityFailure stream) s fun t =>
    flag t glb R.HAT_IDE_STAT_IO_SECURE = false ∧ flag t glb R.HAT_IDE_STAT_IO_FAIL = true ∧ LevelSet t 0x22 0 True ∧
    t.ioIde = mapPut s.ioIde stream true ∧ t = { s with regs := t.regs, flt := t.flt, ioIde := t.ioIde } ∧
    RegsBut s t [fieldKey glb R.HAT_IDE_STAT_IO_SECURE 0, fieldKey glb R.HAT_IDE_STAT_IO_FAIL 0]) ∧
  ∀ (s : State) (kind : Fin 4) (n : Nat), flag s glb R.HAT_LINK_STAT_UP = true → Runs (.hostLinkError kind n) s fun t =>
    let masked := kind.val ≠ 3 ∧ bit (cfgWord s (if kind.val = 0 then 0x114 else 0x108)) (n % 32) = true
    (kind.val = 3 → t.comp = mapPut s.comp rasAt (setBit (mapGet s.comp rasAt 0) (n % 32)) ∧ t.cfg = s.cfg) ∧
    (kind.val = 0 → t.cfg = mapPut s.cfg 0x110 (setBit (cfgWord s 0x110) (n % 32)) ∧ t.comp = s.comp) ∧
    ((kind.val = 1 ∨ kind.val = 2) → t.cfg = mapPut s.cfg 0x104 (setBit (cfgWord s 0x104) (n % 32)) ∧ t.comp = s.comp) ∧
    (detNo (match kind.val with | 0 => 0x1F | 2 => 0x21 | _ => 0x20) 0, n % 32) ∈ t.flt.signals ∧
    (¬masked → VectorRaised s t 0) ∧ (masked → t.rings = s.rings) ∧
    (kind.val = 2 → flag t glb R.HAT_LINK_STAT_UP = false ∧ flag t glb R.HAT_LINK_STAT_LDOWN = true ∧ t.dcache = []) ∧
    (kind.val ≠ 2 → t = { s with cfg := t.cfg, comp := t.comp, flt := t.flt, rings := t.rings })

/-- R250 to R256, R261, R267, R268, R321, R323: a commit of one way with back-invalidate at a base of 256 MiB stands, any other fails with Commit Error in
the decoder's words (whose places are the model's, log entry 188); a host read of HDM returns the line, poisoned
where uncorrectable or viral, and enters the snoop filter unless device-held, or waits while the memory changes or the filter is full, which
asks a line back; a host write is stored, discarded where
device-held or viral; a snoop is sent for a line that an access waits for, and its response frees the line; a host store
is seen in every line the device cache watches, and the index judged. -/
def Obligations.HostMemory : Prop :=
  (∀ (s : State) (base ways : Nat) (bi : Bool), flag s glb R.HAT_LINK_STAT_UP = true →
    let b := base % 2 ^ 64 / 2 ^ 28 * 2 ^ 28
    Runs (.hdmCommit base ways bi) s fun t => t.hdmProg = some b ∧ flag t glb R.HAT_HDM_STAT_BI_EN = bi ∧
      mapGet? t.comp (hdmAt + 0x10) = some (b % 2 ^ 32) ∧ mapGet? t.comp (hdmAt + 0x14) = some (b / 2 ^ 32) ∧
      mapGet? t.comp (hdmAt + 0x20) = some (2 ^ 9 + if ways = 1 ∧ bi = true then 2 ^ 10 else 2 ^ 11) ∧
      committed t = (ways == 1 && bi) ∧ ((ways = 1 ∧ bi = true) → hdmBase t = b) ∧ (¬(ways = 1 ∧ bi = true) → hdmBase t = hdmBase s) ∧
      t = { s with regs := t.regs, hdmProg := t.hdmProg, comp := t.comp } ∧
      RegsBut s t ([R.HAT_HDM_STAT_BI_EN, R.HAT_HDM_STAT_COMMITTED, R.HAT_HDM_BASE_LO_BASE, R.HAT_HDM_BASE_HI_BASE].map fun f => fieldKey glb f 0)) ∧
  (∀ (s : State) (addr : Nat), 2 ^ 64 ≤ addr → (∀ d p, exec (.hostMemWrite addr d p) s = .fault (.noSuchHostAddress addr)) ∧
    (∀ d, exec (.hostSnoop addr d) s = .fault (.noSuchHostAddress addr)) ∧ exec (.hostMemRead addr) s = .fault (.noSuchHostAddress addr)) ∧
  (∀ (s : State) (addr : Nat), addr < 2 ^ 64 → memDecodes s addr = true →
    let line := hdmToDev (hdmOffset s addr) / 64
    let poison := flag s glb R.HAT_LINK_STAT_VIRAL || s.badLines.contains line
    let waits := s.xlt.memReads ++ [addr]
    (memHeld s = true → Runs (.hostMemRead addr) s fun t => t = { s with xlt := { s.xlt with memReads := waits } }) ∧
    (memHeld s = false → (heldAt s addr = true ∨ line ∈ s.sf ∨ s.sf.length < 1048576) → Runs (.hostMemRead addr) s fun t =>
      t.resp = b2n poison :: devBytes s (line * 64) 64 ∧ t.sf = (if heldAt s addr = true ∨ line ∈ s.sf then s.sf else s.sf ++ [line]) ∧
      (poison = true → Counted s t glb R.HAT_POISON_POISON ∧ flag t glb R.HAT_HDM_STAT_POISON = true) ∧ (poison = false → t.regs = s.regs) ∧
      t = { s with regs := t.regs, resp := t.resp, sf := t.sf, hbm := t.hbm } ∧
      RegsBut s t [fieldKey glb R.HAT_POISON_POISON 0, fieldKey glb R.HAT_HDM_STAT_POISON 0]) ∧
    (memHeld s = false → heldAt s addr = false → line ∉ s.sf → 1048576 ≤ s.sf.length → Runs (.hostMemRead addr) s fun t =>
      (∀ l, s.sf.find? (fun l => !s.biAsked.contains l && !s.biSent.contains l) = some l → l ∈ t.biAsked) ∧
      t = { s with biAsked := t.biAsked, xlt := { s.xlt with memReads := waits } })) ∧
  (∀ (s : State) (addr : Nat) (data : List Byte) (poisoned : Bool), addr < 2 ^ 64 → Canonical s →
    let line := hdmToDev (hdmOffset s addr) / 64
    (memDecodes s addr = true → flag s glb R.HAT_LINK_STAT_VIRAL = true → Runs (.hostMemWrite addr data poisoned) s fun t => t = s) ∧
    (memDecodes s addr = true → flag s glb R.HAT_LINK_STAT_VIRAL = false → heldAt s addr = true → Runs (.hostMemWrite addr data poisoned) s fun t =>
      Counted s t glb R.HAT_HDM_DROP_DROP ∧ flag t glb R.HAT_HDM_STAT_HWDROP = true ∧ t = { s with regs := t.regs, flt := t.flt } ∧
      t.flt.signals = s.flt.signals ++ [(detNo 0x23 (hdmOffset s addr / hdmPerSector), 0)] ∧
      RegsBut s t [fieldKey glb R.HAT_HDM_DROP_DROP 0, fieldKey glb R.HAT_HDM_STAT_HWDROP 0]) ∧
    (memDecodes s addr = true → flag s glb R.HAT_LINK_STAT_VIRAL = false → heldAt s addr = false → Runs (.hostMemWrite addr data poisoned) s fun t =>
      StoresAt s.devMem t.devMem (line * 64) ((data.take 64).map (·.toNat)) ∧ (poisoned = true → line ∈ t.badLines) ∧
      (poisoned = false → 64 ≤ data.length → line ∉ t.badLines) ∧ (∀ l, l ≠ line → (l ∈ t.badLines ↔ l ∈ s.badLines)) ∧
      t = { s with devMem := t.devMem, badLines := t.badLines, hbm := t.hbm })) ∧
  (∀ (s : State) (off : Nat), flag s glb R.HAT_LINK_STAT_UP = true → hdmToDev off / 64 ∈ s.biAsked → Runs (.backInvalidate off) s fun t =>
    Counted s t glb R.HAT_BISNP_BISNP ∧ hdmToDev off / 64 ∉ t.biAsked ∧ hdmToDev off / 64 ∈ t.biSent ∧
    t = { s with regs := t.regs, biAsked := t.biAsked, biSent := t.biSent } ∧ RegsBut s t [fieldKey glb R.HAT_BISNP_BISNP 0]) ∧
  (∀ (s : State) (off : Nat) (dirty : Option (List Byte)), flag s glb R.HAT_LINK_STAT_UP = true → Canonical s →
    let line := hdmToDev off / 64
    line ∈ s.biSent → s.xlt.memReads = [] → indexIn s line = [] → Runs (.biSnoopResponse off dirty) s fun t => line ∉ t.biSent ∧ line ∉ t.sf ∧
      (∀ d, dirty = some d → StoresAt s.devMem t.devMem (line * 64) ((d.take 64).map (·.toNat))) ∧ (dirty = none → t.devMem = s.devMem) ∧
      (poolWaits t = false → flag t glb R.HAT_HDM_STAT_BIPEND = false) ∧
      t = { s with regs := t.regs, biSent := t.biSent, sf := t.sf, devMem := t.devMem, badLines := t.badLines } ∧
      RegsBut s t [fieldKey glb R.HAT_HDM_STAT_BIPEND 0]) ∧
  ∀ (s : State) (addr : Nat) (data : List Byte), addr < 2 ^ 64 → Canonical s →
    let hi := (addr + max data.length 1 - 1) / 64
    ((∀ l ∈ s.dcache, l < addr / 64 ∨ hi < l) → Runs (.hostSnoop addr data) s fun t =>
      StoresAt s.hostMem t.hostMem addr (data.map (·.toNat)) ∧ t = { s with hostMem := t.hostMem }) ∧
    (flag s glb R.HAT_LINK_STAT_UP = true → ∀ l ∈ s.dcache, addr / 64 ≤ l → l ≤ hi → ∀ q pa, q < 256 → Watches s q (addr / 64) hi pa →
      (∀ r p, r < 256 → Watches s r (addr / 64) hi p → r = q) → (∀ r, r < 256 → Snoops s r → ringAcc s r (ringPloc s r) false ≠ .wait) →
      Runs (.hostSnoop addr data) s fun t =>
        StoresAt s.hostMem t.hostMem addr (data.map (·.toNat)) ∧ IndexJudged s t q (leNat (hostBytes t pa 4)) ∧
        t = { s with hostMem := t.hostMem, regs := t.regs, rings := t.rings })

/-- R245, R247 to R250, R257 to R259, R269: a configuration read returns the dwords the spec fixes; a write stores its dword, clears
the AER bits written 1, and what the enables hold shows; the CDAT gives the figures of the operating point; keys make their
IDE stream secure; unmasking a vector sends its pending message once; a head index beyond the entries written is stale. The places of bits in standard
structures are the model's (log entry 13). -/
def Obligations.HostFunction : Prop :=
  (∀ (s : State) (off : Nat) (v : Word), flag s glb R.HAT_LINK_STAT_UP = true →
    let a := off % 4096 / 4 * 4
    Runs (.configAccess false off v) s fun t => t = { s with resp := t.resp } ∧ t.resp.length = 1 ∧
      (∀ v, cfgFixed s a = some v → t.resp = [v]) ∧ (∀ e ∈ cfgKnown, e.1 = a → ∀ r ∈ t.resp, r &&& e.2.1 = e.2.2 &&& e.2.1) ∧
      (∀ e, cfgShown s a = some e → ∀ r ∈ t.resp, r &&& e.1 = e.2 &&& e.1) ∧
      (a = 0 → t.resp = [0x5C761FE3]) ∧ (a = 8 → t.resp = [0x12000000 + rd s glb R.GLB_ID_REV]) ∧ ((a = 0x20 ∨ a = 0x24 ∨ a = 0x30) → t.resp = [0]) ∧
      ((a = 0x104 ∨ a = 0x110) → t.resp = [cfgWord s a])) ∧
  (∀ (s : State) (off : Nat) (v : Word), flag s glb R.HAT_LINK_STAT_UP = true →
    let a := off % 4096 / 4 * 4
    (cfgFixed s a ≠ none → Runs (.configAccess true off v) s fun t => t = s) ∧
    (cfgFixed s a = none → Runs (.configAccess true off v) s fun t =>
      cfgWord t a = (if a = 0x104 ∨ a = 0x110 then cfgWord s a &&& (0xFFFFFFFF - v.toNat) else v.toNat) ∧ (∀ b, b ≠ a → cfgWord t b = cfgWord s b) ∧
      t.memEn = bit (cfgWord t 0x1AC) 2 ∧ t.cacheEn = bit (cfgWord t 0x1AC) 0 ∧ (t.cacheEn = false → t.dcache = []) ∧
      flag t glb R.XLT_STAT_ATS_EN = bit (cfgWord t 0x15C) 31 ∧ flag t glb R.XLT_STAT_PASID_EN = bit (cfgWord t 0x17C) 16 ∧
      flag t glb R.XLT_STAT_PRI_EN = bit (cfgWord t 0x16C) 0 ∧ (bit (cfgWord t 0x16C) 0 = false → flag t glb R.XLT_STAT_PRI_STOP = false) ∧
      (bit (cfgWord t 0x15C) 31 = false → t.xlt.atc = []) ∧ (bit (cfgWord t 0x16C) 1 = true → ∀ g ∈ t.xlt.groups, g.dead = false) ∧
      t = { s with regs := t.regs, xlt := t.xlt, rings := t.rings, memEn := t.memEn, cacheEn := t.cacheEn, dcache := t.dcache, cfg := t.cfg, fresh := t.fresh })) ∧
  (∀ (s : State) (e : Nat) (body : List Nat), flag s glb R.HAT_LINK_STAT_UP = true → Runs (.doeRequest 1 e body) s fun t => t = { s with resp := t.resp } ∧
    (e < 4 → t.resp = [0, e, e * hdmPerSector, hdmPerSector, 0]) ∧ (∀ h, h < 4 → e = 20 + h → t.resp = [4, h, 1, 0, hdmPerSector]) ∧
    ∀ h k, h < 4 → k < 4 → e = 4 + 4 * h + k →
      t.resp = [1, h, k, if rd s glb R.MEM_STAT_CUR = 1 then (if k < 2 then 190 else 95) else if k < 2 then 170 else 190]) ∧
  (∀ (s : State) (e mode : Nat), flag s glb R.HAT_LINK_STAT_UP = true → (mode = 1 ∨ mode = 2) →
    Runs (.doeRequest 2 e [1, mode]) s fun t => t.resp = [0] ∧ LevelSet t 0x22 1 False ∧
      flag t glb R.HAT_IDE_STAT_CM_SECURE = true ∧ rd t glb R.HAT_IDE_STAT_CM_MODE = mode ∧ t.cmBad = false ∧
      t = { s with regs := t.regs, resp := t.resp, flt := t.flt, cmBad := t.cmBad }) ∧
  (∀ (s : State) (e mode stream : Nat), flag s glb R.HAT_LINK_STAT_UP = true → (stream = 0 ∨ stream = 2) →
    Runs (.doeRequest 2 e [stream, mode]) s fun t => t.resp = [0] ∧ t.ioIde = mapPut s.ioIde stream false ∧
      flag t glb R.HAT_IDE_STAT_IO_SECURE = (t.ioIde.all fun x => !x.2) ∧ LevelSet t 0x22 0 (∃ x ∈ t.ioIde, x.2 = true) ∧
      t = { s with regs := t.regs, resp := t.resp, flt := t.flt, ioIde := t.ioIde }) ∧
  (∀ (s : State) (v : Nat), HostOpen s → v < 2048 → s.rings.msixPend.count v = 1 → Runs (.msixUnmask v) s fun t =>
    t = { s with rings := t.rings } ∧ bit (mapGet t.rings.msixTab (4 * v + 3) 1) 0 = false ∧
    (flag s glb R.HAT_LINK_STAT_UP = true → bit (cfgWord s 0xA0) 31 = true → bit (cfgWord s 0xA0) 30 = false →
      v ∉ t.rings.msixPend ∧ mapGet t.rings.msixSent v 0 = mapGet s.rings.msixSent v 0 + 1) ∧
    (bit (cfgWord s 0xA0) 30 = true → v ∈ t.rings.msixPend ∧ t.rings.msixSent = s.rings.msixSent)) ∧
  ∀ (s : State) (r : Nat) (v : Word), bar2Open s = true → 256 ≤ r → r < 516 →
    (ringHeld s r < (v.toNat + 2 ^ 32 - ringH s r) % 2 ^ 32 → Runs (.headIndexWrite r v) s fun t => flag t (ringB r) R.HAT_CQ_STAT_STALE = true ∧
      t = { s with regs := t.regs } ∧ RegsBut s t [fieldKey (ringB r) R.HAT_CQ_STAT_STALE 0]) ∧
    ((v.toNat + 2 ^ 32 - ringH s r) % 2 ^ 32 ≤ ringHeld s r → Runs (.headIndexWrite r v) s fun t => ringH t r = v.toNat ∧
      (ringHeld t r = 0 → mapGet? t.rings.pend r = none ∧ r ∉ t.rings.timers) ∧ (ringHeld t r ≠ 0 → t.rings = s.rings) ∧
      t = { s with regs := t.regs, rings := { s.rings with pend := t.rings.pend, timers := t.rings.timers } } ∧
      RegsBut s t [fieldKey (ringB r) R.HAT_CQ_HIDX_HIDX 0])

/-- R263 to R268, R270, R271, R274 to R277, R279, R281, R287, R294, R315: enabling a ring checks, locks and zeroes it, asks for a page it misses, or
shows XLAT; disabling it releases its locks; a doorbell's index is judged; every SQ whose page must be asked for asks for it, and of the others a
descriptor of the highest class fetched takes a job-table entry, checked in R277's order, or stops its ring, poisoned (of a host line: a free draw) or unreadable; the oldest
completion of a CQ is written in the lap's phase and counted for its interrupt, or waits at a place in the carve-out; waiting completions come first. -/
def Obligations.Rings : Prop :=
  (∀ (s : State) (r : Nat), HostOpen s → r < 516 → ringEn s r = false → r ∉ s.rings.enabling →
    let usable := ringPv s r = false ∨ (flag s glb R.XLT_STAT_ATS_EN = true ∧ flag s glb R.XLT_STAT_PASID_EN = true)
    let locks := flag s glb R.XLT_STAT_ATS_EN = false ∨ (atcLock s r (ringPv s r) (ringPasid s r) (ringRanges s r)).isSome
    (usable → ringFirst s r = none → locks → 256 ≤ r → Runs (.ringEnable r) s fun t => ringEn t r = true ∧ ringW t r = 0 ∧ ringH t r = 0 ∧
      flag t (ringB r) R.HAT_CQ_STAT_ACTIVE = true ∧ r ∉ t.rings.enabling ∧ r ∉ t.rings.stopped ∧ mapGet? t.rings.pend r = none ∧
      t = { s with regs := t.regs, rings := t.rings, xlt := t.xlt } ∧
      RegsBut s t ([R.HAT_CQ_CTL_EN, R.HAT_CQ_WIDX_WIDX, R.HAT_CQ_HIDX_HIDX, R.HAT_CQ_STAT_ACTIVE].map fun f => fieldKey (ringB r) f 0)) ∧
    (usable → ringFirst s r = none → locks → ∀ w, r < 256 → ringAcc s r (ringPloc s r) false = .ok w → ringLog2 s r ≤ 16 →
      let v := leNat (whereBytes s w 4)
      v ≤ 2 ^ ringLog2 s r → Runs (.ringEnable r) s fun t => ringEn t r = true ∧ rd t (sqB r) R.HAT_SQ_CIDX_CIDX = 0 ∧ rd t (sqB r) R.HAT_SQ_PIDX_PIDX = v ∧
        r ∉ t.rings.enabling ∧ r ∉ t.rings.stopped ∧ (s.cacheEn = true → flag s (sqB r) R.HAT_SQ_CFG_SNOOP = true → ∀ pa, w = .host pa → pa / 64 ∈ t.dcache) ∧
        t = { s with regs := t.regs, rings := t.rings, xlt := t.xlt, dcache := t.dcache } ∧
        RegsBut s t ([R.HAT_SQ_CTL_EN, R.HAT_SQ_PIDX_PIDX, R.HAT_SQ_CIDX_CIDX].map fun f => fieldKey (sqB r) f 0)) ∧
    (usable → ∀ a, ringFirst s r = some (a, .miss) → Runs (.ringEnable r) s fun t => ringEn t r = false ∧ r ∈ t.rings.enabling ∧
      XltAsked t (a / 4096 * 4096) r ∧ t = { s with regs := t.regs, rings := t.rings, xlt := t.xlt }) ∧
    ((¬usable ∨ ∃ a st, ringFirst s r = some (a, .fail st)) → Runs (.ringEnable r) s fun t => ringEn t r = false ∧
      flag t (ringB r) (if isSq r then R.HAT_SQ_STAT_ERR else R.HAT_CQ_STAT_ERR) = true ∧
      rd t (ringB r) (if isSq r then R.HAT_SQ_STAT_ECAUSE else R.HAT_CQ_STAT_ECAUSE) = 2 ∧ t.rings.enabling = s.rings.enabling ∧
      t = { s with regs := t.regs, rings := t.rings })) ∧
  (∀ (s : State) (r : Nat), HostOpen s → r < 516 → mapGet? s.rings.evrWait r = none → Runs (.ringDisable r) s fun t => ringEn t r = false ∧ r ∉ t.rings.enabling ∧
    (∀ e ∈ t.xlt.atc, r ∉ e.locks) ∧ (256 ≤ r → flag t (ringB r) R.HAT_CQ_STAT_ACTIVE = false) ∧ t.rings.jobs = s.rings.jobs ∧
    t = { s with regs := t.regs, rings := t.rings, xlt := t.xlt, dcache := t.dcache } ∧
    RegsBut s t (if r < 256 then [fieldKey (sqB r) R.HAT_SQ_CTL_EN 0]
      else [fieldKey (ringB r) R.HAT_CQ_CTL_EN 0, fieldKey (ringB r) R.HAT_CQ_STAT_ACTIVE 0])) ∧
  (∀ (s : State) (q : RingIx) (v : Word), bar2Open s = true → ringEn s q = true →
    Runs (.mmioDoorbell q v) s fun t => IndexJudged s t q v.toNat ∧ t = { s with regs := t.regs, rings := t.rings }) ∧
  (∀ s : State, fetchOpen s = true → fetchNext s = none → Runs .descriptorFetch s fun t =>
    (∀ q ∈ fetchWaits s, XltAsked t (fetchAddr s q / 4096 * 4096) q ∨ ∃ d, ringResolve s q (fetchAddr s q) false = .dev d) ∧
    t = { s with regs := t.regs, xlt := t.xlt, rings := t.rings, biAsked := t.biAsked }) ∧
  (∀ (s : State) (q : Nat), fetchOpen s = true → fetchNext s = some q →
    let a := fetchAddr s q
    let prio := rd s (sqB q) R.HAT_SQ_CFG_PRIO
    a = slotAddr s q (rd s (sqB q) R.HAT_SQ_CIDX_CIDX) 64 ∧ fetchable s q = true ∧ ringAcc s q a false ≠ .wait ∧
    (∀ p, p < 256 → fetchable s p = true → ringAcc s p (fetchAddr s p) false ≠ .wait → rd s (sqB p) R.HAT_SQ_CFG_PRIO ≤ prio) ∧
    (fetchWaits s = [] → ringAcc s q a false = .bad → Runs .descriptorFetch s fun t =>
      RingStopped s t q 2 ∧ t = { s with regs := t.regs, rings := t.rings, fresh := t.fresh }) ∧
    (fetchWaits s = [] → ∀ d, ringAcc s q a false = .ok (.dev d) → badAt s d = true → Runs .descriptorFetch s fun t =>
      RingStopped s t q 3 ∧ Uncorrectable s t (d / 64) false) ∧
    ∀ w, fetchWaits s = [] → ringAcc s q a false = .ok w → (∀ d, w = .dev d → badAt s d = false) →
      let l := whereBytes s w 64
      let word := fun i => leNat ((l.drop (8 * i)).take 8)
      let op := word 0 % 256
      Runs .descriptorFetch s fun t =>
        (RingStopped s t q 3 ∧ t = { s with regs := t.regs, rings := t.rings, fresh := t.fresh } ∧ (∃ pa, w = .host pa) ∧ Config.freeNat s.fresh % 2 = 1) ∨
        ((∀ pa, w = .host pa → Config.freeNat s.fresh % 2 = 0) ∧ rd t (sqB q) R.HAT_SQ_CIDX_CIDX = (rd s (sqB q) R.HAT_SQ_CIDX_CIDX + 1) % 2 ^ 32 ∧
        (∃ x, getJob? t s.rings.nextJob = some x ∧ x.sq = q ∧ x.cidx = rd s (sqB q) R.HAT_SQ_CIDX_CIDX ∧ x.tag = word 0 / 2 ^ 32 % 2 ^ 32 ∧ x.opcode = op ∧
          x.flags = word 0 / 2 ^ 16 % 2 ^ 16 ∧ x.ctx = word 1 % 64 ∧ x.fence = bit (word 0) 8 ∧ x.cie = bit (word 0) 9 ∧ x.pri = prio ∧
          (∀ i, i < 6 → arg x i = word (2 + i)) ∧
          (argMasks op = none → x.phase = .done 0x0100 0 0 0) ∧
          (∀ ms, argMasks op = some ms →
            let bad := word 0 / 2 ^ 10 % 2 ^ 6 ≠ 0 ∨ word 1 / 64 ≠ 0 ∨ flagsOf op < x.flags ∨
              (∃ i, i < 6 ∧ arg x i &&& (2 ^ 64 - 1 - ms.getD i 0) ≠ 0) ∨ ∃ i ∈ needAddr op x.args, arg x i = 0
            (bad → x.phase = .done 0x0101 0 0 0) ∧ (¬bad → prio = 7 → x.ctx < 56 → x.phase = .done 0x0102 0 0 0) ∧
            (¬bad → (prio ≠ 7 ∨ 56 ≤ x.ctx) → x.phase = .fetched))) ∧
        (∀ j, j ≠ s.rings.nextJob → getJob? t j = getJob? s j) ∧ t.rings.nextJob = s.rings.nextJob + 1 ∧
        t = { s with regs := t.regs, rings := t.rings, fresh := t.fresh } ∧ RegsBut s t [fieldKey (sqB q) R.HAT_SQ_CIDX_CIDX 0])) ∧
  (∀ (s : State) (c : RingIx) (j : Nat) (x : Job) (st r0 r1 r2 : Nat), Canonical s →
    let r := 256 + c.val
    oldestDone s r = some (j, x) → x.phase = .done st r0 r1 r2 →
    let l := leBytes 8 (x.tag + st * 2 ^ 32 + x.sq * 2 ^ 48 + x.opcode * 2 ^ 56) ++ leBytes 8 ((x.cidx + 1) % 2 ^ 32 + r0 % 2 ^ 32 * 2 ^ 32) ++
      leBytes 8 r1 ++ leBytes 8 (r2 % 2 ^ 32)
    (∀ k y, (k, y) ∈ s.rings.jobs → (jobDone y).isSome → cqOf s y = r → x.order ≤ y.order) ∧
    (∀ w, RingTakes s r w → waitingFor s r = [] → Runs (.completionWrite c) s fun t => EntryAt s t r w l ∧ EntryCounts s t r x.cie ∧
      getJob? t j = none ∧ (∀ k, k ≠ j → getJob? t k = getJob? s k) ∧ RegsBut s t [fieldKey (ringB r) R.HAT_CQ_WIDX_WIDX 0] ∧
      t = { s with regs := t.regs, rings := t.rings, hostMem := t.hostMem, devMem := t.devMem, badLines := t.badLines }) ∧
    ((ringOpen s r = false ∨ ringFull s r = true ∨ waitingFor s r ≠ []) → Runs (.completionWrite c) s fun t =>
      (s.rings.waiting.length < 65536 → t.rings.waiting = s.rings.waiting ++ [⟨r, l, x.cie, freePlace s⟩] ∧ getJob? t j = none ∧
        (∀ k, k ≠ j → getJob? t k = getJob? s k) ∧ StoresAt s.devMem t.devMem (freePlace s) l ∧ (∀ w ∈ s.rings.waiting, w.place ≠ freePlace s) ∧
        (∃ q i, q < 4 ∧ i < 16384 ∧ freePlace s = carveB q + 0x400000 + 32 * i) ∧
        t = { s with rings := t.rings, devMem := t.devMem, badLines := t.badLines }) ∧ (65536 ≤ s.rings.waiting.length → t = s))) ∧
  ∀ (s : State) (c : RingIx) (w : Where) (x : WaitCpl) (rest : List WaitCpl), Canonical s → RingTakes s (256 + c.val) w →
    waitingFor s (256 + c.val) = x :: rest → Runs (.waitingCompletionWrite c) s fun t => EntryAt s t (256 + c.val) w x.entry ∧
      EntryCounts s t (256 + c.val) x.cie ∧ t.rings.waiting = s.rings.waiting.erase x ∧ t.rings.jobs = s.rings.jobs ∧
      RegsBut s t [fieldKey (ringB (256 + c.val)) R.HAT_CQ_WIDX_WIDX 0] ∧
      t = { s with regs := t.regs, rings := t.rings, hostMem := t.hostMem, devMem := t.devMem, badLines := t.badLines }

/-- R273, R278, R280 to R282, R401: a job is dispatched in order, deferred while its sector is ENFORCED, or ends with the first check that fails; NOP_FENCE ends once
all it names are over; an abort ends the jobs named that have not started, stops the gang of a run, or shows MISS; an event goes to every ring that
takes its type, waits at one that is stopped, shut off from the host or asks for its page again (that it waits there too is the model's, log entry 95), is lost at a full or disabled one and dropped where no ring that takes it is enabled; EVT_LOST carries the count; the moderation timer
raises the interrupt. -/
def Obligations.JobsAndEvents : Prop :=
  (∀ (s : State) (j : Nat) (x : Job), getJob? s j = some x → x.phase = .fetched → orderAllows s j x = true →
    let queued := fun (t : State) (units : List Nat) =>
      getJob? t j = some { x with phase := .dispatched, order := s.rings.nextOrder, units := units } ∧ t.rings.nextOrder = s.rings.nextOrder + 1 ∧
      (∀ k, k ≠ j → getJob? t k = getJob? s k) ∧ SameBytes s t ∧ t.gangs = s.gangs ∧ t.tiles = s.tiles
    (thermalWait s x = true → Runs (.jobDispatch j) s fun t => queued t [1]) ∧
    (thermalWait s x = false → ∀ l, (match ownerList x with | none => l = [] | some (va, n) => jobBytes s x va n = .ok l) →
      (∀ st, dispatchCheck s x l = some st → Runs (.jobDispatch j) s fun t => JobEnds t j st 0 0 0 ∧ SameBytes s t) ∧
      (dispatchCheck s x l = none → Runs (.jobDispatch j) s fun t => queued t []))) ∧
  (∀ (s : State) (j : Nat) (x : Job), jobReady s j 0x7F = some x →
    (s.rings.jobs.any (fun e => decide (e.1 < j) && fenceNames x e.2.sq && (jobDone e.2).isNone) = false →
      Runs (.nopFence j) s fun t => JobEnds t j 0 0 0 0 ∧ t = { s with rings := t.rings }) ∧
    (s.rings.jobs.any (fun e => decide (e.1 < j) && fenceNames x e.2.sq && (jobDone e.2).isNone) = true → Runs (.nopFence j) s fun t => t = s)) ∧
  (∀ s : State, HostOpen s →
    (abortNamed s = [] → Runs .jobAbort s fun t => flag t glb R.HAT_ABORT_STAT_MISS = true ∧ t = { s with regs := t.regs } ∧
      RegsBut s t [fieldKey glb R.HAT_ABORT_STAT_MISS 0]) ∧
    ∀ j x, abortNamed s = [j] → getJob? s j = some x →
      ((x.phase = .fetched ∨ x.phase = .dispatched ∨ (x.phase = .running ∧ x.opcode ∈ [0x01, 0x10, 0x31, 0x40, 0x42, 0x7F])) → Runs .jobAbort s fun t =>
        JobEnds t j 0x0300 0 0 0 ∧ SameBytes s t ∧ (∀ y ∈ t.xlt.streams, y.job ≠ j) ∧ (∀ y ∈ t.xlt.reads, y.job ≠ j)) ∧
      (x.phase = .running → x.opcode = 0x11 → ∀ l g, s.gangs.filter (fun e => e.2.job == some j) = [(l, g)] → getGang? s l = some g →
        g.waiting = false → g.abort = none → gangArmed s g = false → endsBy g (latchVec s g) = false → g.genNext ≤ latchVec s g →
        Runs .jobAbort s fun t =>
          GangTo s t l { g with abort := some (latchVec s g, 0x0314) } ∧ t = { s with gangs := t.gangs }) ∧
      (x.phase = .running → x.opcode = 0x02 → Runs .jobAbort s fun t => t = s)) ∧
  (∀ (s : State) (x : Event) (rest : List Event), Canonical s → s.rings.events = x :: rest → linkOpen s = true →
    (∀ e, e < 4 → mapGet? s.rings.evrWait (512 + e) = none) →
    let waits := fun (t : State) (e : Nat) => mapGet? t.rings.evrWait (512 + e) = some [x] ∧ ringW t (512 + e) = ringW s (512 + e) ∧ evrLost t e = evrLost s e
    let takes := fun (e : Nat) => bit (rd s (ringB (512 + e)) R.HAT_EVR_MASK_MASK) x.type
    let l := leBytes 8 (x.type + x.unit * 2 ^ 16 + x.arg0 % 2 ^ 32 * 2 ^ 32) ++ leBytes 8 (fracOf x.time + nsOf x.time * 2 ^ 16) ++
      leBytes 8 (secOf x.time % 2 ^ 48) ++ leBytes 8 (x.arg1 % 2 ^ 32)
    Runs .eventPost s fun t =>
      ((∀ e, e < 4 → takes e = true → ringEn s (512 + e) = false) → Counted s t glb R.HAT_EVT_DROP_DROP) ∧
      ((∃ e, e < 4 ∧ takes e = true ∧ ringEn s (512 + e) = true) → rd t glb R.HAT_EVT_DROP_DROP = rd s glb R.HAT_EVT_DROP_DROP) ∧
      (∀ e, e < 4 → takes e = false → ringW t (512 + e) = ringW s (512 + e) ∧ evrLost t e = evrLost s e) ∧
      (∀ e, e < 4 → takes e = true → (ringEn s (512 + e) = false ∨ (ringOpen s (512 + e) = true ∧ ringFull s (512 + e) = true)) →
        Counted s t (ringB (512 + e)) R.HAT_EVR_LOST_LOST ∧ ringW t (512 + e) = ringW s (512 + e)) ∧
      (∀ e, e < 4 → takes e = true → ringEn s (512 + e) = true → ringOpen s (512 + e) = false → waits t e) ∧
      (∀ e, e < 4 → takes e = true → ringOpen s (512 + e) = true → ringFull s (512 + e) = false → evrLost s e = 0 →
        ringAcc s (512 + e) (slotAddr s (512 + e) (ringW s (512 + e)) 32) true = .wait → waits t e) ∧
      (∀ e w, e < 4 → takes e = true → RingTakes s (512 + e) w → evrLost s e = 0 → evrLost t e = 0 ∧ ringW t (512 + e) = (ringW s (512 + e) + 1) % 2 ^ 32 ∧
        ((∀ f, f < 4 → f ≠ e → takes f = false) → EntryAt s t (512 + e) w l ∧ EntryCounts s t (512 + e) false ∧ t.rings.events = rest)) ∧
      t.rings.jobs = s.rings.jobs) ∧
  (∀ (s : State) (e : EvrIx) (w : Where), Canonical s → RingTakes s (512 + e.val) w → evrLost s e ≠ 0 →
    let l := leBytes 8 (7 + e.val * 2 ^ 16 + evrLost s e % 2 ^ 32 * 2 ^ 32) ++ leBytes 8 (fracOf s.now + nsOf s.now * 2 ^ 16) ++
      leBytes 8 (secOf s.now % 2 ^ 48) ++ leBytes 8 0
    Runs (.evtLost e) s fun t => EntryAt s t (512 + e.val) w l ∧ EntryCounts s t (512 + e.val) false ∧ evrLost t e = 0 ∧
      RegsBut s t [fieldKey (ringB (512 + e.val)) R.HAT_CQ_WIDX_WIDX 0, fieldKey (ringB (512 + e.val)) R.HAT_EVR_LOST_LOST 0] ∧
      t = { s with regs := t.regs, rings := t.rings, hostMem := t.hostMem, devMem := t.devMem, badLines := t.badLines }) ∧
  ∀ (s : State) (r : Nat), r ∈ s.rings.timers → Runs (.imodTimerExpiry r) s fun t =>
    mapGet? t.rings.pend r = none ∧ r ∉ t.rings.timers ∧ VectorRaised s t (rd s (ringB r) R.HAT_CQ_CFG_VEC) ∧ t = { s with rings := t.rings }

/-- R219, R290, R293, R303 to R306, R309: a Translation Completion that grants what was asked fills the cache and lets the stream go on; voided by an
invalidation, the request goes again; refused by the host it ends the job with ST_XLT_FAULT; granting too little it raises a page
request group and asks the sector's COURIER for service, or ends the job, or, asked for ahead of need, does nothing. A response of Success asks again for the page
and up to seven that follow (that it asks for those is the model's, log entry 197); Invalid Request and Response Failure end the job, the latter setting
`PRI_STOP`; a time-out ends it and keeps the index; a timed-out group's response is discarded. -/
def Obligations.TranslationRequests : Prop :=
  (∀ (s : State) (x : XltReq) (rest : List XltReq) (j : Nat), flag s glb R.HAT_LINK_STAT_UP = true → s.xlt.reqs = x :: rest →
    (x.stale = true → Runs (.translationCompletion .failed) s fun t => t.xlt = { s.xlt with reqs := rest ++ [{ x with stale := false }] } ∧
      Counted s t glb R.XLT_MISS_MISS ∧ t = { s with regs := t.regs, xlt := t.xlt } ∧ RegsBut s t [fieldKey glb R.XLT_MISS_MISS 0]) ∧
    (x.stale = false → x.who = [1000 + j] → Ordinary s j → Runs (.translationCompletion .failed) s fun t => XltEnds s t j 0x0200 x.va ∧ t.xlt.reqs = rest)) ∧
  (∀ (s : State) (x : XltReq) (va size pa j : Nat) (r w : Bool), flag s glb R.HAT_LINK_STAT_UP = true →
    s.xlt.reqs.find? (fun x => decide (va ≤ x.va) && decide (x.va < va + 2 ^ size)) = some x → x.stale = false → x.who = [1000 + j] →
    let z := if 30 ≤ size then 30 else if 21 ≤ size then 21 else 12
    let base := x.va / 2 ^ z * 2 ^ z
    let go := Instr.translationCompletion (.present va size pa r w)
    ((if x.wr then w else r) = true → Runs go s fun t =>
      (∃ e ∈ t.xlt.atc, e.pv = x.pv ∧ e.pasid = x.pasid ∧ e.va = base ∧ e.size = z ∧ e.pa = pa + (base - va) ∧ e.r = r ∧ e.w = w) ∧
      (∀ y ∈ s.xlt.streams, y.job = j → (y.va + y.done) / 4096 * 4096 = x.va → { y with wait := false } ∈ t.xlt.streams) ∧
      t.xlt.reqs = s.xlt.reqs.erase x ∧ (∀ y, getJob? s j = some y → getJob? t j = some { y with susp := stillSusp t (1000 + j) }) ∧
      (∀ y, y.job ≠ j → t.xlt.streams.count y = s.xlt.streams.count y) ∧ t = { s with xlt := t.xlt, rings := t.rings }) ∧
    ((if x.wr then w else r) = false → Ordinary s j →
      (x.retried = true → Runs go s fun t => XltEnds s t j 0x0201 x.va) ∧
      (x.retried = false → (flag s glb R.XLT_STAT_PRI_EN = false ∨ flag s glb R.XLT_STAT_PRI_STOP = true) → Runs go s fun t => XltEnds s t j 0x0200 x.va) ∧
      (x.retried = false → flag s glb R.XLT_STAT_PRI_EN = true → flag s glb R.XLT_STAT_PRI_STOP = false →
        s.xlt.groups.find? (groupFor x.pv x.pasid x.va x.wr) = none → Runs go s fun t =>
          ((∃ i, i < 512 ∧ ∀ g ∈ s.xlt.groups, g.idx ≠ i) → Counted s t glb R.XLT_FAULTS_FAULTS ∧ ∃ i, i < 512 ∧ (∀ g ∈ s.xlt.groups, g.idx ≠ i) ∧
            t.xlt.groups = s.xlt.groups ++ [⟨i, x.pv, x.pasid, x.va, x.wr, [1000 + j], false⟩]) ∧
          ((∀ i, i < 512 → ∃ g ∈ s.xlt.groups, g.idx = i) → t.xlt.groups = s.xlt.groups ∧ t.xlt.faultQ = s.xlt.faultQ ++ [x]) ∧
          (∀ y, getJob? s j = some y → Counted s t (ctxB y.ctx) R.XLT_CTX_FAULTS_FAULTS ∧ getJob? t j = some { y with susp := y.susp || atPage s (1000 + j) x.va }) ∧
          (∀ y q n, getJob? s j = some y → jobSector y = some q → holderOf s 6 q = some n →
            ((entryOf (getTel s n) (telRole s n) 7).isSome → 7 ∈ (getTel t n).pend) ∧ (entryOf (getTel s n) (telRole s n) 7 = none →
              Counted s t (telB n) R.TIL_TEL_NOENT_NOENT)) ∧
          t.xlt.streams = s.xlt.streams ∧
          t = { s with regs := t.regs, shadow := t.shadow, xlt := t.xlt, rings := t.rings, tellers := t.tellers, roleEvts := t.roleEvts, items := t.items }))) ∧
  (∀ (s : State) (x : XltReq) (va size pa : Nat) (r w : Bool), flag s glb R.HAT_LINK_STAT_UP = true →
    s.xlt.reqs.find? (fun x => decide (va ≤ x.va) && decide (x.va < va + 2 ^ size)) = some x → x.stale = false → x.who = [] →
    (if x.wr then w else r) = false → Runs (.translationCompletion (.present va size pa r w)) s fun t =>
      t = { s with xlt := { s.xlt with reqs := s.xlt.reqs.erase x } }) ∧
  ∀ (s : State) (idx j : Nat) (g : PrgGroup), flag s glb R.HAT_LINK_STAT_UP = true → s.xlt.groups.find? (·.idx == idx) = some g → g.who = [1000 + j] →
    (s.xlt.faultQ = [] → Ordinary s j → g.dead = false →
      (Runs (.pageRequestResponse idx .success) s fun t =>
        (∃ l, t.xlt.reqs = s.xlt.reqs ++ ⟨g.pv, g.pasid, g.va, g.wr, g.who, false, true⟩ :: l ∧
          (∀ r ∈ l, r = ⟨g.pv, g.pasid, r.va, g.wr, [], false, false⟩ ∧ r.va < groupEnd s g ∧ ∃ i, 1 ≤ i ∧ i < 8 ∧ r.va = g.va + 4096 * i) ∧
          rd t glb R.XLT_MISS_MISS = min (rd s glb R.XLT_MISS_MISS + 1 + l.length) (2 ^ R.XLT_MISS_MISS.width - 1)) ∧
        (∀ i, 1 ≤ i → i < 8 → g.va + 4096 * i < groupEnd s g → (atcFind s g.pv g.pasid (g.va + 4096 * i) g.wr).isSome ∨
          t.xlt.reqs.any (reqFor g.pv g.pasid (g.va + 4096 * i) g.wr) = true) ∧
        t.xlt.groups = s.xlt.groups.filter (·.idx != idx) ∧ (∃ y, getJob? t j = some y ∧ y.susp = stillSusp t (1000 + j)) ∧
        t = { s with regs := t.regs, xlt := t.xlt, rings := t.rings }) ∧
      (Runs (.pageRequestResponse idx .invalid) s fun t => XltEnds s t j 0x0200 g.va ∧ t.xlt.groups = s.xlt.groups.filter (·.idx != idx)) ∧
      Runs (.pageRequestResponse idx .failure) s fun t => XltEnds s t j 0x0200 g.va ∧ t.xlt.groups = s.xlt.groups.filter (·.idx != idx) ∧
        flag t glb R.XLT_STAT_PRI_STOP = true) ∧
    (s.xlt.faultQ = [] → g.dead = true → ∀ code, Runs (.pageRequestResponse idx code) s fun t =>
      t = { s with xlt := { s.xlt with groups := s.xlt.groups.filter (·.idx != idx) } }) ∧
    (Ordinary s j → g.dead = false → Runs (.priTimeout idx) s fun t => XltEnds s t j 0x0202 g.va ∧
      t.xlt.groups = s.xlt.groups.map fun h => if h.idx == idx then { h with who := [], dead := true } else h)

/-- R254, R288, R289, R291, R293 to R300, R304: an invalidation drops what it covers, voids the answers on the way and breaks locks; it completes once no covered
read is out (an invalidation beyond the queue of 32 is ignored: the model's choice, log entry 196). An ordinary context is enabled at once; a
real-time one reserves, translates, locks and then reads `EN` = 1, or fails. A context in use is not disabled. A granule that lies in the part moves first,
its lines snooped back where the host holds them (that it goes first is the model's, log entry 193); else the granule of the chosen
stream, its context checked before the first, is written or read inside its 256-byte block, or waits for its translation, or ends its job. A read's bytes
reach its job. -/
def Obligations.ContextsAndGranules : Prop :=
  (∀ (s : State) (pv : Bool) (pasid base size : Nat), flag s glb R.HAT_LINK_STAT_UP = true →
    (32 ≤ s.xlt.invs.length → Runs (.atsInvalidate pv pasid base size) s fun t => t = s) ∧
    (s.xlt.invs.length < 32 → Runs (.atsInvalidate pv pasid base size) s fun t =>
    (∀ e, e ∈ t.xlt.atc ↔ e ∈ s.xlt.atc ∧ ¬Covers pv pasid base size e) ∧ t.xlt.invs = s.xlt.invs ++ [⟨pv, pasid, base, size, s.xlt.tagNext⟩] ∧
    flag t glb R.XLT_STAT_INVPEND = true ∧
    (∀ x ∈ s.xlt.reqs, x.pv = pv → (pv = true → x.pasid = pasid) → x.va < base + size → base < x.va + 4096 → ∃ y ∈ t.xlt.reqs, y.va = x.va ∧ y.stale = true) ∧
    ((∃ e ∈ s.xlt.atc, Covers pv pasid base size e ∧ e.locks ≠ []) → flag t glb R.XLT_STAT_LBRK = true) ∧
    (∀ e ∈ s.xlt.atc, Covers pv pasid base size e → ∀ k, k < 64 → 600 + k ∈ e.locks → flag t (ctxB k) R.XLT_CTX_STAT_PINNED = false ∧
      flag t (ctxB k) R.XLT_CTX_STAT_LBRK = true ∧ (detNo 0x24 k, 0) ∈ t.flt.signals ∧ XltAsked t (e.va / 4096 * 4096) (800 + k)) ∧
    t = { s with regs := t.regs, xlt := t.xlt, flt := t.flt })) ∧
  (∀ (s : State) (i : InvReq) (rest : List InvReq), flag s glb R.HAT_LINK_STAT_UP = true → s.xlt.invs = i :: rest →
    (readCovered s i = true ↔ ∃ r ∈ s.xlt.reads, r.tagNo < i.upTo ∧ r.pv = i.pv ∧ (i.pv = true → r.pasid = i.pasid) ∧ r.va < i.base + i.size ∧
      i.base < r.va + r.len) ∧
    (readCovered s i = true → Runs .invalidateCompletion s fun t => t = s) ∧
    (readCovered s i = false → Runs .invalidateCompletion s fun t => Counted s t glb R.XLT_INV_INV ∧ (flag t glb R.XLT_STAT_INVPEND = true ↔ rest ≠ []) ∧
      t = { s with regs := t.regs, xlt := { s.xlt with invs := rest } } ∧
      RegsBut s t [fieldKey glb R.XLT_INV_INV 0, fieldKey glb R.XLT_STAT_INVPEND 0])) ∧
  (∀ (s : State) (k : CtxIx), HostOpen s → flag s (ctxB k) R.XLT_CTX_CFG_EN = false → flag s (ctxB k) R.XLT_CTX_STAT_PBUSY = false →
    let s1 := setF s (ctxB k) R.XLT_CTX_STAT_PBUSY
    (k.val < 56 → Runs (.contextEnable k) s fun t => flag t (ctxB k) R.XLT_CTX_CFG_EN = true ∧ t = { s with regs := t.regs } ∧
      RegsBut s t [fieldKey (ctxB k) R.XLT_CTX_CFG_EN 0]) ∧
    (56 ≤ k.val → flag s glb R.XLT_STAT_ATS_EN = false → Runs (.contextEnable k) s fun t => PinFailed s t k) ∧
    (56 ≤ k.val → flag s glb R.XLT_STAT_ATS_EN = true → (384 < reserved s1 false ∨ 384 < reserved s1 true) →
      Runs (.contextEnable k) s fun t => PinFailed s t k ∧ flag t (ctxB k) R.XLT_CTX_STAT_RFAIL = true) ∧
    (56 ≤ k.val → flag s glb R.XLT_STAT_ATS_EN = true → reserved s1 false ≤ 384 → reserved s1 true ≤ 384 → Runs (.contextEnable k) s fun t =>
      flag t (ctxB k) R.XLT_CTX_STAT_PBUSY = true ∧ flag t (ctxB k) R.XLT_CTX_CFG_EN = false ∧
      (∀ a, pinMissing s k = some a → XltAsked t (a / 4096 * 4096) (600 + k.val)) ∧ t = { s with regs := t.regs, xlt := t.xlt })) ∧
  (∀ (s : State) (k : CtxIx), HostOpen s →
    (ctxInUse s k = true → Runs (.contextDisable k) s fun t => flag t (ctxB k) R.XLT_CTX_STAT_WR_IGN = true ∧ t = { s with regs := t.regs } ∧
      RegsBut s t [fieldKey (ctxB k) R.XLT_CTX_STAT_WR_IGN 0]) ∧
    (ctxInUse s k = false → Runs (.contextDisable k) s fun t => flag t (ctxB k) R.XLT_CTX_CFG_EN = false ∧ flag t (ctxB k) R.XLT_CTX_STAT_PINNED = false ∧
      (∀ e ∈ t.xlt.atc, 600 + k.val ∉ e.locks) ∧ t = { s with regs := t.regs, xlt := t.xlt } ∧
      RegsBut s t ([R.XLT_CTX_CFG_EN, R.XLT_CTX_STAT_PINNED, R.XLT_CTX_STAT_PBUSY].map fun f => fieldKey (ctxB k) f 0))) ∧
  (∀ (s : State) (k : CtxIx), flag s (ctxB k) R.XLT_CTX_STAT_PBUSY = true →
    let locks := atcLock s (600 + k.val) (ctxPv s k) (ctxPasid s k) (pinWindows s k)
    ((k.val ∈ s.xlt.pinFail ∨ (pinMissing s k = none ∧ locks = none) ∨ (pinMissing s k ≠ none ∧ 4096 < pinHeld s k)) →
      Runs (.pinDone k) s fun t => PinFailed s t k) ∧
    (k.val ∉ s.xlt.pinFail → pinHeld s k ≤ 4096 → ∀ a, pinMissing s k = some a → Runs (.pinDone k) s fun t =>
      XltAsked t (a / 4096 * 4096) (600 + k.val) ∧ t = { s with regs := t.regs, xlt := t.xlt }) ∧
    (k.val ∉ s.xlt.pinFail → pinMissing s k = none → locks ≠ none → Runs (.pinDone k) s fun t => flag t (ctxB k) R.XLT_CTX_STAT_PINNED = true ∧
      flag t (ctxB k) R.XLT_CTX_CFG_EN = true ∧ flag t (ctxB k) R.XLT_CTX_STAT_PBUSY = false ∧
      (∀ e ∈ t.xlt.atc, ∀ w ∈ pinWindows s k, Covers (ctxPv s k) (ctxPasid s k) w.1 w.2 e → 600 + k.val ∈ e.locks) ∧
      t = { s with regs := t.regs, xlt := t.xlt } ∧
      RegsBut s t ([R.XLT_CTX_CFG_EN, R.XLT_CTX_STAT_PINNED, R.XLT_CTX_STAT_PBUSY].map fun f => fieldKey (ctxB k) f 0))) ∧
  (∀ (s : State) (wr_ rank2 : Bool) (y : Stream) (x : Job), Canonical s → linkOpen s = true → s.xlt.streams.find? (devReady s wr_) = none →
    nextStream s wr_ = some (y, rank2) → getJob? s y.job = some x →
    let a := y.va + y.done
    let n := min (y.len - y.done) (256 - a % 256)
    let part := (y.data.drop y.done).take n
    let may := y.checked = true ∨ ctxCheck s x y.va y.len = none
    y.wr = wr_ ∧
    (may → rtUnlocked s x y = false →
      (∀ pa, streamWhere s x y = .host pa → Runs (.granuleIssue wr_) s fun t => t.devMem = s.devMem ∧
        (y.wr = true → StoresAt s.hostMem t.hostMem pa part ∧ t.xlt.reads = s.xlt.reads) ∧
        (y.wr = false → t.hostMem = s.hostMem ∧ t.xlt.reads = s.xlt.reads ++ [⟨s.xlt.tagNext, y.job, a, pa, n, jobPv s x, jobPasid s x⟩] ∧
          t.xlt.tagNext = s.xlt.tagNext + 1) ∧
        (y.done + n < y.len → { y with done := y.done + n, checked := true, page := some (a / 4096) } ∈ t.xlt.streams)) ∧
      (∀ st, streamWhere s x y = .fail st → Ordinary s y.job → Runs (.granuleIssue wr_) s fun t => JobEnds t y.job st 0 0 0 ∧ SameBytes s t) ∧
      (streamWhere s x y = .miss → y.ctx < 56 → Runs (.granuleIssue wr_) s fun t => { y with wait := true } ∈ t.xlt.streams ∧
        XltAsked t (a / 4096 * 4096) (1000 + y.job) ∧ t = { s with regs := t.regs, xlt := t.xlt, rings := t.rings })) ∧
    (∀ st, y.checked = false → ctxCheck s x y.va y.len = some st → Ordinary s y.job → Runs (.granuleIssue wr_) s fun t =>
      JobEnds t y.job st 0 0 0 ∧ SameBytes s t) ∧
    (may → 56 ≤ y.ctx → (rtUnlocked s x y = true ∨ streamWhere s x y = .miss) → Ordinary s y.job → Runs (.granuleIssue wr_) s fun t =>
      XltEnds s t y.job 0x0203 a ∧ Counted s t (ctxB y.ctx) R.XLT_CTX_FAULTS_FAULTS ∧ (detNo 0x25 y.ctx, 0) ∈ t.flt.signals)) ∧
  (∀ (s : State) (wr_ : Bool) (y : Stream) (x : Job), Canonical s → s.xlt.streams.find? (devReady s wr_) = some y → getJob? s y.job = some x →
    let a := y.va + y.done
    let n := min (y.len - y.done) (256 - a % 256)
    y.wr = wr_ ∧
    (∀ d, streamWhere s x y = .dev d →
      (granuleHeld s y d ≠ [] → Runs (.granuleIssue wr_) s fun t => (∀ i, i < n → (d + i) / 64 ∈ s.sf → (d + i) / 64 ∈ t.biAsked) ∧
        t = { s with biAsked := t.biAsked }) ∧
      (granuleHeld s y d = [] → y.wr = true → Runs (.granuleIssue wr_) s fun t =>
        StoresAt s.devMem t.devMem d ((y.data.drop y.done).take n) ∧ t.hostMem = s.hostMem) ∧
      (granuleHeld s y d = [] → y.wr = false → Runs (.granuleIssue wr_) s fun t => SameBytes s t ∧ t.xlt.reads = s.xlt.reads)) ∧
    ∀ st, streamWhere s x y = .fail st → Ordinary s y.job → Runs (.granuleIssue wr_) s fun t => JobEnds t y.job st 0 0 0 ∧ SameBytes s t) ∧
  (∀ (s : State) (va pa : Nat) (l : List Nat), Canonical s → linkOpen s = true → sealed s = false → s.xlt.streams.find? (devReady s true) = none →
    nextStream s true = none → s.ring.snapOut = some (va, l) →
    let k := rd s glb R.TIM_SNAPBUF_CTX_CTX
    l ≠ [] → (∀ i, i < l.length → resolve s (ctxPv s k) (ctxPasid s k) (va + i) true = .host (pa + i)) → Runs (.granuleIssue true) s fun t =>
      StoresAt s.hostMem t.hostMem pa l ∧ t.ring = { s.ring with snapOut := none } ∧ t = { s with hostMem := t.hostMem, ring := t.ring }) ∧
  ∀ (s : State) (tag : Nat) (r : ReadTag) (x : Job), flag s glb R.HAT_LINK_STAT_UP = true → s.xlt.reads.find? (·.tagNo == tag) = some r → getJob? s r.job = some x →
    (Runs (.dmaReadCompletion tag true) s fun t => getJob? t r.job = some { x with buf := (r.va, hostBytes s r.pa r.len) :: x.buf } ∧
      t.xlt = { s.xlt with reads := s.xlt.reads.erase r } ∧ (∀ k, k ≠ r.job → getJob? t k = getJob? s k) ∧ t = { s with xlt := t.xlt, rings := t.rings }) ∧
    (Ordinary s r.job → Runs (.dmaReadCompletion tag false) s fun t => XltEnds s t r.job 0x0200 r.va)

/-- R249, R257, R319 to R321, R323, R331: training that succeeds makes the stack active at FULL with both sets, a failing channel leaves it unused; a
change of point starts while no real-time master is active and ends with CDAT_CHG; a retrain is asked for, waits, runs, and runs once more for a failing
channel, which then leaves service; a row due is repaired while its sector's masters are idle, or no spare row is left. -/
def Obligations.MemoryPoints : Prop :=
  (∀ (s : State) (results : Nat), memState s = 1 →
    (maskBits 16 results = [] → Runs (.hbmTrainingDone results) s fun t => memState t = 2 ∧ rd t glb R.MEM_STAT_CUR = 0 ∧ flag t glb R.MEM_STAT_SET_FULL = true ∧
      flag t glb R.MEM_STAT_SET_HALF = true ∧ flag t glb R.HAT_HDM_STAT_MEM_ACTIVE = true ∧ flag t glb R.GLB_ST_STAT_MEMOK = true ∧
      rd t glb R.MEM_TEMP_TRAINT = rd s glb R.MEM_TEMP_TEMP % 2 ^ 16 ∧ t.hbm = { s.hbm with otherT := rd s glb R.MEM_TEMP_TEMP } ∧
      t = { s with regs := t.regs, hbm := t.hbm } ∧ RegsBut s t ([R.MEM_STAT_STATE, R.MEM_STAT_CUR, R.MEM_STAT_SET_FULL, R.MEM_STAT_SET_HALF, R.HAT_HDM_STAT_MEM_ACTIVE, R.GLB_ST_STAT_MEMOK,
        R.MEM_TEMP_TRAINT].map fun f => fieldKey glb f 0)) ∧
    (maskBits 16 results ≠ [] → Runs (.hbmTrainingDone results) s fun t => memState t = 6 ∧
      rd t glb R.MEM_CHSTAT_FAIL = (rd s glb R.MEM_CHSTAT_FAIL ||| results % 2 ^ 16) % 2 ^ 16 ∧
      t.flt.signals = s.flt.signals ++ (maskBits 16 results).map (fun h => (detNo 0x14 h, 0)) ∧ t = { s with regs := t.regs, flt := t.flt } ∧
      RegsBut s t [fieldKey glb R.MEM_STAT_STATE 0, fieldKey glb R.MEM_CHSTAT_FAIL 0])) ∧
  (∀ s : State, memState s = 2 → anyRtActive s = false → s.hbm.repairing = [] → rd s glb R.MEM_CTL_POINT ≠ rd s glb R.MEM_STAT_CUR →
    Runs .pointChangeStart s fun t => memState t = 3 ∧ t.hbm = { s.hbm with target := rd s glb R.MEM_CTL_POINT } ∧ t = { s with regs := t.regs, hbm := t.hbm } ∧
      RegsBut s t [fieldKey glb R.MEM_STAT_STATE 0]) ∧
  (∀ s : State, (memState s ≠ 2 ∨ anyRtActive s = true ∨ rd s glb R.MEM_CTL_POINT = rd s glb R.MEM_STAT_CUR) → Runs .pointChangeStart s fun t => t = s) ∧
  (∀ s : State, memState s = 3 → Runs .pointChangeDone s fun t => memState t = 2 ∧ rd t glb R.MEM_STAT_CUR = s.hbm.target % 2 ∧
    flag t glb R.HAT_HDM_STAT_CDAT_CHG = true ∧ t.rings.events = s.rings.events ++ [⟨0x03, 0, s.hbm.target, 0, s.now⟩] ∧
    rd t glb R.MEM_TEMP_TRAINT = s.hbm.otherT % 2 ^ 16 ∧ t.hbm.otherT = rd s glb R.MEM_TEMP_TRAINT ∧
    (s.xlt.memReads = [] → t = { s with regs := t.regs, rings := { s.rings with events := t.rings.events }, hbm := { s.hbm with otherT := t.hbm.otherT } } ∧
      RegsBut s t ([R.MEM_STAT_STATE, R.MEM_STAT_CUR, R.HAT_HDM_STAT_CDAT_CHG, R.MEM_TEMP_TRAINT].map fun f => fieldKey glb f 0))) ∧
  (∀ s : State, HostOpen s → (flag s glb R.MEM_STAT_SET_FULL = true → Runs .retrainRequest s fun t => flag t glb R.MEM_STAT_RTPEND = true ∧
      t = { s with regs := t.regs } ∧ RegsBut s t [fieldKey glb R.MEM_STAT_RTPEND 0]) ∧
    (flag s glb R.MEM_STAT_SET_FULL = false → Runs .retrainRequest s fun t => t = s)) ∧
  (∀ s : State, flag s glb R.MEM_STAT_RTPEND = true → memState s = 2 → anyRtActive s = false → s.hbm.repairing = [] →
    rd s glb R.MEM_CTL_POINT = rd s glb R.MEM_STAT_CUR → Runs .retrainStart s fun t => memState t = 5 ∧ flag t glb R.MEM_STAT_RTPEND = false ∧
      t.hbm = { s.hbm with retry := [] } ∧ t = { s with regs := t.regs, hbm := t.hbm } ∧
      RegsBut s t [fieldKey glb R.MEM_STAT_STATE 0, fieldKey glb R.MEM_STAT_RTPEND 0]) ∧
  (∀ (s : State) (results : Nat), memState s = 5 →
    let bad := (maskBits 16 results).filter fun h => !bit (rd s glb R.MEM_CHSTAT_FAIL) h
    (bad ≠ [] → (∀ h ∈ bad, h ∉ s.hbm.retry) → Runs (.retrainDone results) s fun t => t = { s with hbm := { s.hbm with retry := s.hbm.retry ++ bad } }) ∧
    (bad = [] → Runs (.retrainDone results) s fun t => memState t = 2 ∧ rd t glb R.MEM_TEMP_TRAINT = rd s glb R.MEM_TEMP_TEMP % 2 ^ 16 ∧
      rd t glb R.MEM_CHSTAT_FAIL = rd s glb R.MEM_CHSTAT_FAIL ∧ (s.xlt.memReads = [] → t = { s with regs := t.regs } ∧
      RegsBut s t ([R.MEM_STAT_STATE, R.MEM_TEMP_TRAINT].map fun f => fieldKey glb f 0))) ∧
    (bad ≠ [] → (∀ h ∈ bad, h ∈ s.hbm.retry) → (∀ e ∈ s.gangs, ∀ i ∈ e.2.sites, i < 256) →
      Runs (.retrainDone results) s fun t => memState t = 2 ∧ (∀ h, h < 16 → (bit (rd t glb R.MEM_CHSTAT_FAIL) h = true ↔
        bit (rd s glb R.MEM_CHSTAT_FAIL) h = true ∨ h ∈ bad)) ∧ ∀ h ∈ bad, (detNo 0x14 h, 0) ∈ t.flt.signals)) ∧
  (∀ (s : State) (x : PcIx) (e : Nat × Nat), s.hbm.due.find? (fun e => e.1 == x.val) = some e →
    ((memState s ≠ 2 ∨ rtActive s (x.val / 8) = true) → Runs (.rowRepairStart x) s fun t => t = s) ∧
    (memState s = 2 → rtActive s (x.val / 8) = false → (∀ r ∈ s.hbm.repairing, r.1 ≠ x.val) → Runs (.rowRepairStart x) s fun t =>
      t.hbm = { s.hbm with due := s.hbm.due.erase e, repairing := e :: s.hbm.repairing } ∧ (flag t glb R.MEM_STAT_RPEND = true ↔ t.hbm.due ≠ []) ∧
      t = { s with regs := t.regs, hbm := t.hbm } ∧ RegsBut s t [fieldKey glb R.MEM_STAT_RPEND 0])) ∧
  ∀ (s : State) (x : PcIx) (spare : Bool) (e : Nat × Nat), s.hbm.repairing.find? (fun e => e.1 == x.val) = some e → Runs (.rowRepairDone x spare) s fun t =>
    t.hbm.repairing = s.hbm.repairing.erase e ∧ mapGet? t.hbm.occ e.2 = none ∧
    (spare = true → Counted s t glb R.MEM_PPR_DONE ∧ t.flt.signals = s.flt.signals ++ [(detNo 0x17 (x.val / 2), 0)]) ∧
    (spare = false → flag t glb R.MEM_PPR_EXH = true ∧ t.flt.signals = s.flt.signals ++ [(detNo 0x16 (x.val / 2), 0)]) ∧ t.badLines = s.badLines ∧
    t = { s with regs := t.regs, hbm := t.hbm, flt := t.flt } ∧ RegsBut s t [fieldKey glb R.MEM_PPR_DONE 0, fieldKey glb R.MEM_PPR_EXH 0]

/-- R317, R318, R324, R325, R327 to R330: a refresh that falls due goes to a bank without real-time requests, is postponed, or at a debt of 8 is forced and
counted while real-time requests are held, until their release; a request is carried out by rank and its ECC judgement delivered,
corrected and written back, or counted uncorrectable; postponed and neighbour refreshes go at rank 3; the scrub takes the next line where
nothing else waits; a row idle for its time closes. -/
def Obligations.MemoryRequests : Prop :=
  (∀ (s : State) (x : PcIx), memState s = 2 →
    ((∃ b, FreeBank s x b) → Runs (.refreshDue x) s fun t => ∃ b, FreeBank s x b ∧ BankRefreshed s t x b ∧ debtOf t x = debtOf s x ∧
      t = { s with hbm := { s.hbm with round := t.hbm.round, rows := t.hbm.rows } }) ∧
    ((∀ b, ¬FreeBank s x b) → debtOf s x < 8 → Runs (.refreshDue x) s fun t => debtOf t x = debtOf s x + 1 ∧
      t = { s with hbm := { s.hbm with debt := t.hbm.debt } }) ∧
    ((∀ b, ¬FreeBank s x b) → 8 ≤ debtOf s x → Runs (.refreshDue x) s fun t => debtOf t x = 0 ∧ x.val ∈ t.hbm.held ∧ Counted s t glb R.MEM_REF_FORCED_FORCED ∧
      t.hbm.reqs = s.hbm.reqs ∧ t = { s with regs := t.regs, hbm := t.hbm } ∧ RegsBut s t [fieldKey glb R.MEM_REF_FORCED_FORCED 0])) ∧
  (∀ (s : State) (x : PcIx), Runs (.forcedRefreshRelease x) s fun t => x.val ∉ t.hbm.held ∧ (∀ y, y ≠ x.val → (y ∈ t.hbm.held ↔ y ∈ s.hbm.held)) ∧
    t = { s with hbm := { s.hbm with held := t.hbm.held } }) ∧
  (∀ (s : State) (x : PcIx) (ecc : EccResult) (r : MemReq), memState s = 2 → nextReq s x = some r → (r.rank = 2 ∨ rank3 s x = none) →
    let bad := s.badLines.contains r.line || ecc == .uncorrectable
    r ∈ s.hbm.reqs ∧ pcOf r.line = x ∧ x.val ∉ s.hbm.held ∧
    (r.wr = true → Runs (.memRequestIssue x ecc) s fun t => t.hbm.reqs = s.hbm.reqs.erase r ∧ SameBytes s t ∧ t.rings = s.rings ∧ t.tellers = s.tellers) ∧
    (r.wr = false → bad = false → r.kind = 5 → ∀ y, getJob? s r.who = some y → Runs (.memRequestIssue x ecc) s fun t =>
      getJob? t r.who = some { y with buf := (r.va, devBytes s (r.line * 64) 64) :: y.buf } ∧ (ecc = .good → t.hbm.reqs = s.hbm.reqs.erase r) ∧
      (ecc = .corrected → Corrected s t r.line) ∧ SameBytes s t) ∧
    (r.wr = false → bad = false → (r.kind = 3 ∨ r.kind = 4) → Runs (.memRequestIssue x ecc) s fun t =>
      (getTel t r.who).loads = (getTel s r.who).loads.map (fun l => if l.val.isNone && l.line == r.line then
        { l with val := some (devBytes s (r.line * 64 + l.off) (if l.t < 8 then 8 else 64)) } else l) ∧ TellersBut s t [r.who] ∧
      (ecc = .corrected → Corrected s t r.line) ∧ SameBytes s t) ∧
    (r.wr = false → bad = true → r.kind = 5 → Ordinary s r.who → Runs (.memRequestIssue x ecc) s fun t => JobEnds t r.who 0x0760 0 0 0 ∧
      Uncorrectable s t r.line false ∧ SameBytes s t) ∧
    (r.wr = false → bad = true → r.kind ≠ 0 → r.kind ≠ 5 → Runs (.memRequestIssue x ecc) s fun t => Uncorrectable s t r.line false ∧ SameBytes s t ∧
      ((r.kind ≠ 3 ∧ r.kind ≠ 4) ∨ (getTel s r.who).item = none → t.rings = s.rings) ∧
      ((r.kind = 3 ∨ r.kind = 4) → ∀ j k, (getTel s r.who).item = some (j, k) → Ordinary s j → JobEnds t j 0x0760 0 0 0)) ∧
    (r.wr = false → bad = true → r.kind = 0 → Runs (.memRequestIssue x ecc) s fun t =>
      Counted s t glb R.MEM_UE_UE ∧ (detNo 0x15 (pcOf r.line / 2), 2 ^ 16) ∈ t.flt.signals) ∧
    (r.wr = true → closesPage s r = true → Runs (.memRequestIssue x ecc) s fun t => mapGet? t.hbm.rows (64 * x + bankOf r.line) = none) ∧
    (r.wr = true → closesPage s r = false → Runs (.memRequestIssue x ecc) s fun t => mapGet? t.hbm.rows (64 * x + bankOf r.line) = some (rowOf r.line))) ∧
  (∀ (s : State) (x : PcIx) (ecc : EccResult), memState s = 2 → x.val ∉ s.hbm.held → (∀ r, nextReq s x = some r → r.rank ≠ 2) →
    ((∃ b, FreeBank s x b) → 0 < debtOf s x → Runs (.memRequestIssue x ecc) s fun t => (∃ b, FreeBank s x b ∧ BankRefreshed s t x b) ∧
      debtOf t x = debtOf s x - 1 ∧ t = { s with hbm := { s.hbm with round := t.hbm.round, rows := t.hbm.rows, debt := t.hbm.debt } }) ∧
    (debtOf s x = 0 → 0 < mapGet s.hbm.nrr x 0 → Runs (.memRequestIssue x ecc) s fun t => Counted s t glb R.MEM_NRR_NRR ∧
      mapGet t.hbm.nrr x 0 = mapGet s.hbm.nrr x 0 - 1 ∧ t = { s with regs := t.regs, hbm := { s.hbm with nrr := t.hbm.nrr } } ∧
      RegsBut s t [fieldKey glb R.MEM_NRR_NRR 0])) ∧
  (∀ (s : State) (x : PcIx) (ecc : EccResult), memState s = 2 → x.val ∉ s.hbm.held → nextReq s x = none →
    let n := mapGet s.hbm.patrol x 0
    let line := (x.val / 8 * homeSize + n / 4 * 2048 + x.val % 8 * 256) / 64 + n % 4
    Runs (.patrolScrub x ecc) s fun t => mapGet t.hbm.patrol x 0 = (n + 1) % (homeSize / 512) ∧ SameBytes s t ∧
      ((line ∈ s.badLines ∨ ecc = .uncorrectable) → Uncorrectable s t line false) ∧ (line ∉ s.badLines → ecc = .corrected → Corrected s t line) ∧
      (line ∉ s.badLines → ecc = .good → RegsBut s t [fieldKey glb R.MEM_NRR_DROP_DROP 0] ∧ t.hbm.reqs = s.hbm.reqs) ∧
      mapGet? t.hbm.rows (64 * x + bankOf line) = none ∧
      t = { s with regs := t.regs, hbm := t.hbm, badLines := t.badLines, flt := t.flt, fresh := t.fresh }) ∧
  ∀ (s : State) (x : PcIx) (bank : Nat), bank < 64 → Runs (.rowIdleClose x bank) s fun t => mapGet? t.hbm.rows (64 * x + bank) = none ∧
    (∀ k, k ≠ 64 * x.val + bank → mapGet? t.hbm.rows k = mapGet? s.hbm.rows k) ∧ t = { s with hbm := { s.hbm with rows := t.hbm.rows } }

/-- R338 to R344, R357, R364: the loss of a reference switches to the other or begins holdover; its return ends holdover in a slew; reversion follows
`REVERT`; a slew that ends has moved ring time; SET steps a device that is not live, and is refused on one that is; JOIN takes its value; a missing TIME
frame makes a device that is not the master FREE; a Strum edge is stray, measured, or sets ring time. R391, R436: the inputs are ignored in cold reset and in
SEALED, the Strum input in DORMANT and WATCH too. The sizes of a switch-over step
and of the holdover slew are free values (log entries on them). -/
def Obligations.References : Prop :=
  (∀ (s : State) (b : Bool), (s.boot.por || sealed s) = true → Runs (.referenceLost b) s (fun t => t = s) ∧ Runs (.referencePresent b) s (fun t => t = s) ∧
    ∀ tau, Runs (.strumEdge tau) s fun t => t = s) ∧
  (∀ (s : State) (b : Bool), s.boot.por = false → sealed s = false →
    (flag s glb R.TIM_REF_STAT_HOLD = true → Runs (.referenceLost b) s fun t => flag t glb (refField b) = false ∧ t = { s with regs := t.regs } ∧
      RegsBut s t [fieldKey glb (refField b) 0]) ∧
    (flag s glb R.TIM_REF_STAT_HOLD = false → flag s glb (refField (!b)) = false → Runs (.referenceLost b) s fun t => flag t glb (refField b) = false ∧
      flag t glb R.TIM_REF_STAT_HOLD = true ∧ LevelSet t 0x1A 0 True ∧ QualShown t ∧ t = { s with regs := t.regs, flt := t.flt } ∧
      RegsBut s t ([refField b, R.TIM_REF_STAT_HOLD, R.TIM_STAT_QUAL].map fun f => fieldKey glb f 0)) ∧
    (flag s glb R.TIM_REF_STAT_HOLD = false → flag s glb (refField (!b)) = true → flag s glb R.TIM_REF_STAT_SEL = b → Runs (.referenceLost b) s fun t =>
      flag t glb (refField b) = false ∧ RefSwitched s t (!b)) ∧
    (flag s glb R.TIM_REF_STAT_HOLD = true → Runs (.referencePresent b) s fun t => flag t glb (refField b) = true ∧ flag t glb R.TIM_REF_STAT_HOLD = false ∧
      flag t glb R.TIM_REF_STAT_SEL = b ∧ LevelSet t 0x1A 0 False ∧ flag t glb R.TIM_STAT_SLEWING = true ∧ t.ring.holdSlew = true ∧ QualShown t ∧
      t = { s with regs := t.regs, flt := t.flt, ring := t.ring, fresh := t.fresh }) ∧
    (flag s glb R.TIM_REF_STAT_HOLD = false → Runs (.referencePresent b) s fun t => flag t glb (refField b) = true ∧ t = { s with regs := t.regs } ∧
      RegsBut s t [fieldKey glb (refField b) 0])) ∧
  (∀ s : State, let p := flag s glb R.TIM_REF_CTL_PREF
    (flag s glb R.TIM_REF_CTL_REVERT = true → flag s glb R.TIM_REF_STAT_HOLD = false → flag s glb R.TIM_REF_STAT_SEL = !p → flag s glb (refField p) = true →
      Runs .referenceRevert s fun t => RefSwitched s t p) ∧
    ((flag s glb R.TIM_REF_CTL_REVERT = false ∨ flag s glb (refField p) = false ∨ flag s glb R.TIM_REF_STAT_SEL = p) → Runs .referenceRevert s fun t => t = s)) ∧
  (∀ s : State, flag s glb R.TIM_STAT_SLEWING = true → Runs .slewEnd s fun t => t.now = ((s.now : Int) + s.ring.slew).toNat ∧
    t.ring = { s.ring with slew := 0, holdSlew := false } ∧ flag t glb R.TIM_STAT_SLEWING = false ∧ QualShown t ∧
    t = { s with now := t.now, regs := t.regs, ring := t.ring } ∧ RegsBut s t [fieldKey glb R.TIM_STAT_SLEWING 0, fieldKey glb R.TIM_STAT_QUAL 0]) ∧
  (∀ s : State, HostOpen s → (timeLive s = true → Runs .timeSet s fun t => flag t glb R.TIM_STAT_REFUSED = true ∧ t = { s with regs := t.regs } ∧
      RegsBut s t [fieldKey glb R.TIM_STAT_REFUSED 0]) ∧
    (timeLive s = false → Runs .timeSet s fun t =>
      t.now = ((rd s glb R.TIM_SET2_SECL + rd s glb R.TIM_SET3_SECH * 2 ^ 32) * 1000000000 + rd s glb R.TIM_SET1_NS) * 65536 + rd s glb R.TIM_SET0_FRAC ∧
      t.ring.everSet = true ∧ QualShown t ∧ t = { s with now := t.now, regs := t.regs, ring := t.ring } ∧ RegsBut s t [fieldKey glb R.TIM_STAT_QUAL 0])) ∧
  (∀ (s : State) (v : Bool), HostOpen s → Runs (.joinWrite v) s fun t => flag t glb R.TIM_CTL_JOIN = v ∧ t = { s with regs := t.regs } ∧
    RegsBut s t [fieldKey glb R.TIM_CTL_JOIN 0]) ∧
  (∀ s : State, (ringPosition s = 0 → Runs .timeFrameTimeout s fun t => t = s) ∧
    (ringPosition s ≠ 0 → Runs .timeFrameTimeout s fun t => t.ring = { s.ring with noFrame := true } ∧ QualShown t ∧ t = { s with regs := t.regs, ring := t.ring } ∧
      RegsBut s t [fieldKey glb R.TIM_STAT_QUAL 0])) ∧
  (∀ (s : State) (tau : Nat), powerReady s = false → Runs (.strumEdge tau) s fun t => t = s) ∧
  ∀ (s : State) (tau : Nat), s.boot.por = false → sealed s = false → powerReady s = true →
    let sec : Int := 65536000000000
    let x : Int := (tau : Int) - signed 32 (rd s glb R.TIM_STRUM_DLY_DLY)
    let ofs := x - (2 * x + sec) / (2 * sec) * sec
    let stray := (∃ a, s.ring.strumAt = some a ∧ tau < a + nsec 100000000) ∨ nsec 100000000 < ofs.natAbs
    let mode := rd s glb R.TIM_STRUM_CTL_MODE
    (stray → Runs (.strumEdge tau) s fun t => flag t glb R.TIM_STRUM_STAT_SEEN = true ∧ flag t glb R.TIM_STRUM_STAT_STRAY = true ∧
      t = { s with now := max s.now tau, regs := t.regs, ring := { s.ring with strumAt := some tau } } ∧
      RegsBut s t [fieldKey glb R.TIM_STRUM_STAT_SEEN 0, fieldKey glb R.TIM_STRUM_STAT_STRAY 0]) ∧
    (¬stray → mode = 0 → Runs (.strumEdge tau) s fun t => flag t glb R.TIM_STRUM_STAT_SEEN = true ∧
      t = { s with now := max s.now tau, regs := t.regs, ring := { s.ring with strumAt := some tau } } ∧ RegsBut s t [fieldKey glb R.TIM_STRUM_STAT_SEEN 0]) ∧
    (¬stray → mode = 1 → Runs (.strumEdge tau) s fun t => flag t glb R.TIM_STRUM_STAT_SEEN = true ∧ StrumMeasured s t tau ∧
      t = { s with now := t.now, regs := t.regs, ring := t.ring }) ∧
    (¬stray → mode = 2 → timeLive s = true → Runs (.strumEdge tau) s fun t => flag t glb R.TIM_STRUM_STAT_SETFAIL = true ∧ StrumMeasured s t tau ∧
      rd t glb R.TIM_STRUM_CTL_MODE = 2) ∧
    (¬stray → mode = 2 → timeLive s = false → Runs (.strumEdge tau) s fun t => flag t glb R.TIM_STRUM_STAT_SETDONE = true ∧ rd t glb R.TIM_STRUM_CTL_MODE = 1 ∧
      t.now = (((max s.now tau : Nat) : Int) + ((((rd s glb R.TIM_STRUM_SET_LO_SEC + rd s glb R.TIM_STRUM_SET_HI_SEC * 2 ^ 32) * 65536000000000 : Nat) : Int) - x)).toNat ∧
      t.ring.everSet = true ∧ QualShown t ∧ t = { s with now := t.now, regs := t.regs, ring := t.ring })

/-- R341, R343, R346 to R351, R353 to R356, R360: a bad, foreign, returned or overrun frame is dropped and counted as R350 says; a valid TIME frame steers; PDELAY_REQ is
answered on the return pair and PDELAY_RESP gives a delay sample; BCAST is a trigger, a jump or, enabled, an abort; MSG is delivered or
reports; SNAP is pending or late; lanes gain and lose block lock; and the transmitter sends the first frame of R353's order at its boundary. -/
def Obligations.RingFrames : Prop :=
  (∀ (s : State) (f : Frame), linkIn s ≠ 0 →
    let foreign := frameRing f ≠ ringNumber s ∨ frameType f < 1 ∨ 6 < frameType f
    (frameCrcOk f = false → Runs (.frameDrop f) s fun t => Counted s t glb R.TIM_RING_CRC_COUNT ∧ t = { s with regs := t.regs } ∧
      RegsBut s t [fieldKey glb R.TIM_RING_CRC_COUNT 0]) ∧
    (frameCrcOk f = true → (foreign ∨ (frameSrc f ≠ ringPosition s ∧ frameHops f = 31)) → Runs (.frameDrop f) s fun t => Counted s t glb R.TIM_RING_DROP_COUNT ∧
      t = { s with regs := t.regs } ∧ RegsBut s t [fieldKey glb R.TIM_RING_DROP_COUNT 0]) ∧
    (frameCrcOk f = true → ¬foreign → frameSrc f = ringPosition s → Runs (.frameDrop f) s fun t => t = s)) ∧
  (∀ (s : State) (f : Frame) (tau : Nat), Accepted s f 1 → ForMe s f →
    let q := frameLe (framePay f) 0 1 % 16
    let valid := ringPosition s ≠ 0 ∧ frameSrc f = 0 ∧ frameDlyInv f = false ∧ q ≠ 3
    let offs := (((frameOrigin f : Int) + frameCorr f - (tau : Int)) :: s.ring.offs).take 8
    let m := meanInt offs
    let big := rd s glb R.TIM_CFG_STEPTH * nsec 10 < m.natAbs
    Runs (.timeFrame f tau) s fun t => Passed s t f tau ∧
      (¬valid → t.ring.offs = s.ring.offs ∧ t.now = max s.now tau) ∧
      (valid → t.ring.offs = offs ∧ t.ring.qualIn = q ∧ t.ring.noFrame = false ∧ QualShown t ∧
        rd t glb R.TIM_OFS_OFS = unsigned 32 (clampInt (-2147483648) 2147483647 m) % 2 ^ 32 ∧
        (timeLive s = false → (rd s glb R.TIM_STAT_QUAL = 3 ∨ big) → t.now = (((max s.now tau : Nat) : Int) + m).toNat ∧ t.ring.everSet = true) ∧
        (¬(timeLive s = false ∧ (rd s glb R.TIM_STAT_QUAL = 3 ∨ big)) → t.now = max s.now tau ∧ t.ring.slew = m ∧ flag t glb R.TIM_STAT_SLEWING = (m != 0) ∧
          (big → flag t glb R.TIM_STAT_OFSBIG = true ∧ (detNo 0x1C 0, 0) ∈ t.flt.signals)))) ∧
  (∀ (s : State) (f : Frame) (tau : Nat), Accepted s f 2 → Runs (.pdelayReq f tau) s fun t =>
    let b := blockAt (max tau s.ring.retFree)
    let head := 3 + 2 ^ 4 + ringPosition s * 2 ^ 16 + frameSrc f * 2 ^ 24 + ringNumber s * 2 ^ 32 + mapGet s.ring.seqs 3 0 * 2 ^ 48
    t.ring.lastRet = some (b, makeFrame head b ((b - tau : Nat) : Int) (leBytes 2 (frameSeq f))) ∧ t.ring.retFree = b + nsec 64 ∧ t.ring.fwd = s.ring.fwd ∧
    t = { s with now := max s.now tau, regs := t.regs, flt := t.flt, ring := t.ring }) ∧
  (∀ (s : State) (f : Frame) (tau t1 seq : Nat), linkOut s ≠ 0 → frameCrcOk f = true → frameType f = 3 → frameRing f = ringNumber s → s.ring.req = some (t1, seq) →
    frameLe (framePay f) 0 2 = seq → Runs (.pdelayResp f tau) s fun t =>
      DelayTaken s t (((tau : Int) - (t1 : Int) - frameCorr f + signed 32 (rd s glb R.TIM_LINK_ASYM_ASYM)) / 2) ∧ t.ring.req = none ∧
      t = { s with now := max s.now tau, fresh := t.fresh, regs := t.regs, flt := t.flt, ring := t.ring }) ∧
  (∀ (s : State) (f : Frame) (a : Nat), Accepted s f 4 → ForMe s f →
    let head := frameLe (framePay f) 0 8
    let tau := argTime (frameLe (framePay f) 8 8) (frameLe (framePay f) 16 8)
    let kind := head % 16
    let id := head / 2 ^ 8 % 2 ^ 8
    ((kind = 1 ∨ kind = 2) → max s.now a < tau → Runs (.bcastFrame f a) s fun t => Passed s t f a ∧ ∀ q, q < 4 →
      let on := flag s (secB q) R.DIG_TRIG_EN_BCAST = true ∧ rd s (secB q) R.DIG_TRIG_SRC_BCID = id ∧ digState s q ≠ 0
      (on → (getDig s q).bcast.length < 8 → getDig t q = { getDig s q with bcast := (getDig s q).bcast ++ [tau] }) ∧ (¬on → getDig t q = getDig s q)) ∧
    (kind = 3 → flag s glb R.TIM_BC_CTL_ABORT_EN = true → ∀ l g,
      s.gangs.filter (fun e => gangLive s e.2 && e.2.tiles.any fun u => bit (rd s glb R.TIM_BCAB_LO_TILES + rd s glb R.TIM_BCAB_HI_TILES * 2 ^ 32) u) = [(l, g)] →
      let n := latchVec { s with now := max (max s.now a) tau } g
      getGang? s l = some g → g.waiting = false → g.abort = none → gangArmed s g = false → endsBy g n = false → g.genNext ≤ n →
      Runs (.bcastFrame f a) s fun t => Passed s t f a ∧ GangTo s t l { g with abort := some (n, 0x0314) }) ∧
    (kind = 3 → flag s glb R.TIM_BC_CTL_ABORT_EN = false → Runs (.bcastFrame f a) s fun t => Passed s t f a ∧ t.gangs = s.gangs ∧ t.digs = s.digs)) ∧
  (∀ (s : State) (f : Frame) (tau : Nat), Accepted s f 5 → frameAll f = false → frameDst f = ringPosition s →
    let m := framePay f
    (frameReport f = false → msgRoleMode m = false → msgDst m < 192 → msgEpoch m = telEpoch s (msgDst m) → (getTel s (msgDst m)).inbox.length < 16 →
      Runs (.msgFrame f tau) s fun t => (getTel t (msgDst m)).inbox = (getTel s (msgDst m)).inbox ++ [m] ∧ t.ring.msgs = s.ring.msgs ∧ TellersBut s t [msgDst m] ∧
        Passed s t f tau ∧ SameBytes s t) ∧
    (∀ e, frameReport f = true → (getTel s (msgSrc m)).slots.find? (fun e => e.away && msgKey e.msg == msgKey m) = some e → Runs (.msgFrame f tau) s fun t =>
      (getTel t (msgSrc m)).slots = (getTel s (msgSrc m)).slots.erase e ∧ (getTel t (msgSrc m)).reports = (getTel s (msgSrc m)).reports ++ [m.take 16] ∧
      TellersBut s t [msgSrc m] ∧ SameBytes s t)) ∧
  (∀ (s : State) (f : Frame) (a : Nat), Accepted s f 6 → ForMe s f →
    let T := argTime (frameLe (framePay f) 0 8) (frameLe (framePay f) 8 8)
    ((T ≤ a ∨ 4 ≤ s.ring.snaps.length) → Runs (.snapFrame f a) s fun t => Counted s t glb R.TIM_SNAP_LATE_LATE ∧ (detNo 0x1D 0, 0) ∈ t.flt.signals ∧
      t.ring.snaps = s.ring.snaps ∧ Passed s t f a) ∧
    (a < T → s.ring.snaps.length < 4 → Runs (.snapFrame f a) s fun t => t.ring.snaps = s.ring.snaps ++ [⟨T, frameLe (framePay f) 16 4, true, none, false⟩] ∧
      rd t glb R.TIM_SNAP_STAT_PEND = s.ring.snaps.length + 1 ∧ Passed s t f a)) ∧
  (∀ (s : State) (out : Bool), let lane := if out then R.TIM_LINK_STAT_OUT else R.TIM_LINK_STAT_IN
    (powerUp s = true → sealed s = false → rd s glb lane = 0 → Runs (.blockLockGained out) s fun t => rd t glb lane = 1 ∧ t = { s with regs := t.regs, ring := t.ring } ∧
      (out = true → t.ring = { s.ring with samples := [], outliers := 0 }) ∧ (out = false → t.ring = s.ring) ∧ RegsBut s t [fieldKey glb lane 0]) ∧
    (rd s glb lane ≠ 0 → Runs (.blockLockLost out) s fun t => rd t glb lane = 0 ∧ flag t glb R.TIM_LINK_STAT_DOWN_SEEN = true ∧ LevelSet t 0x1B (b2n out) True ∧
      (out = true → t.ring = { s.ring with req := none }) ∧ (out = false → t.ring = s.ring) ∧ t = { s with regs := t.regs, flt := t.flt, ring := t.ring } ∧
      RegsBut s t [fieldKey glb lane 0, fieldKey glb R.TIM_LINK_STAT_DOWN_SEEN 0])) ∧
  (∀ s : State, (Runs .timePeriodTimer s fun t => t = { s with ring := { s.ring with timeDue := s.ring.timeDue || ringPosition s == 0 } }) ∧
    Runs .pdelayTimer s fun t => t = { s with ring := { s.ring with reqDue := true } }) ∧
  ∀ (s : State) (b : Nat), SendsAt s b →
    (∀ x, firstLaunch (allLaunches s) = some x → x.tl ≤ b → Runs .frameLaunch s fun t =>
      (rd s glb R.TIM_LINK_STAT_OUT = 2 → OwnFrame s t b x.type 0 true false x.payload) ∧ (rd s glb R.TIM_LINK_STAT_OUT ≠ 2 → t.ring.lastOut = s.ring.lastOut) ∧
      (x ∈ s.ring.launches → t.ring.launches = s.ring.launches.erase x) ∧
      (∀ j, x.job = some j → JobOpen s j → (∀ e ∈ s.gangs, e.2.job ≠ some j) → (∀ q, q < 4 → (getDig s q).job ≠ some j) →
        JobEnds t j (if rd s glb R.TIM_LINK_STAT_OUT ≠ 2 then 0x0372 else if x.late then 0x0070 else 0) (secOf b / 2 ^ 32)
          (fracOf b + nsOf b * 2 ^ 16) (secOf b % 2 ^ 32))) ∧
    ((∀ x, firstLaunch (allLaunches s) = some x → b < x.tl) → ∀ a f rest, s.ring.fwd = (a, f) :: rest → a + nsec 40 ≤ b → Runs .frameLaunch s fun t =>
      t.ring.lastOut = some (b, if rd s glb R.TIM_LINK_STAT_OUT = 2
        then makeFrame (frameHead f + 2 ^ 8) (frameOrigin f) (frameCorr f + ((b - a : Nat) : Int) + signed 32 (rd s glb R.TIM_LINK_DLY_DLY)) (framePay f)
        else makeFrame (setBit (frameHead f + 2 ^ 8) 40) (frameOrigin f) (frameCorr f) (framePay f)) ∧ t.ring.fwd = rest ∧ t.ring.outFree = b + nsec 64 ∧
      t = { s with now := max s.now b, ring := t.ring }) ∧
    ((∀ x, firstLaunch (allLaunches s) = some x → b < x.tl) → (∀ e, s.ring.fwd.head? = some e → b < readyAt e) →
      (s.ring.timeDue = true → Runs .frameLaunch s fun t => OwnFrame s t b 1 0 true false [rd s glb R.TIM_STAT_QUAL] ∧ t.ring.timeDue = false ∧
        t = { s with now := t.now, ring := t.ring }) ∧
      (s.ring.timeDue = false → s.ring.reqDue = true → Runs .frameLaunch s fun t => OwnFrame s t b 2 0 false false [] ∧
        t.ring.req = some (b, mapGet s.ring.seqs 2 0) ∧ t.ring.reqDue = false ∧ t = { s with now := t.now, ring := t.ring }) ∧
      (s.ring.timeDue = false → s.ring.reqDue = false → s.ring.fwd = [] → ∀ m more, s.ring.msgs = m :: more → Runs .frameLaunch s fun t =>
        OwnFrame s t b 5 m.2.1 false m.1 m.2.2 ∧ t.ring.msgs = more ∧ t = { s with now := t.now, ring := t.ring }))

/-- R356, R359 to R362: TIME_LAUNCH ends with ST_TIM_ARG, waits for room, or waits at the transmitter; SNAPSHOT ends with the first check that fails, or is
pending, with a SNAP frame on the ring; the earliest pending snapshot latches at its edge into the shadows, and its job writes
its record; it waits while a tile still owes the results of a vector that ended by the edge. -/
def Obligations.TimeJobs : Prop :=
  (∀ (s : State) (j : Nat) (x : Job), jobReady s j 0x60 = some x → x.phase = .dispatched →
    let good := arg x 0 % 16 = 4 ∧ arg x 0 / 2 ^ 8 % 2 ^ 5 = 24 ∧ (arg x 3 % 16 = 1 ∨ arg x 3 % 16 = 2 ∨ arg x 3 % 16 = 3)
    let tl := argTime (arg x 1) (arg x 2)
    (¬good → Runs (.timeLaunch j) s fun t => JobEnds t j 0x0170 0 0 0 ∧ t = { s with rings := t.rings }) ∧
    (good → 16 ≤ (s.ring.launches.filter (·.job.isSome)).length → Runs (.timeLaunch j) s fun t => t = s) ∧
    (good → (s.ring.launches.filter (·.job.isSome)).length < 16 → Runs (.timeLaunch j) s fun t =>
      t.ring = { s.ring with launches := s.ring.launches ++ [⟨tl, 4, leBytes 8 (arg x 3) ++ leBytes 8 (arg x 4) ++ leBytes 8 (arg x 5), some j, decide (tl < s.now)⟩] } ∧
      getJob? t j = some { x with phase := .running } ∧ (∀ k, k ≠ j → getJob? t k = getJob? s k) ∧ t = { s with rings := t.rings, ring := t.ring })) ∧
  (∀ (s : State) (j : Nat) (x : Job), jobReady s j 0x61 = some x → x.phase = .dispatched →
    let ring := bit x.flags 0
    let T := argTime (arg x 0) (arg x 1)
    let seqn := arg x 2 % 2 ^ 32
    let argsOk := 2912 ≤ arg x 4 ∧ arg x 3 ≠ 0
    let lead := usec (if ring then 200 else 2)
    (¬argsOk → Runs (.snapshot j) s fun t => JobEnds t j 0x0170 0 0 0 ∧ t = { s with rings := t.rings }) ∧
    (argsOk → T < s.now + lead → Runs (.snapshot j) s fun t => JobEnds t j 0x0370 0 0 0 ∧ t = { s with rings := t.rings }) ∧
    (argsOk → s.now + lead ≤ T → 4 ≤ s.ring.snaps.length → Runs (.snapshot j) s fun t => JobEnds t j 0x0371 0 0 0 ∧ t = { s with rings := t.rings }) ∧
    (argsOk → s.now + lead ≤ T → s.ring.snaps.length < 4 → Runs (.snapshot j) s fun t =>
      t.ring.snaps = s.ring.snaps ++ [⟨T, seqn, false, some j, ring && !outUp s⟩] ∧ rd t glb R.TIM_SNAP_STAT_PEND = s.ring.snaps.length + 1 ∧
      getJob? t j = some { x with phase := .running } ∧
      ((ring = true ∧ outUp s = true) → t.ring.launches = s.ring.launches ++
        [⟨s.now, 6, leBytes 8 (fracOf T + nsOf T * 2 ^ 16) ++ leBytes 8 (secOf T) ++ leBytes 8 seqn, none, false⟩]) ∧
      (¬(ring = true ∧ outUp s = true) → t.ring.launches = s.ring.launches) ∧ t = { s with regs := t.regs, rings := t.rings, ring := t.ring } ∧
      RegsBut s t [fieldKey glb R.TIM_SNAP_STAT_PEND 0])) ∧
  ∀ (s : State) (T : Nat), (∃ x ∈ s.ring.snaps, x.t = T) → (∀ x ∈ s.ring.snaps, T ≤ x.t) → s.ring.snaps.length ≤ 4 → Canonical s →
    let edge := (T + 32767) / 32768 * 32768
    let due := s.ring.snaps.filter (·.t == T)
    (latchOwed s edge = true → Runs .snapshotLatch s fun t => t = s) ∧
    (latchOwed s edge = false → Runs .snapshotLatch s fun t =>
      (∀ u, u < 48 → rd t (tileB u) R.TIL_SNAP_SEGCNT_SEGCNT = rd s (tileB u) R.TIL_SEQ_SEGCNT_SEGCNT % 2 ^ 32 ∧
        rd64 t (tileB u) R.TIL_SNAP_VCNT_LO_VCNT R.TIL_SNAP_VCNT_HI_VCNT = vcntAt s u edge % 2 ^ 64) ∧
      (∃ x, due.getLast? = some x ∧ rd t glb R.TIM_SNAP_SEQ_SEQN = x.seqn % 2 ^ 32) ∧ flag t glb R.TIM_SNAP_STAT_LATCHED = true ∧
      rd t glb R.TIM_SNAP_TIME0_FRAC = edge % 65536 ∧ rd t glb R.TIM_SNAP_TIME1_NS = edge / 65536 % 1000000000 ∧
      rd t glb R.TIM_SNAP_TIME2_SECL = edge / 65536 / 1000000000 % 2 ^ 32 ∧
      t.ring.snaps = s.ring.snaps.filter (·.t != T) ∧ rd t glb R.TIM_SNAP_STAT_PEND = t.ring.snaps.length ∧ t.now = max s.now edge ∧
      ∀ x j y d, due = [x] → x.frame = false → x.job = some j → getJob? s j = some y → jobEnded y = false → allDev s y (arg y 3) 2912 = some d →
        JobEnds t j (if x.noRing then 0x0372 else 0) x.seqn 2912 0 ∧ ∃ l, l.length = 2912 ∧ StoresAt s.devMem t.devMem d l ∧ t.hostMem = s.hostMem ∧
          l.take 40 = leBytes 8 (0x5C74 + ringNumber s * 2 ^ 16 + ringPosition s * 2 ^ 20 + x.seqn * 2 ^ 32) ++ timeWords T ++ timeWords edge)

/-- R284, R285, R369, R373, R392: CALIBRATE refuses a live tile or a running digitizer; it covers the items of every unit that
is not retired, and completes at once with nothing to do. -/
def Obligations.Calibrate : Prop :=
  ∀ (s : State) (j : Nat) (x : Job), JobStarts s j 0x50 x →
    let items := arg x 0
    let tiles := arg x 1 % 2 ^ 48
    let sectors := arg x 1 / 2 ^ 48 % 2 ^ 4
    let busy := (∃ u, u < 48 ∧ tiles.testBit u = true ∧ tileLive s u = true) ∨
      (items / 2 ^ 6 % 2 ^ 3 ≠ 0 ∧ ∃ q, q < 4 ∧ sectors.testBit q = true ∧ digState s q ≠ 0)
    (busy → Runs (.calibrate j) s fun t => JobEnds t j 0x0301 0 0 0) ∧
    (¬busy → (∀ e ∈ s.tiles, ∀ r ∈ e.2.remap.toList ++ e.2.remapQ, r.job ≠ some j) →
      Runs (.calibrate j) s fun t =>
        (∃ units, (∀ u, u ∈ units ↔ ∃ i n, u = i * 1024 + n ∧ i < 10 ∧ items.testBit i = true ∧
            ((1 ≤ i ∧ i ≤ 5 ∧ ∃ k p, n = k * 18 + p ∧ k < 48 ∧ tiles.testBit k = true ∧ p < 18 ∧ isRetired s k p = false) ∨
             (i = 9 ∧ n = 0) ∨ (¬(1 ≤ i ∧ i ≤ 5) ∧ i ≠ 9 ∧ n < 4 ∧ sectors.testBit n = true))) ∧
          (units ≠ [] → getJob? t j = some { x with phase := .running, units := units, tally := [0, 0, 0, 0], rec_ := [] } ∧
            flag t glb R.GLB_CAL_STAT_RUN = true ∧ RegsBut s t [fieldKey glb R.GLB_CAL_STAT_RUN 0] ∧
            (items / 2 ^ 6 % 2 ^ 3 ≠ 0 → ∀ q, q < 4 → sectors.testBit q = true → (getDig t q).pllOn = true) ∧
            t = { s with regs := t.regs, digs := t.digs, rings := t.rings }) ∧
          (units = [] → JobEnds t j 0 0 0 0)))

/-- R368 to R373, R386: an item that is next on its unit does not run where it needs another that is not valid and passed, or was not run in
this job (`RESULT` 2); keeps trims and assay and sets `PRE` where its precondition does not hold (`RESULT` 1), as STRUM does with no edge in
1.5 s; else writes trims and assay together, and a missed limit shows in `LIMIT`; item 4 also builds the slice's TDC tables anew (R83), an item
that folds in a tracking correction drops what was left to glide (R376), and a failed LEVREF retires one of the sector's references (R378).
R374: trims of a running digitizer wait. -/
def Obligations.CalibrationItems : Prop :=
  ∀ (s : State) (j unit : Nat) (x : Job),
    let n := fun k => x.tally.getD k 0
    let lref := fun (i : Nat) => if i = 0 then R.SEC_REF_STAT_LREF0_OK else R.SEC_REF_STAT_LREF1_OK
    (∀ (r : CalResult) (pre : Bool), trimWaits s r.item unit = true → ItemDue s j x r.item unit → Runs (.calItemDone j unit pre r) s fun t => t = s) ∧
    (∀ (r : CalResult) (pre : Bool), ItemDue s j x r.item unit → r.item < 10 → trimWaits s r.item unit = false →
      let run := Runs (.calItemDone j unit pre r) s
      let whole := x.units.filter (· != r.item * 1024 + unit) ≠ [] ∨ arg x 2 = 0
      let go := fun (t : State) (ks : List Nat) => whole →
        t = { s with regs := t.regs, rings := t.rings, slices := t.slices, tiles := t.tiles } ∧ RegsBut s t (fieldKey glb R.GLB_CAL_STAT_RUN 0 :: ks)
      let same := fun (t : State) => whole → t.slices = s.slices ∧ t.tiles = s.tiles
      let old := getSlice s (unit / 18) (unit % 18)
      let new := if r.item = 1 then { old with glideTrim := listSet old.glideTrim 0 0 } else if r.item = 3 then { old with glideTrim := listSet old.glideTrim 1 0 }
        else if r.item = 4 then { old with tdcRuns := old.tdcRuns + 1 } else old
      let unmet := ∃ e ∈ itemNeeds r.item unit, assayGood s e.1 e.2 = false ∨ (e.1 * 1024 + e.2) ∈ x.prior
      let a := assayAt r.item unit
      (unmet → run fun t => ItemLeaves t j x r.item unit (calRecord r.item unit 2 0 0 0 0) x.tally ∧ go t [] ∧ same t) ∧
      (¬unmet → itemPre s r.item unit pre = false → run fun t => flag t glb R.GLB_CAL_STAT_PRECOND = true ∧
        rdi t a.1 a.2.2.2.2.2.1 a.2.2.2.2.2.2 = 1 ∧
        ItemLeaves t j x r.item unit (calRecord r.item unit 1 0 0 0 0) (listSet x.tally 2 (n 2 + 1)) ∧
        go t [fieldKey glb R.GLB_CAL_STAT_PRECOND 0, fieldKey a.1 a.2.2.2.2.2.1 a.2.2.2.2.2.2] ∧ same t) ∧
      (¬unmet → itemPre s r.item unit pre = true → run fun t =>
        let serving := if 1 ≤ r.item ∧ r.item ≤ 5 then serves s (unit / 18) (unit % 18) else none
        ItemWritten t unit serving r ∧ (itemPasses r = false → flag t glb R.GLB_CAL_STAT_LIMIT = true) ∧
        ItemLeaves t j x r.item unit
          (calRecord r.item unit 0 (b2n (itemPasses r)) 0 (min 0xFFFF r.fig) (if r.item = 5 then r.eye % 512 else 0))
          (listSet (listSet x.tally 0 (n 0 + 1)) 1 (n 1 + b2n (!itemPasses r))) ∧
        (r.item = 0 → itemPasses r = false → whole → (∃ i, i < 2 ∧ flag s (secB unit) (lref i) = true) →
          ∃ i n, i < 2 ∧ flag s (secB unit) (lref i) = true ∧ flag t (secB unit) (lref i) = false ∧ (detNo 0x08 (2 * unit + i), n) ∈ t.flt.signals) ∧
        ((r.item = 0 → itemPasses r = true) → (whole → (∀ u p, p < 18 → getSlice t u p = if u = unit / 18 ∧ p = unit % 18 then new else getSlice s u p) ∧
          (r.item ≠ 5 → t.tiles = s.tiles) ∧ (r.item = 5 → ∀ u, getTile t u =
            if u = unit / 18 then { getTile s u with trackResid := listSet (getTile s u).trackResid (unit % 18) 0 } else getTile s u)) ∧
        go t ([fieldKey glb R.GLB_CAL_STAT_LIMIT 0, fieldKey a.1 a.2.1 a.2.2.2.2.2.2,
          fieldKey a.1 a.2.2.1 a.2.2.2.2.2.2, fieldKey a.1 a.2.2.2.1 a.2.2.2.2.2.2, fieldKey a.1 a.2.2.2.2.1 a.2.2.2.2.2.2,
          fieldKey a.1 a.2.2.2.2.2.1 a.2.2.2.2.2.2] ++ (itemTrims unit serving r).map fun e => fieldKey e.1 e.2.1 e.2.2.1)))) ∧
    (s.rings.jobs.find? (fun e => e.2.opcode == 0x50 && e.2.phase == .running && itemDue e.2 9 0) = some (j, x) → ItemDue s j x 9 0 →
      flag s glb R.TIM_STRUM_STAT_SEEN = false → Runs .strumSeenTimeout s fun t =>
        flag t glb R.GLB_ASSAY_STRUM_PRE = true ∧ flag t glb R.GLB_CAL_STAT_PRECOND = true ∧
        ItemLeaves t j x 9 0 (calRecord 9 0 1 0 0 0 0) (listSet x.tally 2 (n 2 + 1)) ∧
        (arg x 2 = 0 → t = { s with regs := t.regs, rings := t.rings } ∧ RegsBut s t ([R.GLB_CAL_STAT_RUN, R.GLB_CAL_STAT_PRECOND, R.GLB_ASSAY_STRUM_PRE].map fun f => fieldKey glb f 0))) ∧
    (s.boot.startCal = some j → getJob? s j = some x → x.units = [] → (∀ e ∈ s.tiles, e.2.remap = none ∧ e.2.remapQ = []) →
      Runs .startupCalDone s fun t => t.boot = { s.boot with startCal := none } ∧ flag t glb R.GLB_ST_STAT_CALDONE = true ∧
        flag t glb R.GLB_ST_STAT_READY = (flag s glb R.GLB_ST_STAT_READY || rd s glb R.MEM_STAT_STATE != 6) ∧ flag t glb R.GLB_ST_STAT_CALLIM = (flag s glb R.GLB_ST_STAT_CALLIM || n 1 != 0) ∧
        flag t glb R.GLB_ST_STAT_CALPRE = (flag s glb R.GLB_ST_STAT_CALPRE || n 2 != 0) ∧
        (owesRole s j = false → x.phase = .running → JobEnds t j 0 (x.tally.getD 4 0) 0 0))

/-- R374 to R377: a tracking pass of a tile with free slices counts in `PASSES` and takes the mean drift to every serving slice: at once on a tile
that is not live, as corrections still to glide on a live one, `LAG` while more than 16 timing units are left; with none it sets `NOTRK` and raises
0x09. A tile without a SERVO has no pass.
A glide step moves a level and a threshold correction by at most 32 units on a live tile; on one that is not live all that is left is applied,
the timing correction too (R374). -/
def Obligations.Tracking : Prop :=
  ∀ (s : State) (ti : TileIx),
    let b := tileB ti
    (∀ drift, flag s glb R.GLB_CAL_CFG_TRK = true → (getTile s ti).remap = none → powerReady s = true → (∃ n ∈ tellersOfTile ti, telRole s n = 3) →
      (freeSlices s ti = [] → Runs (.trackingPass ti drift) s fun t => flag t b R.TIL_TRK_STAT_NOTRK = true ∧ LevelSet t 0x09 ti True ∧
        RegsBut s t [fieldKey b R.TIL_TRK_STAT_NOTRK 0] ∧ t = { s with regs := t.regs, flt := t.flt }) ∧
      (freeSlices s ti ≠ [] → Runs (.trackingPass ti drift) s fun t =>
        let l := drift.take (freeSlices s ti).length
        let mean := fun (f : Int × Int × Int → Int) => if l.length = 0 then (0 : Int) else (2 * (l.map f).foldl (· + ·) 0 + l.length) / (2 * l.length)
        let lvl := mean (·.1)
        let cmp := mean (·.2.1)
        let edge := mean (·.2.2)
        let at_ := fun (s : State) (p : Nat) (f : Field) => signed 16 (rd s (sliceB ti p) f)
        rd t b R.TIL_TRK_STAT_PASSES = (rd s b R.TIL_TRK_STAT_PASSES + 1) % 2 ^ 16 ∧
        t = { s with regs := t.regs, slices := t.slices, tiles := t.tiles } ∧
        (∀ k p, k < 16 → p < 18 → sliceOf s ti k = p →
          (tileLive s ti = false → rd t (sliceB ti p) R.CHN_TRIM_TRK_LVL = unsigned 16 lvl ∧ rd t (sliceB ti p) R.CHN_TRIM_TRK_CMP = unsigned 16 cmp ∧
            rd t (sliceB ti p) R.CHN_TRIM_TRKT_EDGE = unsigned 16 edge ∧ rd t (sliceB ti p) R.CHN_TRIM_TRKT_PEND = 0 ∧
            getSlice t ti p = { getSlice s ti p with glideTrim := [0, 0, (getSlice s ti p).glideTrim.getD 2 0] }) ∧
          (tileLive s ti = true → rd t (sliceB ti p) R.CHN_TRIM_TRKT_PEND = unsigned 16 (edge - at_ s p R.CHN_TRIM_TRKT_EDGE) ∧
            getSlice t ti p = { getSlice s ti p with
              glideTrim := [lvl - at_ s p R.CHN_TRIM_TRK_LVL, cmp - at_ s p R.CHN_TRIM_TRK_CMP, (getSlice s ti p).glideTrim.getD 2 0] })) ∧
        (flag t b R.TIL_TRK_STAT_LAG = true ↔ tileLive s ti = true ∧
          ∃ k p, k < 16 ∧ p < 18 ∧ sliceOf s ti k = p ∧ 16 < (edge - at_ s p R.CHN_TRIM_TRKT_EDGE).natAbs) ∧
        ∀ p, p < 18 → (∀ k, k < 16 → sliceOf s ti k ≠ p) → getSlice t ti p = getSlice s ti p)) ∧
    (∀ drift, (∀ n ∈ tellersOfTile ti, telRole s n ≠ 3) → Runs (.trackingPass ti drift) s fun t => t = s) ∧
    ∀ (p : SliceIx) (a c f : Int), (getSlice s ti p).glideTrim = [a, c, f] →
      let e := if tileLive s ti then 0 else (getTile s ti).trackResid.getD p 0
      let key := fun (g : Field) => fieldKey (sliceB ti p) g 0
      let step := fun (d : Int) => if tileLive s ti then max (-32) (min 32 d) else d
      (a = 0 → c = 0 → f = 0 → e = 0 → Runs (.trimGlideStep ti p) s fun t => t = s) ∧
      (¬(a = 0 ∧ c = 0 ∧ f = 0 ∧ e = 0) → Runs (.trimGlideStep ti p) s fun t =>
        rd t (sliceB ti p) R.CHN_TRIM_TRK_LVL = unsigned 16 (signed 16 (rd s (sliceB ti p) R.CHN_TRIM_TRK_LVL) + step a) ∧
        rd t (sliceB ti p) R.CHN_TRIM_TRK_CMP = unsigned 16 (signed 16 (rd s (sliceB ti p) R.CHN_TRIM_TRK_CMP) + step c) ∧
        getSlice t ti p = { getSlice s ti p with glideTrim := [a - step a, c - step c, f - step f] } ∧
        (e = 0 → RegsBut s t [key R.CHN_TRIM_TRK_LVL, key R.CHN_TRIM_TRK_CMP] ∧ t = { s with regs := t.regs, slices := t.slices }) ∧
        (e ≠ 0 → rd t (sliceB ti p) R.CHN_TRIM_TRKT_EDGE = unsigned 16 (signed 16 (rd s (sliceB ti p) R.CHN_TRIM_TRKT_EDGE) + e) ∧
          rd t (sliceB ti p) R.CHN_TRIM_TRKT_PEND = 0 ∧ (getTile t ti).trackResid = listSet (getTile s ti).trackResid p 0 ∧
          (∀ u, u ≠ ti.val → getTile t u = getTile s u) ∧
          (flag t (tileB ti) R.TIL_TRK_STAT_LAG = true ↔ ∃ d ∈ listSet (getTile s ti).trackResid p 0, 16 < d.natAbs) ∧
          RegsBut s t [key R.CHN_TRIM_TRK_LVL, key R.CHN_TRIM_TRK_CMP, key R.CHN_TRIM_TRKT_EDGE, key R.CHN_TRIM_TRKT_PEND, fieldKey (tileB ti) R.TIL_TRK_STAT_LAG 0] ∧
          t = { s with regs := t.regs, slices := t.slices, tiles := t.tiles }))

/-- R378: a retired reference that is not in use only reads so, with detector 0x08; one in use passes the sector to the other with `SWITCHED`, and
live tiles start from a compensating offset of the last LEVREF figure, of either sign; with none left the sector is in the safe state, `SC_DEP`.
R379, R380: a slice that fails a monitor is safe for `SC_DEP` with detector 0x02; a free one of a tile that is not live is retired, a serving one of a
live tile waits for the pattern's end. R29: the slices of a lost interpolator bank are safe and retired, 0x04; retirement clears
`SC_DEP` (R58). A timing PLL out of lock puts its sector in the safe state, 0x07, and stops its clocks and gangs; back in lock its clocks run
and it releases `SC_DEP` where nothing else holds it. -/
def Obligations.DependencyLoss : Prop :=
  ∀ (s : State),
    (∀ (q : SectorIx) (r : Fin 2),
      let b := secB q
      let ok := fun (i : Nat) => if i = 0 then R.SEC_REF_STAT_LREF0_OK else R.SEC_REF_STAT_LREF1_OK
      let key := fun f => fieldKey b f 0
      flag s b (ok r) = true →
      (flag s b (ok (1 - r.val)) = true → rd s b R.SEC_REF_STAT_SEL ≠ r → Runs (.levelReferenceRetired q r) s fun t =>
        flag t b (ok r) = false ∧ t.flt = { s.flt with signals := s.flt.signals ++ [(detNo 0x08 (2 * q + r), 0)] } ∧
        t = { s with regs := t.regs, flt := t.flt } ∧ RegsBut s t [key (ok r)]) ∧
      (flag s b (ok (1 - r.val)) = true → rd s b R.SEC_REF_STAT_SEL = r → Runs (.levelReferenceRetired q r) s fun t =>
        flag t b (ok r) = false ∧ rd t b R.SEC_REF_STAT_SEL = 1 - r.val ∧ flag t b R.SEC_REF_STAT_SWITCHED = true ∧
        t.flt = { s.flt with signals := s.flt.signals ++ [(detNo 0x08 (2 * q + r), 0)] } ∧
        RegsBut s t [key (ok r), key R.SEC_REF_STAT_SEL, key R.SEC_REF_STAT_SWITCHED] ∧
        t = { s with regs := t.regs, flt := t.flt, slices := t.slices, fresh := t.fresh } ∧
        ∃ d : Int, d.natAbs = (2 * (rdi s b R.SEC_ASSAY_FIG 0 * 65536) + 1000000) / 2000000 ∧ ∀ u p, u / 12 = q → p < 18 →
          getSlice t u p = if tileLive s u then
            { getSlice s u p with glideTrim := [(getSlice s u p).glideTrim.getD 0 0, (getSlice s u p).glideTrim.getD 1 0, (getSlice s u p).glideTrim.getD 2 0 + d] }
            else getSlice s u p) ∧
      (flag s b (ok (1 - r.val)) = false → StatusFree s (sectorSlices q) R.CHN_STAT_SC_DEP → Runs (.levelReferenceRetired q r) s fun t =>
        SafeFor t (sectorSlices q) R.CHN_STAT_SC_DEP ∧ (detNo 0x08 (2 * q + r), 2 ^ 16) ∈ t.flt.signals)) ∧
    (∀ (ti : TileIx) (p : SliceIx) (cause : Fin 3), isRetired s ti p = false → StatusFree s [(ti.val, p.val)] R.CHN_STAT_SC_DEP →
      (∀ e ∈ s.rings.jobs, calJob s e.1 e.2 = false) → (getTile s ti).remap = none →
      (serves s ti p = none → tileLive s ti = false → Runs (.sliceMonitorFail ti p cause) s fun t =>
        isRetired t ti p = true ∧ flag t (sliceB ti p) R.CHN_STAT_SAFE = true ∧ (∃ i, i % 2 ^ 16 = cause.val + 1 ∧ (detNo 0x02 (ti * 18 + p), i) ∈ t.flt.signals) ∧
        (detNo 0x03 (ti * 18 + p), 0xFFFF) ∈ t.flt.signals ∧ ∀ u v, (u ≠ ti.val ∨ v ≠ p.val) → u < 48 → v < 18 → isRetired t u v = isRetired s u v) ∧
      (∀ k, serves s ti p = some k → tileLive s ti = true → (∀ r ∈ (getTile s ti).remapQ, r.pos ≠ k) → Runs (.sliceMonitorFail ti p cause) s fun t =>
        SafeFor t [(ti.val, p.val)] R.CHN_STAT_SC_DEP ∧ isRetired t ti p = false ∧
        (getTile t ti).remapQ = (getTile s ti).remapQ ++ [⟨k, 0, [], p, none, true⟩] ∧ ∃ i, i % 2 ^ 16 = cause.val + 1 ∧ (detNo 0x02 (ti * 18 + p), i) ∈ t.flt.signals)) ∧
    (∀ q : Fin 240,
      let u := (quadSlices q).1
      let l := ((quadSlices q).2.filter fun p => !isRetired s u p)
      StatusFree s (l.map fun p => (u, p)) R.CHN_STAT_SC_DEP → Runs (.interpolatorBankLost q) s fun t =>
        (∀ p ∈ l, flag t (sliceB u p) R.CHN_STAT_SAFE = true ∧ flag t (sliceB u p) R.CHN_STAT_SC_DEP = false ∧ isRetired t u p = true) ∧
        (∃ i, (detNo 0x04 q, i) ∈ t.flt.signals) ∧
        (tileLive s u = true → (getTile t u).remapQ = (getTile s u).remapQ ++
          ((List.range 16).filter fun k => l.contains (sliceOf s u k) && !(((getTile s u).remap.toList ++ (getTile s u).remapQ).map (·.pos)).contains k).map
            fun k => ⟨k, 0, [], sliceOf s u k, none, true⟩)) ∧
    ∀ q : SectorIx,
      (pllLost s q = false → StatusFree s (sectorSlices q) R.CHN_STAT_SC_DEP → Runs (.timingPllUnlock q) s fun t =>
        pllLost t q = true ∧ (detNo 0x07 q, 0) ∈ t.flt.signals ∧ SafeFor t (sectorSlices q) R.CHN_STAT_SC_DEP ∧
        (∀ u, u / 12 = q.val → flag s (tileB u) R.TIL_VCLK_CTL_EN = true → flag t (tileB u) R.TIL_VCLK_STAT_RUNNING = false) ∧
        ∀ l g, s.gangs = [(l, g)] → g.waiting = false → gangArmed s g = true → (∃ u ∈ g.tiles, u / 12 = q) → getGang? t l = none) ∧
      (pllLost s q = true → injHeld s (detNo 0x07 q) = false → Runs (.timingPllRelock q) s fun t =>
        pllLost t q = false ∧ detNo 0x07 q ∉ t.flt.raised ∧ t = { s with regs := t.regs, flt := t.flt, tiles := t.tiles } ∧
        RegsBut s t (fieldKey glb R.FLT_KSTAT_ACTIVE 7 :: ((sectorSlices q).map fun x => fieldKey (sliceB x.1 x.2) R.CHN_STAT_SC_DEP 0) ++
          (tilesOfSector q).map fun u => fieldKey (tileB u) R.TIL_VCLK_STAT_RUNNING 0) ∧
        (∀ u, let on := u / 12 = q.val ∧ flag s (tileB u) R.TIL_VCLK_CTL_EN = true
          (on → flag t (tileB u) R.TIL_VCLK_STAT_RUNNING = true ∧
            getTile t u = { getTile s u with nextVec := max (getTile s u).nextVec (lawNext (lawOf s u) s.now) }) ∧
          (¬on → getTile t u = getTile s u)) ∧
        ∀ x ∈ sectorSlices q, flag t (sliceB x.1 x.2) R.CHN_STAT_SC_DEP =
          (flag s (sliceB x.1 x.2) R.CHN_STAT_SC_DEP && depHeld s x.1 x.2))
/-- R33, R379 to R383, R386: REMAP answers busy, argument, slice and spare checks in their order, `NOSPARE` with the last; else the position's slice is
off the ball and its settings stand in the slice asked for, or the lowest free one. A remap that waited starts once the tile is not live. With every
item of the candidate passed it joins the ball and takes the position's drive lock, the old slice retired if that was asked, and the job ends with
it; a missed limit retires the candidate with `AUTORET` and the next free slice is tried; with none left the job ends with ST_CAL_NOSPARE. -/
def Obligations.Remap : Prop :=
  ∀ (s : State),
    (∀ (j : Nat) (x : Job), JobStarts s j 0x51 x →
      let u := arg x 0 % 2 ^ 6
      let k := arg x 0 / 2 ^ 8 % 2 ^ 4
      let want := arg x 0 / 2 ^ 16 % 2 ^ 5
      let busy := u < 48 ∧ (tileLive s u = true ∨ calRunsOn s u = true ∨ (getTile s u).remap ≠ none ∨ (getTile s u).remapQ ≠ [])
      let bad := 48 ≤ u ∨ (18 ≤ want ∧ want ≠ 0x1F)
      (busy → Runs (.remap j) s fun t => JobEnds t j 0x0301 0 0 0) ∧
      (¬busy → bad → Runs (.remap j) s fun t => JobEnds t j 0x0101 0 0 0) ∧
      (¬busy → ¬bad → want ≠ 0x1F → want ∉ freeSlices s u → Runs (.remap j) s fun t => JobEnds t j 0x0180 0 0 0) ∧
      (¬busy → ¬bad → want = 0x1F → freeSlices s u = [] → Runs (.remap j) s fun t => JobEnds t j 0x0501 (sliceOf s u k) 0 0 ∧
        flag t (tileB u) R.TIL_XPT_STAT_NOSPARE = true) ∧
      ∀ p, ¬busy → ¬bad → (if want = 0x1F then (freeSlices s u).head? = some p else want = p ∧ p ∈ freeSlices s u) → sliceOf s u k < 18 →
        flag s (tileB u) R.TIL_TRK_STAT_NOTRK = false →
        Runs (.remap j) s fun t => RemapRuns s t u k (sliceOf s u k) p (some j) ∧ ∃ y, getJob? t j = some y ∧ y.phase = .running) ∧
    (∀ (ti : TileIx) (k : PosIx) (r : RemapRun) (p : Nat), tileLive s ti = false → (getTile s ti).remap = none →
      (getTile s ti).remapQ = [r] → r.pos = k → (freeSlices s ti).find? (fun p => !r.tried.contains p) = some p → sliceOf s ti k < 18 →
      flag s (tileB ti) R.TIL_TRK_STAT_NOTRK = false →
      Runs (.remapStart ti k) s fun t => RemapRuns s t ti k (sliceOf s ti k) p r.job ∧ (getTile t ti).remapQ = []) ∧
    ∀ (ti : TileIx) (r : RemapRun) (results : List CalResult) (j : Nat) (x : Job), (getTile s ti).remap = some r → (getTile s ti).remapQ = [] →
      r.job = some j → getJob? s j = some x → x.opcode = 0x51 → jobEnded x = false → r.pos < 16 → r.cand < 18 → r.old < 18 → r.cand ≠ r.old →
      (results.map (·.item)) = [1, 2, 3, 4, 5] → isRetired s ti r.cand = false → tileLive s ti = false → flag s (tileB ti) R.TIL_TRK_STAT_NOTRK = false →
      (results.all itemPasses = true → Runs (.remapDone ti results) s fun t =>
        sliceOf t ti r.pos = r.cand ∧ (∀ k, k < 16 → k ≠ r.pos → sliceOf t ti k = sliceOf s ti k) ∧
        flag t (sliceB ti r.cand) R.CHN_STAT_DRIVE_LOCK = flag s (sliceB ti r.old) R.CHN_STAT_DRIVE_LOCK ∧
        (isRetired t ti r.old = true ↔ r.retire = true ∨ isRetired s ti r.old = true) ∧ JobEnds t j 0 r.cand 0 0 ∧ (getTile t ti).remap = none ∧
        flag t (tileB ti) R.TIL_XPT_STAT_BUSY = false ∧ (detNo 0x03 (ti * 18 + r.old), r.pos) ∈ t.flt.signals ∧ SameBytes s t) ∧
      (results.any (fun y => y.item == 1 && !itemPasses y) = true → remapItems s ti r.cand = [1, 2, 3, 4, 5] →
        (∀ p, p < 18 → p ≠ r.cand → p ∈ freeSlices s ti → p ∈ r.tried) → Runs (.remapDone ti results) s fun t =>
        JobEnds t j 0x0501 r.old 0 0 ∧ flag t (tileB ti) R.TIL_XPT_STAT_NOSPARE = true ∧ (getTile t ti).remap = none ∧ sliceOf t ti r.pos = sliceOf s ti r.pos ∧
        isRetired t ti r.cand = flag s glb R.GLB_CAL_CFG_AUTORET) ∧
      ∀ p, results.any (fun y => y.item == 1 && !itemPasses y) = true → remapItems s ti r.cand = [1, 2, 3, 4, 5] → p ≠ r.old →
        (freeSlices s ti).find? (fun p => !(r.cand :: r.tried).contains p) = some p → Runs (.remapDone ti results) s fun t =>
        (∃ r2, (getTile t ti).remap = some r2 ∧ r2.cand = p ∧ r2.job = some j ∧ r2.tried = r.cand :: r.tried) ∧ sliceOf t ti r.pos = sliceOf s ti r.pos ∧
        isRetired t ti r.cand = flag s glb R.GLB_CAL_CFG_AUTORET

/-- R393, R406: a write of GO for DORMANT or WATCH stores `PWR_CTL`; it is refused while the device is not quiet; on a quiet one the entry begins with
every slice in the safe state for `SC_DEP`, the link idle with `LDOWN` and no detector raised; between DORMANT and WATCH the state changes at
once. The entry's end shows the target, memory in self-refresh, no vector clock running and the ring left. R394: the first enabled cause is kept, wakes with `WCAUSE`, and at
its end the device is READY and `SC_DEP` clears where nothing else holds it. -/
def Obligations.PowerStates : Prop :=
  ∀ (s : State),
    (∀ v : Word, v.toNat % 4 < 2 →
      (HostOpen s → (quiet s = false ∨ flag s glb R.PWR_STAT_CHANGING = true) → Runs (.powerGo v) s fun t =>
        PowerWritten t v.toNat ∧ flag t glb R.PWR_STAT_REFUSED = true ∧ t = { s with regs := t.regs } ∧
        RegsBut s t (fieldKey glb R.PWR_STAT_REFUSED 0 :: powerKeys)) ∧
      (HostOpen s → quiet s = true → flag s glb R.PWR_STAT_CHANGING = false → StatusFree s allSlices R.CHN_STAT_SC_DEP → Runs (.powerGo v) s fun t =>
        PowerWritten t v.toNat ∧ flag t glb R.PWR_STAT_CHANGING = true ∧ SafeFor t allSlices R.CHN_STAT_SC_DEP ∧ flag t glb R.HAT_LINK_STAT_UP = false ∧
        flag t glb R.HAT_LINK_STAT_LDOWN = true ∧ (∀ x ∈ t.flt.signals, x ∈ s.flt.signals) ∧ powerReady t = true ∧ SameBytes s t) ∧
      (powerReady s = false → sealed s = false → flag s glb R.PWR_STAT_CHANGING = false → Runs (.powerGo v) s fun t =>
        PowerWritten t v.toNat ∧ rd t glb R.PWR_STAT_STATE = v.toNat % 4 ∧ t = { s with regs := t.regs, slices := t.slices })) ∧
    (powerReady s = true → flag s glb R.PWR_STAT_CHANGING = true → memIdle s = true → Runs .powerEntryDone s fun t =>
      rd t glb R.PWR_STAT_STATE = rd s glb R.PWR_CTL_TARGET % 4 ∧ flag t glb R.PWR_STAT_CHANGING = false ∧ t.wakeReq = 0 ∧
      (rd s glb R.MEM_STAT_STATE = 2 → rd t glb R.MEM_STAT_STATE = 4) ∧ (∀ q, q < 4 → (getDig t q).pllOn = false) ∧
      (∀ u, u < 48 → flag s (tileB u) R.TIL_VCLK_CTL_EN = true → flag t (tileB u) R.TIL_VCLK_STAT_RUNNING = false) ∧
      rd t glb R.TIM_LINK_STAT_IN = 0 ∧ rd t glb R.TIM_LINK_STAT_OUT = 0 ∧ QualShown t ∧
      t = { s with regs := t.regs, digs := t.digs, slices := t.slices, wakeReq := 0, ring := { s.ring with req := none, fwd := [], samples := [] } }) ∧
    (flag s glb R.PWR_CTL_WK_TIMER = true → rd s glb R.PWR_STAT_STATE ≤ 1 → flag s glb R.PWR_STAT_CHANGING = false →
      Runs .wakeTimerExpiry s fun t => t = { s with wakeReq := if s.wakeReq = 0 then 5 else s.wakeReq }) ∧
    (powerReady s = false → s.wakeReq ≠ 0 → flag s glb R.PWR_STAT_CHANGING = false → Runs .wake s fun t =>
      rd t glb R.PWR_STAT_WCAUSE = s.wakeReq % 16 ∧ flag t glb R.PWR_STAT_CHANGING = true ∧ t = { s with regs := t.regs, wakeReq := 0 } ∧
      RegsBut s t [fieldKey glb R.PWR_STAT_WCAUSE 0, fieldKey glb R.PWR_STAT_CHANGING 0]) ∧
    (powerReady s = false → flag s glb R.PWR_STAT_CHANGING = true → Runs .wakeDone s fun t =>
      powerReady t = true ∧ flag t glb R.PWR_STAT_CHANGING = false ∧ QualShown t ∧ (rd s glb R.MEM_STAT_STATE = 4 → rd t glb R.MEM_STAT_STATE = 2) ∧
      (∀ x ∈ allSlices, flag t (sliceB x.1 x.2) R.CHN_STAT_SC_DEP =
          (flag s (sliceB x.1 x.2) R.CHN_STAT_SC_DEP && (depHeld s x.1 x.2 || pllLost s (x.1 / 12))) ∧
        flag t (sliceB x.1 x.2) R.CHN_STAT_SAFE = flag s (sliceB x.1 x.2) R.CHN_STAT_SAFE) ∧
      (flag s glb R.TIM_REF_STAT_HOLD = false → t.ring.holdSlew = true ∧ flag t glb R.TIM_STAT_SLEWING = true) ∧
      (∀ u, u < 48 → pllLost s (u / 12) = false → flag s (tileB u) R.TIL_VCLK_CTL_EN = true → flag t (tileB u) R.TIL_VCLK_STAT_RUNNING = true) ∧
      t = { s with regs := t.regs, hbm := t.hbm, slices := t.slices, tiles := t.tiles, ring := t.ring, fresh := t.fresh })
/-- R396 to R400, R405: a round of good readings shows raw and used values, each sector's temperature as its hottest sensor, the hottest of all and
the supply readings, and moves each sector up to the highest state whose threshold held in three rounds, or down below its threshold less 2 degrees.
R401 to R403: the grace timer's expiry in REQUEST enforces: state, count, event ENFORCE and a thermal hold for each gang of the sector; 120 degrees
in three rounds puts every slice in the safe state for `SC_CRIT` and every sector in ENFORCED at least. -/
def Obligations.ThermalWatch : Prop :=
  (∀ (s : State) (temps : List Int) (valid : List Bool) (volts : List Int) (h : Nat → Int), s.boot.por = false → GoodRound s temps valid →
    (∀ q, q < 4 → Hottest temps q (h q)) →
    let last := fun q => h q :: s.thm.temps.map fun l => l.getD q 0
    let hot := fun q => 3 ≤ (last q).length ∧ (∀ x ∈ (last q).take 3, 1200 ≤ x) ∧ thmState s q ≠ 4
    let shown := fun (t : State) =>
      (∀ i, i < 40 → signed 16 (rdi t glb R.THM_SENS_RAW i) = temps.getD i 0 ∧ signed 16 (rdi t glb R.THM_SENS_USED i) = temps.getD i 0) ∧
      (∀ q, q < 4 → signed 16 (rdi t glb R.THM_SEC_T_T q) = h q) ∧
      (∃ q, q < 4 ∧ signed 16 (rd t glb R.THM_TMAX_TMAX) = h q ∧ ∀ r, r < 4 → h r ≤ h q) ∧
      (∀ m, m < 32 → rdi t glb R.THM_VMON_MV m = unsigned 16 (volts.getD m 0))
    Runs (.housekeepingRound temps valid volts) s fun t => (((∃ q, q < 4 ∧ hot q) → ∀ x ∈ allSlices, (getSlice s x.1 x.2).pmu = .idle) → shown t) ∧
      ((∀ q, q < 4 → ¬hot q) → ∀ q, q < 4 → thmState t q = thermalNext (thmState s q) (last q)) ∧
      ((∃ q, q < 4 ∧ hot q) → (∀ q, q < 4 → hot q → thmState t q = 4) ∧ (∀ q, q < 4 → 3 ≤ thmState t q) ∧
        (StatusFree s allSlices R.CHN_STAT_SC_CRIT → SafeFor t allSlices R.CHN_STAT_SC_CRIT))) ∧
  ∀ (s : State) (q : SectorIx), thmState s q = 2 → q.val ∈ s.thm.grace → Runs (.graceExpiry q) s fun t =>
    thmState t q = 3 ∧ q.val ∉ t.thm.grace ∧ Counted s t glb R.THM_THROTTLES_COUNT ∧
    (∃ e ∈ t.rings.events, e.type = 5 ∧ e.unit = q ∧ e.arg0 = 4 ∧ e.time = s.now ∧ e.arg1 = unsigned 32 (signed 16 (rdi s glb R.THM_SEC_T_T q))) ∧
    (∀ l g, s.gangs = [(l, g)] → gangLive s g = true → g.thermal = false → g.holds = [] → g.tiles.head? = some l → (getTile s l).gang = some l →
      (∃ u ∈ g.tiles, u / 12 = q.val) → ∃ g2, getGang? t l = some g2 ∧ ∃ r, g2.holds = [r] ∧ r.thm = true) ∧
    t = { s with regs := t.regs, thm := t.thm, rings := t.rings, gangs := t.gangs }

/-- R409, R412, R414, R417 to R422, R425: the sample of one raise of class SITE_FATAL or less writes its history entry, kind status, first record,
FAULT pair and event, and starts no reaction; a one-shot point in force is spent and its job complete. A DEVICE_FATAL raise puts every slice in
the safe state for `SC_DEV`, signals viral and is in progress until every slice is safe and every sequencer off. A disagreeing rail pair raises its
detector until it agrees again. R411, R416: a disagreement of the collector's copies seals the device. -/
def Obligations.FaultRaises : Prop :=
  ∀ (s : State) (det info : Nat), s.boot.por = false → detOk det = true → info < 2 ^ 16 →
    let cls := classOf s det info
    (s.flt.signals = [(det, info)] → (∀ p ∈ s.flt.points, p.inForce = true → p.persistent = true) → cls ≤ 3 →
      (∀ x ∈ detPositions s det, ∀ i, siteAt s x.1 x.2 = some i → i < 256) → Runs .detectorRaise s fun t =>
        Logged s t det cls info false false ∧ t.flt.signals = [] ∧ rd t glb R.FLT_STAT_REACT = rd s glb R.FLT_STAT_REACT ∧
        (rdi t glb R.FLT_KSTAT_ACTIVE (det / 1024) = 1 ↔ kindActive t (det / 1024) = true) ∧
        (cls = 3 → ∀ x ∈ detPositions s det, ∀ i, siteAt s x.1 x.2 = some i → (rdi t glb R.FLT_SITEF_SITES (i / 32)).testBit (i % 32) = true) ∧
        t = { s with regs := t.regs, flt := t.flt, rings := t.rings, tellers := t.tellers, items := t.items }) ∧
    (∀ (p : InjPoint) (j : Nat), s.flt.points = [p] → p.det = det → p.inForce = true → p.persistent = false → p.job = some j → JobOpen s j →
      (∀ x, getJob? s j = some x → x.opcode = 0x70) → s.flt.signals = [(det, info + 2 ^ 17)] → det ∉ s.flt.real → classOf s det (info + 2 ^ 17) ≤ 3 → Reports det → bit p.param 63 = false →
      (∀ x ∈ detPositions s det, ∀ i, siteAt s x.1 x.2 = some i → i < 256) → Runs .detectorRaise s fun t =>
        JobEnds t j 0 0 0 0 ∧ t.flt.points = [] ∧ Logged s t det (classOf s det (info + 2 ^ 17)) info true false ∧ det ∉ t.flt.raised) ∧
    (s.flt.signals = [(det, info)] → (∀ p ∈ s.flt.points, p.inForce = true → p.persistent = true) → cls = 4 → rd s glb R.FLT_STAT_REACT = 7 →
      StatusFree s allSlices R.CHN_STAT_SC_DEV → powerReady s = true → Runs .detectorRaise s fun t =>
        SafeFor t allSlices R.CHN_STAT_SC_DEV ∧ flag t glb R.HAT_LINK_STAT_VIRAL = true ∧ rd t glb R.FLT_STAT_REACT = 4) ∧
    (rd s glb R.FLT_STAT_REACT = 4 → (∀ x ∈ allSlices, flag s (sliceB x.1 x.2) R.CHN_STAT_SAFE = true) → (∀ u, u < 48 → seqState s u ≤ 1) →
      Runs .reactionComplete s fun t => rd t glb R.FLT_STAT_REACT = 7 ∧ t = { s with regs := t.regs } ∧ RegsBut s t [fieldKey glb R.FLT_STAT_REACT 0]) ∧
    (det ∉ s.flt.wires → Runs (.railDisagreement det true) s fun t => t = { s with fresh := t.fresh, flt := t.flt } ∧
      ∃ i, i < 2 ^ 16 ∧ t.flt = { s.flt with wires := s.flt.wires ++ [det], signals := s.flt.signals ++ [(det, i + 2 ^ 18)] }) ∧
    (det ∈ s.flt.wires → Runs (.railDisagreement det false) s fun t =>
      t.flt = { s.flt with wires := s.flt.wires.filter (· != det) } ∧ t = { s with regs := t.regs, flt := t.flt } ∧
      (rdi t glb R.FLT_KSTAT_ACTIVE (det / 1024) = 1 ↔ kindActive t (det / 1024) = true) ∧ RegsBut s t [fieldKey glb R.FLT_KSTAT_ACTIVE (det / 1024)]) ∧
    ((rd s glb R.FLT_STAT_REACT = 7 ∨ rd s glb R.FLT_STAT_REACT = 4) → StatusFree s allSlices R.CHN_STAT_SC_DEV → Runs .collectorDualRail s fun t =>
      sealed t = true ∧ rd t glb R.FLT_STAT_SCAUSE = 1 ∧ rd t glb R.FLT_STAT_REACT = 5 ∧ SafeFor t allSlices R.CHN_STAT_SC_DEV ∧
      (∀ j x, getJob? t j = some x → jobEnded x = true) ∧ t.trigOut = [] ∧ flag t glb R.GLB_IO_STAT_EOT_OUT = false ∧
      rd t glb R.TIM_LINK_STAT_IN = 0 ∧ rd t glb R.TIM_LINK_STAT_OUT = 0)
/-- R420, R422, R58: a status clears only while its kind is not ACTIVE, never a SEALED one, and with the last DEVICE_FATAL one `SC_DEV` clears; the
first record is released by its own write. R425: INJECT refuses in the order of its checks; a disarm completes at once; an untimed persistent arm of a
reporting detector comes into force, raises the detector and completes, a one-shot waits for its sample, a timed one for its instant; a bad rail is
injected as one. DISALL drops every point, and a job whose arm had no effect yet ends with ST_JOB_ABORTED. -/
def Obligations.FaultClearsAndInjection : Prop :=
  ∀ s : State,
    (HostOpen s →
      (∀ (k : Fin 64) (latched wire : Bool),
        ((kindActive s k = true ∨ ∃ x ∈ s.flt.signals, x.1 / 1024 = k.val) → Runs (.kstatClear k latched wire) s fun t => t = s) ∧
        (kindActive s k = false → (∀ x ∈ s.flt.signals, x.1 / 1024 ≠ k.val) → Runs (.kstatClear k latched wire) s fun t =>
          (rdi t glb R.FLT_KSTAT_LATCHED k = if latched ∧ rdi s glb R.FLT_KSTAT_CLASS k ≠ 5 then 0 else rdi s glb R.FLT_KSTAT_LATCHED k) ∧
          (rdi t glb R.FLT_KSTAT_WIRE k = if wire ∧ rdi s glb R.FLT_KSTAT_CLASS k ≠ 5 then 0 else rdi s glb R.FLT_KSTAT_WIRE k) ∧
          (∀ x ∈ allSlices, flag t (sliceB x.1 x.2) R.CHN_STAT_SC_DEV =
            (flag s (sliceB x.1 x.2) R.CHN_STAT_SC_DEV && !(fatalLatched s && !fatalLatched t))) ∧
          t = { s with regs := t.regs } ∧
          RegsBut s t ([fieldKey glb R.FLT_KSTAT_LATCHED k, fieldKey glb R.FLT_KSTAT_CLASS k, fieldKey glb R.FLT_KSTAT_WIRE k,
              fieldKey glb R.FLT_STAT_LATCHED 0, fieldKey glb R.FLT_STAT_ASSERT 0, fieldKey glb R.GLB_SMB_STAT_ALERT 0] ++
            allSlices.map fun x => fieldKey (sliceB x.1 x.2) R.CHN_STAT_SC_DEV 0))) ∧
      (Runs .firstRelease s fun t => flag t glb R.FLT_FIRST_CTL_VALID = false ∧ t = { s with regs := t.regs } ∧
        RegsBut s t [fieldKey glb R.FLT_FIRST_CTL_VALID 0]) ∧
      ((s.flt.points.map (·.det)).Nodup → Runs .injectDisall s fun t => t.flt.points = [] ∧ rd t glb R.FLT_INJ_STAT_ARMED = (if s.flt.points = [] then rd s glb R.FLT_INJ_STAT_ARMED else 0) ∧
        ∀ p ∈ s.flt.points, ∀ j, p.job = some j → JobOpen s j → JobEnds t j 0x0300 0 0 0)) ∧
    (∀ (j : Nat) (x : Job), JobStarts s j 0x70 x →
      let det := arg x 0 % 2 ^ 16
      let mode := arg x 0 / 2 ^ 16 % 2 ^ 2
      let timed := (arg x 0).testBit 18
      let tt := argAt x 1
      let param := arg x 3
      let bad := detOk det = false ∨ mode = 3 ∨ param / 2 ^ 16 % 2 ^ 47 ≠ 0
      let locked := flag s glb R.FLT_INJ_CTL_EN = false ∨ (0x27 ≤ det / 1024 ∧ flag s glb R.FLT_INJ_CTL_SEALOK = false)
      let late := timed = true ∧ tt < s.now + usec 2
      let full := mode ≠ 0 ∧ 16 ≤ s.flt.points.length ∧ ∀ p ∈ s.flt.points, p.det ≠ det
      (bad → Runs (.injectJob j) s fun t => JobEnds t j 0x0190 0 0 0 ∧ t.flt = s.flt) ∧
      (¬bad → locked → Runs (.injectJob j) s fun t => JobEnds t j 0x0191 0 0 0 ∧ t.flt = s.flt) ∧
      (¬bad → ¬locked → late → Runs (.injectJob j) s fun t => JobEnds t j 0x0390 0 0 0 ∧ t.flt = s.flt) ∧
      (¬bad → ¬locked → ¬late → full → Runs (.injectJob j) s fun t => JobEnds t j 0x0391 0 0 0 ∧ t.flt = s.flt) ∧
      (¬bad → ¬locked → ¬late → mode = 0 → (∀ p ∈ s.flt.points, p.det = det → p.job = none) → Runs (.injectJob j) s fun t =>
        JobEnds t j 0 0 0 0 ∧ t.flt.points = s.flt.points.filter fun p => p.det != det) ∧
      (¬bad → ¬locked → ¬late → ¬full → mode ≠ 0 → (∀ p ∈ s.flt.points, p.det ≠ det) → det ∉ s.flt.raised → det ∉ s.flt.real →
        (timed = true → Runs (.injectJob j) s fun t => t.flt = { s.flt with points := s.flt.points ++ [⟨det, mode == 2, true, tt, param, false, false, some j⟩] } ∧
          rd t glb R.FLT_INJ_STAT_ARMED = (s.flt.points.length + 1) % 2 ^ 5 ∧ JobOpen t j) ∧
        (timed = false → param.testBit 63 = true → Runs (.injectJob j) s fun t =>
          det ∈ t.flt.wires ∧ (det, param % 2 ^ 16 + 2 ^ 17 + 2 ^ 18) ∈ t.flt.signals ∧ (∃ p ∈ t.flt.points, p.det = det ∧ p.inForce = true)) ∧
        (timed = false → param.testBit 63 = false → Reports det → Runs (.injectJob j) s fun t =>
          t.flt.signals = s.flt.signals ++ [(det, param % 2 ^ 16 + 2 ^ 17)] ∧ (∃ p ∈ t.flt.points, p.det = det ∧ p.inForce = true) ∧
          (mode = 2 → JobEnds t j 0 0 0 0) ∧ (mode = 1 → JobOpen t j)))) ∧
    ∀ (p : InjPoint), s.flt.points = [p] → p.inForce = false → p.param.testBit 63 = false → Reports p.det → p.det ∉ s.flt.raised → p.det ∉ s.flt.real →
      Runs (.injectionInForce p.det) s fun t => t.now = max s.now p.t ∧ t.flt.signals = s.flt.signals ++ [(p.det, p.param % 2 ^ 16 + 2 ^ 17)] ∧
        (∃ r, t.flt.points = [r] ∧ r.det = p.det ∧ r.inForce = true) ∧ (∀ j, p.job = some j → p.persistent = true → JobOpen s j → JobEnds t j 0 0 0 0)

/-- R16, R23, R29: a tile-lane transfer whose repeat fails too counts toward three vectors in a row, raises 0x05, loses the vector, with the underrun rules
for the gang, or its results, and with the third the tile is in the safe state for `SC_DEP`; a good one brings a lost lane back. A failed sector lane blocks its die's registers until a transfer
passes, raises 0x06, and ends a running capture. R435: a locked-out pin die drives nothing. R437, R438: a removed card puts every slice in the safe
state for `SC_CARD` under the drive lock, unless `CONTACT_OVR` holds it clear (R56), and ends measuring jobs; an inserted one clears `SC_CARD` alone. R440, R441: TOUCH follows the prober,
counts, and its loss releases EOT and, with LIFTABORT, aborts gangs; a write of EOT = 1 is ignored while not touched down. -/
def Obligations.OutsideWorld : Prop :=
  ∀ s : State,
    (∀ (ti : TileIx) (up : Bool) (vec : Nat),
      let x := getTile s ti
      let fails := vec :: x.laneFails.filter fun v => v != vec && decide (vec < v + 256)
      let row := ∃ v, v ≤ vec ∧ vec ≤ v + 2 ∧ v ∈ fails ∧ v + 1 ∈ fails ∧ v + 2 ∈ fails
      let l := (List.range 18).map fun p => (ti.val, p)
      let det := detNo 0x05 ti
      (x.laneLost = true ∨ ¬row → (up = true ∨ gangOf s ti = none) → ∀ lost, (lost = true ↔ x.laneLost = true ∨ row) →
        Runs (.tileLaneTransfer ti up vec false false) s fun t =>
          getTile t ti = { x with
            laneFails := fails
            laneLost := lost
            vbuf := if up then x.vbuf else x.vbuf.filter fun e => e.1 != vec
            await := if up then x.await.filter fun a => a.vec != vec else x.await } ∧
          (∀ u, u ≠ ti.val → getTile t u = getTile s u) ∧
          t.flt = { s.flt with signals := s.flt.signals ++ [(det, b2n up + if lost then 2 ^ 16 else 0)] } ∧
          t = { s with regs := t.regs, tiles := t.tiles, flt := t.flt } ∧
          (up = true → (∃ a ∈ x.await, a.vec = vec) → flag t (tileB ti) R.TIL_SEQ_STAT_STARVED = true ∧
            ∀ k i, k < 16 → siteAt s ti k = some i → flag t (siteB i) R.GLB_SITE_STAT_STARVED = true) ∧
          ((up = false ∨ ∀ a ∈ x.await, a.vec ≠ vec) → t.regs = s.regs)) ∧
      (∀ m g, up = false → gangOf s ti = some (m, g) → (∃ v ∈ x.vbuf, v.1 = vec ∧ v.2.hold = false) → ¬(g.phase = .seg ∧ ∀ e ∈ g.evs, e.1 < vec) →
        (∀ u ∈ g.tiles, u < 48) → Runs (.tileLaneTransfer ti up vec false false) s fun t => (det, if x.laneLost ∨ row then 2 ^ 16 else 0) ∈ t.flt.signals ∧
          ((x.laneLost = true ∨ ¬row) → ∀ u ∈ g.tiles, flag t (tileB u) R.TIL_SEQ_STAT_STARVED = true)) ∧
      (row → x.laneLost = false → StatusFree s l R.CHN_STAT_SC_DEP → Runs (.tileLaneTransfer ti up vec false false) s fun t =>
        SafeFor t l R.CHN_STAT_SC_DEP ∧ (det, b2n up + 2 ^ 16) ∈ t.flt.signals) ∧
      ∀ ok1 ok2 : Bool, (ok1 || ok2) = true →
        (x.laneLost = false → Runs (.tileLaneTransfer ti up vec ok1 ok2) s fun t => t = s) ∧
        (x.laneLost = true → Runs (.tileLaneTransfer ti up vec ok1 ok2) s fun t =>
          t = { s with regs := t.regs, tiles := t.tiles } ∧ getTile t ti = { x with laneFails := [], laneLost := false } ∧
          (∀ u, u ≠ ti.val → getTile t u = getTile s u) ∧
          ∀ p, p < 18 → flag t (sliceB ti p) R.CHN_STAT_SC_DEP = (flag s (sliceB ti p) R.CHN_STAT_SC_DEP &&
            (refsLost s (ti / 12) || isRetired s ti p || pllLost s (ti / 12) || (x.remap.toList ++ x.remapQ).any fun r => r.old == p)))) ∧
    (∀ (q : SectorIx) (up ok1 ok2 : Bool),
      ((ok1 || ok2) = true → Runs (.sectorLaneTransfer q up ok1 ok2) s fun t => t = { s with laneDown := s.laneDown.filter (· != q.val) }) ∧
      (digState s q = 0 → Runs (.sectorLaneTransfer q up false false) s fun t => q.val ∈ t.laneDown ∧ (∀ r, r ≠ q.val → (r ∈ t.laneDown ↔ r ∈ s.laneDown)) ∧
        t = { s with laneDown := t.laneDown, flt := { s.flt with signals := s.flt.signals ++ [(detNo 0x06 q, b2n up)] } }) ∧
      (digState s q ≠ 0 → NotPending s [fieldKey (secB q) R.DIG_STAT_STATE 0, fieldKey (secB q) R.DIG_STAT_CAUSE 0] →
        Runs (.sectorLaneTransfer q up false false) s fun t => q.val ∈ t.laneDown ∧ (detNo 0x06 q, b2n up) ∈ t.flt.signals ∧
          digState t q = 0 ∧ rd t (secB q) R.DIG_STAT_CAUSE = 4) ∧
      (s.boot.por = false → q.val ∉ s.lockout → Runs (.pinDieLockout q) s fun t => t.lockout = q.val :: s.lockout ∧
        flag t glb R.GLB_IO_STAT_LOCKOUT = true ∧ ∀ x ∈ sectorSlices q, (getSlice t x.1 x.2).drive = .off ∧ (getSlice t x.1 x.2).load = false) ∧
      (q.val ∈ s.lockout → Runs (.lockoutRelease q) s fun t => t = { s with lockout := s.lockout.filter (· != q.val), slices := t.slices, digs := t.digs } ∧
        (∀ r, r < 4 → getDig t r = getDig s r ∨ (r = q.val ∧ getDig t r = { getDig s r with safeTo := some s.now })) ∧
        ∀ x ∈ sectorSlices q, (getSlice t x.1 x.2).drive = (getSlice s x.1 x.2).drive)) ∧
    (s.boot.por = false → StatusFree s allSlices R.CHN_STAT_SC_CARD → Runs .cardRemoval s fun t =>
      SafeFor t allSlices R.CHN_STAT_SC_CARD ∧ (∀ x ∈ allSlices, NotPending s [fieldKey (sliceB x.1 x.2) R.CHN_STAT_DRIVE_LOCK 0] →
        flag t (sliceB x.1 x.2) R.CHN_STAT_DRIVE_LOCK = !flag t (sliceB x.1 x.2) R.CHN_CTL_CONTACT_OVR) ∧
      flag t glb R.GLB_IO_STAT_CARD = false ∧ flag t glb R.GLB_IO_STAT_CARD_RAW = false ∧ flag t glb R.GLB_IO_STAT_REMOVED = true ∧
      ∀ j x, getJob? s j = some x → x.phase = .running → (x.opcode = 0x20 → ∃ r2, JobEnds t j 0x03A2 (x.tally.getD 0 0) (x.tally.getD 1 0) r2) ∧
        (x.opcode = 0x21 → ∃ r1, JobEnds t j 0x03A2 (x.tally.getD 0 0) r1 0)) ∧
    (s.boot.por = false → flag s glb R.GLB_IO_STAT_CARD = false → Runs .cardInsertion s fun t =>
      flag t glb R.GLB_IO_STAT_CARD = true ∧ flag t glb R.GLB_IO_STAT_CARD_RAW = true ∧
      (∀ x ∈ allSlices, flag t (sliceB x.1 x.2) R.CHN_STAT_SC_CARD = false) ∧
      RegsBut s t (fieldKey glb R.GLB_IO_STAT_CARD 0 :: fieldKey glb R.GLB_IO_STAT_CARD_RAW 0 ::
        allSlices.map fun x => fieldKey (sliceB x.1 x.2) R.CHN_STAT_SC_CARD 0) ∧
      t = { s with regs := t.regs, wakeReq := t.wakeReq } ∧
      (t.wakeReq = if flag s glb R.PWR_CTL_WK_CARD = true ∧ rd s glb R.PWR_STAT_STATE ≤ 1 ∧ s.wakeReq = 0 ∧ flag s glb R.PWR_STAT_CHANGING = false
        then 4 else s.wakeReq)) ∧
    (s.boot.por = false → flag s glb R.GLB_IO_STAT_TOUCH = false → Runs (.touchChange true) s fun t =>
      flag t glb R.GLB_IO_STAT_TOUCH = true ∧ Counted s t glb R.GLB_PRB_CNT_TOUCHES ∧
      RegsBut s t [fieldKey glb R.GLB_IO_STAT_TOUCH 0, fieldKey glb R.GLB_PRB_CNT_TOUCHES 0] ∧ t = { s with regs := t.regs, wakeReq := t.wakeReq } ∧
      (t.wakeReq = if flag s glb R.PWR_CTL_WK_TOUCH = true ∧ rd s glb R.PWR_STAT_STATE ≤ 1 ∧ s.wakeReq = 0 ∧ flag s glb R.PWR_STAT_CHANGING = false
        then 3 else s.wakeReq)) ∧
    (s.boot.por = false → flag s glb R.GLB_IO_STAT_TOUCH = true → Runs (.touchChange false) s fun t =>
      flag t glb R.GLB_IO_STAT_TOUCH = false ∧ flag t glb R.GLB_PRB_CTL_EOT = false ∧ flag t glb R.GLB_IO_STAT_EOT_OUT = false ∧
      ((flag s glb R.GLB_PRB_CTL_LIFTABORT = false ∨ ∀ e ∈ s.gangs, gangLive s e.2 = false) → t = { s with regs := t.regs } ∧
        RegsBut s t [fieldKey glb R.GLB_IO_STAT_TOUCH 0, fieldKey glb R.GLB_PRB_CTL_EOT 0, fieldKey glb R.GLB_IO_STAT_EOT_OUT 0]) ∧
      ∀ l g, flag s glb R.GLB_PRB_CTL_LIFTABORT = true → s.gangs = [(l, g)] → g.waiting = false → gangArmed s g = true → (∃ u ∈ g.tiles, u < 48) →
        getGang? t l = none ∧ ∀ j, g.job = some j → JobOpen s j → ∃ r0 r2, JobEnds t j 0x03A3 r0 (g.ns.getD 0) r2) ∧
    ∀ v : Bool, HostOpen s →
      (v = true → flag s glb R.GLB_IO_STAT_TOUCH = false → Runs (.eotWrite v) s fun t => t = s) ∧
      ((v = false ∨ flag s glb R.GLB_IO_STAT_TOUCH = true) → Runs (.eotWrite v) s fun t => flag t glb R.GLB_PRB_CTL_EOT = v ∧
        flag t glb R.GLB_IO_STAT_EOT_OUT = v ∧ t = { s with regs := t.regs } ∧ RegsBut s t [fieldKey glb R.GLB_PRB_CTL_EOT 0, fieldKey glb R.GLB_IO_STAT_EOT_OUT 0])

/-- R443 to R446, R461: read commands answer the identity with the serial number, the status bytes, the first fault, the key status and the fuse
status; WAKE asks for a wake with cause 1, and FUSE_ARM arms with 0x5C76 alone; a fuse command spends the arm and burns only if armed, enabled, READY
and blank; the burn's end shows `FUSE_DONE` with the fuse set, or `FUSE_ERR`, a key slot then revoked; an alert response answers the address and
releases the alert. A write command that is not served changes nothing but `PECERR`. -/
def Obligations.Sideband : Prop :=
  (∀ s : State,
    (s.boot.por = false → ∀ pec : Bool,
      (Runs (.ident pec) s fun t => SmbReads s t 1 pec (12 :: leBytes 4 (wordAt s 0) ++ leBytes 4 (cfgRead s 0x14C) ++ leBytes 4 (cfgRead s 0x150))) ∧
      (Runs (.status pec) s fun t => SmbReads s t 2 pec (16 :: leBytes 4 (wordAt s 0x100000) ++ leBytes 4 (wordAt s 0x400004) ++ leBytes 2 (wordAt s 0x410008) ++
        leBytes 2 (wordAt s 0x410004) ++ leBytes 1 (wordAt s 0x420004) ++ leBytes 1 (wordAt s 0x1000) ++ [0, 0])) ∧
      (Runs (.first pec) s fun t => SmbReads s t 4 pec (32 :: (List.range 8).flatMap fun i => leBytes 4 (rdi s glb R.FLT_FIRST_WORD i))) ∧
      (Runs (.keystat pec) s fun t => SmbReads s t 5 pec (leBytes 2 (wordAt s 0x3000))) ∧
      (Runs (.fuseStat pec) s fun t => SmbReads s t 0x14 pec [rd s glb R.GLB_SMB_STAT_FUSE_BUSY + rd s glb R.GLB_SMB_STAT_FUSE_DONE * 2 +
        rd s glb R.GLB_SMB_STAT_FUSE_ERR * 4])) ∧
    (s.boot.por = false → flag s glb R.GLB_SMB_STAT_ALERT = true → Runs .alertResponse s fun t => t = { s with regs := t.regs, resp := t.resp } ∧
      t.resp = [(0x58 + rd s glb R.GLB_IO_STAT_SMBADDR) * 2] ∧ flag t glb R.GLB_SMB_STAT_ALERT = false ∧ RegsBut s t [fieldKey glb R.GLB_SMB_STAT_ALERT 0]) ∧
    (Runs .smbusTimeout s fun t => t = s) ∧ (Runs .fuseArmExpiry s fun t => t = { s with smb := { s.smb with armed := false } }) ∧
    (∀ (pec : Pec) (slot : BitVec 8) (hash : List Nat) (w : Word) (v : BitVec 16),
      (s.boot.por = false → ¬SmbServed s false pec → Runs (.smbusWake pec) s fun t => SmbTurned s t false pec) ∧
      (s.boot.por = false → ¬SmbServed s false pec → Runs (.fuseArm pec v) s fun t => SmbTurned s t false pec) ∧
      (s.boot.por = false → ¬SmbServed s true pec → Runs (.fuseKey pec slot hash) s (fun t => SmbTurned s t true pec) ∧
        Runs (.fuseRevoke pec slot) s (fun t => SmbTurned s t true pec) ∧ Runs (.fuseSsid pec w) s fun t => SmbTurned s t true pec) ∧
      (SmbServed s false pec →
        (Runs (.smbusWake pec) s fun t => t = { s with resp := [1]
                                                       wakeReq := if rd s glb R.PWR_STAT_STATE ≤ 1 ∧ s.wakeReq = 0 ∧ flag s glb R.PWR_STAT_CHANGING = false then 1 else s.wakeReq }) ∧
        Runs (.fuseArm pec v) s fun t => t = { s with resp := [1], smb := { s.smb with armed := v == 0x5C76#16 } }) ∧
      (SmbServed s true pec →
        (Runs (.fuseKey pec slot hash) s fun t => FuseTaken s t 0x11 slot.toNat (hash.map (· % 256))
          (1 ≤ slot.toNat ∧ slot.toNat ≤ 3 ∧ hash.length = 48 ∧ (rd s glb R.GLB_KEYSTAT_PROG).testBit slot.toNat = false)) ∧
        (Runs (.fuseRevoke pec slot) s fun t => FuseTaken s t 0x12 slot.toNat []
          (slot.toNat ≤ 3 ∧ (rd s glb R.GLB_KEYSTAT_REVOKED).testBit slot.toNat = false)) ∧
        Runs (.fuseSsid pec w) s fun t => FuseTaken s t 0x13 0 (leBytes 4 w.toNat) (ssidFuse s / 2 ^ 16 = 0)))) ∧
  ∀ (s : State) (code slot : Nat) (bytes : List Nat), s.smb.burn = some (code, slot, bytes) →
    let ends := fun (t : State) (f : Field) => flag t glb f = true ∧ flag t glb R.GLB_SMB_STAT_FUSE_BUSY = false ∧ t.smb.burn = none ∧
      flag t glb R.GLB_SMB_STAT_ALERT = (flag s glb R.GLB_SMB_STAT_ALERT || !flag s glb f) ∧
      t = { s with regs := t.regs, smb := t.smb, boot := t.boot, keyHash := t.keyHash, fresh := t.fresh }
    (Runs (.fuseBurnDone true) s fun t => ends t R.GLB_SMB_STAT_FUSE_DONE ∧
      (code = 0x11 → slot < 4 → mapGet? t.keyHash slot = some bytes ∧ (rd t glb R.GLB_KEYSTAT_PROG).testBit slot = true ∧
        rd t glb R.GLB_KEYSTAT_REVOKED = rd s glb R.GLB_KEYSTAT_REVOKED) ∧
      (code = 0x12 → slot < 4 → (rd t glb R.GLB_KEYSTAT_REVOKED).testBit slot = true ∧ t.keyHash = s.keyHash) ∧
      (code = 0x13 → t.smb.ssid = some (leNat bytes) ∧ t.keyHash = s.keyHash)) ∧
    Runs (.fuseBurnDone false) s fun t => ends t R.GLB_SMB_STAT_FUSE_ERR ∧
      (code = 0x11 → slot < 4 → (rd t glb R.GLB_KEYSTAT_PROG).testBit slot = true ∧ (rd t glb R.GLB_KEYSTAT_REVOKED).testBit slot = true)

/-- R449 to R451, R454, R455: a power-on reset leaves every register at its Reset value, fuses and host memory kept, and holds until released; one
of VDD_IO alone, or PERST_N, on a sealed part resets its port alone. The boot treats a key slot that does not read alike as revoked and loads such
a trim as 0, with `FUSEERR`; a safety image that fails once raises 0x27, one that fails twice seals the part; a PERST_N reset is a cold reset that
boots at once. -/
def Obligations.ColdReset : Prop :=
  ∀ s : State,
    (∀ aon : Bool, (sealed s = false ∨ aon = true) → Runs (.powerOnReset aon) s fun t => ColdState s t true s.boot.perst []) ∧
    (sealed s = true → Runs (.powerOnReset false) s fun t => PortReset s t ∧ t.boot = s.boot) ∧
    (s.boot.por = true → ∀ (badKeys : List (Fin 4)) (badTrims : List Nat) (again : Bool), Runs (.porRelease badKeys badTrims true again) s fun t =>
      t = { s with regs := t.regs, boot := t.boot } ∧ t.boot.por = false ∧ CardCause s t ∧
      (∀ k : Fin 4, (rd t glb R.GLB_KEYSTAT_REVOKED).testBit k = ((rd s glb R.GLB_KEYSTAT_REVOKED).testBit k || badKeys.contains k)) ∧
      (∀ k ∈ badTrims, isTrim k = true → mapGet? t.regs k = some 0) ∧
      flag t glb R.GLB_ST_STAT_FUSEERR = (flag s glb R.GLB_ST_STAT_FUSEERR || !badKeys.isEmpty || badTrims.any isTrim)) ∧
    (s.boot.por = true → rdi s glb R.FLT_KSTAT_LATCHED 0x27 ≠ 1 → rd s glb R.FLT_STAT_REACT = 7 →
      (Runs (.porRelease [] [] false true) s fun t => t.boot.por = false ∧ Logged s t (0x27 * 1024) 1 0 false false ∧ sealed t = sealed s ∧ CardCause s t) ∧
      (StatusFree s allSlices R.CHN_STAT_SC_DEV → Runs (.porRelease [] [] false false) s fun t => sealed t = true ∧ rd t glb R.FLT_STAT_SCAUSE = 2 ∧
        SafeFor t allSlices R.CHN_STAT_SC_DEV)) ∧
    (s.boot.por = true → ∀ a b c d, Runs (.perstReset a b c d) s fun t => t = { s with boot := { s.boot with perst := false } }) ∧
    (s.boot.por = false → sealed s = true → ∀ a b c d, Runs (.perstReset a b c d) s fun t => PortReset s t ∧ t.boot = { s.boot with perst := false }) ∧
    (s.boot.por = false → sealed s = false → ∀ again, Runs (.perstReset [] [] true again) s fun t =>
      ColdState s t false false (fieldKey glb R.GLB_RST_STAT_CAUSE 0 :: allSlices.map fun x => fieldKey (sliceB x.1 x.2) R.CHN_STAT_SC_CARD 0) ∧
      rd t glb R.GLB_RST_STAT_CAUSE = 1 ∧ CardCause s t) ∧
    (Runs .perstRelease s fun t => t = { s with boot := { s.boot with perst := true } })
/-- R450 to R453, R456: with the PLLs locked training starts; the self-test's end retires what failed, maps an unserved position to the lowest free
slice, counts, clears `SC_RST`, and a slice without another cause leaves the safe state. A warm reset write before READY or during a reset is refused;
accepted, it puts every slice in the safe state for `SC_RST` and drops jobs; its end clears `BUSY` and `SC_RST` with the cause and the count, keeps
memories, time, faults, heat and power, and empties a teller without a valid image; a CXL Reset also clears viral and the snoop filter. -/
def Obligations.StartupAndWarmReset : Prop :=
  ∀ s : State,
    (s.boot.plls = true → s.boot.locked = false → sealed s = false → Runs .startupPllsLocked s fun t => rd t glb R.MEM_STAT_STATE = 1 ∧ QualShown t ∧
      t = { s with regs := t.regs, boot := { s.boot with locked := true } } ∧ RegsBut s t [fieldKey glb R.MEM_STAT_STATE 0, fieldKey glb R.TIM_STAT_QUAL 0]) ∧
    (∀ fails quads : List Nat, s.boot.locked = true → flag s glb R.GLB_ST_STAT_SELFTEST = false → sealed s = false →
      Runs (.selftestDone fails quads) s fun t =>
        let bad := SelfFails s fails quads
        flag t glb R.GLB_ST_STAT_SELFTEST = true ∧ SameBytes s t ∧
        (∃ l : List (Nat × Nat), l.Nodup ∧ (∀ u p, (u, p) ∈ l ↔ u < 48 ∧ p < 18 ∧ bad u p) ∧ rd t glb R.GLB_ST_STAT_STRET = l.length % 2 ^ 10) ∧
        (∀ u p, u < 48 → p < 18 → (isRetired t u p = true ↔ isRetired s u p = true ∨ bad u p) ∧
          (bad u p → ∃ i, (detNo 0x03 (u * 18 + p), i) ∈ t.flt.signals) ∧ flag t (sliceB u p) R.CHN_STAT_SC_RST = false ∧
          (isRetired t u p = true → flag t (sliceB u p) R.CHN_STAT_SAFE = flag s (sliceB u p) R.CHN_STAT_SAFE) ∧
          (isRetired t u p = false → flag t (sliceB u p) R.CHN_STAT_SAFE = (flag s (sliceB u p) R.CHN_STAT_SAFE &&
            [R.CHN_STAT_SC_SW, R.CHN_STAT_SC_CARD, R.CHN_STAT_SC_DEV, R.CHN_STAT_SC_CRIT, R.CHN_STAT_SC_DEP, R.CHN_STAT_SC_OVC].any (flag s (sliceB u p))))) ∧
        ∀ u k f, u < 48 → k < 16 → sliceOf s u k < 18 → bad u (sliceOf s u k) → (∀ p, p < 18 → bad u p → p = sliceOf s u k) → (getTile s u).remap = none →
          (∀ m, m < 16 → m ≠ k → isRetired s u (sliceOf s u m) = false ∧ sliceOf s u m ≠ sliceOf s u k) → (freeSlices s u).head? = some f → sliceOf t u k = f) ∧
    (sealed s = false → (flag s glb R.GLB_RST_STAT_BUSY = true → Runs .warmReset s fun t => flag t glb R.GLB_RST_STAT_REFUSED = true ∧
        Counted s t glb R.GLB_ACC_CNT_COUNT ∧ t = { s with regs := t.regs })) ∧
    (HostOpen s → (flag s glb R.GLB_ST_STAT_READY = false → Runs .warmReset s fun t => flag t glb R.GLB_RST_STAT_REFUSED = true ∧
        t = { s with regs := t.regs } ∧ RegsBut s t [fieldKey glb R.GLB_RST_STAT_REFUSED 0]) ∧
      (flag s glb R.GLB_ST_STAT_READY = true → StatusFree s allSlices R.CHN_STAT_SC_RST → Runs .warmReset s fun t => WarmStarts s t ∧ t.boot = s.boot)) ∧
    (s.boot.por = false → sealed s = false → flag s glb R.HAT_LINK_STAT_UP = true →
      (flag s glb R.GLB_RST_STAT_BUSY = true → Runs .cxlReset s fun t => t = { s with boot := { s.boot with cxl := true } }) ∧
      (flag s glb R.GLB_RST_STAT_BUSY = false → StatusFree s allSlices R.CHN_STAT_SC_RST → Runs .cxlReset s fun t =>
        WarmStarts s t ∧ t.boot = { s.boot with cxl := true })) ∧
    (flag s glb R.GLB_RST_STAT_BUSY = true → (∀ e ∈ s.gangs, gangLive s e.2 = false) → Runs .warmResetDone s fun t =>
      flag t glb R.GLB_RST_STAT_BUSY = false ∧ rd t glb R.GLB_RST_STAT_CAUSE = (if s.boot.cxl then 3 else 2) ∧ t.boot = { s.boot with cxl := false } ∧
      (s.boot.cxl = false → Counted s t glb R.GLB_RST_STAT_WARMCNT) ∧
      (∀ x ∈ allSlices, flag t (sliceB x.1 x.2) R.CHN_STAT_SC_RST = false ∧
        flag t (sliceB x.1 x.2) R.CHN_STAT_DRIVE_LOCK = flag s (sliceB x.1 x.2) R.CHN_STAT_DRIVE_LOCK) ∧
      (∀ u p, getSlice t u p = { Slice.reset with glideTrim := (getSlice s u p).glideTrim, tdcRuns := (getSlice s u p).tdcRuns }) ∧
      t.gangs = [] ∧ t.shadow = [] ∧ t.rings.jobs = [] ∧ t.rings.waiting = [] ∧ t.xlt.streams = [] ∧ SameBytes s t ∧ t.now = s.now ∧
      (∀ k, 0x300000 * 32 ≤ k → k < 0x800000 * 32 → s.boot.cxl = false → mapGet? t.regs k = mapGet? s.regs k) ∧
      (s.boot.cxl = true → flag t glb R.HAT_LINK_STAT_VIRAL = false ∧ t.sf = [] ∧ flag t glb R.HAT_HDM_STAT_COMMITTED = false) ∧
      ∀ n, n < 192 → telState s n = 1 → rdi s glb R.GLB_IMGSTAT_VALID (rd s (telB n) R.TIL_TEL_STAT_SLOT) ≠ 1 → telState t n = 0 ∧ telRole t n = 0)
end

