-- ==== Sys2Proof/Laws/Map.lean ====
section
/-! SUPPORT. Sparse maps and byte memories: what a read answers after a write, and the forms that writes keep. -/
namespace Sys2Proof.Machine

/-! ### Sparse maps -/

@[simp] theorem mapGet?_put_self {α : Type} (m : Map α) (x : Nat) (v : α) : mapGet? (mapPut m x v) x = some v := by
  induction m with
  | nil => simp [mapPut, mapGet?]
  | cons e r ih =>
    obtain ⟨k, w⟩ := e
    by_cases h1 : x < k
    · simp [mapPut, mapGet?, h1]
    · by_cases h2 : x = k
      · simp [mapPut, mapGet?, h2]
      · simp [mapPut, mapGet?, h1, h2, ih, Ne.symm h2]

theorem mapGet?_put_ne {α : Type} (m : Map α) {x y : Nat} (v : α) (h : y ≠ x) : mapGet? (mapPut m x v) y = mapGet? m y := by
  induction m with
  | nil => simp [mapPut, mapGet?, Ne.symm h]
  | cons e r ih =>
    obtain ⟨k, w⟩ := e
    by_cases h1 : x < k
    · simp [mapPut, mapGet?, h1, Ne.symm h]
    · by_cases h2 : x = k
      · subst h2; simp [mapPut, mapGet?, Ne.symm h]
      · by_cases h3 : k = y
        · subst h3; simp [mapPut, mapGet?, h1, h2]
        · simp [mapPut, mapGet?, h1, h2, h3, ih]

theorem mapGet?_put {α : Type} (m : Map α) (x y : Nat) (v : α) :
    mapGet? (mapPut m x v) y = if y = x then some v else mapGet? m y := by
  by_cases h : y = x
  · subst h; simp
  · rw [mapGet?_put_ne m v h, if_neg h]

@[simp] theorem mapGet_put_self {α : Type} (m : Map α) (x : Nat) (v d : α) : mapGet (mapPut m x v) x d = v := by
  simp [mapGet]

theorem mapGet_put_ne {α : Type} (m : Map α) {x y : Nat} (v d : α) (h : y ≠ x) : mapGet (mapPut m x v) y d = mapGet m y d := by
  simp [mapGet, mapGet?_put_ne m v h]

theorem mapGet_put {α : Type} (m : Map α) (x y : Nat) (v d : α) :
    mapGet (mapPut m x v) y d = if y = x then v else mapGet m y d := by
  by_cases h : y = x
  · subst h; simp
  · rw [mapGet_put_ne m v d h, if_neg h]

theorem mapGet?_filter {α : Type} (m : Map α) (p : Nat × α → Bool) (q : Nat → Bool) (hq : ∀ e : Nat × α, p e = q e.1) (y : Nat) :
    mapGet? (m.filter p) y = if q y then mapGet? m y else none := by
  induction m with
  | nil => simp [mapGet?]
  | cons e r ih =>
    obtain ⟨k, w⟩ := e
    by_cases hk : k = y
    · subst hk
      by_cases hp : q k = true
      · simp [List.filter, hq, hp, mapGet?]
      · simp only [Bool.not_eq_true] at hp
        simp [List.filter, hq, hp, ih]
    · by_cases hp : q k = true
      · simp [List.filter, hq, hp, mapGet?, hk, ih]
      · simp only [Bool.not_eq_true] at hp
        simp [List.filter, hq, hp, ih, mapGet?, hk]

@[simp] theorem mapGet?_erase_self {α : Type} (m : Map α) (x : Nat) : mapGet? (mapErase m x) x = none := by
  simp [mapErase, mapGet?_filter m _ (fun k => k != x) (fun _ => rfl)]

theorem mapGet?_erase_ne {α : Type} (m : Map α) {x y : Nat} (h : y ≠ x) : mapGet? (mapErase m x) y = mapGet? m y := by
  simp [mapErase, mapGet?_filter m _ (fun k => k != x) (fun _ => rfl), h]

theorem mapGet?_dropRange {α : Type} (m : Map α) (lo hi y : Nat) :
    mapGet? (mapDropRange m lo hi) y = if decide (y < lo) || decide (hi ≤ y) then mapGet? m y else none :=
  mapGet?_filter m _ (fun k => decide (k < lo) || decide (hi ≤ k)) (fun _ => rfl) y

/-! ### Rising keys -/

theorem mapRising_mono {α : Type} {lo lo' : Nat} (h : lo' ≤ lo) (m : Map α) (hm : mapRising lo m = true) : mapRising lo' m = true := by
  cases m with
  | nil => rfl
  | cons e r =>
    obtain ⟨k, v⟩ := e
    simp only [mapRising, Bool.and_eq_true, decide_eq_true_eq] at hm ⊢
    exact ⟨by omega, hm.2⟩

theorem mapRising_put {α : Type} (m : Map α) (lo x : Nat) (v : α) (hx : lo ≤ x) (hm : mapRising lo m = true) :
    mapRising lo (mapPut m x v) = true := by
  induction m generalizing lo with
  | nil => simp [mapPut, mapRising, hx]
  | cons e r ih =>
    obtain ⟨k, w⟩ := e
    simp only [mapRising, Bool.and_eq_true, decide_eq_true_eq] at hm
    by_cases h1 : x < k
    · simp only [mapPut, h1, if_true, mapRising, Bool.and_eq_true, decide_eq_true_eq]
      exact ⟨hx, by omega, hm.2⟩
    · by_cases h2 : x = k
      · subst h2
        simp only [mapPut, h1, if_false, if_true, mapRising, Bool.and_eq_true, decide_eq_true_eq]
        exact ⟨hx, hm.2⟩
      · simp only [mapPut, h1, h2, if_false, mapRising, Bool.and_eq_true, decide_eq_true_eq]
        exact ⟨hm.1, ih (k + 1) (by omega) hm.2⟩

theorem mapRising_filter {α : Type} (m : Map α) (p : Nat × α → Bool) (lo : Nat) (hm : mapRising lo m = true) :
    mapRising lo (m.filter p) = true := by
  induction m generalizing lo with
  | nil => rfl
  | cons e r ih =>
    obtain ⟨k, w⟩ := e
    simp only [mapRising, Bool.and_eq_true, decide_eq_true_eq] at hm
    by_cases hp : p (k, w) = true
    · simp only [List.filter, hp, mapRising, Bool.and_eq_true, decide_eq_true_eq]
      exact ⟨hm.1, ih _ hm.2⟩
    · simp only [Bool.not_eq_true] at hp
      simp only [List.filter, hp]
      exact ih lo (mapRising_mono (by omega) r hm.2)

/-- A map that keeps the keys keeps their order. -/
theorem mapRising_keys {α : Type} (f : Nat × α → Nat × α) (hf : ∀ e, (f e).1 = e.1) (m : Map α) (lo : Nat)
    (hm : mapRising lo m = true) : mapRising lo (m.map f) = true := by
  induction m generalizing lo with
  | nil => rfl
  | cons e r ih =>
    obtain ⟨k, w⟩ := e
    simp only [mapRising, Bool.and_eq_true, decide_eq_true_eq] at hm
    have hk := hf (k, w)
    simp only [List.map, mapRising, hk, Bool.and_eq_true, decide_eq_true_eq]
    exact ⟨hm.1, ih _ hm.2⟩

theorem mapRising_puts {α : Type} (l : List (Nat × α)) (m : Map α) (hm : mapRising 0 m = true) :
    mapRising 0 (l.foldl (fun m e => mapPut m e.1 e.2) m) = true := by
  induction l generalizing m with
  | nil => exact hm
  | cons e r ih => exact ih _ (mapRising_put m 0 e.1 e.2 (Nat.zero_le _) hm)

/-! ### Byte memories -/

theorem rising_mono {lo lo' : Nat} (h : lo' ≤ lo) (m : List Host.Cell) (hm : rising lo m = true) : rising lo' m = true := by
  cases m with
  | nil => rfl
  | cons e r =>
    obtain ⟨k, v⟩ := e
    simp only [rising, Bool.and_eq_true, decide_eq_true_eq] at hm ⊢
    exact ⟨⟨by omega, hm.1.2⟩, hm.2⟩

theorem rising_memPut (m : List Host.Cell) (lo a : Nat) (v : Byte) (ha : lo ≤ a) (hm : rising lo m = true) :
    rising lo (memPut m a v) = true := by
  induction m generalizing lo with
  | nil =>
    by_cases hv : v = unlistedByte
    · simp [memPut, hv, rising]
    · simp [memPut, hv, rising, ha]
  | cons e r ih =>
    obtain ⟨k, w⟩ := e
    have hm' := hm
    simp only [rising, Bool.and_eq_true, decide_eq_true_eq] at hm'
    obtain ⟨⟨h1, h2⟩, h3⟩ := hm'
    by_cases hlt : a < k
    · by_cases hv : v = unlistedByte
      · simpa [memPut, hlt, hv] using hm
      · simp only [memPut, hlt, hv, if_true, if_false, rising, Bool.and_eq_true, decide_eq_true_eq]
        exact ⟨⟨ha, by simp [hv]⟩, ⟨by omega, h2⟩, h3⟩
    · by_cases heq : a = k
      · subst heq
        by_cases hv : v = unlistedByte
        · simp only [memPut, hlt, hv, if_true, if_false]
          exact rising_mono (by omega) r h3
        · simp only [memPut, hlt, hv, if_true, if_false, rising, Bool.and_eq_true, decide_eq_true_eq]
          exact ⟨⟨ha, by simp [hv]⟩, h3⟩
      · simp only [memPut, hlt, heq, if_false, rising, Bool.and_eq_true, decide_eq_true_eq]
        exact ⟨⟨h1, h2⟩, ih (k + 1) (by omega) h3⟩

/-- A store keeps the canonical form. -/
theorem wf_memPut (m : List Host.Cell) (a : Nat) (v : Byte) (hm : Memory.wf m = true) : Memory.wf (memPut m a v) = true :=
  rising_memPut m 0 a v (Nat.zero_le _) hm

/-- Stores of several bytes keep the canonical form. -/
theorem wf_memPuts (m : List Host.Cell) (a : Nat) (l : List Nat) (hm : Memory.wf m = true) : Memory.wf (memPuts m a l) = true := by
  induction l generalizing m a with
  | nil => exact hm
  | cons b r ih => exact ih _ _ (wf_memPut m a _ hm)

theorem memByte_below (m : List Host.Cell) (lo a : Nat) (hm : rising lo m = true) (ha : a < lo) : memByte m a = unlistedByte := by
  induction m generalizing lo with
  | nil => rfl
  | cons e r ih =>
    obtain ⟨k, w⟩ := e
    simp only [rising, Bool.and_eq_true, decide_eq_true_eq] at hm
    have hk : k ≠ a := by omega
    simp only [memByte, hk, if_false]
    exact ih (k + 1) hm.2 (by omega)

/-- A read answers what the last store put there, or what was there before. -/
theorem memByte_memPut (m : List Host.Cell) (lo a b : Nat) (v : Byte) (hm : rising lo m = true) :
    memByte (memPut m a v) b = if b = a then v else memByte m b := by
  induction m generalizing lo with
  | nil =>
    by_cases hv : v = unlistedByte
    · simp [memPut, hv, memByte]
    · by_cases hb : b = a
      · simp [memPut, hv, memByte, hb]
      · simp [memPut, hv, memByte, hb, Ne.symm hb]
  | cons e r ih =>
    obtain ⟨k, w⟩ := e
    have hm' := hm
    simp only [rising, Bool.and_eq_true, decide_eq_true_eq] at hm'
    obtain ⟨⟨h1, h2⟩, h3⟩ := hm'
    by_cases hlt : a < k
    · by_cases hv : v = unlistedByte
      · simp only [memPut, hlt, hv, if_true]
        by_cases hb : b = a
        · subst hb
          have hk : k ≠ b := by omega
          simp only [memByte, hk, if_false, if_true]
          exact memByte_below r (k + 1) b h3 (by omega)
        · simp [hb]
      · by_cases hb : b = a
        · simp [memPut, hlt, hv, memByte, hb]
        · simp [memPut, hlt, hv, memByte, hb, Ne.symm hb]
    · by_cases heq : a = k
      · subst heq
        by_cases hv : v = unlistedByte
        · simp only [memPut, hlt, hv, if_true, if_false]
          by_cases hb : b = a
          · subst hb
            simp only [if_true]
            exact memByte_below r (b + 1) b h3 (by omega)
          · simp [memByte, hb, Ne.symm hb]
        · by_cases hb : b = a
          · simp [memPut, hv, memByte, hb]
          · simp [memPut, hv, memByte, hb, Ne.symm hb]
      · simp only [memPut, hlt, heq, if_false]
        by_cases hkb : k = b
        · subst hkb
          simp [memByte, Ne.symm heq]
        · simp only [memByte, hkb, if_false]
          exact ih (k + 1) h3

/-- A store of several bytes leaves every other byte alone. -/
theorem memByte_memPuts_ne (l : List Nat) (m : List Host.Cell) (a b : Nat) (hm : Memory.wf m = true) (hb : b < a ∨ a + l.length ≤ b) :
    memByte (memPuts m a l) b = memByte m b := by
  induction l generalizing m a with
  | nil => rfl
  | cons x r ih =>
    simp only [memPuts]
    rw [ih _ _ (wf_memPut m a _ hm) (by simp only [List.length_cons] at hb; omega), memByte_memPut m 0 a b _ hm, if_neg]
    simp only [List.length_cons] at hb; omega

/-- A store of several bytes answers the byte stored. -/
theorem memByte_memPuts_in (l : List Nat) (m : List Host.Cell) (a i : Nat) (hm : Memory.wf m = true) (hi : i < l.length) :
    memByte (memPuts m a l) (a + i) = BitVec.ofNat 8 (l.getD i 0) := by
  induction l generalizing m a i with
  | nil => simp at hi
  | cons x r ih =>
    simp only [memPuts]
    cases i with
    | zero =>
      rw [memByte_memPuts_ne r _ (a + 1) (a + 0) (wf_memPut m a _ hm) (by omega), memByte_memPut m 0 a _ _ hm]
      simp
    | succ j =>
      have := ih (memPut m a (BitVec.ofNat 8 x)) (a + 1) j (wf_memPut m a _ hm) (by simpa using hi)
      rw [show a + 1 + j = a + (j + 1) by omega] at this
      simpa using this

end Sys2Proof.Machine
end

