-- ==== Sys2Proof/Laws/Regs.lean ====
section
/-! SUPPORT. Register fields: what a read answers after a write, in the same block and in another. -/
namespace Sys2Proof.Machine

/-- Bit address of a field's element within its block. -/
def relKey (f : Field) (i : Nat) : Nat := (f.off + i * f.stride) * 32 + f.lsb

theorem fieldKey_eq (b : Nat) (f : Field) (i : Nat) : fieldKey b f i = b * 32 + relKey f i := by
  simp only [fieldKey, relKey]; omega

theorem fieldKey_ne {f g : Field} {i j : Nat} (b : Nat) (h : relKey f i ≠ relKey g j) : fieldKey b f i ≠ fieldKey b g j := by
  rw [fieldKey_eq, fieldKey_eq]; omega

theorem rdi_wri (s : State) (b c : Nat) (f g : Field) (i j v : Nat) :
    rdi (wri s b f i v) c g j = if fieldKey c g j = fieldKey b f i then v % 2 ^ f.width else rdi s c g j :=
  mapGet_put s.regs (fieldKey b f i) (fieldKey c g j) (v % 2 ^ f.width) (resetOf c g j)

/-- A field reads what was written to it, cut to its width. -/
@[simp] theorem rdi_wri_self (s : State) (b : Nat) (f : Field) (i v : Nat) : rdi (wri s b f i v) b f i = v % 2 ^ f.width := by
  simp [rdi_wri]

theorem rdi_wri_key (s : State) {b c : Nat} {f g : Field} {i j : Nat} (v : Nat) (h : fieldKey c g j ≠ fieldKey b f i) :
    rdi (wri s b f i v) c g j = rdi s c g j := by
  simp [rdi_wri, h]

/-- Another field of the block reads as before. -/
theorem rdi_wri_ne (s : State) (b : Nat) {f g : Field} {i j : Nat} (v : Nat) (h : relKey g j ≠ relKey f i) :
    rdi (wri s b f i v) b g j = rdi s b g j :=
  rdi_wri_key s v (fieldKey_ne b h)

@[simp] theorem rd_wr_self (s : State) (b : Nat) (f : Field) (v : Nat) : rd (wr s b f v) b f = v % 2 ^ f.width := rdi_wri_self s b f 0 v

theorem rd_wr_ne (s : State) (b : Nat) {f g : Field} (v : Nat) (h : relKey g 0 ≠ relKey f 0) : rd (wr s b f v) b g = rd s b g :=
  rdi_wri_ne s b v h

theorem rd_wr_key (s : State) {b c : Nat} {f g : Field} (v : Nat) (h : fieldKey c g 0 ≠ fieldKey b f 0) :
    rd (wr s b f v) c g = rd s c g := rdi_wri_key s v h

theorem rdi_wr_ne (s : State) (b : Nat) {f g : Field} {j : Nat} (v : Nat) (h : relKey g j ≠ relKey f 0) :
    rdi (wr s b f v) b g j = rdi s b g j := rdi_wri_ne s b v h

theorem rd_wri_ne (s : State) (b : Nat) {f g : Field} {i : Nat} (v : Nat) (h : relKey g 0 ≠ relKey f i) :
    rd (wri s b f i v) b g = rd s b g := rdi_wri_ne s b v h

/-- The same of one-bit fields. -/
theorem flag_wr_ne (s : State) (b : Nat) {f g : Field} (v : Nat) (h : relKey g 0 ≠ relKey f 0) : flag (wr s b f v) b g = flag s b g := by
  simp [flag, rd_wr_ne s b v h]

theorem rd_of_regs {s t : State} (h : t.regs = s.regs) (b : Nat) (f : Field) : rd t b f = rd s b f := by simp [rd, rdi, h]

theorem rdi_of_regs {s t : State} (h : t.regs = s.regs) (b : Nat) (f : Field) (i : Nat) : rdi t b f i = rdi s b f i := by simp [rdi, h]

theorem flag_of_regs {s t : State} (h : t.regs = s.regs) (b : Nat) (f : Field) : flag t b f = flag s b f := by simp [flag, rd, rdi, h]

end Sys2Proof.Machine
end

