-- ==== Sys2Proof/Laws/State.lean ====
section
/-! SUPPORT. One lemma per field of State per update: what the update leaves alone. -/
namespace Sys2Proof.Machine

/-! ### wri -/

@[simp] theorem wri_now (s : State) (b : Nat) (f : Field) (i v : Nat) : (wri s b f i v).now = s.now := rfl
@[simp] theorem wri_fresh (s : State) (b : Nat) (f : Field) (i v : Nat) : (wri s b f i v).fresh = s.fresh := rfl
@[simp] theorem wri_shadow (s : State) (b : Nat) (f : Field) (i v : Nat) : (wri s b f i v).shadow = s.shadow := rfl
@[simp] theorem wri_latch (s : State) (b : Nat) (f : Field) (i v : Nat) : (wri s b f i v).latch = s.latch := rfl
@[simp] theorem wri_resp (s : State) (b : Nat) (f : Field) (i v : Nat) : (wri s b f i v).resp = s.resp := rfl
@[simp] theorem wri_hostMem (s : State) (b : Nat) (f : Field) (i v : Nat) : (wri s b f i v).hostMem = s.hostMem := rfl
@[simp] theorem wri_devMem (s : State) (b : Nat) (f : Field) (i v : Nat) : (wri s b f i v).devMem = s.devMem := rfl
@[simp] theorem wri_badLines (s : State) (b : Nat) (f : Field) (i v : Nat) : (wri s b f i v).badLines = s.badLines := rfl
@[simp] theorem wri_slices (s : State) (b : Nat) (f : Field) (i v : Nat) : (wri s b f i v).slices = s.slices := rfl
@[simp] theorem wri_tiles (s : State) (b : Nat) (f : Field) (i v : Nat) : (wri s b f i v).tiles = s.tiles := rfl
@[simp] theorem wri_gangs (s : State) (b : Nat) (f : Field) (i v : Nat) : (wri s b f i v).gangs = s.gangs := rfl
@[simp] theorem wri_sites (s : State) (b : Nat) (f : Field) (i v : Nat) : (wri s b f i v).sites = s.sites := rfl
@[simp] theorem wri_digs (s : State) (b : Nat) (f : Field) (i v : Nat) : (wri s b f i v).digs = s.digs := rfl
@[simp] theorem wri_param (s : State) (b : Nat) (f : Field) (i v : Nat) : (wri s b f i v).param = s.param := rfl
@[simp] theorem wri_xlt (s : State) (b : Nat) (f : Field) (i v : Nat) : (wri s b f i v).xlt = s.xlt := rfl
@[simp] theorem wri_rings (s : State) (b : Nat) (f : Field) (i v : Nat) : (wri s b f i v).rings = s.rings := rfl
@[simp] theorem wri_flt (s : State) (b : Nat) (f : Field) (i v : Nat) : (wri s b f i v).flt = s.flt := rfl
@[simp] theorem wri_memEn (s : State) (b : Nat) (f : Field) (i v : Nat) : (wri s b f i v).memEn = s.memEn := rfl
@[simp] theorem wri_cacheEn (s : State) (b : Nat) (f : Field) (i v : Nat) : (wri s b f i v).cacheEn = s.cacheEn := rfl
@[simp] theorem wri_hdmProg (s : State) (b : Nat) (f : Field) (i v : Nat) : (wri s b f i v).hdmProg = s.hdmProg := rfl
@[simp] theorem wri_sf (s : State) (b : Nat) (f : Field) (i v : Nat) : (wri s b f i v).sf = s.sf := rfl
@[simp] theorem wri_biAsked (s : State) (b : Nat) (f : Field) (i v : Nat) : (wri s b f i v).biAsked = s.biAsked := rfl
@[simp] theorem wri_biSent (s : State) (b : Nat) (f : Field) (i v : Nat) : (wri s b f i v).biSent = s.biSent := rfl
@[simp] theorem wri_cfg (s : State) (b : Nat) (f : Field) (i v : Nat) : (wri s b f i v).cfg = s.cfg := rfl
@[simp] theorem wri_comp (s : State) (b : Nat) (f : Field) (i v : Nat) : (wri s b f i v).comp = s.comp := rfl
@[simp] theorem wri_dcache (s : State) (b : Nat) (f : Field) (i v : Nat) : (wri s b f i v).dcache = s.dcache := rfl
@[simp] theorem wri_ioIde (s : State) (b : Nat) (f : Field) (i v : Nat) : (wri s b f i v).ioIde = s.ioIde := rfl
@[simp] theorem wri_cmBad (s : State) (b : Nat) (f : Field) (i v : Nat) : (wri s b f i v).cmBad = s.cmBad := rfl
@[simp] theorem wri_hbm (s : State) (b : Nat) (f : Field) (i v : Nat) : (wri s b f i v).hbm = s.hbm := rfl
@[simp] theorem wri_ring (s : State) (b : Nat) (f : Field) (i v : Nat) : (wri s b f i v).ring = s.ring := rfl
@[simp] theorem wri_tellers (s : State) (b : Nat) (f : Field) (i v : Nat) : (wri s b f i v).tellers = s.tellers := rfl
@[simp] theorem wri_items (s : State) (b : Nat) (f : Field) (i v : Nat) : (wri s b f i v).items = s.items := rfl
@[simp] theorem wri_roleEvts (s : State) (b : Nat) (f : Field) (i v : Nat) : (wri s b f i v).roleEvts = s.roleEvts := rfl
@[simp] theorem wri_boot (s : State) (b : Nat) (f : Field) (i v : Nat) : (wri s b f i v).boot = s.boot := rfl
@[simp] theorem wri_thm (s : State) (b : Nat) (f : Field) (i v : Nat) : (wri s b f i v).thm = s.thm := rfl
@[simp] theorem wri_smb (s : State) (b : Nat) (f : Field) (i v : Nat) : (wri s b f i v).smb = s.smb := rfl
@[simp] theorem wri_lockout (s : State) (b : Nat) (f : Field) (i v : Nat) : (wri s b f i v).lockout = s.lockout := rfl
@[simp] theorem wri_ssid (s : State) (b : Nat) (f : Field) (i v : Nat) : (wri s b f i v).ssid = s.ssid := rfl
@[simp] theorem wri_keyHash (s : State) (b : Nat) (f : Field) (i v : Nat) : (wri s b f i v).keyHash = s.keyHash := rfl
@[simp] theorem wri_d3 (s : State) (b : Nat) (f : Field) (i v : Nat) : (wri s b f i v).d3 = s.d3 := rfl
@[simp] theorem wri_wakeReq (s : State) (b : Nat) (f : Field) (i v : Nat) : (wri s b f i v).wakeReq = s.wakeReq := rfl
@[simp] theorem wri_laneDown (s : State) (b : Nat) (f : Field) (i v : Nat) : (wri s b f i v).laneDown = s.laneDown := rfl
@[simp] theorem wri_trigOut (s : State) (b : Nat) (f : Field) (i v : Nat) : (wri s b f i v).trigOut = s.trigOut := rfl
@[simp] theorem wri_startQ (s : State) (b : Nat) (f : Field) (i v : Nat) : (wri s b f i v).startQ = s.startQ := rfl
@[simp] theorem wri_pending (s : State) (b : Nat) (f : Field) (i v : Nat) : (wri s b f i v).pending = s.pending := rfl

/-! ### wr -/

@[simp] theorem wr_now (s : State) (b : Nat) (f : Field) (v : Nat) : (wr s b f v).now = s.now := rfl
@[simp] theorem wr_fresh (s : State) (b : Nat) (f : Field) (v : Nat) : (wr s b f v).fresh = s.fresh := rfl
@[simp] theorem wr_shadow (s : State) (b : Nat) (f : Field) (v : Nat) : (wr s b f v).shadow = s.shadow := rfl
@[simp] theorem wr_latch (s : State) (b : Nat) (f : Field) (v : Nat) : (wr s b f v).latch = s.latch := rfl
@[simp] theorem wr_resp (s : State) (b : Nat) (f : Field) (v : Nat) : (wr s b f v).resp = s.resp := rfl
@[simp] theorem wr_hostMem (s : State) (b : Nat) (f : Field) (v : Nat) : (wr s b f v).hostMem = s.hostMem := rfl
@[simp] theorem wr_devMem (s : State) (b : Nat) (f : Field) (v : Nat) : (wr s b f v).devMem = s.devMem := rfl
@[simp] theorem wr_badLines (s : State) (b : Nat) (f : Field) (v : Nat) : (wr s b f v).badLines = s.badLines := rfl
@[simp] theorem wr_slices (s : State) (b : Nat) (f : Field) (v : Nat) : (wr s b f v).slices = s.slices := rfl
@[simp] theorem wr_tiles (s : State) (b : Nat) (f : Field) (v : Nat) : (wr s b f v).tiles = s.tiles := rfl
@[simp] theorem wr_gangs (s : State) (b : Nat) (f : Field) (v : Nat) : (wr s b f v).gangs = s.gangs := rfl
@[simp] theorem wr_sites (s : State) (b : Nat) (f : Field) (v : Nat) : (wr s b f v).sites = s.sites := rfl
@[simp] theorem wr_digs (s : State) (b : Nat) (f : Field) (v : Nat) : (wr s b f v).digs = s.digs := rfl
@[simp] theorem wr_param (s : State) (b : Nat) (f : Field) (v : Nat) : (wr s b f v).param = s.param := rfl
@[simp] theorem wr_xlt (s : State) (b : Nat) (f : Field) (v : Nat) : (wr s b f v).xlt = s.xlt := rfl
@[simp] theorem wr_rings (s : State) (b : Nat) (f : Field) (v : Nat) : (wr s b f v).rings = s.rings := rfl
@[simp] theorem wr_flt (s : State) (b : Nat) (f : Field) (v : Nat) : (wr s b f v).flt = s.flt := rfl
@[simp] theorem wr_memEn (s : State) (b : Nat) (f : Field) (v : Nat) : (wr s b f v).memEn = s.memEn := rfl
@[simp] theorem wr_cacheEn (s : State) (b : Nat) (f : Field) (v : Nat) : (wr s b f v).cacheEn = s.cacheEn := rfl
@[simp] theorem wr_hdmProg (s : State) (b : Nat) (f : Field) (v : Nat) : (wr s b f v).hdmProg = s.hdmProg := rfl
@[simp] theorem wr_sf (s : State) (b : Nat) (f : Field) (v : Nat) : (wr s b f v).sf = s.sf := rfl
@[simp] theorem wr_biAsked (s : State) (b : Nat) (f : Field) (v : Nat) : (wr s b f v).biAsked = s.biAsked := rfl
@[simp] theorem wr_biSent (s : State) (b : Nat) (f : Field) (v : Nat) : (wr s b f v).biSent = s.biSent := rfl
@[simp] theorem wr_cfg (s : State) (b : Nat) (f : Field) (v : Nat) : (wr s b f v).cfg = s.cfg := rfl
@[simp] theorem wr_comp (s : State) (b : Nat) (f : Field) (v : Nat) : (wr s b f v).comp = s.comp := rfl
@[simp] theorem wr_dcache (s : State) (b : Nat) (f : Field) (v : Nat) : (wr s b f v).dcache = s.dcache := rfl
@[simp] theorem wr_ioIde (s : State) (b : Nat) (f : Field) (v : Nat) : (wr s b f v).ioIde = s.ioIde := rfl
@[simp] theorem wr_cmBad (s : State) (b : Nat) (f : Field) (v : Nat) : (wr s b f v).cmBad = s.cmBad := rfl
@[simp] theorem wr_hbm (s : State) (b : Nat) (f : Field) (v : Nat) : (wr s b f v).hbm = s.hbm := rfl
@[simp] theorem wr_ring (s : State) (b : Nat) (f : Field) (v : Nat) : (wr s b f v).ring = s.ring := rfl
@[simp] theorem wr_tellers (s : State) (b : Nat) (f : Field) (v : Nat) : (wr s b f v).tellers = s.tellers := rfl
@[simp] theorem wr_items (s : State) (b : Nat) (f : Field) (v : Nat) : (wr s b f v).items = s.items := rfl
@[simp] theorem wr_roleEvts (s : State) (b : Nat) (f : Field) (v : Nat) : (wr s b f v).roleEvts = s.roleEvts := rfl
@[simp] theorem wr_boot (s : State) (b : Nat) (f : Field) (v : Nat) : (wr s b f v).boot = s.boot := rfl
@[simp] theorem wr_thm (s : State) (b : Nat) (f : Field) (v : Nat) : (wr s b f v).thm = s.thm := rfl
@[simp] theorem wr_smb (s : State) (b : Nat) (f : Field) (v : Nat) : (wr s b f v).smb = s.smb := rfl
@[simp] theorem wr_lockout (s : State) (b : Nat) (f : Field) (v : Nat) : (wr s b f v).lockout = s.lockout := rfl
@[simp] theorem wr_ssid (s : State) (b : Nat) (f : Field) (v : Nat) : (wr s b f v).ssid = s.ssid := rfl
@[simp] theorem wr_keyHash (s : State) (b : Nat) (f : Field) (v : Nat) : (wr s b f v).keyHash = s.keyHash := rfl
@[simp] theorem wr_d3 (s : State) (b : Nat) (f : Field) (v : Nat) : (wr s b f v).d3 = s.d3 := rfl
@[simp] theorem wr_wakeReq (s : State) (b : Nat) (f : Field) (v : Nat) : (wr s b f v).wakeReq = s.wakeReq := rfl
@[simp] theorem wr_laneDown (s : State) (b : Nat) (f : Field) (v : Nat) : (wr s b f v).laneDown = s.laneDown := rfl
@[simp] theorem wr_trigOut (s : State) (b : Nat) (f : Field) (v : Nat) : (wr s b f v).trigOut = s.trigOut := rfl
@[simp] theorem wr_startQ (s : State) (b : Nat) (f : Field) (v : Nat) : (wr s b f v).startQ = s.startQ := rfl
@[simp] theorem wr_pending (s : State) (b : Nat) (f : Field) (v : Nat) : (wr s b f v).pending = s.pending := rfl

/-! ### setF -/

@[simp] theorem setF_now (s : State) (b : Nat) (f : Field) : (setF s b f).now = s.now := rfl
@[simp] theorem setF_fresh (s : State) (b : Nat) (f : Field) : (setF s b f).fresh = s.fresh := rfl
@[simp] theorem setF_shadow (s : State) (b : Nat) (f : Field) : (setF s b f).shadow = s.shadow := rfl
@[simp] theorem setF_latch (s : State) (b : Nat) (f : Field) : (setF s b f).latch = s.latch := rfl
@[simp] theorem setF_resp (s : State) (b : Nat) (f : Field) : (setF s b f).resp = s.resp := rfl
@[simp] theorem setF_hostMem (s : State) (b : Nat) (f : Field) : (setF s b f).hostMem = s.hostMem := rfl
@[simp] theorem setF_devMem (s : State) (b : Nat) (f : Field) : (setF s b f).devMem = s.devMem := rfl
@[simp] theorem setF_badLines (s : State) (b : Nat) (f : Field) : (setF s b f).badLines = s.badLines := rfl
@[simp] theorem setF_slices (s : State) (b : Nat) (f : Field) : (setF s b f).slices = s.slices := rfl
@[simp] theorem setF_tiles (s : State) (b : Nat) (f : Field) : (setF s b f).tiles = s.tiles := rfl
@[simp] theorem setF_gangs (s : State) (b : Nat) (f : Field) : (setF s b f).gangs = s.gangs := rfl
@[simp] theorem setF_sites (s : State) (b : Nat) (f : Field) : (setF s b f).sites = s.sites := rfl
@[simp] theorem setF_digs (s : State) (b : Nat) (f : Field) : (setF s b f).digs = s.digs := rfl
@[simp] theorem setF_param (s : State) (b : Nat) (f : Field) : (setF s b f).param = s.param := rfl
@[simp] theorem setF_xlt (s : State) (b : Nat) (f : Field) : (setF s b f).xlt = s.xlt := rfl
@[simp] theorem setF_rings (s : State) (b : Nat) (f : Field) : (setF s b f).rings = s.rings := rfl
@[simp] theorem setF_flt (s : State) (b : Nat) (f : Field) : (setF s b f).flt = s.flt := rfl
@[simp] theorem setF_memEn (s : State) (b : Nat) (f : Field) : (setF s b f).memEn = s.memEn := rfl
@[simp] theorem setF_cacheEn (s : State) (b : Nat) (f : Field) : (setF s b f).cacheEn = s.cacheEn := rfl
@[simp] theorem setF_hdmProg (s : State) (b : Nat) (f : Field) : (setF s b f).hdmProg = s.hdmProg := rfl
@[simp] theorem setF_sf (s : State) (b : Nat) (f : Field) : (setF s b f).sf = s.sf := rfl
@[simp] theorem setF_biAsked (s : State) (b : Nat) (f : Field) : (setF s b f).biAsked = s.biAsked := rfl
@[simp] theorem setF_biSent (s : State) (b : Nat) (f : Field) : (setF s b f).biSent = s.biSent := rfl
@[simp] theorem setF_cfg (s : State) (b : Nat) (f : Field) : (setF s b f).cfg = s.cfg := rfl
@[simp] theorem setF_comp (s : State) (b : Nat) (f : Field) : (setF s b f).comp = s.comp := rfl
@[simp] theorem setF_dcache (s : State) (b : Nat) (f : Field) : (setF s b f).dcache = s.dcache := rfl
@[simp] theorem setF_ioIde (s : State) (b : Nat) (f : Field) : (setF s b f).ioIde = s.ioIde := rfl
@[simp] theorem setF_cmBad (s : State) (b : Nat) (f : Field) : (setF s b f).cmBad = s.cmBad := rfl
@[simp] theorem setF_hbm (s : State) (b : Nat) (f : Field) : (setF s b f).hbm = s.hbm := rfl
@[simp] theorem setF_ring (s : State) (b : Nat) (f : Field) : (setF s b f).ring = s.ring := rfl
@[simp] theorem setF_tellers (s : State) (b : Nat) (f : Field) : (setF s b f).tellers = s.tellers := rfl
@[simp] theorem setF_items (s : State) (b : Nat) (f : Field) : (setF s b f).items = s.items := rfl
@[simp] theorem setF_roleEvts (s : State) (b : Nat) (f : Field) : (setF s b f).roleEvts = s.roleEvts := rfl
@[simp] theorem setF_boot (s : State) (b : Nat) (f : Field) : (setF s b f).boot = s.boot := rfl
@[simp] theorem setF_thm (s : State) (b : Nat) (f : Field) : (setF s b f).thm = s.thm := rfl
@[simp] theorem setF_smb (s : State) (b : Nat) (f : Field) : (setF s b f).smb = s.smb := rfl
@[simp] theorem setF_lockout (s : State) (b : Nat) (f : Field) : (setF s b f).lockout = s.lockout := rfl
@[simp] theorem setF_ssid (s : State) (b : Nat) (f : Field) : (setF s b f).ssid = s.ssid := rfl
@[simp] theorem setF_keyHash (s : State) (b : Nat) (f : Field) : (setF s b f).keyHash = s.keyHash := rfl
@[simp] theorem setF_d3 (s : State) (b : Nat) (f : Field) : (setF s b f).d3 = s.d3 := rfl
@[simp] theorem setF_wakeReq (s : State) (b : Nat) (f : Field) : (setF s b f).wakeReq = s.wakeReq := rfl
@[simp] theorem setF_laneDown (s : State) (b : Nat) (f : Field) : (setF s b f).laneDown = s.laneDown := rfl
@[simp] theorem setF_trigOut (s : State) (b : Nat) (f : Field) : (setF s b f).trigOut = s.trigOut := rfl
@[simp] theorem setF_startQ (s : State) (b : Nat) (f : Field) : (setF s b f).startQ = s.startQ := rfl
@[simp] theorem setF_pending (s : State) (b : Nat) (f : Field) : (setF s b f).pending = s.pending := rfl

/-! ### clrF -/

@[simp] theorem clrF_now (s : State) (b : Nat) (f : Field) : (clrF s b f).now = s.now := rfl
@[simp] theorem clrF_fresh (s : State) (b : Nat) (f : Field) : (clrF s b f).fresh = s.fresh := rfl
@[simp] theorem clrF_shadow (s : State) (b : Nat) (f : Field) : (clrF s b f).shadow = s.shadow := rfl
@[simp] theorem clrF_latch (s : State) (b : Nat) (f : Field) : (clrF s b f).latch = s.latch := rfl
@[simp] theorem clrF_resp (s : State) (b : Nat) (f : Field) : (clrF s b f).resp = s.resp := rfl
@[simp] theorem clrF_hostMem (s : State) (b : Nat) (f : Field) : (clrF s b f).hostMem = s.hostMem := rfl
@[simp] theorem clrF_devMem (s : State) (b : Nat) (f : Field) : (clrF s b f).devMem = s.devMem := rfl
@[simp] theorem clrF_badLines (s : State) (b : Nat) (f : Field) : (clrF s b f).badLines = s.badLines := rfl
@[simp] theorem clrF_slices (s : State) (b : Nat) (f : Field) : (clrF s b f).slices = s.slices := rfl
@[simp] theorem clrF_tiles (s : State) (b : Nat) (f : Field) : (clrF s b f).tiles = s.tiles := rfl
@[simp] theorem clrF_gangs (s : State) (b : Nat) (f : Field) : (clrF s b f).gangs = s.gangs := rfl
@[simp] theorem clrF_sites (s : State) (b : Nat) (f : Field) : (clrF s b f).sites = s.sites := rfl
@[simp] theorem clrF_digs (s : State) (b : Nat) (f : Field) : (clrF s b f).digs = s.digs := rfl
@[simp] theorem clrF_param (s : State) (b : Nat) (f : Field) : (clrF s b f).param = s.param := rfl
@[simp] theorem clrF_xlt (s : State) (b : Nat) (f : Field) : (clrF s b f).xlt = s.xlt := rfl
@[simp] theorem clrF_rings (s : State) (b : Nat) (f : Field) : (clrF s b f).rings = s.rings := rfl
@[simp] theorem clrF_flt (s : State) (b : Nat) (f : Field) : (clrF s b f).flt = s.flt := rfl
@[simp] theorem clrF_memEn (s : State) (b : Nat) (f : Field) : (clrF s b f).memEn = s.memEn := rfl
@[simp] theorem clrF_cacheEn (s : State) (b : Nat) (f : Field) : (clrF s b f).cacheEn = s.cacheEn := rfl
@[simp] theorem clrF_hdmProg (s : State) (b : Nat) (f : Field) : (clrF s b f).hdmProg = s.hdmProg := rfl
@[simp] theorem clrF_sf (s : State) (b : Nat) (f : Field) : (clrF s b f).sf = s.sf := rfl
@[simp] theorem clrF_biAsked (s : State) (b : Nat) (f : Field) : (clrF s b f).biAsked = s.biAsked := rfl
@[simp] theorem clrF_biSent (s : State) (b : Nat) (f : Field) : (clrF s b f).biSent = s.biSent := rfl
@[simp] theorem clrF_cfg (s : State) (b : Nat) (f : Field) : (clrF s b f).cfg = s.cfg := rfl
@[simp] theorem clrF_comp (s : State) (b : Nat) (f : Field) : (clrF s b f).comp = s.comp := rfl
@[simp] theorem clrF_dcache (s : State) (b : Nat) (f : Field) : (clrF s b f).dcache = s.dcache := rfl
@[simp] theorem clrF_ioIde (s : State) (b : Nat) (f : Field) : (clrF s b f).ioIde = s.ioIde := rfl
@[simp] theorem clrF_cmBad (s : State) (b : Nat) (f : Field) : (clrF s b f).cmBad = s.cmBad := rfl
@[simp] theorem clrF_hbm (s : State) (b : Nat) (f : Field) : (clrF s b f).hbm = s.hbm := rfl
@[simp] theorem clrF_ring (s : State) (b : Nat) (f : Field) : (clrF s b f).ring = s.ring := rfl
@[simp] theorem clrF_tellers (s : State) (b : Nat) (f : Field) : (clrF s b f).tellers = s.tellers := rfl
@[simp] theorem clrF_items (s : State) (b : Nat) (f : Field) : (clrF s b f).items = s.items := rfl
@[simp] theorem clrF_roleEvts (s : State) (b : Nat) (f : Field) : (clrF s b f).roleEvts = s.roleEvts := rfl
@[simp] theorem clrF_boot (s : State) (b : Nat) (f : Field) : (clrF s b f).boot = s.boot := rfl
@[simp] theorem clrF_thm (s : State) (b : Nat) (f : Field) : (clrF s b f).thm = s.thm := rfl
@[simp] theorem clrF_smb (s : State) (b : Nat) (f : Field) : (clrF s b f).smb = s.smb := rfl
@[simp] theorem clrF_lockout (s : State) (b : Nat) (f : Field) : (clrF s b f).lockout = s.lockout := rfl
@[simp] theorem clrF_ssid (s : State) (b : Nat) (f : Field) : (clrF s b f).ssid = s.ssid := rfl
@[simp] theorem clrF_keyHash (s : State) (b : Nat) (f : Field) : (clrF s b f).keyHash = s.keyHash := rfl
@[simp] theorem clrF_d3 (s : State) (b : Nat) (f : Field) : (clrF s b f).d3 = s.d3 := rfl
@[simp] theorem clrF_wakeReq (s : State) (b : Nat) (f : Field) : (clrF s b f).wakeReq = s.wakeReq := rfl
@[simp] theorem clrF_laneDown (s : State) (b : Nat) (f : Field) : (clrF s b f).laneDown = s.laneDown := rfl
@[simp] theorem clrF_trigOut (s : State) (b : Nat) (f : Field) : (clrF s b f).trigOut = s.trigOut := rfl
@[simp] theorem clrF_startQ (s : State) (b : Nat) (f : Field) : (clrF s b f).startQ = s.startQ := rfl
@[simp] theorem clrF_pending (s : State) (b : Nat) (f : Field) : (clrF s b f).pending = s.pending := rfl

/-! ### incF -/

@[simp] theorem incF_now (s : State) (b : Nat) (f : Field) : (incF s b f).now = s.now := rfl
@[simp] theorem incF_fresh (s : State) (b : Nat) (f : Field) : (incF s b f).fresh = s.fresh := rfl
@[simp] theorem incF_shadow (s : State) (b : Nat) (f : Field) : (incF s b f).shadow = s.shadow := rfl
@[simp] theorem incF_latch (s : State) (b : Nat) (f : Field) : (incF s b f).latch = s.latch := rfl
@[simp] theorem incF_resp (s : State) (b : Nat) (f : Field) : (incF s b f).resp = s.resp := rfl
@[simp] theorem incF_hostMem (s : State) (b : Nat) (f : Field) : (incF s b f).hostMem = s.hostMem := rfl
@[simp] theorem incF_devMem (s : State) (b : Nat) (f : Field) : (incF s b f).devMem = s.devMem := rfl
@[simp] theorem incF_badLines (s : State) (b : Nat) (f : Field) : (incF s b f).badLines = s.badLines := rfl
@[simp] theorem incF_slices (s : State) (b : Nat) (f : Field) : (incF s b f).slices = s.slices := rfl
@[simp] theorem incF_tiles (s : State) (b : Nat) (f : Field) : (incF s b f).tiles = s.tiles := rfl
@[simp] theorem incF_gangs (s : State) (b : Nat) (f : Field) : (incF s b f).gangs = s.gangs := rfl
@[simp] theorem incF_sites (s : State) (b : Nat) (f : Field) : (incF s b f).sites = s.sites := rfl
@[simp] theorem incF_digs (s : State) (b : Nat) (f : Field) : (incF s b f).digs = s.digs := rfl
@[simp] theorem incF_param (s : State) (b : Nat) (f : Field) : (incF s b f).param = s.param := rfl
@[simp] theorem incF_xlt (s : State) (b : Nat) (f : Field) : (incF s b f).xlt = s.xlt := rfl
@[simp] theorem incF_rings (s : State) (b : Nat) (f : Field) : (incF s b f).rings = s.rings := rfl
@[simp] theorem incF_flt (s : State) (b : Nat) (f : Field) : (incF s b f).flt = s.flt := rfl
@[simp] theorem incF_memEn (s : State) (b : Nat) (f : Field) : (incF s b f).memEn = s.memEn := rfl
@[simp] theorem incF_cacheEn (s : State) (b : Nat) (f : Field) : (incF s b f).cacheEn = s.cacheEn := rfl
@[simp] theorem incF_hdmProg (s : State) (b : Nat) (f : Field) : (incF s b f).hdmProg = s.hdmProg := rfl
@[simp] theorem incF_sf (s : State) (b : Nat) (f : Field) : (incF s b f).sf = s.sf := rfl
@[simp] theorem incF_biAsked (s : State) (b : Nat) (f : Field) : (incF s b f).biAsked = s.biAsked := rfl
@[simp] theorem incF_biSent (s : State) (b : Nat) (f : Field) : (incF s b f).biSent = s.biSent := rfl
@[simp] theorem incF_cfg (s : State) (b : Nat) (f : Field) : (incF s b f).cfg = s.cfg := rfl
@[simp] theorem incF_comp (s : State) (b : Nat) (f : Field) : (incF s b f).comp = s.comp := rfl
@[simp] theorem incF_dcache (s : State) (b : Nat) (f : Field) : (incF s b f).dcache = s.dcache := rfl
@[simp] theorem incF_ioIde (s : State) (b : Nat) (f : Field) : (incF s b f).ioIde = s.ioIde := rfl
@[simp] theorem incF_cmBad (s : State) (b : Nat) (f : Field) : (incF s b f).cmBad = s.cmBad := rfl
@[simp] theorem incF_hbm (s : State) (b : Nat) (f : Field) : (incF s b f).hbm = s.hbm := rfl
@[simp] theorem incF_ring (s : State) (b : Nat) (f : Field) : (incF s b f).ring = s.ring := rfl
@[simp] theorem incF_tellers (s : State) (b : Nat) (f : Field) : (incF s b f).tellers = s.tellers := rfl
@[simp] theorem incF_items (s : State) (b : Nat) (f : Field) : (incF s b f).items = s.items := rfl
@[simp] theorem incF_roleEvts (s : State) (b : Nat) (f : Field) : (incF s b f).roleEvts = s.roleEvts := rfl
@[simp] theorem incF_boot (s : State) (b : Nat) (f : Field) : (incF s b f).boot = s.boot := rfl
@[simp] theorem incF_thm (s : State) (b : Nat) (f : Field) : (incF s b f).thm = s.thm := rfl
@[simp] theorem incF_smb (s : State) (b : Nat) (f : Field) : (incF s b f).smb = s.smb := rfl
@[simp] theorem incF_lockout (s : State) (b : Nat) (f : Field) : (incF s b f).lockout = s.lockout := rfl
@[simp] theorem incF_ssid (s : State) (b : Nat) (f : Field) : (incF s b f).ssid = s.ssid := rfl
@[simp] theorem incF_keyHash (s : State) (b : Nat) (f : Field) : (incF s b f).keyHash = s.keyHash := rfl
@[simp] theorem incF_d3 (s : State) (b : Nat) (f : Field) : (incF s b f).d3 = s.d3 := rfl
@[simp] theorem incF_wakeReq (s : State) (b : Nat) (f : Field) : (incF s b f).wakeReq = s.wakeReq := rfl
@[simp] theorem incF_laneDown (s : State) (b : Nat) (f : Field) : (incF s b f).laneDown = s.laneDown := rfl
@[simp] theorem incF_trigOut (s : State) (b : Nat) (f : Field) : (incF s b f).trigOut = s.trigOut := rfl
@[simp] theorem incF_startQ (s : State) (b : Nat) (f : Field) : (incF s b f).startQ = s.startQ := rfl
@[simp] theorem incF_pending (s : State) (b : Nat) (f : Field) : (incF s b f).pending = s.pending := rfl

/-! ### incFi -/

@[simp] theorem incFi_now (s : State) (b : Nat) (f : Field) (i : Nat) : (incFi s b f i).now = s.now := rfl
@[simp] theorem incFi_fresh (s : State) (b : Nat) (f : Field) (i : Nat) : (incFi s b f i).fresh = s.fresh := rfl
@[simp] theorem incFi_shadow (s : State) (b : Nat) (f : Field) (i : Nat) : (incFi s b f i).shadow = s.shadow := rfl
@[simp] theorem incFi_latch (s : State) (b : Nat) (f : Field) (i : Nat) : (incFi s b f i).latch = s.latch := rfl
@[simp] theorem incFi_resp (s : State) (b : Nat) (f : Field) (i : Nat) : (incFi s b f i).resp = s.resp := rfl
@[simp] theorem incFi_hostMem (s : State) (b : Nat) (f : Field) (i : Nat) : (incFi s b f i).hostMem = s.hostMem := rfl
@[simp] theorem incFi_devMem (s : State) (b : Nat) (f : Field) (i : Nat) : (incFi s b f i).devMem = s.devMem := rfl
@[simp] theorem incFi_badLines (s : State) (b : Nat) (f : Field) (i : Nat) : (incFi s b f i).badLines = s.badLines := rfl
@[simp] theorem incFi_slices (s : State) (b : Nat) (f : Field) (i : Nat) : (incFi s b f i).slices = s.slices := rfl
@[simp] theorem incFi_tiles (s : State) (b : Nat) (f : Field) (i : Nat) : (incFi s b f i).tiles = s.tiles := rfl
@[simp] theorem incFi_gangs (s : State) (b : Nat) (f : Field) (i : Nat) : (incFi s b f i).gangs = s.gangs := rfl
@[simp] theorem incFi_sites (s : State) (b : Nat) (f : Field) (i : Nat) : (incFi s b f i).sites = s.sites := rfl
@[simp] theorem incFi_digs (s : State) (b : Nat) (f : Field) (i : Nat) : (incFi s b f i).digs = s.digs := rfl
@[simp] theorem incFi_param (s : State) (b : Nat) (f : Field) (i : Nat) : (incFi s b f i).param = s.param := rfl
@[simp] theorem incFi_xlt (s : State) (b : Nat) (f : Field) (i : Nat) : (incFi s b f i).xlt = s.xlt := rfl
@[simp] theorem incFi_rings (s : State) (b : Nat) (f : Field) (i : Nat) : (incFi s b f i).rings = s.rings := rfl
@[simp] theorem incFi_flt (s : State) (b : Nat) (f : Field) (i : Nat) : (incFi s b f i).flt = s.flt := rfl
@[simp] theorem incFi_memEn (s : State) (b : Nat) (f : Field) (i : Nat) : (incFi s b f i).memEn = s.memEn := rfl
@[simp] theorem incFi_cacheEn (s : State) (b : Nat) (f : Field) (i : Nat) : (incFi s b f i).cacheEn = s.cacheEn := rfl
@[simp] theorem incFi_hdmProg (s : State) (b : Nat) (f : Field) (i : Nat) : (incFi s b f i).hdmProg = s.hdmProg := rfl
@[simp] theorem incFi_sf (s : State) (b : Nat) (f : Field) (i : Nat) : (incFi s b f i).sf = s.sf := rfl
@[simp] theorem incFi_biAsked (s : State) (b : Nat) (f : Field) (i : Nat) : (incFi s b f i).biAsked = s.biAsked := rfl
@[simp] theorem incFi_biSent (s : State) (b : Nat) (f : Field) (i : Nat) : (incFi s b f i).biSent = s.biSent := rfl
@[simp] theorem incFi_cfg (s : State) (b : Nat) (f : Field) (i : Nat) : (incFi s b f i).cfg = s.cfg := rfl
@[simp] theorem incFi_comp (s : State) (b : Nat) (f : Field) (i : Nat) : (incFi s b f i).comp = s.comp := rfl
@[simp] theorem incFi_dcache (s : State) (b : Nat) (f : Field) (i : Nat) : (incFi s b f i).dcache = s.dcache := rfl
@[simp] theorem incFi_ioIde (s : State) (b : Nat) (f : Field) (i : Nat) : (incFi s b f i).ioIde = s.ioIde := rfl
@[simp] theorem incFi_cmBad (s : State) (b : Nat) (f : Field) (i : Nat) : (incFi s b f i).cmBad = s.cmBad := rfl
@[simp] theorem incFi_hbm (s : State) (b : Nat) (f : Field) (i : Nat) : (incFi s b f i).hbm = s.hbm := rfl
@[simp] theorem incFi_ring (s : State) (b : Nat) (f : Field) (i : Nat) : (incFi s b f i).ring = s.ring := rfl
@[simp] theorem incFi_tellers (s : State) (b : Nat) (f : Field) (i : Nat) : (incFi s b f i).tellers = s.tellers := rfl
@[simp] theorem incFi_items (s : State) (b : Nat) (f : Field) (i : Nat) : (incFi s b f i).items = s.items := rfl
@[simp] theorem incFi_roleEvts (s : State) (b : Nat) (f : Field) (i : Nat) : (incFi s b f i).roleEvts = s.roleEvts := rfl
@[simp] theorem incFi_boot (s : State) (b : Nat) (f : Field) (i : Nat) : (incFi s b f i).boot = s.boot := rfl
@[simp] theorem incFi_thm (s : State) (b : Nat) (f : Field) (i : Nat) : (incFi s b f i).thm = s.thm := rfl
@[simp] theorem incFi_smb (s : State) (b : Nat) (f : Field) (i : Nat) : (incFi s b f i).smb = s.smb := rfl
@[simp] theorem incFi_lockout (s : State) (b : Nat) (f : Field) (i : Nat) : (incFi s b f i).lockout = s.lockout := rfl
@[simp] theorem incFi_ssid (s : State) (b : Nat) (f : Field) (i : Nat) : (incFi s b f i).ssid = s.ssid := rfl
@[simp] theorem incFi_keyHash (s : State) (b : Nat) (f : Field) (i : Nat) : (incFi s b f i).keyHash = s.keyHash := rfl
@[simp] theorem incFi_d3 (s : State) (b : Nat) (f : Field) (i : Nat) : (incFi s b f i).d3 = s.d3 := rfl
@[simp] theorem incFi_wakeReq (s : State) (b : Nat) (f : Field) (i : Nat) : (incFi s b f i).wakeReq = s.wakeReq := rfl
@[simp] theorem incFi_laneDown (s : State) (b : Nat) (f : Field) (i : Nat) : (incFi s b f i).laneDown = s.laneDown := rfl
@[simp] theorem incFi_trigOut (s : State) (b : Nat) (f : Field) (i : Nat) : (incFi s b f i).trigOut = s.trigOut := rfl
@[simp] theorem incFi_startQ (s : State) (b : Nat) (f : Field) (i : Nat) : (incFi s b f i).startQ = s.startQ := rfl
@[simp] theorem incFi_pending (s : State) (b : Nat) (f : Field) (i : Nat) : (incFi s b f i).pending = s.pending := rfl

/-! ### addF -/

@[simp] theorem addF_now (s : State) (b : Nat) (f : Field) (n : Nat) : (addF s b f n).now = s.now := rfl
@[simp] theorem addF_fresh (s : State) (b : Nat) (f : Field) (n : Nat) : (addF s b f n).fresh = s.fresh := rfl
@[simp] theorem addF_shadow (s : State) (b : Nat) (f : Field) (n : Nat) : (addF s b f n).shadow = s.shadow := rfl
@[simp] theorem addF_latch (s : State) (b : Nat) (f : Field) (n : Nat) : (addF s b f n).latch = s.latch := rfl
@[simp] theorem addF_resp (s : State) (b : Nat) (f : Field) (n : Nat) : (addF s b f n).resp = s.resp := rfl
@[simp] theorem addF_hostMem (s : State) (b : Nat) (f : Field) (n : Nat) : (addF s b f n).hostMem = s.hostMem := rfl
@[simp] theorem addF_devMem (s : State) (b : Nat) (f : Field) (n : Nat) : (addF s b f n).devMem = s.devMem := rfl
@[simp] theorem addF_badLines (s : State) (b : Nat) (f : Field) (n : Nat) : (addF s b f n).badLines = s.badLines := rfl
@[simp] theorem addF_slices (s : State) (b : Nat) (f : Field) (n : Nat) : (addF s b f n).slices = s.slices := rfl
@[simp] theorem addF_tiles (s : State) (b : Nat) (f : Field) (n : Nat) : (addF s b f n).tiles = s.tiles := rfl
@[simp] theorem addF_gangs (s : State) (b : Nat) (f : Field) (n : Nat) : (addF s b f n).gangs = s.gangs := rfl
@[simp] theorem addF_sites (s : State) (b : Nat) (f : Field) (n : Nat) : (addF s b f n).sites = s.sites := rfl
@[simp] theorem addF_digs (s : State) (b : Nat) (f : Field) (n : Nat) : (addF s b f n).digs = s.digs := rfl
@[simp] theorem addF_param (s : State) (b : Nat) (f : Field) (n : Nat) : (addF s b f n).param = s.param := rfl
@[simp] theorem addF_xlt (s : State) (b : Nat) (f : Field) (n : Nat) : (addF s b f n).xlt = s.xlt := rfl
@[simp] theorem addF_rings (s : State) (b : Nat) (f : Field) (n : Nat) : (addF s b f n).rings = s.rings := rfl
@[simp] theorem addF_flt (s : State) (b : Nat) (f : Field) (n : Nat) : (addF s b f n).flt = s.flt := rfl
@[simp] theorem addF_memEn (s : State) (b : Nat) (f : Field) (n : Nat) : (addF s b f n).memEn = s.memEn := rfl
@[simp] theorem addF_cacheEn (s : State) (b : Nat) (f : Field) (n : Nat) : (addF s b f n).cacheEn = s.cacheEn := rfl
@[simp] theorem addF_hdmProg (s : State) (b : Nat) (f : Field) (n : Nat) : (addF s b f n).hdmProg = s.hdmProg := rfl
@[simp] theorem addF_sf (s : State) (b : Nat) (f : Field) (n : Nat) : (addF s b f n).sf = s.sf := rfl
@[simp] theorem addF_biAsked (s : State) (b : Nat) (f : Field) (n : Nat) : (addF s b f n).biAsked = s.biAsked := rfl
@[simp] theorem addF_biSent (s : State) (b : Nat) (f : Field) (n : Nat) : (addF s b f n).biSent = s.biSent := rfl
@[simp] theorem addF_cfg (s : State) (b : Nat) (f : Field) (n : Nat) : (addF s b f n).cfg = s.cfg := rfl
@[simp] theorem addF_comp (s : State) (b : Nat) (f : Field) (n : Nat) : (addF s b f n).comp = s.comp := rfl
@[simp] theorem addF_dcache (s : State) (b : Nat) (f : Field) (n : Nat) : (addF s b f n).dcache = s.dcache := rfl
@[simp] theorem addF_ioIde (s : State) (b : Nat) (f : Field) (n : Nat) : (addF s b f n).ioIde = s.ioIde := rfl
@[simp] theorem addF_cmBad (s : State) (b : Nat) (f : Field) (n : Nat) : (addF s b f n).cmBad = s.cmBad := rfl
@[simp] theorem addF_hbm (s : State) (b : Nat) (f : Field) (n : Nat) : (addF s b f n).hbm = s.hbm := rfl
@[simp] theorem addF_ring (s : State) (b : Nat) (f : Field) (n : Nat) : (addF s b f n).ring = s.ring := rfl
@[simp] theorem addF_tellers (s : State) (b : Nat) (f : Field) (n : Nat) : (addF s b f n).tellers = s.tellers := rfl
@[simp] theorem addF_items (s : State) (b : Nat) (f : Field) (n : Nat) : (addF s b f n).items = s.items := rfl
@[simp] theorem addF_roleEvts (s : State) (b : Nat) (f : Field) (n : Nat) : (addF s b f n).roleEvts = s.roleEvts := rfl
@[simp] theorem addF_boot (s : State) (b : Nat) (f : Field) (n : Nat) : (addF s b f n).boot = s.boot := rfl
@[simp] theorem addF_thm (s : State) (b : Nat) (f : Field) (n : Nat) : (addF s b f n).thm = s.thm := rfl
@[simp] theorem addF_smb (s : State) (b : Nat) (f : Field) (n : Nat) : (addF s b f n).smb = s.smb := rfl
@[simp] theorem addF_lockout (s : State) (b : Nat) (f : Field) (n : Nat) : (addF s b f n).lockout = s.lockout := rfl
@[simp] theorem addF_ssid (s : State) (b : Nat) (f : Field) (n : Nat) : (addF s b f n).ssid = s.ssid := rfl
@[simp] theorem addF_keyHash (s : State) (b : Nat) (f : Field) (n : Nat) : (addF s b f n).keyHash = s.keyHash := rfl
@[simp] theorem addF_d3 (s : State) (b : Nat) (f : Field) (n : Nat) : (addF s b f n).d3 = s.d3 := rfl
@[simp] theorem addF_wakeReq (s : State) (b : Nat) (f : Field) (n : Nat) : (addF s b f n).wakeReq = s.wakeReq := rfl
@[simp] theorem addF_laneDown (s : State) (b : Nat) (f : Field) (n : Nat) : (addF s b f n).laneDown = s.laneDown := rfl
@[simp] theorem addF_trigOut (s : State) (b : Nat) (f : Field) (n : Nat) : (addF s b f n).trigOut = s.trigOut := rfl
@[simp] theorem addF_startQ (s : State) (b : Nat) (f : Field) (n : Nat) : (addF s b f n).startQ = s.startQ := rfl
@[simp] theorem addF_pending (s : State) (b : Nat) (f : Field) (n : Nat) : (addF s b f n).pending = s.pending := rfl

/-! ### wr64 -/

@[simp] theorem wr64_now (s : State) (b : Nat) (lo hi : Field) (v : Nat) : (wr64 s b lo hi v).now = s.now := rfl
@[simp] theorem wr64_fresh (s : State) (b : Nat) (lo hi : Field) (v : Nat) : (wr64 s b lo hi v).fresh = s.fresh := rfl
@[simp] theorem wr64_shadow (s : State) (b : Nat) (lo hi : Field) (v : Nat) : (wr64 s b lo hi v).shadow = s.shadow := rfl
@[simp] theorem wr64_latch (s : State) (b : Nat) (lo hi : Field) (v : Nat) : (wr64 s b lo hi v).latch = s.latch := rfl
@[simp] theorem wr64_resp (s : State) (b : Nat) (lo hi : Field) (v : Nat) : (wr64 s b lo hi v).resp = s.resp := rfl
@[simp] theorem wr64_hostMem (s : State) (b : Nat) (lo hi : Field) (v : Nat) : (wr64 s b lo hi v).hostMem = s.hostMem := rfl
@[simp] theorem wr64_devMem (s : State) (b : Nat) (lo hi : Field) (v : Nat) : (wr64 s b lo hi v).devMem = s.devMem := rfl
@[simp] theorem wr64_badLines (s : State) (b : Nat) (lo hi : Field) (v : Nat) : (wr64 s b lo hi v).badLines = s.badLines := rfl
@[simp] theorem wr64_slices (s : State) (b : Nat) (lo hi : Field) (v : Nat) : (wr64 s b lo hi v).slices = s.slices := rfl
@[simp] theorem wr64_tiles (s : State) (b : Nat) (lo hi : Field) (v : Nat) : (wr64 s b lo hi v).tiles = s.tiles := rfl
@[simp] theorem wr64_gangs (s : State) (b : Nat) (lo hi : Field) (v : Nat) : (wr64 s b lo hi v).gangs = s.gangs := rfl
@[simp] theorem wr64_sites (s : State) (b : Nat) (lo hi : Field) (v : Nat) : (wr64 s b lo hi v).sites = s.sites := rfl
@[simp] theorem wr64_digs (s : State) (b : Nat) (lo hi : Field) (v : Nat) : (wr64 s b lo hi v).digs = s.digs := rfl
@[simp] theorem wr64_param (s : State) (b : Nat) (lo hi : Field) (v : Nat) : (wr64 s b lo hi v).param = s.param := rfl
@[simp] theorem wr64_xlt (s : State) (b : Nat) (lo hi : Field) (v : Nat) : (wr64 s b lo hi v).xlt = s.xlt := rfl
@[simp] theorem wr64_rings (s : State) (b : Nat) (lo hi : Field) (v : Nat) : (wr64 s b lo hi v).rings = s.rings := rfl
@[simp] theorem wr64_flt (s : State) (b : Nat) (lo hi : Field) (v : Nat) : (wr64 s b lo hi v).flt = s.flt := rfl
@[simp] theorem wr64_memEn (s : State) (b : Nat) (lo hi : Field) (v : Nat) : (wr64 s b lo hi v).memEn = s.memEn := rfl
@[simp] theorem wr64_cacheEn (s : State) (b : Nat) (lo hi : Field) (v : Nat) : (wr64 s b lo hi v).cacheEn = s.cacheEn := rfl
@[simp] theorem wr64_hdmProg (s : State) (b : Nat) (lo hi : Field) (v : Nat) : (wr64 s b lo hi v).hdmProg = s.hdmProg := rfl
@[simp] theorem wr64_sf (s : State) (b : Nat) (lo hi : Field) (v : Nat) : (wr64 s b lo hi v).sf = s.sf := rfl
@[simp] theorem wr64_biAsked (s : State) (b : Nat) (lo hi : Field) (v : Nat) : (wr64 s b lo hi v).biAsked = s.biAsked := rfl
@[simp] theorem wr64_biSent (s : State) (b : Nat) (lo hi : Field) (v : Nat) : (wr64 s b lo hi v).biSent = s.biSent := rfl
@[simp] theorem wr64_cfg (s : State) (b : Nat) (lo hi : Field) (v : Nat) : (wr64 s b lo hi v).cfg = s.cfg := rfl
@[simp] theorem wr64_comp (s : State) (b : Nat) (lo hi : Field) (v : Nat) : (wr64 s b lo hi v).comp = s.comp := rfl
@[simp] theorem wr64_dcache (s : State) (b : Nat) (lo hi : Field) (v : Nat) : (wr64 s b lo hi v).dcache = s.dcache := rfl
@[simp] theorem wr64_ioIde (s : State) (b : Nat) (lo hi : Field) (v : Nat) : (wr64 s b lo hi v).ioIde = s.ioIde := rfl
@[simp] theorem wr64_cmBad (s : State) (b : Nat) (lo hi : Field) (v : Nat) : (wr64 s b lo hi v).cmBad = s.cmBad := rfl
@[simp] theorem wr64_hbm (s : State) (b : Nat) (lo hi : Field) (v : Nat) : (wr64 s b lo hi v).hbm = s.hbm := rfl
@[simp] theorem wr64_ring (s : State) (b : Nat) (lo hi : Field) (v : Nat) : (wr64 s b lo hi v).ring = s.ring := rfl
@[simp] theorem wr64_tellers (s : State) (b : Nat) (lo hi : Field) (v : Nat) : (wr64 s b lo hi v).tellers = s.tellers := rfl
@[simp] theorem wr64_items (s : State) (b : Nat) (lo hi : Field) (v : Nat) : (wr64 s b lo hi v).items = s.items := rfl
@[simp] theorem wr64_roleEvts (s : State) (b : Nat) (lo hi : Field) (v : Nat) : (wr64 s b lo hi v).roleEvts = s.roleEvts := rfl
@[simp] theorem wr64_boot (s : State) (b : Nat) (lo hi : Field) (v : Nat) : (wr64 s b lo hi v).boot = s.boot := rfl
@[simp] theorem wr64_thm (s : State) (b : Nat) (lo hi : Field) (v : Nat) : (wr64 s b lo hi v).thm = s.thm := rfl
@[simp] theorem wr64_smb (s : State) (b : Nat) (lo hi : Field) (v : Nat) : (wr64 s b lo hi v).smb = s.smb := rfl
@[simp] theorem wr64_lockout (s : State) (b : Nat) (lo hi : Field) (v : Nat) : (wr64 s b lo hi v).lockout = s.lockout := rfl
@[simp] theorem wr64_ssid (s : State) (b : Nat) (lo hi : Field) (v : Nat) : (wr64 s b lo hi v).ssid = s.ssid := rfl
@[simp] theorem wr64_keyHash (s : State) (b : Nat) (lo hi : Field) (v : Nat) : (wr64 s b lo hi v).keyHash = s.keyHash := rfl
@[simp] theorem wr64_d3 (s : State) (b : Nat) (lo hi : Field) (v : Nat) : (wr64 s b lo hi v).d3 = s.d3 := rfl
@[simp] theorem wr64_wakeReq (s : State) (b : Nat) (lo hi : Field) (v : Nat) : (wr64 s b lo hi v).wakeReq = s.wakeReq := rfl
@[simp] theorem wr64_laneDown (s : State) (b : Nat) (lo hi : Field) (v : Nat) : (wr64 s b lo hi v).laneDown = s.laneDown := rfl
@[simp] theorem wr64_trigOut (s : State) (b : Nat) (lo hi : Field) (v : Nat) : (wr64 s b lo hi v).trigOut = s.trigOut := rfl
@[simp] theorem wr64_startQ (s : State) (b : Nat) (lo hi : Field) (v : Nat) : (wr64 s b lo hi v).startQ = s.startQ := rfl
@[simp] theorem wr64_pending (s : State) (b : Nat) (lo hi : Field) (v : Nat) : (wr64 s b lo hi v).pending = s.pending := rfl

/-! ### putSlice -/

@[simp] theorem putSlice_now (s : State) (t p : Nat) (v : Slice) : (putSlice s t p v).now = s.now := rfl
@[simp] theorem putSlice_fresh (s : State) (t p : Nat) (v : Slice) : (putSlice s t p v).fresh = s.fresh := rfl
@[simp] theorem putSlice_regs (s : State) (t p : Nat) (v : Slice) : (putSlice s t p v).regs = s.regs := rfl
@[simp] theorem putSlice_shadow (s : State) (t p : Nat) (v : Slice) : (putSlice s t p v).shadow = s.shadow := rfl
@[simp] theorem putSlice_latch (s : State) (t p : Nat) (v : Slice) : (putSlice s t p v).latch = s.latch := rfl
@[simp] theorem putSlice_resp (s : State) (t p : Nat) (v : Slice) : (putSlice s t p v).resp = s.resp := rfl
@[simp] theorem putSlice_hostMem (s : State) (t p : Nat) (v : Slice) : (putSlice s t p v).hostMem = s.hostMem := rfl
@[simp] theorem putSlice_devMem (s : State) (t p : Nat) (v : Slice) : (putSlice s t p v).devMem = s.devMem := rfl
@[simp] theorem putSlice_badLines (s : State) (t p : Nat) (v : Slice) : (putSlice s t p v).badLines = s.badLines := rfl
@[simp] theorem putSlice_tiles (s : State) (t p : Nat) (v : Slice) : (putSlice s t p v).tiles = s.tiles := rfl
@[simp] theorem putSlice_gangs (s : State) (t p : Nat) (v : Slice) : (putSlice s t p v).gangs = s.gangs := rfl
@[simp] theorem putSlice_sites (s : State) (t p : Nat) (v : Slice) : (putSlice s t p v).sites = s.sites := rfl
@[simp] theorem putSlice_digs (s : State) (t p : Nat) (v : Slice) : (putSlice s t p v).digs = s.digs := rfl
@[simp] theorem putSlice_param (s : State) (t p : Nat) (v : Slice) : (putSlice s t p v).param = s.param := rfl
@[simp] theorem putSlice_xlt (s : State) (t p : Nat) (v : Slice) : (putSlice s t p v).xlt = s.xlt := rfl
@[simp] theorem putSlice_rings (s : State) (t p : Nat) (v : Slice) : (putSlice s t p v).rings = s.rings := rfl
@[simp] theorem putSlice_flt (s : State) (t p : Nat) (v : Slice) : (putSlice s t p v).flt = s.flt := rfl
@[simp] theorem putSlice_memEn (s : State) (t p : Nat) (v : Slice) : (putSlice s t p v).memEn = s.memEn := rfl
@[simp] theorem putSlice_cacheEn (s : State) (t p : Nat) (v : Slice) : (putSlice s t p v).cacheEn = s.cacheEn := rfl
@[simp] theorem putSlice_hdmProg (s : State) (t p : Nat) (v : Slice) : (putSlice s t p v).hdmProg = s.hdmProg := rfl
@[simp] theorem putSlice_sf (s : State) (t p : Nat) (v : Slice) : (putSlice s t p v).sf = s.sf := rfl
@[simp] theorem putSlice_biAsked (s : State) (t p : Nat) (v : Slice) : (putSlice s t p v).biAsked = s.biAsked := rfl
@[simp] theorem putSlice_biSent (s : State) (t p : Nat) (v : Slice) : (putSlice s t p v).biSent = s.biSent := rfl
@[simp] theorem putSlice_cfg (s : State) (t p : Nat) (v : Slice) : (putSlice s t p v).cfg = s.cfg := rfl
@[simp] theorem putSlice_comp (s : State) (t p : Nat) (v : Slice) : (putSlice s t p v).comp = s.comp := rfl
@[simp] theorem putSlice_dcache (s : State) (t p : Nat) (v : Slice) : (putSlice s t p v).dcache = s.dcache := rfl
@[simp] theorem putSlice_ioIde (s : State) (t p : Nat) (v : Slice) : (putSlice s t p v).ioIde = s.ioIde := rfl
@[simp] theorem putSlice_cmBad (s : State) (t p : Nat) (v : Slice) : (putSlice s t p v).cmBad = s.cmBad := rfl
@[simp] theorem putSlice_hbm (s : State) (t p : Nat) (v : Slice) : (putSlice s t p v).hbm = s.hbm := rfl
@[simp] theorem putSlice_ring (s : State) (t p : Nat) (v : Slice) : (putSlice s t p v).ring = s.ring := rfl
@[simp] theorem putSlice_tellers (s : State) (t p : Nat) (v : Slice) : (putSlice s t p v).tellers = s.tellers := rfl
@[simp] theorem putSlice_items (s : State) (t p : Nat) (v : Slice) : (putSlice s t p v).items = s.items := rfl
@[simp] theorem putSlice_roleEvts (s : State) (t p : Nat) (v : Slice) : (putSlice s t p v).roleEvts = s.roleEvts := rfl
@[simp] theorem putSlice_boot (s : State) (t p : Nat) (v : Slice) : (putSlice s t p v).boot = s.boot := rfl
@[simp] theorem putSlice_thm (s : State) (t p : Nat) (v : Slice) : (putSlice s t p v).thm = s.thm := rfl
@[simp] theorem putSlice_smb (s : State) (t p : Nat) (v : Slice) : (putSlice s t p v).smb = s.smb := rfl
@[simp] theorem putSlice_lockout (s : State) (t p : Nat) (v : Slice) : (putSlice s t p v).lockout = s.lockout := rfl
@[simp] theorem putSlice_ssid (s : State) (t p : Nat) (v : Slice) : (putSlice s t p v).ssid = s.ssid := rfl
@[simp] theorem putSlice_keyHash (s : State) (t p : Nat) (v : Slice) : (putSlice s t p v).keyHash = s.keyHash := rfl
@[simp] theorem putSlice_d3 (s : State) (t p : Nat) (v : Slice) : (putSlice s t p v).d3 = s.d3 := rfl
@[simp] theorem putSlice_wakeReq (s : State) (t p : Nat) (v : Slice) : (putSlice s t p v).wakeReq = s.wakeReq := rfl
@[simp] theorem putSlice_laneDown (s : State) (t p : Nat) (v : Slice) : (putSlice s t p v).laneDown = s.laneDown := rfl
@[simp] theorem putSlice_trigOut (s : State) (t p : Nat) (v : Slice) : (putSlice s t p v).trigOut = s.trigOut := rfl
@[simp] theorem putSlice_startQ (s : State) (t p : Nat) (v : Slice) : (putSlice s t p v).startQ = s.startQ := rfl
@[simp] theorem putSlice_pending (s : State) (t p : Nat) (v : Slice) : (putSlice s t p v).pending = s.pending := rfl

/-! ### putTile -/

@[simp] theorem putTile_now (s : State) (t : Nat) (v : Tile) : (putTile s t v).now = s.now := rfl
@[simp] theorem putTile_fresh (s : State) (t : Nat) (v : Tile) : (putTile s t v).fresh = s.fresh := rfl
@[simp] theorem putTile_regs (s : State) (t : Nat) (v : Tile) : (putTile s t v).regs = s.regs := rfl
@[simp] theorem putTile_shadow (s : State) (t : Nat) (v : Tile) : (putTile s t v).shadow = s.shadow := rfl
@[simp] theorem putTile_latch (s : State) (t : Nat) (v : Tile) : (putTile s t v).latch = s.latch := rfl
@[simp] theorem putTile_resp (s : State) (t : Nat) (v : Tile) : (putTile s t v).resp = s.resp := rfl
@[simp] theorem putTile_hostMem (s : State) (t : Nat) (v : Tile) : (putTile s t v).hostMem = s.hostMem := rfl
@[simp] theorem putTile_devMem (s : State) (t : Nat) (v : Tile) : (putTile s t v).devMem = s.devMem := rfl
@[simp] theorem putTile_badLines (s : State) (t : Nat) (v : Tile) : (putTile s t v).badLines = s.badLines := rfl
@[simp] theorem putTile_slices (s : State) (t : Nat) (v : Tile) : (putTile s t v).slices = s.slices := rfl
@[simp] theorem putTile_gangs (s : State) (t : Nat) (v : Tile) : (putTile s t v).gangs = s.gangs := rfl
@[simp] theorem putTile_sites (s : State) (t : Nat) (v : Tile) : (putTile s t v).sites = s.sites := rfl
@[simp] theorem putTile_digs (s : State) (t : Nat) (v : Tile) : (putTile s t v).digs = s.digs := rfl
@[simp] theorem putTile_param (s : State) (t : Nat) (v : Tile) : (putTile s t v).param = s.param := rfl
@[simp] theorem putTile_xlt (s : State) (t : Nat) (v : Tile) : (putTile s t v).xlt = s.xlt := rfl
@[simp] theorem putTile_rings (s : State) (t : Nat) (v : Tile) : (putTile s t v).rings = s.rings := rfl
@[simp] theorem putTile_flt (s : State) (t : Nat) (v : Tile) : (putTile s t v).flt = s.flt := rfl
@[simp] theorem putTile_memEn (s : State) (t : Nat) (v : Tile) : (putTile s t v).memEn = s.memEn := rfl
@[simp] theorem putTile_cacheEn (s : State) (t : Nat) (v : Tile) : (putTile s t v).cacheEn = s.cacheEn := rfl
@[simp] theorem putTile_hdmProg (s : State) (t : Nat) (v : Tile) : (putTile s t v).hdmProg = s.hdmProg := rfl
@[simp] theorem putTile_sf (s : State) (t : Nat) (v : Tile) : (putTile s t v).sf = s.sf := rfl
@[simp] theorem putTile_biAsked (s : State) (t : Nat) (v : Tile) : (putTile s t v).biAsked = s.biAsked := rfl
@[simp] theorem putTile_biSent (s : State) (t : Nat) (v : Tile) : (putTile s t v).biSent = s.biSent := rfl
@[simp] theorem putTile_cfg (s : State) (t : Nat) (v : Tile) : (putTile s t v).cfg = s.cfg := rfl
@[simp] theorem putTile_comp (s : State) (t : Nat) (v : Tile) : (putTile s t v).comp = s.comp := rfl
@[simp] theorem putTile_dcache (s : State) (t : Nat) (v : Tile) : (putTile s t v).dcache = s.dcache := rfl
@[simp] theorem putTile_ioIde (s : State) (t : Nat) (v : Tile) : (putTile s t v).ioIde = s.ioIde := rfl
@[simp] theorem putTile_cmBad (s : State) (t : Nat) (v : Tile) : (putTile s t v).cmBad = s.cmBad := rfl
@[simp] theorem putTile_hbm (s : State) (t : Nat) (v : Tile) : (putTile s t v).hbm = s.hbm := rfl
@[simp] theorem putTile_ring (s : State) (t : Nat) (v : Tile) : (putTile s t v).ring = s.ring := rfl
@[simp] theorem putTile_tellers (s : State) (t : Nat) (v : Tile) : (putTile s t v).tellers = s.tellers := rfl
@[simp] theorem putTile_items (s : State) (t : Nat) (v : Tile) : (putTile s t v).items = s.items := rfl
@[simp] theorem putTile_roleEvts (s : State) (t : Nat) (v : Tile) : (putTile s t v).roleEvts = s.roleEvts := rfl
@[simp] theorem putTile_boot (s : State) (t : Nat) (v : Tile) : (putTile s t v).boot = s.boot := rfl
@[simp] theorem putTile_thm (s : State) (t : Nat) (v : Tile) : (putTile s t v).thm = s.thm := rfl
@[simp] theorem putTile_smb (s : State) (t : Nat) (v : Tile) : (putTile s t v).smb = s.smb := rfl
@[simp] theorem putTile_lockout (s : State) (t : Nat) (v : Tile) : (putTile s t v).lockout = s.lockout := rfl
@[simp] theorem putTile_ssid (s : State) (t : Nat) (v : Tile) : (putTile s t v).ssid = s.ssid := rfl
@[simp] theorem putTile_keyHash (s : State) (t : Nat) (v : Tile) : (putTile s t v).keyHash = s.keyHash := rfl
@[simp] theorem putTile_d3 (s : State) (t : Nat) (v : Tile) : (putTile s t v).d3 = s.d3 := rfl
@[simp] theorem putTile_wakeReq (s : State) (t : Nat) (v : Tile) : (putTile s t v).wakeReq = s.wakeReq := rfl
@[simp] theorem putTile_laneDown (s : State) (t : Nat) (v : Tile) : (putTile s t v).laneDown = s.laneDown := rfl
@[simp] theorem putTile_trigOut (s : State) (t : Nat) (v : Tile) : (putTile s t v).trigOut = s.trigOut := rfl
@[simp] theorem putTile_startQ (s : State) (t : Nat) (v : Tile) : (putTile s t v).startQ = s.startQ := rfl
@[simp] theorem putTile_pending (s : State) (t : Nat) (v : Tile) : (putTile s t v).pending = s.pending := rfl

/-! ### putGang -/

@[simp] theorem putGang_now (s : State) (l : Nat) (g : Gang) : (putGang s l g).now = s.now := rfl
@[simp] theorem putGang_fresh (s : State) (l : Nat) (g : Gang) : (putGang s l g).fresh = s.fresh := rfl
@[simp] theorem putGang_regs (s : State) (l : Nat) (g : Gang) : (putGang s l g).regs = s.regs := rfl
@[simp] theorem putGang_shadow (s : State) (l : Nat) (g : Gang) : (putGang s l g).shadow = s.shadow := rfl
@[simp] theorem putGang_latch (s : State) (l : Nat) (g : Gang) : (putGang s l g).latch = s.latch := rfl
@[simp] theorem putGang_resp (s : State) (l : Nat) (g : Gang) : (putGang s l g).resp = s.resp := rfl
@[simp] theorem putGang_hostMem (s : State) (l : Nat) (g : Gang) : (putGang s l g).hostMem = s.hostMem := rfl
@[simp] theorem putGang_devMem (s : State) (l : Nat) (g : Gang) : (putGang s l g).devMem = s.devMem := rfl
@[simp] theorem putGang_badLines (s : State) (l : Nat) (g : Gang) : (putGang s l g).badLines = s.badLines := rfl
@[simp] theorem putGang_slices (s : State) (l : Nat) (g : Gang) : (putGang s l g).slices = s.slices := rfl
@[simp] theorem putGang_tiles (s : State) (l : Nat) (g : Gang) : (putGang s l g).tiles = s.tiles := rfl
@[simp] theorem putGang_sites (s : State) (l : Nat) (g : Gang) : (putGang s l g).sites = s.sites := rfl
@[simp] theorem putGang_digs (s : State) (l : Nat) (g : Gang) : (putGang s l g).digs = s.digs := rfl
@[simp] theorem putGang_param (s : State) (l : Nat) (g : Gang) : (putGang s l g).param = s.param := rfl
@[simp] theorem putGang_xlt (s : State) (l : Nat) (g : Gang) : (putGang s l g).xlt = s.xlt := rfl
@[simp] theorem putGang_rings (s : State) (l : Nat) (g : Gang) : (putGang s l g).rings = s.rings := rfl
@[simp] theorem putGang_flt (s : State) (l : Nat) (g : Gang) : (putGang s l g).flt = s.flt := rfl
@[simp] theorem putGang_memEn (s : State) (l : Nat) (g : Gang) : (putGang s l g).memEn = s.memEn := rfl
@[simp] theorem putGang_cacheEn (s : State) (l : Nat) (g : Gang) : (putGang s l g).cacheEn = s.cacheEn := rfl
@[simp] theorem putGang_hdmProg (s : State) (l : Nat) (g : Gang) : (putGang s l g).hdmProg = s.hdmProg := rfl
@[simp] theorem putGang_sf (s : State) (l : Nat) (g : Gang) : (putGang s l g).sf = s.sf := rfl
@[simp] theorem putGang_biAsked (s : State) (l : Nat) (g : Gang) : (putGang s l g).biAsked = s.biAsked := rfl
@[simp] theorem putGang_biSent (s : State) (l : Nat) (g : Gang) : (putGang s l g).biSent = s.biSent := rfl
@[simp] theorem putGang_cfg (s : State) (l : Nat) (g : Gang) : (putGang s l g).cfg = s.cfg := rfl
@[simp] theorem putGang_comp (s : State) (l : Nat) (g : Gang) : (putGang s l g).comp = s.comp := rfl
@[simp] theorem putGang_dcache (s : State) (l : Nat) (g : Gang) : (putGang s l g).dcache = s.dcache := rfl
@[simp] theorem putGang_ioIde (s : State) (l : Nat) (g : Gang) : (putGang s l g).ioIde = s.ioIde := rfl
@[simp] theorem putGang_cmBad (s : State) (l : Nat) (g : Gang) : (putGang s l g).cmBad = s.cmBad := rfl
@[simp] theorem putGang_hbm (s : State) (l : Nat) (g : Gang) : (putGang s l g).hbm = s.hbm := rfl
@[simp] theorem putGang_ring (s : State) (l : Nat) (g : Gang) : (putGang s l g).ring = s.ring := rfl
@[simp] theorem putGang_tellers (s : State) (l : Nat) (g : Gang) : (putGang s l g).tellers = s.tellers := rfl
@[simp] theorem putGang_items (s : State) (l : Nat) (g : Gang) : (putGang s l g).items = s.items := rfl
@[simp] theorem putGang_roleEvts (s : State) (l : Nat) (g : Gang) : (putGang s l g).roleEvts = s.roleEvts := rfl
@[simp] theorem putGang_boot (s : State) (l : Nat) (g : Gang) : (putGang s l g).boot = s.boot := rfl
@[simp] theorem putGang_thm (s : State) (l : Nat) (g : Gang) : (putGang s l g).thm = s.thm := rfl
@[simp] theorem putGang_smb (s : State) (l : Nat) (g : Gang) : (putGang s l g).smb = s.smb := rfl
@[simp] theorem putGang_lockout (s : State) (l : Nat) (g : Gang) : (putGang s l g).lockout = s.lockout := rfl
@[simp] theorem putGang_ssid (s : State) (l : Nat) (g : Gang) : (putGang s l g).ssid = s.ssid := rfl
@[simp] theorem putGang_keyHash (s : State) (l : Nat) (g : Gang) : (putGang s l g).keyHash = s.keyHash := rfl
@[simp] theorem putGang_d3 (s : State) (l : Nat) (g : Gang) : (putGang s l g).d3 = s.d3 := rfl
@[simp] theorem putGang_wakeReq (s : State) (l : Nat) (g : Gang) : (putGang s l g).wakeReq = s.wakeReq := rfl
@[simp] theorem putGang_laneDown (s : State) (l : Nat) (g : Gang) : (putGang s l g).laneDown = s.laneDown := rfl
@[simp] theorem putGang_trigOut (s : State) (l : Nat) (g : Gang) : (putGang s l g).trigOut = s.trigOut := rfl
@[simp] theorem putGang_startQ (s : State) (l : Nat) (g : Gang) : (putGang s l g).startQ = s.startQ := rfl
@[simp] theorem putGang_pending (s : State) (l : Nat) (g : Gang) : (putGang s l g).pending = s.pending := rfl

/-! ### dropGang -/

@[simp] theorem dropGang_now (s : State) (l : Nat) : (dropGang s l).now = s.now := rfl
@[simp] theorem dropGang_fresh (s : State) (l : Nat) : (dropGang s l).fresh = s.fresh := rfl
@[simp] theorem dropGang_regs (s : State) (l : Nat) : (dropGang s l).regs = s.regs := rfl
@[simp] theorem dropGang_shadow (s : State) (l : Nat) : (dropGang s l).shadow = s.shadow := rfl
@[simp] theorem dropGang_latch (s : State) (l : Nat) : (dropGang s l).latch = s.latch := rfl
@[simp] theorem dropGang_resp (s : State) (l : Nat) : (dropGang s l).resp = s.resp := rfl
@[simp] theorem dropGang_hostMem (s : State) (l : Nat) : (dropGang s l).hostMem = s.hostMem := rfl
@[simp] theorem dropGang_devMem (s : State) (l : Nat) : (dropGang s l).devMem = s.devMem := rfl
@[simp] theorem dropGang_badLines (s : State) (l : Nat) : (dropGang s l).badLines = s.badLines := rfl
@[simp] theorem dropGang_slices (s : State) (l : Nat) : (dropGang s l).slices = s.slices := rfl
@[simp] theorem dropGang_tiles (s : State) (l : Nat) : (dropGang s l).tiles = s.tiles := rfl
@[simp] theorem dropGang_sites (s : State) (l : Nat) : (dropGang s l).sites = s.sites := rfl
@[simp] theorem dropGang_digs (s : State) (l : Nat) : (dropGang s l).digs = s.digs := rfl
@[simp] theorem dropGang_param (s : State) (l : Nat) : (dropGang s l).param = s.param := rfl
@[simp] theorem dropGang_xlt (s : State) (l : Nat) : (dropGang s l).xlt = s.xlt := rfl
@[simp] theorem dropGang_rings (s : State) (l : Nat) : (dropGang s l).rings = s.rings := rfl
@[simp] theorem dropGang_flt (s : State) (l : Nat) : (dropGang s l).flt = s.flt := rfl
@[simp] theorem dropGang_memEn (s : State) (l : Nat) : (dropGang s l).memEn = s.memEn := rfl
@[simp] theorem dropGang_cacheEn (s : State) (l : Nat) : (dropGang s l).cacheEn = s.cacheEn := rfl
@[simp] theorem dropGang_hdmProg (s : State) (l : Nat) : (dropGang s l).hdmProg = s.hdmProg := rfl
@[simp] theorem dropGang_sf (s : State) (l : Nat) : (dropGang s l).sf = s.sf := rfl
@[simp] theorem dropGang_biAsked (s : State) (l : Nat) : (dropGang s l).biAsked = s.biAsked := rfl
@[simp] theorem dropGang_biSent (s : State) (l : Nat) : (dropGang s l).biSent = s.biSent := rfl
@[simp] theorem dropGang_cfg (s : State) (l : Nat) : (dropGang s l).cfg = s.cfg := rfl
@[simp] theorem dropGang_comp (s : State) (l : Nat) : (dropGang s l).comp = s.comp := rfl
@[simp] theorem dropGang_dcache (s : State) (l : Nat) : (dropGang s l).dcache = s.dcache := rfl
@[simp] theorem dropGang_ioIde (s : State) (l : Nat) : (dropGang s l).ioIde = s.ioIde := rfl
@[simp] theorem dropGang_cmBad (s : State) (l : Nat) : (dropGang s l).cmBad = s.cmBad := rfl
@[simp] theorem dropGang_hbm (s : State) (l : Nat) : (dropGang s l).hbm = s.hbm := rfl
@[simp] theorem dropGang_ring (s : State) (l : Nat) : (dropGang s l).ring = s.ring := rfl
@[simp] theorem dropGang_tellers (s : State) (l : Nat) : (dropGang s l).tellers = s.tellers := rfl
@[simp] theorem dropGang_items (s : State) (l : Nat) : (dropGang s l).items = s.items := rfl
@[simp] theorem dropGang_roleEvts (s : State) (l : Nat) : (dropGang s l).roleEvts = s.roleEvts := rfl
@[simp] theorem dropGang_boot (s : State) (l : Nat) : (dropGang s l).boot = s.boot := rfl
@[simp] theorem dropGang_thm (s : State) (l : Nat) : (dropGang s l).thm = s.thm := rfl
@[simp] theorem dropGang_smb (s : State) (l : Nat) : (dropGang s l).smb = s.smb := rfl
@[simp] theorem dropGang_lockout (s : State) (l : Nat) : (dropGang s l).lockout = s.lockout := rfl
@[simp] theorem dropGang_ssid (s : State) (l : Nat) : (dropGang s l).ssid = s.ssid := rfl
@[simp] theorem dropGang_keyHash (s : State) (l : Nat) : (dropGang s l).keyHash = s.keyHash := rfl
@[simp] theorem dropGang_d3 (s : State) (l : Nat) : (dropGang s l).d3 = s.d3 := rfl
@[simp] theorem dropGang_wakeReq (s : State) (l : Nat) : (dropGang s l).wakeReq = s.wakeReq := rfl
@[simp] theorem dropGang_laneDown (s : State) (l : Nat) : (dropGang s l).laneDown = s.laneDown := rfl
@[simp] theorem dropGang_trigOut (s : State) (l : Nat) : (dropGang s l).trigOut = s.trigOut := rfl
@[simp] theorem dropGang_startQ (s : State) (l : Nat) : (dropGang s l).startQ = s.startQ := rfl
@[simp] theorem dropGang_pending (s : State) (l : Nat) : (dropGang s l).pending = s.pending := rfl

/-! ### putSite -/

@[simp] theorem putSite_now (s : State) (i : Nat) (v : Site) : (putSite s i v).now = s.now := rfl
@[simp] theorem putSite_fresh (s : State) (i : Nat) (v : Site) : (putSite s i v).fresh = s.fresh := rfl
@[simp] theorem putSite_regs (s : State) (i : Nat) (v : Site) : (putSite s i v).regs = s.regs := rfl
@[simp] theorem putSite_shadow (s : State) (i : Nat) (v : Site) : (putSite s i v).shadow = s.shadow := rfl
@[simp] theorem putSite_latch (s : State) (i : Nat) (v : Site) : (putSite s i v).latch = s.latch := rfl
@[simp] theorem putSite_resp (s : State) (i : Nat) (v : Site) : (putSite s i v).resp = s.resp := rfl
@[simp] theorem putSite_hostMem (s : State) (i : Nat) (v : Site) : (putSite s i v).hostMem = s.hostMem := rfl
@[simp] theorem putSite_devMem (s : State) (i : Nat) (v : Site) : (putSite s i v).devMem = s.devMem := rfl
@[simp] theorem putSite_badLines (s : State) (i : Nat) (v : Site) : (putSite s i v).badLines = s.badLines := rfl
@[simp] theorem putSite_slices (s : State) (i : Nat) (v : Site) : (putSite s i v).slices = s.slices := rfl
@[simp] theorem putSite_tiles (s : State) (i : Nat) (v : Site) : (putSite s i v).tiles = s.tiles := rfl
@[simp] theorem putSite_gangs (s : State) (i : Nat) (v : Site) : (putSite s i v).gangs = s.gangs := rfl
@[simp] theorem putSite_digs (s : State) (i : Nat) (v : Site) : (putSite s i v).digs = s.digs := rfl
@[simp] theorem putSite_param (s : State) (i : Nat) (v : Site) : (putSite s i v).param = s.param := rfl
@[simp] theorem putSite_xlt (s : State) (i : Nat) (v : Site) : (putSite s i v).xlt = s.xlt := rfl
@[simp] theorem putSite_rings (s : State) (i : Nat) (v : Site) : (putSite s i v).rings = s.rings := rfl
@[simp] theorem putSite_flt (s : State) (i : Nat) (v : Site) : (putSite s i v).flt = s.flt := rfl
@[simp] theorem putSite_memEn (s : State) (i : Nat) (v : Site) : (putSite s i v).memEn = s.memEn := rfl
@[simp] theorem putSite_cacheEn (s : State) (i : Nat) (v : Site) : (putSite s i v).cacheEn = s.cacheEn := rfl
@[simp] theorem putSite_hdmProg (s : State) (i : Nat) (v : Site) : (putSite s i v).hdmProg = s.hdmProg := rfl
@[simp] theorem putSite_sf (s : State) (i : Nat) (v : Site) : (putSite s i v).sf = s.sf := rfl
@[simp] theorem putSite_biAsked (s : State) (i : Nat) (v : Site) : (putSite s i v).biAsked = s.biAsked := rfl
@[simp] theorem putSite_biSent (s : State) (i : Nat) (v : Site) : (putSite s i v).biSent = s.biSent := rfl
@[simp] theorem putSite_cfg (s : State) (i : Nat) (v : Site) : (putSite s i v).cfg = s.cfg := rfl
@[simp] theorem putSite_comp (s : State) (i : Nat) (v : Site) : (putSite s i v).comp = s.comp := rfl
@[simp] theorem putSite_dcache (s : State) (i : Nat) (v : Site) : (putSite s i v).dcache = s.dcache := rfl
@[simp] theorem putSite_ioIde (s : State) (i : Nat) (v : Site) : (putSite s i v).ioIde = s.ioIde := rfl
@[simp] theorem putSite_cmBad (s : State) (i : Nat) (v : Site) : (putSite s i v).cmBad = s.cmBad := rfl
@[simp] theorem putSite_hbm (s : State) (i : Nat) (v : Site) : (putSite s i v).hbm = s.hbm := rfl
@[simp] theorem putSite_ring (s : State) (i : Nat) (v : Site) : (putSite s i v).ring = s.ring := rfl
@[simp] theorem putSite_tellers (s : State) (i : Nat) (v : Site) : (putSite s i v).tellers = s.tellers := rfl
@[simp] theorem putSite_items (s : State) (i : Nat) (v : Site) : (putSite s i v).items = s.items := rfl
@[simp] theorem putSite_roleEvts (s : State) (i : Nat) (v : Site) : (putSite s i v).roleEvts = s.roleEvts := rfl
@[simp] theorem putSite_boot (s : State) (i : Nat) (v : Site) : (putSite s i v).boot = s.boot := rfl
@[simp] theorem putSite_thm (s : State) (i : Nat) (v : Site) : (putSite s i v).thm = s.thm := rfl
@[simp] theorem putSite_smb (s : State) (i : Nat) (v : Site) : (putSite s i v).smb = s.smb := rfl
@[simp] theorem putSite_lockout (s : State) (i : Nat) (v : Site) : (putSite s i v).lockout = s.lockout := rfl
@[simp] theorem putSite_ssid (s : State) (i : Nat) (v : Site) : (putSite s i v).ssid = s.ssid := rfl
@[simp] theorem putSite_keyHash (s : State) (i : Nat) (v : Site) : (putSite s i v).keyHash = s.keyHash := rfl
@[simp] theorem putSite_d3 (s : State) (i : Nat) (v : Site) : (putSite s i v).d3 = s.d3 := rfl
@[simp] theorem putSite_wakeReq (s : State) (i : Nat) (v : Site) : (putSite s i v).wakeReq = s.wakeReq := rfl
@[simp] theorem putSite_laneDown (s : State) (i : Nat) (v : Site) : (putSite s i v).laneDown = s.laneDown := rfl
@[simp] theorem putSite_trigOut (s : State) (i : Nat) (v : Site) : (putSite s i v).trigOut = s.trigOut := rfl
@[simp] theorem putSite_startQ (s : State) (i : Nat) (v : Site) : (putSite s i v).startQ = s.startQ := rfl
@[simp] theorem putSite_pending (s : State) (i : Nat) (v : Site) : (putSite s i v).pending = s.pending := rfl

/-! ### putJob -/

@[simp] theorem putJob_now (s : State) (j : Nat) (x : Job) : (putJob s j x).now = s.now := rfl
@[simp] theorem putJob_fresh (s : State) (j : Nat) (x : Job) : (putJob s j x).fresh = s.fresh := rfl
@[simp] theorem putJob_regs (s : State) (j : Nat) (x : Job) : (putJob s j x).regs = s.regs := rfl
@[simp] theorem putJob_shadow (s : State) (j : Nat) (x : Job) : (putJob s j x).shadow = s.shadow := rfl
@[simp] theorem putJob_latch (s : State) (j : Nat) (x : Job) : (putJob s j x).latch = s.latch := rfl
@[simp] theorem putJob_resp (s : State) (j : Nat) (x : Job) : (putJob s j x).resp = s.resp := rfl
@[simp] theorem putJob_hostMem (s : State) (j : Nat) (x : Job) : (putJob s j x).hostMem = s.hostMem := rfl
@[simp] theorem putJob_devMem (s : State) (j : Nat) (x : Job) : (putJob s j x).devMem = s.devMem := rfl
@[simp] theorem putJob_badLines (s : State) (j : Nat) (x : Job) : (putJob s j x).badLines = s.badLines := rfl
@[simp] theorem putJob_slices (s : State) (j : Nat) (x : Job) : (putJob s j x).slices = s.slices := rfl
@[simp] theorem putJob_tiles (s : State) (j : Nat) (x : Job) : (putJob s j x).tiles = s.tiles := rfl
@[simp] theorem putJob_gangs (s : State) (j : Nat) (x : Job) : (putJob s j x).gangs = s.gangs := rfl
@[simp] theorem putJob_sites (s : State) (j : Nat) (x : Job) : (putJob s j x).sites = s.sites := rfl
@[simp] theorem putJob_digs (s : State) (j : Nat) (x : Job) : (putJob s j x).digs = s.digs := rfl
@[simp] theorem putJob_param (s : State) (j : Nat) (x : Job) : (putJob s j x).param = s.param := rfl
@[simp] theorem putJob_xlt (s : State) (j : Nat) (x : Job) : (putJob s j x).xlt = s.xlt := rfl
@[simp] theorem putJob_flt (s : State) (j : Nat) (x : Job) : (putJob s j x).flt = s.flt := rfl
@[simp] theorem putJob_memEn (s : State) (j : Nat) (x : Job) : (putJob s j x).memEn = s.memEn := rfl
@[simp] theorem putJob_cacheEn (s : State) (j : Nat) (x : Job) : (putJob s j x).cacheEn = s.cacheEn := rfl
@[simp] theorem putJob_hdmProg (s : State) (j : Nat) (x : Job) : (putJob s j x).hdmProg = s.hdmProg := rfl
@[simp] theorem putJob_sf (s : State) (j : Nat) (x : Job) : (putJob s j x).sf = s.sf := rfl
@[simp] theorem putJob_biAsked (s : State) (j : Nat) (x : Job) : (putJob s j x).biAsked = s.biAsked := rfl
@[simp] theorem putJob_biSent (s : State) (j : Nat) (x : Job) : (putJob s j x).biSent = s.biSent := rfl
@[simp] theorem putJob_cfg (s : State) (j : Nat) (x : Job) : (putJob s j x).cfg = s.cfg := rfl
@[simp] theorem putJob_comp (s : State) (j : Nat) (x : Job) : (putJob s j x).comp = s.comp := rfl
@[simp] theorem putJob_dcache (s : State) (j : Nat) (x : Job) : (putJob s j x).dcache = s.dcache := rfl
@[simp] theorem putJob_ioIde (s : State) (j : Nat) (x : Job) : (putJob s j x).ioIde = s.ioIde := rfl
@[simp] theorem putJob_cmBad (s : State) (j : Nat) (x : Job) : (putJob s j x).cmBad = s.cmBad := rfl
@[simp] theorem putJob_hbm (s : State) (j : Nat) (x : Job) : (putJob s j x).hbm = s.hbm := rfl
@[simp] theorem putJob_ring (s : State) (j : Nat) (x : Job) : (putJob s j x).ring = s.ring := rfl
@[simp] theorem putJob_tellers (s : State) (j : Nat) (x : Job) : (putJob s j x).tellers = s.tellers := rfl
@[simp] theorem putJob_items (s : State) (j : Nat) (x : Job) : (putJob s j x).items = s.items := rfl
@[simp] theorem putJob_roleEvts (s : State) (j : Nat) (x : Job) : (putJob s j x).roleEvts = s.roleEvts := rfl
@[simp] theorem putJob_boot (s : State) (j : Nat) (x : Job) : (putJob s j x).boot = s.boot := rfl
@[simp] theorem putJob_thm (s : State) (j : Nat) (x : Job) : (putJob s j x).thm = s.thm := rfl
@[simp] theorem putJob_smb (s : State) (j : Nat) (x : Job) : (putJob s j x).smb = s.smb := rfl
@[simp] theorem putJob_lockout (s : State) (j : Nat) (x : Job) : (putJob s j x).lockout = s.lockout := rfl
@[simp] theorem putJob_ssid (s : State) (j : Nat) (x : Job) : (putJob s j x).ssid = s.ssid := rfl
@[simp] theorem putJob_keyHash (s : State) (j : Nat) (x : Job) : (putJob s j x).keyHash = s.keyHash := rfl
@[simp] theorem putJob_d3 (s : State) (j : Nat) (x : Job) : (putJob s j x).d3 = s.d3 := rfl
@[simp] theorem putJob_wakeReq (s : State) (j : Nat) (x : Job) : (putJob s j x).wakeReq = s.wakeReq := rfl
@[simp] theorem putJob_laneDown (s : State) (j : Nat) (x : Job) : (putJob s j x).laneDown = s.laneDown := rfl
@[simp] theorem putJob_trigOut (s : State) (j : Nat) (x : Job) : (putJob s j x).trigOut = s.trigOut := rfl
@[simp] theorem putJob_startQ (s : State) (j : Nat) (x : Job) : (putJob s j x).startQ = s.startQ := rfl
@[simp] theorem putJob_pending (s : State) (j : Nat) (x : Job) : (putJob s j x).pending = s.pending := rfl

/-! ### updXlt -/

@[simp] theorem updXlt_now (s : State) (f : Xlt → Xlt) : (updXlt s f).now = s.now := rfl
@[simp] theorem updXlt_fresh (s : State) (f : Xlt → Xlt) : (updXlt s f).fresh = s.fresh := rfl
@[simp] theorem updXlt_regs (s : State) (f : Xlt → Xlt) : (updXlt s f).regs = s.regs := rfl
@[simp] theorem updXlt_shadow (s : State) (f : Xlt → Xlt) : (updXlt s f).shadow = s.shadow := rfl
@[simp] theorem updXlt_latch (s : State) (f : Xlt → Xlt) : (updXlt s f).latch = s.latch := rfl
@[simp] theorem updXlt_resp (s : State) (f : Xlt → Xlt) : (updXlt s f).resp = s.resp := rfl
@[simp] theorem updXlt_hostMem (s : State) (f : Xlt → Xlt) : (updXlt s f).hostMem = s.hostMem := rfl
@[simp] theorem updXlt_devMem (s : State) (f : Xlt → Xlt) : (updXlt s f).devMem = s.devMem := rfl
@[simp] theorem updXlt_badLines (s : State) (f : Xlt → Xlt) : (updXlt s f).badLines = s.badLines := rfl
@[simp] theorem updXlt_slices (s : State) (f : Xlt → Xlt) : (updXlt s f).slices = s.slices := rfl
@[simp] theorem updXlt_tiles (s : State) (f : Xlt → Xlt) : (updXlt s f).tiles = s.tiles := rfl
@[simp] theorem updXlt_gangs (s : State) (f : Xlt → Xlt) : (updXlt s f).gangs = s.gangs := rfl
@[simp] theorem updXlt_sites (s : State) (f : Xlt → Xlt) : (updXlt s f).sites = s.sites := rfl
@[simp] theorem updXlt_digs (s : State) (f : Xlt → Xlt) : (updXlt s f).digs = s.digs := rfl
@[simp] theorem updXlt_param (s : State) (f : Xlt → Xlt) : (updXlt s f).param = s.param := rfl
@[simp] theorem updXlt_rings (s : State) (f : Xlt → Xlt) : (updXlt s f).rings = s.rings := rfl
@[simp] theorem updXlt_flt (s : State) (f : Xlt → Xlt) : (updXlt s f).flt = s.flt := rfl
@[simp] theorem updXlt_memEn (s : State) (f : Xlt → Xlt) : (updXlt s f).memEn = s.memEn := rfl
@[simp] theorem updXlt_cacheEn (s : State) (f : Xlt → Xlt) : (updXlt s f).cacheEn = s.cacheEn := rfl
@[simp] theorem updXlt_hdmProg (s : State) (f : Xlt → Xlt) : (updXlt s f).hdmProg = s.hdmProg := rfl
@[simp] theorem updXlt_sf (s : State) (f : Xlt → Xlt) : (updXlt s f).sf = s.sf := rfl
@[simp] theorem updXlt_biAsked (s : State) (f : Xlt → Xlt) : (updXlt s f).biAsked = s.biAsked := rfl
@[simp] theorem updXlt_biSent (s : State) (f : Xlt → Xlt) : (updXlt s f).biSent = s.biSent := rfl
@[simp] theorem updXlt_cfg (s : State) (f : Xlt → Xlt) : (updXlt s f).cfg = s.cfg := rfl
@[simp] theorem updXlt_comp (s : State) (f : Xlt → Xlt) : (updXlt s f).comp = s.comp := rfl
@[simp] theorem updXlt_dcache (s : State) (f : Xlt → Xlt) : (updXlt s f).dcache = s.dcache := rfl
@[simp] theorem updXlt_ioIde (s : State) (f : Xlt → Xlt) : (updXlt s f).ioIde = s.ioIde := rfl
@[simp] theorem updXlt_cmBad (s : State) (f : Xlt → Xlt) : (updXlt s f).cmBad = s.cmBad := rfl
@[simp] theorem updXlt_hbm (s : State) (f : Xlt → Xlt) : (updXlt s f).hbm = s.hbm := rfl
@[simp] theorem updXlt_ring (s : State) (f : Xlt → Xlt) : (updXlt s f).ring = s.ring := rfl
@[simp] theorem updXlt_tellers (s : State) (f : Xlt → Xlt) : (updXlt s f).tellers = s.tellers := rfl
@[simp] theorem updXlt_items (s : State) (f : Xlt → Xlt) : (updXlt s f).items = s.items := rfl
@[simp] theorem updXlt_roleEvts (s : State) (f : Xlt → Xlt) : (updXlt s f).roleEvts = s.roleEvts := rfl
@[simp] theorem updXlt_boot (s : State) (f : Xlt → Xlt) : (updXlt s f).boot = s.boot := rfl
@[simp] theorem updXlt_thm (s : State) (f : Xlt → Xlt) : (updXlt s f).thm = s.thm := rfl
@[simp] theorem updXlt_smb (s : State) (f : Xlt → Xlt) : (updXlt s f).smb = s.smb := rfl
@[simp] theorem updXlt_lockout (s : State) (f : Xlt → Xlt) : (updXlt s f).lockout = s.lockout := rfl
@[simp] theorem updXlt_ssid (s : State) (f : Xlt → Xlt) : (updXlt s f).ssid = s.ssid := rfl
@[simp] theorem updXlt_keyHash (s : State) (f : Xlt → Xlt) : (updXlt s f).keyHash = s.keyHash := rfl
@[simp] theorem updXlt_d3 (s : State) (f : Xlt → Xlt) : (updXlt s f).d3 = s.d3 := rfl
@[simp] theorem updXlt_wakeReq (s : State) (f : Xlt → Xlt) : (updXlt s f).wakeReq = s.wakeReq := rfl
@[simp] theorem updXlt_laneDown (s : State) (f : Xlt → Xlt) : (updXlt s f).laneDown = s.laneDown := rfl
@[simp] theorem updXlt_trigOut (s : State) (f : Xlt → Xlt) : (updXlt s f).trigOut = s.trigOut := rfl
@[simp] theorem updXlt_startQ (s : State) (f : Xlt → Xlt) : (updXlt s f).startQ = s.startQ := rfl
@[simp] theorem updXlt_pending (s : State) (f : Xlt → Xlt) : (updXlt s f).pending = s.pending := rfl

/-! ### updRings -/

@[simp] theorem updRings_now (s : State) (f : Rings → Rings) : (updRings s f).now = s.now := rfl
@[simp] theorem updRings_fresh (s : State) (f : Rings → Rings) : (updRings s f).fresh = s.fresh := rfl
@[simp] theorem updRings_regs (s : State) (f : Rings → Rings) : (updRings s f).regs = s.regs := rfl
@[simp] theorem updRings_shadow (s : State) (f : Rings → Rings) : (updRings s f).shadow = s.shadow := rfl
@[simp] theorem updRings_latch (s : State) (f : Rings → Rings) : (updRings s f).latch = s.latch := rfl
@[simp] theorem updRings_resp (s : State) (f : Rings → Rings) : (updRings s f).resp = s.resp := rfl
@[simp] theorem updRings_hostMem (s : State) (f : Rings → Rings) : (updRings s f).hostMem = s.hostMem := rfl
@[simp] theorem updRings_devMem (s : State) (f : Rings → Rings) : (updRings s f).devMem = s.devMem := rfl
@[simp] theorem updRings_badLines (s : State) (f : Rings → Rings) : (updRings s f).badLines = s.badLines := rfl
@[simp] theorem updRings_slices (s : State) (f : Rings → Rings) : (updRings s f).slices = s.slices := rfl
@[simp] theorem updRings_tiles (s : State) (f : Rings → Rings) : (updRings s f).tiles = s.tiles := rfl
@[simp] theorem updRings_gangs (s : State) (f : Rings → Rings) : (updRings s f).gangs = s.gangs := rfl
@[simp] theorem updRings_sites (s : State) (f : Rings → Rings) : (updRings s f).sites = s.sites := rfl
@[simp] theorem updRings_digs (s : State) (f : Rings → Rings) : (updRings s f).digs = s.digs := rfl
@[simp] theorem updRings_param (s : State) (f : Rings → Rings) : (updRings s f).param = s.param := rfl
@[simp] theorem updRings_xlt (s : State) (f : Rings → Rings) : (updRings s f).xlt = s.xlt := rfl
@[simp] theorem updRings_flt (s : State) (f : Rings → Rings) : (updRings s f).flt = s.flt := rfl
@[simp] theorem updRings_memEn (s : State) (f : Rings → Rings) : (updRings s f).memEn = s.memEn := rfl
@[simp] theorem updRings_cacheEn (s : State) (f : Rings → Rings) : (updRings s f).cacheEn = s.cacheEn := rfl
@[simp] theorem updRings_hdmProg (s : State) (f : Rings → Rings) : (updRings s f).hdmProg = s.hdmProg := rfl
@[simp] theorem updRings_sf (s : State) (f : Rings → Rings) : (updRings s f).sf = s.sf := rfl
@[simp] theorem updRings_biAsked (s : State) (f : Rings → Rings) : (updRings s f).biAsked = s.biAsked := rfl
@[simp] theorem updRings_biSent (s : State) (f : Rings → Rings) : (updRings s f).biSent = s.biSent := rfl
@[simp] theorem updRings_cfg (s : State) (f : Rings → Rings) : (updRings s f).cfg = s.cfg := rfl
@[simp] theorem updRings_comp (s : State) (f : Rings → Rings) : (updRings s f).comp = s.comp := rfl
@[simp] theorem updRings_dcache (s : State) (f : Rings → Rings) : (updRings s f).dcache = s.dcache := rfl
@[simp] theorem updRings_ioIde (s : State) (f : Rings → Rings) : (updRings s f).ioIde = s.ioIde := rfl
@[simp] theorem updRings_cmBad (s : State) (f : Rings → Rings) : (updRings s f).cmBad = s.cmBad := rfl
@[simp] theorem updRings_hbm (s : State) (f : Rings → Rings) : (updRings s f).hbm = s.hbm := rfl
@[simp] theorem updRings_ring (s : State) (f : Rings → Rings) : (updRings s f).ring = s.ring := rfl
@[simp] theorem updRings_tellers (s : State) (f : Rings → Rings) : (updRings s f).tellers = s.tellers := rfl
@[simp] theorem updRings_items (s : State) (f : Rings → Rings) : (updRings s f).items = s.items := rfl
@[simp] theorem updRings_roleEvts (s : State) (f : Rings → Rings) : (updRings s f).roleEvts = s.roleEvts := rfl
@[simp] theorem updRings_boot (s : State) (f : Rings → Rings) : (updRings s f).boot = s.boot := rfl
@[simp] theorem updRings_thm (s : State) (f : Rings → Rings) : (updRings s f).thm = s.thm := rfl
@[simp] theorem updRings_smb (s : State) (f : Rings → Rings) : (updRings s f).smb = s.smb := rfl
@[simp] theorem updRings_lockout (s : State) (f : Rings → Rings) : (updRings s f).lockout = s.lockout := rfl
@[simp] theorem updRings_ssid (s : State) (f : Rings → Rings) : (updRings s f).ssid = s.ssid := rfl
@[simp] theorem updRings_keyHash (s : State) (f : Rings → Rings) : (updRings s f).keyHash = s.keyHash := rfl
@[simp] theorem updRings_d3 (s : State) (f : Rings → Rings) : (updRings s f).d3 = s.d3 := rfl
@[simp] theorem updRings_wakeReq (s : State) (f : Rings → Rings) : (updRings s f).wakeReq = s.wakeReq := rfl
@[simp] theorem updRings_laneDown (s : State) (f : Rings → Rings) : (updRings s f).laneDown = s.laneDown := rfl
@[simp] theorem updRings_trigOut (s : State) (f : Rings → Rings) : (updRings s f).trigOut = s.trigOut := rfl
@[simp] theorem updRings_startQ (s : State) (f : Rings → Rings) : (updRings s f).startQ = s.startQ := rfl
@[simp] theorem updRings_pending (s : State) (f : Rings → Rings) : (updRings s f).pending = s.pending := rfl

/-! ### updHbm -/

@[simp] theorem updHbm_now (s : State) (f : Hbm → Hbm) : (updHbm s f).now = s.now := rfl
@[simp] theorem updHbm_fresh (s : State) (f : Hbm → Hbm) : (updHbm s f).fresh = s.fresh := rfl
@[simp] theorem updHbm_regs (s : State) (f : Hbm → Hbm) : (updHbm s f).regs = s.regs := rfl
@[simp] theorem updHbm_shadow (s : State) (f : Hbm → Hbm) : (updHbm s f).shadow = s.shadow := rfl
@[simp] theorem updHbm_latch (s : State) (f : Hbm → Hbm) : (updHbm s f).latch = s.latch := rfl
@[simp] theorem updHbm_resp (s : State) (f : Hbm → Hbm) : (updHbm s f).resp = s.resp := rfl
@[simp] theorem updHbm_hostMem (s : State) (f : Hbm → Hbm) : (updHbm s f).hostMem = s.hostMem := rfl
@[simp] theorem updHbm_devMem (s : State) (f : Hbm → Hbm) : (updHbm s f).devMem = s.devMem := rfl
@[simp] theorem updHbm_badLines (s : State) (f : Hbm → Hbm) : (updHbm s f).badLines = s.badLines := rfl
@[simp] theorem updHbm_slices (s : State) (f : Hbm → Hbm) : (updHbm s f).slices = s.slices := rfl
@[simp] theorem updHbm_tiles (s : State) (f : Hbm → Hbm) : (updHbm s f).tiles = s.tiles := rfl
@[simp] theorem updHbm_gangs (s : State) (f : Hbm → Hbm) : (updHbm s f).gangs = s.gangs := rfl
@[simp] theorem updHbm_sites (s : State) (f : Hbm → Hbm) : (updHbm s f).sites = s.sites := rfl
@[simp] theorem updHbm_digs (s : State) (f : Hbm → Hbm) : (updHbm s f).digs = s.digs := rfl
@[simp] theorem updHbm_param (s : State) (f : Hbm → Hbm) : (updHbm s f).param = s.param := rfl
@[simp] theorem updHbm_xlt (s : State) (f : Hbm → Hbm) : (updHbm s f).xlt = s.xlt := rfl
@[simp] theorem updHbm_rings (s : State) (f : Hbm → Hbm) : (updHbm s f).rings = s.rings := rfl
@[simp] theorem updHbm_flt (s : State) (f : Hbm → Hbm) : (updHbm s f).flt = s.flt := rfl
@[simp] theorem updHbm_memEn (s : State) (f : Hbm → Hbm) : (updHbm s f).memEn = s.memEn := rfl
@[simp] theorem updHbm_cacheEn (s : State) (f : Hbm → Hbm) : (updHbm s f).cacheEn = s.cacheEn := rfl
@[simp] theorem updHbm_hdmProg (s : State) (f : Hbm → Hbm) : (updHbm s f).hdmProg = s.hdmProg := rfl
@[simp] theorem updHbm_sf (s : State) (f : Hbm → Hbm) : (updHbm s f).sf = s.sf := rfl
@[simp] theorem updHbm_biAsked (s : State) (f : Hbm → Hbm) : (updHbm s f).biAsked = s.biAsked := rfl
@[simp] theorem updHbm_biSent (s : State) (f : Hbm → Hbm) : (updHbm s f).biSent = s.biSent := rfl
@[simp] theorem updHbm_cfg (s : State) (f : Hbm → Hbm) : (updHbm s f).cfg = s.cfg := rfl
@[simp] theorem updHbm_comp (s : State) (f : Hbm → Hbm) : (updHbm s f).comp = s.comp := rfl
@[simp] theorem updHbm_dcache (s : State) (f : Hbm → Hbm) : (updHbm s f).dcache = s.dcache := rfl
@[simp] theorem updHbm_ioIde (s : State) (f : Hbm → Hbm) : (updHbm s f).ioIde = s.ioIde := rfl
@[simp] theorem updHbm_cmBad (s : State) (f : Hbm → Hbm) : (updHbm s f).cmBad = s.cmBad := rfl
@[simp] theorem updHbm_ring (s : State) (f : Hbm → Hbm) : (updHbm s f).ring = s.ring := rfl
@[simp] theorem updHbm_tellers (s : State) (f : Hbm → Hbm) : (updHbm s f).tellers = s.tellers := rfl
@[simp] theorem updHbm_items (s : State) (f : Hbm → Hbm) : (updHbm s f).items = s.items := rfl
@[simp] theorem updHbm_roleEvts (s : State) (f : Hbm → Hbm) : (updHbm s f).roleEvts = s.roleEvts := rfl
@[simp] theorem updHbm_boot (s : State) (f : Hbm → Hbm) : (updHbm s f).boot = s.boot := rfl
@[simp] theorem updHbm_thm (s : State) (f : Hbm → Hbm) : (updHbm s f).thm = s.thm := rfl
@[simp] theorem updHbm_smb (s : State) (f : Hbm → Hbm) : (updHbm s f).smb = s.smb := rfl
@[simp] theorem updHbm_lockout (s : State) (f : Hbm → Hbm) : (updHbm s f).lockout = s.lockout := rfl
@[simp] theorem updHbm_ssid (s : State) (f : Hbm → Hbm) : (updHbm s f).ssid = s.ssid := rfl
@[simp] theorem updHbm_keyHash (s : State) (f : Hbm → Hbm) : (updHbm s f).keyHash = s.keyHash := rfl
@[simp] theorem updHbm_d3 (s : State) (f : Hbm → Hbm) : (updHbm s f).d3 = s.d3 := rfl
@[simp] theorem updHbm_wakeReq (s : State) (f : Hbm → Hbm) : (updHbm s f).wakeReq = s.wakeReq := rfl
@[simp] theorem updHbm_laneDown (s : State) (f : Hbm → Hbm) : (updHbm s f).laneDown = s.laneDown := rfl
@[simp] theorem updHbm_trigOut (s : State) (f : Hbm → Hbm) : (updHbm s f).trigOut = s.trigOut := rfl
@[simp] theorem updHbm_startQ (s : State) (f : Hbm → Hbm) : (updHbm s f).startQ = s.startQ := rfl
@[simp] theorem updHbm_pending (s : State) (f : Hbm → Hbm) : (updHbm s f).pending = s.pending := rfl

/-! ### updBoot -/

@[simp] theorem updBoot_now (s : State) (f : Boot → Boot) : (updBoot s f).now = s.now := rfl
@[simp] theorem updBoot_fresh (s : State) (f : Boot → Boot) : (updBoot s f).fresh = s.fresh := rfl
@[simp] theorem updBoot_regs (s : State) (f : Boot → Boot) : (updBoot s f).regs = s.regs := rfl
@[simp] theorem updBoot_shadow (s : State) (f : Boot → Boot) : (updBoot s f).shadow = s.shadow := rfl
@[simp] theorem updBoot_latch (s : State) (f : Boot → Boot) : (updBoot s f).latch = s.latch := rfl
@[simp] theorem updBoot_resp (s : State) (f : Boot → Boot) : (updBoot s f).resp = s.resp := rfl
@[simp] theorem updBoot_hostMem (s : State) (f : Boot → Boot) : (updBoot s f).hostMem = s.hostMem := rfl
@[simp] theorem updBoot_devMem (s : State) (f : Boot → Boot) : (updBoot s f).devMem = s.devMem := rfl
@[simp] theorem updBoot_badLines (s : State) (f : Boot → Boot) : (updBoot s f).badLines = s.badLines := rfl
@[simp] theorem updBoot_slices (s : State) (f : Boot → Boot) : (updBoot s f).slices = s.slices := rfl
@[simp] theorem updBoot_tiles (s : State) (f : Boot → Boot) : (updBoot s f).tiles = s.tiles := rfl
@[simp] theorem updBoot_gangs (s : State) (f : Boot → Boot) : (updBoot s f).gangs = s.gangs := rfl
@[simp] theorem updBoot_sites (s : State) (f : Boot → Boot) : (updBoot s f).sites = s.sites := rfl
@[simp] theorem updBoot_digs (s : State) (f : Boot → Boot) : (updBoot s f).digs = s.digs := rfl
@[simp] theorem updBoot_param (s : State) (f : Boot → Boot) : (updBoot s f).param = s.param := rfl
@[simp] theorem updBoot_xlt (s : State) (f : Boot → Boot) : (updBoot s f).xlt = s.xlt := rfl
@[simp] theorem updBoot_rings (s : State) (f : Boot → Boot) : (updBoot s f).rings = s.rings := rfl
@[simp] theorem updBoot_flt (s : State) (f : Boot → Boot) : (updBoot s f).flt = s.flt := rfl
@[simp] theorem updBoot_memEn (s : State) (f : Boot → Boot) : (updBoot s f).memEn = s.memEn := rfl
@[simp] theorem updBoot_cacheEn (s : State) (f : Boot → Boot) : (updBoot s f).cacheEn = s.cacheEn := rfl
@[simp] theorem updBoot_hdmProg (s : State) (f : Boot → Boot) : (updBoot s f).hdmProg = s.hdmProg := rfl
@[simp] theorem updBoot_sf (s : State) (f : Boot → Boot) : (updBoot s f).sf = s.sf := rfl
@[simp] theorem updBoot_biAsked (s : State) (f : Boot → Boot) : (updBoot s f).biAsked = s.biAsked := rfl
@[simp] theorem updBoot_biSent (s : State) (f : Boot → Boot) : (updBoot s f).biSent = s.biSent := rfl
@[simp] theorem updBoot_cfg (s : State) (f : Boot → Boot) : (updBoot s f).cfg = s.cfg := rfl
@[simp] theorem updBoot_comp (s : State) (f : Boot → Boot) : (updBoot s f).comp = s.comp := rfl
@[simp] theorem updBoot_dcache (s : State) (f : Boot → Boot) : (updBoot s f).dcache = s.dcache := rfl
@[simp] theorem updBoot_ioIde (s : State) (f : Boot → Boot) : (updBoot s f).ioIde = s.ioIde := rfl
@[simp] theorem updBoot_cmBad (s : State) (f : Boot → Boot) : (updBoot s f).cmBad = s.cmBad := rfl
@[simp] theorem updBoot_hbm (s : State) (f : Boot → Boot) : (updBoot s f).hbm = s.hbm := rfl
@[simp] theorem updBoot_ring (s : State) (f : Boot → Boot) : (updBoot s f).ring = s.ring := rfl
@[simp] theorem updBoot_tellers (s : State) (f : Boot → Boot) : (updBoot s f).tellers = s.tellers := rfl
@[simp] theorem updBoot_items (s : State) (f : Boot → Boot) : (updBoot s f).items = s.items := rfl
@[simp] theorem updBoot_roleEvts (s : State) (f : Boot → Boot) : (updBoot s f).roleEvts = s.roleEvts := rfl
@[simp] theorem updBoot_thm (s : State) (f : Boot → Boot) : (updBoot s f).thm = s.thm := rfl
@[simp] theorem updBoot_smb (s : State) (f : Boot → Boot) : (updBoot s f).smb = s.smb := rfl
@[simp] theorem updBoot_lockout (s : State) (f : Boot → Boot) : (updBoot s f).lockout = s.lockout := rfl
@[simp] theorem updBoot_ssid (s : State) (f : Boot → Boot) : (updBoot s f).ssid = s.ssid := rfl
@[simp] theorem updBoot_keyHash (s : State) (f : Boot → Boot) : (updBoot s f).keyHash = s.keyHash := rfl
@[simp] theorem updBoot_d3 (s : State) (f : Boot → Boot) : (updBoot s f).d3 = s.d3 := rfl
@[simp] theorem updBoot_wakeReq (s : State) (f : Boot → Boot) : (updBoot s f).wakeReq = s.wakeReq := rfl
@[simp] theorem updBoot_laneDown (s : State) (f : Boot → Boot) : (updBoot s f).laneDown = s.laneDown := rfl
@[simp] theorem updBoot_trigOut (s : State) (f : Boot → Boot) : (updBoot s f).trigOut = s.trigOut := rfl
@[simp] theorem updBoot_startQ (s : State) (f : Boot → Boot) : (updBoot s f).startQ = s.startQ := rfl
@[simp] theorem updBoot_pending (s : State) (f : Boot → Boot) : (updBoot s f).pending = s.pending := rfl

/-! ### updRing -/

@[simp] theorem updRing_now (s : State) (f : TimeRing → TimeRing) : (updRing s f).now = s.now := rfl
@[simp] theorem updRing_fresh (s : State) (f : TimeRing → TimeRing) : (updRing s f).fresh = s.fresh := rfl
@[simp] theorem updRing_regs (s : State) (f : TimeRing → TimeRing) : (updRing s f).regs = s.regs := rfl
@[simp] theorem updRing_shadow (s : State) (f : TimeRing → TimeRing) : (updRing s f).shadow = s.shadow := rfl
@[simp] theorem updRing_latch (s : State) (f : TimeRing → TimeRing) : (updRing s f).latch = s.latch := rfl
@[simp] theorem updRing_resp (s : State) (f : TimeRing → TimeRing) : (updRing s f).resp = s.resp := rfl
@[simp] theorem updRing_hostMem (s : State) (f : TimeRing → TimeRing) : (updRing s f).hostMem = s.hostMem := rfl
@[simp] theorem updRing_devMem (s : State) (f : TimeRing → TimeRing) : (updRing s f).devMem = s.devMem := rfl
@[simp] theorem updRing_badLines (s : State) (f : TimeRing → TimeRing) : (updRing s f).badLines = s.badLines := rfl
@[simp] theorem updRing_slices (s : State) (f : TimeRing → TimeRing) : (updRing s f).slices = s.slices := rfl
@[simp] theorem updRing_tiles (s : State) (f : TimeRing → TimeRing) : (updRing s f).tiles = s.tiles := rfl
@[simp] theorem updRing_gangs (s : State) (f : TimeRing → TimeRing) : (updRing s f).gangs = s.gangs := rfl
@[simp] theorem updRing_sites (s : State) (f : TimeRing → TimeRing) : (updRing s f).sites = s.sites := rfl
@[simp] theorem updRing_digs (s : State) (f : TimeRing → TimeRing) : (updRing s f).digs = s.digs := rfl
@[simp] theorem updRing_param (s : State) (f : TimeRing → TimeRing) : (updRing s f).param = s.param := rfl
@[simp] theorem updRing_xlt (s : State) (f : TimeRing → TimeRing) : (updRing s f).xlt = s.xlt := rfl
@[simp] theorem updRing_rings (s : State) (f : TimeRing → TimeRing) : (updRing s f).rings = s.rings := rfl
@[simp] theorem updRing_flt (s : State) (f : TimeRing → TimeRing) : (updRing s f).flt = s.flt := rfl
@[simp] theorem updRing_memEn (s : State) (f : TimeRing → TimeRing) : (updRing s f).memEn = s.memEn := rfl
@[simp] theorem updRing_cacheEn (s : State) (f : TimeRing → TimeRing) : (updRing s f).cacheEn = s.cacheEn := rfl
@[simp] theorem updRing_hdmProg (s : State) (f : TimeRing → TimeRing) : (updRing s f).hdmProg = s.hdmProg := rfl
@[simp] theorem updRing_sf (s : State) (f : TimeRing → TimeRing) : (updRing s f).sf = s.sf := rfl
@[simp] theorem updRing_biAsked (s : State) (f : TimeRing → TimeRing) : (updRing s f).biAsked = s.biAsked := rfl
@[simp] theorem updRing_biSent (s : State) (f : TimeRing → TimeRing) : (updRing s f).biSent = s.biSent := rfl
@[simp] theorem updRing_cfg (s : State) (f : TimeRing → TimeRing) : (updRing s f).cfg = s.cfg := rfl
@[simp] theorem updRing_comp (s : State) (f : TimeRing → TimeRing) : (updRing s f).comp = s.comp := rfl
@[simp] theorem updRing_dcache (s : State) (f : TimeRing → TimeRing) : (updRing s f).dcache = s.dcache := rfl
@[simp] theorem updRing_ioIde (s : State) (f : TimeRing → TimeRing) : (updRing s f).ioIde = s.ioIde := rfl
@[simp] theorem updRing_cmBad (s : State) (f : TimeRing → TimeRing) : (updRing s f).cmBad = s.cmBad := rfl
@[simp] theorem updRing_hbm (s : State) (f : TimeRing → TimeRing) : (updRing s f).hbm = s.hbm := rfl
@[simp] theorem updRing_tellers (s : State) (f : TimeRing → TimeRing) : (updRing s f).tellers = s.tellers := rfl
@[simp] theorem updRing_items (s : State) (f : TimeRing → TimeRing) : (updRing s f).items = s.items := rfl
@[simp] theorem updRing_roleEvts (s : State) (f : TimeRing → TimeRing) : (updRing s f).roleEvts = s.roleEvts := rfl
@[simp] theorem updRing_boot (s : State) (f : TimeRing → TimeRing) : (updRing s f).boot = s.boot := rfl
@[simp] theorem updRing_thm (s : State) (f : TimeRing → TimeRing) : (updRing s f).thm = s.thm := rfl
@[simp] theorem updRing_smb (s : State) (f : TimeRing → TimeRing) : (updRing s f).smb = s.smb := rfl
@[simp] theorem updRing_lockout (s : State) (f : TimeRing → TimeRing) : (updRing s f).lockout = s.lockout := rfl
@[simp] theorem updRing_ssid (s : State) (f : TimeRing → TimeRing) : (updRing s f).ssid = s.ssid := rfl
@[simp] theorem updRing_keyHash (s : State) (f : TimeRing → TimeRing) : (updRing s f).keyHash = s.keyHash := rfl
@[simp] theorem updRing_d3 (s : State) (f : TimeRing → TimeRing) : (updRing s f).d3 = s.d3 := rfl
@[simp] theorem updRing_wakeReq (s : State) (f : TimeRing → TimeRing) : (updRing s f).wakeReq = s.wakeReq := rfl
@[simp] theorem updRing_laneDown (s : State) (f : TimeRing → TimeRing) : (updRing s f).laneDown = s.laneDown := rfl
@[simp] theorem updRing_trigOut (s : State) (f : TimeRing → TimeRing) : (updRing s f).trigOut = s.trigOut := rfl
@[simp] theorem updRing_startQ (s : State) (f : TimeRing → TimeRing) : (updRing s f).startQ = s.startQ := rfl
@[simp] theorem updRing_pending (s : State) (f : TimeRing → TimeRing) : (updRing s f).pending = s.pending := rfl

/-! ### updFlt -/

@[simp] theorem updFlt_now (s : State) (f : Flt → Flt) : (updFlt s f).now = s.now := rfl
@[simp] theorem updFlt_fresh (s : State) (f : Flt → Flt) : (updFlt s f).fresh = s.fresh := rfl
@[simp] theorem updFlt_regs (s : State) (f : Flt → Flt) : (updFlt s f).regs = s.regs := rfl
@[simp] theorem updFlt_shadow (s : State) (f : Flt → Flt) : (updFlt s f).shadow = s.shadow := rfl
@[simp] theorem updFlt_latch (s : State) (f : Flt → Flt) : (updFlt s f).latch = s.latch := rfl
@[simp] theorem updFlt_resp (s : State) (f : Flt → Flt) : (updFlt s f).resp = s.resp := rfl
@[simp] theorem updFlt_hostMem (s : State) (f : Flt → Flt) : (updFlt s f).hostMem = s.hostMem := rfl
@[simp] theorem updFlt_devMem (s : State) (f : Flt → Flt) : (updFlt s f).devMem = s.devMem := rfl
@[simp] theorem updFlt_badLines (s : State) (f : Flt → Flt) : (updFlt s f).badLines = s.badLines := rfl
@[simp] theorem updFlt_slices (s : State) (f : Flt → Flt) : (updFlt s f).slices = s.slices := rfl
@[simp] theorem updFlt_tiles (s : State) (f : Flt → Flt) : (updFlt s f).tiles = s.tiles := rfl
@[simp] theorem updFlt_gangs (s : State) (f : Flt → Flt) : (updFlt s f).gangs = s.gangs := rfl
@[simp] theorem updFlt_sites (s : State) (f : Flt → Flt) : (updFlt s f).sites = s.sites := rfl
@[simp] theorem updFlt_digs (s : State) (f : Flt → Flt) : (updFlt s f).digs = s.digs := rfl
@[simp] theorem updFlt_param (s : State) (f : Flt → Flt) : (updFlt s f).param = s.param := rfl
@[simp] theorem updFlt_xlt (s : State) (f : Flt → Flt) : (updFlt s f).xlt = s.xlt := rfl
@[simp] theorem updFlt_rings (s : State) (f : Flt → Flt) : (updFlt s f).rings = s.rings := rfl
@[simp] theorem updFlt_memEn (s : State) (f : Flt → Flt) : (updFlt s f).memEn = s.memEn := rfl
@[simp] theorem updFlt_cacheEn (s : State) (f : Flt → Flt) : (updFlt s f).cacheEn = s.cacheEn := rfl
@[simp] theorem updFlt_hdmProg (s : State) (f : Flt → Flt) : (updFlt s f).hdmProg = s.hdmProg := rfl
@[simp] theorem updFlt_sf (s : State) (f : Flt → Flt) : (updFlt s f).sf = s.sf := rfl
@[simp] theorem updFlt_biAsked (s : State) (f : Flt → Flt) : (updFlt s f).biAsked = s.biAsked := rfl
@[simp] theorem updFlt_biSent (s : State) (f : Flt → Flt) : (updFlt s f).biSent = s.biSent := rfl
@[simp] theorem updFlt_cfg (s : State) (f : Flt → Flt) : (updFlt s f).cfg = s.cfg := rfl
@[simp] theorem updFlt_comp (s : State) (f : Flt → Flt) : (updFlt s f).comp = s.comp := rfl
@[simp] theorem updFlt_dcache (s : State) (f : Flt → Flt) : (updFlt s f).dcache = s.dcache := rfl
@[simp] theorem updFlt_ioIde (s : State) (f : Flt → Flt) : (updFlt s f).ioIde = s.ioIde := rfl
@[simp] theorem updFlt_cmBad (s : State) (f : Flt → Flt) : (updFlt s f).cmBad = s.cmBad := rfl
@[simp] theorem updFlt_hbm (s : State) (f : Flt → Flt) : (updFlt s f).hbm = s.hbm := rfl
@[simp] theorem updFlt_ring (s : State) (f : Flt → Flt) : (updFlt s f).ring = s.ring := rfl
@[simp] theorem updFlt_tellers (s : State) (f : Flt → Flt) : (updFlt s f).tellers = s.tellers := rfl
@[simp] theorem updFlt_items (s : State) (f : Flt → Flt) : (updFlt s f).items = s.items := rfl
@[simp] theorem updFlt_roleEvts (s : State) (f : Flt → Flt) : (updFlt s f).roleEvts = s.roleEvts := rfl
@[simp] theorem updFlt_boot (s : State) (f : Flt → Flt) : (updFlt s f).boot = s.boot := rfl
@[simp] theorem updFlt_thm (s : State) (f : Flt → Flt) : (updFlt s f).thm = s.thm := rfl
@[simp] theorem updFlt_smb (s : State) (f : Flt → Flt) : (updFlt s f).smb = s.smb := rfl
@[simp] theorem updFlt_lockout (s : State) (f : Flt → Flt) : (updFlt s f).lockout = s.lockout := rfl
@[simp] theorem updFlt_ssid (s : State) (f : Flt → Flt) : (updFlt s f).ssid = s.ssid := rfl
@[simp] theorem updFlt_keyHash (s : State) (f : Flt → Flt) : (updFlt s f).keyHash = s.keyHash := rfl
@[simp] theorem updFlt_d3 (s : State) (f : Flt → Flt) : (updFlt s f).d3 = s.d3 := rfl
@[simp] theorem updFlt_wakeReq (s : State) (f : Flt → Flt) : (updFlt s f).wakeReq = s.wakeReq := rfl
@[simp] theorem updFlt_laneDown (s : State) (f : Flt → Flt) : (updFlt s f).laneDown = s.laneDown := rfl
@[simp] theorem updFlt_trigOut (s : State) (f : Flt → Flt) : (updFlt s f).trigOut = s.trigOut := rfl
@[simp] theorem updFlt_startQ (s : State) (f : Flt → Flt) : (updFlt s f).startQ = s.startQ := rfl
@[simp] theorem updFlt_pending (s : State) (f : Flt → Flt) : (updFlt s f).pending = s.pending := rfl

/-! ### putTel -/

@[simp] theorem putTel_now (s : State) (n : Nat) (x : Teller) : (putTel s n x).now = s.now := rfl
@[simp] theorem putTel_fresh (s : State) (n : Nat) (x : Teller) : (putTel s n x).fresh = s.fresh := rfl
@[simp] theorem putTel_regs (s : State) (n : Nat) (x : Teller) : (putTel s n x).regs = s.regs := rfl
@[simp] theorem putTel_shadow (s : State) (n : Nat) (x : Teller) : (putTel s n x).shadow = s.shadow := rfl
@[simp] theorem putTel_latch (s : State) (n : Nat) (x : Teller) : (putTel s n x).latch = s.latch := rfl
@[simp] theorem putTel_resp (s : State) (n : Nat) (x : Teller) : (putTel s n x).resp = s.resp := rfl
@[simp] theorem putTel_hostMem (s : State) (n : Nat) (x : Teller) : (putTel s n x).hostMem = s.hostMem := rfl
@[simp] theorem putTel_devMem (s : State) (n : Nat) (x : Teller) : (putTel s n x).devMem = s.devMem := rfl
@[simp] theorem putTel_badLines (s : State) (n : Nat) (x : Teller) : (putTel s n x).badLines = s.badLines := rfl
@[simp] theorem putTel_slices (s : State) (n : Nat) (x : Teller) : (putTel s n x).slices = s.slices := rfl
@[simp] theorem putTel_tiles (s : State) (n : Nat) (x : Teller) : (putTel s n x).tiles = s.tiles := rfl
@[simp] theorem putTel_gangs (s : State) (n : Nat) (x : Teller) : (putTel s n x).gangs = s.gangs := rfl
@[simp] theorem putTel_sites (s : State) (n : Nat) (x : Teller) : (putTel s n x).sites = s.sites := rfl
@[simp] theorem putTel_digs (s : State) (n : Nat) (x : Teller) : (putTel s n x).digs = s.digs := rfl
@[simp] theorem putTel_param (s : State) (n : Nat) (x : Teller) : (putTel s n x).param = s.param := rfl
@[simp] theorem putTel_xlt (s : State) (n : Nat) (x : Teller) : (putTel s n x).xlt = s.xlt := rfl
@[simp] theorem putTel_rings (s : State) (n : Nat) (x : Teller) : (putTel s n x).rings = s.rings := rfl
@[simp] theorem putTel_flt (s : State) (n : Nat) (x : Teller) : (putTel s n x).flt = s.flt := rfl
@[simp] theorem putTel_memEn (s : State) (n : Nat) (x : Teller) : (putTel s n x).memEn = s.memEn := rfl
@[simp] theorem putTel_cacheEn (s : State) (n : Nat) (x : Teller) : (putTel s n x).cacheEn = s.cacheEn := rfl
@[simp] theorem putTel_hdmProg (s : State) (n : Nat) (x : Teller) : (putTel s n x).hdmProg = s.hdmProg := rfl
@[simp] theorem putTel_sf (s : State) (n : Nat) (x : Teller) : (putTel s n x).sf = s.sf := rfl
@[simp] theorem putTel_biAsked (s : State) (n : Nat) (x : Teller) : (putTel s n x).biAsked = s.biAsked := rfl
@[simp] theorem putTel_biSent (s : State) (n : Nat) (x : Teller) : (putTel s n x).biSent = s.biSent := rfl
@[simp] theorem putTel_cfg (s : State) (n : Nat) (x : Teller) : (putTel s n x).cfg = s.cfg := rfl
@[simp] theorem putTel_comp (s : State) (n : Nat) (x : Teller) : (putTel s n x).comp = s.comp := rfl
@[simp] theorem putTel_dcache (s : State) (n : Nat) (x : Teller) : (putTel s n x).dcache = s.dcache := rfl
@[simp] theorem putTel_ioIde (s : State) (n : Nat) (x : Teller) : (putTel s n x).ioIde = s.ioIde := rfl
@[simp] theorem putTel_cmBad (s : State) (n : Nat) (x : Teller) : (putTel s n x).cmBad = s.cmBad := rfl
@[simp] theorem putTel_hbm (s : State) (n : Nat) (x : Teller) : (putTel s n x).hbm = s.hbm := rfl
@[simp] theorem putTel_ring (s : State) (n : Nat) (x : Teller) : (putTel s n x).ring = s.ring := rfl
@[simp] theorem putTel_items (s : State) (n : Nat) (x : Teller) : (putTel s n x).items = s.items := rfl
@[simp] theorem putTel_roleEvts (s : State) (n : Nat) (x : Teller) : (putTel s n x).roleEvts = s.roleEvts := rfl
@[simp] theorem putTel_boot (s : State) (n : Nat) (x : Teller) : (putTel s n x).boot = s.boot := rfl
@[simp] theorem putTel_thm (s : State) (n : Nat) (x : Teller) : (putTel s n x).thm = s.thm := rfl
@[simp] theorem putTel_smb (s : State) (n : Nat) (x : Teller) : (putTel s n x).smb = s.smb := rfl
@[simp] theorem putTel_lockout (s : State) (n : Nat) (x : Teller) : (putTel s n x).lockout = s.lockout := rfl
@[simp] theorem putTel_ssid (s : State) (n : Nat) (x : Teller) : (putTel s n x).ssid = s.ssid := rfl
@[simp] theorem putTel_keyHash (s : State) (n : Nat) (x : Teller) : (putTel s n x).keyHash = s.keyHash := rfl
@[simp] theorem putTel_d3 (s : State) (n : Nat) (x : Teller) : (putTel s n x).d3 = s.d3 := rfl
@[simp] theorem putTel_wakeReq (s : State) (n : Nat) (x : Teller) : (putTel s n x).wakeReq = s.wakeReq := rfl
@[simp] theorem putTel_laneDown (s : State) (n : Nat) (x : Teller) : (putTel s n x).laneDown = s.laneDown := rfl
@[simp] theorem putTel_trigOut (s : State) (n : Nat) (x : Teller) : (putTel s n x).trigOut = s.trigOut := rfl
@[simp] theorem putTel_startQ (s : State) (n : Nat) (x : Teller) : (putTel s n x).startQ = s.startQ := rfl
@[simp] theorem putTel_pending (s : State) (n : Nat) (x : Teller) : (putTel s n x).pending = s.pending := rfl

/-! ### updTel -/

@[simp] theorem updTel_now (s : State) (n : Nat) (f : Teller → Teller) : (updTel s n f).now = s.now := rfl
@[simp] theorem updTel_fresh (s : State) (n : Nat) (f : Teller → Teller) : (updTel s n f).fresh = s.fresh := rfl
@[simp] theorem updTel_regs (s : State) (n : Nat) (f : Teller → Teller) : (updTel s n f).regs = s.regs := rfl
@[simp] theorem updTel_shadow (s : State) (n : Nat) (f : Teller → Teller) : (updTel s n f).shadow = s.shadow := rfl
@[simp] theorem updTel_latch (s : State) (n : Nat) (f : Teller → Teller) : (updTel s n f).latch = s.latch := rfl
@[simp] theorem updTel_resp (s : State) (n : Nat) (f : Teller → Teller) : (updTel s n f).resp = s.resp := rfl
@[simp] theorem updTel_hostMem (s : State) (n : Nat) (f : Teller → Teller) : (updTel s n f).hostMem = s.hostMem := rfl
@[simp] theorem updTel_devMem (s : State) (n : Nat) (f : Teller → Teller) : (updTel s n f).devMem = s.devMem := rfl
@[simp] theorem updTel_badLines (s : State) (n : Nat) (f : Teller → Teller) : (updTel s n f).badLines = s.badLines := rfl
@[simp] theorem updTel_slices (s : State) (n : Nat) (f : Teller → Teller) : (updTel s n f).slices = s.slices := rfl
@[simp] theorem updTel_tiles (s : State) (n : Nat) (f : Teller → Teller) : (updTel s n f).tiles = s.tiles := rfl
@[simp] theorem updTel_gangs (s : State) (n : Nat) (f : Teller → Teller) : (updTel s n f).gangs = s.gangs := rfl
@[simp] theorem updTel_sites (s : State) (n : Nat) (f : Teller → Teller) : (updTel s n f).sites = s.sites := rfl
@[simp] theorem updTel_digs (s : State) (n : Nat) (f : Teller → Teller) : (updTel s n f).digs = s.digs := rfl
@[simp] theorem updTel_param (s : State) (n : Nat) (f : Teller → Teller) : (updTel s n f).param = s.param := rfl
@[simp] theorem updTel_xlt (s : State) (n : Nat) (f : Teller → Teller) : (updTel s n f).xlt = s.xlt := rfl
@[simp] theorem updTel_rings (s : State) (n : Nat) (f : Teller → Teller) : (updTel s n f).rings = s.rings := rfl
@[simp] theorem updTel_flt (s : State) (n : Nat) (f : Teller → Teller) : (updTel s n f).flt = s.flt := rfl
@[simp] theorem updTel_memEn (s : State) (n : Nat) (f : Teller → Teller) : (updTel s n f).memEn = s.memEn := rfl
@[simp] theorem updTel_cacheEn (s : State) (n : Nat) (f : Teller → Teller) : (updTel s n f).cacheEn = s.cacheEn := rfl
@[simp] theorem updTel_hdmProg (s : State) (n : Nat) (f : Teller → Teller) : (updTel s n f).hdmProg = s.hdmProg := rfl
@[simp] theorem updTel_sf (s : State) (n : Nat) (f : Teller → Teller) : (updTel s n f).sf = s.sf := rfl
@[simp] theorem updTel_biAsked (s : State) (n : Nat) (f : Teller → Teller) : (updTel s n f).biAsked = s.biAsked := rfl
@[simp] theorem updTel_biSent (s : State) (n : Nat) (f : Teller → Teller) : (updTel s n f).biSent = s.biSent := rfl
@[simp] theorem updTel_cfg (s : State) (n : Nat) (f : Teller → Teller) : (updTel s n f).cfg = s.cfg := rfl
@[simp] theorem updTel_comp (s : State) (n : Nat) (f : Teller → Teller) : (updTel s n f).comp = s.comp := rfl
@[simp] theorem updTel_dcache (s : State) (n : Nat) (f : Teller → Teller) : (updTel s n f).dcache = s.dcache := rfl
@[simp] theorem updTel_ioIde (s : State) (n : Nat) (f : Teller → Teller) : (updTel s n f).ioIde = s.ioIde := rfl
@[simp] theorem updTel_cmBad (s : State) (n : Nat) (f : Teller → Teller) : (updTel s n f).cmBad = s.cmBad := rfl
@[simp] theorem updTel_hbm (s : State) (n : Nat) (f : Teller → Teller) : (updTel s n f).hbm = s.hbm := rfl
@[simp] theorem updTel_ring (s : State) (n : Nat) (f : Teller → Teller) : (updTel s n f).ring = s.ring := rfl
@[simp] theorem updTel_items (s : State) (n : Nat) (f : Teller → Teller) : (updTel s n f).items = s.items := rfl
@[simp] theorem updTel_roleEvts (s : State) (n : Nat) (f : Teller → Teller) : (updTel s n f).roleEvts = s.roleEvts := rfl
@[simp] theorem updTel_boot (s : State) (n : Nat) (f : Teller → Teller) : (updTel s n f).boot = s.boot := rfl
@[simp] theorem updTel_thm (s : State) (n : Nat) (f : Teller → Teller) : (updTel s n f).thm = s.thm := rfl
@[simp] theorem updTel_smb (s : State) (n : Nat) (f : Teller → Teller) : (updTel s n f).smb = s.smb := rfl
@[simp] theorem updTel_lockout (s : State) (n : Nat) (f : Teller → Teller) : (updTel s n f).lockout = s.lockout := rfl
@[simp] theorem updTel_ssid (s : State) (n : Nat) (f : Teller → Teller) : (updTel s n f).ssid = s.ssid := rfl
@[simp] theorem updTel_keyHash (s : State) (n : Nat) (f : Teller → Teller) : (updTel s n f).keyHash = s.keyHash := rfl
@[simp] theorem updTel_d3 (s : State) (n : Nat) (f : Teller → Teller) : (updTel s n f).d3 = s.d3 := rfl
@[simp] theorem updTel_wakeReq (s : State) (n : Nat) (f : Teller → Teller) : (updTel s n f).wakeReq = s.wakeReq := rfl
@[simp] theorem updTel_laneDown (s : State) (n : Nat) (f : Teller → Teller) : (updTel s n f).laneDown = s.laneDown := rfl
@[simp] theorem updTel_trigOut (s : State) (n : Nat) (f : Teller → Teller) : (updTel s n f).trigOut = s.trigOut := rfl
@[simp] theorem updTel_startQ (s : State) (n : Nat) (f : Teller → Teller) : (updTel s n f).startQ = s.startQ := rfl
@[simp] theorem updTel_pending (s : State) (n : Nat) (f : Teller → Teller) : (updTel s n f).pending = s.pending := rfl

/-! ### putDig -/

@[simp] theorem putDig_now (s : State) (q : Nat) (d : Dig) : (putDig s q d).now = s.now := rfl
@[simp] theorem putDig_fresh (s : State) (q : Nat) (d : Dig) : (putDig s q d).fresh = s.fresh := rfl
@[simp] theorem putDig_regs (s : State) (q : Nat) (d : Dig) : (putDig s q d).regs = s.regs := rfl
@[simp] theorem putDig_shadow (s : State) (q : Nat) (d : Dig) : (putDig s q d).shadow = s.shadow := rfl
@[simp] theorem putDig_latch (s : State) (q : Nat) (d : Dig) : (putDig s q d).latch = s.latch := rfl
@[simp] theorem putDig_resp (s : State) (q : Nat) (d : Dig) : (putDig s q d).resp = s.resp := rfl
@[simp] theorem putDig_hostMem (s : State) (q : Nat) (d : Dig) : (putDig s q d).hostMem = s.hostMem := rfl
@[simp] theorem putDig_devMem (s : State) (q : Nat) (d : Dig) : (putDig s q d).devMem = s.devMem := rfl
@[simp] theorem putDig_badLines (s : State) (q : Nat) (d : Dig) : (putDig s q d).badLines = s.badLines := rfl
@[simp] theorem putDig_slices (s : State) (q : Nat) (d : Dig) : (putDig s q d).slices = s.slices := rfl
@[simp] theorem putDig_tiles (s : State) (q : Nat) (d : Dig) : (putDig s q d).tiles = s.tiles := rfl
@[simp] theorem putDig_gangs (s : State) (q : Nat) (d : Dig) : (putDig s q d).gangs = s.gangs := rfl
@[simp] theorem putDig_sites (s : State) (q : Nat) (d : Dig) : (putDig s q d).sites = s.sites := rfl
@[simp] theorem putDig_param (s : State) (q : Nat) (d : Dig) : (putDig s q d).param = s.param := rfl
@[simp] theorem putDig_xlt (s : State) (q : Nat) (d : Dig) : (putDig s q d).xlt = s.xlt := rfl
@[simp] theorem putDig_rings (s : State) (q : Nat) (d : Dig) : (putDig s q d).rings = s.rings := rfl
@[simp] theorem putDig_flt (s : State) (q : Nat) (d : Dig) : (putDig s q d).flt = s.flt := rfl
@[simp] theorem putDig_memEn (s : State) (q : Nat) (d : Dig) : (putDig s q d).memEn = s.memEn := rfl
@[simp] theorem putDig_cacheEn (s : State) (q : Nat) (d : Dig) : (putDig s q d).cacheEn = s.cacheEn := rfl
@[simp] theorem putDig_hdmProg (s : State) (q : Nat) (d : Dig) : (putDig s q d).hdmProg = s.hdmProg := rfl
@[simp] theorem putDig_sf (s : State) (q : Nat) (d : Dig) : (putDig s q d).sf = s.sf := rfl
@[simp] theorem putDig_biAsked (s : State) (q : Nat) (d : Dig) : (putDig s q d).biAsked = s.biAsked := rfl
@[simp] theorem putDig_biSent (s : State) (q : Nat) (d : Dig) : (putDig s q d).biSent = s.biSent := rfl
@[simp] theorem putDig_cfg (s : State) (q : Nat) (d : Dig) : (putDig s q d).cfg = s.cfg := rfl
@[simp] theorem putDig_comp (s : State) (q : Nat) (d : Dig) : (putDig s q d).comp = s.comp := rfl
@[simp] theorem putDig_dcache (s : State) (q : Nat) (d : Dig) : (putDig s q d).dcache = s.dcache := rfl
@[simp] theorem putDig_ioIde (s : State) (q : Nat) (d : Dig) : (putDig s q d).ioIde = s.ioIde := rfl
@[simp] theorem putDig_cmBad (s : State) (q : Nat) (d : Dig) : (putDig s q d).cmBad = s.cmBad := rfl
@[simp] theorem putDig_hbm (s : State) (q : Nat) (d : Dig) : (putDig s q d).hbm = s.hbm := rfl
@[simp] theorem putDig_ring (s : State) (q : Nat) (d : Dig) : (putDig s q d).ring = s.ring := rfl
@[simp] theorem putDig_tellers (s : State) (q : Nat) (d : Dig) : (putDig s q d).tellers = s.tellers := rfl
@[simp] theorem putDig_items (s : State) (q : Nat) (d : Dig) : (putDig s q d).items = s.items := rfl
@[simp] theorem putDig_roleEvts (s : State) (q : Nat) (d : Dig) : (putDig s q d).roleEvts = s.roleEvts := rfl
@[simp] theorem putDig_boot (s : State) (q : Nat) (d : Dig) : (putDig s q d).boot = s.boot := rfl
@[simp] theorem putDig_thm (s : State) (q : Nat) (d : Dig) : (putDig s q d).thm = s.thm := rfl
@[simp] theorem putDig_smb (s : State) (q : Nat) (d : Dig) : (putDig s q d).smb = s.smb := rfl
@[simp] theorem putDig_lockout (s : State) (q : Nat) (d : Dig) : (putDig s q d).lockout = s.lockout := rfl
@[simp] theorem putDig_ssid (s : State) (q : Nat) (d : Dig) : (putDig s q d).ssid = s.ssid := rfl
@[simp] theorem putDig_keyHash (s : State) (q : Nat) (d : Dig) : (putDig s q d).keyHash = s.keyHash := rfl
@[simp] theorem putDig_d3 (s : State) (q : Nat) (d : Dig) : (putDig s q d).d3 = s.d3 := rfl
@[simp] theorem putDig_wakeReq (s : State) (q : Nat) (d : Dig) : (putDig s q d).wakeReq = s.wakeReq := rfl
@[simp] theorem putDig_laneDown (s : State) (q : Nat) (d : Dig) : (putDig s q d).laneDown = s.laneDown := rfl
@[simp] theorem putDig_trigOut (s : State) (q : Nat) (d : Dig) : (putDig s q d).trigOut = s.trigOut := rfl
@[simp] theorem putDig_startQ (s : State) (q : Nat) (d : Dig) : (putDig s q d).startQ = s.startQ := rfl
@[simp] theorem putDig_pending (s : State) (q : Nat) (d : Dig) : (putDig s q d).pending = s.pending := rfl

/-! ### updDig -/

@[simp] theorem updDig_now (s : State) (q : Nat) (f : Dig → Dig) : (updDig s q f).now = s.now := rfl
@[simp] theorem updDig_fresh (s : State) (q : Nat) (f : Dig → Dig) : (updDig s q f).fresh = s.fresh := rfl
@[simp] theorem updDig_regs (s : State) (q : Nat) (f : Dig → Dig) : (updDig s q f).regs = s.regs := rfl
@[simp] theorem updDig_shadow (s : State) (q : Nat) (f : Dig → Dig) : (updDig s q f).shadow = s.shadow := rfl
@[simp] theorem updDig_latch (s : State) (q : Nat) (f : Dig → Dig) : (updDig s q f).latch = s.latch := rfl
@[simp] theorem updDig_resp (s : State) (q : Nat) (f : Dig → Dig) : (updDig s q f).resp = s.resp := rfl
@[simp] theorem updDig_hostMem (s : State) (q : Nat) (f : Dig → Dig) : (updDig s q f).hostMem = s.hostMem := rfl
@[simp] theorem updDig_devMem (s : State) (q : Nat) (f : Dig → Dig) : (updDig s q f).devMem = s.devMem := rfl
@[simp] theorem updDig_badLines (s : State) (q : Nat) (f : Dig → Dig) : (updDig s q f).badLines = s.badLines := rfl
@[simp] theorem updDig_slices (s : State) (q : Nat) (f : Dig → Dig) : (updDig s q f).slices = s.slices := rfl
@[simp] theorem updDig_tiles (s : State) (q : Nat) (f : Dig → Dig) : (updDig s q f).tiles = s.tiles := rfl
@[simp] theorem updDig_gangs (s : State) (q : Nat) (f : Dig → Dig) : (updDig s q f).gangs = s.gangs := rfl
@[simp] theorem updDig_sites (s : State) (q : Nat) (f : Dig → Dig) : (updDig s q f).sites = s.sites := rfl
@[simp] theorem updDig_param (s : State) (q : Nat) (f : Dig → Dig) : (updDig s q f).param = s.param := rfl
@[simp] theorem updDig_xlt (s : State) (q : Nat) (f : Dig → Dig) : (updDig s q f).xlt = s.xlt := rfl
@[simp] theorem updDig_rings (s : State) (q : Nat) (f : Dig → Dig) : (updDig s q f).rings = s.rings := rfl
@[simp] theorem updDig_flt (s : State) (q : Nat) (f : Dig → Dig) : (updDig s q f).flt = s.flt := rfl
@[simp] theorem updDig_memEn (s : State) (q : Nat) (f : Dig → Dig) : (updDig s q f).memEn = s.memEn := rfl
@[simp] theorem updDig_cacheEn (s : State) (q : Nat) (f : Dig → Dig) : (updDig s q f).cacheEn = s.cacheEn := rfl
@[simp] theorem updDig_hdmProg (s : State) (q : Nat) (f : Dig → Dig) : (updDig s q f).hdmProg = s.hdmProg := rfl
@[simp] theorem updDig_sf (s : State) (q : Nat) (f : Dig → Dig) : (updDig s q f).sf = s.sf := rfl
@[simp] theorem updDig_biAsked (s : State) (q : Nat) (f : Dig → Dig) : (updDig s q f).biAsked = s.biAsked := rfl
@[simp] theorem updDig_biSent (s : State) (q : Nat) (f : Dig → Dig) : (updDig s q f).biSent = s.biSent := rfl
@[simp] theorem updDig_cfg (s : State) (q : Nat) (f : Dig → Dig) : (updDig s q f).cfg = s.cfg := rfl
@[simp] theorem updDig_comp (s : State) (q : Nat) (f : Dig → Dig) : (updDig s q f).comp = s.comp := rfl
@[simp] theorem updDig_dcache (s : State) (q : Nat) (f : Dig → Dig) : (updDig s q f).dcache = s.dcache := rfl
@[simp] theorem updDig_ioIde (s : State) (q : Nat) (f : Dig → Dig) : (updDig s q f).ioIde = s.ioIde := rfl
@[simp] theorem updDig_cmBad (s : State) (q : Nat) (f : Dig → Dig) : (updDig s q f).cmBad = s.cmBad := rfl
@[simp] theorem updDig_hbm (s : State) (q : Nat) (f : Dig → Dig) : (updDig s q f).hbm = s.hbm := rfl
@[simp] theorem updDig_ring (s : State) (q : Nat) (f : Dig → Dig) : (updDig s q f).ring = s.ring := rfl
@[simp] theorem updDig_tellers (s : State) (q : Nat) (f : Dig → Dig) : (updDig s q f).tellers = s.tellers := rfl
@[simp] theorem updDig_items (s : State) (q : Nat) (f : Dig → Dig) : (updDig s q f).items = s.items := rfl
@[simp] theorem updDig_roleEvts (s : State) (q : Nat) (f : Dig → Dig) : (updDig s q f).roleEvts = s.roleEvts := rfl
@[simp] theorem updDig_boot (s : State) (q : Nat) (f : Dig → Dig) : (updDig s q f).boot = s.boot := rfl
@[simp] theorem updDig_thm (s : State) (q : Nat) (f : Dig → Dig) : (updDig s q f).thm = s.thm := rfl
@[simp] theorem updDig_smb (s : State) (q : Nat) (f : Dig → Dig) : (updDig s q f).smb = s.smb := rfl
@[simp] theorem updDig_lockout (s : State) (q : Nat) (f : Dig → Dig) : (updDig s q f).lockout = s.lockout := rfl
@[simp] theorem updDig_ssid (s : State) (q : Nat) (f : Dig → Dig) : (updDig s q f).ssid = s.ssid := rfl
@[simp] theorem updDig_keyHash (s : State) (q : Nat) (f : Dig → Dig) : (updDig s q f).keyHash = s.keyHash := rfl
@[simp] theorem updDig_d3 (s : State) (q : Nat) (f : Dig → Dig) : (updDig s q f).d3 = s.d3 := rfl
@[simp] theorem updDig_wakeReq (s : State) (q : Nat) (f : Dig → Dig) : (updDig s q f).wakeReq = s.wakeReq := rfl
@[simp] theorem updDig_laneDown (s : State) (q : Nat) (f : Dig → Dig) : (updDig s q f).laneDown = s.laneDown := rfl
@[simp] theorem updDig_trigOut (s : State) (q : Nat) (f : Dig → Dig) : (updDig s q f).trigOut = s.trigOut := rfl
@[simp] theorem updDig_startQ (s : State) (q : Nat) (f : Dig → Dig) : (updDig s q f).startQ = s.startQ := rfl
@[simp] theorem updDig_pending (s : State) (q : Nat) (f : Dig → Dig) : (updDig s q f).pending = s.pending := rfl

/-! ### signal -/

@[simp] theorem signal_now (s : State) (kind inst info : Nat) : (signal s kind inst info).now = s.now := rfl
@[simp] theorem signal_fresh (s : State) (kind inst info : Nat) : (signal s kind inst info).fresh = s.fresh := rfl
@[simp] theorem signal_regs (s : State) (kind inst info : Nat) : (signal s kind inst info).regs = s.regs := rfl
@[simp] theorem signal_shadow (s : State) (kind inst info : Nat) : (signal s kind inst info).shadow = s.shadow := rfl
@[simp] theorem signal_latch (s : State) (kind inst info : Nat) : (signal s kind inst info).latch = s.latch := rfl
@[simp] theorem signal_resp (s : State) (kind inst info : Nat) : (signal s kind inst info).resp = s.resp := rfl
@[simp] theorem signal_hostMem (s : State) (kind inst info : Nat) : (signal s kind inst info).hostMem = s.hostMem := rfl
@[simp] theorem signal_devMem (s : State) (kind inst info : Nat) : (signal s kind inst info).devMem = s.devMem := rfl
@[simp] theorem signal_badLines (s : State) (kind inst info : Nat) : (signal s kind inst info).badLines = s.badLines := rfl
@[simp] theorem signal_slices (s : State) (kind inst info : Nat) : (signal s kind inst info).slices = s.slices := rfl
@[simp] theorem signal_tiles (s : State) (kind inst info : Nat) : (signal s kind inst info).tiles = s.tiles := rfl
@[simp] theorem signal_gangs (s : State) (kind inst info : Nat) : (signal s kind inst info).gangs = s.gangs := rfl
@[simp] theorem signal_sites (s : State) (kind inst info : Nat) : (signal s kind inst info).sites = s.sites := rfl
@[simp] theorem signal_digs (s : State) (kind inst info : Nat) : (signal s kind inst info).digs = s.digs := rfl
@[simp] theorem signal_param (s : State) (kind inst info : Nat) : (signal s kind inst info).param = s.param := rfl
@[simp] theorem signal_xlt (s : State) (kind inst info : Nat) : (signal s kind inst info).xlt = s.xlt := rfl
@[simp] theorem signal_rings (s : State) (kind inst info : Nat) : (signal s kind inst info).rings = s.rings := rfl
@[simp] theorem signal_memEn (s : State) (kind inst info : Nat) : (signal s kind inst info).memEn = s.memEn := rfl
@[simp] theorem signal_cacheEn (s : State) (kind inst info : Nat) : (signal s kind inst info).cacheEn = s.cacheEn := rfl
@[simp] theorem signal_hdmProg (s : State) (kind inst info : Nat) : (signal s kind inst info).hdmProg = s.hdmProg := rfl
@[simp] theorem signal_sf (s : State) (kind inst info : Nat) : (signal s kind inst info).sf = s.sf := rfl
@[simp] theorem signal_biAsked (s : State) (kind inst info : Nat) : (signal s kind inst info).biAsked = s.biAsked := rfl
@[simp] theorem signal_biSent (s : State) (kind inst info : Nat) : (signal s kind inst info).biSent = s.biSent := rfl
@[simp] theorem signal_cfg (s : State) (kind inst info : Nat) : (signal s kind inst info).cfg = s.cfg := rfl
@[simp] theorem signal_comp (s : State) (kind inst info : Nat) : (signal s kind inst info).comp = s.comp := rfl
@[simp] theorem signal_dcache (s : State) (kind inst info : Nat) : (signal s kind inst info).dcache = s.dcache := rfl
@[simp] theorem signal_ioIde (s : State) (kind inst info : Nat) : (signal s kind inst info).ioIde = s.ioIde := rfl
@[simp] theorem signal_cmBad (s : State) (kind inst info : Nat) : (signal s kind inst info).cmBad = s.cmBad := rfl
@[simp] theorem signal_hbm (s : State) (kind inst info : Nat) : (signal s kind inst info).hbm = s.hbm := rfl
@[simp] theorem signal_ring (s : State) (kind inst info : Nat) : (signal s kind inst info).ring = s.ring := rfl
@[simp] theorem signal_tellers (s : State) (kind inst info : Nat) : (signal s kind inst info).tellers = s.tellers := rfl
@[simp] theorem signal_items (s : State) (kind inst info : Nat) : (signal s kind inst info).items = s.items := rfl
@[simp] theorem signal_roleEvts (s : State) (kind inst info : Nat) : (signal s kind inst info).roleEvts = s.roleEvts := rfl
@[simp] theorem signal_boot (s : State) (kind inst info : Nat) : (signal s kind inst info).boot = s.boot := rfl
@[simp] theorem signal_thm (s : State) (kind inst info : Nat) : (signal s kind inst info).thm = s.thm := rfl
@[simp] theorem signal_smb (s : State) (kind inst info : Nat) : (signal s kind inst info).smb = s.smb := rfl
@[simp] theorem signal_lockout (s : State) (kind inst info : Nat) : (signal s kind inst info).lockout = s.lockout := rfl
@[simp] theorem signal_ssid (s : State) (kind inst info : Nat) : (signal s kind inst info).ssid = s.ssid := rfl
@[simp] theorem signal_keyHash (s : State) (kind inst info : Nat) : (signal s kind inst info).keyHash = s.keyHash := rfl
@[simp] theorem signal_d3 (s : State) (kind inst info : Nat) : (signal s kind inst info).d3 = s.d3 := rfl
@[simp] theorem signal_wakeReq (s : State) (kind inst info : Nat) : (signal s kind inst info).wakeReq = s.wakeReq := rfl
@[simp] theorem signal_laneDown (s : State) (kind inst info : Nat) : (signal s kind inst info).laneDown = s.laneDown := rfl
@[simp] theorem signal_trigOut (s : State) (kind inst info : Nat) : (signal s kind inst info).trigOut = s.trigOut := rfl
@[simp] theorem signal_startQ (s : State) (kind inst info : Nat) : (signal s kind inst info).startQ = s.startQ := rfl
@[simp] theorem signal_pending (s : State) (kind inst info : Nat) : (signal s kind inst info).pending = s.pending := rfl

/-! ### postEvt -/

@[simp] theorem postEvt_now (s : State) (type unit arg0 arg1 : Nat) : (postEvt s type unit arg0 arg1).now = s.now := rfl
@[simp] theorem postEvt_fresh (s : State) (type unit arg0 arg1 : Nat) : (postEvt s type unit arg0 arg1).fresh = s.fresh := rfl
@[simp] theorem postEvt_regs (s : State) (type unit arg0 arg1 : Nat) : (postEvt s type unit arg0 arg1).regs = s.regs := rfl
@[simp] theorem postEvt_shadow (s : State) (type unit arg0 arg1 : Nat) : (postEvt s type unit arg0 arg1).shadow = s.shadow := rfl
@[simp] theorem postEvt_latch (s : State) (type unit arg0 arg1 : Nat) : (postEvt s type unit arg0 arg1).latch = s.latch := rfl
@[simp] theorem postEvt_resp (s : State) (type unit arg0 arg1 : Nat) : (postEvt s type unit arg0 arg1).resp = s.resp := rfl
@[simp] theorem postEvt_hostMem (s : State) (type unit arg0 arg1 : Nat) : (postEvt s type unit arg0 arg1).hostMem = s.hostMem := rfl
@[simp] theorem postEvt_devMem (s : State) (type unit arg0 arg1 : Nat) : (postEvt s type unit arg0 arg1).devMem = s.devMem := rfl
@[simp] theorem postEvt_badLines (s : State) (type unit arg0 arg1 : Nat) : (postEvt s type unit arg0 arg1).badLines = s.badLines := rfl
@[simp] theorem postEvt_slices (s : State) (type unit arg0 arg1 : Nat) : (postEvt s type unit arg0 arg1).slices = s.slices := rfl
@[simp] theorem postEvt_tiles (s : State) (type unit arg0 arg1 : Nat) : (postEvt s type unit arg0 arg1).tiles = s.tiles := rfl
@[simp] theorem postEvt_gangs (s : State) (type unit arg0 arg1 : Nat) : (postEvt s type unit arg0 arg1).gangs = s.gangs := rfl
@[simp] theorem postEvt_sites (s : State) (type unit arg0 arg1 : Nat) : (postEvt s type unit arg0 arg1).sites = s.sites := rfl
@[simp] theorem postEvt_digs (s : State) (type unit arg0 arg1 : Nat) : (postEvt s type unit arg0 arg1).digs = s.digs := rfl
@[simp] theorem postEvt_param (s : State) (type unit arg0 arg1 : Nat) : (postEvt s type unit arg0 arg1).param = s.param := rfl
@[simp] theorem postEvt_xlt (s : State) (type unit arg0 arg1 : Nat) : (postEvt s type unit arg0 arg1).xlt = s.xlt := rfl
@[simp] theorem postEvt_flt (s : State) (type unit arg0 arg1 : Nat) : (postEvt s type unit arg0 arg1).flt = s.flt := rfl
@[simp] theorem postEvt_memEn (s : State) (type unit arg0 arg1 : Nat) : (postEvt s type unit arg0 arg1).memEn = s.memEn := rfl
@[simp] theorem postEvt_cacheEn (s : State) (type unit arg0 arg1 : Nat) : (postEvt s type unit arg0 arg1).cacheEn = s.cacheEn := rfl
@[simp] theorem postEvt_hdmProg (s : State) (type unit arg0 arg1 : Nat) : (postEvt s type unit arg0 arg1).hdmProg = s.hdmProg := rfl
@[simp] theorem postEvt_sf (s : State) (type unit arg0 arg1 : Nat) : (postEvt s type unit arg0 arg1).sf = s.sf := rfl
@[simp] theorem postEvt_biAsked (s : State) (type unit arg0 arg1 : Nat) : (postEvt s type unit arg0 arg1).biAsked = s.biAsked := rfl
@[simp] theorem postEvt_biSent (s : State) (type unit arg0 arg1 : Nat) : (postEvt s type unit arg0 arg1).biSent = s.biSent := rfl
@[simp] theorem postEvt_cfg (s : State) (type unit arg0 arg1 : Nat) : (postEvt s type unit arg0 arg1).cfg = s.cfg := rfl
@[simp] theorem postEvt_comp (s : State) (type unit arg0 arg1 : Nat) : (postEvt s type unit arg0 arg1).comp = s.comp := rfl
@[simp] theorem postEvt_dcache (s : State) (type unit arg0 arg1 : Nat) : (postEvt s type unit arg0 arg1).dcache = s.dcache := rfl
@[simp] theorem postEvt_ioIde (s : State) (type unit arg0 arg1 : Nat) : (postEvt s type unit arg0 arg1).ioIde = s.ioIde := rfl
@[simp] theorem postEvt_cmBad (s : State) (type unit arg0 arg1 : Nat) : (postEvt s type unit arg0 arg1).cmBad = s.cmBad := rfl
@[simp] theorem postEvt_hbm (s : State) (type unit arg0 arg1 : Nat) : (postEvt s type unit arg0 arg1).hbm = s.hbm := rfl
@[simp] theorem postEvt_ring (s : State) (type unit arg0 arg1 : Nat) : (postEvt s type unit arg0 arg1).ring = s.ring := rfl
@[simp] theorem postEvt_tellers (s : State) (type unit arg0 arg1 : Nat) : (postEvt s type unit arg0 arg1).tellers = s.tellers := rfl
@[simp] theorem postEvt_items (s : State) (type unit arg0 arg1 : Nat) : (postEvt s type unit arg0 arg1).items = s.items := rfl
@[simp] theorem postEvt_roleEvts (s : State) (type unit arg0 arg1 : Nat) : (postEvt s type unit arg0 arg1).roleEvts = s.roleEvts := rfl
@[simp] theorem postEvt_boot (s : State) (type unit arg0 arg1 : Nat) : (postEvt s type unit arg0 arg1).boot = s.boot := rfl
@[simp] theorem postEvt_thm (s : State) (type unit arg0 arg1 : Nat) : (postEvt s type unit arg0 arg1).thm = s.thm := rfl
@[simp] theorem postEvt_smb (s : State) (type unit arg0 arg1 : Nat) : (postEvt s type unit arg0 arg1).smb = s.smb := rfl
@[simp] theorem postEvt_lockout (s : State) (type unit arg0 arg1 : Nat) : (postEvt s type unit arg0 arg1).lockout = s.lockout := rfl
@[simp] theorem postEvt_ssid (s : State) (type unit arg0 arg1 : Nat) : (postEvt s type unit arg0 arg1).ssid = s.ssid := rfl
@[simp] theorem postEvt_keyHash (s : State) (type unit arg0 arg1 : Nat) : (postEvt s type unit arg0 arg1).keyHash = s.keyHash := rfl
@[simp] theorem postEvt_d3 (s : State) (type unit arg0 arg1 : Nat) : (postEvt s type unit arg0 arg1).d3 = s.d3 := rfl
@[simp] theorem postEvt_wakeReq (s : State) (type unit arg0 arg1 : Nat) : (postEvt s type unit arg0 arg1).wakeReq = s.wakeReq := rfl
@[simp] theorem postEvt_laneDown (s : State) (type unit arg0 arg1 : Nat) : (postEvt s type unit arg0 arg1).laneDown = s.laneDown := rfl
@[simp] theorem postEvt_trigOut (s : State) (type unit arg0 arg1 : Nat) : (postEvt s type unit arg0 arg1).trigOut = s.trigOut := rfl
@[simp] theorem postEvt_startQ (s : State) (type unit arg0 arg1 : Nat) : (postEvt s type unit arg0 arg1).startQ = s.startQ := rfl
@[simp] theorem postEvt_pending (s : State) (type unit arg0 arg1 : Nat) : (postEvt s type unit arg0 arg1).pending = s.pending := rfl

/-! ### The parts an update changes -/

theorem wri_regs (s : State) (b : Nat) (f : Field) (i v : Nat) :
    (wri s b f i v).regs = mapPut s.regs (fieldKey b f i) (v % 2 ^ f.width) := rfl
@[simp] theorem putSlice_slices (s : State) (t p : Nat) (v : Slice) : (putSlice s t p v).slices = mapPut s.slices (t * 18 + p) v := rfl
@[simp] theorem putTile_tiles (s : State) (t : Nat) (v : Tile) : (putTile s t v).tiles = mapPut s.tiles t v := rfl
@[simp] theorem putTel_tellers (s : State) (n : Nat) (x : Teller) : (putTel s n x).tellers = mapPut s.tellers n x := rfl
@[simp] theorem updXlt_xlt (s : State) (f : Xlt → Xlt) : (updXlt s f).xlt = f s.xlt := rfl
@[simp] theorem updRings_rings (s : State) (f : Rings → Rings) : (updRings s f).rings = f s.rings := rfl
@[simp] theorem updHbm_hbm (s : State) (f : Hbm → Hbm) : (updHbm s f).hbm = f s.hbm := rfl
@[simp] theorem updBoot_boot (s : State) (f : Boot → Boot) : (updBoot s f).boot = f s.boot := rfl
@[simp] theorem updRing_ring (s : State) (f : TimeRing → TimeRing) : (updRing s f).ring = f s.ring := rfl
@[simp] theorem updFlt_flt (s : State) (f : Flt → Flt) : (updFlt s f).flt = f s.flt := rfl
@[simp] theorem signal_flt (s : State) (kind inst info : Nat) :
    (signal s kind inst info).flt = { s.flt with signals := s.flt.signals ++ [(detNo kind inst, info)] } := rfl
@[simp] theorem postEvt_rings (s : State) (type unit arg0 arg1 : Nat) :
    (postEvt s type unit arg0 arg1).rings = { s.rings with events := s.rings.events ++ [⟨type, unit, arg0, arg1, s.now⟩] } := rfl

/-! ### What a unit's state reads after an update of a unit of its kind -/

@[simp] theorem getTile_putTile (s : State) (t : Nat) (v : Tile) : getTile (putTile s t v) t = v := by simp [getTile]
theorem getTile_putTile_ne (s : State) {t u : Nat} (v : Tile) (h : u ≠ t) : getTile (putTile s t v) u = getTile s u := by
  simp [getTile, mapGet_put_ne _ _ _ h]
@[simp] theorem getTel_putTel (s : State) (n : Nat) (x : Teller) : getTel (putTel s n x) n = x := by simp [getTel]
theorem getTel_putTel_ne (s : State) {n m : Nat} (x : Teller) (h : m ≠ n) : getTel (putTel s n x) m = getTel s m := by
  simp [getTel, mapGet_put_ne _ _ _ h]
@[simp] theorem getTel_updTel (s : State) (n : Nat) (f : Teller → Teller) : getTel (updTel s n f) n = f (getTel s n) :=
  getTel_putTel s n _
theorem getTel_updTel_ne (s : State) {n m : Nat} (f : Teller → Teller) (h : m ≠ n) : getTel (updTel s n f) m = getTel s m :=
  getTel_putTel_ne s _ h
@[simp] theorem getDig_putDig (s : State) (q : Nat) (d : Dig) : getDig (putDig s q d) q = d := by simp [getDig, putDig]
theorem getDig_putDig_ne (s : State) {q r : Nat} (d : Dig) (h : r ≠ q) : getDig (putDig s q d) r = getDig s r := by
  simp [getDig, putDig, mapGet_put_ne _ _ _ h]
@[simp] theorem getDig_updDig (s : State) (q : Nat) (f : Dig → Dig) : getDig (updDig s q f) q = f (getDig s q) := getDig_putDig s q _
theorem getDig_updDig_ne (s : State) {q r : Nat} (f : Dig → Dig) (h : r ≠ q) : getDig (updDig s q f) r = getDig s r :=
  getDig_putDig_ne s _ h
@[simp] theorem getSite_putSite (s : State) (i : Nat) (v : Site) : getSite (putSite s i v) i = v := by simp [getSite, putSite]
theorem getSite_putSite_ne (s : State) {i j : Nat} (v : Site) (h : j ≠ i) : getSite (putSite s i v) j = getSite s j := by
  simp [getSite, putSite, mapGet_put_ne _ _ _ h]
@[simp] theorem getSlice_putSlice (s : State) (t p : Nat) (v : Slice) : getSlice (putSlice s t p v) t p = v := by simp [getSlice]
@[simp] theorem getGang?_putGang (s : State) (l : Nat) (g : Gang) : getGang? (putGang s l g) l = some g := by simp [getGang?, putGang]
theorem getGang?_putGang_ne (s : State) {l m : Nat} (g : Gang) (h : m ≠ l) : getGang? (putGang s l g) m = getGang? s m := by
  simp [getGang?, putGang, mapGet?_put_ne _ _ h]
@[simp] theorem getJob?_putJob (s : State) (j : Nat) (x : Job) : getJob? (putJob s j x) j = some x := by simp [getJob?, putJob]
theorem getJob?_putJob_ne (s : State) {j k : Nat} (x : Job) (h : k ≠ j) : getJob? (putJob s j x) k = getJob? s k := by
  simp [getJob?, putJob, mapGet?_put_ne _ _ h]

end Sys2Proof.Machine
end

