-- ==== Sys2Proof/Laws/Frames.lean ====
section
/-! SUPPORT. Frames of the register map and of memory. -/
namespace Sys2Proof.Machine

/-! ### Frames of the register map -/

theorem regsBut_refl (s : State) (ks : List Nat) : RegsBut s s ks := fun _ _ => rfl

theorem regsBut_wri {s t : State} {ks : List Nat} (h : RegsBut s t ks) (b : Nat) (f : Field) (i v : Nat) (hk : fieldKey b f i ∈ ks) :
    RegsBut s (wri t b f i v) ks := by
  intro k hn
  have hne : k ≠ fieldKey b f i := fun e => hn (e ▸ hk)
  exact (mapGet?_put_ne t.regs (v % 2 ^ f.width) hne).trans (h k hn)

theorem regsBut_regs {s t u : State} {ks : List Nat} (h : RegsBut s t ks) (hr : u.regs = t.regs) : RegsBut s u ks := by
  intro k hn; rw [hr]; exact h k hn

theorem regsBut_rdi {s t : State} {ks : List Nat} (h : RegsBut s t ks) {b : Nat} {f : Field} {i : Nat} (hk : fieldKey b f i ∉ ks) :
    rdi t b f i = rdi s b f i := by
  simp [rdi, mapGet, h _ hk]

theorem regsBut_mono {s t : State} {ks ls : List Nat} (h : RegsBut s t ks) (hs : ∀ k, k ∈ ks → k ∈ ls) : RegsBut s t ls :=
  fun k hn => h k fun x => hn (hs k x)

end Sys2Proof.Machine
end

