-- ==== Sys2Proof/Laws/Keep.lean ====
section
/-! SUPPORT. What every operation keeps: the queue of waiting commands, and the canonical form of the memories and of the
register map. -/
namespace Sys2Proof.Machine

/-- t was made from s0 by operations that leave the queue alone and keep the canonical forms. -/
structure Keep (s0 t : State) : Prop where
  queue : t.pending = s0.pending
  host : Memory.wf s0.hostMem = true → Memory.wf t.hostMem = true
  dev : Memory.wf s0.devMem = true → Memory.wf t.devMem = true
  regs : mapRising 0 s0.regs = true → mapRising 0 t.regs = true

/-- The same of an outcome. -/
structure OKeep (s0 : State) (o : Host.Outcome State Fault Refusal) : Prop where
  keep : ∀ t, o = .next t → Keep s0 t

theorem keep_refl (s : State) : Keep s s := ⟨rfl, id, id, id⟩

theorem keep_trans {s0 s t : State} (h : Keep s0 s) (k : Keep s t) : Keep s0 t :=
  ⟨k.queue.trans h.queue, fun x => k.host (h.host x), fun x => k.dev (h.dev x), fun x => k.regs (h.regs x)⟩

theorem keep_same {s0 s t : State} (h : Keep s0 s) (hq : t.pending = s.pending) (hh : t.hostMem = s.hostMem)
    (hd : t.devMem = s.devMem) (hr : t.regs = s.regs) : Keep s0 t :=
  ⟨hq.trans h.queue, hh ▸ h.host, hd ▸ h.dev, hr ▸ h.regs⟩

/-- The same of a state given field by field. -/
theorem keep_mk {s0 s : State} {now : Nat}
    {fresh : Nat}
    {regs : Map Nat}
    {shadow : Map Nat}
    {latch : Map Nat}
    {resp : List Nat}
    {hostMem : List Host.Cell}
    {devMem : List Host.Cell}
    {badLines : List Nat}
    {slices : Map Slice}
    {tiles : Map Tile}
    {gangs : Map Gang}
    {sites : Map Site}
    {digs : Map Dig}
    {param : Map ParamEntry}
    {xlt : Xlt}
    {rings : Rings}
    {flt : Flt}
    {memEn : Bool}
    {cacheEn : Bool}
    {hdmProg : Option Nat}
    {sf : List Nat}
    {biAsked : List Nat}
    {biSent : List Nat}
    {cfg : Map Nat}
    {comp : Map Nat}
    {dcache : List Nat}
    {ioIde : Map Bool}
    {cmBad : Bool}
    {hbm : Hbm}
    {ring : TimeRing}
    {tellers : Map Teller}
    {items : List (Nat × Nat)}
    {roleEvts : Map (List Nat)}
    {boot : Boot}
    {thm : Thermal}
    {smb : Sideband}
    {lockout : List Nat}
    {ssid : Option Nat}
    {keyHash : Map (List Nat)}
    {d3 : Bool}
    {wakeReq : Nat}
    {laneDown : List Nat}
    {trigOut : Map (List Nat)}
    {startQ : List (Nat × Nat)}
    {pending : List Instr}
    (h : Keep s0 s) (hq : pending = s.pending) (hh : hostMem = s.hostMem) (hd : devMem = s.devMem) (hr : regs = s.regs) :
    Keep s0 (State.mk now fresh regs shadow latch resp hostMem devMem badLines slices tiles gangs sites digs param xlt rings flt memEn cacheEn hdmProg sf biAsked biSent cfg comp dcache ioIde cmBad hbm ring tellers items roleEvts boot thm smb lockout ssid keyHash d3 wakeReq laneDown trigOut startQ pending) :=
  keep_same h hq hh hd hr

theorem keep_ite {s0 s t : State} {c : Prop} [Decidable c] (h : Keep s0 s) (k : Keep s0 t) : Keep s0 (if c then s else t) := by
  by_cases hc : c
  · rw [if_pos hc]; exact h
  · rw [if_neg hc]; exact k

theorem okeep_ite {s0 : State} {o p : Host.Outcome State Fault Refusal} {c : Prop} [Decidable c] (h : OKeep s0 o) (k : OKeep s0 p) :
    OKeep s0 (if c then o else p) := by
  by_cases hc : c
  · rw [if_pos hc]; exact h
  · rw [if_neg hc]; exact k

theorem okeep_next {s0 s : State} (h : Keep s0 s) : OKeep s0 (.next s) := ⟨fun _ e => by cases e; exact h⟩

theorem okeep_fault {s0 : State} (f : Fault) : OKeep s0 (.fault f) := ⟨fun _ e => by cases e⟩

theorem keep_foldl {α : Type} {s0 s : State} {f : State → α → State} {l : List α} (h : Keep s0 s)
    (hf : ∀ s x, Keep s0 s → Keep s0 (f s x)) : Keep s0 (l.foldl f s) := by
  induction l generalizing s with
  | nil => exact h
  | cons x r ih => exact ih (hf s x h)

/-- A change of the register map alone. -/
theorem keep_regs {s0 s t : State} (h : Keep s0 s) (hq : t.pending = s.pending) (hh : t.hostMem = s.hostMem)
    (hd : t.devMem = s.devMem) (hr : mapRising 0 s.regs = true → mapRising 0 t.regs = true) : Keep s0 t :=
  ⟨hq.trans h.queue, hh ▸ h.host, hd ▸ h.dev, fun x => hr (h.regs x)⟩

theorem except_bind_ok {α β : Type} {r : Except Nat α} {f : α → Except Nat β} {y : β} (h : r.bind f = .ok y) :
    ∃ z, r = .ok z ∧ f z = .ok y := by
  cases r with
  | error e => cases h
  | ok z => exact ⟨z, rfl, h⟩

theorem keep_exIte {c : Prop} [Decidable c] {s0 s t : State} {r : Except Nat State} (he : (if c then r else .ok s) = .ok t)
    (hr : r = .ok t → Keep s0 t) (h : Keep s0 s) : Keep s0 t := by
  by_cases hc : c
  · rw [if_pos hc] at he; exact hr he
  · rw [if_neg hc] at he; cases he; exact h

theorem keep_exIte' {c : Prop} [Decidable c] {s0 s t : State} {r : Except Nat State} (he : (if c then .ok s else r) = .ok t)
    (h : Keep s0 s) (hr : r = .ok t → Keep s0 t) : Keep s0 t := by
  by_cases hc : c
  · rw [if_pos hc] at he; cases he; exact h
  · rw [if_neg hc] at he; exact hr he

end Sys2Proof.Machine
end

