-- ==== Sys2Proof/Laws/KeepOps.lean ====
section
/-! SUPPORT. The operations of Machine/Ops.lean leave the queue alone and keep memories and registers canonical. -/
set_option maxRecDepth 4000
set_option linter.all false
namespace Sys2Proof.Machine

theorem wri_keep {s0 s : State} (h : Keep s0 s) (b : Nat) (f : Field) (i v : Nat) : Keep s0 (wri s b f i v) :=
  keep_regs h rfl rfl rfl fun hr => mapRising_put s.regs 0 _ _ (Nat.zero_le _) hr

theorem wr_keep {s0 s : State} (h : Keep s0 s) (b : Nat) (f : Field) (v : Nat) : Keep s0 (wr s b f v) := by
  unfold wr
  try dsimp only
  repeat' first
    | with_reducible exact h
    | with_reducible assumption
    | with_reducible apply wri_keep
    | with_reducible apply keep_ite
    | split
    | dsimp only

theorem setF_keep {s0 s : State} (h : Keep s0 s) (b : Nat) (f : Field) : Keep s0 (setF s b f) := by
  unfold setF
  try dsimp only
  repeat' first
    | with_reducible exact h
    | with_reducible assumption
    | with_reducible apply wr_keep
    | with_reducible apply keep_ite
    | split
    | dsimp only

theorem clrF_keep {s0 s : State} (h : Keep s0 s) (b : Nat) (f : Field) : Keep s0 (clrF s b f) := by
  unfold clrF
  try dsimp only
  repeat' first
    | with_reducible exact h
    | with_reducible assumption
    | with_reducible apply wr_keep
    | with_reducible apply keep_ite
    | split
    | dsimp only

theorem incF_keep {s0 s : State} (h : Keep s0 s) (b : Nat) (f : Field) : Keep s0 (incF s b f) := by
  unfold incF
  try dsimp only
  repeat' first
    | with_reducible exact h
    | with_reducible assumption
    | with_reducible apply wr_keep
    | with_reducible apply keep_ite
    | split
    | dsimp only

theorem incFi_keep {s0 s : State} (h : Keep s0 s) (b : Nat) (f : Field) (i : Nat) : Keep s0 (incFi s b f i) := by
  unfold incFi
  try dsimp only
  repeat' first
    | with_reducible exact h
    | with_reducible assumption
    | with_reducible apply wri_keep
    | with_reducible apply keep_ite
    | split
    | dsimp only

theorem addF_keep {s0 s : State} (h : Keep s0 s) (b : Nat) (f : Field) (n : Nat) : Keep s0 (addF s b f n) := by
  unfold addF
  try dsimp only
  repeat' first
    | with_reducible exact h
    | with_reducible assumption
    | with_reducible apply wr_keep
    | with_reducible apply keep_ite
    | split
    | dsimp only

theorem wr64_keep {s0 s : State} (h : Keep s0 s) (b : Nat) (lo : Field) (hi : Field) (v : Nat) : Keep s0 (wr64 s b lo hi v) := by
  unfold wr64
  try dsimp only
  repeat' first
    | with_reducible exact h
    | with_reducible assumption
    | with_reducible apply wr_keep
    | with_reducible apply keep_ite
    | split
    | dsimp only

theorem putSlice_keep {s0 s : State} (h : Keep s0 s) (t : Nat) (p : Nat) (v : Slice) : Keep s0 (putSlice s t p v) := by
  unfold putSlice
  try dsimp only
  repeat' first
    | with_reducible exact h
    | with_reducible assumption
    | with_reducible apply keep_ite
    | split
    | dsimp only
    | (with_reducible refine keep_mk (s := _) ?_ rfl rfl rfl rfl; first | with_reducible exact h | with_reducible assumption | with_reducible apply keep_ite | split)

theorem putTile_keep {s0 s : State} (h : Keep s0 s) (t : Nat) (v : Tile) : Keep s0 (putTile s t v) := by
  unfold putTile
  try dsimp only
  repeat' first
    | with_reducible exact h
    | with_reducible assumption
    | with_reducible apply keep_ite
    | split
    | dsimp only
    | (with_reducible refine keep_mk (s := _) ?_ rfl rfl rfl rfl; first | with_reducible exact h | with_reducible assumption | with_reducible apply keep_ite | split)

theorem putGang_keep {s0 s : State} (h : Keep s0 s) (l : Nat) (g : Gang) : Keep s0 (putGang s l g) := by
  unfold putGang
  try dsimp only
  repeat' first
    | with_reducible exact h
    | with_reducible assumption
    | with_reducible apply keep_ite
    | split
    | dsimp only
    | (with_reducible refine keep_mk (s := _) ?_ rfl rfl rfl rfl; first | with_reducible exact h | with_reducible assumption | with_reducible apply keep_ite | split)

theorem dropGang_keep {s0 s : State} (h : Keep s0 s) (l : Nat) : Keep s0 (dropGang s l) := by
  unfold dropGang
  try dsimp only
  repeat' first
    | with_reducible exact h
    | with_reducible assumption
    | with_reducible apply keep_ite
    | split
    | dsimp only
    | (with_reducible refine keep_mk (s := _) ?_ rfl rfl rfl rfl; first | with_reducible exact h | with_reducible assumption | with_reducible apply keep_ite | split)

theorem putSite_keep {s0 s : State} (h : Keep s0 s) (i : Nat) (v : Site) : Keep s0 (putSite s i v) := by
  unfold putSite
  try dsimp only
  repeat' first
    | with_reducible exact h
    | with_reducible assumption
    | with_reducible apply keep_ite
    | split
    | dsimp only
    | (with_reducible refine keep_mk (s := _) ?_ rfl rfl rfl rfl; first | with_reducible exact h | with_reducible assumption | with_reducible apply keep_ite | split)

theorem putJob_keep {s0 s : State} (h : Keep s0 s) (j : Nat) (x : Job) : Keep s0 (putJob s j x) := by
  unfold putJob
  try dsimp only
  repeat' first
    | with_reducible exact h
    | with_reducible assumption
    | with_reducible apply keep_ite
    | split
    | dsimp only
    | (with_reducible refine keep_mk (s := _) ?_ rfl rfl rfl rfl; first | with_reducible exact h | with_reducible assumption | with_reducible apply keep_ite | split)

theorem updXlt_keep {s0 s : State} (h : Keep s0 s) (f : Xlt → Xlt) : Keep s0 (updXlt s f) := by
  unfold updXlt
  try dsimp only
  repeat' first
    | with_reducible exact h
    | with_reducible assumption
    | with_reducible apply keep_ite
    | split
    | dsimp only
    | (with_reducible refine keep_mk (s := _) ?_ rfl rfl rfl rfl; first | with_reducible exact h | with_reducible assumption | with_reducible apply keep_ite | split)

theorem updRings_keep {s0 s : State} (h : Keep s0 s) (f : Rings → Rings) : Keep s0 (updRings s f) := by
  unfold updRings
  try dsimp only
  repeat' first
    | with_reducible exact h
    | with_reducible assumption
    | with_reducible apply keep_ite
    | split
    | dsimp only
    | (with_reducible refine keep_mk (s := _) ?_ rfl rfl rfl rfl; first | with_reducible exact h | with_reducible assumption | with_reducible apply keep_ite | split)

theorem updHbm_keep {s0 s : State} (h : Keep s0 s) (f : Hbm → Hbm) : Keep s0 (updHbm s f) := by
  unfold updHbm
  try dsimp only
  repeat' first
    | with_reducible exact h
    | with_reducible assumption
    | with_reducible apply keep_ite
    | split
    | dsimp only
    | (with_reducible refine keep_mk (s := _) ?_ rfl rfl rfl rfl; first | with_reducible exact h | with_reducible assumption | with_reducible apply keep_ite | split)

theorem updBoot_keep {s0 s : State} (h : Keep s0 s) (f : Boot → Boot) : Keep s0 (updBoot s f) := by
  unfold updBoot
  try dsimp only
  repeat' first
    | with_reducible exact h
    | with_reducible assumption
    | with_reducible apply keep_ite
    | split
    | dsimp only
    | (with_reducible refine keep_mk (s := _) ?_ rfl rfl rfl rfl; first | with_reducible exact h | with_reducible assumption | with_reducible apply keep_ite | split)

theorem updRing_keep {s0 s : State} (h : Keep s0 s) (f : TimeRing → TimeRing) : Keep s0 (updRing s f) := by
  unfold updRing
  try dsimp only
  repeat' first
    | with_reducible exact h
    | with_reducible assumption
    | with_reducible apply keep_ite
    | split
    | dsimp only
    | (with_reducible refine keep_mk (s := _) ?_ rfl rfl rfl rfl; first | with_reducible exact h | with_reducible assumption | with_reducible apply keep_ite | split)

theorem updFlt_keep {s0 s : State} (h : Keep s0 s) (f : Flt → Flt) : Keep s0 (updFlt s f) := by
  unfold updFlt
  try dsimp only
  repeat' first
    | with_reducible exact h
    | with_reducible assumption
    | with_reducible apply keep_ite
    | split
    | dsimp only
    | (with_reducible refine keep_mk (s := _) ?_ rfl rfl rfl rfl; first | with_reducible exact h | with_reducible assumption | with_reducible apply keep_ite | split)

theorem putTel_keep {s0 s : State} (h : Keep s0 s) (n : Nat) (x : Teller) : Keep s0 (putTel s n x) := by
  unfold putTel
  try dsimp only
  repeat' first
    | with_reducible exact h
    | with_reducible assumption
    | with_reducible apply keep_ite
    | split
    | dsimp only
    | (with_reducible refine keep_mk (s := _) ?_ rfl rfl rfl rfl; first | with_reducible exact h | with_reducible assumption | with_reducible apply keep_ite | split)

theorem updTel_keep {s0 s : State} (h : Keep s0 s) (n : Nat) (f : Teller → Teller) : Keep s0 (updTel s n f) := by
  unfold updTel
  try dsimp only
  repeat' first
    | with_reducible exact h
    | with_reducible assumption
    | with_reducible apply putTel_keep
    | with_reducible apply keep_ite
    | split
    | dsimp only

theorem putDig_keep {s0 s : State} (h : Keep s0 s) (q : Nat) (d : Dig) : Keep s0 (putDig s q d) := by
  unfold putDig
  try dsimp only
  repeat' first
    | with_reducible exact h
    | with_reducible assumption
    | with_reducible apply keep_ite
    | split
    | dsimp only
    | (with_reducible refine keep_mk (s := _) ?_ rfl rfl rfl rfl; first | with_reducible exact h | with_reducible assumption | with_reducible apply keep_ite | split)

theorem updDig_keep {s0 s : State} (h : Keep s0 s) (q : Nat) (f : Dig → Dig) : Keep s0 (updDig s q f) := by
  unfold updDig
  try dsimp only
  repeat' first
    | with_reducible exact h
    | with_reducible assumption
    | with_reducible apply putDig_keep
    | with_reducible apply keep_ite
    | split
    | dsimp only

theorem askWake_keep {s0 s : State} (h : Keep s0 s) (cause : Nat) : Keep s0 (askWake s cause) := by
  unfold askWake
  try dsimp only
  repeat' first
    | with_reducible exact h
    | with_reducible assumption
    | with_reducible apply keep_ite
    | split
    | dsimp only
    | (with_reducible refine keep_mk (s := _) ?_ rfl rfl rfl rfl; first | with_reducible exact h | with_reducible assumption | with_reducible apply keep_ite | split)

theorem smbAlert_keep {s0 s : State} (h : Keep s0 s) (was : Bool) (is : Bool) : Keep s0 (smbAlert s was is) := by
  unfold smbAlert
  try dsimp only
  repeat' first
    | with_reducible exact h
    | with_reducible assumption
    | with_reducible apply setF_keep
    | with_reducible apply keep_ite
    | split
    | dsimp only

theorem noteSafe_keep {s0 s : State} (h : Keep s0 s) (c : Nat) : Keep s0 (noteSafe s c) := by
  unfold noteSafe
  try dsimp only
  repeat' first
    | with_reducible exact h
    | with_reducible assumption
    | with_reducible apply updDig_keep
    | with_reducible apply keep_ite
    | split
    | (intro _)
    | dsimp only
    | (with_reducible refine keep_mk (s := _) ?_ rfl rfl rfl rfl; first | with_reducible exact h | with_reducible assumption | with_reducible apply updDig_keep | with_reducible apply keep_ite | split)

theorem wrTime_keep {s0 s : State} (h : Keep s0 s) (b : Nat) (f0 : Field) (f1 : Field) (f2 : Field) (f3 : Field) (t : Nat) : Keep s0 (wrTime s b f0 f1 f2 f3 t) := by
  unfold wrTime
  try dsimp only
  repeat' first
    | with_reducible exact h
    | with_reducible assumption
    | with_reducible apply wr_keep
    | with_reducible apply keep_ite
    | split
    | dsimp only

theorem freshNat_keep {s0 s : State} (h : Keep s0 s) : Keep s0 (freshNat s).2 := by
  unfold freshNat
  try dsimp only
  repeat' first
    | with_reducible exact h
    | with_reducible assumption
    | with_reducible apply keep_ite
    | split
    | dsimp only
    | (with_reducible refine keep_mk (s := _) ?_ rfl rfl rfl rfl; first | with_reducible exact h | with_reducible assumption | with_reducible apply keep_ite | split)

theorem freshNat_keep_of {s0 s : State} {v} {t : State} (he : freshNat s = (v, t)) (h : Keep s0 s) : Keep s0 t := by
  have hh := freshNat_keep h
  rw [he] at hh
  exact hh

theorem signal_keep {s0 s : State} (h : Keep s0 s) (kind : Nat) (inst : Nat) (info : Nat) : Keep s0 (signal s kind inst info) := by
  unfold signal
  try dsimp only
  repeat' first
    | with_reducible exact h
    | with_reducible assumption
    | with_reducible apply keep_ite
    | split
    | dsimp only
    | (with_reducible refine keep_mk (s := _) ?_ rfl rfl rfl rfl; first | with_reducible exact h | with_reducible assumption | with_reducible apply keep_ite | split)

theorem levelOn_keep {s0 s : State} (h : Keep s0 s) (kind : Nat) (inst : Nat) (info : Nat) : Keep s0 (levelOn s kind inst info) := by
  unfold levelOn
  try dsimp only
  repeat' first
    | with_reducible exact h
    | with_reducible assumption
    | with_reducible apply keep_ite
    | split
    | dsimp only
    | (with_reducible refine keep_mk (s := _) ?_ rfl rfl rfl rfl; first | with_reducible exact h | with_reducible assumption | with_reducible apply keep_ite | split)

theorem showActive_keep {s0 s : State} (h : Keep s0 s) (kind : Nat) : Keep s0 (showActive s kind) := by
  unfold showActive
  try dsimp only
  repeat' first
    | with_reducible exact h
    | with_reducible assumption
    | with_reducible apply wri_keep
    | with_reducible apply keep_ite
    | split
    | dsimp only

theorem levelOff_keep {s0 s : State} (h : Keep s0 s) (kind : Nat) (inst : Nat) : Keep s0 (levelOff s kind inst) := by
  unfold levelOff
  try dsimp only
  repeat' first
    | with_reducible exact h
    | with_reducible assumption
    | with_reducible apply showActive_keep
    | with_reducible apply keep_ite
    | split
    | (intro _)
    | dsimp only
    | (with_reducible refine keep_mk (s := _) ?_ rfl rfl rfl rfl; first | with_reducible exact h | with_reducible assumption | with_reducible apply showActive_keep | with_reducible apply keep_ite | split)

theorem postEvt_keep {s0 s : State} (h : Keep s0 s) (type : Nat) (unit : Nat) (arg0 : Nat) (arg1 : Nat) : Keep s0 (postEvt s type unit arg0 arg1) := by
  unfold postEvt
  try dsimp only
  repeat' first
    | with_reducible exact h
    | with_reducible assumption
    | with_reducible apply keep_ite
    | split
    | dsimp only
    | (with_reducible refine keep_mk (s := _) ?_ rfl rfl rfl rfl; first | with_reducible exact h | with_reducible assumption | with_reducible apply keep_ite | split)

theorem recordAccess_keep {s0 s : State} (h : Keep s0 s) (cause : Nat) (isWr : Bool) (who : Option Nat) (off : Nat) : Keep s0 (recordAccess s cause isWr who off) := by
  unfold recordAccess
  try dsimp only
  repeat' first
    | with_reducible exact h
    | with_reducible assumption
    | with_reducible apply wr_keep
    | with_reducible apply incF_keep
    | with_reducible apply keep_ite
    | split
    | dsimp only

theorem barWrite_keep {s0 s : State} (h : Keep s0 s) (who : Option Nat) (off : Nat) (k : State → State) (hk : ∀ x0, Keep s0 x0 → Keep s0 (k x0)) : Keep s0 (barWrite s who off k) := by
  unfold barWrite
  try dsimp only
  repeat' first
    | with_reducible exact h
    | with_reducible assumption
    | with_reducible apply recordAccess_keep
    | with_reducible apply keep_ite
    | apply hk
    | split
    | (intro _)
    | dsimp only

theorem applyShadow_keep {s0 s : State} (h : Keep s0 s) (lo hi : Nat) : Keep s0 (applyShadow s lo hi) :=
  keep_regs h rfl rfl rfl fun hr => mapRising_puts _ _ hr

theorem setEot_keep {s0 s : State} (h : Keep s0 s) (v : Bool) : Keep s0 (setEot s v) := by
  unfold setEot
  try dsimp only
  repeat' first
    | with_reducible exact h
    | with_reducible assumption
    | with_reducible apply wr_keep
    | with_reducible apply keep_ite
    | split
    | dsimp only

theorem autoEot_keep {s0 s : State} (h : Keep s0 s) (opcode : Nat) (st : Nat) : Keep s0 (autoEot s opcode st) := by
  unfold autoEot
  try dsimp only
  repeat' first
    | with_reducible exact h
    | with_reducible assumption
    | with_reducible apply setEot_keep
    | with_reducible apply keep_ite
    | split
    | dsimp only

theorem repairUnpend_keep {s0 s : State} (h : Keep s0 s) (i : Nat) : Keep s0 (repairUnpend s i) := by
  unfold repairUnpend
  try dsimp only
  repeat' first
    | with_reducible exact h
    | with_reducible assumption
    | with_reducible apply wr_keep
    | with_reducible apply keep_ite
    | split
    | dsimp only
    | (with_reducible refine keep_mk (s := _) ?_ rfl rfl rfl rfl; first | with_reducible exact h | with_reducible assumption | with_reducible apply wr_keep | with_reducible apply keep_ite | split)

theorem jobEffects_keep {s0 s : State} (h : Keep s0 s) (j : Nat) (x : Job) (st : Nat) : Keep s0 (jobEffects s j x st) := by
  unfold jobEffects
  try dsimp only
  repeat' first
    | with_reducible exact h
    | with_reducible assumption
    | with_reducible apply putSite_keep
    | with_reducible apply autoEot_keep
    | with_reducible apply repairUnpend_keep
    | with_reducible apply keep_ite
    | (with_reducible refine keep_foldl ?_ (fun _ _ _ => ?_))
    | split
    | dsimp only
    | (with_reducible refine keep_mk (s := _) ?_ rfl rfl rfl rfl; first | with_reducible exact h | with_reducible assumption | with_reducible apply putSite_keep | with_reducible apply autoEot_keep | with_reducible apply repairUnpend_keep | with_reducible apply keep_ite | (with_reducible refine keep_foldl ?_ (fun _ _ _ => ?_)) | split)

theorem finishJob_keep {s0 s : State} (h : Keep s0 s) (j : Nat) (x : Job) (st : Nat) (r0 : Nat) (r1 : Nat) (r2 : Nat) : Keep s0 (finishJob s j x st r0 r1 r2) := by
  unfold finishJob
  try dsimp only
  repeat' first
    | with_reducible exact h
    | with_reducible assumption
    | with_reducible apply putJob_keep
    | with_reducible apply updRings_keep
    | with_reducible apply jobEffects_keep
    | with_reducible apply keep_ite
    | split
    | (intro _)
    | dsimp only
    | (with_reducible refine keep_mk (s := _) ?_ rfl rfl rfl rfl; first | with_reducible exact h | with_reducible assumption | with_reducible apply putJob_keep | with_reducible apply updRings_keep | with_reducible apply jobEffects_keep | with_reducible apply keep_ite | split)

theorem endJob_keep {s0 s : State} (h : Keep s0 s) (j : Nat) (st : Nat) (r0 : Nat) (r1 : Nat) (r2 : Nat) : Keep s0 (endJob s j st r0 r1 r2) := by
  unfold endJob
  try dsimp only
  repeat' first
    | with_reducible exact h
    | with_reducible assumption
    | with_reducible apply putJob_keep
    | with_reducible apply finishJob_keep
    | with_reducible apply keep_ite
    | split
    | dsimp only
    | (with_reducible refine keep_mk (s := _) ?_ rfl rfl rfl rfl; first | with_reducible exact h | with_reducible assumption | with_reducible apply putJob_keep | with_reducible apply finishJob_keep | with_reducible apply keep_ite | split)

theorem failJob_keep {s0 s : State} (h : Keep s0 s) (j : Nat) (st : Nat) : Keep s0 (failJob s j st) := by
  unfold failJob
  try dsimp only
  repeat' first
    | with_reducible exact h
    | with_reducible assumption
    | with_reducible apply finishJob_keep
    | with_reducible apply keep_ite
    | split
    | dsimp only
    | (with_reducible refine keep_mk (s := _) ?_ rfl rfl rfl rfl; first | with_reducible exact h | with_reducible assumption | with_reducible apply finishJob_keep | with_reducible apply keep_ite | split)

theorem endJob?_keep {s0 s : State} (h : Keep s0 s) (j : Option Nat) (st : Nat) (r0 : Nat) (r1 : Nat) (r2 : Nat) : Keep s0 (endJob? s j st r0 r1 r2) := by
  unfold endJob?
  try dsimp only
  repeat' first
    | with_reducible exact h
    | with_reducible assumption
    | with_reducible apply endJob_keep
    | with_reducible apply keep_ite
    | split
    | dsimp only
    | (with_reducible refine keep_mk (s := _) ?_ rfl rfl rfl rfl; first | with_reducible exact h | with_reducible assumption | with_reducible apply endJob_keep | with_reducible apply keep_ite | split)

end Sys2Proof.Machine
end

