-- ==== Sys2Proof/Laws/KeepTelEvents.lean ====
section
/-! SUPPORT. The operations of Machine/TelEvents.lean leave the queue alone and keep memories and registers canonical. -/
set_option maxRecDepth 4000
set_option linter.all false
namespace Sys2Proof.Machine

theorem showTelQ_keep {s0 s : State} (h : Keep s0 s) (n : Nat) : Keep s0 (showTelQ s n) := by
  unfold showTelQ
  try dsimp only
  repeat' first
    | with_reducible exact h
    | with_reducible assumption
    | with_reducible apply wr_keep
    | with_reducible apply keep_ite
    | split
    | dsimp only

theorem telLeave_keep {s0 s : State} (h : Keep s0 s) (n : Nat) : Keep s0 (telLeave s n) := by
  unfold telLeave
  try dsimp only
  repeat' first
    | with_reducible exact h
    | with_reducible assumption
    | with_reducible apply clrF_keep
    | with_reducible apply applyShadow_keep
    | with_reducible apply keep_ite
    | split
    | dsimp only

theorem telAbandon_keep {s0 s : State} (h : Keep s0 s) (n : Nat) : Keep s0 (telAbandon s n) := by
  unfold telAbandon
  try dsimp only
  repeat' first
    | with_reducible exact h
    | with_reducible assumption
    | with_reducible apply wr_keep
    | with_reducible apply incF_keep
    | with_reducible apply putTel_keep
    | with_reducible apply telLeave_keep
    | with_reducible apply keep_ite
    | split
    | dsimp only
    | (with_reducible refine keep_mk (s := _) ?_ rfl rfl rfl rfl; first | with_reducible exact h | with_reducible assumption | with_reducible apply wr_keep | with_reducible apply incF_keep | with_reducible apply putTel_keep | with_reducible apply telLeave_keep | with_reducible apply keep_ite | split)

theorem telInterrupt_keep {s0 s : State} (h : Keep s0 s) (n : Nat) (e : Nat) : Keep s0 (telInterrupt s n e) := by
  unfold telInterrupt
  try dsimp only
  repeat' first
    | with_reducible exact h
    | with_reducible assumption
    | with_reducible apply telAbandon_keep
    | with_reducible apply keep_ite
    | split
    | dsimp only

theorem raiseTel_keep {s0 s : State} (h : Keep s0 s) (n : Nat) (e : Nat) : Keep s0 (raiseTel s n e) := by
  unfold raiseTel
  try dsimp only
  repeat' first
    | with_reducible exact h
    | with_reducible assumption
    | with_reducible apply incF_keep
    | with_reducible apply putTel_keep
    | with_reducible apply telInterrupt_keep
    | with_reducible apply keep_ite
    | split
    | dsimp only
    | (with_reducible refine keep_mk (s := _) ?_ rfl rfl rfl rfl; first | with_reducible exact h | with_reducible assumption | with_reducible apply incF_keep | with_reducible apply putTel_keep | with_reducible apply telInterrupt_keep | with_reducible apply keep_ite | split)

theorem raiseRole_keep {s0 s : State} (h : Keep s0 s) (role : Nat) (unit : Nat) (e : Nat) : Keep s0 (raiseRole s role unit e) := by
  unfold raiseRole
  try dsimp only
  repeat' first
    | with_reducible exact h
    | with_reducible assumption
    | with_reducible apply raiseTel_keep
    | with_reducible apply keep_ite
    | split
    | dsimp only
    | (with_reducible refine keep_mk (s := _) ?_ rfl rfl rfl rfl; first | with_reducible exact h | with_reducible assumption | with_reducible apply raiseTel_keep | with_reducible apply keep_ite | split)

theorem setSeqState_keep {s0 s : State} (h : Keep s0 s) (t : Nat) (v : Nat) : Keep s0 (setSeqState s t v) := by
  unfold setSeqState
  try dsimp only
  repeat' first
    | with_reducible exact h
    | with_reducible assumption
    | with_reducible apply wr_keep
    | with_reducible apply raiseRole_keep
    | with_reducible apply keep_ite
    | split
    | dsimp only

theorem setDigState_keep {s0 s : State} (h : Keep s0 s) (q : Nat) (v : Nat) : Keep s0 (setDigState s q v) := by
  unfold setDigState
  try dsimp only
  repeat' first
    | with_reducible exact h
    | with_reducible assumption
    | with_reducible apply wr_keep
    | with_reducible apply raiseRole_keep
    | with_reducible apply keep_ite
    | split
    | dsimp only

end Sys2Proof.Machine
end

