-- ==== Sys2Proof/Laws/KeepMemory.lean ====
section
/-! SUPPORT. The operations of Machine/Memory.lean leave the queue alone and keep memories and registers canonical. -/
set_option maxRecDepth 4000
set_option linter.all false
namespace Sys2Proof.Machine

theorem hostStore_keep {s0 s : State} (h : Keep s0 s) (a : Nat) (l : List Nat) : Keep s0 (hostStore s a l) :=
  ⟨h.queue, fun x => wf_memPuts _ a l (h.host x), h.dev, h.regs⟩

theorem devStore_keep {s0 s : State} (h : Keep s0 s) (d : Nat) (l : List Nat) : Keep s0 (devStore s d l) :=
  ⟨h.queue, h.host, fun x => wf_memPuts _ d l (h.dev x), h.regs⟩

theorem rowDue_keep {s0 s : State} (h : Keep s0 s) (x : Nat) (row : Nat) : Keep s0 (rowDue s x row) := by
  unfold rowDue
  try dsimp only
  repeat' first
    | with_reducible exact h
    | with_reducible assumption
    | with_reducible apply setF_keep
    | with_reducible apply updHbm_keep
    | with_reducible apply keep_ite
    | split
    | (intro _)
    | dsimp only
    | (with_reducible refine keep_mk (s := _) ?_ rfl rfl rfl rfl; first | with_reducible exact h | with_reducible assumption | with_reducible apply setF_keep | with_reducible apply updHbm_keep | with_reducible apply keep_ite | split)

theorem eccUncorrectable_keep {s0 s : State} (h : Keep s0 s) (line : Nat) (rt : Bool) : Keep s0 (eccUncorrectable s line rt) := by
  unfold eccUncorrectable
  try dsimp only
  repeat' first
    | with_reducible exact h
    | with_reducible assumption
    | with_reducible apply setF_keep
    | with_reducible apply incF_keep
    | with_reducible apply wr64_keep
    | with_reducible apply signal_keep
    | with_reducible apply rowDue_keep
    | with_reducible apply keep_ite
    | split
    | dsimp only
    | (with_reducible refine keep_mk (s := _) ?_ rfl rfl rfl rfl; first | with_reducible exact h | with_reducible assumption | with_reducible apply setF_keep | with_reducible apply incF_keep | with_reducible apply wr64_keep | with_reducible apply signal_keep | with_reducible apply rowDue_keep | with_reducible apply keep_ite | split)

theorem askXlt_keep {s0 s : State} (h : Keep s0 s) (pv : Bool) (pasid : Nat) (va : Nat) (isWr : Bool) (who : Nat) : Keep s0 (askXlt s pv pasid va isWr who) := by
  unfold askXlt
  try dsimp only
  repeat' first
    | with_reducible exact h
    | with_reducible assumption
    | with_reducible apply incF_keep
    | with_reducible apply keep_ite
    | split
    | (intro _)
    | dsimp only
    | (with_reducible refine keep_mk (s := _) ?_ rfl rfl rfl rfl; first | with_reducible exact h | with_reducible assumption | with_reducible apply incF_keep | with_reducible apply keep_ite | split)

theorem xltRecord_keep {s0 s : State} (h : Keep s0 s) (x : Job) (pv : Bool) (pasid : Nat) (st : Nat) (va : Nat) (done : Nat) (isWr : Bool) : Keep s0 (xltRecord s x pv pasid st va done isWr) := by
  unfold xltRecord
  try dsimp only
  repeat' first
    | with_reducible exact h
    | with_reducible assumption
    | with_reducible apply wr_keep
    | with_reducible apply wr64_keep
    | with_reducible apply keep_ite
    | split
    | dsimp only

theorem endXlt_keep {s0 s : State} (h : Keep s0 s) (j : Nat) (st : Nat) (va : Nat) (done : Nat) (isWr : Bool) : Keep s0 (endXlt s j st va done isWr) := by
  unfold endXlt
  try dsimp only
  repeat' first
    | with_reducible exact h
    | with_reducible assumption
    | with_reducible apply failJob_keep
    | with_reducible apply xltRecord_keep
    | with_reducible apply keep_ite
    | split
    | dsimp only
    | (with_reducible refine keep_mk (s := _) ?_ rfl rfl rfl rfl; first | with_reducible exact h | with_reducible assumption | with_reducible apply failJob_keep | with_reducible apply xltRecord_keep | with_reducible apply keep_ite | split)

theorem addStream_keep {s0 s : State} (h : Keep s0 s) (x : Stream) : Keep s0 (addStream s x) := by
  unfold addStream
  try dsimp only
  repeat' first
    | with_reducible exact h
    | with_reducible assumption
    | with_reducible apply keep_ite
    | split
    | dsimp only
    | (with_reducible refine keep_mk (s := _) ?_ rfl rfl rfl rfl; first | with_reducible exact h | with_reducible assumption | with_reducible apply keep_ite | split)

theorem askBi_keep {s0 s : State} (h : Keep s0 s) (line : Nat) : Keep s0 (askBi s line) := by
  unfold askBi
  try dsimp only
  repeat' first
    | with_reducible exact h
    | with_reducible assumption
    | with_reducible apply keep_ite
    | split
    | dsimp only
    | (with_reducible refine keep_mk (s := _) ?_ rfl rfl rfl rfl; first | with_reducible exact h | with_reducible assumption | with_reducible apply keep_ite | split)

theorem memAsk_keep {s0 s : State} (h : Keep s0 s) (rank : Nat) (kind : Nat) (who : Nat) (line : Nat) (isWr : Bool) (va : Nat) : Keep s0 (memAsk s rank kind who line isWr va) := by
  unfold memAsk
  try dsimp only
  repeat' first
    | with_reducible exact h
    | with_reducible assumption
    | with_reducible apply updHbm_keep
    | with_reducible apply keep_ite
    | split
    | (intro _)
    | dsimp only
    | (with_reducible refine keep_mk (s := _) ?_ rfl rfl rfl rfl; first | with_reducible exact h | with_reducible assumption | with_reducible apply updHbm_keep | with_reducible apply keep_ite | split)

theorem memAskWrite_keep {s0 s : State} (h : Keep s0 s) (rank : Nat) (kind : Nat) (who : Nat) (d : Nat) (len : Nat) : Keep s0 (memAskWrite s rank kind who d len) := by
  unfold memAskWrite
  try dsimp only
  repeat' first
    | with_reducible exact h
    | with_reducible assumption
    | with_reducible apply memAsk_keep
    | with_reducible apply keep_ite
    | (with_reducible refine keep_foldl ?_ (fun _ _ _ => ?_))
    | split
    | (intro _)
    | dsimp only

theorem devAsk1_keep {s0 s : State} (h : Keep s0 s) (j : Nat) (x : Job) (va : Nat) : Keep s0 (devAsk1 s j x va) := by
  unfold devAsk1
  try dsimp only
  repeat' first
    | with_reducible exact h
    | with_reducible assumption
    | with_reducible apply memAsk_keep
    | with_reducible apply keep_ite
    | split
    | (intro _)
    | dsimp only
    | (with_reducible refine keep_mk (s := _) ?_ rfl rfl rfl rfl; first | with_reducible exact h | with_reducible assumption | with_reducible apply memAsk_keep | with_reducible apply keep_ite | split)

theorem fetchBytes_keep {s0 s : State} (h : Keep s0 s) (j : Nat) (x : Job) (va : Nat) (len : Nat) : Keep s0 (fetchBytes s j x va len) := by
  unfold fetchBytes
  try dsimp only
  repeat' first
    | with_reducible exact h
    | with_reducible assumption
    | with_reducible apply endXlt_keep
    | with_reducible apply addStream_keep
    | with_reducible apply askBi_keep
    | with_reducible apply devAsk1_keep
    | with_reducible apply keep_ite
    | (with_reducible refine keep_foldl ?_ (fun _ _ _ => ?_))
    | split
    | (intro _)
    | dsimp only
    | (with_reducible refine keep_mk (s := _) ?_ rfl rfl rfl rfl; first | with_reducible exact h | with_reducible assumption | with_reducible apply endXlt_keep | with_reducible apply addStream_keep | with_reducible apply askBi_keep | with_reducible apply devAsk1_keep | with_reducible apply keep_ite | (with_reducible refine keep_foldl ?_ (fun _ _ _ => ?_)) | split)

theorem needBytes_keep {s0 s : State} (h : Keep s0 s) (j : Nat) (va : Nat) (len : Nat) (k : List Nat → State) (hk : ∀ x0, Keep s0 (k x0)) : Keep s0 (needBytes s j va len k) := by
  unfold needBytes
  try dsimp only
  repeat' first
    | with_reducible exact h
    | with_reducible assumption
    | with_reducible apply endXlt_keep
    | with_reducible apply fetchBytes_keep
    | with_reducible apply keep_ite
    | apply hk
    | split
    | (intro _)
    | dsimp only
    | (with_reducible refine keep_mk (s := _) ?_ rfl rfl rfl rfl; first | with_reducible exact h | with_reducible assumption | with_reducible apply endXlt_keep | with_reducible apply fetchBytes_keep | with_reducible apply keep_ite | apply hk | split)

theorem jobWrite_keep_of {s0 s t : State} {j va : Nat} {l : List Nat} (he : jobWrite s j va l = .ok t) (h : Keep s0 s) : Keep s0 t := by
  unfold jobWrite at he
  split at he
  · cases he; exact h
  · split at he
    · cases he; exact h
    · split at he
      · cases he; exact memAskWrite_keep (devStore_keep h _ _) _ _ _ _ _
      · split at he
        · cases he
        · cases he; exact addStream_keep h _

theorem writeAndEnd_keep {s0 s : State} (h : Keep s0 s) (j : Nat) (va : Nat) (l : List Nat) (st : Nat) (r0 : Nat) (r1 : Nat) (r2 : Nat) : Keep s0 (writeAndEnd s j va l st r0 r1 r2) := by
  unfold writeAndEnd
  try dsimp only
  repeat' first
    | with_reducible exact h
    | with_reducible assumption
    | with_reducible apply endJob_keep
    | with_reducible apply endXlt_keep
    | (with_reducible refine jobWrite_keep_of (by with_reducible assumption) ?_)
    | with_reducible apply keep_ite
    | split
    | dsimp only
    | (with_reducible refine keep_mk (s := _) ?_ rfl rfl rfl rfl; first | with_reducible exact h | with_reducible assumption | with_reducible apply endJob_keep | with_reducible apply endXlt_keep | (with_reducible refine jobWrite_keep_of (by with_reducible assumption) ?_) | with_reducible apply keep_ite | split)

theorem afterDeferral_keep {s0 s : State} (h : Keep s0 s) (j : Nat) (x : Job) (k : State → State) (hk : ∀ x0, Keep s0 x0 → Keep s0 (k x0)) : Keep s0 (afterDeferral s j x k) := by
  unfold afterDeferral
  try dsimp only
  repeat' first
    | with_reducible exact h
    | with_reducible assumption
    | with_reducible apply putJob_keep
    | with_reducible apply endJob_keep
    | with_reducible apply keep_ite
    | apply hk
    | split
    | (intro _)
    | dsimp only
    | (with_reducible refine keep_mk (s := _) ?_ rfl rfl rfl rfl; first | with_reducible exact h | with_reducible assumption | with_reducible apply putJob_keep | with_reducible apply endJob_keep | with_reducible apply keep_ite | apply hk | split)

theorem markDeferred_keep {s0 s : State} (h : Keep s0 s) : Keep s0 (markDeferred s) := by
  unfold markDeferred
  try dsimp only
  repeat' first
    | with_reducible exact h
    | with_reducible assumption
    | with_reducible apply putJob_keep
    | with_reducible apply keep_ite
    | (with_reducible refine keep_foldl ?_ (fun _ _ _ => ?_))
    | split
    | (intro _)
    | dsimp only
    | (with_reducible refine keep_mk (s := _) ?_ rfl rfl rfl rfl; first | with_reducible exact h | with_reducible assumption | with_reducible apply putJob_keep | with_reducible apply keep_ite | (with_reducible refine keep_foldl ?_ (fun _ _ _ => ?_)) | split)

theorem startJob_keep {s0 s : State} (h : Keep s0 s) (j : Nat) : Keep s0 (startJob s j) := by
  unfold startJob
  try dsimp only
  repeat' first
    | with_reducible exact h
    | with_reducible assumption
    | with_reducible apply putJob_keep
    | with_reducible apply keep_ite
    | split
    | dsimp only
    | (with_reducible refine keep_mk (s := _) ?_ rfl rfl rfl rfl; first | with_reducible exact h | with_reducible assumption | with_reducible apply putJob_keep | with_reducible apply keep_ite | split)

theorem setWork_keep {s0 s : State} (h : Keep s0 s) (j : Nat) (units : List Nat) (tally : List Nat) (rec_ : List Nat) : Keep s0 (setWork s j units tally rec_) := by
  unfold setWork
  try dsimp only
  repeat' first
    | with_reducible exact h
    | with_reducible assumption
    | with_reducible apply putJob_keep
    | with_reducible apply keep_ite
    | split
    | dsimp only
    | (with_reducible refine keep_mk (s := _) ?_ rfl rfl rfl rfl; first | with_reducible exact h | with_reducible assumption | with_reducible apply putJob_keep | with_reducible apply keep_ite | split)

end Sys2Proof.Machine
end

