-- ==== Sys2Proof/Laws/KeepChannel.lean ====
section
/-! SUPPORT. The operations of Machine/Channel.lean leave the queue alone and keep memories and registers canonical. -/
set_option maxRecDepth 4000
set_option linter.all false
namespace Sys2Proof.Machine

theorem tapNote_keep {s0 s : State} (h : Keep s0 s) (q : Nat) : Keep s0 (tapNote s q) := by
  unfold tapNote
  try dsimp only
  repeat' first
    | with_reducible exact h
    | with_reducible assumption
    | with_reducible apply updDig_keep
    | with_reducible apply keep_ite
    | split
    | (intro _)
    | dsimp only
    | (with_reducible refine keep_mk (s := _) ?_ rfl rfl rfl rfl; first | with_reducible exact h | with_reducible assumption | with_reducible apply updDig_keep | with_reducible apply keep_ite | split)

theorem updSlice_keep {s0 s : State} (h : Keep s0 s) (t : Nat) (p : Nat) (f : Slice → Slice) : Keep s0 (updSlice s t p f) := by
  unfold updSlice
  try dsimp only
  repeat' first
    | with_reducible exact h
    | with_reducible assumption
    | with_reducible apply putSlice_keep
    | with_reducible apply keep_ite
    | split
    | dsimp only

theorem sliceBoundary_keep {s0 s : State} (h : Keep s0 s) (t : Nat) (p : Nat) : Keep s0 (sliceBoundary s t p) := by
  unfold sliceBoundary
  try dsimp only
  repeat' first
    | with_reducible exact h
    | with_reducible assumption
    | with_reducible apply applyShadow_keep
    | with_reducible apply keep_ite
    | split
    | dsimp only

theorem updTile_keep {s0 s : State} (h : Keep s0 s) (t : Nat) (f : Tile → Tile) : Keep s0 (updTile s t f) := by
  unfold updTile
  try dsimp only
  repeat' first
    | with_reducible exact h
    | with_reducible assumption
    | with_reducible apply putTile_keep
    | with_reducible apply keep_ite
    | split
    | dsimp only

theorem tdcQueue_keep {s0 s : State} (h : Keep s0 s) (t : Nat) (r : List Nat) : Keep s0 (tdcQueue s t r) := by
  unfold tdcQueue
  try dsimp only
  repeat' first
    | with_reducible exact h
    | with_reducible assumption
    | with_reducible apply setF_keep
    | with_reducible apply incF_keep
    | with_reducible apply putTile_keep
    | with_reducible apply signal_keep
    | with_reducible apply keep_ite
    | split
    | dsimp only
    | (with_reducible refine keep_mk (s := _) ?_ rfl rfl rfl rfl; first | with_reducible exact h | with_reducible assumption | with_reducible apply setF_keep | with_reducible apply incF_keep | with_reducible apply putTile_keep | with_reducible apply signal_keep | with_reducible apply keep_ite | split)

theorem tdcClose_keep {s0 s : State} (h : Keep s0 s) (t : Nat) (k : Nat) (core : Nat) : Keep s0 (tdcClose s t k core) := by
  unfold tdcClose
  try dsimp only
  repeat' first
    | with_reducible exact h
    | with_reducible assumption
    | with_reducible apply setF_keep
    | with_reducible apply incF_keep
    | with_reducible apply putTile_keep
    | with_reducible apply tdcQueue_keep
    | with_reducible apply keep_ite
    | split
    | (intro _)
    | dsimp only
    | (with_reducible refine keep_mk (s := _) ?_ rfl rfl rfl rfl; first | with_reducible exact h | with_reducible assumption | with_reducible apply setF_keep | with_reducible apply incF_keep | with_reducible apply putTile_keep | with_reducible apply tdcQueue_keep | with_reducible apply keep_ite | split)

theorem tdcCloseAt_keep {s0 s : State} (h : Keep s0 s) (t : Nat) (k : Nat) : Keep s0 (tdcCloseAt s t k) := by
  unfold tdcCloseAt
  try dsimp only
  repeat' first
    | with_reducible exact h
    | with_reducible assumption
    | with_reducible apply tdcClose_keep
    | with_reducible apply keep_ite
    | (with_reducible refine keep_foldl ?_ (fun _ _ _ => ?_))
    | split
    | (intro _)
    | dsimp only

theorem tdcCloseAll_keep {s0 s : State} (h : Keep s0 s) (t : Nat) : Keep s0 (tdcCloseAll s t) := by
  unfold tdcCloseAll
  try dsimp only
  repeat' first
    | with_reducible exact h
    | with_reducible assumption
    | with_reducible apply tdcCloseAt_keep
    | with_reducible apply keep_ite
    | (with_reducible refine keep_foldl ?_ (fun _ _ _ => ?_))
    | split
    | (intro _)
    | dsimp only

theorem strobesTake_keep {s0 s : State} (h : Keep s0 s) (t : Nat) : Keep s0 (strobesTake s t) := by
  unfold strobesTake
  try dsimp only
  repeat' first
    | with_reducible exact h
    | with_reducible assumption
    | with_reducible apply putTile_keep
    | with_reducible apply keep_ite
    | split
    | (intro _)
    | dsimp only
    | (with_reducible refine keep_mk (s := _) ?_ rfl rfl rfl rfl; first | with_reducible exact h | with_reducible assumption | with_reducible apply putTile_keep | with_reducible apply keep_ite | split)

theorem cmpRestart_keep {s0 s : State} (h : Keep s0 s) (t : Nat) (p : Nat) : Keep s0 (cmpRestart s t p) := by
  unfold cmpRestart
  try dsimp only
  repeat' first
    | with_reducible exact h
    | with_reducible assumption
    | with_reducible apply wr_keep
    | with_reducible apply clrF_keep
    | with_reducible apply updSlice_keep
    | with_reducible apply keep_ite
    | split
    | (intro _)
    | dsimp only
    | (with_reducible refine keep_mk (s := _) ?_ rfl rfl rfl rfl; first | with_reducible exact h | with_reducible assumption | with_reducible apply wr_keep | with_reducible apply clrF_keep | with_reducible apply updSlice_keep | with_reducible apply keep_ite | split)

theorem cmpEvent_keep {s0 s : State} (h : Keep s0 s) (t : Nat) (p : Nat) (hi0 : Trit) (lo0 : Trit) (hi1 : Trit) (lo1 : Trit) : Keep s0 (cmpEvent s t p hi0 lo0 hi1 lo1) := by
  unfold cmpEvent
  try dsimp only
  repeat' first
    | with_reducible exact h
    | with_reducible assumption
    | with_reducible apply setF_keep
    | with_reducible apply askWake_keep
    | with_reducible apply postEvt_keep
    | with_reducible apply raiseRole_keep
    | with_reducible apply keep_ite
    | split
    | dsimp only
    | (with_reducible refine keep_mk (s := _) ?_ rfl rfl rfl rfl; first | with_reducible exact h | with_reducible assumption | with_reducible apply setF_keep | with_reducible apply askWake_keep | with_reducible apply postEvt_keep | with_reducible apply raiseRole_keep | with_reducible apply keep_ite | split)

theorem cmpOutputs_keep {s0 s : State} (h : Keep s0 s) (t : Nat) (p : Nat) (hi : Trit) (lo : Trit) : Keep s0 (cmpOutputs s t p hi lo) := by
  unfold cmpOutputs
  try dsimp only
  repeat' first
    | with_reducible exact h
    | with_reducible assumption
    | with_reducible apply wr_keep
    | with_reducible apply cmpEvent_keep
    | with_reducible apply keep_ite
    | split
    | dsimp only

theorem execCmpSettled_keep {s0 s : State} (h : Keep s0 s) (t : TileIx) (p : SliceIx) : OKeep s0 (execCmpSettled t p s) := by
  unfold execCmpSettled
  try dsimp only
  repeat' first
    | with_reducible exact h
    | with_reducible assumption
    | with_reducible apply setF_keep
    | with_reducible apply strobesTake_keep
    | with_reducible apply keep_ite
    | with_reducible apply okeep_next
    | with_reducible apply okeep_fault
    | with_reducible apply okeep_ite
    | split
    | dsimp only

theorem execCmpEdge_keep {s0 s : State} (h : Keep s0 s) (t : TileIx) (p : SliceIx) (hi : Trit) (lo : Trit) : OKeep s0 (execCmpEdge t p hi lo s) := by
  unfold execCmpEdge
  try dsimp only
  repeat' first
    | with_reducible exact h
    | with_reducible assumption
    | with_reducible apply cmpOutputs_keep
    | with_reducible apply keep_ite
    | with_reducible apply okeep_next
    | with_reducible apply okeep_fault
    | with_reducible apply okeep_ite
    | split
    | dsimp only

theorem execSampledTick_keep {s0 s : State} (h : Keep s0 s) (t : TileIx) (p : SliceIx) (hi : Trit) (lo : Trit) : OKeep s0 (execSampledTick t p hi lo s) := by
  unfold execSampledTick
  try dsimp only
  repeat' first
    | with_reducible exact h
    | with_reducible assumption
    | with_reducible apply putSlice_keep
    | with_reducible apply cmpOutputs_keep
    | with_reducible apply keep_ite
    | with_reducible apply okeep_next
    | with_reducible apply okeep_fault
    | with_reducible apply okeep_ite
    | split
    | dsimp only
    | (with_reducible refine keep_mk (s := _) ?_ rfl rfl rfl rfl; first | with_reducible exact h | with_reducible assumption | with_reducible apply putSlice_keep | with_reducible apply cmpOutputs_keep | with_reducible apply keep_ite | with_reducible apply okeep_next | with_reducible apply okeep_fault | with_reducible apply okeep_ite | split)

theorem loadSync_keep {s0 s : State} (h : Keep s0 s) (t : Nat) (p : Nat) : Keep s0 (loadSync s t p) := by
  unfold loadSync
  try dsimp only
  repeat' first
    | with_reducible exact h
    | with_reducible assumption
    | with_reducible apply updSlice_keep
    | with_reducible apply keep_ite
    | split
    | (intro _)
    | dsimp only
    | (with_reducible refine keep_mk (s := _) ?_ rfl rfl rfl rfl; first | with_reducible exact h | with_reducible assumption | with_reducible apply updSlice_keep | with_reducible apply keep_ite | split)

theorem edgesTake_keep {s0 s : State} (h : Keep s0 s) (t : Nat) (p : Nat) : Keep s0 (edgesTake s t p) := by
  unfold edgesTake
  try dsimp only
  repeat' first
    | with_reducible exact h
    | with_reducible assumption
    | with_reducible apply putSlice_keep
    | with_reducible apply loadSync_keep
    | with_reducible apply keep_ite
    | split
    | (intro _)
    | dsimp only
    | (with_reducible refine keep_mk (s := _) ?_ rfl rfl rfl rfl; first | with_reducible exact h | with_reducible assumption | with_reducible apply putSlice_keep | with_reducible apply loadSync_keep | with_reducible apply keep_ite | split)

theorem pmuJobFinish_keep {s0 s : State} (h : Keep s0 s) (j : Nat) : Keep s0 (pmuJobFinish s j) := by
  unfold pmuJobFinish
  try dsimp only
  repeat' first
    | with_reducible exact h
    | with_reducible assumption
    | with_reducible apply writeAndEnd_keep
    | with_reducible apply keep_ite
    | split
    | dsimp only
    | (with_reducible refine keep_mk (s := _) ?_ rfl rfl rfl rfl; first | with_reducible exact h | with_reducible assumption | with_reducible apply writeAndEnd_keep | with_reducible apply keep_ite | split)

theorem pmuUnitDone_keep {s0 s : State} (h : Keep s0 s) (j : Option Nat) (c : Nat) (is : List Nat) : Keep s0 (pmuUnitDone s j c is) := by
  unfold pmuUnitDone
  try dsimp only
  repeat' first
    | with_reducible exact h
    | with_reducible assumption
    | with_reducible apply putJob_keep
    | with_reducible apply keep_ite
    | (with_reducible refine keep_foldl ?_ (fun _ _ _ => ?_))
    | split
    | (intro _)
    | dsimp only
    | (with_reducible refine keep_mk (s := _) ?_ rfl rfl rfl rfl; first | with_reducible exact h | with_reducible assumption | with_reducible apply putJob_keep | with_reducible apply keep_ite | (with_reducible refine keep_foldl ?_ (fun _ _ _ => ?_)) | split)

theorem putParam_keep {s0 s : State} (h : Keep s0 s) (j : Option Nat) (c : Nat) (e : ParamEntry) : Keep s0 (putParam s j c e) := by
  unfold putParam
  try dsimp only
  repeat' first
    | with_reducible exact h
    | with_reducible assumption
    | with_reducible apply keep_ite
    | split
    | dsimp only
    | (with_reducible refine keep_mk (s := _) ?_ rfl rfl rfl rfl; first | with_reducible exact h | with_reducible assumption | with_reducible apply keep_ite | split)

theorem pmuRestore_keep {s0 s : State} (h : Keep s0 s) (t : Nat) (p : Nat) (l : List Nat) : Keep s0 (pmuRestore s t p l) := by
  unfold pmuRestore
  try dsimp only
  repeat' first
    | with_reducible exact h
    | with_reducible assumption
    | with_reducible apply wr_keep
    | with_reducible apply keep_ite
    | split
    | (intro _)
    | dsimp only

theorem pmuAbort_keep {s0 s : State} (h : Keep s0 s) (t : Nat) (p : Nat) : Keep s0 (pmuAbort s t p) := by
  unfold pmuAbort
  try dsimp only
  repeat' first
    | with_reducible exact h
    | with_reducible assumption
    | with_reducible apply setF_keep
    | with_reducible apply clrF_keep
    | with_reducible apply putSlice_keep
    | with_reducible apply sliceBoundary_keep
    | with_reducible apply loadSync_keep
    | with_reducible apply pmuJobFinish_keep
    | with_reducible apply pmuUnitDone_keep
    | with_reducible apply putParam_keep
    | with_reducible apply pmuRestore_keep
    | with_reducible apply keep_ite
    | split
    | (intro _)
    | dsimp only
    | (with_reducible refine keep_mk (s := _) ?_ rfl rfl rfl rfl; first | with_reducible exact h | with_reducible assumption | with_reducible apply setF_keep | with_reducible apply clrF_keep | with_reducible apply putSlice_keep | with_reducible apply sliceBoundary_keep | with_reducible apply loadSync_keep | with_reducible apply pmuJobFinish_keep | with_reducible apply pmuUnitDone_keep | with_reducible apply putParam_keep | with_reducible apply pmuRestore_keep | with_reducible apply keep_ite | split)

theorem failCurrent_keep {s0 s : State} (h : Keep s0 s) (t : Nat) (k : Nat) : Keep s0 (failCurrent s t k) := by
  unfold failCurrent
  try dsimp only
  repeat' first
    | with_reducible exact h
    | with_reducible assumption
    | with_reducible apply putTile_keep
    | with_reducible apply keep_ite
    | split
    | (intro _)
    | dsimp only
    | (with_reducible refine keep_mk (s := _) ?_ rfl rfl rfl rfl; first | with_reducible exact h | with_reducible assumption | with_reducible apply putTile_keep | with_reducible apply keep_ite | split)

theorem markSuspect_keep {s0 s : State} (h : Keep s0 s) (t : Nat) (p : Nat) : Keep s0 (markSuspect s t p) := by
  unfold markSuspect
  try dsimp only
  repeat' first
    | with_reducible exact h
    | with_reducible assumption
    | with_reducible apply setF_keep
    | with_reducible apply putTile_keep
    | with_reducible apply failCurrent_keep
    | with_reducible apply keep_ite
    | split
    | (intro _)
    | dsimp only
    | (with_reducible refine keep_mk (s := _) ?_ rfl rfl rfl rfl; first | with_reducible exact h | with_reducible assumption | with_reducible apply setF_keep | with_reducible apply putTile_keep | with_reducible apply failCurrent_keep | with_reducible apply keep_ite | split)

theorem safeEnter_keep {s0 s : State} (h : Keep s0 s) (t : Nat) (p : Nat) (cause : Field) : Keep s0 (safeEnter s t p cause) := by
  unfold safeEnter
  try dsimp only
  repeat' first
    | with_reducible exact h
    | with_reducible assumption
    | with_reducible apply setF_keep
    | with_reducible apply clrF_keep
    | with_reducible apply noteSafe_keep
    | with_reducible apply updSlice_keep
    | with_reducible apply tdcCloseAt_keep
    | with_reducible apply strobesTake_keep
    | with_reducible apply cmpRestart_keep
    | with_reducible apply pmuAbort_keep
    | with_reducible apply markSuspect_keep
    | with_reducible apply keep_ite
    | split
    | (intro _)
    | dsimp only
    | (with_reducible refine keep_mk (s := _) ?_ rfl rfl rfl rfl; first | with_reducible exact h | with_reducible assumption | with_reducible apply setF_keep | with_reducible apply clrF_keep | with_reducible apply noteSafe_keep | with_reducible apply updSlice_keep | with_reducible apply tdcCloseAt_keep | with_reducible apply strobesTake_keep | with_reducible apply cmpRestart_keep | with_reducible apply pmuAbort_keep | with_reducible apply markSuspect_keep | with_reducible apply keep_ite | split)

theorem safeEnterAll_keep {s0 s : State} (h : Keep s0 s) (l : List (Nat × Nat)) (cause : Field) : Keep s0 (safeEnterAll s l cause) := by
  unfold safeEnterAll
  try dsimp only
  repeat' first
    | with_reducible exact h
    | with_reducible assumption
    | with_reducible apply safeEnter_keep
    | with_reducible apply keep_ite
    | (with_reducible refine keep_foldl ?_ (fun _ _ _ => ?_))
    | split
    | (intro _)
    | dsimp only

theorem causeClear_keep {s0 s : State} (h : Keep s0 s) (l : List (Nat × Nat)) (cause : Field) : Keep s0 (causeClear s l cause) := by
  unfold causeClear
  try dsimp only
  repeat' first
    | with_reducible exact h
    | with_reducible assumption
    | with_reducible apply clrF_keep
    | with_reducible apply keep_ite
    | (with_reducible refine keep_foldl ?_ (fun _ _ _ => ?_))
    | split
    | (intro _)
    | dsimp only

theorem safeRelease_keep {s0 s : State} (h : Keep s0 s) (t : Nat) (p : Nat) : Keep s0 (safeRelease s t p) := by
  unfold safeRelease
  try dsimp only
  repeat' first
    | with_reducible exact h
    | with_reducible assumption
    | with_reducible apply clrF_keep
    | with_reducible apply tapNote_keep
    | with_reducible apply cmpRestart_keep
    | with_reducible apply loadSync_keep
    | with_reducible apply keep_ite
    | split
    | dsimp only

theorem safeRel_keep {s0 s : State} (h : Keep s0 s) (t : Nat) (p : Nat) : Keep s0 (safeRel s t p) := by
  unfold safeRel
  try dsimp only
  repeat' first
    | with_reducible exact h
    | with_reducible assumption
    | with_reducible apply clrF_keep
    | with_reducible apply safeRelease_keep
    | with_reducible apply keep_ite
    | split
    | dsimp only

theorem sliceWrite_keep {s0 s : State} (h : Keep s0 s) (t : Nat) (p : Nat) (k : State → State) (hk : ∀ x0, Keep s0 x0 → Keep s0 (k x0)) : Keep s0 (sliceWrite s t p k) := by
  unfold sliceWrite
  try dsimp only
  repeat' first
    | with_reducible exact h
    | with_reducible assumption
    | with_reducible apply setF_keep
    | with_reducible apply keep_ite
    | apply hk
    | split
    | (intro _)
    | dsimp only

theorem execSafeReq_keep {s0 s : State} (h : Keep s0 s) (t : TileIx) (p : SliceIx) : OKeep s0 (execSafeReq t p s) := by
  unfold execSafeReq
  try dsimp only
  repeat' first
    | with_reducible exact h
    | with_reducible assumption
    | with_reducible apply barWrite_keep
    | with_reducible apply safeEnter_keep
    | with_reducible apply sliceWrite_keep
    | with_reducible apply keep_ite
    | with_reducible apply okeep_next
    | with_reducible apply okeep_fault
    | with_reducible apply okeep_ite
    | split
    | (intro _)
    | dsimp only

theorem execSafeRel_keep {s0 s : State} (h : Keep s0 s) (t : TileIx) (p : SliceIx) : OKeep s0 (execSafeRel t p s) := by
  unfold execSafeRel
  try dsimp only
  repeat' first
    | with_reducible exact h
    | with_reducible assumption
    | with_reducible apply barWrite_keep
    | with_reducible apply safeRel_keep
    | with_reducible apply sliceWrite_keep
    | with_reducible apply keep_ite
    | with_reducible apply okeep_next
    | with_reducible apply okeep_fault
    | with_reducible apply okeep_ite
    | split
    | (intro _)
    | dsimp only

theorem drvOvcClear_keep {s0 s : State} (h : Keep s0 s) (t : Nat) (p : Nat) : Keep s0 (drvOvcClear s t p) := by
  unfold drvOvcClear
  try dsimp only
  repeat' first
    | with_reducible exact h
    | with_reducible assumption
    | with_reducible apply clrF_keep
    | with_reducible apply keep_ite
    | split
    | dsimp only

theorem execDrvOvcClear_keep {s0 s : State} (h : Keep s0 s) (t : TileIx) (p : SliceIx) : OKeep s0 (execDrvOvcClear t p s) := by
  unfold execDrvOvcClear
  try dsimp only
  repeat' first
    | with_reducible exact h
    | with_reducible assumption
    | with_reducible apply barWrite_keep
    | with_reducible apply sliceWrite_keep
    | with_reducible apply drvOvcClear_keep
    | with_reducible apply keep_ite
    | with_reducible apply okeep_next
    | with_reducible apply okeep_fault
    | with_reducible apply okeep_ite
    | split
    | (intro _)
    | dsimp only

theorem overcurrent_keep {s0 s : State} (h : Keep s0 s) (t : Nat) (p : Nat) : Keep s0 (overcurrent s t p) := by
  unfold overcurrent
  try dsimp only
  repeat' first
    | with_reducible exact h
    | with_reducible assumption
    | with_reducible apply setF_keep
    | with_reducible apply safeEnter_keep
    | with_reducible apply keep_ite
    | split
    | dsimp only

theorem execDriverOvercurrent_keep {s0 s : State} (h : Keep s0 s) (t : TileIx) (p : SliceIx) : OKeep s0 (execDriverOvercurrent t p s) := by
  unfold execDriverOvercurrent
  try dsimp only
  repeat' first
    | with_reducible exact h
    | with_reducible assumption
    | with_reducible apply signal_keep
    | with_reducible apply overcurrent_keep
    | with_reducible apply keep_ite
    | with_reducible apply okeep_next
    | with_reducible apply okeep_fault
    | with_reducible apply okeep_ite
    | split
    | dsimp only

theorem execClampOvercurrent_keep {s0 s : State} (h : Keep s0 s) (t : TileIx) (p : SliceIx) (high : Bool) : OKeep s0 (execClampOvercurrent t p high s) := by
  unfold execClampOvercurrent
  try dsimp only
  repeat' first
    | with_reducible exact h
    | with_reducible assumption
    | with_reducible apply setF_keep
    | with_reducible apply signal_keep
    | with_reducible apply overcurrent_keep
    | with_reducible apply keep_ite
    | with_reducible apply okeep_next
    | with_reducible apply okeep_fault
    | with_reducible apply okeep_ite
    | split
    | dsimp only

theorem execClampConducts_keep {s0 s : State} (h : Keep s0 s) (t : TileIx) (p : SliceIx) : OKeep s0 (execClampConducts t p s) := by
  unfold execClampConducts
  try dsimp only
  repeat' first
    | with_reducible exact h
    | with_reducible assumption
    | with_reducible apply setF_keep
    | with_reducible apply keep_ite
    | with_reducible apply okeep_next
    | with_reducible apply okeep_fault
    | with_reducible apply okeep_ite
    | split
    | dsimp only

theorem execLoadSaturates_keep {s0 s : State} (h : Keep s0 s) (t : TileIx) (p : SliceIx) : OKeep s0 (execLoadSaturates t p s) := by
  unfold execLoadSaturates
  try dsimp only
  repeat' first
    | with_reducible exact h
    | with_reducible assumption
    | with_reducible apply setF_keep
    | with_reducible apply keep_ite
    | with_reducible apply okeep_next
    | with_reducible apply okeep_fault
    | with_reducible apply okeep_ite
    | split
    | dsimp only

theorem startSwitch_keep {s0 s : State} (h : Keep s0 s) (t : Nat) (p : Nat) (b : Nat) : Keep s0 (startSwitch s t p b) := by
  unfold startSwitch
  try dsimp only
  repeat' first
    | with_reducible exact h
    | with_reducible assumption
    | with_reducible apply wr_keep
    | with_reducible apply setF_keep
    | with_reducible apply updSlice_keep
    | with_reducible apply keep_ite
    | split
    | (intro _)
    | dsimp only
    | (with_reducible refine keep_mk (s := _) ?_ rfl rfl rfl rfl; first | with_reducible exact h | with_reducible assumption | with_reducible apply wr_keep | with_reducible apply setF_keep | with_reducible apply updSlice_keep | with_reducible apply keep_ite | split)

theorem requestSwitch_keep {s0 s : State} (h : Keep s0 s) (t : Nat) (p : Nat) (b : Nat) : Keep s0 (requestSwitch s t p b) := by
  unfold requestSwitch
  try dsimp only
  repeat' first
    | with_reducible exact h
    | with_reducible assumption
    | with_reducible apply wr_keep
    | with_reducible apply setF_keep
    | with_reducible apply startSwitch_keep
    | with_reducible apply keep_ite
    | split
    | dsimp only

theorem lateTake_keep {s0 s : State} (h : Keep s0 s) (t : Nat) (p : Nat) : Keep s0 (lateTake s t p) := by
  unfold lateTake
  try dsimp only
  repeat' first
    | with_reducible exact h
    | with_reducible assumption
    | with_reducible apply updSlice_keep
    | with_reducible apply requestSwitch_keep
    | with_reducible apply keep_ite
    | split
    | (intro _)
    | dsimp only
    | (with_reducible refine keep_mk (s := _) ?_ rfl rfl rfl rfl; first | with_reducible exact h | with_reducible assumption | with_reducible apply updSlice_keep | with_reducible apply requestSwitch_keep | with_reducible apply keep_ite | split)

theorem bankSelect_keep {s0 s : State} (h : Keep s0 s) (t : Nat) (p : Nat) (b : Nat) : Keep s0 (bankSelect s t p b) := by
  unfold bankSelect
  try dsimp only
  repeat' first
    | with_reducible exact h
    | with_reducible assumption
    | with_reducible apply updSlice_keep
    | with_reducible apply requestSwitch_keep
    | with_reducible apply keep_ite
    | split
    | (intro _)
    | dsimp only
    | (with_reducible refine keep_mk (s := _) ?_ rfl rfl rfl rfl; first | with_reducible exact h | with_reducible assumption | with_reducible apply updSlice_keep | with_reducible apply requestSwitch_keep | with_reducible apply keep_ite | split)

theorem placedTake_keep {s0 s : State} (h : Keep s0 s) : Keep s0 (placedTake s) := by
  unfold placedTake
  try dsimp only
  repeat' first
    | with_reducible exact h
    | with_reducible assumption
    | with_reducible apply strobesTake_keep
    | with_reducible apply edgesTake_keep
    | with_reducible apply lateTake_keep
    | with_reducible apply keep_ite
    | (with_reducible refine keep_foldl ?_ (fun _ _ _ => ?_))
    | split
    | (intro _)
    | dsimp only

theorem execBankSelectWrite_keep {s0 s : State} (h : Keep s0 s) (t : TileIx) (p : SliceIx) (b : BankIx) : OKeep s0 (execBankSelectWrite t p b s) := by
  unfold execBankSelectWrite
  try dsimp only
  repeat' first
    | with_reducible exact h
    | with_reducible assumption
    | with_reducible apply wr_keep
    | with_reducible apply barWrite_keep
    | with_reducible apply sliceWrite_keep
    | with_reducible apply bankSelect_keep
    | with_reducible apply keep_ite
    | with_reducible apply okeep_next
    | with_reducible apply okeep_fault
    | with_reducible apply okeep_ite
    | split
    | (intro _)
    | dsimp only

theorem bankFieldWrite_keep {s0 s : State} (h : Keep s0 s) (t : Nat) (p : Nat) (b : Nat) (f : Nat) (v : Nat) : Keep s0 (bankFieldWrite s t p b f v) := by
  unfold bankFieldWrite
  try dsimp only
  repeat' first
    | with_reducible exact h
    | with_reducible assumption
    | with_reducible apply wri_keep
    | with_reducible apply updSlice_keep
    | with_reducible apply keep_ite
    | split
    | (intro _)
    | dsimp only
    | (with_reducible refine keep_mk (s := _) ?_ rfl rfl rfl rfl; first | with_reducible exact h | with_reducible assumption | with_reducible apply wri_keep | with_reducible apply updSlice_keep | with_reducible apply keep_ite | split)

theorem execBankFieldWrite_keep {s0 s : State} (h : Keep s0 s) (t : TileIx) (p : SliceIx) (b : BankIx) (f : Fin 11) (v : Word) : OKeep s0 (execBankFieldWrite t p b f v s) := by
  unfold execBankFieldWrite
  try dsimp only
  repeat' first
    | with_reducible exact h
    | with_reducible assumption
    | with_reducible apply barWrite_keep
    | with_reducible apply sliceWrite_keep
    | with_reducible apply bankFieldWrite_keep
    | with_reducible apply keep_ite
    | with_reducible apply okeep_next
    | with_reducible apply okeep_fault
    | with_reducible apply okeep_ite
    | split
    | (intro _)
    | dsimp only

theorem glideEnd_keep {s0 s : State} (h : Keep s0 s) (t : Nat) (p : Nat) (g : Glide) : Keep s0 (glideEnd s t p g) := by
  unfold glideEnd
  try dsimp only
  repeat' first
    | with_reducible exact h
    | with_reducible assumption
    | with_reducible apply wr_keep
    | with_reducible apply clrF_keep
    | with_reducible apply updSlice_keep
    | with_reducible apply startSwitch_keep
    | with_reducible apply keep_ite
    | split
    | (intro _)
    | dsimp only
    | (with_reducible refine keep_mk (s := _) ?_ rfl rfl rfl rfl; first | with_reducible exact h | with_reducible assumption | with_reducible apply wr_keep | with_reducible apply clrF_keep | with_reducible apply updSlice_keep | with_reducible apply startSwitch_keep | with_reducible apply keep_ite | split)

theorem execGlideUpdate_keep {s0 s : State} (h : Keep s0 s) (t : TileIx) (p : SliceIx) : OKeep s0 (execGlideUpdate t p s) := by
  unfold execGlideUpdate
  try dsimp only
  repeat' first
    | with_reducible exact h
    | with_reducible assumption
    | with_reducible apply wr_keep
    | with_reducible apply updSlice_keep
    | with_reducible apply glideEnd_keep
    | with_reducible apply keep_ite
    | with_reducible apply okeep_next
    | with_reducible apply okeep_fault
    | with_reducible apply okeep_ite
    | split
    | (intro _)
    | dsimp only
    | (with_reducible refine keep_mk (s := _) ?_ rfl rfl rfl rfl; first | with_reducible exact h | with_reducible assumption | with_reducible apply wr_keep | with_reducible apply updSlice_keep | with_reducible apply glideEnd_keep | with_reducible apply keep_ite | with_reducible apply okeep_next | with_reducible apply okeep_fault | with_reducible apply okeep_ite | split)

theorem banksReset_keep {s0 s : State} (h : Keep s0 s) (t p : Nat) : Keep s0 (banksReset s t p) :=
  keep_regs h rfl rfl rfl fun hr => mapRising_filter _ _ _ (mapRising_filter _ _ _ hr)

theorem connectPmu_keep {s0 s : State} (h : Keep s0 s) (t : Nat) (p : Nat) : Keep s0 (connectPmu s t p) := by
  unfold connectPmu
  try dsimp only
  repeat' first
    | with_reducible exact h
    | with_reducible assumption
    | with_reducible apply setF_keep
    | with_reducible apply updSlice_keep
    | with_reducible apply keep_ite
    | split
    | (intro _)
    | dsimp only
    | (with_reducible refine keep_mk (s := _) ?_ rfl rfl rfl rfl; first | with_reducible exact h | with_reducible assumption | with_reducible apply setF_keep | with_reducible apply updSlice_keep | with_reducible apply keep_ite | split)

theorem sliceS_keep {s0 s : State} (h : Keep s0 s) (t : Nat) (p : Nat) (eq : Bool) (k : State → State) (hk : ∀ x0, Keep s0 x0 → Keep s0 (k x0)) : Keep s0 (sliceS s t p eq k) := by
  unfold sliceS
  try dsimp only
  repeat' first
    | with_reducible exact h
    | with_reducible assumption
    | with_reducible apply setF_keep
    | with_reducible apply keep_ite
    | apply hk
    | split
    | (intro _)
    | dsimp only

theorem execPmuConnect_keep {s0 s : State} (h : Keep s0 s) (t : TileIx) (p : SliceIx) : OKeep s0 (execPmuConnect t p s) := by
  unfold execPmuConnect
  try dsimp only
  repeat' first
    | with_reducible exact h
    | with_reducible assumption
    | with_reducible apply clrF_keep
    | with_reducible apply barWrite_keep
    | with_reducible apply sliceWrite_keep
    | with_reducible apply connectPmu_keep
    | with_reducible apply sliceS_keep
    | with_reducible apply keep_ite
    | with_reducible apply okeep_next
    | with_reducible apply okeep_fault
    | with_reducible apply okeep_ite
    | split
    | (intro _)
    | dsimp only

theorem pmuDisconnect_keep {s0 s : State} (h : Keep s0 s) (t : Nat) (p : Nat) : Keep s0 (pmuDisconnect s t p) := by
  unfold pmuDisconnect
  try dsimp only
  repeat' first
    | with_reducible exact h
    | with_reducible assumption
    | with_reducible apply clrF_keep
    | with_reducible apply loadSync_keep
    | with_reducible apply pmuAbort_keep
    | with_reducible apply keep_ite
    | split
    | dsimp only

theorem execPmuDisconnect_keep {s0 s : State} (h : Keep s0 s) (t : TileIx) (p : SliceIx) : OKeep s0 (execPmuDisconnect t p s) := by
  unfold execPmuDisconnect
  try dsimp only
  repeat' first
    | with_reducible exact h
    | with_reducible assumption
    | with_reducible apply barWrite_keep
    | with_reducible apply sliceWrite_keep
    | with_reducible apply pmuDisconnect_keep
    | with_reducible apply keep_ite
    | with_reducible apply okeep_next
    | with_reducible apply okeep_fault
    | with_reducible apply okeep_ite
    | split
    | (intro _)
    | dsimp only

theorem pmuStart_keep {s0 s : State} (h : Keep s0 s) (t : Nat) (p : Nat) (j : Option Nat) : Keep s0 (pmuStart s t p j) := by
  unfold pmuStart
  try dsimp only
  repeat' first
    | with_reducible exact h
    | with_reducible assumption
    | with_reducible apply setF_keep
    | with_reducible apply clrF_keep
    | with_reducible apply updSlice_keep
    | with_reducible apply keep_ite
    | split
    | (intro _)
    | dsimp only
    | (with_reducible refine keep_mk (s := _) ?_ rfl rfl rfl rfl; first | with_reducible exact h | with_reducible assumption | with_reducible apply setF_keep | with_reducible apply clrF_keep | with_reducible apply updSlice_keep | with_reducible apply keep_ite | split)

theorem execPmuStart_keep {s0 s : State} (h : Keep s0 s) (t : TileIx) (p : SliceIx) : OKeep s0 (execPmuStart t p s) := by
  unfold execPmuStart
  try dsimp only
  repeat' first
    | with_reducible exact h
    | with_reducible assumption
    | with_reducible apply barWrite_keep
    | with_reducible apply sliceWrite_keep
    | with_reducible apply pmuStart_keep
    | with_reducible apply keep_ite
    | with_reducible apply okeep_next
    | with_reducible apply okeep_fault
    | with_reducible apply okeep_ite
    | split
    | (intro _)
    | dsimp only

theorem execPmuMeasureDone_keep {s0 s : State} (h : Keep s0 s) (t : TileIx) (p : SliceIx) (conv : List Int) (limit : Option Bool) (clamped : Bool) : OKeep s0 (execPmuMeasureDone t p conv limit clamped s) := by
  unfold execPmuMeasureDone
  try dsimp only
  repeat' first
    | with_reducible exact h
    | with_reducible assumption
    | with_reducible apply wr_keep
    | with_reducible apply setF_keep
    | with_reducible apply clrF_keep
    | with_reducible apply raiseRole_keep
    | with_reducible apply updSlice_keep
    | with_reducible apply sliceBoundary_keep
    | with_reducible apply loadSync_keep
    | with_reducible apply pmuJobFinish_keep
    | with_reducible apply pmuUnitDone_keep
    | with_reducible apply putParam_keep
    | with_reducible apply pmuDisconnect_keep
    | with_reducible apply keep_ite
    | with_reducible apply okeep_next
    | with_reducible apply okeep_fault
    | with_reducible apply okeep_ite
    | split
    | (intro _)
    | dsimp only
    | (with_reducible refine keep_mk (s := _) ?_ rfl rfl rfl rfl; first | with_reducible exact h | with_reducible assumption | with_reducible apply wr_keep | with_reducible apply setF_keep | with_reducible apply clrF_keep | with_reducible apply raiseRole_keep | with_reducible apply updSlice_keep | with_reducible apply sliceBoundary_keep | with_reducible apply loadSync_keep | with_reducible apply pmuJobFinish_keep | with_reducible apply pmuUnitDone_keep | with_reducible apply putParam_keep | with_reducible apply pmuDisconnect_keep | with_reducible apply keep_ite | with_reducible apply okeep_next | with_reducible apply okeep_fault | with_reducible apply okeep_ite | split)

theorem contactStart_keep {s0 s : State} (h : Keep s0 s) (t : Nat) (p : Nat) (j : Option Nat) : Keep s0 (contactStart s t p j) := by
  unfold contactStart
  try dsimp only
  repeat' first
    | with_reducible exact h
    | with_reducible assumption
    | with_reducible apply wr_keep
    | with_reducible apply setF_keep
    | with_reducible apply clrF_keep
    | with_reducible apply updSlice_keep
    | with_reducible apply connectPmu_keep
    | with_reducible apply keep_ite
    | split
    | (intro _)
    | dsimp only
    | (with_reducible refine keep_mk (s := _) ?_ rfl rfl rfl rfl; first | with_reducible exact h | with_reducible assumption | with_reducible apply wr_keep | with_reducible apply setF_keep | with_reducible apply clrF_keep | with_reducible apply updSlice_keep | with_reducible apply connectPmu_keep | with_reducible apply keep_ite | split)

theorem execContactCheckStart_keep {s0 s : State} (h : Keep s0 s) (t : TileIx) (p : SliceIx) : OKeep s0 (execContactCheckStart t p s) := by
  unfold execContactCheckStart
  try dsimp only
  repeat' first
    | with_reducible exact h
    | with_reducible assumption
    | with_reducible apply barWrite_keep
    | with_reducible apply sliceWrite_keep
    | with_reducible apply contactStart_keep
    | with_reducible apply keep_ite
    | with_reducible apply okeep_next
    | with_reducible apply okeep_fault
    | with_reducible apply okeep_ite
    | split
    | (intro _)
    | dsimp only

theorem execContactCheckDone_keep {s0 s : State} (h : Keep s0 s) (t : TileIx) (p : SliceIx) (conv : List Int) (clamped : Bool) : OKeep s0 (execContactCheckDone t p conv clamped s) := by
  unfold execContactCheckDone
  try dsimp only
  repeat' first
    | with_reducible exact h
    | with_reducible assumption
    | with_reducible apply wr_keep
    | with_reducible apply setF_keep
    | with_reducible apply clrF_keep
    | with_reducible apply updSlice_keep
    | with_reducible apply sliceBoundary_keep
    | with_reducible apply loadSync_keep
    | with_reducible apply pmuJobFinish_keep
    | with_reducible apply pmuUnitDone_keep
    | with_reducible apply pmuRestore_keep
    | with_reducible apply keep_ite
    | with_reducible apply okeep_next
    | with_reducible apply okeep_fault
    | with_reducible apply okeep_ite
    | split
    | (intro _)
    | dsimp only
    | (with_reducible refine keep_mk (s := _) ?_ rfl rfl rfl rfl; first | with_reducible exact h | with_reducible assumption | with_reducible apply wr_keep | with_reducible apply setF_keep | with_reducible apply clrF_keep | with_reducible apply updSlice_keep | with_reducible apply sliceBoundary_keep | with_reducible apply loadSync_keep | with_reducible apply pmuJobFinish_keep | with_reducible apply pmuUnitDone_keep | with_reducible apply pmuRestore_keep | with_reducible apply keep_ite | with_reducible apply okeep_next | with_reducible apply okeep_fault | with_reducible apply okeep_ite | split)

theorem parametricChan_keep {s0 s : State} (h : Keep s0 s) (x : Job) (j : Nat) (c : Nat) : Keep s0 (parametricChan x j s c) := by
  unfold parametricChan
  try dsimp only
  repeat' first
    | with_reducible exact h
    | with_reducible assumption
    | with_reducible apply wr_keep
    | with_reducible apply pmuUnitDone_keep
    | with_reducible apply putParam_keep
    | with_reducible apply connectPmu_keep
    | with_reducible apply pmuStart_keep
    | with_reducible apply keep_ite
    | split
    | (intro _)
    | dsimp only

theorem execParametric_keep {s0 s : State} (h : Keep s0 s) (j : Nat) : OKeep s0 (execParametric j s) := by
  unfold execParametric
  try dsimp only
  repeat' first
    | with_reducible exact h
    | with_reducible assumption
    | with_reducible apply endJob_keep
    | with_reducible apply needBytes_keep
    | with_reducible apply setWork_keep
    | with_reducible apply pmuJobFinish_keep
    | with_reducible apply parametricChan_keep
    | with_reducible apply keep_ite
    | with_reducible apply okeep_next
    | with_reducible apply okeep_fault
    | with_reducible apply okeep_ite
    | (with_reducible refine keep_foldl ?_ (fun _ _ _ => ?_))
    | split
    | (intro _)
    | dsimp only
    | (with_reducible refine keep_mk (s := _) ?_ rfl rfl rfl rfl; first | with_reducible exact h | with_reducible assumption | with_reducible apply endJob_keep | with_reducible apply needBytes_keep | with_reducible apply setWork_keep | with_reducible apply pmuJobFinish_keep | with_reducible apply parametricChan_keep | with_reducible apply keep_ite | with_reducible apply okeep_next | with_reducible apply okeep_fault | with_reducible apply okeep_ite | (with_reducible refine keep_foldl ?_ (fun _ _ _ => ?_)) | split)

theorem contactChan_keep {s0 s : State} (h : Keep s0 s) (j : Nat) (c : Nat) : Keep s0 (contactChan j s c) := by
  unfold contactChan
  try dsimp only
  repeat' first
    | with_reducible exact h
    | with_reducible assumption
    | with_reducible apply pmuUnitDone_keep
    | with_reducible apply contactStart_keep
    | with_reducible apply keep_ite
    | split
    | dsimp only

theorem execContactCheck_keep {s0 s : State} (h : Keep s0 s) (j : Nat) : OKeep s0 (execContactCheck j s) := by
  unfold execContactCheck
  try dsimp only
  repeat' first
    | with_reducible exact h
    | with_reducible assumption
    | with_reducible apply endJob_keep
    | with_reducible apply needBytes_keep
    | with_reducible apply setWork_keep
    | with_reducible apply pmuJobFinish_keep
    | with_reducible apply contactChan_keep
    | with_reducible apply keep_ite
    | with_reducible apply okeep_next
    | with_reducible apply okeep_fault
    | with_reducible apply okeep_ite
    | (with_reducible refine keep_foldl ?_ (fun _ _ _ => ?_))
    | split
    | (intro _)
    | dsimp only
    | (with_reducible refine keep_mk (s := _) ?_ rfl rfl rfl rfl; first | with_reducible exact h | with_reducible assumption | with_reducible apply endJob_keep | with_reducible apply needBytes_keep | with_reducible apply setWork_keep | with_reducible apply pmuJobFinish_keep | with_reducible apply contactChan_keep | with_reducible apply keep_ite | with_reducible apply okeep_next | with_reducible apply okeep_fault | with_reducible apply okeep_ite | (with_reducible refine keep_foldl ?_ (fun _ _ _ => ?_)) | split)

end Sys2Proof.Machine
end

