-- ==== Sys2Proof/Laws/KeepVclock.lean ====
section
/-! SUPPORT. The operations of Machine/Vclock.lean leave the queue alone and keep memories and registers canonical. -/
set_option maxRecDepth 4000
set_option linter.all false
namespace Sys2Proof.Machine

theorem setVcnt_keep {s0 s : State} (h : Keep s0 s) (t : Nat) (n : Nat) : Keep s0 (setVcnt s t n) := by
  unfold setVcnt
  try dsimp only
  repeat' first
    | with_reducible exact h
    | with_reducible assumption
    | with_reducible apply wr64_keep
    | with_reducible apply keep_ite
    | split
    | dsimp only

theorem vclkRefuse_keep {s0 s : State} (h : Keep s0 s) (t : Nat) (cause : Nat) : Keep s0 (vclkRefuse s t cause) := by
  unfold vclkRefuse
  try dsimp only
  repeat' first
    | with_reducible exact h
    | with_reducible assumption
    | with_reducible apply wr_keep
    | with_reducible apply setF_keep
    | with_reducible apply keep_ite
    | split
    | dsimp only

theorem vclkEnable_keep {s0 s : State} (h : Keep s0 s) (t : Nat) : Keep s0 (vclkEnable s t) := by
  unfold vclkEnable
  try dsimp only
  repeat' first
    | with_reducible exact h
    | with_reducible assumption
    | with_reducible apply wr_keep
    | with_reducible apply setF_keep
    | with_reducible apply updTile_keep
    | with_reducible apply setVcnt_keep
    | with_reducible apply vclkRefuse_keep
    | with_reducible apply keep_ite
    | split
    | (intro _)
    | dsimp only
    | (with_reducible refine keep_mk (s := _) ?_ rfl rfl rfl rfl; first | with_reducible exact h | with_reducible assumption | with_reducible apply wr_keep | with_reducible apply setF_keep | with_reducible apply updTile_keep | with_reducible apply setVcnt_keep | with_reducible apply vclkRefuse_keep | with_reducible apply keep_ite | split)

theorem execVclkEnable_keep {s0 s : State} (h : Keep s0 s) (t : TileIx) : OKeep s0 (execVclkEnable t s) := by
  unfold execVclkEnable
  try dsimp only
  repeat' first
    | with_reducible exact h
    | with_reducible assumption
    | with_reducible apply barWrite_keep
    | with_reducible apply vclkEnable_keep
    | with_reducible apply keep_ite
    | with_reducible apply okeep_next
    | with_reducible apply okeep_fault
    | with_reducible apply okeep_ite
    | split
    | (intro _)
    | dsimp only

theorem vclkDisable_keep {s0 s : State} (h : Keep s0 s) (t : Nat) : Keep s0 (vclkDisable s t) := by
  unfold vclkDisable
  try dsimp only
  repeat' first
    | with_reducible exact h
    | with_reducible assumption
    | with_reducible apply setF_keep
    | with_reducible apply clrF_keep
    | with_reducible apply keep_ite
    | split
    | dsimp only

theorem execVclkDisable_keep {s0 s : State} (h : Keep s0 s) (t : TileIx) : OKeep s0 (execVclkDisable t s) := by
  unfold execVclkDisable
  try dsimp only
  repeat' first
    | with_reducible exact h
    | with_reducible assumption
    | with_reducible apply barWrite_keep
    | with_reducible apply vclkDisable_keep
    | with_reducible apply keep_ite
    | with_reducible apply okeep_next
    | with_reducible apply okeep_fault
    | with_reducible apply okeep_ite
    | split
    | (intro _)
    | dsimp only

theorem armApply_keep {s0 s : State} (h : Keep s0 s) (tiles : List Nat) (ftw : Nat) (tc : Nat) (job : Option Nat) : Keep s0 (armApply s tiles ftw tc job) := by
  unfold armApply
  try dsimp only
  repeat' first
    | with_reducible exact h
    | with_reducible assumption
    | with_reducible apply setF_keep
    | with_reducible apply wr64_keep
    | with_reducible apply wrTime_keep
    | with_reducible apply endJob?_keep
    | with_reducible apply updTile_keep
    | with_reducible apply keep_ite
    | (with_reducible refine keep_foldl ?_ (fun _ _ _ => ?_))
    | split
    | (intro _)
    | dsimp only
    | (with_reducible refine keep_mk (s := _) ?_ rfl rfl rfl rfl; first | with_reducible exact h | with_reducible assumption | with_reducible apply setF_keep | with_reducible apply wr64_keep | with_reducible apply wrTime_keep | with_reducible apply endJob?_keep | with_reducible apply updTile_keep | with_reducible apply keep_ite | (with_reducible refine keep_foldl ?_ (fun _ _ _ => ?_)) | split)

theorem vclkArmAt_keep {s0 s : State} (h : Keep s0 s) (t : Nat) (ftw : Nat) (tc : Nat) : Keep s0 (vclkArmAt s t ftw tc) := by
  unfold vclkArmAt
  try dsimp only
  repeat' first
    | with_reducible exact h
    | with_reducible assumption
    | with_reducible apply vclkRefuse_keep
    | with_reducible apply armApply_keep
    | with_reducible apply keep_ite
    | split
    | dsimp only
    | (with_reducible refine keep_mk (s := _) ?_ rfl rfl rfl rfl; first | with_reducible exact h | with_reducible assumption | with_reducible apply vclkRefuse_keep | with_reducible apply armApply_keep | with_reducible apply keep_ite | split)

theorem vclkArm_keep {s0 s : State} (h : Keep s0 s) (t : Nat) : Keep s0 (vclkArm s t) := by
  unfold vclkArm
  try dsimp only
  repeat' first
    | with_reducible exact h
    | with_reducible assumption
    | with_reducible apply vclkArmAt_keep
    | with_reducible apply keep_ite
    | split
    | dsimp only

theorem execVclkArm_keep {s0 s : State} (h : Keep s0 s) (t : TileIx) : OKeep s0 (execVclkArm t s) := by
  unfold execVclkArm
  try dsimp only
  repeat' first
    | with_reducible exact h
    | with_reducible assumption
    | with_reducible apply barWrite_keep
    | with_reducible apply vclkArm_keep
    | with_reducible apply keep_ite
    | with_reducible apply okeep_next
    | with_reducible apply okeep_fault
    | with_reducible apply okeep_ite
    | split
    | (intro _)
    | dsimp only

theorem vclkCancel_keep {s0 s : State} (h : Keep s0 s) (t : Nat) : Keep s0 (vclkCancel s t) := by
  unfold vclkCancel
  try dsimp only
  repeat' first
    | with_reducible exact h
    | with_reducible assumption
    | with_reducible apply clrF_keep
    | with_reducible apply endJob?_keep
    | with_reducible apply updTile_keep
    | with_reducible apply vclkRefuse_keep
    | with_reducible apply keep_ite
    | (with_reducible refine keep_foldl ?_ (fun _ _ _ => ?_))
    | split
    | (intro _)
    | dsimp only
    | (with_reducible refine keep_mk (s := _) ?_ rfl rfl rfl rfl; first | with_reducible exact h | with_reducible assumption | with_reducible apply clrF_keep | with_reducible apply endJob?_keep | with_reducible apply updTile_keep | with_reducible apply vclkRefuse_keep | with_reducible apply keep_ite | (with_reducible refine keep_foldl ?_ (fun _ _ _ => ?_)) | split)

theorem execVclkCancel_keep {s0 s : State} (h : Keep s0 s) (t : TileIx) : OKeep s0 (execVclkCancel t s) := by
  unfold execVclkCancel
  try dsimp only
  repeat' first
    | with_reducible exact h
    | with_reducible assumption
    | with_reducible apply barWrite_keep
    | with_reducible apply vclkCancel_keep
    | with_reducible apply keep_ite
    | with_reducible apply okeep_next
    | with_reducible apply okeep_fault
    | with_reducible apply okeep_ite
    | split
    | (intro _)
    | dsimp only

theorem applyPeriod_keep {s0 s : State} (h : Keep s0 s) (t : Nat) (n : Nat) : Keep s0 (applyPeriod s t n) := by
  unfold applyPeriod
  try dsimp only
  repeat' first
    | with_reducible exact h
    | with_reducible assumption
    | with_reducible apply wr_keep
    | with_reducible apply setF_keep
    | with_reducible apply clrF_keep
    | with_reducible apply wr64_keep
    | with_reducible apply wrTime_keep
    | with_reducible apply endJob_keep
    | with_reducible apply updTile_keep
    | with_reducible apply keep_ite
    | split
    | (intro _)
    | dsimp only
    | (with_reducible refine keep_mk (s := _) ?_ rfl rfl rfl rfl; first | with_reducible exact h | with_reducible assumption | with_reducible apply wr_keep | with_reducible apply setF_keep | with_reducible apply clrF_keep | with_reducible apply wr64_keep | with_reducible apply wrTime_keep | with_reducible apply endJob_keep | with_reducible apply updTile_keep | with_reducible apply keep_ite | split)

theorem tdcDue_keep {s0 s : State} (h : Keep s0 s) (t : Nat) (k : Nat) (f : Nat) (n : Nat) (valid : Bool) : Keep s0 (tdcDue s t k f n valid) := by
  unfold tdcDue
  try dsimp only
  repeat' first
    | with_reducible exact h
    | with_reducible assumption
    | with_reducible apply putTile_keep
    | with_reducible apply keep_ite
    | split
    | dsimp only
    | (with_reducible refine keep_mk (s := _) ?_ rfl rfl rfl rfl; first | with_reducible exact h | with_reducible assumption | with_reducible apply putTile_keep | with_reducible apply keep_ite | split)

theorem execTdcStop_keep {s0 s : State} (h : Keep s0 s) (t : TileIx) (k : PosIx) (core : Fin 2) (edge : Fin 4) (ks : Nat) (code : Fin 1024) (undecided : Bool) : OKeep s0 (execTdcStop t k core edge ks code undecided s) := by
  unfold execTdcStop
  try dsimp only
  repeat' first
    | with_reducible exact h
    | with_reducible assumption
    | with_reducible apply putTile_keep
    | with_reducible apply keep_ite
    | with_reducible apply okeep_next
    | with_reducible apply okeep_fault
    | with_reducible apply okeep_ite
    | split
    | dsimp only
    | (with_reducible refine keep_mk (s := _) ?_ rfl rfl rfl rfl; first | with_reducible exact h | with_reducible assumption | with_reducible apply putTile_keep | with_reducible apply keep_ite | with_reducible apply okeep_next | with_reducible apply okeep_fault | with_reducible apply okeep_ite | split)

theorem execTdcWindowClose_keep {s0 s : State} (h : Keep s0 s) (t : TileIx) (k : PosIx) (core : Fin 2) : OKeep s0 (execTdcWindowClose t k core s) := by
  unfold execTdcWindowClose
  try dsimp only
  repeat' first
    | with_reducible exact h
    | with_reducible assumption
    | with_reducible apply tdcClose_keep
    | with_reducible apply keep_ite
    | with_reducible apply okeep_next
    | with_reducible apply okeep_fault
    | with_reducible apply okeep_ite
    | split
    | dsimp only

theorem execTdcRecordWrite_keep {s0 s : State} (h : Keep s0 s) (t : TileIx) : OKeep s0 (execTdcRecordWrite t s) := by
  unfold execTdcRecordWrite
  try dsimp only
  repeat' first
    | with_reducible exact h
    | with_reducible assumption
    | with_reducible apply putTile_keep
    | with_reducible apply keep_ite
    | with_reducible apply okeep_next
    | with_reducible apply okeep_fault
    | with_reducible apply okeep_ite
    | split
    | dsimp only
    | (with_reducible refine keep_mk (s := _) ?_ rfl rfl rfl rfl; first | with_reducible exact h | with_reducible assumption | with_reducible apply putTile_keep | with_reducible apply keep_ite | with_reducible apply okeep_next | with_reducible apply okeep_fault | with_reducible apply okeep_ite | split)

end Sys2Proof.Machine
end

