-- ==== Sys2Proof/Laws/KeepAcquire.lean ====
section
/-! SUPPORT. The operations of Machine/Acquire.lean leave the queue alone and keep memories and registers canonical. -/
set_option maxRecDepth 4000
set_option linter.all false
namespace Sys2Proof.Machine

theorem memBoundary_keep {s0 s : State} (h : Keep s0 s) : Keep s0 (memBoundary s) := by
  unfold memBoundary
  try dsimp only
  repeat' first
    | with_reducible exact h
    | with_reducible assumption
    | with_reducible apply applyShadow_keep
    | with_reducible apply keep_ite
    | split
    | dsimp only

theorem poolBack_keep {s0 s : State} (h : Keep s0 s) (base : Nat) (bytes : Nat) : Keep s0 (poolBack s base bytes) := by
  unfold poolBack
  try dsimp only
  repeat' first
    | with_reducible exact h
    | with_reducible assumption
    | with_reducible apply setF_keep
    | with_reducible apply askBi_keep
    | with_reducible apply keep_ite
    | (with_reducible refine keep_foldl ?_ (fun _ _ _ => ?_))
    | split
    | (intro _)
    | dsimp only

theorem poolStore_keep {s0 s : State} (h : Keep s0 s) (q : Nat) (lo : Field) (hi : Field) (size : Field) (r : Nat) (v : Nat) : Keep s0 (poolStore s q lo hi size r v) := by
  unfold poolStore
  try dsimp only
  repeat' first
    | with_reducible exact h
    | with_reducible assumption
    | with_reducible apply wr_keep
    | with_reducible apply poolBack_keep
    | with_reducible apply keep_ite
    | split
    | dsimp only

theorem poolIgnored_keep {s0 s : State} (h : Keep s0 s) (q : Nat) (lo : Field) (hi : Field) (size : Field) (r : Nat) (v : Nat) (who : Option Nat) : Keep s0 (poolIgnored s q lo hi size r v who) := by
  unfold poolIgnored
  try dsimp only
  repeat' first
    | with_reducible exact h
    | with_reducible assumption
    | with_reducible apply recordAccess_keep
    | with_reducible apply keep_ite
    | split
    | dsimp only

theorem acqPoolWrite_keep {s0 s : State} (h : Keep s0 s) (q : Nat) (r : Nat) (v : Nat) (who : Option Nat) : Keep s0 (acqPoolWrite s q r v who) := by
  unfold acqPoolWrite
  try dsimp only
  repeat' first
    | with_reducible exact h
    | with_reducible assumption
    | with_reducible apply wr_keep
    | with_reducible apply updDig_keep
    | with_reducible apply poolStore_keep
    | with_reducible apply poolIgnored_keep
    | with_reducible apply keep_ite
    | split
    | (intro _)
    | dsimp only
    | (with_reducible refine keep_mk (s := _) ?_ rfl rfl rfl rfl; first | with_reducible exact h | with_reducible assumption | with_reducible apply wr_keep | with_reducible apply updDig_keep | with_reducible apply poolStore_keep | with_reducible apply poolIgnored_keep | with_reducible apply keep_ite | split)

theorem execAcqPoolWrite_keep {s0 s_1 : State} (h : Keep s0 s_1) (s : SectorIx) (r : Fin 3) (v : Word) : OKeep s0 (execAcqPoolWrite s r v s_1) := by
  unfold execAcqPoolWrite
  try dsimp only
  repeat' first
    | with_reducible exact h
    | with_reducible assumption
    | with_reducible apply barWrite_keep
    | with_reducible apply acqPoolWrite_keep
    | with_reducible apply keep_ite
    | with_reducible apply okeep_next
    | with_reducible apply okeep_fault
    | with_reducible apply okeep_ite
    | split
    | (intro _)
    | dsimp only

theorem digFinish_keep {s0 s : State} (h : Keep s0 s) (q : Nat) : Keep s0 (digFinish s q) := by
  unfold digFinish
  try dsimp only
  repeat' first
    | with_reducible exact h
    | with_reducible assumption
    | with_reducible apply putDig_keep
    | with_reducible apply endJob_keep
    | with_reducible apply keep_ite
    | split
    | dsimp only
    | (with_reducible refine keep_mk (s := _) ?_ rfl rfl rfl rfl; first | with_reducible exact h | with_reducible assumption | with_reducible apply putDig_keep | with_reducible apply endJob_keep | with_reducible apply keep_ite | split)

theorem digHalt_keep {s0 s : State} (h : Keep s0 s) (q : Nat) (cause : Nat) (st : Nat) : Keep s0 (digHalt s q cause st) := by
  unfold digHalt
  try dsimp only
  repeat' first
    | with_reducible exact h
    | with_reducible assumption
    | with_reducible apply wr_keep
    | with_reducible apply updDig_keep
    | with_reducible apply applyShadow_keep
    | with_reducible apply setDigState_keep
    | with_reducible apply memBoundary_keep
    | with_reducible apply digFinish_keep
    | with_reducible apply keep_ite
    | split
    | (intro _)
    | dsimp only
    | (with_reducible refine keep_mk (s := _) ?_ rfl rfl rfl rfl; first | with_reducible exact h | with_reducible assumption | with_reducible apply wr_keep | with_reducible apply updDig_keep | with_reducible apply applyShadow_keep | with_reducible apply setDigState_keep | with_reducible apply memBoundary_keep | with_reducible apply digFinish_keep | with_reducible apply keep_ite | split)

theorem countMissed_keep {s0 s : State} (h : Keep s0 s) (q : Nat) : Keep s0 (countMissed s q) := by
  unfold countMissed
  try dsimp only
  repeat' first
    | with_reducible exact h
    | with_reducible assumption
    | with_reducible apply setF_keep
    | with_reducible apply incF_keep
    | with_reducible apply updDig_keep
    | with_reducible apply keep_ite
    | split
    | (intro _)
    | dsimp only
    | (with_reducible refine keep_mk (s := _) ?_ rfl rfl rfl rfl; first | with_reducible exact h | with_reducible assumption | with_reducible apply setF_keep | with_reducible apply incF_keep | with_reducible apply updDig_keep | with_reducible apply keep_ite | split)

theorem countEarly_keep {s0 s : State} (h : Keep s0 s) (q : Nat) : Keep s0 (countEarly s q) := by
  unfold countEarly
  try dsimp only
  repeat' first
    | with_reducible exact h
    | with_reducible assumption
    | with_reducible apply setF_keep
    | with_reducible apply incF_keep
    | with_reducible apply updDig_keep
    | with_reducible apply keep_ite
    | split
    | (intro _)
    | dsimp only
    | (with_reducible refine keep_mk (s := _) ?_ rfl rfl rfl rfl; first | with_reducible exact h | with_reducible assumption | with_reducible apply setF_keep | with_reducible apply incF_keep | with_reducible apply updDig_keep | with_reducible apply keep_ite | split)

theorem acceptTrigger_keep {s0 s : State} (h : Keep s0 s) (q : Nat) (src : Nat) (tau : Nat) (jt : Nat) (tfrac : Nat) (pre : Nat) (short : Bool) : Keep s0 (acceptTrigger s q src tau jt tfrac pre short) := by
  unfold acceptTrigger
  try dsimp only
  repeat' first
    | with_reducible exact h
    | with_reducible assumption
    | with_reducible apply putDig_keep
    | with_reducible apply setDigState_keep
    | with_reducible apply keep_ite
    | split
    | dsimp only
    | (with_reducible refine keep_mk (s := _) ?_ rfl rfl rfl rfl; first | with_reducible exact h | with_reducible assumption | with_reducible apply putDig_keep | with_reducible apply setDigState_keep | with_reducible apply keep_ite | split)

theorem judgeTrigger_keep {s0 s : State} (h : Keep s0 s) (q : Nat) (src : Nat) (tau : Nat) : Keep s0 (judgeTrigger s q src tau) := by
  unfold judgeTrigger
  try dsimp only
  repeat' first
    | with_reducible exact h
    | with_reducible assumption
    | with_reducible apply countMissed_keep
    | with_reducible apply countEarly_keep
    | with_reducible apply acceptTrigger_keep
    | with_reducible apply keep_ite
    | split
    | (intro _)
    | dsimp only

theorem undoTrigger_keep {s0 s : State} (h : Keep s0 s) (q : Nat) (u : DigUndo) : Keep s0 (undoTrigger s q u) := by
  unfold undoTrigger
  try dsimp only
  repeat' first
    | with_reducible exact h
    | with_reducible assumption
    | with_reducible apply updDig_keep
    | with_reducible apply setDigState_keep
    | with_reducible apply keep_ite
    | split
    | (intro _)
    | dsimp only
    | (with_reducible refine keep_mk (s := _) ?_ rfl rfl rfl rfl; first | with_reducible exact h | with_reducible assumption | with_reducible apply updDig_keep | with_reducible apply setDigState_keep | with_reducible apply keep_ite | split)

theorem meetTrigger_keep {s0 s : State} (h : Keep s0 s) (q : Nat) (src : Nat) (tau : Nat) (u : DigUndo) : Keep s0 (meetTrigger s q src tau u) := by
  unfold meetTrigger
  try dsimp only
  repeat' first
    | with_reducible exact h
    | with_reducible assumption
    | with_reducible apply putDig_keep
    | with_reducible apply setDigState_keep
    | with_reducible apply countMissed_keep
    | with_reducible apply judgeTrigger_keep
    | with_reducible apply undoTrigger_keep
    | with_reducible apply keep_ite
    | split
    | dsimp only
    | (with_reducible refine keep_mk (s := _) ?_ rfl rfl rfl rfl; first | with_reducible exact h | with_reducible assumption | with_reducible apply putDig_keep | with_reducible apply setDigState_keep | with_reducible apply countMissed_keep | with_reducible apply judgeTrigger_keep | with_reducible apply undoTrigger_keep | with_reducible apply keep_ite | split)

theorem trigger_keep {s0 s : State} (h : Keep s0 s) (q : Nat) (src : Nat) (tau : Nat) : Keep s0 (trigger s q src tau) := by
  unfold trigger
  try dsimp only
  repeat' first
    | with_reducible exact h
    | with_reducible assumption
    | with_reducible apply judgeTrigger_keep
    | with_reducible apply meetTrigger_keep
    | with_reducible apply keep_ite
    | split
    | dsimp only
    | (with_reducible refine keep_mk (s := _) ?_ rfl rfl rfl rfl; first | with_reducible exact h | with_reducible assumption | with_reducible apply judgeTrigger_keep | with_reducible apply meetTrigger_keep | with_reducible apply keep_ite | split)

theorem execAnalogTrigger_keep {s0 x : State} (h : Keep s0 x) (s : SectorIx) (m : LineMove) : OKeep s0 (execAnalogTrigger s m x) := by
  unfold execAnalogTrigger
  try dsimp only
  repeat' first
    | with_reducible exact h
    | with_reducible assumption
    | with_reducible apply trigger_keep
    | with_reducible apply keep_ite
    | with_reducible apply okeep_next
    | with_reducible apply okeep_fault
    | with_reducible apply okeep_ite
    | split
    | dsimp only
    | (with_reducible refine keep_mk (s := _) ?_ rfl rfl rfl rfl; first | with_reducible exact h | with_reducible assumption | with_reducible apply trigger_keep | with_reducible apply keep_ite | with_reducible apply okeep_next | with_reducible apply okeep_fault | with_reducible apply okeep_ite | split)

theorem execCmpTrigger_keep {s0 x : State} (h : Keep s0 x) (s : SectorIx) (m : OutputMove) : OKeep s0 (execCmpTrigger s m x) := by
  unfold execCmpTrigger
  try dsimp only
  repeat' first
    | with_reducible exact h
    | with_reducible assumption
    | with_reducible apply trigger_keep
    | with_reducible apply keep_ite
    | with_reducible apply okeep_next
    | with_reducible apply okeep_fault
    | with_reducible apply okeep_ite
    | split
    | dsimp only
    | (with_reducible refine keep_mk (s := _) ?_ rfl rfl rfl rfl; first | with_reducible exact h | with_reducible assumption | with_reducible apply trigger_keep | with_reducible apply keep_ite | with_reducible apply okeep_next | with_reducible apply okeep_fault | with_reducible apply okeep_ite | split)

theorem softTrigger_keep {s0 s : State} (h : Keep s0 s) (q : Nat) : Keep s0 (softTrigger s q) := by
  unfold softTrigger
  try dsimp only
  repeat' first
    | with_reducible exact h
    | with_reducible assumption
    | with_reducible apply trigger_keep
    | with_reducible apply keep_ite
    | split
    | dsimp only

theorem execSoftTrigger_keep {s0 x : State} (h : Keep s0 x) (s : SectorIx) : OKeep s0 (execSoftTrigger s x) := by
  unfold execSoftTrigger
  try dsimp only
  repeat' first
    | with_reducible exact h
    | with_reducible assumption
    | with_reducible apply barWrite_keep
    | with_reducible apply softTrigger_keep
    | with_reducible apply keep_ite
    | with_reducible apply okeep_next
    | with_reducible apply okeep_fault
    | with_reducible apply okeep_ite
    | split
    | (intro _)
    | dsimp only

theorem execAutoTrigger_keep {s0 x : State} (h : Keep s0 x) (s : SectorIx) : OKeep s0 (execAutoTrigger s x) := by
  unfold execAutoTrigger
  try dsimp only
  repeat' first
    | with_reducible exact h
    | with_reducible assumption
    | with_reducible apply updDig_keep
    | with_reducible apply trigger_keep
    | with_reducible apply keep_ite
    | with_reducible apply okeep_next
    | with_reducible apply okeep_fault
    | with_reducible apply okeep_ite
    | split
    | (intro _)
    | dsimp only
    | (with_reducible refine keep_mk (s := _) ?_ rfl rfl rfl rfl; first | with_reducible exact h | with_reducible assumption | with_reducible apply updDig_keep | with_reducible apply trigger_keep | with_reducible apply keep_ite | with_reducible apply okeep_next | with_reducible apply okeep_fault | with_reducible apply okeep_ite | split)

theorem vflagTrigger_keep {s0 s : State} (h : Keep s0 s) (t : Nat) (tau : Nat) : Keep s0 (vflagTrigger s t tau) := by
  unfold vflagTrigger
  try dsimp only
  repeat' first
    | with_reducible exact h
    | with_reducible assumption
    | with_reducible apply trigger_keep
    | with_reducible apply keep_ite
    | split
    | dsimp only

theorem tinTrigger_keep {s0 s : State} (h : Keep s0 s) (i : Nat) (rise : Bool) (tau : Nat) : Keep s0 (tinTrigger s i rise tau) := by
  unfold tinTrigger
  try dsimp only
  repeat' first
    | with_reducible exact h
    | with_reducible assumption
    | with_reducible apply trigger_keep
    | with_reducible apply keep_ite
    | (with_reducible refine keep_foldl ?_ (fun _ _ _ => ?_))
    | split
    | (intro _)
    | dsimp only

theorem bcastTrigger1_keep {s0 s : State} (h : Keep s0 s) (q : Nat) (id : Nat) (tau : Nat) : Keep s0 (bcastTrigger1 s q id tau) := by
  unfold bcastTrigger1
  try dsimp only
  repeat' first
    | with_reducible exact h
    | with_reducible assumption
    | with_reducible apply updDig_keep
    | with_reducible apply countMissed_keep
    | with_reducible apply trigger_keep
    | with_reducible apply keep_ite
    | split
    | (intro _)
    | dsimp only
    | (with_reducible refine keep_mk (s := _) ?_ rfl rfl rfl rfl; first | with_reducible exact h | with_reducible assumption | with_reducible apply updDig_keep | with_reducible apply countMissed_keep | with_reducible apply trigger_keep | with_reducible apply keep_ite | split)

theorem bcastTrigger_keep {s0 s : State} (h : Keep s0 s) (id : Nat) (tau : Nat) : Keep s0 (bcastTrigger s id tau) := by
  unfold bcastTrigger
  try dsimp only
  repeat' first
    | with_reducible exact h
    | with_reducible assumption
    | with_reducible apply bcastTrigger1_keep
    | with_reducible apply keep_ite
    | (with_reducible refine keep_foldl ?_ (fun _ _ _ => ?_))
    | split
    | (intro _)
    | dsimp only

theorem execBcastTriggerDue_keep {s0 x : State} (h : Keep s0 x) (s : SectorIx) : OKeep s0 (execBcastTriggerDue s x) := by
  unfold execBcastTriggerDue
  try dsimp only
  repeat' first
    | with_reducible exact h
    | with_reducible assumption
    | with_reducible apply updDig_keep
    | with_reducible apply trigger_keep
    | with_reducible apply keep_ite
    | with_reducible apply okeep_next
    | with_reducible apply okeep_fault
    | with_reducible apply okeep_ite
    | (with_reducible refine keep_foldl ?_ (fun _ _ _ => ?_))
    | split
    | (intro _)
    | dsimp only
    | (with_reducible refine keep_mk (s := _) ?_ rfl rfl rfl rfl; first | with_reducible exact h | with_reducible assumption | with_reducible apply updDig_keep | with_reducible apply trigger_keep | with_reducible apply keep_ite | with_reducible apply okeep_next | with_reducible apply okeep_fault | with_reducible apply okeep_ite | (with_reducible refine keep_foldl ?_ (fun _ _ _ => ?_)) | split)

theorem autoStart_keep {s0 s : State} (h : Keep s0 s) (q : Nat) : Keep s0 (autoStart s q) := by
  unfold autoStart
  try dsimp only
  repeat' first
    | with_reducible exact h
    | with_reducible assumption
    | with_reducible apply updDig_keep
    | with_reducible apply keep_ite
    | split
    | (intro _)
    | dsimp only
    | (with_reducible refine keep_mk (s := _) ?_ rfl rfl rfl rfl; first | with_reducible exact h | with_reducible assumption | with_reducible apply updDig_keep | with_reducible apply keep_ite | split)

theorem fillCheck_keep {s0 s : State} (h : Keep s0 s) (q : Nat) (wasReady : Bool) : Keep s0 (fillCheck s q wasReady) := by
  unfold fillCheck
  try dsimp only
  repeat' first
    | with_reducible exact h
    | with_reducible assumption
    | with_reducible apply setDigState_keep
    | with_reducible apply autoStart_keep
    | with_reducible apply keep_ite
    | split
    | dsimp only

theorem fillStart_keep {s0 s : State} (h : Keep s0 s) (q : Nat) (j : Nat) : Keep s0 (fillStart s q j) := by
  unfold fillStart
  try dsimp only
  repeat' first
    | with_reducible exact h
    | with_reducible assumption
    | with_reducible apply updDig_keep
    | with_reducible apply setDigState_keep
    | with_reducible apply fillCheck_keep
    | with_reducible apply keep_ite
    | split
    | (intro _)
    | dsimp only
    | (with_reducible refine keep_mk (s := _) ?_ rfl rfl rfl rfl; first | with_reducible exact h | with_reducible assumption | with_reducible apply updDig_keep | with_reducible apply setDigState_keep | with_reducible apply fillCheck_keep | with_reducible apply keep_ite | split)

theorem execTapSettled_keep {s0 x : State} (h : Keep s0 x) (s : SectorIx) : OKeep s0 (execTapSettled s x) := by
  unfold execTapSettled
  try dsimp only
  repeat' first
    | with_reducible exact h
    | with_reducible assumption
    | with_reducible apply fillStart_keep
    | with_reducible apply keep_ite
    | with_reducible apply okeep_next
    | with_reducible apply okeep_fault
    | with_reducible apply okeep_ite
    | split
    | dsimp only

theorem execPreFilled_keep {s0 x : State} (h : Keep s0 x) (s : SectorIx) : OKeep s0 (execPreFilled s x) := by
  unfold execPreFilled
  try dsimp only
  repeat' first
    | with_reducible exact h
    | with_reducible assumption
    | with_reducible apply updDig_keep
    | with_reducible apply fillCheck_keep
    | with_reducible apply keep_ite
    | with_reducible apply okeep_next
    | with_reducible apply okeep_fault
    | with_reducible apply okeep_ite
    | split
    | (intro _)
    | dsimp only
    | (with_reducible refine keep_mk (s := _) ?_ rfl rfl rfl rfl; first | with_reducible exact h | with_reducible assumption | with_reducible apply updDig_keep | with_reducible apply fillCheck_keep | with_reducible apply keep_ite | with_reducible apply okeep_next | with_reducible apply okeep_fault | with_reducible apply okeep_ite | split)

theorem execHoldoffEnd_keep {s0 x : State} (h : Keep s0 x) (s : SectorIx) : OKeep s0 (execHoldoffEnd s x) := by
  unfold execHoldoffEnd
  try dsimp only
  repeat' first
    | with_reducible exact h
    | with_reducible assumption
    | with_reducible apply updDig_keep
    | with_reducible apply fillCheck_keep
    | with_reducible apply keep_ite
    | with_reducible apply okeep_next
    | with_reducible apply okeep_fault
    | with_reducible apply okeep_ite
    | split
    | (intro _)
    | dsimp only
    | (with_reducible refine keep_mk (s := _) ?_ rfl rfl rfl rfl; first | with_reducible exact h | with_reducible assumption | with_reducible apply updDig_keep | with_reducible apply fillCheck_keep | with_reducible apply keep_ite | with_reducible apply okeep_next | with_reducible apply okeep_fault | with_reducible apply okeep_ite | split)

theorem execRearmDone_keep {s0 x : State} (h : Keep s0 x) (s : SectorIx) : OKeep s0 (execRearmDone s x) := by
  unfold execRearmDone
  try dsimp only
  repeat' first
    | with_reducible exact h
    | with_reducible assumption
    | with_reducible apply digHalt_keep
    | with_reducible apply fillStart_keep
    | with_reducible apply keep_ite
    | with_reducible apply okeep_next
    | with_reducible apply okeep_fault
    | with_reducible apply okeep_ite
    | split
    | dsimp only
    | (with_reducible refine keep_mk (s := _) ?_ rfl rfl rfl rfl; first | with_reducible exact h | with_reducible assumption | with_reducible apply digHalt_keep | with_reducible apply fillStart_keep | with_reducible apply keep_ite | with_reducible apply okeep_next | with_reducible apply okeep_fault | with_reducible apply okeep_ite | split)

theorem overwriteCopies_keep {s0 s : State} (h : Keep s0 s) (q : Nat) (gone : List Nat) : Keep s0 (overwriteCopies s q gone) := by
  unfold overwriteCopies
  try dsimp only
  repeat' first
    | with_reducible exact h
    | with_reducible assumption
    | with_reducible apply updXlt_keep
    | with_reducible apply keep_ite
    | (with_reducible refine keep_foldl ?_ (fun _ _ _ => ?_))
    | split
    | (intro _)
    | dsimp only
    | (with_reducible refine keep_mk (s := _) ?_ rfl rfl rfl rfl; first | with_reducible exact h | with_reducible assumption | with_reducible apply updXlt_keep | with_reducible apply keep_ite | (with_reducible refine keep_foldl ?_ (fun _ _ _ => ?_)) | split)

theorem writeSegment_keep {s0 s : State} (h : Keep s0 s) (q : Nat) (g : DigSeg) (vals : List (List (List Int))) (nacc : Nat) (stopped : Bool) (lane : Bool) : Keep s0 (writeSegment s q g vals nacc stopped lane) := by
  unfold writeSegment
  try dsimp only
  repeat' first
    | with_reducible exact h
    | with_reducible assumption
    | with_reducible apply setF_keep
    | with_reducible apply incF_keep
    | with_reducible apply addF_keep
    | with_reducible apply putDig_keep
    | with_reducible apply postEvt_keep
    | with_reducible apply raiseRole_keep
    | with_reducible apply memAsk_keep
    | with_reducible apply overwriteCopies_keep
    | with_reducible apply keep_ite
    | (with_reducible refine keep_foldl ?_ (fun _ _ _ => ?_))
    | split
    | (intro _)
    | dsimp only
    | (with_reducible refine keep_mk (s := _) ?_ rfl rfl rfl rfl; first | with_reducible exact h | with_reducible assumption | with_reducible apply setF_keep | with_reducible apply incF_keep | with_reducible apply addF_keep | with_reducible apply putDig_keep | with_reducible apply postEvt_keep | with_reducible apply raiseRole_keep | with_reducible apply memAsk_keep | with_reducible apply overwriteCopies_keep | with_reducible apply keep_ite | (with_reducible refine keep_foldl ?_ (fun _ _ _ => ?_)) | split)

theorem noteClamps_keep {s0 s : State} (h : Keep s0 s) (q : Nat) (outs : List (List (List Int × Bool))) : Keep s0 (noteClamps s q outs) := by
  unfold noteClamps
  try dsimp only
  repeat' first
    | with_reducible exact h
    | with_reducible assumption
    | with_reducible apply setF_keep
    | with_reducible apply addF_keep
    | with_reducible apply keep_ite
    | split
    | dsimp only

theorem backEnd_keep {s0 s : State} (h : Keep s0 s) (q : Nat) (g : DigSeg) (n : Nat) (raw : List (List Int)) : Keep s0 (backEnd s q g n raw).1 := by
  unfold backEnd
  try dsimp only
  repeat' first
    | with_reducible exact h
    | with_reducible assumption
    | with_reducible apply setF_keep
    | with_reducible apply noteClamps_keep
    | with_reducible apply keep_ite
    | split
    | (intro _)
    | dsimp only
    | (with_reducible refine keep_mk (s := _) ?_ rfl rfl rfl rfl; first | with_reducible exact h | with_reducible assumption | with_reducible apply setF_keep | with_reducible apply noteClamps_keep | with_reducible apply keep_ite | split)

theorem backEnd_keep_of {s0 s : State} {v} {t : State} (q : Nat) (g : DigSeg) (n : Nat) (raw : List (List Int)) (he : backEnd s q g n raw = (t, v)) (h : Keep s0 s) : Keep s0 t := by
  have hh := backEnd_keep h q g n raw
  rw [he] at hh
  exact hh

theorem execCaptureDone_keep {s0 x : State} (h : Keep s0 x) (s : SectorIx) (volts : List (List Int)) : OKeep s0 (execCaptureDone s volts x) := by
  unfold execCaptureDone
  try dsimp only
  repeat' first
    | with_reducible exact h
    | with_reducible assumption
    | with_reducible apply updDig_keep
    | with_reducible apply setDigState_keep
    | with_reducible apply writeSegment_keep
    | with_reducible apply backEnd_keep
    | (with_reducible refine backEnd_keep_of (by with_reducible assumption) ?_)
    | with_reducible apply keep_ite
    | with_reducible apply okeep_next
    | with_reducible apply okeep_fault
    | with_reducible apply okeep_ite
    | split
    | (intro _)
    | dsimp only
    | (with_reducible refine keep_mk (s := _) ?_ rfl rfl rfl rfl; first | with_reducible exact h | with_reducible assumption | with_reducible apply updDig_keep | with_reducible apply setDigState_keep | with_reducible apply writeSegment_keep | with_reducible apply backEnd_keep | (with_reducible refine backEnd_keep_of (by with_reducible assumption) ?_) | with_reducible apply keep_ite | with_reducible apply okeep_next | with_reducible apply okeep_fault | with_reducible apply okeep_ite | split)

theorem closeOpen_keep {s0 s : State} (h : Keep s0 s) (q : Nat) (raw : List (List Int)) (lane : Bool) : Keep s0 (closeOpen s q raw lane) := by
  unfold closeOpen
  try dsimp only
  repeat' first
    | with_reducible exact h
    | with_reducible assumption
    | with_reducible apply writeSegment_keep
    | with_reducible apply noteClamps_keep
    | with_reducible apply backEnd_keep
    | (with_reducible refine backEnd_keep_of (by with_reducible assumption) ?_)
    | with_reducible apply keep_ite
    | split
    | dsimp only
    | (with_reducible refine keep_mk (s := _) ?_ rfl rfl rfl rfl; first | with_reducible exact h | with_reducible assumption | with_reducible apply writeSegment_keep | with_reducible apply noteClamps_keep | with_reducible apply backEnd_keep | (with_reducible refine backEnd_keep_of (by with_reducible assumption) ?_) | with_reducible apply keep_ite | split)

theorem digStop_keep {s0 s : State} (h : Keep s0 s) (q : Nat) (cause : Nat) (st : Nat) (raw : List (List Int)) (lane : Bool) : Keep s0 (digStop s q cause st raw lane) := by
  unfold digStop
  try dsimp only
  repeat' first
    | with_reducible exact h
    | with_reducible assumption
    | with_reducible apply digHalt_keep
    | with_reducible apply undoTrigger_keep
    | with_reducible apply closeOpen_keep
    | with_reducible apply keep_ite
    | split
    | dsimp only
    | (with_reducible refine keep_mk (s := _) ?_ rfl rfl rfl rfl; first | with_reducible exact h | with_reducible assumption | with_reducible apply digHalt_keep | with_reducible apply undoTrigger_keep | with_reducible apply closeOpen_keep | with_reducible apply keep_ite | split)

theorem execDigStop_keep {s0 x : State} (h : Keep s0 x) (s : SectorIx) (volts : List (List Int)) : OKeep s0 (execDigStop s volts x) := by
  unfold execDigStop
  try dsimp only
  repeat' first
    | with_reducible exact h
    | with_reducible assumption
    | with_reducible apply barWrite_keep
    | with_reducible apply digStop_keep
    | with_reducible apply keep_ite
    | with_reducible apply okeep_next
    | with_reducible apply okeep_fault
    | with_reducible apply okeep_ite
    | split
    | (intro _)
    | dsimp only

theorem digStopNow_keep {s0 s : State} (h : Keep s0 s) (q : Nat) (cause : Nat) (st : Nat) (lane : Bool) : Keep s0 (digStopNow s q cause st lane) := by
  unfold digStopNow
  try dsimp only
  repeat' first
    | with_reducible exact h
    | with_reducible assumption
    | with_reducible apply digStop_keep
    | with_reducible apply keep_ite
    | split
    | dsimp only

theorem spillDrop_keep {s0 s : State} (h : Keep s0 s) (q : Nat) (seq : Nat) : Keep s0 (spillDrop s q seq) := by
  unfold spillDrop
  try dsimp only
  repeat' first
    | with_reducible exact h
    | with_reducible assumption
    | with_reducible apply setF_keep
    | with_reducible apply addF_keep
    | with_reducible apply putDig_keep
    | with_reducible apply signal_keep
    | with_reducible apply keep_ite
    | (with_reducible refine keep_foldl ?_ (fun _ _ _ => ?_))
    | split
    | (intro _)
    | dsimp only
    | (with_reducible refine keep_mk (s := _) ?_ rfl rfl rfl rfl; first | with_reducible exact h | with_reducible assumption | with_reducible apply setF_keep | with_reducible apply addF_keep | with_reducible apply putDig_keep | with_reducible apply signal_keep | with_reducible apply keep_ite | (with_reducible refine keep_foldl ?_ (fun _ _ _ => ?_)) | split)

theorem spillPut_keep_of {s0 s t : State} {q j : Nat} {l : List Nat} (he : spillPut s q j l = .ok t) (h : Keep s0 s) : Keep s0 t := by
  unfold spillPut at he
  dsimp only at he
  split at he
  · cases he
  · rename_i s1 e1
    exact jobWrite_keep_of he (wr_keep (jobWrite_keep_of e1 h) _ _ _)

theorem execSpillRecordWrite_keep {s0 x : State} (h : Keep s0 x) (s : SectorIx) : OKeep s0 (execSpillRecordWrite s x) := by
  unfold execSpillRecordWrite
  dsimp only
  split
  · with_reducible apply okeep_ite
    · exact okeep_next (digFinish_keep (spillDrop_keep h _ _) _)
    · split
      · rename_i y he
        apply okeep_next
        apply digFinish_keep
        apply updDig_keep
        obtain ⟨z, hr, hz⟩ := except_bind_ok he
        exact spillPut_keep_of hz (keep_exIte' hr h (fun e => spillPut_keep_of e h))
      · apply okeep_next
        apply endXlt_keep
        apply digHalt_keep
        apply updDig_keep
        exact closeOpen_keep h _ _ _
  · exact okeep_next h

theorem armAcq_keep {s0 s : State} (h : Keep s0 s) (q : Nat) (j : Nat) (x : Job) (mask : List (Int × Int × Int)) : Keep s0 (armAcq s q j x mask) := by
  unfold armAcq
  try dsimp only
  repeat' first
    | with_reducible exact h
    | with_reducible assumption
    | with_reducible apply wr_keep
    | with_reducible apply putDig_keep
    | with_reducible apply setDigState_keep
    | with_reducible apply startJob_keep
    | with_reducible apply keep_ite
    | split
    | (intro _)
    | dsimp only
    | (with_reducible refine keep_mk (s := _) ?_ rfl rfl rfl rfl; first | with_reducible exact h | with_reducible assumption | with_reducible apply wr_keep | with_reducible apply putDig_keep | with_reducible apply setDigState_keep | with_reducible apply startJob_keep | with_reducible apply keep_ite | split)

theorem execArmAcq_keep {s0 s : State} (h : Keep s0 s) (j : Nat) : OKeep s0 (execArmAcq j s) := by
  unfold execArmAcq
  try dsimp only
  repeat' first
    | with_reducible exact h
    | with_reducible assumption
    | with_reducible apply endJob_keep
    | with_reducible apply needBytes_keep
    | with_reducible apply afterDeferral_keep
    | with_reducible apply armAcq_keep
    | with_reducible apply keep_ite
    | with_reducible apply okeep_next
    | with_reducible apply okeep_fault
    | with_reducible apply okeep_ite
    | split
    | (intro _)
    | dsimp only
    | (with_reducible refine keep_mk (s := _) ?_ rfl rfl rfl rfl; first | with_reducible exact h | with_reducible assumption | with_reducible apply endJob_keep | with_reducible apply needBytes_keep | with_reducible apply afterDeferral_keep | with_reducible apply armAcq_keep | with_reducible apply keep_ite | with_reducible apply okeep_next | with_reducible apply okeep_fault | with_reducible apply okeep_ite | split)

theorem execReadSegments_keep {s0 s : State} (h : Keep s0 s) (j : Nat) : OKeep s0 (execReadSegments j s) := by
  unfold execReadSegments
  try dsimp only
  repeat' first
    | with_reducible exact h
    | with_reducible assumption
    | with_reducible apply endJob_keep
    | with_reducible apply writeAndEnd_keep
    | with_reducible apply setWork_keep
    | with_reducible apply keep_ite
    | with_reducible apply okeep_next
    | with_reducible apply okeep_fault
    | with_reducible apply okeep_ite
    | split
    | dsimp only
    | (with_reducible refine keep_mk (s := _) ?_ rfl rfl rfl rfl; first | with_reducible exact h | with_reducible assumption | with_reducible apply endJob_keep | with_reducible apply writeAndEnd_keep | with_reducible apply setWork_keep | with_reducible apply keep_ite | with_reducible apply okeep_next | with_reducible apply okeep_fault | with_reducible apply okeep_ite | split)

theorem digS_keep {s0 s : State} (h : Keep s0 s) (q : Nat) (same : Bool) (k : State → State) (hk : ∀ x0, Keep s0 x0 → Keep s0 (k x0)) : Keep s0 (digS s q same k) := by
  unfold digS
  try dsimp only
  repeat' first
    | with_reducible exact h
    | with_reducible assumption
    | with_reducible apply setF_keep
    | with_reducible apply keep_ite
    | apply hk
    | split
    | (intro _)
    | dsimp only

theorem firCoefWrite_keep {s0 s : State} (h : Keep s0 s) (q : Nat) (v : Nat) : Keep s0 (firCoefWrite s q v) := by
  unfold firCoefWrite
  try dsimp only
  repeat' first
    | with_reducible exact h
    | with_reducible assumption
    | with_reducible apply wr_keep
    | with_reducible apply updDig_keep
    | with_reducible apply digS_keep
    | with_reducible apply keep_ite
    | split
    | (intro _)
    | dsimp only

theorem execFirCoefWrite_keep {s0 x : State} (h : Keep s0 x) (s : SectorIx) (v : Word) : OKeep s0 (execFirCoefWrite s v x) := by
  unfold execFirCoefWrite
  try dsimp only
  repeat' first
    | with_reducible exact h
    | with_reducible assumption
    | with_reducible apply barWrite_keep
    | with_reducible apply firCoefWrite_keep
    | with_reducible apply keep_ite
    | with_reducible apply okeep_next
    | with_reducible apply okeep_fault
    | with_reducible apply okeep_ite
    | split
    | (intro _)
    | dsimp only

theorem firPreset_keep {s0 s : State} (h : Keep s0 s) (q : Nat) (set_ : Nat) (bank : Bool) : Keep s0 (firPreset s q set_ bank) := by
  unfold firPreset
  try dsimp only
  repeat' first
    | with_reducible exact h
    | with_reducible assumption
    | with_reducible apply wr_keep
    | with_reducible apply setF_keep
    | with_reducible apply updDig_keep
    | with_reducible apply digS_keep
    | with_reducible apply keep_ite
    | split
    | (intro _)
    | dsimp only
    | (with_reducible refine keep_mk (s := _) ?_ rfl rfl rfl rfl; first | with_reducible exact h | with_reducible assumption | with_reducible apply wr_keep | with_reducible apply setF_keep | with_reducible apply updDig_keep | with_reducible apply digS_keep | with_reducible apply keep_ite | split)

theorem execFirPreset_keep {s0 x : State} (h : Keep s0 x) (s : SectorIx) (set_ : Fin 4) (bank : Bool) : OKeep s0 (execFirPreset s set_ bank x) := by
  unfold execFirPreset
  try dsimp only
  repeat' first
    | with_reducible exact h
    | with_reducible assumption
    | with_reducible apply barWrite_keep
    | with_reducible apply firPreset_keep
    | with_reducible apply keep_ite
    | with_reducible apply okeep_next
    | with_reducible apply okeep_fault
    | with_reducible apply okeep_ite
    | split
    | (intro _)
    | dsimp only

theorem execFirPresetDone_keep {s0 x : State} (h : Keep s0 x) (s : SectorIx) : OKeep s0 (execFirPresetDone s x) := by
  unfold execFirPresetDone
  try dsimp only
  repeat' first
    | with_reducible exact h
    | with_reducible assumption
    | with_reducible apply wr_keep
    | with_reducible apply updDig_keep
    | with_reducible apply keep_ite
    | with_reducible apply okeep_next
    | with_reducible apply okeep_fault
    | with_reducible apply okeep_ite
    | (with_reducible refine keep_foldl ?_ (fun _ _ _ => ?_))
    | split
    | (intro _)
    | dsimp only
    | (with_reducible refine keep_mk (s := _) ?_ rfl rfl rfl rfl; first | with_reducible exact h | with_reducible assumption | with_reducible apply wr_keep | with_reducible apply updDig_keep | with_reducible apply keep_ite | with_reducible apply okeep_next | with_reducible apply okeep_fault | with_reducible apply okeep_ite | (with_reducible refine keep_foldl ?_ (fun _ _ _ => ?_)) | split)

theorem execDigPllStop_keep {s0 x : State} (h : Keep s0 x) (s : SectorIx) : OKeep s0 (execDigPllStop s x) := by
  unfold execDigPllStop
  try dsimp only
  repeat' first
    | with_reducible exact h
    | with_reducible assumption
    | with_reducible apply updDig_keep
    | with_reducible apply keep_ite
    | with_reducible apply okeep_next
    | with_reducible apply okeep_fault
    | with_reducible apply okeep_ite
    | split
    | (intro _)
    | dsimp only
    | (with_reducible refine keep_mk (s := _) ?_ rfl rfl rfl rfl; first | with_reducible exact h | with_reducible assumption | with_reducible apply updDig_keep | with_reducible apply keep_ite | with_reducible apply okeep_next | with_reducible apply okeep_fault | with_reducible apply okeep_ite | split)

end Sys2Proof.Machine
end

