-- ==== Sys2Proof/Laws/KeepFailUnit.lean ====
section
/-! SUPPORT. The operations of Machine/FailUnit.lean leave the queue alone and keep memories and registers canonical. -/
set_option maxRecDepth 4000
set_option linter.all false
namespace Sys2Proof.Machine

theorem siteJoin_keep {s0 s : State} (h : Keep s0 s) (j : Nat) (sites : List Nat) : Keep s0 (siteJoin s j sites) := by
  unfold siteJoin
  try dsimp only
  repeat' first
    | with_reducible exact h
    | with_reducible assumption
    | with_reducible apply putSite_keep
    | with_reducible apply keep_ite
    | (with_reducible refine keep_foldl ?_ (fun _ _ _ => ?_))
    | split
    | (intro _)
    | dsimp only
    | (with_reducible refine keep_mk (s := _) ?_ rfl rfl rfl rfl; first | with_reducible exact h | with_reducible assumption | with_reducible apply putSite_keep | with_reducible apply keep_ite | (with_reducible refine keep_foldl ?_ (fun _ _ _ => ?_)) | split)

theorem flagSites_keep {s0 s : State} (h : Keep s0 s) (l : List Nat) (f : Field) : Keep s0 (flagSites s l f) := by
  unfold flagSites
  try dsimp only
  repeat' first
    | with_reducible exact h
    | with_reducible assumption
    | with_reducible apply setF_keep
    | with_reducible apply keep_ite
    | (with_reducible refine keep_foldl ?_ (fun _ _ _ => ?_))
    | split
    | (intro _)
    | dsimp only

theorem writeFaddr_keep {s0 s : State} (h : Keep s0 s) (i : Nat) (px : Nat) (py : Nat) : Keep s0 (writeFaddr s i px py) := by
  unfold writeFaddr
  try dsimp only
  repeat' first
    | with_reducible exact h
    | with_reducible assumption
    | with_reducible apply wr_keep
    | with_reducible apply keep_ite
    | split
    | dsimp only

theorem countFail_keep {s0 s : State} (h : Keep s0 s) (l : Nat) (t : Nat) (vec : Nat) (px : Nat) (py : Nat) (i : Nat) : Keep s0 (countFail s l t vec px py i) := by
  unfold countFail
  try dsimp only
  repeat' first
    | with_reducible exact h
    | with_reducible assumption
    | with_reducible apply setF_keep
    | with_reducible apply incF_keep
    | with_reducible apply wr64_keep
    | with_reducible apply putGang_keep
    | with_reducible apply writeFaddr_keep
    | with_reducible apply keep_ite
    | split
    | (intro _)
    | dsimp only
    | (with_reducible refine keep_mk (s := _) ?_ rfl rfl rfl rfl; first | with_reducible exact h | with_reducible assumption | with_reducible apply setF_keep | with_reducible apply incF_keep | with_reducible apply wr64_keep | with_reducible apply putGang_keep | with_reducible apply writeFaddr_keep | with_reducible apply keep_ite | split)

theorem putPart_keep {s0 s : State} (h : Keep s0 s) (i : Nat) (q : Nat) (p : SecLedger) : Keep s0 (putPart s i q p) := by
  unfold putPart
  try dsimp only
  repeat' first
    | with_reducible exact h
    | with_reducible assumption
    | with_reducible apply putSite_keep
    | with_reducible apply keep_ite
    | split
    | dsimp only
    | (with_reducible refine keep_mk (s := _) ?_ rfl rfl rfl rfl; first | with_reducible exact h | with_reducible assumption | with_reducible apply putSite_keep | with_reducible apply keep_ite | split)

theorem showQocc_keep {s0 s : State} (h : Keep s0 s) (t : Nat) : Keep s0 (showQocc s t) := by
  unfold showQocc
  try dsimp only
  repeat' first
    | with_reducible exact h
    | with_reducible assumption
    | with_reducible apply wr_keep
    | with_reducible apply keep_ite
    | split
    | dsimp only

theorem formEntry_keep {s0 s : State} (h : Keep s0 s) (t : Nat) (vec : Nat) (px : Nat) (py : Nat) (fails : List Nat) (i : Nat) : Keep s0 (formEntry s t vec px py fails i) := by
  unfold formEntry
  try dsimp only
  repeat' first
    | with_reducible exact h
    | with_reducible assumption
    | with_reducible apply setF_keep
    | with_reducible apply incF_keep
    | with_reducible apply putTile_keep
    | with_reducible apply signal_keep
    | with_reducible apply raiseRole_keep
    | with_reducible apply showQocc_keep
    | with_reducible apply keep_ite
    | split
    | dsimp only
    | (with_reducible refine keep_mk (s := _) ?_ rfl rfl rfl rfl; first | with_reducible exact h | with_reducible assumption | with_reducible apply setF_keep | with_reducible apply incF_keep | with_reducible apply putTile_keep | with_reducible apply signal_keep | with_reducible apply raiseRole_keep | with_reducible apply showQocc_keep | with_reducible apply keep_ite | split)

theorem markUnsettled_keep {s0 s : State} (h : Keep s0 s) (t : Nat) (samples : List (List (Trit × Trit))) : Keep s0 (markUnsettled s t samples) := by
  unfold markUnsettled
  try dsimp only
  repeat' first
    | with_reducible exact h
    | with_reducible assumption
    | with_reducible apply setF_keep
    | with_reducible apply keep_ite
    | (with_reducible refine keep_foldl ?_ (fun _ _ _ => ?_))
    | split
    | (intro _)
    | dsimp only

theorem compareResult_keep {s0 s : State} (h : Keep s0 s) (t : Nat) (tag : Nat) (samples : List (List (Trit × Trit))) : Keep s0 (compareResult s t tag samples) := by
  unfold compareResult
  try dsimp only
  repeat' first
    | with_reducible exact h
    | with_reducible assumption
    | with_reducible apply putTile_keep
    | with_reducible apply putGang_keep
    | with_reducible apply countFail_keep
    | with_reducible apply formEntry_keep
    | with_reducible apply markUnsettled_keep
    | with_reducible apply keep_ite
    | (with_reducible refine keep_foldl ?_ (fun _ _ _ => ?_))
    | split
    | (intro _)
    | dsimp only
    | (with_reducible refine keep_mk (s := _) ?_ rfl rfl rfl rfl; first | with_reducible exact h | with_reducible assumption | with_reducible apply putTile_keep | with_reducible apply putGang_keep | with_reducible apply countFail_keep | with_reducible apply formEntry_keep | with_reducible apply markUnsettled_keep | with_reducible apply keep_ite | (with_reducible refine keep_foldl ?_ (fun _ _ _ => ?_)) | split)

theorem execCompareResult_keep {s0 s : State} (h : Keep s0 s) (t : TileIx) (tag : Nat) (samples : List (List (Trit × Trit))) : OKeep s0 (execCompareResult t tag samples s) := by
  unfold execCompareResult
  try dsimp only
  repeat' first
    | with_reducible exact h
    | with_reducible assumption
    | with_reducible apply compareResult_keep
    | with_reducible apply keep_ite
    | with_reducible apply okeep_next
    | with_reducible apply okeep_fault
    | with_reducible apply okeep_ite
    | split
    | dsimp only

theorem foldJournal_keep {s0 s : State} (h : Keep s0 s) (i : Nat) (q : Nat) : Keep s0 (foldJournal s i q) := by
  unfold foldJournal
  try dsimp only
  repeat' first
    | with_reducible exact h
    | with_reducible assumption
    | with_reducible apply setF_keep
    | with_reducible apply putPart_keep
    | with_reducible apply keep_ite
    | (with_reducible refine keep_foldl ?_ (fun _ _ _ => ?_))
    | split
    | dsimp only
    | (with_reducible refine keep_mk (s := _) ?_ rfl rfl rfl rfl; first | with_reducible exact h | with_reducible assumption | with_reducible apply setF_keep | with_reducible apply putPart_keep | with_reducible apply keep_ite | (with_reducible refine keep_foldl ?_ (fun _ _ _ => ?_)) | split)

theorem foldSite_keep {s0 s : State} (h : Keep s0 s) (i : Nat) : Keep s0 (foldSite s i) := by
  unfold foldSite
  try dsimp only
  repeat' first
    | with_reducible exact h
    | with_reducible assumption
    | with_reducible apply foldJournal_keep
    | with_reducible apply keep_ite
    | (with_reducible refine keep_foldl ?_ (fun _ _ _ => ?_))
    | split
    | (intro _)
    | dsimp only

theorem journalEntry_keep {s0 s : State} (h : Keep s0 s) (q : Nat) (e : FailEntry) : Keep s0 (journalEntry s q e) := by
  unfold journalEntry
  try dsimp only
  repeat' first
    | with_reducible exact h
    | with_reducible assumption
    | with_reducible apply setF_keep
    | with_reducible apply memAsk_keep
    | with_reducible apply putPart_keep
    | with_reducible apply foldJournal_keep
    | with_reducible apply keep_ite
    | split
    | dsimp only
    | (with_reducible refine keep_mk (s := _) ?_ rfl rfl rfl rfl; first | with_reducible exact h | with_reducible assumption | with_reducible apply setF_keep | with_reducible apply memAsk_keep | with_reducible apply putPart_keep | with_reducible apply foldJournal_keep | with_reducible apply keep_ite | split)

theorem mergeNext_keep {s0 s : State} (h : Keep s0 s) (q : Nat) : Keep s0 (mergeNext s q) := by
  unfold mergeNext
  try dsimp only
  repeat' first
    | with_reducible exact h
    | with_reducible assumption
    | with_reducible apply putTile_keep
    | with_reducible apply showQocc_keep
    | with_reducible apply journalEntry_keep
    | with_reducible apply keep_ite
    | split
    | dsimp only
    | (with_reducible refine keep_mk (s := _) ?_ rfl rfl rfl rfl; first | with_reducible exact h | with_reducible assumption | with_reducible apply putTile_keep | with_reducible apply showQocc_keep | with_reducible apply journalEntry_keep | with_reducible apply keep_ite | split)

theorem execJournalWrite_keep {s0 s : State} (h : Keep s0 s) (q : SectorIx) : OKeep s0 (execJournalWrite q s) := by
  unfold execJournalWrite
  try dsimp only
  repeat' first
    | with_reducible exact h
    | with_reducible assumption
    | with_reducible apply mergeNext_keep
    | with_reducible apply keep_ite
    | with_reducible apply okeep_next
    | with_reducible apply okeep_fault
    | with_reducible apply okeep_ite
    | split
    | dsimp only

theorem mergeAll_keep {s0 s : State} (h : Keep s0 s) (tiles : List Nat) : Keep s0 (mergeAll s tiles) := by
  unfold mergeAll
  try dsimp only
  repeat' first
    | with_reducible exact h
    | with_reducible assumption
    | with_reducible apply putTile_keep
    | with_reducible apply mergeNext_keep
    | with_reducible apply keep_ite
    | (with_reducible refine keep_foldl ?_ (fun _ _ _ => ?_))
    | split
    | (intro _)
    | dsimp only
    | (with_reducible refine keep_mk (s := _) ?_ rfl rfl rfl rfl; first | with_reducible exact h | with_reducible assumption | with_reducible apply putTile_keep | with_reducible apply mergeNext_keep | with_reducible apply keep_ite | (with_reducible refine keep_foldl ?_ (fun _ _ _ => ?_)) | split)

theorem paramClear_keep {s0 s : State} (h : Keep s0 s) (i : Nat) : Keep s0 (paramClear s i) := by
  unfold paramClear
  try dsimp only
  repeat' first
    | with_reducible exact h
    | with_reducible assumption
    | with_reducible apply keep_ite
    | split
    | (intro _)
    | dsimp only
    | (with_reducible refine keep_mk (s := _) ?_ rfl rfl rfl rfl; first | with_reducible exact h | with_reducible assumption | with_reducible apply keep_ite | split)

theorem siteLcfgWrite_keep {s0 s : State} (h : Keep s0 s) (i : Nat) (v : Nat) : Keep s0 (siteLcfgWrite s i v) := by
  unfold siteLcfgWrite
  try dsimp only
  repeat' first
    | with_reducible exact h
    | with_reducible assumption
    | with_reducible apply wr_keep
    | with_reducible apply setF_keep
    | with_reducible apply clrF_keep
    | with_reducible apply putSite_keep
    | with_reducible apply paramClear_keep
    | with_reducible apply keep_ite
    | (with_reducible refine keep_foldl ?_ (fun _ _ _ => ?_))
    | split
    | (intro _)
    | dsimp only
    | (with_reducible refine keep_mk (s := _) ?_ rfl rfl rfl rfl; first | with_reducible exact h | with_reducible assumption | with_reducible apply wr_keep | with_reducible apply setF_keep | with_reducible apply clrF_keep | with_reducible apply putSite_keep | with_reducible apply paramClear_keep | with_reducible apply keep_ite | (with_reducible refine keep_foldl ?_ (fun _ _ _ => ?_)) | split)

theorem execSiteLcfgWrite_keep {s0 s : State} (h : Keep s0 s) (site : SiteIx) (v : Word) : OKeep s0 (execSiteLcfgWrite site v s) := by
  unfold execSiteLcfgWrite
  try dsimp only
  repeat' first
    | with_reducible exact h
    | with_reducible assumption
    | with_reducible apply barWrite_keep
    | with_reducible apply siteLcfgWrite_keep
    | with_reducible apply keep_ite
    | with_reducible apply okeep_next
    | with_reducible apply okeep_fault
    | with_reducible apply okeep_ite
    | split
    | (intro _)
    | dsimp only

theorem lgrPoolWrite_keep {s0 s : State} (h : Keep s0 s) (q : Nat) (r : Nat) (v : Nat) (who : Option Nat) : Keep s0 (lgrPoolWrite s q r v who) := by
  unfold lgrPoolWrite
  try dsimp only
  repeat' first
    | with_reducible exact h
    | with_reducible assumption
    | with_reducible apply poolStore_keep
    | with_reducible apply poolIgnored_keep
    | with_reducible apply keep_ite
    | split
    | (intro _)
    | dsimp only

theorem execLgrPoolWrite_keep {s0 s : State} (h : Keep s0 s) (q : SectorIx) (r : Fin 3) (v : Word) : OKeep s0 (execLgrPoolWrite q r v s) := by
  unfold execLgrPoolWrite
  try dsimp only
  repeat' first
    | with_reducible exact h
    | with_reducible assumption
    | with_reducible apply barWrite_keep
    | with_reducible apply lgrPoolWrite_keep
    | with_reducible apply keep_ite
    | with_reducible apply okeep_next
    | with_reducible apply okeep_fault
    | with_reducible apply okeep_ite
    | split
    | (intro _)
    | dsimp only

theorem siteArm_keep {s0 s : State} (h : Keep s0 s) (i : Nat) : Keep s0 (siteArm s i) := by
  unfold siteArm
  try dsimp only
  repeat' first
    | with_reducible exact h
    | with_reducible assumption
    | with_reducible apply clrF_keep
    | with_reducible apply putSite_keep
    | with_reducible apply keep_ite
    | split
    | dsimp only
    | (with_reducible refine keep_mk (s := _) ?_ rfl rfl rfl rfl; first | with_reducible exact h | with_reducible assumption | with_reducible apply clrF_keep | with_reducible apply putSite_keep | with_reducible apply keep_ite | split)

theorem siteRollback_keep {s0 s : State} (h : Keep s0 s) (i : Nat) : Keep s0 (siteRollback s i) := by
  unfold siteRollback
  try dsimp only
  repeat' first
    | with_reducible exact h
    | with_reducible assumption
    | with_reducible apply wr_keep
    | with_reducible apply setF_keep
    | with_reducible apply clrF_keep
    | with_reducible apply wr64_keep
    | with_reducible apply putSite_keep
    | with_reducible apply keep_ite
    | split
    | (intro _)
    | dsimp only
    | (with_reducible refine keep_mk (s := _) ?_ rfl rfl rfl rfl; first | with_reducible exact h | with_reducible assumption | with_reducible apply wr_keep | with_reducible apply setF_keep | with_reducible apply clrF_keep | with_reducible apply wr64_keep | with_reducible apply putSite_keep | with_reducible apply keep_ite | split)

end Sys2Proof.Machine
end

