-- ==== Sys2Proof/Laws/KeepPattern.lean ====
section
/-! SUPPORT. The operations of Machine/Pattern.lean leave the queue alone and keep memories and registers canonical. -/
set_option maxRecDepth 4000
set_option linter.all false
namespace Sys2Proof.Machine

theorem loadTables_keep {s0 s : State} (h : Keep s0 s) (t : Nat) (img : List Nat) : Keep s0 (loadTables s t img) := by
  unfold loadTables
  try dsimp only
  repeat' first
    | with_reducible exact h
    | with_reducible assumption
    | with_reducible apply wri_keep
    | with_reducible apply wr_keep
    | with_reducible apply keep_ite
    | (with_reducible refine keep_foldl ?_ (fun _ _ _ => ?_))
    | split
    | (intro _)
    | dsimp only

theorem loadTile_keep {s0 s : State} (h : Keep s0 s) (x : Job) (e : LoadEntry) (img : List Nat) : Keep s0 (loadTile s x e img) := by
  unfold loadTile
  try dsimp only
  repeat' first
    | with_reducible exact h
    | with_reducible assumption
    | with_reducible apply wr_keep
    | with_reducible apply setF_keep
    | with_reducible apply setSeqState_keep
    | with_reducible apply updTile_keep
    | with_reducible apply loadTables_keep
    | with_reducible apply keep_ite
    | split
    | (intro _)
    | dsimp only
    | (with_reducible refine keep_mk (s := _) ?_ rfl rfl rfl rfl; first | with_reducible exact h | with_reducible assumption | with_reducible apply wr_keep | with_reducible apply setF_keep | with_reducible apply setSeqState_keep | with_reducible apply updTile_keep | with_reducible apply loadTables_keep | with_reducible apply keep_ite | split)

theorem loadPatterns_keep {s0 s : State} (h : Keep s0 s) (j : Nat) (x : Job) (es : List (LoadEntry × List Nat)) : Keep s0 (loadPatterns s j x es) := by
  unfold loadPatterns
  try dsimp only
  repeat' first
    | with_reducible exact h
    | with_reducible assumption
    | with_reducible apply endJob_keep
    | with_reducible apply loadTile_keep
    | with_reducible apply keep_ite
    | (with_reducible refine keep_foldl ?_ (fun _ _ _ => ?_))
    | split
    | (intro _)
    | dsimp only
    | (with_reducible refine keep_mk (s := _) ?_ rfl rfl rfl rfl; first | with_reducible exact h | with_reducible assumption | with_reducible apply endJob_keep | with_reducible apply loadTile_keep | with_reducible apply keep_ite | (with_reducible refine keep_foldl ?_ (fun _ _ _ => ?_)) | split)

theorem gatherImages_keep {s0 s : State} (h : Keep s0 s) (j : Nat) (k : List (LoadEntry × List Nat) → State)
    (hk : ∀ l, Keep s0 (k l)) (es : List LoadEntry) (acc : List (LoadEntry × List Nat)) : Keep s0 (gatherImages s j k es acc) := by
  induction es generalizing acc with
  | nil => exact hk acc
  | cons e r ih => exact needBytes_keep h j e.va e.len _ fun _ => ih _

theorem execLoadPattern_keep {s0 s : State} (h : Keep s0 s) (j : Nat) : OKeep s0 (execLoadPattern j s) := by
  unfold execLoadPattern
  try dsimp only
  repeat' first
    | with_reducible exact h
    | with_reducible assumption
    | with_reducible apply endJob_keep
    | with_reducible apply needBytes_keep
    | with_reducible apply loadPatterns_keep
    | with_reducible apply gatherImages_keep
    | with_reducible apply keep_ite
    | with_reducible apply okeep_next
    | with_reducible apply okeep_fault
    | with_reducible apply okeep_ite
    | split
    | (intro _)
    | dsimp only
    | (with_reducible refine keep_mk (s := _) ?_ rfl rfl rfl rfl; first | with_reducible exact h | with_reducible assumption | with_reducible apply endJob_keep | with_reducible apply needBytes_keep | with_reducible apply loadPatterns_keep | with_reducible apply gatherImages_keep | with_reducible apply keep_ite | with_reducible apply okeep_next | with_reducible apply okeep_fault | with_reducible apply okeep_ite | split)

end Sys2Proof.Machine
end

