-- ==== Sys2Proof/Laws/KeepSequencer.lean ====
section
/-! SUPPORT. The operations of Machine/Sequencer.lean leave the queue alone and keep memories and registers canonical. -/
set_option maxRecDepth 4000
set_option linter.all false
namespace Sys2Proof.Machine

theorem applyOps_keep {s0 s : State} (h : Keep s0 s) (t : Nat) (w : Nat) : Keep s0 (applyOps s t w) := by
  unfold applyOps
  try dsimp only
  repeat' first
    | with_reducible exact h
    | with_reducible assumption
    | with_reducible apply wr_keep
    | with_reducible apply updTile_keep
    | with_reducible apply keep_ite
    | split
    | (intro _)
    | dsimp only
    | (with_reducible refine keep_mk (s := _) ?_ rfl rfl rfl rfl; first | with_reducible exact h | with_reducible assumption | with_reducible apply wr_keep | with_reducible apply updTile_keep | with_reducible apply keep_ite | split)

theorem showTile_keep {s0 s : State} (h : Keep s0 s) (t : Nat) : Keep s0 (showTile s t) := by
  unfold showTile
  try dsimp only
  repeat' first
    | with_reducible exact h
    | with_reducible assumption
    | with_reducible apply wri_keep
    | with_reducible apply wr_keep
    | with_reducible apply keep_ite
    | (with_reducible refine keep_foldl ?_ (fun _ _ _ => ?_))
    | split
    | (intro _)
    | dsimp only
    | (with_reducible refine keep_mk (s := _) ?_ rfl rfl rfl rfl; first | with_reducible exact h | with_reducible assumption | with_reducible apply wri_keep | with_reducible apply wr_keep | with_reducible apply keep_ite | (with_reducible refine keep_foldl ?_ (fun _ _ _ => ?_)) | split)

theorem beginWord_keep {s0 s : State} (h : Keep s0 s) (t : Nat) (seg : Nat) (emitted : Nat) (w : Nat) (pos : Pos) : Keep s0 (beginWord s t seg emitted w pos) := by
  unfold beginWord
  try dsimp only
  repeat' first
    | with_reducible exact h
    | with_reducible assumption
    | with_reducible apply putTile_keep
    | with_reducible apply keep_ite
    | split
    | (intro _)
    | dsimp only
    | (with_reducible refine keep_mk (s := _) ?_ rfl rfl rfl rfl; first | with_reducible exact h | with_reducible assumption | with_reducible apply putTile_keep | with_reducible apply keep_ite | split)

theorem finishWord_keep {s0 s : State} (h : Keep s0 s) (t : Nat) (w : Nat) : Keep s0 (finishWord s t w) := by
  unfold finishWord
  try dsimp only
  repeat' first
    | with_reducible exact h
    | with_reducible assumption
    | with_reducible apply putTile_keep
    | with_reducible apply applyOps_keep
    | with_reducible apply keep_ite
    | split
    | dsimp only
    | (with_reducible refine keep_mk (s := _) ?_ rfl rfl rfl rfl; first | with_reducible exact h | with_reducible assumption | with_reducible apply putTile_keep | with_reducible apply applyOps_keep | with_reducible apply keep_ite | split)

theorem emitTile_keep {s0 s : State} (h : Keep s0 s) (t : Nat) (seg : Nat) (emitted : Nat) (n : Nat) : Keep s0 (emitTile s t seg emitted n) := by
  unfold emitTile
  try dsimp only
  repeat' first
    | with_reducible exact h
    | with_reducible assumption
    | with_reducible apply putTile_keep
    | with_reducible apply showTile_keep
    | with_reducible apply beginWord_keep
    | with_reducible apply finishWord_keep
    | with_reducible apply keep_ite
    | split
    | dsimp only
    | (with_reducible refine keep_mk (s := _) ?_ rfl rfl rfl rfl; first | with_reducible exact h | with_reducible assumption | with_reducible apply putTile_keep | with_reducible apply showTile_keep | with_reducible apply beginWord_keep | with_reducible apply finishWord_keep | with_reducible apply keep_ite | split)

theorem emitHold_keep {s0 s : State} (h : Keep s0 s) (tiles : List Nat) (seg : Nat) (n : Nat) : Keep s0 (emitHold s tiles seg n) := by
  unfold emitHold
  try dsimp only
  repeat' first
    | with_reducible exact h
    | with_reducible assumption
    | with_reducible apply updTile_keep
    | with_reducible apply keep_ite
    | (with_reducible refine keep_foldl ?_ (fun _ _ _ => ?_))
    | split
    | (intro _)
    | dsimp only
    | (with_reducible refine keep_mk (s := _) ?_ rfl rfl rfl rfl; first | with_reducible exact h | with_reducible assumption | with_reducible apply updTile_keep | with_reducible apply keep_ite | (with_reducible refine keep_foldl ?_ (fun _ _ _ => ?_)) | split)

theorem cutTiles_keep {s0 s : State} (h : Keep s0 s) (g : Gang) (n : Nat) : Keep s0 (cutTiles s g n) := by
  unfold cutTiles
  try dsimp only
  repeat' first
    | with_reducible exact h
    | with_reducible assumption
    | with_reducible apply updTile_keep
    | with_reducible apply keep_ite
    | (with_reducible refine keep_foldl ?_ (fun _ _ _ => ?_))
    | split
    | (intro _)
    | dsimp only
    | (with_reducible refine keep_mk (s := _) ?_ rfl rfl rfl rfl; first | with_reducible exact h | with_reducible assumption | with_reducible apply updTile_keep | with_reducible apply keep_ite | (with_reducible refine keep_foldl ?_ (fun _ _ _ => ?_)) | split)

theorem gangCut_keep {s0 s : State} (h : Keep s0 s) (l : Nat) (g : Gang) (n : Nat) (st : Nat) : Keep s0 (gangCut s l g n st) := by
  unfold gangCut
  try dsimp only
  repeat' first
    | with_reducible exact h
    | with_reducible assumption
    | with_reducible apply putGang_keep
    | with_reducible apply cutTiles_keep
    | with_reducible apply keep_ite
    | split
    | dsimp only
    | (with_reducible refine keep_mk (s := _) ?_ rfl rfl rfl rfl; first | with_reducible exact h | with_reducible assumption | with_reducible apply putGang_keep | with_reducible apply cutTiles_keep | with_reducible apply keep_ite | split)

theorem genStart_keep {s0 s : State} (h : Keep s0 s) (l : Nat) (g : Gang) (seg : Nat) (n : Nat) : Keep s0 (genStart s l g seg n) := by
  unfold genStart
  try dsimp only
  repeat' first
    | with_reducible exact h
    | with_reducible assumption
    | with_reducible apply putGang_keep
    | with_reducible apply updTile_keep
    | with_reducible apply keep_ite
    | (with_reducible refine keep_foldl ?_ (fun _ _ _ => ?_))
    | split
    | (intro _)
    | dsimp only
    | (with_reducible refine keep_mk (s := _) ?_ rfl rfl rfl rfl; first | with_reducible exact h | with_reducible assumption | with_reducible apply putGang_keep | with_reducible apply updTile_keep | with_reducible apply keep_ite | (with_reducible refine keep_foldl ?_ (fun _ _ _ => ?_)) | split)

theorem genBoundary_keep {s0 s : State} (h : Keep s0 s) (l : Nat) (g : Gang) (b : Nat) : Keep s0 (genBoundary s l g b) := by
  unfold genBoundary
  try dsimp only
  repeat' first
    | with_reducible exact h
    | with_reducible assumption
    | with_reducible apply putGang_keep
    | with_reducible apply genStart_keep
    | with_reducible apply keep_ite
    | split
    | (intro _)
    | dsimp only
    | (with_reducible refine keep_mk (s := _) ?_ rfl rfl rfl rfl; first | with_reducible exact h | with_reducible assumption | with_reducible apply putGang_keep | with_reducible apply genStart_keep | with_reducible apply keep_ite | split)

theorem restartTile_keep {s0 s : State} (h : Keep s0 s) (m : Nat) (t : Nat) : Keep s0 (restartTile m s t) := by
  unfold restartTile
  try dsimp only
  repeat' first
    | with_reducible exact h
    | with_reducible assumption
    | with_reducible apply wr_keep
    | with_reducible apply putTile_keep
    | with_reducible apply showTile_keep
    | with_reducible apply keep_ite
    | split
    | dsimp only
    | (with_reducible refine keep_mk (s := _) ?_ rfl rfl rfl rfl; first | with_reducible exact h | with_reducible assumption | with_reducible apply wr_keep | with_reducible apply putTile_keep | with_reducible apply showTile_keep | with_reducible apply keep_ite | split)

theorem resumeCut_keep {s0 s : State} (h : Keep s0 s) (l : Nat) (g : Gang) (r : Nat) : Keep s0 (resumeCut s l g r) := by
  unfold resumeCut
  try dsimp only
  repeat' first
    | with_reducible exact h
    | with_reducible assumption
    | with_reducible apply putGang_keep
    | with_reducible apply cutTiles_keep
    | with_reducible apply keep_ite
    | split
    | dsimp only

theorem tryRestart_keep {s0 s : State} (h : Keep s0 s) (l : Nat) : Keep s0 (tryRestart s l) := by
  unfold tryRestart
  try dsimp only
  repeat' first
    | with_reducible exact h
    | with_reducible assumption
    | with_reducible apply resumeCut_keep
    | with_reducible apply keep_ite
    | split
    | dsimp only
    | (with_reducible refine keep_mk (s := _) ?_ rfl rfl rfl rfl; first | with_reducible exact h | with_reducible assumption | with_reducible apply resumeCut_keep | with_reducible apply keep_ite | split)

theorem underrunMarks_keep {s0 s : State} (h : Keep s0 s) (g : Gang) : Keep s0 (underrunMarks s g) := by
  unfold underrunMarks
  try dsimp only
  repeat' first
    | with_reducible exact h
    | with_reducible assumption
    | with_reducible apply setF_keep
    | with_reducible apply incF_keep
    | with_reducible apply raiseRole_keep
    | with_reducible apply flagSites_keep
    | with_reducible apply keep_ite
    | (with_reducible refine keep_foldl ?_ (fun _ _ _ => ?_))
    | split
    | (intro _)
    | dsimp only

theorem underrun_keep {s0 s : State} (h : Keep s0 s) (l : Nat) (g : Gang) (n : Nat) (m : Nat) : Keep s0 (underrun s l g n m) := by
  unfold underrun
  try dsimp only
  repeat' first
    | with_reducible exact h
    | with_reducible assumption
    | with_reducible apply putGang_keep
    | with_reducible apply restartTile_keep
    | with_reducible apply tryRestart_keep
    | with_reducible apply underrunMarks_keep
    | with_reducible apply keep_ite
    | (with_reducible refine keep_foldl ?_ (fun _ _ _ => ?_))
    | split
    | dsimp only
    | (with_reducible refine keep_mk (s := _) ?_ rfl rfl rfl rfl; first | with_reducible exact h | with_reducible assumption | with_reducible apply putGang_keep | with_reducible apply restartTile_keep | with_reducible apply tryRestart_keep | with_reducible apply underrunMarks_keep | with_reducible apply keep_ite | (with_reducible refine keep_foldl ?_ (fun _ _ _ => ?_)) | split)

theorem laneUnderrun_keep {s0 s : State} (h : Keep s0 s) (t : Nat) (n : Nat) : Keep s0 (laneUnderrun s t n) := by
  unfold laneUnderrun
  try dsimp only
  repeat' first
    | with_reducible exact h
    | with_reducible assumption
    | with_reducible apply putGang_keep
    | with_reducible apply cutTiles_keep
    | with_reducible apply gangCut_keep
    | with_reducible apply underrunMarks_keep
    | with_reducible apply underrun_keep
    | with_reducible apply keep_ite
    | split
    | (intro _)
    | dsimp only
    | (with_reducible refine keep_mk (s := _) ?_ rfl rfl rfl rfl; first | with_reducible exact h | with_reducible assumption | with_reducible apply putGang_keep | with_reducible apply cutTiles_keep | with_reducible apply gangCut_keep | with_reducible apply underrunMarks_keep | with_reducible apply underrun_keep | with_reducible apply keep_ite | split)

theorem genTurnPhase_keep {s0 s : State} (h : Keep s0 s) (go : State → State) (hg : ∀ x, Keep s0 x → Keep s0 (go x))
    (l : Nat) (g : Gang) (n len : Nat) (ph : GenPhase) : Keep s0 (genTurnPhase go s l g n len ph) := by
  unfold genTurnPhase
  repeat' first
  | with_reducible exact h
  | with_reducible apply keep_ite
  | with_reducible apply putGang_keep
  | with_reducible apply genBoundary_keep
  | with_reducible apply genStart_keep
  | with_reducible apply underrun_keep
  | with_reducible apply hg
  | split

theorem genTurn_keep {s0 s : State} (h : Keep s0 s) (n l : Nat) : Keep s0 (genTurn n s l) := by
  induction n generalizing s with
  | zero => exact h
  | succ n ih =>
    unfold genTurn
    dsimp only
    repeat' first
    | with_reducible exact h
    | with_reducible apply keep_ite
    | with_reducible apply putGang_keep
    | (with_reducible refine genTurnPhase_keep h _ (fun x hx => ih hx) _ _ _ _ _)
    | split

theorem genVector_keep {s0 s : State} (h : Keep s0 s) (l : Nat) : Keep s0 (genVector s l) := by
  unfold genVector
  try dsimp only
  repeat' first
    | with_reducible exact h
    | with_reducible assumption
    | with_reducible apply putGang_keep
    | with_reducible apply emitTile_keep
    | with_reducible apply emitHold_keep
    | with_reducible apply genTurn_keep
    | with_reducible apply keep_ite
    | (with_reducible refine keep_foldl ?_ (fun _ _ _ => ?_))
    | split
    | (intro _)
    | dsimp only
    | (with_reducible refine keep_mk (s := _) ?_ rfl rfl rfl rfl; first | with_reducible exact h | with_reducible assumption | with_reducible apply putGang_keep | with_reducible apply emitTile_keep | with_reducible apply emitHold_keep | with_reducible apply genTurn_keep | with_reducible apply keep_ite | (with_reducible refine keep_foldl ?_ (fun _ _ _ => ?_)) | split)

theorem genUpTo_keep {s0 s : State} (h : Keep s0 s) (l : Nat) (upto_ : Nat) : Keep s0 (genUpTo s l upto_) := by
  unfold genUpTo
  try dsimp only
  repeat' first
    | with_reducible exact h
    | with_reducible assumption
    | with_reducible apply genVector_keep
    | with_reducible apply keep_ite
    | (with_reducible refine keep_foldl ?_ (fun _ _ _ => ?_))
    | split
    | (intro _)
    | dsimp only
    | (with_reducible refine keep_mk (s := _) ?_ rfl rfl rfl rfl; first | with_reducible exact h | with_reducible assumption | with_reducible apply genVector_keep | with_reducible apply keep_ite | (with_reducible refine keep_foldl ?_ (fun _ _ _ => ?_)) | split)

theorem armTile_keep {s0 s : State} (h : Keep s0 s) (l : Nat) (tiles : List Nat) (t : Nat) : Keep s0 (armTile s l tiles t) := by
  unfold armTile
  try dsimp only
  repeat' first
    | with_reducible exact h
    | with_reducible assumption
    | with_reducible apply wr_keep
    | with_reducible apply clrF_keep
    | with_reducible apply setSeqState_keep
    | with_reducible apply updTile_keep
    | with_reducible apply showTile_keep
    | with_reducible apply keep_ite
    | split
    | (intro _)
    | dsimp only
    | (with_reducible refine keep_mk (s := _) ?_ rfl rfl rfl rfl; first | with_reducible exact h | with_reducible assumption | with_reducible apply wr_keep | with_reducible apply clrF_keep | with_reducible apply setSeqState_keep | with_reducible apply updTile_keep | with_reducible apply showTile_keep | with_reducible apply keep_ite | split)

theorem prefillCheck_keep {s0 s : State} (h : Keep s0 s) (l : Nat) : Keep s0 (prefillCheck s l) := by
  unfold prefillCheck
  try dsimp only
  repeat' first
    | with_reducible exact h
    | with_reducible assumption
    | with_reducible apply putGang_keep
    | with_reducible apply keep_ite
    | split
    | (intro _)
    | dsimp only
    | (with_reducible refine keep_mk (s := _) ?_ rfl rfl rfl rfl; first | with_reducible exact h | with_reducible assumption | with_reducible apply putGang_keep | with_reducible apply keep_ite | split)

theorem armGang_keep {s0 s : State} (h : Keep s0 s) (tiles : List Nat) (ts : Nat) (job : Option Nat) (auto : Bool) (old : Option Gang) (only : Option (List Nat)) : Keep s0 (armGang s tiles ts job auto old only) := by
  unfold armGang
  try dsimp only
  repeat' first
    | with_reducible exact h
    | with_reducible assumption
    | with_reducible apply putGang_keep
    | with_reducible apply siteArm_keep
    | with_reducible apply armTile_keep
    | with_reducible apply prefillCheck_keep
    | with_reducible apply keep_ite
    | (with_reducible refine keep_foldl ?_ (fun _ _ _ => ?_))
    | split
    | (intro _)
    | dsimp only

theorem execRunPattern_keep {s0 s : State} (h : Keep s0 s) (j : Nat) : OKeep s0 (execRunPattern j s) := by
  unfold execRunPattern
  try dsimp only
  repeat' first
    | with_reducible exact h
    | with_reducible assumption
    | with_reducible apply endJob_keep
    | with_reducible apply afterDeferral_keep
    | with_reducible apply startJob_keep
    | with_reducible apply armGang_keep
    | with_reducible apply keep_ite
    | with_reducible apply okeep_next
    | with_reducible apply okeep_fault
    | with_reducible apply okeep_ite
    | split
    | (intro _)
    | dsimp only
    | (with_reducible refine keep_mk (s := _) ?_ rfl rfl rfl rfl; first | with_reducible exact h | with_reducible assumption | with_reducible apply endJob_keep | with_reducible apply afterDeferral_keep | with_reducible apply startJob_keep | with_reducible apply armGang_keep | with_reducible apply keep_ite | with_reducible apply okeep_next | with_reducible apply okeep_fault | with_reducible apply okeep_ite | split)

theorem seqArm_keep {s0 s : State} (h : Keep s0 s) (t : Nat) : Keep s0 (seqArm s t) := by
  unfold seqArm
  try dsimp only
  repeat' first
    | with_reducible exact h
    | with_reducible assumption
    | with_reducible apply armGang_keep
    | with_reducible apply keep_ite
    | split
    | dsimp only

theorem execTilSeqArm_keep {s0 s : State} (h : Keep s0 s) (t : TileIx) : OKeep s0 (execTilSeqArm t s) := by
  unfold execTilSeqArm
  try dsimp only
  repeat' first
    | with_reducible exact h
    | with_reducible assumption
    | with_reducible apply barWrite_keep
    | with_reducible apply seqArm_keep
    | with_reducible apply keep_ite
    | with_reducible apply okeep_next
    | with_reducible apply okeep_fault
    | with_reducible apply okeep_ite
    | split
    | (intro _)
    | dsimp only

theorem patternEnter_keep {s0 s : State} (h : Keep s0 s) (t : Nat) : Keep s0 (patternEnter s t) := by
  unfold patternEnter
  try dsimp only
  repeat' first
    | with_reducible exact h
    | with_reducible assumption
    | with_reducible apply updSlice_keep
    | with_reducible apply updTile_keep
    | with_reducible apply cmpRestart_keep
    | with_reducible apply edgesTake_keep
    | with_reducible apply pmuAbort_keep
    | with_reducible apply keep_ite
    | (with_reducible refine keep_foldl ?_ (fun _ _ _ => ?_))
    | split
    | (intro _)
    | dsimp only
    | (with_reducible refine keep_mk (s := _) ?_ rfl rfl rfl rfl; first | with_reducible exact h | with_reducible assumption | with_reducible apply updSlice_keep | with_reducible apply updTile_keep | with_reducible apply cmpRestart_keep | with_reducible apply edgesTake_keep | with_reducible apply pmuAbort_keep | with_reducible apply keep_ite | (with_reducible refine keep_foldl ?_ (fun _ _ _ => ?_)) | split)

theorem sliceShadows_keep {s0 s : State} (h : Keep s0 s) (t : Nat) : Keep s0 (sliceShadows s t) := by
  unfold sliceShadows
  try dsimp only
  repeat' first
    | with_reducible exact h
    | with_reducible assumption
    | with_reducible apply applyShadow_keep
    | with_reducible apply keep_ite
    | (with_reducible refine keep_foldl ?_ (fun _ _ _ => ?_))
    | split
    | (intro _)
    | dsimp only

theorem runLeave_keep {s0 s : State} (h : Keep s0 s) (t : Nat) : Keep s0 (runLeave s t) := by
  unfold runLeave
  try dsimp only
  repeat' first
    | with_reducible exact h
    | with_reducible assumption
    | with_reducible apply applyShadow_keep
    | with_reducible apply keep_ite
    | split
    | dsimp only

theorem patternLeave_keep {s0 s : State} (h : Keep s0 s) (t : Nat) : Keep s0 (patternLeave s t) := by
  unfold patternLeave
  try dsimp only
  repeat' first
    | with_reducible exact h
    | with_reducible assumption
    | with_reducible apply applyShadow_keep
    | with_reducible apply updSlice_keep
    | with_reducible apply tdcCloseAll_keep
    | with_reducible apply cmpRestart_keep
    | with_reducible apply loadSync_keep
    | with_reducible apply edgesTake_keep
    | with_reducible apply keep_ite
    | (with_reducible refine keep_foldl ?_ (fun _ _ _ => ?_))
    | split
    | (intro _)
    | dsimp only
    | (with_reducible refine keep_mk (s := _) ?_ rfl rfl rfl rfl; first | with_reducible exact h | with_reducible assumption | with_reducible apply applyShadow_keep | with_reducible apply updSlice_keep | with_reducible apply tdcCloseAll_keep | with_reducible apply cmpRestart_keep | with_reducible apply loadSync_keep | with_reducible apply edgesTake_keep | with_reducible apply keep_ite | (with_reducible refine keep_foldl ?_ (fun _ _ _ => ?_)) | split)

theorem tilesLoaded_keep {s0 s : State} (h : Keep s0 s) (g : Gang) : Keep s0 (tilesLoaded s g) := by
  unfold tilesLoaded
  try dsimp only
  repeat' first
    | with_reducible exact h
    | with_reducible assumption
    | with_reducible apply clrF_keep
    | with_reducible apply setSeqState_keep
    | with_reducible apply updTile_keep
    | with_reducible apply memBoundary_keep
    | with_reducible apply sliceShadows_keep
    | with_reducible apply patternLeave_keep
    | with_reducible apply keep_ite
    | (with_reducible refine keep_foldl ?_ (fun _ _ _ => ?_))
    | split
    | (intro _)
    | dsimp only
    | (with_reducible refine keep_mk (s := _) ?_ rfl rfl rfl rfl; first | with_reducible exact h | with_reducible assumption | with_reducible apply clrF_keep | with_reducible apply setSeqState_keep | with_reducible apply updTile_keep | with_reducible apply memBoundary_keep | with_reducible apply sliceShadows_keep | with_reducible apply patternLeave_keep | with_reducible apply keep_ite | (with_reducible refine keep_foldl ?_ (fun _ _ _ => ?_)) | split)

theorem gangDone_keep {s0 s : State} (h : Keep s0 s) (l : Nat) (g : Gang) : Keep s0 (gangDone s l g) := by
  unfold gangDone
  try dsimp only
  repeat' first
    | with_reducible exact h
    | with_reducible assumption
    | with_reducible apply clrF_keep
    | with_reducible apply dropGang_keep
    | with_reducible apply endJob?_keep
    | with_reducible apply updTile_keep
    | with_reducible apply keep_ite
    | (with_reducible refine keep_foldl ?_ (fun _ _ _ => ?_))
    | split
    | (intro _)
    | dsimp only
    | (with_reducible refine keep_mk (s := _) ?_ rfl rfl rfl rfl; first | with_reducible exact h | with_reducible assumption | with_reducible apply clrF_keep | with_reducible apply dropGang_keep | with_reducible apply endJob?_keep | with_reducible apply updTile_keep | with_reducible apply keep_ite | (with_reducible refine keep_foldl ?_ (fun _ _ _ => ?_)) | split)

theorem disarm_keep {s0 s : State} (h : Keep s0 s) (l : Nat) (g : Gang) (st : Nat) : Keep s0 (disarm s l g st) := by
  unfold disarm
  try dsimp only
  repeat' first
    | with_reducible exact h
    | with_reducible assumption
    | with_reducible apply tilesLoaded_keep
    | with_reducible apply gangDone_keep
    | with_reducible apply keep_ite
    | split
    | dsimp only
    | (with_reducible refine keep_mk (s := _) ?_ rfl rfl rfl rfl; first | with_reducible exact h | with_reducible assumption | with_reducible apply tilesLoaded_keep | with_reducible apply gangDone_keep | with_reducible apply keep_ite | split)

theorem gangFault_keep {s0 s : State} (h : Keep s0 s) (l : Nat) (st : Nat) : Keep s0 (gangFault s l st) := by
  unfold gangFault
  try dsimp only
  repeat' first
    | with_reducible exact h
    | with_reducible assumption
    | with_reducible apply gangCut_keep
    | with_reducible apply disarm_keep
    | with_reducible apply keep_ite
    | split
    | dsimp only
    | (with_reducible refine keep_mk (s := _) ?_ rfl rfl rfl rfl; first | with_reducible exact h | with_reducible assumption | with_reducible apply gangCut_keep | with_reducible apply disarm_keep | with_reducible apply keep_ite | split)

theorem gangsFault_keep {s0 s : State} (h : Keep s0 s) (tiles : List Nat) (st : Nat) : Keep s0 (gangsFault s tiles st) := by
  unfold gangsFault
  try dsimp only
  repeat' first
    | with_reducible exact h
    | with_reducible assumption
    | with_reducible apply gangFault_keep
    | with_reducible apply keep_ite
    | (with_reducible refine keep_foldl ?_ (fun _ _ _ => ?_))
    | split
    | (intro _)
    | dsimp only

theorem gangAbort_keep {s0 s : State} (h : Keep s0 s) (l : Nat) : Keep s0 (gangAbort s l) := by
  unfold gangAbort
  try dsimp only
  repeat' first
    | with_reducible exact h
    | with_reducible assumption
    | with_reducible apply putGang_keep
    | with_reducible apply foldSite_keep
    | with_reducible apply gangCut_keep
    | with_reducible apply gangDone_keep
    | with_reducible apply disarm_keep
    | with_reducible apply keep_ite
    | (with_reducible refine keep_foldl ?_ (fun _ _ _ => ?_))
    | split
    | dsimp only
    | (with_reducible refine keep_mk (s := _) ?_ rfl rfl rfl rfl; first | with_reducible exact h | with_reducible assumption | with_reducible apply putGang_keep | with_reducible apply foldSite_keep | with_reducible apply gangCut_keep | with_reducible apply gangDone_keep | with_reducible apply disarm_keep | with_reducible apply keep_ite | (with_reducible refine keep_foldl ?_ (fun _ _ _ => ?_)) | split)

theorem onGang_keep {s0 s : State} (h : Keep s0 s) (t : Nat) (k : State → Nat → Gang → State) (hk : ∀ x0 x1 x2, Keep s0 x0 → Keep s0 (k x0 x1 x2)) : Keep s0 (onGang s t k) := by
  unfold onGang
  try dsimp only
  repeat' first
    | with_reducible exact h
    | with_reducible assumption
    | with_reducible apply keep_ite
    | apply hk
    | split
    | (intro _)
    | dsimp only
    | (with_reducible refine keep_mk (s := _) ?_ rfl rfl rfl rfl; first | with_reducible exact h | with_reducible assumption | with_reducible apply keep_ite | apply hk | split)

theorem seqAbort_keep {s0 s : State} (h : Keep s0 s) (t : Nat) : Keep s0 (seqAbort s t) := by
  unfold seqAbort
  try dsimp only
  repeat' first
    | with_reducible exact h
    | with_reducible assumption
    | with_reducible apply gangAbort_keep
    | with_reducible apply onGang_keep
    | with_reducible apply keep_ite
    | split
    | (intro _)
    | dsimp only

theorem execTilSeqAbort_keep {s0 s : State} (h : Keep s0 s) (t : TileIx) : OKeep s0 (execTilSeqAbort t s) := by
  unfold execTilSeqAbort
  try dsimp only
  repeat' first
    | with_reducible exact h
    | with_reducible assumption
    | with_reducible apply barWrite_keep
    | with_reducible apply seqAbort_keep
    | with_reducible apply keep_ite
    | with_reducible apply okeep_next
    | with_reducible apply okeep_fault
    | with_reducible apply okeep_ite
    | split
    | (intro _)
    | dsimp only

theorem seqHold_keep {s0 s : State} (h : Keep s0 s) (t : Nat) (thm : Bool) : Keep s0 (seqHold s t thm) := by
  unfold seqHold
  try dsimp only
  repeat' first
    | with_reducible exact h
    | with_reducible assumption
    | with_reducible apply putGang_keep
    | with_reducible apply onGang_keep
    | with_reducible apply keep_ite
    | split
    | (intro _)
    | dsimp only
    | (with_reducible refine keep_mk (s := _) ?_ rfl rfl rfl rfl; first | with_reducible exact h | with_reducible assumption | with_reducible apply putGang_keep | with_reducible apply onGang_keep | with_reducible apply keep_ite | split)

theorem execTilSeqHold_keep {s0 s : State} (h : Keep s0 s) (t : TileIx) : OKeep s0 (execTilSeqHold t s) := by
  unfold execTilSeqHold
  try dsimp only
  repeat' first
    | with_reducible exact h
    | with_reducible assumption
    | with_reducible apply barWrite_keep
    | with_reducible apply seqHold_keep
    | with_reducible apply keep_ite
    | with_reducible apply okeep_next
    | with_reducible apply okeep_fault
    | with_reducible apply okeep_ite
    | split
    | (intro _)
    | dsimp only

theorem holdRelease_keep {s0 s : State} (h : Keep s0 s) (l : Nat) (g : Gang) : Keep s0 (holdRelease s l g) := by
  unfold holdRelease
  try dsimp only
  repeat' first
    | with_reducible exact h
    | with_reducible assumption
    | with_reducible apply putGang_keep
    | with_reducible apply resumeCut_keep
    | with_reducible apply keep_ite
    | split
    | dsimp only
    | (with_reducible refine keep_mk (s := _) ?_ rfl rfl rfl rfl; first | with_reducible exact h | with_reducible assumption | with_reducible apply putGang_keep | with_reducible apply resumeCut_keep | with_reducible apply keep_ite | split)

theorem seqResume_keep {s0 s : State} (h : Keep s0 s) (t : Nat) : Keep s0 (seqResume s t) := by
  unfold seqResume
  apply onGang_keep h
  intro x0 x1 x2 hx
  exact keep_ite (holdRelease_keep hx _ _) hx

theorem execTilSeqResume_keep {s0 s : State} (h : Keep s0 s) (t : TileIx) : OKeep s0 (execTilSeqResume t s) := by
  unfold execTilSeqResume
  try dsimp only
  repeat' first
    | with_reducible exact h
    | with_reducible assumption
    | with_reducible apply barWrite_keep
    | with_reducible apply seqResume_keep
    | with_reducible apply keep_ite
    | with_reducible apply okeep_next
    | with_reducible apply okeep_fault
    | with_reducible apply okeep_ite
    | split
    | (intro _)
    | dsimp only

theorem thermalRelease_keep {s0 s : State} (h : Keep s0 s) (l : Nat) : Keep s0 (thermalRelease s l) := by
  unfold thermalRelease
  try dsimp only
  repeat' first
    | with_reducible exact h
    | with_reducible assumption
    | with_reducible apply clrF_keep
    | with_reducible apply putGang_keep
    | with_reducible apply holdRelease_keep
    | with_reducible apply keep_ite
    | (with_reducible refine keep_foldl ?_ (fun _ _ _ => ?_))
    | split
    | (intro _)
    | dsimp only
    | (with_reducible refine keep_mk (s := _) ?_ rfl rfl rfl rfl; first | with_reducible exact h | with_reducible assumption | with_reducible apply clrF_keep | with_reducible apply putGang_keep | with_reducible apply holdRelease_keep | with_reducible apply keep_ite | (with_reducible refine keep_foldl ?_ (fun _ _ _ => ?_)) | split)

theorem jumpRequest_keep {s0 s : State} (h : Keep s0 s) (t : Nat) (target : Nat) (rank : Nat) : Keep s0 (jumpRequest s t target rank) := by
  unfold jumpRequest
  try dsimp only
  repeat' first
    | with_reducible exact h
    | with_reducible assumption
    | with_reducible apply setF_keep
    | with_reducible apply putGang_keep
    | with_reducible apply raiseRole_keep
    | with_reducible apply keep_ite
    | split
    | (intro _)
    | dsimp only
    | (with_reducible refine keep_mk (s := _) ?_ rfl rfl rfl rfl; first | with_reducible exact h | with_reducible assumption | with_reducible apply setF_keep | with_reducible apply putGang_keep | with_reducible apply raiseRole_keep | with_reducible apply keep_ite | split)

theorem jumpWrite_keep {s0 s : State} (h : Keep s0 s) (t : Nat) (target : Nat) (go : Bool) : Keep s0 (jumpWrite s t target go) := by
  unfold jumpWrite
  try dsimp only
  repeat' first
    | with_reducible exact h
    | with_reducible assumption
    | with_reducible apply wr_keep
    | with_reducible apply setF_keep
    | with_reducible apply raiseRole_keep
    | with_reducible apply jumpRequest_keep
    | with_reducible apply keep_ite
    | split
    | dsimp only

theorem execTilSeqJumpGo_keep {s0 s : State} (h : Keep s0 s) (t : TileIx) (target : Nat) : OKeep s0 (execTilSeqJumpGo t target s) := by
  unfold execTilSeqJumpGo
  try dsimp only
  repeat' first
    | with_reducible exact h
    | with_reducible assumption
    | with_reducible apply barWrite_keep
    | with_reducible apply jumpWrite_keep
    | with_reducible apply keep_ite
    | with_reducible apply okeep_next
    | with_reducible apply okeep_fault
    | with_reducible apply okeep_ite
    | split
    | (intro _)
    | dsimp only

theorem triggerJump_keep {s0 s : State} (h : Keep s0 s) (i : Nat) : Keep s0 (triggerJump s i) := by
  unfold triggerJump
  try dsimp only
  repeat' first
    | with_reducible exact h
    | with_reducible assumption
    | with_reducible apply jumpRequest_keep
    | with_reducible apply keep_ite
    | (with_reducible refine keep_foldl ?_ (fun _ _ _ => ?_))
    | split
    | (intro _)
    | dsimp only

theorem refillRecord_keep {s0 s : State} (h : Keep s0 s) (t : Nat) (st : Nat) : Keep s0 (refillRecord s t st) := by
  unfold refillRecord
  try dsimp only
  repeat' first
    | with_reducible exact h
    | with_reducible assumption
    | with_reducible apply xltRecord_keep
    | with_reducible apply keep_ite
    | split
    | (intro _)
    | dsimp only
    | (with_reducible refine keep_mk (s := _) ?_ rfl rfl rfl rfl; first | with_reducible exact h | with_reducible assumption | with_reducible apply xltRecord_keep | with_reducible apply keep_ite | split)

theorem refillAhead_keep {s0 s : State} (h : Keep s0 s) (t : Nat) : Keep s0 (refillAhead s t) := by
  unfold refillAhead
  try dsimp only
  repeat' first
    | with_reducible exact h
    | with_reducible assumption
    | with_reducible apply askXlt_keep
    | with_reducible apply keep_ite
    | split
    | dsimp only
    | (with_reducible refine keep_mk (s := _) ?_ rfl rfl rfl rfl; first | with_reducible exact h | with_reducible assumption | with_reducible apply askXlt_keep | with_reducible apply keep_ite | split)

theorem refillUnpinned_keep {s0 s : State} (h : Keep s0 s) (t : Nat) (l : Nat) (ctx : Nat) : Keep s0 (refillUnpinned s t l ctx) := by
  unfold refillUnpinned
  try dsimp only
  repeat' first
    | with_reducible exact h
    | with_reducible assumption
    | with_reducible apply incF_keep
    | with_reducible apply signal_keep
    | with_reducible apply gangFault_keep
    | with_reducible apply refillRecord_keep
    | with_reducible apply keep_ite
    | split
    | dsimp only

theorem refillWait_keep {s0 s : State} (h : Keep s0 s) (t : Nat) (l : Nat) (va : Nat) (pv : Bool) (pasid : Nat) (ctx : Nat) : Keep s0 (refillWait s t l va pv pasid ctx) := by
  unfold refillWait
  try dsimp only
  repeat' first
    | with_reducible exact h
    | with_reducible assumption
    | with_reducible apply askXlt_keep
    | with_reducible apply askBi_keep
    | with_reducible apply refillUnpinned_keep
    | with_reducible apply keep_ite
    | split
    | dsimp only
    | (with_reducible refine keep_mk (s := _) ?_ rfl rfl rfl rfl; first | with_reducible exact h | with_reducible assumption | with_reducible apply askXlt_keep | with_reducible apply askBi_keep | with_reducible apply refillUnpinned_keep | with_reducible apply keep_ite | split)

theorem refillTake_keep {s0 s : State} (h : Keep s0 s) (t : Nat) (l : Nat) (d : List Nat) : Keep s0 (refillTake s t l d) := by
  unfold refillTake
  try dsimp only
  repeat' first
    | with_reducible exact h
    | with_reducible assumption
    | with_reducible apply wr_keep
    | with_reducible apply updTile_keep
    | with_reducible apply tryRestart_keep
    | with_reducible apply prefillCheck_keep
    | with_reducible apply keep_ite
    | split
    | (intro _)
    | dsimp only
    | (with_reducible refine keep_mk (s := _) ?_ rfl rfl rfl rfl; first | with_reducible exact h | with_reducible assumption | with_reducible apply wr_keep | with_reducible apply updTile_keep | with_reducible apply tryRestart_keep | with_reducible apply prefillCheck_keep | with_reducible apply keep_ite | split)

theorem refillData_keep {s0 s : State} (h : Keep s0 s) (t : Nat) (count : Nat) (ok : Bool) : Keep s0 (refillData s t count ok) := by
  unfold refillData
  try dsimp only
  repeat' first
    | with_reducible exact h
    | with_reducible assumption
    | with_reducible apply eccUncorrectable_keep
    | with_reducible apply memAsk_keep
    | with_reducible apply gangFault_keep
    | with_reducible apply refillRecord_keep
    | with_reducible apply refillAhead_keep
    | with_reducible apply refillUnpinned_keep
    | with_reducible apply refillWait_keep
    | with_reducible apply refillTake_keep
    | with_reducible apply keep_ite
    | split
    | (intro _)
    | dsimp only
    | (with_reducible refine keep_mk (s := _) ?_ rfl rfl rfl rfl; first | with_reducible exact h | with_reducible assumption | with_reducible apply eccUncorrectable_keep | with_reducible apply memAsk_keep | with_reducible apply gangFault_keep | with_reducible apply refillRecord_keep | with_reducible apply refillAhead_keep | with_reducible apply refillUnpinned_keep | with_reducible apply refillWait_keep | with_reducible apply refillTake_keep | with_reducible apply keep_ite | split)

theorem execRefillData_keep {s0 s : State} (h : Keep s0 s) (t : TileIx) (r : RefillRead) : OKeep s0 (execRefillData t r s) := by
  unfold execRefillData
  try dsimp only
  repeat' first
    | with_reducible exact h
    | with_reducible assumption
    | with_reducible apply refillData_keep
    | with_reducible apply keep_ite
    | with_reducible apply okeep_next
    | with_reducible apply okeep_fault
    | with_reducible apply okeep_ite
    | split
    | dsimp only

theorem execPrefillDeadline_keep {s0 s : State} (h : Keep s0 s) (t : TileIx) : OKeep s0 (execPrefillDeadline t s) := by
  unfold execPrefillDeadline
  try dsimp only
  repeat' first
    | with_reducible exact h
    | with_reducible assumption
    | with_reducible apply disarm_keep
    | with_reducible apply keep_ite
    | with_reducible apply okeep_next
    | with_reducible apply okeep_fault
    | with_reducible apply okeep_ite
    | split
    | dsimp only
    | (with_reducible refine keep_mk (s := _) ?_ rfl rfl rfl rfl; first | with_reducible exact h | with_reducible assumption | with_reducible apply disarm_keep | with_reducible apply keep_ite | with_reducible apply okeep_next | with_reducible apply okeep_fault | with_reducible apply okeep_ite | split)

theorem trackBoundary_keep {s0 s : State} (h : Keep s0 s) (t : Nat) : Keep s0 (trackBoundary s t) := by
  unfold trackBoundary
  try dsimp only
  repeat' first
    | with_reducible exact h
    | with_reducible assumption
    | with_reducible apply wr_keep
    | with_reducible apply putTile_keep
    | with_reducible apply keep_ite
    | (with_reducible refine keep_foldl ?_ (fun _ _ _ => ?_))
    | split
    | (intro _)
    | dsimp only
    | (with_reducible refine keep_mk (s := _) ?_ rfl rfl rfl rfl; first | with_reducible exact h | with_reducible assumption | with_reducible apply wr_keep | with_reducible apply putTile_keep | with_reducible apply keep_ite | (with_reducible refine keep_foldl ?_ (fun _ _ _ => ?_)) | split)

theorem segmentStart_keep {s0 s : State} (h : Keep s0 s) (l : Nat) (g : Gang) (seg : Nat) (n : Nat) : Keep s0 (segmentStart s l g seg n) := by
  unfold segmentStart
  try dsimp only
  repeat' first
    | with_reducible exact h
    | with_reducible assumption
    | with_reducible apply wr_keep
    | with_reducible apply incF_keep
    | with_reducible apply applyShadow_keep
    | with_reducible apply raiseRole_keep
    | with_reducible apply setSeqState_keep
    | with_reducible apply sliceShadows_keep
    | with_reducible apply trackBoundary_keep
    | with_reducible apply keep_ite
    | (with_reducible refine keep_foldl ?_ (fun _ _ _ => ?_))
    | split
    | (intro _)
    | dsimp only
    | (with_reducible refine keep_mk (s := _) ?_ rfl rfl rfl rfl; first | with_reducible exact h | with_reducible assumption | with_reducible apply wr_keep | with_reducible apply incF_keep | with_reducible apply applyShadow_keep | with_reducible apply raiseRole_keep | with_reducible apply setSeqState_keep | with_reducible apply sliceShadows_keep | with_reducible apply trackBoundary_keep | with_reducible apply keep_ite | (with_reducible refine keep_foldl ?_ (fun _ _ _ => ?_)) | split)

theorem patternStart_keep {s0 s : State} (h : Keep s0 s) (l : Nat) (g : Gang) (seg : Nat) (n : Nat) : Keep s0 (patternStart s l g seg n) := by
  unfold patternStart
  try dsimp only
  repeat' first
    | with_reducible exact h
    | with_reducible assumption
    | with_reducible apply putGang_keep
    | with_reducible apply setSeqState_keep
    | with_reducible apply patternEnter_keep
    | with_reducible apply segmentStart_keep
    | with_reducible apply keep_ite
    | (with_reducible refine keep_foldl ?_ (fun _ _ _ => ?_))
    | split
    | (intro _)
    | dsimp only
    | (with_reducible refine keep_mk (s := _) ?_ rfl rfl rfl rfl; first | with_reducible exact h | with_reducible assumption | with_reducible apply putGang_keep | with_reducible apply setSeqState_keep | with_reducible apply patternEnter_keep | with_reducible apply segmentStart_keep | with_reducible apply keep_ite | (with_reducible refine keep_foldl ?_ (fun _ _ _ => ?_)) | split)

theorem gangSettle_keep {s0 s : State} (h : Keep s0 s) (l : Nat) (g : Gang) : Keep s0 (gangSettle s l g) := by
  unfold gangSettle
  try dsimp only
  repeat' first
    | with_reducible exact h
    | with_reducible assumption
    | with_reducible apply updTile_keep
    | with_reducible apply foldSite_keep
    | with_reducible apply siteRollback_keep
    | with_reducible apply armGang_keep
    | with_reducible apply gangDone_keep
    | with_reducible apply keep_ite
    | (with_reducible refine keep_foldl ?_ (fun _ _ _ => ?_))
    | split
    | (intro _)
    | dsimp only
    | (with_reducible refine keep_mk (s := _) ?_ rfl rfl rfl rfl; first | with_reducible exact h | with_reducible assumption | with_reducible apply updTile_keep | with_reducible apply foldSite_keep | with_reducible apply siteRollback_keep | with_reducible apply armGang_keep | with_reducible apply gangDone_keep | with_reducible apply keep_ite | (with_reducible refine keep_foldl ?_ (fun _ _ _ => ?_)) | split)

theorem gangStop_keep {s0 s : State} (h : Keep s0 s) (l : Nat) (g : Gang) : Keep s0 (gangStop s l g) := by
  unfold gangStop
  try dsimp only
  repeat' first
    | with_reducible exact h
    | with_reducible assumption
    | with_reducible apply putGang_keep
    | with_reducible apply flagSites_keep
    | with_reducible apply foldSite_keep
    | with_reducible apply tilesLoaded_keep
    | with_reducible apply gangSettle_keep
    | with_reducible apply keep_ite
    | (with_reducible refine keep_foldl ?_ (fun _ _ _ => ?_))
    | split
    | (intro _)
    | dsimp only
    | (with_reducible refine keep_mk (s := _) ?_ rfl rfl rfl rfl; first | with_reducible exact h | with_reducible assumption | with_reducible apply putGang_keep | with_reducible apply flagSites_keep | with_reducible apply foldSite_keep | with_reducible apply tilesLoaded_keep | with_reducible apply gangSettle_keep | with_reducible apply keep_ite | (with_reducible refine keep_foldl ?_ (fun _ _ _ => ?_)) | split)

theorem gangEvent_keep {s0 s : State} (h : Keep s0 s) (l : Nat) (g : Gang) (n : Nat) (e : GangEv) (rest : List (Nat × GangEv)) : Keep s0 (gangEvent s l g n e rest) := by
  unfold gangEvent
  try dsimp only
  repeat' first
    | with_reducible exact h
    | with_reducible assumption
    | with_reducible apply wr_keep
    | with_reducible apply setF_keep
    | with_reducible apply putGang_keep
    | with_reducible apply setSeqState_keep
    | with_reducible apply tdcCloseAll_keep
    | with_reducible apply flagSites_keep
    | with_reducible apply runLeave_keep
    | with_reducible apply segmentStart_keep
    | with_reducible apply patternStart_keep
    | with_reducible apply gangStop_keep
    | with_reducible apply keep_ite
    | (with_reducible refine keep_foldl ?_ (fun _ _ _ => ?_))
    | split
    | (intro _)
    | dsimp only
    | (with_reducible refine keep_mk (s := _) ?_ rfl rfl rfl rfl; first | with_reducible exact h | with_reducible assumption | with_reducible apply wr_keep | with_reducible apply setF_keep | with_reducible apply putGang_keep | with_reducible apply setSeqState_keep | with_reducible apply tdcCloseAll_keep | with_reducible apply flagSites_keep | with_reducible apply runLeave_keep | with_reducible apply segmentStart_keep | with_reducible apply patternStart_keep | with_reducible apply gangStop_keep | with_reducible apply keep_ite | (with_reducible refine keep_foldl ?_ (fun _ _ _ => ?_)) | split)

theorem gangEvents_keep {s0 s : State} (h : Keep s0 s) (k l n : Nat) : Keep s0 (gangEvents k s l n) := by
  induction k generalizing s with
  | zero => exact h
  | succ k ih =>
    unfold gangEvents
    repeat' first
    | with_reducible exact h
    | with_reducible apply keep_ite
    | with_reducible apply ih
    | with_reducible apply gangEvent_keep
    | split

theorem takeEvent_keep {s0 s : State} (h : Keep s0 s) (t : Nat) (want : GangEv → Bool → Bool) : Keep s0 (takeEvent s t want) := by
  unfold takeEvent
  try dsimp only
  repeat' first
    | with_reducible exact h
    | with_reducible assumption
    | with_reducible apply genUpTo_keep
    | with_reducible apply gangEvent_keep
    | with_reducible apply keep_ite
    | split
    | dsimp only
    | (with_reducible refine keep_mk (s := _) ?_ rfl rfl rfl rfl; first | with_reducible exact h | with_reducible assumption | with_reducible apply genUpTo_keep | with_reducible apply gangEvent_keep | with_reducible apply keep_ite | split)

theorem execPatternStart_keep {s0 s : State} (h : Keep s0 s) (t : TileIx) : OKeep s0 (execPatternStart t s) := by
  unfold execPatternStart
  try dsimp only
  repeat' first
    | with_reducible exact h
    | with_reducible assumption
    | with_reducible apply takeEvent_keep
    | with_reducible apply keep_ite
    | with_reducible apply okeep_next
    | with_reducible apply okeep_fault
    | with_reducible apply okeep_ite
    | split
    | (intro _)
    | dsimp only
    | (with_reducible refine keep_mk (s := _) ?_ rfl rfl rfl rfl; first | with_reducible exact h | with_reducible assumption | with_reducible apply takeEvent_keep | with_reducible apply keep_ite | with_reducible apply okeep_next | with_reducible apply okeep_fault | with_reducible apply okeep_ite | split)

theorem execSegmentEnd_keep {s0 s : State} (h : Keep s0 s) (t : TileIx) : OKeep s0 (execSegmentEnd t s) := by
  unfold execSegmentEnd
  try dsimp only
  repeat' first
    | with_reducible exact h
    | with_reducible assumption
    | with_reducible apply takeEvent_keep
    | with_reducible apply keep_ite
    | with_reducible apply okeep_next
    | with_reducible apply okeep_fault
    | with_reducible apply okeep_ite
    | split
    | (intro _)
    | dsimp only

theorem execSegmentStart_keep {s0 s : State} (h : Keep s0 s) (t : TileIx) : OKeep s0 (execSegmentStart t s) := by
  unfold execSegmentStart
  try dsimp only
  repeat' first
    | with_reducible exact h
    | with_reducible assumption
    | with_reducible apply takeEvent_keep
    | with_reducible apply keep_ite
    | with_reducible apply okeep_next
    | with_reducible apply okeep_fault
    | with_reducible apply okeep_ite
    | split
    | (intro _)
    | dsimp only

theorem execEndSequenceDone_keep {s0 s : State} (h : Keep s0 s) (t : TileIx) : OKeep s0 (execEndSequenceDone t s) := by
  unfold execEndSequenceDone
  try dsimp only
  repeat' first
    | with_reducible exact h
    | with_reducible assumption
    | with_reducible apply takeEvent_keep
    | with_reducible apply keep_ite
    | with_reducible apply okeep_next
    | with_reducible apply okeep_fault
    | with_reducible apply okeep_ite
    | split
    | (intro _)
    | dsimp only

theorem execRetestArm_keep {s0 s : State} (h : Keep s0 s) (t : TileIx) : OKeep s0 (execRetestArm t s) := by
  unfold execRetestArm
  try dsimp only
  repeat' first
    | with_reducible exact h
    | with_reducible assumption
    | with_reducible apply gangSettle_keep
    | with_reducible apply keep_ite
    | with_reducible apply okeep_next
    | with_reducible apply okeep_fault
    | with_reducible apply okeep_ite
    | split
    | dsimp only
    | (with_reducible refine keep_mk (s := _) ?_ rfl rfl rfl rfl; first | with_reducible exact h | with_reducible assumption | with_reducible apply gangSettle_keep | with_reducible apply keep_ite | with_reducible apply okeep_next | with_reducible apply okeep_fault | with_reducible apply okeep_ite | split)

theorem driveChannel_keep {s0 s : State} (h : Keep s0 s) (t : Nat) (k : Nat) (n : Nat) (v : Vec) (valid : Bool) : Keep s0 (driveChannel s t k n v valid) := by
  unfold driveChannel
  try dsimp only
  repeat' first
    | with_reducible exact h
    | with_reducible assumption
    | with_reducible apply updSlice_keep
    | with_reducible apply loadSync_keep
    | with_reducible apply edgesTake_keep
    | with_reducible apply keep_ite
    | split
    | (intro _)
    | dsimp only
    | (with_reducible refine keep_mk (s := _) ?_ rfl rfl rfl rfl; first | with_reducible exact h | with_reducible assumption | with_reducible apply updSlice_keep | with_reducible apply loadSync_keep | with_reducible apply edgesTake_keep | with_reducible apply keep_ite | split)

theorem applyVector_keep {s0 s : State} (h : Keep s0 s) (t : Nat) (n : Nat) (g : Gang) (v : Vec) : Keep s0 (applyVector s t n g v) := by
  unfold applyVector
  try dsimp only
  repeat' first
    | with_reducible exact h
    | with_reducible assumption
    | with_reducible apply setF_keep
    | with_reducible apply updTile_keep
    | with_reducible apply strobesTake_keep
    | with_reducible apply requestSwitch_keep
    | with_reducible apply lateTake_keep
    | with_reducible apply tdcDue_keep
    | with_reducible apply vflagTrigger_keep
    | with_reducible apply driveChannel_keep
    | with_reducible apply keep_ite
    | (with_reducible refine keep_foldl ?_ (fun _ _ _ => ?_))
    | split
    | (intro _)
    | dsimp only
    | (with_reducible refine keep_mk (s := _) ?_ rfl rfl rfl rfl; first | with_reducible exact h | with_reducible assumption | with_reducible apply setF_keep | with_reducible apply updTile_keep | with_reducible apply strobesTake_keep | with_reducible apply requestSwitch_keep | with_reducible apply lateTake_keep | with_reducible apply tdcDue_keep | with_reducible apply vflagTrigger_keep | with_reducible apply driveChannel_keep | with_reducible apply keep_ite | (with_reducible refine keep_foldl ?_ (fun _ _ _ => ?_)) | split)

theorem absentVector_keep {s0 s : State} (h : Keep s0 s) (t : Nat) (n : Nat) (g : Gang) : Keep s0 (absentVector s t n g) := by
  unfold absentVector
  try dsimp only
  repeat' first
    | with_reducible exact h
    | with_reducible assumption
    | with_reducible apply setF_keep
    | with_reducible apply putGang_keep
    | with_reducible apply flagSites_keep
    | with_reducible apply applyVector_keep
    | with_reducible apply keep_ite
    | split
    | (intro _)
    | dsimp only
    | (with_reducible refine keep_mk (s := _) ?_ rfl rfl rfl rfl; first | with_reducible exact h | with_reducible assumption | with_reducible apply setF_keep | with_reducible apply putGang_keep | with_reducible apply flagSites_keep | with_reducible apply applyVector_keep | with_reducible apply keep_ite | split)

theorem tileVector_keep {s0 s : State} (h : Keep s0 s) (t : Nat) (n : Nat) : Keep s0 (tileVector s t n) := by
  unfold tileVector
  try dsimp only
  repeat' first
    | with_reducible exact h
    | with_reducible assumption
    | with_reducible apply putTile_keep
    | with_reducible apply applyVector_keep
    | with_reducible apply absentVector_keep
    | with_reducible apply keep_ite
    | split
    | (intro _)
    | dsimp only
    | (with_reducible refine keep_mk (s := _) ?_ rfl rfl rfl rfl; first | with_reducible exact h | with_reducible assumption | with_reducible apply putTile_keep | with_reducible apply applyVector_keep | with_reducible apply absentVector_keep | with_reducible apply keep_ite | split)

theorem restartNs_keep {s0 s : State} (h : Keep s0 s) (t : Nat) (n : Nat) : Keep s0 (restartNs s t n) := by
  unfold restartNs
  try dsimp only
  repeat' first
    | with_reducible exact h
    | with_reducible assumption
    | with_reducible apply putGang_keep
    | with_reducible apply keep_ite
    | split
    | (intro _)
    | dsimp only
    | (with_reducible refine keep_mk (s := _) ?_ rfl rfl rfl rfl; first | with_reducible exact h | with_reducible assumption | with_reducible apply putGang_keep | with_reducible apply keep_ite | split)

theorem boundaryClock_keep {s0 s : State} (h : Keep s0 s) (t : Nat) : Keep s0 (boundaryClock s t) := by
  unfold boundaryClock
  try dsimp only
  repeat' first
    | with_reducible exact h
    | with_reducible assumption
    | with_reducible apply updTile_keep
    | with_reducible apply setVcnt_keep
    | with_reducible apply applyPeriod_keep
    | with_reducible apply restartNs_keep
    | with_reducible apply keep_ite
    | split
    | (intro _)
    | dsimp only
    | (with_reducible refine keep_mk (s := _) ?_ rfl rfl rfl rfl; first | with_reducible exact h | with_reducible assumption | with_reducible apply updTile_keep | with_reducible apply setVcnt_keep | with_reducible apply applyPeriod_keep | with_reducible apply restartNs_keep | with_reducible apply keep_ite | split)

theorem boundaryRun_keep {s0 s : State} (h : Keep s0 s) (t : Nat) (l : Nat) (n : Nat) : Keep s0 (boundaryRun s t l n) := by
  unfold boundaryRun
  try dsimp only
  repeat' first
    | with_reducible exact h
    | with_reducible assumption
    | with_reducible apply genUpTo_keep
    | with_reducible apply gangEvents_keep
    | with_reducible apply tileVector_keep
    | with_reducible apply keep_ite
    | split
    | dsimp only

theorem boundaryGang_keep {s0 s : State} (h : Keep s0 s) (t : Nat) (n : Nat) : Keep s0 (boundaryGang s t n) := by
  unfold boundaryGang
  try dsimp only
  repeat' first
    | with_reducible exact h
    | with_reducible assumption
    | with_reducible apply boundaryRun_keep
    | with_reducible apply keep_ite
    | split
    | dsimp only
    | (with_reducible refine keep_mk (s := _) ?_ rfl rfl rfl rfl; first | with_reducible exact h | with_reducible assumption | with_reducible apply boundaryRun_keep | with_reducible apply keep_ite | split)

theorem vectorBoundary_keep {s0 s : State} (h : Keep s0 s) (t : Nat) : Keep s0 (vectorBoundary s t) := by
  unfold vectorBoundary
  try dsimp only
  repeat' first
    | with_reducible exact h
    | with_reducible assumption
    | with_reducible apply boundaryClock_keep
    | with_reducible apply boundaryGang_keep
    | with_reducible apply keep_ite
    | split
    | dsimp only

theorem execVectorBoundary_keep {s0 s : State} (h : Keep s0 s) (t : TileIx) : OKeep s0 (execVectorBoundary t s) := by
  unfold execVectorBoundary
  try dsimp only
  repeat' first
    | with_reducible exact h
    | with_reducible assumption
    | with_reducible apply vectorBoundary_keep
    | with_reducible apply keep_ite
    | with_reducible apply okeep_next
    | with_reducible apply okeep_fault
    | with_reducible apply okeep_ite
    | split
    | dsimp only

theorem execSetPeriod_keep {s0 s : State} (h : Keep s0 s) (j : Nat) : OKeep s0 (execSetPeriod j s) := by
  unfold execSetPeriod
  try dsimp only
  repeat' first
    | with_reducible exact h
    | with_reducible assumption
    | with_reducible apply wr_keep
    | with_reducible apply setF_keep
    | with_reducible apply endJob_keep
    | with_reducible apply setWork_keep
    | with_reducible apply armApply_keep
    | with_reducible apply keep_ite
    | with_reducible apply okeep_next
    | with_reducible apply okeep_fault
    | with_reducible apply okeep_ite
    | (with_reducible refine keep_foldl ?_ (fun _ _ _ => ?_))
    | split
    | (intro _)
    | dsimp only
    | (with_reducible refine keep_mk (s := _) ?_ rfl rfl rfl rfl; first | with_reducible exact h | with_reducible assumption | with_reducible apply wr_keep | with_reducible apply setF_keep | with_reducible apply endJob_keep | with_reducible apply setWork_keep | with_reducible apply armApply_keep | with_reducible apply keep_ite | with_reducible apply okeep_next | with_reducible apply okeep_fault | with_reducible apply okeep_ite | (with_reducible refine keep_foldl ?_ (fun _ _ _ => ?_)) | split)

end Sys2Proof.Machine
end

