-- ==== Sys2Proof/Laws/KeepFailJobs.lean ====
section
/-! SUPPORT. The operations of Machine/FailJobs.lean leave the queue alone and keep memories and registers canonical. -/
set_option maxRecDepth 4000
set_option linter.all false
namespace Sys2Proof.Machine

theorem execFailUpload_keep {s0 s : State} (h : Keep s0 s) (j : Nat) : OKeep s0 (execFailUpload j s) := by
  unfold execFailUpload
  try dsimp only
  repeat' first
    | with_reducible exact h
    | with_reducible assumption
    | with_reducible apply setF_keep
    | with_reducible apply endJob_keep
    | with_reducible apply endXlt_keep
    | (with_reducible refine jobWrite_keep_of (by with_reducible assumption) ?_)
    | with_reducible apply siteJoin_keep
    | with_reducible apply keep_ite
    | with_reducible apply okeep_next
    | with_reducible apply okeep_fault
    | with_reducible apply okeep_ite
    | split
    | dsimp only
    | (with_reducible refine keep_mk (s := _) ?_ rfl rfl rfl rfl; first | with_reducible exact h | with_reducible assumption | with_reducible apply setF_keep | with_reducible apply endJob_keep | with_reducible apply endXlt_keep | (with_reducible refine jobWrite_keep_of (by with_reducible assumption) ?_) | with_reducible apply siteJoin_keep | with_reducible apply keep_ite | with_reducible apply okeep_next | with_reducible apply okeep_fault | with_reducible apply okeep_ite | split)

theorem analyzeEnd_keep {s0 s : State} (h : Keep s0 s) (j : Nat) (x : Job) : Keep s0 (analyzeEnd s j x) := by
  unfold analyzeEnd
  try dsimp only
  repeat' first
    | with_reducible exact h
    | with_reducible assumption
    | with_reducible apply writeAndEnd_keep
    | with_reducible apply keep_ite
    | split
    | (intro _)
    | dsimp only

theorem dieDone_keep {s0 s : State} (h : Keep s0 s) (j : Nat) (x : Job) (regs : List Region) (expired : Bool) :
    Keep s0 (dieDone s j x regs expired) := by
  unfold dieDone
  dsimp only
  split
  · exact h
  · have hf := freshNat_keep h
    split
    · exact endXlt_keep hf _ _ _ _ _
    · rename_i s1 he
      have h1 : Keep s0 s1 := keep_exIte he (fun e => jobWrite_keep_of e hf) hf
      apply keep_ite
      · apply analyzeEnd_keep
        with_reducible refine keep_mk (s := _) ?_ rfl rfl rfl rfl
        apply putJob_keep
        apply wr_keep
        exact putSite_keep h1 _ _
      · with_reducible refine keep_mk (s := _) ?_ rfl rfl rfl rfl
        apply putJob_keep
        apply wr_keep
        exact putSite_keep h1 _ _

theorem analyzeStart_keep {s0 s : State} (h : Keep s0 s) (j : Nat) (x : Job) (mask : Nat) (recs : List (List Nat)) : Keep s0 (analyzeStart s j x mask recs) := by
  unfold analyzeStart
  try dsimp only
  repeat' first
    | with_reducible exact h
    | with_reducible assumption
    | with_reducible apply wr_keep
    | with_reducible apply setF_keep
    | with_reducible apply putJob_keep
    | with_reducible apply endJob_keep
    | with_reducible apply siteJoin_keep
    | with_reducible apply analyzeEnd_keep
    | with_reducible apply keep_ite
    | (with_reducible refine keep_foldl ?_ (fun _ _ _ => ?_))
    | split
    | (intro _)
    | dsimp only
    | (with_reducible refine keep_mk (s := _) ?_ rfl rfl rfl rfl; first | with_reducible exact h | with_reducible assumption | with_reducible apply wr_keep | with_reducible apply setF_keep | with_reducible apply putJob_keep | with_reducible apply endJob_keep | with_reducible apply siteJoin_keep | with_reducible apply analyzeEnd_keep | with_reducible apply keep_ite | (with_reducible refine keep_foldl ?_ (fun _ _ _ => ?_)) | split)

theorem analyzeWith_keep {s0 s : State} (h : Keep s0 s) (j : Nat) (x : Job) (k : List Nat → State) (hk : ∀ x0, Keep s0 (k x0)) : Keep s0 (analyzeWith s j x k) := by
  unfold analyzeWith
  try dsimp only
  repeat' first
    | with_reducible exact h
    | with_reducible assumption
    | with_reducible apply needBytes_keep
    | with_reducible apply keep_ite
    | apply hk
    | split
    | (intro _)
    | dsimp only

theorem execAnalyzeRepair_keep {s0 s : State} (h : Keep s0 s) (j : Nat) : OKeep s0 (execAnalyzeRepair j s) := by
  unfold execAnalyzeRepair
  try dsimp only
  repeat' first
    | with_reducible exact h
    | with_reducible assumption
    | with_reducible apply dieDone_keep
    | with_reducible apply analyzeStart_keep
    | with_reducible apply analyzeWith_keep
    | with_reducible apply keep_ite
    | with_reducible apply okeep_next
    | with_reducible apply okeep_fault
    | with_reducible apply okeep_ite
    | split
    | (intro _)
    | dsimp only
    | (with_reducible refine keep_mk (s := _) ?_ rfl rfl rfl rfl; first | with_reducible exact h | with_reducible assumption | with_reducible apply dieDone_keep | with_reducible apply analyzeStart_keep | with_reducible apply analyzeWith_keep | with_reducible apply keep_ite | with_reducible apply okeep_next | with_reducible apply okeep_fault | with_reducible apply okeep_ite | split)

theorem execRepairBudgetExpiry_keep {s0 s : State} (h : Keep s0 s) (j : Nat) : OKeep s0 (execRepairBudgetExpiry j s) := by
  unfold execRepairBudgetExpiry
  try dsimp only
  repeat' first
    | with_reducible exact h
    | with_reducible assumption
    | with_reducible apply dieDone_keep
    | with_reducible apply analyzeWith_keep
    | with_reducible apply keep_ite
    | with_reducible apply okeep_next
    | with_reducible apply okeep_fault
    | with_reducible apply okeep_ite
    | split
    | (intro _)
    | dsimp only
    | (with_reducible refine keep_mk (s := _) ?_ rfl rfl rfl rfl; first | with_reducible exact h | with_reducible assumption | with_reducible apply dieDone_keep | with_reducible apply analyzeWith_keep | with_reducible apply keep_ite | with_reducible apply okeep_next | with_reducible apply okeep_fault | with_reducible apply okeep_ite | split)

theorem binWrites_keep_of {s0 s t : State} {j out : Nat} {l : List (Nat × Nat)} (he : binWrites j out s l = .ok t) (h : Keep s0 s) :
    Keep s0 t := by
  induction l generalizing s with
  | nil => cases he; exact h
  | cons e r ih =>
    unfold binWrites at he
    split at he
    · rename_i s1 e1
      exact ih he (jobWrite_keep_of e1 h)
    · cases he

theorem execBin_keep {s0 s : State} (h : Keep s0 s) (j : Nat) : OKeep s0 (execBin j s) := by
  unfold execBin
  split
  · exact okeep_next h
  · refine okeep_next (needBytes_keep h j _ _ _ fun l => ?_)
    dsimp only
    refine keep_ite h (keep_ite (endJob_keep h _ _ _ _ _) (keep_ite (endJob_keep h _ _ _ _ _) (keep_ite (endJob_keep h _ _ _ _ _) ?_)))
    have hb : ∀ (l : List (Nat × Nat)) (s : State), Keep s0 s → Keep s0 (l.foldl (fun s e =>
        setF (wr s (siteB e.1) R.GLB_SITE_STAT_BIN e.2) (siteB e.1) R.GLB_SITE_STAT_BINV) s) := fun l s hs =>
      keep_foldl hs fun _ _ k => setF_keep (wr_keep k _ _ _) _ _
    have hj := fun x l i => hb l _ (siteJoin_keep h x i)
    split
    · rename_i s2 e2
      exact endJob_keep (binWrites_keep_of e2 (hj _ _ _)) _ _ _ _ _
    · exact endXlt_keep (hj _ _ _) _ _ _ _ _

end Sys2Proof.Machine
end

