-- ==== Sys2Proof/Laws/KeepTranslate.lean ====
section
/-! SUPPORT. The operations of Machine/Translate.lean leave the queue alone and keep memories and registers canonical. -/
set_option maxRecDepth 4000
set_option linter.all false
namespace Sys2Proof.Machine

theorem atcFill_keep {s0 s : State} (h : Keep s0 s) (x : XltReq) (va : Nat) (size : Nat) (pa : Nat) (r : Bool) (w : Bool) : Keep s0 (atcFill s x va size pa r w) := by
  unfold atcFill
  try dsimp only
  repeat' first
    | with_reducible exact h
    | with_reducible assumption
    | with_reducible apply updXlt_keep
    | with_reducible apply keep_ite
    | split
    | (intro _)
    | dsimp only
    | (with_reducible refine keep_mk (s := _) ?_ rfl rfl rfl rfl; first | with_reducible exact h | with_reducible assumption | with_reducible apply updXlt_keep | with_reducible apply keep_ite | split)

theorem atcTouch_keep {s0 s : State} (h : Keep s0 s) (pv : Bool) (pasid : Nat) (va : Nat) (isWr : Bool) : Keep s0 (atcTouch s pv pasid va isWr) := by
  unfold atcTouch
  try dsimp only
  repeat' first
    | with_reducible exact h
    | with_reducible assumption
    | with_reducible apply updXlt_keep
    | with_reducible apply keep_ite
    | split
    | (intro _)
    | dsimp only
    | (with_reducible refine keep_mk (s := _) ?_ rfl rfl rfl rfl; first | with_reducible exact h | with_reducible assumption | with_reducible apply updXlt_keep | with_reducible apply keep_ite | split)

theorem atcLock_keep_of {s0 s t : State} {who : Nat} {pv : Bool} {pasid : Nat} {r : List (Nat × Nat)}
    (he : atcLock s who pv pasid r = some t) (h : Keep s0 s) : Keep s0 t := by
  unfold atcLock at he
  dsimp only at he
  split at he
  · cases he; exact keep_same h rfl rfl rfl rfl
  · cases he

theorem atcUnlock_keep {s0 s : State} (h : Keep s0 s) (who : Nat) : Keep s0 (atcUnlock s who) := by
  unfold atcUnlock
  try dsimp only
  repeat' first
    | with_reducible exact h
    | with_reducible assumption
    | with_reducible apply updXlt_keep
    | with_reducible apply keep_ite
    | split
    | (intro _)
    | dsimp only
    | (with_reducible refine keep_mk (s := _) ?_ rfl rfl rfl rfl; first | with_reducible exact h | with_reducible assumption | with_reducible apply updXlt_keep | with_reducible apply keep_ite | split)

theorem ringErr_keep {s0 s : State} (h : Keep s0 s) (r : Nat) (cause : Nat) : Keep s0 (ringErr s r cause) := by
  unfold ringErr
  try dsimp only
  repeat' first
    | with_reducible exact h
    | with_reducible assumption
    | with_reducible apply wr_keep
    | with_reducible apply setF_keep
    | with_reducible apply keep_ite
    | split
    | dsimp only

theorem ringStop_keep {s0 s : State} (h : Keep s0 s) (r : Nat) (cause : Nat) (value : Nat) : Keep s0 (ringStop s r cause value) := by
  unfold ringStop
  try dsimp only
  repeat' first
    | with_reducible exact h
    | with_reducible assumption
    | with_reducible apply postEvt_keep
    | with_reducible apply ringErr_keep
    | with_reducible apply keep_ite
    | split
    | dsimp only
    | (with_reducible refine keep_mk (s := _) ?_ rfl rfl rfl rfl; first | with_reducible exact h | with_reducible assumption | with_reducible apply postEvt_keep | with_reducible apply ringErr_keep | with_reducible apply keep_ite | split)

theorem ringStopFree_keep {s0 s : State} (h : Keep s0 s) (r : Nat) (cause : Nat) : Keep s0 (ringStopFree s r cause) := by
  unfold ringStopFree
  try dsimp only
  repeat' first
    | with_reducible exact h
    | with_reducible assumption
    | with_reducible apply freshNat_keep
    | (with_reducible refine freshNat_keep_of (by with_reducible assumption) ?_)
    | with_reducible apply ringStop_keep
    | with_reducible apply keep_ite
    | split
    | dsimp only

theorem pinStep_keep {s0 s : State} (h : Keep s0 s) (k : Nat) : Keep s0 (pinStep s k) := by
  unfold pinStep
  try dsimp only
  repeat' first
    | with_reducible exact h
    | with_reducible assumption
    | with_reducible apply askXlt_keep
    | with_reducible apply keep_ite
    | split
    | dsimp only
    | (with_reducible refine keep_mk (s := _) ?_ rfl rfl rfl rfl; first | with_reducible exact h | with_reducible assumption | with_reducible apply askXlt_keep | with_reducible apply keep_ite | split)

theorem pinFail_keep {s0 s : State} (h : Keep s0 s) (k : Nat) : Keep s0 (pinFail s k) := by
  unfold pinFail
  try dsimp only
  repeat' first
    | with_reducible exact h
    | with_reducible assumption
    | with_reducible apply setF_keep
    | with_reducible apply clrF_keep
    | with_reducible apply atcUnlock_keep
    | with_reducible apply keep_ite
    | split
    | dsimp only
    | (with_reducible refine keep_mk (s := _) ?_ rfl rfl rfl rfl; first | with_reducible exact h | with_reducible assumption | with_reducible apply setF_keep | with_reducible apply clrF_keep | with_reducible apply atcUnlock_keep | with_reducible apply keep_ite | split)

theorem contextEnable_keep {s0 s : State} (h : Keep s0 s) (k : Nat) : Keep s0 (contextEnable s k) := by
  unfold contextEnable
  try dsimp only
  repeat' first
    | with_reducible exact h
    | with_reducible assumption
    | with_reducible apply setF_keep
    | with_reducible apply pinStep_keep
    | with_reducible apply updXlt_keep
    | (intro _)
    | with_reducible apply pinFail_keep
    | with_reducible apply keep_ite
    | split
    | dsimp only

theorem execContextEnable_keep {s0 s : State} (h : Keep s0 s) (k : CtxIx) : OKeep s0 (execContextEnable k s) := by
  unfold execContextEnable
  try dsimp only
  repeat' first
    | with_reducible exact h
    | with_reducible assumption
    | with_reducible apply barWrite_keep
    | with_reducible apply contextEnable_keep
    | with_reducible apply keep_ite
    | with_reducible apply okeep_next
    | with_reducible apply okeep_fault
    | with_reducible apply okeep_ite
    | split
    | (intro _)
    | dsimp only

theorem contextDisable_keep {s0 s : State} (h : Keep s0 s) (k : Nat) : Keep s0 (contextDisable s k) := by
  unfold contextDisable
  try dsimp only
  repeat' first
    | with_reducible exact h
    | with_reducible assumption
    | with_reducible apply setF_keep
    | with_reducible apply clrF_keep
    | with_reducible apply atcUnlock_keep
    | with_reducible apply pinFail_keep
    | with_reducible apply keep_ite
    | split
    | dsimp only
    | (with_reducible refine keep_mk (s := _) ?_ rfl rfl rfl rfl; first | with_reducible exact h | with_reducible assumption | with_reducible apply setF_keep | with_reducible apply clrF_keep | with_reducible apply atcUnlock_keep | with_reducible apply pinFail_keep | with_reducible apply keep_ite | split)

theorem execContextDisable_keep {s0 s : State} (h : Keep s0 s) (k : CtxIx) : OKeep s0 (execContextDisable k s) := by
  unfold execContextDisable
  try dsimp only
  repeat' first
    | with_reducible exact h
    | with_reducible assumption
    | with_reducible apply barWrite_keep
    | with_reducible apply contextDisable_keep
    | with_reducible apply keep_ite
    | with_reducible apply okeep_next
    | with_reducible apply okeep_fault
    | with_reducible apply okeep_ite
    | split
    | (intro _)
    | dsimp only

theorem execPinDone_keep {s0 s : State} (h : Keep s0 s) (k : CtxIx) : OKeep s0 (execPinDone k s) := by
  unfold execPinDone
  try dsimp only
  repeat' first
    | with_reducible exact h
    | with_reducible assumption
    | with_reducible apply setF_keep
    | with_reducible apply clrF_keep
    | (with_reducible refine atcLock_keep_of (by with_reducible assumption) ?_)
    | with_reducible apply pinStep_keep
    | with_reducible apply pinFail_keep
    | with_reducible apply keep_ite
    | with_reducible apply okeep_next
    | with_reducible apply okeep_fault
    | with_reducible apply okeep_ite
    | split
    | dsimp only
    | (with_reducible refine keep_mk (s := _) ?_ rfl rfl rfl rfl; first | with_reducible exact h | with_reducible assumption | with_reducible apply setF_keep | with_reducible apply clrF_keep | (with_reducible refine atcLock_keep_of (by with_reducible assumption) ?_) | with_reducible apply pinStep_keep | with_reducible apply pinFail_keep | with_reducible apply keep_ite | with_reducible apply okeep_next | with_reducible apply okeep_fault | with_reducible apply okeep_ite | split)

theorem spillFault_keep {s0 s : State} (h : Keep s0 s) (q : Nat) (j : Nat) (st : Nat) (va : Nat) (done : Nat) : Keep s0 (spillFault s q j st va done) := by
  unfold spillFault
  try dsimp only
  repeat' first
    | with_reducible exact h
    | with_reducible assumption
    | with_reducible apply updDig_keep
    | with_reducible apply endXlt_keep
    | with_reducible apply digHalt_keep
    | with_reducible apply closeOpen_keep
    | with_reducible apply keep_ite
    | split
    | (intro _)
    | dsimp only
    | (with_reducible refine keep_mk (s := _) ?_ rfl rfl rfl rfl; first | with_reducible exact h | with_reducible assumption | with_reducible apply updDig_keep | with_reducible apply endXlt_keep | with_reducible apply digHalt_keep | with_reducible apply closeOpen_keep | with_reducible apply keep_ite | split)

theorem jobFail_keep {s0 s : State} (h : Keep s0 s) (j : Nat) (st : Nat) (va : Nat) (done : Nat) (isWr : Bool) : Keep s0 (jobFail s j st va done isWr) := by
  unfold jobFail
  try dsimp only
  repeat' first
    | with_reducible exact h
    | with_reducible assumption
    | with_reducible apply endXlt_keep
    | with_reducible apply spillFault_keep
    | with_reducible apply keep_ite
    | split
    | dsimp only
    | (with_reducible refine keep_mk (s := _) ?_ rfl rfl rfl rfl; first | with_reducible exact h | with_reducible assumption | with_reducible apply endXlt_keep | with_reducible apply spillFault_keep | with_reducible apply keep_ite | split)

theorem whoFail_keep {s0 s : State} (h : Keep s0 s) (page : Nat) (st : Nat) (who : Nat) : Keep s0 (whoFail s page st who) := by
  unfold whoFail
  try dsimp only
  repeat' first
    | with_reducible exact h
    | with_reducible assumption
    | with_reducible apply updRing_keep
    | with_reducible apply gangFault_keep
    | with_reducible apply refillRecord_keep
    | with_reducible apply ringErr_keep
    | with_reducible apply ringStopFree_keep
    | with_reducible apply pinFail_keep
    | with_reducible apply jobFail_keep
    | with_reducible apply keep_ite
    | split
    | (intro _)
    | dsimp only
    | (with_reducible refine keep_mk (s := _) ?_ rfl rfl rfl rfl; first | with_reducible exact h | with_reducible assumption | with_reducible apply updRing_keep | with_reducible apply gangFault_keep | with_reducible apply refillRecord_keep | with_reducible apply ringErr_keep | with_reducible apply ringStopFree_keep | with_reducible apply pinFail_keep | with_reducible apply jobFail_keep | with_reducible apply keep_ite | split)

theorem setSusp_keep {s0 s : State} (h : Keep s0 s) (who : Nat) (v : Bool) : Keep s0 (setSusp s who v) := by
  unfold setSusp
  try dsimp only
  repeat' first
    | with_reducible exact h
    | with_reducible assumption
    | with_reducible apply putJob_keep
    | with_reducible apply keep_ite
    | split
    | dsimp only
    | (with_reducible refine keep_mk (s := _) ?_ rfl rfl rfl rfl; first | with_reducible exact h | with_reducible assumption | with_reducible apply putJob_keep | with_reducible apply keep_ite | split)

theorem countCtxFault_keep {s0 s : State} (h : Keep s0 s) (who : Nat) : Keep s0 (countCtxFault s who) := by
  unfold countCtxFault
  try dsimp only
  repeat' first
    | with_reducible exact h
    | with_reducible assumption
    | with_reducible apply incF_keep
    | with_reducible apply raiseRole_keep
    | with_reducible apply keep_ite
    | split
    | dsimp only
    | (with_reducible refine keep_mk (s := _) ?_ rfl rfl rfl rfl; first | with_reducible exact h | with_reducible assumption | with_reducible apply incF_keep | with_reducible apply raiseRole_keep | with_reducible apply keep_ite | split)

theorem raiseGroup_keep {s0 s : State} (h : Keep s0 s) (x : XltReq) : Keep s0 (raiseGroup s x) := by
  unfold raiseGroup
  try dsimp only
  repeat' first
    | with_reducible exact h
    | with_reducible assumption
    | with_reducible apply incF_keep
    | with_reducible apply updXlt_keep
    | with_reducible apply setSusp_keep
    | with_reducible apply countCtxFault_keep
    | with_reducible apply keep_ite
    | (with_reducible refine keep_foldl ?_ (fun _ _ _ => ?_))
    | split
    | (intro _)
    | dsimp only
    | (with_reducible refine keep_mk (s := _) ?_ rfl rfl rfl rfl; first | with_reducible exact h | with_reducible assumption | with_reducible apply incF_keep | with_reducible apply updXlt_keep | with_reducible apply setSusp_keep | with_reducible apply countCtxFault_keep | with_reducible apply keep_ite | (with_reducible refine keep_foldl ?_ (fun _ _ _ => ?_)) | split)

theorem pageFault_keep {s0 s : State} (h : Keep s0 s) (x : XltReq) : Keep s0 (pageFault s x) := by
  unfold pageFault
  try dsimp only
  repeat' first
    | with_reducible exact h
    | with_reducible assumption
    | with_reducible apply whoFail_keep
    | with_reducible apply raiseGroup_keep
    | with_reducible apply countCtxFault_keep
    | with_reducible apply keep_ite
    | (with_reducible refine keep_foldl ?_ (fun _ _ _ => ?_))
    | split
    | (intro _)
    | dsimp only
    | (with_reducible refine keep_mk (s := _) ?_ rfl rfl rfl rfl; first | with_reducible exact h | with_reducible assumption | with_reducible apply whoFail_keep | with_reducible apply raiseGroup_keep | with_reducible apply keep_ite | (with_reducible refine keep_foldl ?_ (fun _ _ _ => ?_)) | split)

theorem ringAsk_keep {s0 s : State} (h : Keep s0 s) (r : Nat) (va : Nat) (isWr : Bool) : Keep s0 (ringAsk s r va isWr) := by
  unfold ringAsk
  try dsimp only
  repeat' first
    | with_reducible exact h
    | with_reducible assumption
    | with_reducible apply askXlt_keep
    | with_reducible apply askBi_keep
    | with_reducible apply keep_ite
    | split
    | dsimp only
    | (with_reducible refine keep_mk (s := _) ?_ rfl rfl rfl rfl; first | with_reducible exact h | with_reducible assumption | with_reducible apply askXlt_keep | with_reducible apply askBi_keep | with_reducible apply keep_ite | split)

theorem whereStore_keep {s0 s : State} (h : Keep s0 s) (w : Where) (l : List Nat) : Keep s0 (whereStore s w l) := by
  unfold whereStore
  try dsimp only
  repeat' first
    | with_reducible exact h
    | with_reducible assumption
    | with_reducible apply hostStore_keep
    | with_reducible apply devStore_keep
    | with_reducible apply keep_ite
    | split
    | dsimp only
    | (with_reducible refine keep_mk (s := _) ?_ rfl rfl rfl rfl; first | with_reducible exact h | with_reducible assumption | with_reducible apply hostStore_keep | with_reducible apply devStore_keep | with_reducible apply keep_ite | split)

theorem judgeIndex_keep {s0 s : State} (h : Keep s0 s) (q : Nat) (v : Nat) : Keep s0 (judgeIndex s q v) := by
  unfold judgeIndex
  try dsimp only
  repeat' first
    | with_reducible exact h
    | with_reducible assumption
    | with_reducible apply wr_keep
    | with_reducible apply setF_keep
    | with_reducible apply ringStop_keep
    | with_reducible apply keep_ite
    | split
    | dsimp only

theorem readIndex_keep {s0 s : State} (h : Keep s0 s) (q : Nat) : Keep s0 (readIndex s q) := by
  unfold readIndex
  try dsimp only
  repeat' first
    | with_reducible exact h
    | with_reducible assumption
    | with_reducible apply ringStopFree_keep
    | with_reducible apply ringAsk_keep
    | with_reducible apply judgeIndex_keep
    | with_reducible apply keep_ite
    | split
    | dsimp only
    | (with_reducible refine keep_mk (s := _) ?_ rfl rfl rfl rfl; first | with_reducible exact h | with_reducible assumption | with_reducible apply ringStopFree_keep | with_reducible apply ringAsk_keep | with_reducible apply judgeIndex_keep | with_reducible apply keep_ite | split)

theorem watchLine_keep {s0 s : State} (h : Keep s0 s) (q : Nat) : Keep s0 (watchLine s q) := by
  unfold watchLine
  try dsimp only
  repeat' first
    | with_reducible exact h
    | with_reducible assumption
    | with_reducible apply keep_ite
    | split
    | dsimp only
    | (with_reducible refine keep_mk (s := _) ?_ rfl rfl rfl rfl; first | with_reducible exact h | with_reducible assumption | with_reducible apply keep_ite | split)

theorem ringEnabled_keep {s0 s : State} (h : Keep s0 s) (r : Nat) : Keep s0 (ringEnabled s r) := by
  unfold ringEnabled
  dsimp only
  have hr : Keep s0 { s with rings := { s.rings with enabling := s.rings.enabling.filter (· != r) } } := keep_same h rfl rfl rfl rfl
  split
  · exact ringErr_keep hr _ _
  · rename_i s1 he
    have h1 : Keep s0 s1 := by
      split at he
      · exact atcLock_keep_of he hr
      · cases he; exact hr
    apply keep_ite
    · apply watchLine_keep
      apply readIndex_keep
      apply wr_keep
      apply wr_keep
      apply setF_keep
      exact keep_same h1 rfl rfl rfl rfl
    · apply setF_keep
      apply wr_keep
      apply wr_keep
      apply setF_keep
      exact keep_same h1 rfl rfl rfl rfl

theorem enableStep_keep {s0 s : State} (h : Keep s0 s) (r : Nat) : Keep s0 (enableStep s r) := by
  unfold enableStep
  try dsimp only
  repeat' first
    | with_reducible exact h
    | with_reducible assumption
    | with_reducible apply ringErr_keep
    | with_reducible apply ringAsk_keep
    | with_reducible apply ringEnabled_keep
    | with_reducible apply keep_ite
    | split
    | dsimp only
    | (with_reducible refine keep_mk (s := _) ?_ rfl rfl rfl rfl; first | with_reducible exact h | with_reducible assumption | with_reducible apply ringErr_keep | with_reducible apply ringAsk_keep | with_reducible apply ringEnabled_keep | with_reducible apply keep_ite | split)

theorem whoGo_keep {s0 s : State} (h : Keep s0 s) (x : XltReq) (who : Nat) : Keep s0 (whoGo s x who) := by
  unfold whoGo
  try dsimp only
  repeat' first
    | with_reducible exact h
    | with_reducible assumption
    | with_reducible apply setF_keep
    | with_reducible apply updXlt_keep
    | (with_reducible refine atcLock_keep_of (by with_reducible assumption) ?_)
    | with_reducible apply pinStep_keep
    | with_reducible apply setSusp_keep
    | with_reducible apply readIndex_keep
    | with_reducible apply watchLine_keep
    | with_reducible apply enableStep_keep
    | with_reducible apply keep_ite
    | split
    | (intro _)
    | dsimp only
    | (with_reducible refine keep_mk (s := _) ?_ rfl rfl rfl rfl; first | with_reducible exact h | with_reducible assumption | with_reducible apply setF_keep | with_reducible apply updXlt_keep | (with_reducible refine atcLock_keep_of (by with_reducible assumption) ?_) | with_reducible apply pinStep_keep | with_reducible apply setSusp_keep | with_reducible apply readIndex_keep | with_reducible apply watchLine_keep | with_reducible apply enableStep_keep | with_reducible apply keep_ite | split)

theorem reask_keep {s0 s : State} (h : Keep s0 s) (x : XltReq) (retried : Bool) : Keep s0 (reask s x retried) := by
  unfold reask
  try dsimp only
  repeat' first
    | with_reducible exact h
    | with_reducible assumption
    | with_reducible apply incF_keep
    | with_reducible apply keep_ite
    | split
    | dsimp only
    | (with_reducible refine keep_mk (s := _) ?_ rfl rfl rfl rfl; first | with_reducible exact h | with_reducible assumption | with_reducible apply incF_keep | with_reducible apply keep_ite | split)

theorem dropReq_keep {s0 s : State} (h : Keep s0 s) (x : XltReq) : Keep s0 (dropReq s x) := by
  unfold dropReq
  try dsimp only
  repeat' first
    | with_reducible exact h
    | with_reducible assumption
    | with_reducible apply keep_ite
    | split
    | dsimp only
    | (with_reducible refine keep_mk (s := _) ?_ rfl rfl rfl rfl; first | with_reducible exact h | with_reducible assumption | with_reducible apply keep_ite | split)

theorem translationCompletion_keep {s0 s : State} (h : Keep s0 s) (ans : XltAnswer) : Keep s0 (translationCompletion s ans) := by
  unfold translationCompletion
  try dsimp only
  repeat' first
    | with_reducible exact h
    | with_reducible assumption
    | with_reducible apply atcFill_keep
    | with_reducible apply whoFail_keep
    | with_reducible apply pageFault_keep
    | with_reducible apply whoGo_keep
    | with_reducible apply reask_keep
    | with_reducible apply dropReq_keep
    | with_reducible apply keep_ite
    | (with_reducible refine keep_foldl ?_ (fun _ _ _ => ?_))
    | split
    | (intro _)
    | dsimp only
    | (with_reducible refine keep_mk (s := _) ?_ rfl rfl rfl rfl; first | with_reducible exact h | with_reducible assumption | with_reducible apply atcFill_keep | with_reducible apply whoFail_keep | with_reducible apply pageFault_keep | with_reducible apply whoGo_keep | with_reducible apply reask_keep | with_reducible apply dropReq_keep | with_reducible apply keep_ite | (with_reducible refine keep_foldl ?_ (fun _ _ _ => ?_)) | split)

theorem execTranslationCompletion_keep {s0 s : State} (h : Keep s0 s) (ans : XltAnswer) : OKeep s0 (execTranslationCompletion ans s) := by
  unfold execTranslationCompletion
  try dsimp only
  repeat' first
    | with_reducible exact h
    | with_reducible assumption
    | with_reducible apply translationCompletion_keep
    | with_reducible apply keep_ite
    | with_reducible apply okeep_next
    | with_reducible apply okeep_fault
    | with_reducible apply okeep_ite
    | split
    | dsimp only

theorem nextFault_keep {s0 s : State} (h : Keep s0 s) : Keep s0 (nextFault s) := by
  unfold nextFault
  try dsimp only
  repeat' first
    | with_reducible exact h
    | with_reducible assumption
    | with_reducible apply raiseGroup_keep
    | (with_reducible refine keep_foldl ?_ (fun _ _ _ => ?_))
    | with_reducible apply keep_ite
    | split
    | dsimp only
    | (with_reducible refine keep_mk (s := _) ?_ rfl rfl rfl rfl; first | with_reducible exact h | with_reducible assumption | with_reducible apply raiseGroup_keep | with_reducible apply keep_ite | split)

theorem dropGroup_keep {s0 s : State} (h : Keep s0 s) (idx : Nat) : Keep s0 (dropGroup s idx) := by
  unfold dropGroup
  try dsimp only
  repeat' first
    | with_reducible exact h
    | with_reducible assumption
    | with_reducible apply nextFault_keep
    | with_reducible apply keep_ite
    | split
    | dsimp only
    | (with_reducible refine keep_mk (s := _) ?_ rfl rfl rfl rfl; first | with_reducible exact h | with_reducible assumption | with_reducible apply nextFault_keep | with_reducible apply keep_ite | split)

theorem regroup_keep {s0 s : State} (h : Keep s0 s) (g : PrgGroup) : Keep s0 (regroup s g) := by
  unfold regroup
  try dsimp only
  repeat' first
    | with_reducible exact h
    | with_reducible assumption
    | with_reducible apply reask_keep
    | with_reducible apply keep_ite
    | (with_reducible refine keep_foldl ?_ (fun _ _ _ => ?_))
    | split
    | (intro _)
    | dsimp only

theorem execPageRequestResponse_keep {s0 s : State} (h : Keep s0 s) (idx : Nat) (code : PrgResponse) : OKeep s0 (execPageRequestResponse idx code s) := by
  unfold execPageRequestResponse
  try dsimp only
  repeat' first
    | with_reducible exact h
    | with_reducible assumption
    | with_reducible apply setF_keep
    | with_reducible apply whoFail_keep
    | with_reducible apply setSusp_keep
    | with_reducible apply dropGroup_keep
    | with_reducible apply regroup_keep
    | with_reducible apply keep_ite
    | with_reducible apply okeep_next
    | with_reducible apply okeep_fault
    | with_reducible apply okeep_ite
    | (with_reducible refine keep_foldl ?_ (fun _ _ _ => ?_))
    | split
    | (intro _)
    | dsimp only
    | (with_reducible refine keep_mk (s := _) ?_ rfl rfl rfl rfl; first | with_reducible exact h | with_reducible assumption | with_reducible apply setF_keep | with_reducible apply whoFail_keep | with_reducible apply setSusp_keep | with_reducible apply dropGroup_keep | with_reducible apply regroup_keep | with_reducible apply keep_ite | with_reducible apply okeep_next | with_reducible apply okeep_fault | with_reducible apply okeep_ite | (with_reducible refine keep_foldl ?_ (fun _ _ _ => ?_)) | split)

theorem execPriTimeout_keep {s0 s : State} (h : Keep s0 s) (idx : Nat) : OKeep s0 (execPriTimeout idx s) := by
  unfold execPriTimeout
  try dsimp only
  repeat' first
    | with_reducible exact h
    | with_reducible assumption
    | with_reducible apply updXlt_keep
    | with_reducible apply whoFail_keep
    | with_reducible apply keep_ite
    | with_reducible apply okeep_next
    | with_reducible apply okeep_fault
    | with_reducible apply okeep_ite
    | (with_reducible refine keep_foldl ?_ (fun _ _ _ => ?_))
    | split
    | (intro _)
    | dsimp only
    | (with_reducible refine keep_mk (s := _) ?_ rfl rfl rfl rfl; first | with_reducible exact h | with_reducible assumption | with_reducible apply updXlt_keep | with_reducible apply whoFail_keep | with_reducible apply keep_ite | with_reducible apply okeep_next | with_reducible apply okeep_fault | with_reducible apply okeep_ite | (with_reducible refine keep_foldl ?_ (fun _ _ _ => ?_)) | split)

theorem pinBroken_keep {s0 s : State} (h : Keep s0 s) (e : AtcEntry) (k : Nat) : Keep s0 (pinBroken s e k) := by
  unfold pinBroken
  try dsimp only
  repeat' first
    | with_reducible exact h
    | with_reducible assumption
    | with_reducible apply setF_keep
    | with_reducible apply clrF_keep
    | with_reducible apply signal_keep
    | with_reducible apply askXlt_keep
    | with_reducible apply keep_ite
    | split
    | dsimp only

theorem execAtsInvalidate_keep {s0 s : State} (h : Keep s0 s) (pv : Bool) (pasid : Nat) (base : Nat) (size : Nat) : OKeep s0 (execAtsInvalidate pv pasid base size s) := by
  unfold execAtsInvalidate
  try dsimp only
  repeat' first
    | with_reducible exact h
    | with_reducible assumption
    | with_reducible apply setF_keep
    | with_reducible apply updXlt_keep
    | with_reducible apply pinBroken_keep
    | with_reducible apply keep_ite
    | with_reducible apply okeep_next
    | with_reducible apply okeep_fault
    | with_reducible apply okeep_ite
    | (with_reducible refine keep_foldl ?_ (fun _ _ _ => ?_))
    | split
    | (intro _)
    | dsimp only
    | (with_reducible refine keep_mk (s := _) ?_ rfl rfl rfl rfl; first | with_reducible exact h | with_reducible assumption | with_reducible apply setF_keep | with_reducible apply updXlt_keep | with_reducible apply pinBroken_keep | with_reducible apply keep_ite | with_reducible apply okeep_next | with_reducible apply okeep_fault | with_reducible apply okeep_ite | (with_reducible refine keep_foldl ?_ (fun _ _ _ => ?_)) | split)

theorem execInvalidateCompletion_keep {s0 s : State} (h : Keep s0 s) : OKeep s0 (execInvalidateCompletion s) := by
  unfold execInvalidateCompletion
  try dsimp only
  repeat' first
    | with_reducible exact h
    | with_reducible assumption
    | with_reducible apply wr_keep
    | with_reducible apply incF_keep
    | with_reducible apply keep_ite
    | with_reducible apply okeep_next
    | with_reducible apply okeep_fault
    | with_reducible apply okeep_ite
    | split
    | dsimp only
    | (with_reducible refine keep_mk (s := _) ?_ rfl rfl rfl rfl; first | with_reducible exact h | with_reducible assumption | with_reducible apply wr_keep | with_reducible apply incF_keep | with_reducible apply keep_ite | with_reducible apply okeep_next | with_reducible apply okeep_fault | with_reducible apply okeep_ite | split)

theorem spend_keep {s0 s : State} (h : Keep s0 s) (y : Stream) (rank2 : Bool) : Keep s0 (spend s y rank2) := by
  unfold spend
  try dsimp only
  repeat' first
    | with_reducible exact h
    | with_reducible assumption
    | with_reducible apply keep_ite
    | split
    | dsimp only
    | (with_reducible refine keep_mk (s := _) ?_ rfl rfl rfl rfl; first | with_reducible exact h | with_reducible assumption | with_reducible apply keep_ite | split)

theorem drained_keep {s0 s : State} (h : Keep s0 s) (j : Nat) : Keep s0 (drained s j) := by
  unfold drained
  try dsimp only
  repeat' first
    | with_reducible exact h
    | with_reducible assumption
    | with_reducible apply finishJob_keep
    | with_reducible apply keep_ite
    | split
    | dsimp only
    | (with_reducible refine keep_mk (s := _) ?_ rfl rfl rfl rfl; first | with_reducible exact h | with_reducible assumption | with_reducible apply finishJob_keep | with_reducible apply keep_ite | split)

theorem advance_keep {s0 s : State} (h : Keep s0 s) (y : Stream) (n : Nat) : Keep s0 (advance s y n) := by
  unfold advance
  try dsimp only
  repeat' first
    | with_reducible exact h
    | with_reducible assumption
    | with_reducible apply drained_keep
    | with_reducible apply keep_ite
    | split
    | (intro _)
    | dsimp only
    | (with_reducible refine keep_mk (s := _) ?_ rfl rfl rfl rfl; first | with_reducible exact h | with_reducible assumption | with_reducible apply drained_keep | with_reducible apply keep_ite | split)

theorem prefetch_keep {s0 s : State} (h : Keep s0 s) (x : Job) (y : Stream) : Keep s0 (prefetch s x y) := by
  unfold prefetch
  try dsimp only
  repeat' first
    | with_reducible exact h
    | with_reducible assumption
    | with_reducible apply askXlt_keep
    | with_reducible apply keep_ite
    | split
    | dsimp only

theorem granuleMiss_keep {s0 s : State} (h : Keep s0 s) (x : Job) (y : Stream) : Keep s0 (granuleMiss s x y) := by
  unfold granuleMiss
  try dsimp only
  repeat' first
    | with_reducible exact h
    | with_reducible assumption
    | with_reducible apply incF_keep
    | with_reducible apply updXlt_keep
    | with_reducible apply signal_keep
    | with_reducible apply askXlt_keep
    | with_reducible apply jobFail_keep
    | with_reducible apply setSusp_keep
    | with_reducible apply keep_ite
    | split
    | (intro _)
    | dsimp only
    | (with_reducible refine keep_mk (s := _) ?_ rfl rfl rfl rfl; first | with_reducible exact h | with_reducible assumption | with_reducible apply incF_keep | with_reducible apply updXlt_keep | with_reducible apply signal_keep | with_reducible apply askXlt_keep | with_reducible apply jobFail_keep | with_reducible apply setSusp_keep | with_reducible apply keep_ite | split)

theorem issueGranule_keep {s0 s : State} (h : Keep s0 s) (x : Job) (y : Stream) (rank2 : Bool) : Keep s0 (issueGranule s x y rank2) := by
  unfold issueGranule
  try dsimp only
  repeat' first
    | with_reducible exact h
    | with_reducible assumption
    | with_reducible apply updXlt_keep
    | with_reducible apply hostStore_keep
    | with_reducible apply atcTouch_keep
    | with_reducible apply jobFail_keep
    | with_reducible apply spend_keep
    | with_reducible apply advance_keep
    | with_reducible apply prefetch_keep
    | with_reducible apply granuleMiss_keep
    | with_reducible apply keep_ite
    | split
    | (intro _)
    | dsimp only
    | (with_reducible refine keep_mk (s := _) ?_ rfl rfl rfl rfl; first | with_reducible exact h | with_reducible assumption | with_reducible apply updXlt_keep | with_reducible apply hostStore_keep | with_reducible apply atcTouch_keep | with_reducible apply jobFail_keep | with_reducible apply spend_keep | with_reducible apply advance_keep | with_reducible apply prefetch_keep | with_reducible apply granuleMiss_keep | with_reducible apply keep_ite | split)

theorem devGranule_keep {s0 s : State} (h : Keep s0 s) (x : Job) (y : Stream) : Keep s0 (devGranule s x y) := by
  unfold devGranule
  try dsimp only
  repeat' first
    | with_reducible exact h
    | with_reducible assumption
    | with_reducible apply updXlt_keep
    | with_reducible apply devStore_keep
    | with_reducible apply askBi_keep
    | with_reducible apply memAskWrite_keep
    | with_reducible apply jobFail_keep
    | with_reducible apply advance_keep
    | with_reducible apply keep_ite
    | (with_reducible refine keep_foldl ?_ (fun _ _ _ => ?_))
    | split
    | (intro _)
    | dsimp only
    | (with_reducible refine keep_mk (s := _) ?_ rfl rfl rfl rfl; first | with_reducible exact h | with_reducible assumption | with_reducible apply updXlt_keep | with_reducible apply devStore_keep | with_reducible apply askBi_keep | with_reducible apply memAskWrite_keep | with_reducible apply jobFail_keep | with_reducible apply advance_keep | with_reducible apply keep_ite | (with_reducible refine keep_foldl ?_ (fun _ _ _ => ?_)) | split)

theorem storeAll_keep {s0 s : State} (h : Keep s0 s) (pv : Bool) (pasid : Nat) (va : Nat) (l : List Nat) : Keep s0 (storeAll s pv pasid va l) := by
  unfold storeAll
  try dsimp only
  repeat' first
    | with_reducible exact h
    | with_reducible assumption
    | with_reducible apply whereStore_keep
    | with_reducible apply keep_ite
    | (with_reducible refine keep_foldl ?_ (fun _ _ _ => ?_))
    | split
    | (intro _)
    | dsimp only

theorem snapWrite_keep {s0 s : State} (h : Keep s0 s) : Keep s0 (snapWrite s) := by
  unfold snapWrite
  try dsimp only
  repeat' first
    | with_reducible exact h
    | with_reducible assumption
    | with_reducible apply updRing_keep
    | with_reducible apply askXlt_keep
    | with_reducible apply askBi_keep
    | with_reducible apply storeAll_keep
    | with_reducible apply keep_ite
    | (with_reducible refine keep_foldl ?_ (fun _ _ _ => ?_))
    | split
    | (intro _)
    | dsimp only
    | (with_reducible refine keep_mk (s := _) ?_ rfl rfl rfl rfl; first | with_reducible exact h | with_reducible assumption | with_reducible apply updRing_keep | with_reducible apply askXlt_keep | with_reducible apply askBi_keep | with_reducible apply storeAll_keep | with_reducible apply keep_ite | (with_reducible refine keep_foldl ?_ (fun _ _ _ => ?_)) | split)

theorem linkGranule_keep {s0 s : State} (h : Keep s0 s) (isWr : Bool) : Keep s0 (linkGranule s isWr) := by
  unfold linkGranule
  try dsimp only
  repeat' first
    | with_reducible exact h
    | with_reducible assumption
    | with_reducible apply issueGranule_keep
    | with_reducible apply snapWrite_keep
    | with_reducible apply keep_ite
    | split
    | dsimp only
    | (with_reducible refine keep_mk (s := _) ?_ rfl rfl rfl rfl; first | with_reducible exact h | with_reducible assumption | with_reducible apply issueGranule_keep | with_reducible apply snapWrite_keep | with_reducible apply keep_ite | split)

theorem execGranuleIssue_keep {s0 s : State} (h : Keep s0 s) (wr_ : Bool) : OKeep s0 (execGranuleIssue wr_ s) := by
  unfold execGranuleIssue
  try dsimp only
  repeat' first
    | with_reducible exact h
    | with_reducible assumption
    | with_reducible apply devGranule_keep
    | with_reducible apply linkGranule_keep
    | with_reducible apply keep_ite
    | with_reducible apply okeep_next
    | with_reducible apply okeep_fault
    | with_reducible apply okeep_ite
    | split
    | dsimp only
    | (with_reducible refine keep_mk (s := _) ?_ rfl rfl rfl rfl; first | with_reducible exact h | with_reducible assumption | with_reducible apply devGranule_keep | with_reducible apply linkGranule_keep | with_reducible apply keep_ite | with_reducible apply okeep_next | with_reducible apply okeep_fault | with_reducible apply okeep_ite | split)

theorem execDmaReadCompletion_keep {s0 s : State} (h : Keep s0 s) (tagNo : Nat) (ok : Bool) : OKeep s0 (execDmaReadCompletion tagNo ok s) := by
  unfold execDmaReadCompletion
  try dsimp only
  repeat' first
    | with_reducible exact h
    | with_reducible assumption
    | with_reducible apply putJob_keep
    | with_reducible apply jobFail_keep
    | with_reducible apply keep_ite
    | with_reducible apply okeep_next
    | with_reducible apply okeep_fault
    | with_reducible apply okeep_ite
    | split
    | dsimp only
    | (with_reducible refine keep_mk (s := _) ?_ rfl rfl rfl rfl; first | with_reducible exact h | with_reducible assumption | with_reducible apply putJob_keep | with_reducible apply jobFail_keep | with_reducible apply keep_ite | with_reducible apply okeep_next | with_reducible apply okeep_fault | with_reducible apply okeep_ite | split)

end Sys2Proof.Machine
end

