-- ==== Sys2Proof/Laws/KeepRings.lean ====
section
/-! SUPPORT. The operations of Machine/Rings.lean leave the queue alone and keep memories and registers canonical. -/
set_option maxRecDepth 4000
set_option linter.all false
namespace Sys2Proof.Machine

theorem ringEnable_keep {s0 s : State} (h : Keep s0 s) (r : Nat) : Keep s0 (ringEnable s r) := by
  unfold ringEnable
  try dsimp only
  repeat' first
    | with_reducible exact h
    | with_reducible assumption
    | with_reducible apply updRings_keep
    | with_reducible apply ringErr_keep
    | with_reducible apply enableStep_keep
    | with_reducible apply keep_ite
    | split
    | (intro _)
    | dsimp only
    | (with_reducible refine keep_mk (s := _) ?_ rfl rfl rfl rfl; first | with_reducible exact h | with_reducible assumption | with_reducible apply updRings_keep | with_reducible apply ringErr_keep | with_reducible apply enableStep_keep | with_reducible apply keep_ite | split)

theorem execRingEnable_keep {s0 s : State} (h : Keep s0 s) (r : Nat) : OKeep s0 (execRingEnable r s) := by
  unfold execRingEnable
  try dsimp only
  repeat' first
    | with_reducible exact h
    | with_reducible assumption
    | with_reducible apply barWrite_keep
    | with_reducible apply ringEnable_keep
    | with_reducible apply keep_ite
    | with_reducible apply okeep_next
    | with_reducible apply okeep_fault
    | with_reducible apply okeep_ite
    | split
    | (intro _)
    | dsimp only

theorem dropWatch_keep {s0 s : State} (h : Keep s0 s) : Keep s0 (dropWatch s) := by
  unfold dropWatch
  try dsimp only
  repeat' first
    | with_reducible exact h
    | with_reducible assumption
    | with_reducible apply keep_ite
    | split
    | (intro _)
    | dsimp only
    | (with_reducible refine keep_mk (s := _) ?_ rfl rfl rfl rfl; first | with_reducible exact h | with_reducible assumption | with_reducible apply keep_ite | split)

theorem evrDrop_keep {s0 s : State} (h : Keep s0 s) (r : Nat) : Keep s0 (evrDrop s r) := by
  unfold evrDrop
  try dsimp only
  repeat' first
    | with_reducible exact h
    | with_reducible assumption
    | with_reducible apply addF_keep
    | with_reducible apply updRings_keep
    | with_reducible apply keep_ite
    | split
    | (intro _)
    | dsimp only
    | (with_reducible refine keep_mk (s := _) ?_ rfl rfl rfl rfl; first | with_reducible exact h | with_reducible assumption | with_reducible apply addF_keep | with_reducible apply updRings_keep | with_reducible apply keep_ite | split)

theorem ringDisable_keep {s0 s : State} (h : Keep s0 s) (r : Nat) : Keep s0 (ringDisable s r) := by
  unfold ringDisable
  try dsimp only
  repeat' first
    | with_reducible exact h
    | with_reducible assumption
    | with_reducible apply clrF_keep
    | with_reducible apply updRings_keep
    | with_reducible apply atcUnlock_keep
    | with_reducible apply dropWatch_keep
    | with_reducible apply evrDrop_keep
    | with_reducible apply keep_ite
    | split
    | (intro _)
    | dsimp only
    | (with_reducible refine keep_mk (s := _) ?_ rfl rfl rfl rfl; first | with_reducible exact h | with_reducible assumption | with_reducible apply clrF_keep | with_reducible apply updRings_keep | with_reducible apply atcUnlock_keep | with_reducible apply dropWatch_keep | with_reducible apply evrDrop_keep | with_reducible apply keep_ite | split)

theorem execRingDisable_keep {s0 s : State} (h : Keep s0 s) (r : Nat) : OKeep s0 (execRingDisable r s) := by
  unfold execRingDisable
  try dsimp only
  repeat' first
    | with_reducible exact h
    | with_reducible assumption
    | with_reducible apply barWrite_keep
    | with_reducible apply ringDisable_keep
    | with_reducible apply keep_ite
    | with_reducible apply okeep_next
    | with_reducible apply okeep_fault
    | with_reducible apply okeep_ite
    | split
    | (intro _)
    | dsimp only

theorem sendMsix_keep {s0 s : State} (h : Keep s0 s) (v : Nat) : Keep s0 (sendMsix s v) := by
  unfold sendMsix
  try dsimp only
  repeat' first
    | with_reducible exact h
    | with_reducible assumption
    | with_reducible apply updRings_keep
    | with_reducible apply keep_ite
    | split
    | (intro _)
    | dsimp only
    | (with_reducible refine keep_mk (s := _) ?_ rfl rfl rfl rfl; first | with_reducible exact h | with_reducible assumption | with_reducible apply updRings_keep | with_reducible apply keep_ite | split)

theorem msixFlush_keep {s0 s : State} (h : Keep s0 s) : Keep s0 (msixFlush s) := by
  unfold msixFlush
  try dsimp only
  repeat' first
    | with_reducible exact h
    | with_reducible assumption
    | with_reducible apply updRings_keep
    | with_reducible apply sendMsix_keep
    | with_reducible apply keep_ite
    | (with_reducible refine keep_foldl ?_ (fun _ _ _ => ?_))
    | split
    | (intro _)
    | dsimp only
    | (with_reducible refine keep_mk (s := _) ?_ rfl rfl rfl rfl; first | with_reducible exact h | with_reducible assumption | with_reducible apply updRings_keep | with_reducible apply sendMsix_keep | with_reducible apply keep_ite | (with_reducible refine keep_foldl ?_ (fun _ _ _ => ?_)) | split)

theorem execMsixUnmask_keep {s0 s : State} (h : Keep s0 s) (v : Nat) : OKeep s0 (execMsixUnmask v s) := by
  unfold execMsixUnmask
  try dsimp only
  repeat' first
    | with_reducible exact h
    | with_reducible assumption
    | with_reducible apply updRings_keep
    | with_reducible apply barWrite_keep
    | with_reducible apply msixFlush_keep
    | with_reducible apply keep_ite
    | with_reducible apply okeep_next
    | with_reducible apply okeep_fault
    | with_reducible apply okeep_ite
    | split
    | (intro _)
    | dsimp only
    | (with_reducible refine keep_mk (s := _) ?_ rfl rfl rfl rfl; first | with_reducible exact h | with_reducible assumption | with_reducible apply updRings_keep | with_reducible apply barWrite_keep | with_reducible apply msixFlush_keep | with_reducible apply keep_ite | with_reducible apply okeep_next | with_reducible apply okeep_fault | with_reducible apply okeep_ite | split)

theorem ringInterrupt_keep {s0 s : State} (h : Keep s0 s) (r : Nat) : Keep s0 (ringInterrupt s r) := by
  unfold ringInterrupt
  try dsimp only
  repeat' first
    | with_reducible exact h
    | with_reducible assumption
    | with_reducible apply updRings_keep
    | with_reducible apply sendMsix_keep
    | with_reducible apply keep_ite
    | split
    | (intro _)
    | dsimp only
    | (with_reducible refine keep_mk (s := _) ?_ rfl rfl rfl rfl; first | with_reducible exact h | with_reducible assumption | with_reducible apply updRings_keep | with_reducible apply sendMsix_keep | with_reducible apply keep_ite | split)

theorem entryWritten_keep {s0 s : State} (h : Keep s0 s) (r : Nat) (cie : Bool) : Keep s0 (entryWritten s r cie) := by
  unfold entryWritten
  try dsimp only
  repeat' first
    | with_reducible exact h
    | with_reducible assumption
    | with_reducible apply updRings_keep
    | with_reducible apply ringInterrupt_keep
    | with_reducible apply keep_ite
    | split
    | (intro _)
    | dsimp only
    | (with_reducible refine keep_mk (s := _) ?_ rfl rfl rfl rfl; first | with_reducible exact h | with_reducible assumption | with_reducible apply updRings_keep | with_reducible apply ringInterrupt_keep | with_reducible apply keep_ite | split)

theorem execImodTimerExpiry_keep {s0 s : State} (h : Keep s0 s) (r : Nat) : OKeep s0 (execImodTimerExpiry r s) := by
  unfold execImodTimerExpiry
  try dsimp only
  repeat' first
    | with_reducible exact h
    | with_reducible assumption
    | with_reducible apply ringInterrupt_keep
    | with_reducible apply keep_ite
    | with_reducible apply okeep_next
    | with_reducible apply okeep_fault
    | with_reducible apply okeep_ite
    | split
    | dsimp only

theorem putEntry_keep {s0 s : State} (h : Keep s0 s) (r : Nat) (l : List Nat) (cie : Bool) : Keep s0 (putEntry s r l cie).1 := by
  unfold putEntry
  try dsimp only
  repeat' first
    | with_reducible exact h
    | with_reducible assumption
    | with_reducible apply wr_keep
    | with_reducible apply ringStopFree_keep
    | with_reducible apply ringAsk_keep
    | with_reducible apply whereStore_keep
    | with_reducible apply entryWritten_keep
    | with_reducible apply keep_ite
    | split
    | dsimp only
    | (with_reducible refine keep_mk (s := _) ?_ rfl rfl rfl rfl; first | with_reducible exact h | with_reducible assumption | with_reducible apply wr_keep | with_reducible apply ringStopFree_keep | with_reducible apply ringAsk_keep | with_reducible apply whereStore_keep | with_reducible apply entryWritten_keep | with_reducible apply keep_ite | split)

theorem putEntry_keep_of {s0 s : State} {v} {t : State} (r : Nat) (l : List Nat) (cie : Bool) (he : putEntry s r l cie = (t, v)) (h : Keep s0 s) : Keep s0 t := by
  have hh := putEntry_keep h r l cie
  rw [he] at hh
  exact hh

theorem dropJob_keep {s0 s : State} (h : Keep s0 s) (j : Nat) : Keep s0 (dropJob s j) := by
  unfold dropJob
  try dsimp only
  repeat' first
    | with_reducible exact h
    | with_reducible assumption
    | with_reducible apply updRings_keep
    | with_reducible apply keep_ite
    | split
    | (intro _)
    | dsimp only
    | (with_reducible refine keep_mk (s := _) ?_ rfl rfl rfl rfl; first | with_reducible exact h | with_reducible assumption | with_reducible apply updRings_keep | with_reducible apply keep_ite | split)

theorem poolCpl_keep {s0 s : State} (h : Keep s0 s) (r : Nat) (j : Nat) (l : List Nat) (cie : Bool) : Keep s0 (poolCpl s r j l cie) := by
  unfold poolCpl
  try dsimp only
  repeat' first
    | with_reducible exact h
    | with_reducible assumption
    | with_reducible apply updRings_keep
    | with_reducible apply devStore_keep
    | with_reducible apply dropJob_keep
    | with_reducible apply keep_ite
    | split
    | (intro _)
    | dsimp only
    | (with_reducible refine keep_mk (s := _) ?_ rfl rfl rfl rfl; first | with_reducible exact h | with_reducible assumption | with_reducible apply updRings_keep | with_reducible apply devStore_keep | with_reducible apply dropJob_keep | with_reducible apply keep_ite | split)

theorem execCompletionWrite_keep {s0 s : State} (h : Keep s0 s) (c : RingIx) : OKeep s0 (execCompletionWrite c s) := by
  unfold execCompletionWrite
  try dsimp only
  repeat' first
    | with_reducible exact h
    | with_reducible assumption
    | with_reducible apply putEntry_keep
    | (with_reducible refine putEntry_keep_of (by with_reducible assumption) ?_)
    | with_reducible apply dropJob_keep
    | with_reducible apply poolCpl_keep
    | with_reducible apply keep_ite
    | with_reducible apply okeep_next
    | with_reducible apply okeep_fault
    | with_reducible apply okeep_ite
    | split
    | dsimp only
    | (with_reducible refine keep_mk (s := _) ?_ rfl rfl rfl rfl; first | with_reducible exact h | with_reducible assumption | with_reducible apply putEntry_keep | (with_reducible refine putEntry_keep_of (by with_reducible assumption) ?_) | with_reducible apply dropJob_keep | with_reducible apply poolCpl_keep | with_reducible apply keep_ite | with_reducible apply okeep_next | with_reducible apply okeep_fault | with_reducible apply okeep_ite | split)

theorem execWaitingCompletionWrite_keep {s0 s : State} (h : Keep s0 s) (c : RingIx) : OKeep s0 (execWaitingCompletionWrite c s) := by
  unfold execWaitingCompletionWrite
  try dsimp only
  repeat' first
    | with_reducible exact h
    | with_reducible assumption
    | with_reducible apply updRings_keep
    | with_reducible apply putEntry_keep
    | (with_reducible refine putEntry_keep_of (by with_reducible assumption) ?_)
    | with_reducible apply keep_ite
    | with_reducible apply okeep_next
    | with_reducible apply okeep_fault
    | with_reducible apply okeep_ite
    | split
    | (intro _)
    | dsimp only
    | (with_reducible refine keep_mk (s := _) ?_ rfl rfl rfl rfl; first | with_reducible exact h | with_reducible assumption | with_reducible apply updRings_keep | with_reducible apply putEntry_keep | (with_reducible refine putEntry_keep_of (by with_reducible assumption) ?_) | with_reducible apply keep_ite | with_reducible apply okeep_next | with_reducible apply okeep_fault | with_reducible apply okeep_ite | split)

theorem headWrite_keep {s0 s : State} (h : Keep s0 s) (r : Nat) (v : Nat) : Keep s0 (headWrite s r v) := by
  unfold headWrite
  try dsimp only
  repeat' first
    | with_reducible exact h
    | with_reducible assumption
    | with_reducible apply wr_keep
    | with_reducible apply setF_keep
    | with_reducible apply updRings_keep
    | with_reducible apply keep_ite
    | split
    | (intro _)
    | dsimp only
    | (with_reducible refine keep_mk (s := _) ?_ rfl rfl rfl rfl; first | with_reducible exact h | with_reducible assumption | with_reducible apply wr_keep | with_reducible apply setF_keep | with_reducible apply updRings_keep | with_reducible apply keep_ite | split)

theorem doorbell_keep {s0 s : State} (h : Keep s0 s) (q : Nat) (v : Nat) : Keep s0 (doorbell s q v) := by
  unfold doorbell
  try dsimp only
  repeat' first
    | with_reducible exact h
    | with_reducible assumption
    | with_reducible apply judgeIndex_keep
    | with_reducible apply keep_ite
    | split
    | dsimp only

theorem headDoor_keep {s0 s : State} (h : Keep s0 s) (r : Nat) (v : Nat) : Keep s0 (headDoor s r v) := by
  unfold headDoor
  try dsimp only
  repeat' first
    | with_reducible exact h
    | with_reducible assumption
    | with_reducible apply headWrite_keep
    | with_reducible apply keep_ite
    | split
    | dsimp only

theorem execHeadIndexWrite_keep {s0 s : State} (h : Keep s0 s) (r : Nat) (v : Word) : OKeep s0 (execHeadIndexWrite r v s) := by
  unfold execHeadIndexWrite
  try dsimp only
  repeat' first
    | with_reducible exact h
    | with_reducible assumption
    | with_reducible apply headDoor_keep
    | with_reducible apply keep_ite
    | with_reducible apply okeep_next
    | with_reducible apply okeep_fault
    | with_reducible apply okeep_ite
    | split
    | dsimp only

theorem execMmioDoorbell_keep {s0 s : State} (h : Keep s0 s) (q : RingIx) (v : Word) : OKeep s0 (execMmioDoorbell q v s) := by
  unfold execMmioDoorbell
  try dsimp only
  repeat' first
    | with_reducible exact h
    | with_reducible assumption
    | with_reducible apply doorbell_keep
    | with_reducible apply keep_ite
    | with_reducible apply okeep_next
    | with_reducible apply okeep_fault
    | with_reducible apply okeep_ite
    | split
    | dsimp only

theorem postLost_keep {s0 s : State} (h : Keep s0 s) (e : Nat) : Keep s0 (postLost s e) := by
  unfold postLost
  try dsimp only
  repeat' first
    | with_reducible exact h
    | with_reducible assumption
    | with_reducible apply clrF_keep
    | with_reducible apply putEntry_keep
    | (with_reducible refine putEntry_keep_of (by with_reducible assumption) ?_)
    | with_reducible apply keep_ite
    | split
    | dsimp only

theorem evrDrain_keep {s0 s : State} (h : Keep s0 s) (e : Nat) (l : List Event) : Keep s0 (evrDrain s e l).1 := by
  induction l generalizing s with
  | nil => exact h
  | cons x r ih =>
    have hp := postLost_keep h e
    unfold evrDrain
    dsimp only
    split
    · exact hp
    · split
      · exact ih (incF_keep hp _ _)
      · split
        · exact hp
        · split
          · exact ih (putEntry_keep hp _ _ _)
          · exact putEntry_keep hp _ _ _

theorem postAt_keep {s0 s : State} (h : Keep s0 s) (l : List Event) (e : Nat) : Keep s0 (postAt s l e) := by
  unfold postAt
  exact updRings_keep (evrDrain_keep h e _) _


theorem execEventPost_keep {s0 s : State} (h : Keep s0 s) : OKeep s0 (execEventPost s) := by
  unfold execEventPost
  try dsimp only
  repeat' first
    | with_reducible exact h
    | with_reducible assumption
    | with_reducible apply incF_keep
    | with_reducible apply updRings_keep
    | with_reducible apply postAt_keep
    | with_reducible apply keep_ite
    | with_reducible apply okeep_next
    | with_reducible apply okeep_fault
    | with_reducible apply okeep_ite
    | (with_reducible refine keep_foldl ?_ (fun _ _ _ => ?_))
    | split
    | (intro _)
    | dsimp only
    | (with_reducible refine keep_mk (s := _) ?_ rfl rfl rfl rfl; first | with_reducible exact h | with_reducible assumption | with_reducible apply incF_keep | with_reducible apply updRings_keep | with_reducible apply postAt_keep | with_reducible apply keep_ite | with_reducible apply okeep_next | with_reducible apply okeep_fault | with_reducible apply okeep_ite | (with_reducible refine keep_foldl ?_ (fun _ _ _ => ?_)) | split)

theorem execEvtLost_keep {s0 s : State} (h : Keep s0 s) (e : EvrIx) : OKeep s0 (execEvtLost e s) := by
  unfold execEvtLost
  try dsimp only
  repeat' first
    | with_reducible exact h
    | with_reducible assumption
    | with_reducible apply postLost_keep
    | with_reducible apply keep_ite
    | with_reducible apply okeep_next
    | with_reducible apply okeep_fault
    | with_reducible apply okeep_ite
    | split
    | dsimp only

theorem takeDescriptor_keep {s0 s : State} (h : Keep s0 s) (q : Nat) (l : List Nat) : Keep s0 (takeDescriptor s q l) := by
  unfold takeDescriptor
  try dsimp only
  repeat' first
    | with_reducible exact h
    | with_reducible assumption
    | with_reducible apply wr_keep
    | with_reducible apply updRings_keep
    | with_reducible apply keep_ite
    | split
    | (intro _)
    | dsimp only
    | (with_reducible refine keep_mk (s := _) ?_ rfl rfl rfl rfl; first | with_reducible exact h | with_reducible assumption | with_reducible apply wr_keep | with_reducible apply updRings_keep | with_reducible apply keep_ite | split)

theorem execDescriptorFetch_keep {s0 s0 : State} (h : Keep s0 s0) : OKeep s0 (execDescriptorFetch s0) := by
  unfold execDescriptorFetch
  try dsimp only
  repeat' first
    | with_reducible exact h
    | with_reducible assumption
    | with_reducible apply eccUncorrectable_keep
    | with_reducible apply ringStopFree_keep
    | with_reducible apply ringAsk_keep
    | with_reducible apply takeDescriptor_keep
    | with_reducible apply freshNat_keep
    | (with_reducible refine freshNat_keep_of (by with_reducible assumption) ?_)
    | with_reducible apply keep_ite
    | with_reducible apply okeep_next
    | with_reducible apply okeep_fault
    | with_reducible apply okeep_ite
    | (with_reducible refine keep_foldl ?_ (fun _ _ _ => ?_))
    | split
    | (intro _)
    | dsimp only
    | (with_reducible refine keep_mk (s := _) ?_ rfl rfl rfl rfl; first | with_reducible exact h | with_reducible assumption | with_reducible apply eccUncorrectable_keep | with_reducible apply ringStopFree_keep | with_reducible apply ringAsk_keep | with_reducible apply takeDescriptor_keep | with_reducible apply keep_ite | with_reducible apply okeep_next | with_reducible apply okeep_fault | with_reducible apply okeep_ite | (with_reducible refine keep_foldl ?_ (fun _ _ _ => ?_)) | split)

end Sys2Proof.Machine
end

