-- ==== Sys2Proof/Laws/KeepHostAttach.lean ====
section
/-! SUPPORT. The operations of Machine/HostAttach.lean leave the queue alone and keep memories and registers canonical. -/
set_option maxRecDepth 4000
set_option linter.all false
namespace Sys2Proof.Machine

theorem rewatch_keep {s0 s : State} (h : Keep s0 s) : Keep s0 (rewatch s) := by
  unfold rewatch
  try dsimp only
  repeat' first
    | with_reducible exact h
    | with_reducible assumption
    | with_reducible apply readIndex_keep
    | with_reducible apply watchLine_keep
    | with_reducible apply keep_ite
    | (with_reducible refine keep_foldl ?_ (fun _ _ _ => ?_))
    | split
    | (intro _)
    | dsimp only

theorem linkUp_keep {s0 s : State} (h : Keep s0 s) (rate : Nat) (width : Nat) (flit : Nat) : Keep s0 (linkUp s rate width flit) := by
  unfold linkUp
  try dsimp only
  repeat' first
    | with_reducible exact h
    | with_reducible assumption
    | with_reducible apply wr_keep
    | with_reducible apply setF_keep
    | with_reducible apply addF_keep
    | with_reducible apply levelOn_keep
    | with_reducible apply levelOff_keep
    | with_reducible apply sendMsix_keep
    | with_reducible apply msixFlush_keep
    | with_reducible apply rewatch_keep
    | with_reducible apply keep_ite
    | split
    | (intro _)
    | dsimp only

theorem execLinkUp_keep {s0 s : State} (h : Keep s0 s) (rate : Fin 6) (width : Nat) (flit : Fin 3) (all3 : Bool) : OKeep s0 (execLinkUp rate width flit all3 s) := by
  unfold execLinkUp
  try dsimp only
  repeat' first
    | with_reducible exact h
    | with_reducible assumption
    | with_reducible apply setF_keep
    | with_reducible apply linkUp_keep
    | with_reducible apply keep_ite
    | with_reducible apply okeep_next
    | with_reducible apply okeep_fault
    | with_reducible apply okeep_ite
    | split
    | dsimp only

theorem linkLost_keep {s0 s : State} (h : Keep s0 s) : Keep s0 (linkLost s) := by
  unfold linkLost
  try dsimp only
  repeat' first
    | with_reducible exact h
    | with_reducible assumption
    | with_reducible apply setF_keep
    | with_reducible apply clrF_keep
    | with_reducible apply updXlt_keep
    | with_reducible apply levelOff_keep
    | with_reducible apply keep_ite
    | split
    | (intro _)
    | dsimp only
    | (with_reducible refine keep_mk (s := _) ?_ rfl rfl rfl rfl; first | with_reducible exact h | with_reducible assumption | with_reducible apply setF_keep | with_reducible apply clrF_keep | with_reducible apply updXlt_keep | with_reducible apply levelOff_keep | with_reducible apply keep_ite | split)

theorem logError_keep {s0 s : State} (h : Keep s0 s) (kind : Nat) (bitno : Nat) : Keep s0 (logError s kind bitno) := by
  unfold logError
  try dsimp only
  repeat' first
    | with_reducible exact h
    | with_reducible assumption
    | with_reducible apply signal_keep
    | with_reducible apply sendMsix_keep
    | with_reducible apply keep_ite
    | split
    | dsimp only
    | (with_reducible refine keep_mk (s := _) ?_ rfl rfl rfl rfl; first | with_reducible exact h | with_reducible assumption | with_reducible apply signal_keep | with_reducible apply sendMsix_keep | with_reducible apply keep_ite | split)

theorem linkDown_keep {s0 s : State} (h : Keep s0 s) : Keep s0 (linkDown s) := by
  unfold linkDown
  try dsimp only
  repeat' first
    | with_reducible exact h
    | with_reducible assumption
    | with_reducible apply linkLost_keep
    | with_reducible apply logError_keep
    | with_reducible apply keep_ite
    | split
    | dsimp only

theorem execLinkDown_keep {s0 s : State} (h : Keep s0 s) : OKeep s0 (execLinkDown s) := by
  unfold execLinkDown
  try dsimp only
  repeat' first
    | with_reducible exact h
    | with_reducible assumption
    | with_reducible apply linkDown_keep
    | with_reducible apply keep_ite
    | with_reducible apply okeep_next
    | with_reducible apply okeep_fault
    | with_reducible apply okeep_ite
    | split
    | dsimp only

theorem execHostLinkError_keep {s0 s : State} (h : Keep s0 s) (kind : Fin 4) (bitno : Nat) : OKeep s0 (execHostLinkError kind bitno s) := by
  unfold execHostLinkError
  try dsimp only
  repeat' first
    | with_reducible exact h
    | with_reducible assumption
    | with_reducible apply linkLost_keep
    | with_reducible apply logError_keep
    | with_reducible apply keep_ite
    | with_reducible apply okeep_next
    | with_reducible apply okeep_fault
    | with_reducible apply okeep_ite
    | split
    | dsimp only

theorem execDStateChange_keep {s0 s : State} (h : Keep s0 s) (d3 : Bool) : OKeep s0 (execDStateChange d3 s) := by
  unfold execDStateChange
  try dsimp only
  repeat' first
    | with_reducible exact h
    | with_reducible assumption
    | with_reducible apply keep_ite
    | with_reducible apply okeep_next
    | with_reducible apply okeep_fault
    | with_reducible apply okeep_ite
    | split
    | dsimp only
    | (with_reducible refine keep_mk (s := _) ?_ rfl rfl rfl rfl; first | with_reducible exact h | with_reducible assumption | with_reducible apply keep_ite | with_reducible apply okeep_next | with_reducible apply okeep_fault | with_reducible apply okeep_ite | split)

theorem execViralReceived_keep {s0 s : State} (h : Keep s0 s) : OKeep s0 (execViralReceived s) := by
  unfold execViralReceived
  try dsimp only
  repeat' first
    | with_reducible exact h
    | with_reducible assumption
    | with_reducible apply setF_keep
    | with_reducible apply levelOn_keep
    | with_reducible apply keep_ite
    | with_reducible apply okeep_next
    | with_reducible apply okeep_fault
    | with_reducible apply okeep_ite
    | split
    | dsimp only

theorem cfgEffects_keep {s0 s : State} (h : Keep s0 s) : Keep s0 (cfgEffects s) := by
  unfold cfgEffects
  try dsimp only
  repeat' first
    | with_reducible exact h
    | with_reducible assumption
    | with_reducible apply wr_keep
    | with_reducible apply clrF_keep
    | with_reducible apply updXlt_keep
    | with_reducible apply msixFlush_keep
    | with_reducible apply rewatch_keep
    | with_reducible apply keep_ite
    | split
    | (intro _)
    | dsimp only
    | (with_reducible refine keep_mk (s := _) ?_ rfl rfl rfl rfl; first | with_reducible exact h | with_reducible assumption | with_reducible apply wr_keep | with_reducible apply clrF_keep | with_reducible apply updXlt_keep | with_reducible apply msixFlush_keep | with_reducible apply rewatch_keep | with_reducible apply keep_ite | split)

theorem execConfigAccess_keep {s0 s : State} (h : Keep s0 s) (wr_ : Bool) (off : Nat) (v : Word) : OKeep s0 (execConfigAccess wr_ off v s) := by
  unfold execConfigAccess
  try dsimp only
  repeat' first
    | with_reducible exact h
    | with_reducible assumption
    | with_reducible apply cfgEffects_keep
    | with_reducible apply keep_ite
    | with_reducible apply okeep_next
    | with_reducible apply okeep_fault
    | with_reducible apply okeep_ite
    | split
    | dsimp only
    | (with_reducible refine keep_mk (s := _) ?_ rfl rfl rfl rfl; first | with_reducible exact h | with_reducible assumption | with_reducible apply cfgEffects_keep | with_reducible apply keep_ite | with_reducible apply okeep_next | with_reducible apply okeep_fault | with_reducible apply okeep_ite | split)

theorem decoderWords_keep {s0 s : State} (h : Keep s0 s) (b : Nat) (ok : Bool) : Keep s0 (decoderWords s b ok) := by
  unfold decoderWords
  try dsimp only
  repeat' first
    | with_reducible exact h
    | with_reducible assumption
    | with_reducible apply keep_ite
    | split
    | dsimp only
    | (with_reducible refine keep_mk (s := _) ?_ rfl rfl rfl rfl; first | with_reducible exact h | with_reducible assumption | with_reducible apply keep_ite | split)

theorem execHdmCommit_keep {s0 s : State} (h : Keep s0 s) (base : Nat) (ways : Nat) (bi : Bool) : OKeep s0 (execHdmCommit base ways bi s) := by
  unfold execHdmCommit
  try dsimp only
  repeat' first
    | with_reducible exact h
    | with_reducible assumption
    | with_reducible apply wr_keep
    | with_reducible apply setF_keep
    | with_reducible apply clrF_keep
    | with_reducible apply wr64_keep
    | with_reducible apply decoderWords_keep
    | with_reducible apply keep_ite
    | with_reducible apply okeep_next
    | with_reducible apply okeep_fault
    | with_reducible apply okeep_ite
    | split
    | dsimp only
    | (with_reducible refine keep_mk (s := _) ?_ rfl rfl rfl rfl; first | with_reducible exact h | with_reducible assumption | with_reducible apply wr_keep | with_reducible apply setF_keep | with_reducible apply clrF_keep | with_reducible apply wr64_keep | with_reducible apply decoderWords_keep | with_reducible apply keep_ite | with_reducible apply okeep_next | with_reducible apply okeep_fault | with_reducible apply okeep_ite | split)

theorem memAnswer_keep {s0 s : State} (h : Keep s0 s) (line : Nat) (poison : Bool) : Keep s0 (memAnswer s line poison) := by
  unfold memAnswer
  try dsimp only
  repeat' first
    | with_reducible exact h
    | with_reducible assumption
    | with_reducible apply setF_keep
    | with_reducible apply incF_keep
    | with_reducible apply memAsk_keep
    | with_reducible apply keep_ite
    | split
    | dsimp only
    | (with_reducible refine keep_mk (s := _) ?_ rfl rfl rfl rfl; first | with_reducible exact h | with_reducible assumption | with_reducible apply setF_keep | with_reducible apply incF_keep | with_reducible apply memAsk_keep | with_reducible apply keep_ite | split)

theorem memRead_keep {s0 s : State} (h : Keep s0 s) (addr : Nat) : Keep s0 (memRead s addr) := by
  unfold memRead
  try dsimp only
  repeat' first
    | with_reducible exact h
    | with_reducible assumption
    | with_reducible apply updXlt_keep
    | with_reducible apply askBi_keep
    | with_reducible apply memAnswer_keep
    | with_reducible apply keep_ite
    | split
    | (intro _)
    | dsimp only
    | (with_reducible refine keep_mk (s := _) ?_ rfl rfl rfl rfl; first | with_reducible exact h | with_reducible assumption | with_reducible apply updXlt_keep | with_reducible apply askBi_keep | with_reducible apply memAnswer_keep | with_reducible apply keep_ite | split)

theorem execHostMemRead_keep {s0 s : State} (h : Keep s0 s) (addr : Nat) : OKeep s0 (execHostMemRead addr s) := by
  unfold execHostMemRead
  try dsimp only
  repeat' first
    | with_reducible exact h
    | with_reducible assumption
    | with_reducible apply memRead_keep
    | with_reducible apply keep_ite
    | with_reducible apply okeep_next
    | with_reducible apply okeep_fault
    | with_reducible apply okeep_ite
    | split
    | dsimp only

theorem serveRead_keep {s0 s : State} (h : Keep s0 s) : Keep s0 (serveRead s) := by
  unfold serveRead
  try dsimp only
  repeat' first
    | with_reducible exact h
    | with_reducible assumption
    | with_reducible apply updXlt_keep
    | with_reducible apply memRead_keep
    | with_reducible apply keep_ite
    | split
    | (intro _)
    | dsimp only
    | (with_reducible refine keep_mk (s := _) ?_ rfl rfl rfl rfl; first | with_reducible exact h | with_reducible assumption | with_reducible apply updXlt_keep | with_reducible apply memRead_keep | with_reducible apply keep_ite | split)

theorem serveReads_keep {s0 s : State} (h : Keep s0 s) : Keep s0 (serveReads s) := by
  unfold serveReads
  dsimp only
  generalize hl : s.xlt.memReads = l
  clear hl
  have key : ∀ (l : List Nat) (a : State × List Nat), Keep s0 a.1 → Keep s0 (l.foldl (fun (a : State × List Nat) addr =>
      let before := a.1.xlt.memReads.length
      let t := memRead a.1 addr
      if t.xlt.memReads.length == before then ({ t with resp := a.2 ++ t.resp }, a.2 ++ t.resp) else (t, a.2)) a).1 := by
    intro l
    induction l with
    | nil => intro a ha; exact ha
    | cons x r ih =>
      intro a ha
      refine ih _ ?_
      dsimp only
      split
      · exact keep_same (memRead_keep ha x) rfl rfl rfl rfl
      · exact memRead_keep ha x
  exact key l _ (updXlt_keep h fun x => { x with memReads := [] })


theorem execHostMemWrite_keep {s0 s : State} (h : Keep s0 s) (addr : Nat) (data : List Byte) (poisoned : Bool) : OKeep s0 (execHostMemWrite addr data poisoned s) := by
  unfold execHostMemWrite
  try dsimp only
  repeat' first
    | with_reducible exact h
    | with_reducible assumption
    | with_reducible apply setF_keep
    | with_reducible apply incF_keep
    | with_reducible apply signal_keep
    | with_reducible apply devStore_keep
    | with_reducible apply memAsk_keep
    | with_reducible apply keep_ite
    | with_reducible apply okeep_next
    | with_reducible apply okeep_fault
    | with_reducible apply okeep_ite
    | split
    | dsimp only
    | (with_reducible refine keep_mk (s := _) ?_ rfl rfl rfl rfl; first | with_reducible exact h | with_reducible assumption | with_reducible apply setF_keep | with_reducible apply incF_keep | with_reducible apply signal_keep | with_reducible apply devStore_keep | with_reducible apply memAsk_keep | with_reducible apply keep_ite | with_reducible apply okeep_next | with_reducible apply okeep_fault | with_reducible apply okeep_ite | split)

theorem execBackInvalidate_keep {s0 s : State} (h : Keep s0 s) (off : Nat) : OKeep s0 (execBackInvalidate off s) := by
  unfold execBackInvalidate
  try dsimp only
  repeat' first
    | with_reducible exact h
    | with_reducible assumption
    | with_reducible apply incF_keep
    | with_reducible apply keep_ite
    | with_reducible apply okeep_next
    | with_reducible apply okeep_fault
    | with_reducible apply okeep_ite
    | split
    | dsimp only
    | (with_reducible refine keep_mk (s := _) ?_ rfl rfl rfl rfl; first | with_reducible exact h | with_reducible assumption | with_reducible apply incF_keep | with_reducible apply keep_ite | with_reducible apply okeep_next | with_reducible apply okeep_fault | with_reducible apply okeep_ite | split)

theorem execBiSnoopResponse_keep {s0 s : State} (h : Keep s0 s) (off : Nat) (dirty : Option (List Byte)) : OKeep s0 (execBiSnoopResponse off dirty s) := by
  unfold execBiSnoopResponse
  try dsimp only
  repeat' first
    | with_reducible exact h
    | with_reducible assumption
    | with_reducible apply clrF_keep
    | with_reducible apply devStore_keep
    | with_reducible apply readIndex_keep
    | with_reducible apply serveRead_keep
    | with_reducible apply keep_ite
    | with_reducible apply okeep_next
    | with_reducible apply okeep_fault
    | with_reducible apply okeep_ite
    | (with_reducible refine keep_foldl ?_ (fun _ _ _ => ?_))
    | split
    | dsimp only
    | (with_reducible refine keep_mk (s := _) ?_ rfl rfl rfl rfl; first | with_reducible exact h | with_reducible assumption | with_reducible apply clrF_keep | with_reducible apply devStore_keep | with_reducible apply readIndex_keep | with_reducible apply serveRead_keep | with_reducible apply keep_ite | with_reducible apply okeep_next | with_reducible apply okeep_fault | with_reducible apply okeep_ite | (with_reducible refine keep_foldl ?_ (fun _ _ _ => ?_)) | split)

theorem execHostSnoop_keep {s0 s : State} (h : Keep s0 s) (addr : Nat) (data : List Byte) : OKeep s0 (execHostSnoop addr data s) := by
  unfold execHostSnoop
  try dsimp only
  repeat' first
    | with_reducible exact h
    | with_reducible assumption
    | with_reducible apply hostStore_keep
    | with_reducible apply readIndex_keep
    | with_reducible apply keep_ite
    | with_reducible apply okeep_next
    | with_reducible apply okeep_fault
    | with_reducible apply okeep_ite
    | (with_reducible refine keep_foldl ?_ (fun _ _ _ => ?_))
    | split
    | (intro _)
    | dsimp only
    | (with_reducible refine keep_mk (s := _) ?_ rfl rfl rfl rfl; first | with_reducible exact h | with_reducible assumption | with_reducible apply hostStore_keep | with_reducible apply readIndex_keep | with_reducible apply keep_ite | with_reducible apply okeep_next | with_reducible apply okeep_fault | with_reducible apply okeep_ite | (with_reducible refine keep_foldl ?_ (fun _ _ _ => ?_)) | split)

theorem showIoIde_keep {s0 s : State} (h : Keep s0 s) : Keep s0 (showIoIde s) := by
  unfold showIoIde
  try dsimp only
  repeat' first
    | with_reducible exact h
    | with_reducible assumption
    | with_reducible apply wr_keep
    | with_reducible apply levelOn_keep
    | with_reducible apply levelOff_keep
    | with_reducible apply keep_ite
    | split
    | dsimp only

theorem ideSecure_keep {s0 s : State} (h : Keep s0 s) (stream : Nat) (mode : Nat) : Keep s0 (ideSecure s stream mode) := by
  unfold ideSecure
  try dsimp only
  repeat' first
    | with_reducible exact h
    | with_reducible assumption
    | with_reducible apply wr_keep
    | with_reducible apply setF_keep
    | with_reducible apply levelOff_keep
    | with_reducible apply showIoIde_keep
    | with_reducible apply keep_ite
    | split
    | dsimp only
    | (with_reducible refine keep_mk (s := _) ?_ rfl rfl rfl rfl; first | with_reducible exact h | with_reducible assumption | with_reducible apply wr_keep | with_reducible apply setF_keep | with_reducible apply levelOff_keep | with_reducible apply showIoIde_keep | with_reducible apply keep_ite | split)

theorem execDoeRequest_keep {s0 s : State} (h : Keep s0 s) (proto : Nat) (entry : Nat) (body : List Nat) : OKeep s0 (execDoeRequest proto entry body s) := by
  unfold execDoeRequest
  try dsimp only
  repeat' first
    | with_reducible exact h
    | with_reducible assumption
    | with_reducible apply ideSecure_keep
    | with_reducible apply keep_ite
    | with_reducible apply okeep_next
    | with_reducible apply okeep_fault
    | with_reducible apply okeep_ite
    | split
    | dsimp only
    | (with_reducible refine keep_mk (s := _) ?_ rfl rfl rfl rfl; first | with_reducible exact h | with_reducible assumption | with_reducible apply ideSecure_keep | with_reducible apply keep_ite | with_reducible apply okeep_next | with_reducible apply okeep_fault | with_reducible apply okeep_ite | split)

theorem execIdeIntegrityFailure_keep {s0 s : State} (h : Keep s0 s) (stream : Fin 3) : OKeep s0 (execIdeIntegrityFailure stream s) := by
  unfold execIdeIntegrityFailure
  try dsimp only
  repeat' first
    | with_reducible exact h
    | with_reducible assumption
    | with_reducible apply setF_keep
    | with_reducible apply clrF_keep
    | with_reducible apply levelOn_keep
    | with_reducible apply showIoIde_keep
    | with_reducible apply keep_ite
    | with_reducible apply okeep_next
    | with_reducible apply okeep_fault
    | with_reducible apply okeep_ite
    | split
    | dsimp only
    | (with_reducible refine keep_mk (s := _) ?_ rfl rfl rfl rfl; first | with_reducible exact h | with_reducible assumption | with_reducible apply setF_keep | with_reducible apply clrF_keep | with_reducible apply levelOn_keep | with_reducible apply showIoIde_keep | with_reducible apply keep_ite | with_reducible apply okeep_next | with_reducible apply okeep_fault | with_reducible apply okeep_ite | split)

end Sys2Proof.Machine
end

