-- ==== Sys2Proof/Laws/KeepHbm.lean ====
section
/-! SUPPORT. The operations of Machine/Hbm.lean leave the queue alone and keep memories and registers canonical. -/
set_option maxRecDepth 4000
set_option linter.all false
namespace Sys2Proof.Machine

theorem homeLost_keep {s0 s : State} (h : Keep s0 s) (q : Nat) : Keep s0 (homeLost s q) := by
  unfold homeLost
  try dsimp only
  repeat' first
    | with_reducible exact h
    | with_reducible assumption
    | with_reducible apply digStopNow_keep
    | with_reducible apply gangsFault_keep
    | with_reducible apply jobFail_keep
    | with_reducible apply keep_ite
    | (with_reducible refine keep_foldl ?_ (fun _ _ _ => ?_))
    | split
    | (intro _)
    | dsimp only

theorem execHbmTrainingDone_keep {s0 s : State} (h : Keep s0 s) (results : Nat) : OKeep s0 (execHbmTrainingDone results s) := by
  unfold execHbmTrainingDone
  try dsimp only
  repeat' first
    | with_reducible exact h
    | with_reducible assumption
    | with_reducible apply wr_keep
    | with_reducible apply setF_keep
    | with_reducible apply clrF_keep
    | with_reducible apply updHbm_keep
    | with_reducible apply signal_keep
    | with_reducible apply keep_ite
    | with_reducible apply okeep_next
    | with_reducible apply okeep_fault
    | with_reducible apply okeep_ite
    | (with_reducible refine keep_foldl ?_ (fun _ _ _ => ?_))
    | split
    | (intro _)
    | dsimp only
    | (with_reducible refine keep_mk (s := _) ?_ rfl rfl rfl rfl; first | with_reducible exact h | with_reducible assumption | with_reducible apply wr_keep | with_reducible apply setF_keep | with_reducible apply clrF_keep | with_reducible apply updHbm_keep | with_reducible apply signal_keep | with_reducible apply keep_ite | with_reducible apply okeep_next | with_reducible apply okeep_fault | with_reducible apply okeep_ite | (with_reducible refine keep_foldl ?_ (fun _ _ _ => ?_)) | split)

theorem execPointChangeStart_keep {s0 s : State} (h : Keep s0 s) : OKeep s0 (execPointChangeStart s) := by
  unfold execPointChangeStart
  try dsimp only
  repeat' first
    | with_reducible exact h
    | with_reducible assumption
    | with_reducible apply wr_keep
    | with_reducible apply updHbm_keep
    | with_reducible apply keep_ite
    | with_reducible apply okeep_next
    | with_reducible apply okeep_fault
    | with_reducible apply okeep_ite
    | split
    | (intro _)
    | dsimp only
    | (with_reducible refine keep_mk (s := _) ?_ rfl rfl rfl rfl; first | with_reducible exact h | with_reducible assumption | with_reducible apply wr_keep | with_reducible apply updHbm_keep | with_reducible apply keep_ite | with_reducible apply okeep_next | with_reducible apply okeep_fault | with_reducible apply okeep_ite | split)

theorem execPointChangeDone_keep {s0 s : State} (h : Keep s0 s) : OKeep s0 (execPointChangeDone s) := by
  unfold execPointChangeDone
  try dsimp only
  repeat' first
    | with_reducible exact h
    | with_reducible assumption
    | with_reducible apply wr_keep
    | with_reducible apply setF_keep
    | with_reducible apply updHbm_keep
    | with_reducible apply postEvt_keep
    | with_reducible apply serveReads_keep
    | with_reducible apply keep_ite
    | with_reducible apply okeep_next
    | with_reducible apply okeep_fault
    | with_reducible apply okeep_ite
    | split
    | (intro _)
    | dsimp only
    | (with_reducible refine keep_mk (s := _) ?_ rfl rfl rfl rfl; first | with_reducible exact h | with_reducible assumption | with_reducible apply wr_keep | with_reducible apply setF_keep | with_reducible apply updHbm_keep | with_reducible apply postEvt_keep | with_reducible apply serveReads_keep | with_reducible apply keep_ite | with_reducible apply okeep_next | with_reducible apply okeep_fault | with_reducible apply okeep_ite | split)

theorem retrainRequest_keep {s0 s : State} (h : Keep s0 s) : Keep s0 (retrainRequest s) := by
  unfold retrainRequest
  try dsimp only
  repeat' first
    | with_reducible exact h
    | with_reducible assumption
    | with_reducible apply setF_keep
    | with_reducible apply keep_ite
    | split
    | dsimp only

theorem execRetrainRequest_keep {s0 s : State} (h : Keep s0 s) : OKeep s0 (execRetrainRequest s) := by
  unfold execRetrainRequest
  try dsimp only
  repeat' first
    | with_reducible exact h
    | with_reducible assumption
    | with_reducible apply barWrite_keep
    | with_reducible apply retrainRequest_keep
    | with_reducible apply keep_ite
    | with_reducible apply okeep_next
    | with_reducible apply okeep_fault
    | with_reducible apply okeep_ite
    | split
    | dsimp only

theorem execRetrainStart_keep {s0 s : State} (h : Keep s0 s) : OKeep s0 (execRetrainStart s) := by
  unfold execRetrainStart
  try dsimp only
  repeat' first
    | with_reducible exact h
    | with_reducible assumption
    | with_reducible apply wr_keep
    | with_reducible apply clrF_keep
    | with_reducible apply updHbm_keep
    | with_reducible apply keep_ite
    | with_reducible apply okeep_next
    | with_reducible apply okeep_fault
    | with_reducible apply okeep_ite
    | split
    | (intro _)
    | dsimp only
    | (with_reducible refine keep_mk (s := _) ?_ rfl rfl rfl rfl; first | with_reducible exact h | with_reducible assumption | with_reducible apply wr_keep | with_reducible apply clrF_keep | with_reducible apply updHbm_keep | with_reducible apply keep_ite | with_reducible apply okeep_next | with_reducible apply okeep_fault | with_reducible apply okeep_ite | split)

theorem channelOut_keep {s0 s : State} (h : Keep s0 s) (h : Nat) : Keep s0 (channelOut s h) := by
  unfold channelOut
  try dsimp only
  repeat' first
    | with_reducible exact h
    | with_reducible assumption
    | with_reducible apply wr_keep
    | with_reducible apply signal_keep
    | with_reducible apply homeLost_keep
    | with_reducible apply keep_ite
    | split
    | dsimp only

theorem execRetrainDone_keep {s0 s : State} (h : Keep s0 s) (results : Nat) : OKeep s0 (execRetrainDone results s) := by
  unfold execRetrainDone
  try dsimp only
  repeat' first
    | with_reducible exact h
    | with_reducible assumption
    | with_reducible apply wr_keep
    | with_reducible apply updHbm_keep
    | with_reducible apply serveReads_keep
    | with_reducible apply channelOut_keep
    | with_reducible apply keep_ite
    | with_reducible apply okeep_next
    | with_reducible apply okeep_fault
    | with_reducible apply okeep_ite
    | (with_reducible refine keep_foldl ?_ (fun _ _ _ => ?_))
    | split
    | (intro _)
    | dsimp only
    | (with_reducible refine keep_mk (s := _) ?_ rfl rfl rfl rfl; first | with_reducible exact h | with_reducible assumption | with_reducible apply wr_keep | with_reducible apply updHbm_keep | with_reducible apply serveReads_keep | with_reducible apply channelOut_keep | with_reducible apply keep_ite | with_reducible apply okeep_next | with_reducible apply okeep_fault | with_reducible apply okeep_ite | (with_reducible refine keep_foldl ?_ (fun _ _ _ => ?_)) | split)

theorem refreshBank_keep {s0 s : State} (h : Keep s0 s) (x : Nat) (b : Nat) : Keep s0 (refreshBank s x b) := by
  unfold refreshBank
  try dsimp only
  repeat' first
    | with_reducible exact h
    | with_reducible assumption
    | with_reducible apply updHbm_keep
    | with_reducible apply keep_ite
    | split
    | (intro _)
    | dsimp only
    | (with_reducible refine keep_mk (s := _) ?_ rfl rfl rfl rfl; first | with_reducible exact h | with_reducible assumption | with_reducible apply updHbm_keep | with_reducible apply keep_ite | split)

theorem refreshMany_keep {s0 s : State} (h : Keep s0 s) (n x : Nat) : Keep s0 (refreshMany n s x) := by
  induction n generalizing s with
  | zero => exact h
  | succ n ih =>
    unfold refreshMany
    apply ih
    split
    · exact refreshBank_keep h _ _
    · exact h

theorem execRefreshDue_keep {s0 s : State} (h : Keep s0 s) (x : PcIx) : OKeep s0 (execRefreshDue x s) := by
  unfold execRefreshDue
  try dsimp only
  repeat' first
    | with_reducible exact h
    | with_reducible assumption
    | with_reducible apply incF_keep
    | with_reducible apply updHbm_keep
    | with_reducible apply refreshBank_keep
    | with_reducible apply refreshMany_keep
    | with_reducible apply keep_ite
    | with_reducible apply okeep_next
    | with_reducible apply okeep_fault
    | with_reducible apply okeep_ite
    | split
    | (intro _)
    | dsimp only
    | (with_reducible refine keep_mk (s := _) ?_ rfl rfl rfl rfl; first | with_reducible exact h | with_reducible assumption | with_reducible apply incF_keep | with_reducible apply updHbm_keep | with_reducible apply refreshBank_keep | with_reducible apply refreshMany_keep | with_reducible apply keep_ite | with_reducible apply okeep_next | with_reducible apply okeep_fault | with_reducible apply okeep_ite | split)

theorem execForcedRefreshRelease_keep {s0 s : State} (h : Keep s0 s) (x : PcIx) : OKeep s0 (execForcedRefreshRelease x s) := by
  unfold execForcedRefreshRelease
  try dsimp only
  repeat' first
    | with_reducible exact h
    | with_reducible assumption
    | with_reducible apply updHbm_keep
    | with_reducible apply keep_ite
    | with_reducible apply okeep_next
    | with_reducible apply okeep_fault
    | with_reducible apply okeep_ite
    | split
    | (intro _)
    | dsimp only
    | (with_reducible refine keep_mk (s := _) ?_ rfl rfl rfl rfl; first | with_reducible exact h | with_reducible assumption | with_reducible apply updHbm_keep | with_reducible apply keep_ite | with_reducible apply okeep_next | with_reducible apply okeep_fault | with_reducible apply okeep_ite | split)

theorem rowOccasion_keep {s0 s : State} (h : Keep s0 s) (x : Nat) (row : Nat) : Keep s0 (rowOccasion s x row) := by
  unfold rowOccasion
  try dsimp only
  repeat' first
    | with_reducible exact h
    | with_reducible assumption
    | with_reducible apply updHbm_keep
    | with_reducible apply rowDue_keep
    | with_reducible apply keep_ite
    | split
    | (intro _)
    | dsimp only
    | (with_reducible refine keep_mk (s := _) ?_ rfl rfl rfl rfl; first | with_reducible exact h | with_reducible assumption | with_reducible apply updHbm_keep | with_reducible apply rowDue_keep | with_reducible apply keep_ite | split)

theorem execRowRepairStart_keep {s0 s : State} (h : Keep s0 s) (x : PcIx) : OKeep s0 (execRowRepairStart x s) := by
  unfold execRowRepairStart
  try dsimp only
  repeat' first
    | with_reducible exact h
    | with_reducible assumption
    | with_reducible apply wr_keep
    | with_reducible apply updHbm_keep
    | with_reducible apply keep_ite
    | with_reducible apply okeep_next
    | with_reducible apply okeep_fault
    | with_reducible apply okeep_ite
    | split
    | (intro _)
    | dsimp only
    | (with_reducible refine keep_mk (s := _) ?_ rfl rfl rfl rfl; first | with_reducible exact h | with_reducible assumption | with_reducible apply wr_keep | with_reducible apply updHbm_keep | with_reducible apply keep_ite | with_reducible apply okeep_next | with_reducible apply okeep_fault | with_reducible apply okeep_ite | split)

theorem execRowRepairDone_keep {s0 s : State} (h : Keep s0 s) (x : PcIx) (spare : Bool) : OKeep s0 (execRowRepairDone x spare s) := by
  unfold execRowRepairDone
  try dsimp only
  repeat' first
    | with_reducible exact h
    | with_reducible assumption
    | with_reducible apply setF_keep
    | with_reducible apply incF_keep
    | with_reducible apply updHbm_keep
    | with_reducible apply signal_keep
    | with_reducible apply keep_ite
    | with_reducible apply okeep_next
    | with_reducible apply okeep_fault
    | with_reducible apply okeep_ite
    | split
    | (intro _)
    | dsimp only
    | (with_reducible refine keep_mk (s := _) ?_ rfl rfl rfl rfl; first | with_reducible exact h | with_reducible assumption | with_reducible apply setF_keep | with_reducible apply incF_keep | with_reducible apply updHbm_keep | with_reducible apply signal_keep | with_reducible apply keep_ite | with_reducible apply okeep_next | with_reducible apply okeep_fault | with_reducible apply okeep_ite | split)

theorem eccCorrected_keep {s0 s : State} (h : Keep s0 s) (line : Nat) : Keep s0 (eccCorrected s line) := by
  unfold eccCorrected
  try dsimp only
  repeat' first
    | with_reducible exact h
    | with_reducible assumption
    | with_reducible apply incF_keep
    | with_reducible apply memAsk_keep
    | with_reducible apply rowOccasion_keep
    | with_reducible apply keep_ite
    | split
    | dsimp only

theorem telLanded_keep {s0 s : State} (h : Keep s0 s) (n : Nat) (line : Nat) (v : Nat → Nat → List Nat) : Keep s0 (telLanded s n line v) := by
  unfold telLanded
  try dsimp only
  repeat' first
    | with_reducible exact h
    | with_reducible assumption
    | with_reducible apply updTel_keep
    | with_reducible apply keep_ite
    | split
    | (intro _)
    | dsimp only
    | (with_reducible refine keep_mk (s := _) ?_ rfl rfl rfl rfl; first | with_reducible exact h | with_reducible assumption | with_reducible apply updTel_keep | with_reducible apply keep_ite | split)

theorem readerHit_keep {s0 s : State} (h : Keep s0 s) (r : MemReq) : Keep s0 (readerHit s r) := by
  unfold readerHit
  try dsimp only
  repeat' first
    | with_reducible exact h
    | with_reducible assumption
    | with_reducible apply freshNat_keep
    | (with_reducible refine freshNat_keep_of (by with_reducible assumption) ?_)
    | with_reducible apply jobFail_keep
    | with_reducible apply homeLost_keep
    | with_reducible apply telLanded_keep
    | with_reducible apply keep_ite
    | split
    | (intro _)
    | dsimp only
    | (with_reducible refine keep_mk (s := _) ?_ rfl rfl rfl rfl; first | with_reducible exact h | with_reducible assumption | with_reducible apply freshNat_keep | (with_reducible refine freshNat_keep_of (by with_reducible assumption) ?_) | with_reducible apply jobFail_keep | with_reducible apply homeLost_keep | with_reducible apply telLanded_keep | with_reducible apply keep_ite | split)

theorem neighbourDraw_keep {s0 s : State} (h : Keep s0 s) (x : Nat) : Keep s0 (neighbourDraw s x) := by
  unfold neighbourDraw
  try dsimp only
  repeat' first
    | with_reducible exact h
    | with_reducible assumption
    | with_reducible apply incF_keep
    | with_reducible apply updHbm_keep
    | with_reducible apply freshNat_keep
    | (with_reducible refine freshNat_keep_of (by with_reducible assumption) ?_)
    | with_reducible apply signal_keep
    | with_reducible apply keep_ite
    | split
    | (intro _)
    | dsimp only
    | (with_reducible refine keep_mk (s := _) ?_ rfl rfl rfl rfl; first | with_reducible exact h | with_reducible assumption | with_reducible apply incF_keep | with_reducible apply updHbm_keep | with_reducible apply freshNat_keep | (with_reducible refine freshNat_keep_of (by with_reducible assumption) ?_) | with_reducible apply signal_keep | with_reducible apply keep_ite | split)

theorem openRow_keep {s0 s : State} (h : Keep s0 s) (x : Nat) (r : MemReq) : Keep s0 (openRow s x r) := by
  unfold openRow
  try dsimp only
  repeat' first
    | with_reducible exact h
    | with_reducible assumption
    | with_reducible apply updHbm_keep
    | with_reducible apply neighbourDraw_keep
    | with_reducible apply keep_ite
    | split
    | (intro _)
    | dsimp only
    | (with_reducible refine keep_mk (s := _) ?_ rfl rfl rfl rfl; first | with_reducible exact h | with_reducible assumption | with_reducible apply updHbm_keep | with_reducible apply neighbourDraw_keep | with_reducible apply keep_ite | split)

theorem deliver_keep {s0 s : State} (h : Keep s0 s) (r : MemReq) : Keep s0 (deliver s r) := by
  unfold deliver
  try dsimp only
  repeat' first
    | with_reducible exact h
    | with_reducible assumption
    | with_reducible apply putJob_keep
    | with_reducible apply telLanded_keep
    | with_reducible apply keep_ite
    | split
    | dsimp only
    | (with_reducible refine keep_mk (s := _) ?_ rfl rfl rfl rfl; first | with_reducible exact h | with_reducible assumption | with_reducible apply putJob_keep | with_reducible apply telLanded_keep | with_reducible apply keep_ite | split)

theorem issueReq_keep {s0 s : State} (h : Keep s0 s) (x : Nat) (r : MemReq) (ecc : EccResult) : Keep s0 (issueReq s x r ecc) := by
  unfold issueReq
  try dsimp only
  repeat' first
    | with_reducible exact h
    | with_reducible assumption
    | with_reducible apply updHbm_keep
    | with_reducible apply eccUncorrectable_keep
    | with_reducible apply eccCorrected_keep
    | with_reducible apply readerHit_keep
    | with_reducible apply openRow_keep
    | with_reducible apply deliver_keep
    | with_reducible apply keep_ite
    | split
    | (intro _)
    | dsimp only
    | (with_reducible refine keep_mk (s := _) ?_ rfl rfl rfl rfl; first | with_reducible exact h | with_reducible assumption | with_reducible apply updHbm_keep | with_reducible apply eccUncorrectable_keep | with_reducible apply eccCorrected_keep | with_reducible apply readerHit_keep | with_reducible apply openRow_keep | with_reducible apply deliver_keep | with_reducible apply keep_ite | split)

theorem rank3_keep_of {s0 s t : State} {x : Nat} (he : rank3 s x = some t) (h : Keep s0 s) : Keep s0 t := by
  unfold rank3 at he
  split at he
  · cases he
  · split at he
    · cases hf : freeBank s x with
      | none => simp [hf] at he
      | some b =>
        simp only [hf, Option.map_some, Option.some.injEq] at he
        subst he
        exact updHbm_keep (refreshBank_keep h _ _) _
    · split at he
      · cases he; exact incF_keep (updHbm_keep h _) _ _
      · cases he

theorem execMemRequestIssue_keep {s0 s : State} (h : Keep s0 s) (x : PcIx) (ecc : EccResult) : OKeep s0 (execMemRequestIssue x ecc s) := by
  unfold execMemRequestIssue
  try dsimp only
  repeat' first
    | with_reducible exact h
    | with_reducible assumption
    | with_reducible apply issueReq_keep
    | (with_reducible refine rank3_keep_of (by with_reducible assumption) ?_)
    | with_reducible apply keep_ite
    | with_reducible apply okeep_next
    | with_reducible apply okeep_fault
    | with_reducible apply okeep_ite
    | split
    | dsimp only
    | (with_reducible refine keep_mk (s := _) ?_ rfl rfl rfl rfl; first | with_reducible exact h | with_reducible assumption | with_reducible apply issueReq_keep | (with_reducible refine rank3_keep_of (by with_reducible assumption) ?_) | with_reducible apply keep_ite | with_reducible apply okeep_next | with_reducible apply okeep_fault | with_reducible apply okeep_ite | split)

theorem execRowIdleClose_keep {s0 s : State} (h : Keep s0 s) (x : PcIx) (bank : Nat) : OKeep s0 (execRowIdleClose x bank s) := by
  unfold execRowIdleClose
  try dsimp only
  repeat' first
    | with_reducible exact h
    | with_reducible assumption
    | with_reducible apply updHbm_keep
    | with_reducible apply keep_ite
    | with_reducible apply okeep_next
    | with_reducible apply okeep_fault
    | with_reducible apply okeep_ite
    | split
    | (intro _)
    | dsimp only
    | (with_reducible refine keep_mk (s := _) ?_ rfl rfl rfl rfl; first | with_reducible exact h | with_reducible assumption | with_reducible apply updHbm_keep | with_reducible apply keep_ite | with_reducible apply okeep_next | with_reducible apply okeep_fault | with_reducible apply okeep_ite | split)

theorem execPatrolScrub_keep {s0 s : State} (h : Keep s0 s) (x : PcIx) (ecc : EccResult) : OKeep s0 (execPatrolScrub x ecc s) := by
  unfold execPatrolScrub
  try dsimp only
  repeat' first
    | with_reducible exact h
    | with_reducible assumption
    | with_reducible apply updHbm_keep
    | with_reducible apply eccUncorrectable_keep
    | with_reducible apply eccCorrected_keep
    | with_reducible apply openRow_keep
    | with_reducible apply keep_ite
    | with_reducible apply okeep_next
    | with_reducible apply okeep_fault
    | with_reducible apply okeep_ite
    | split
    | (intro _)
    | dsimp only
    | (with_reducible refine keep_mk (s := _) ?_ rfl rfl rfl rfl; first | with_reducible exact h | with_reducible assumption | with_reducible apply updHbm_keep | with_reducible apply eccUncorrectable_keep | with_reducible apply eccCorrected_keep | with_reducible apply openRow_keep | with_reducible apply keep_ite | with_reducible apply okeep_next | with_reducible apply okeep_fault | with_reducible apply okeep_ite | split)

theorem memSleep_keep {s0 s : State} (h : Keep s0 s) : Keep s0 (memSleep s) := by
  unfold memSleep
  try dsimp only
  repeat' first
    | with_reducible exact h
    | with_reducible assumption
    | with_reducible apply wr_keep
    | with_reducible apply keep_ite
    | split
    | dsimp only

theorem memWake_keep {s0 s : State} (h : Keep s0 s) : Keep s0 (memWake s) := by
  unfold memWake
  try dsimp only
  repeat' first
    | with_reducible exact h
    | with_reducible assumption
    | with_reducible apply wr_keep
    | with_reducible apply updHbm_keep
    | with_reducible apply keep_ite
    | split
    | (intro _)
    | dsimp only
    | (with_reducible refine keep_mk (s := _) ?_ rfl rfl rfl rfl; first | with_reducible exact h | with_reducible assumption | with_reducible apply wr_keep | with_reducible apply updHbm_keep | with_reducible apply keep_ite | split)

end Sys2Proof.Machine
end

