-- ==== Sys2Proof/Laws/KeepTimeRing.lean ====
section
/-! SUPPORT. The operations of Machine/TimeRing.lean leave the queue alone and keep memories and registers canonical. -/
set_option maxRecDepth 4000
set_option linter.all false
namespace Sys2Proof.Machine

theorem showQual_keep {s0 s : State} (h : Keep s0 s) : Keep s0 (showQual s) := by
  unfold showQual
  try dsimp only
  repeat' first
    | with_reducible exact h
    | with_reducible assumption
    | with_reducible apply wr_keep
    | with_reducible apply keep_ite
    | split
    | dsimp only

theorem stepTime_keep {s0 s : State} (h : Keep s0 s) (d : Int) : Keep s0 (stepTime s d) := by
  unfold stepTime
  try dsimp only
  repeat' first
    | with_reducible exact h
    | with_reducible assumption
    | with_reducible apply updRing_keep
    | with_reducible apply keep_ite
    | split
    | (intro _)
    | dsimp only
    | (with_reducible refine keep_mk (s := _) ?_ rfl rfl rfl rfl; first | with_reducible exact h | with_reducible assumption | with_reducible apply updRing_keep | with_reducible apply keep_ite | split)

theorem slewBy_keep {s0 s : State} (h : Keep s0 s) (d : Int) : Keep s0 (slewBy s d) := by
  unfold slewBy
  try dsimp only
  repeat' first
    | with_reducible exact h
    | with_reducible assumption
    | with_reducible apply wr_keep
    | with_reducible apply updRing_keep
    | with_reducible apply showQual_keep
    | with_reducible apply keep_ite
    | split
    | (intro _)
    | dsimp only
    | (with_reducible refine keep_mk (s := _) ?_ rfl rfl rfl rfl; first | with_reducible exact h | with_reducible assumption | with_reducible apply wr_keep | with_reducible apply updRing_keep | with_reducible apply showQual_keep | with_reducible apply keep_ite | split)

theorem freshInt_keep {s0 s : State} (h : Keep s0 s) (bound : Nat) : Keep s0 (freshInt s bound).2 := by
  unfold freshInt
  try dsimp only
  repeat' first
    | with_reducible exact h
    | with_reducible assumption
    | with_reducible apply freshNat_keep
    | (with_reducible refine freshNat_keep_of (by with_reducible assumption) ?_)
    | with_reducible apply keep_ite
    | split
    | dsimp only

theorem freshInt_keep_of {s0 s : State} {v} {t : State} (bound : Nat) (he : freshInt s bound = (v, t)) (h : Keep s0 s) : Keep s0 t := by
  have hh := freshInt_keep h bound
  rw [he] at hh
  exact hh

theorem setRef_keep {s0 s : State} (h : Keep s0 s) (b : Bool) (v : Bool) : Keep s0 (setRef s b v) := by
  unfold setRef
  try dsimp only
  repeat' first
    | with_reducible exact h
    | with_reducible assumption
    | with_reducible apply wr_keep
    | with_reducible apply keep_ite
    | split
    | dsimp only

theorem refSwitch_keep {s0 s : State} (h : Keep s0 s) (b : Bool) : Keep s0 (refSwitch s b) := by
  unfold refSwitch
  try dsimp only
  repeat' first
    | with_reducible exact h
    | with_reducible assumption
    | with_reducible apply wr_keep
    | with_reducible apply setF_keep
    | with_reducible apply signal_keep
    | with_reducible apply stepTime_keep
    | with_reducible apply freshInt_keep
    | (with_reducible refine freshInt_keep_of (by with_reducible assumption) ?_)
    | with_reducible apply keep_ite
    | split
    | dsimp only

theorem execReferenceLost_keep {s0 s : State} (h : Keep s0 s) (b : Bool) : OKeep s0 (execReferenceLost b s) := by
  unfold execReferenceLost
  try dsimp only
  repeat' first
    | with_reducible exact h
    | with_reducible assumption
    | with_reducible apply setF_keep
    | with_reducible apply levelOn_keep
    | with_reducible apply showQual_keep
    | with_reducible apply setRef_keep
    | with_reducible apply refSwitch_keep
    | with_reducible apply keep_ite
    | with_reducible apply okeep_next
    | with_reducible apply okeep_fault
    | with_reducible apply okeep_ite
    | split
    | dsimp only

theorem execReferencePresent_keep {s0 s : State} (h : Keep s0 s) (b : Bool) : OKeep s0 (execReferencePresent b s) := by
  unfold execReferencePresent
  try dsimp only
  repeat' first
    | with_reducible exact h
    | with_reducible assumption
    | with_reducible apply wr_keep
    | with_reducible apply setF_keep
    | with_reducible apply clrF_keep
    | with_reducible apply updRing_keep
    | with_reducible apply levelOff_keep
    | with_reducible apply showQual_keep
    | with_reducible apply freshInt_keep
    | (with_reducible refine freshInt_keep_of (by with_reducible assumption) ?_)
    | with_reducible apply setRef_keep
    | with_reducible apply keep_ite
    | with_reducible apply okeep_next
    | with_reducible apply okeep_fault
    | with_reducible apply okeep_ite
    | split
    | (intro _)
    | dsimp only
    | (with_reducible refine keep_mk (s := _) ?_ rfl rfl rfl rfl; first | with_reducible exact h | with_reducible assumption | with_reducible apply wr_keep | with_reducible apply setF_keep | with_reducible apply clrF_keep | with_reducible apply updRing_keep | with_reducible apply levelOff_keep | with_reducible apply showQual_keep | with_reducible apply freshInt_keep | (with_reducible refine freshInt_keep_of (by with_reducible assumption) ?_) | with_reducible apply setRef_keep | with_reducible apply keep_ite | with_reducible apply okeep_next | with_reducible apply okeep_fault | with_reducible apply okeep_ite | split)

theorem execReferenceRevert_keep {s0 s : State} (h : Keep s0 s) : OKeep s0 (execReferenceRevert s) := by
  unfold execReferenceRevert
  try dsimp only
  repeat' first
    | with_reducible exact h
    | with_reducible assumption
    | with_reducible apply refSwitch_keep
    | with_reducible apply keep_ite
    | with_reducible apply okeep_next
    | with_reducible apply okeep_fault
    | with_reducible apply okeep_ite
    | split
    | dsimp only

theorem execSlewEnd_keep {s0 s : State} (h : Keep s0 s) : OKeep s0 (execSlewEnd s) := by
  unfold execSlewEnd
  try dsimp only
  repeat' first
    | with_reducible exact h
    | with_reducible assumption
    | with_reducible apply clrF_keep
    | with_reducible apply updRing_keep
    | with_reducible apply showQual_keep
    | with_reducible apply keep_ite
    | with_reducible apply okeep_next
    | with_reducible apply okeep_fault
    | with_reducible apply okeep_ite
    | split
    | (intro _)
    | dsimp only
    | (with_reducible refine keep_mk (s := _) ?_ rfl rfl rfl rfl; first | with_reducible exact h | with_reducible assumption | with_reducible apply clrF_keep | with_reducible apply updRing_keep | with_reducible apply showQual_keep | with_reducible apply keep_ite | with_reducible apply okeep_next | with_reducible apply okeep_fault | with_reducible apply okeep_ite | split)

theorem timeSet_keep {s0 s : State} (h : Keep s0 s) : Keep s0 (timeSet s) := by
  unfold timeSet
  try dsimp only
  repeat' first
    | with_reducible exact h
    | with_reducible assumption
    | with_reducible apply setF_keep
    | with_reducible apply updRing_keep
    | with_reducible apply showQual_keep
    | with_reducible apply stepTime_keep
    | with_reducible apply keep_ite
    | split
    | (intro _)
    | dsimp only
    | (with_reducible refine keep_mk (s := _) ?_ rfl rfl rfl rfl; first | with_reducible exact h | with_reducible assumption | with_reducible apply setF_keep | with_reducible apply updRing_keep | with_reducible apply showQual_keep | with_reducible apply stepTime_keep | with_reducible apply keep_ite | split)

theorem execTimeSet_keep {s0 s : State} (h : Keep s0 s) : OKeep s0 (execTimeSet s) := by
  unfold execTimeSet
  try dsimp only
  repeat' first
    | with_reducible exact h
    | with_reducible assumption
    | with_reducible apply barWrite_keep
    | with_reducible apply timeSet_keep
    | with_reducible apply keep_ite
    | with_reducible apply okeep_next
    | with_reducible apply okeep_fault
    | with_reducible apply okeep_ite
    | split
    | dsimp only

theorem execJoinWrite_keep {s0 s : State} (h : Keep s0 s) (v : Bool) : OKeep s0 (execJoinWrite v s) := by
  unfold execJoinWrite
  try dsimp only
  repeat' first
    | with_reducible exact h
    | with_reducible assumption
    | with_reducible apply wr_keep
    | with_reducible apply barWrite_keep
    | with_reducible apply keep_ite
    | with_reducible apply okeep_next
    | with_reducible apply okeep_fault
    | with_reducible apply okeep_ite
    | split
    | (intro _)
    | dsimp only

theorem takeSeq_keep {s0 s : State} (h : Keep s0 s) (type : Nat) : Keep s0 (takeSeq s type).2 := by
  unfold takeSeq
  try dsimp only
  repeat' first
    | with_reducible exact h
    | with_reducible assumption
    | with_reducible apply updRing_keep
    | with_reducible apply keep_ite
    | split
    | (intro _)
    | dsimp only
    | (with_reducible refine keep_mk (s := _) ?_ rfl rfl rfl rfl; first | with_reducible exact h | with_reducible assumption | with_reducible apply updRing_keep | with_reducible apply keep_ite | split)

theorem takeSeq_keep_of {s0 s : State} {v} {t : State} (type : Nat) (he : takeSeq s type = (v, t)) (h : Keep s0 s) : Keep s0 t := by
  have hh := takeSeq_keep h type
  rw [he] at hh
  exact hh

theorem launchOwn_keep {s0 s : State} (h : Keep s0 s) (b : Nat) (type : Nat) (dst : Nat) (all : Bool) (report : Bool) (pay : List Nat) : Keep s0 (launchOwn s b type dst all report pay).2 := by
  unfold launchOwn
  try dsimp only
  repeat' first
    | with_reducible exact h
    | with_reducible assumption
    | with_reducible apply updRing_keep
    | with_reducible apply takeSeq_keep
    | (with_reducible refine takeSeq_keep_of (by with_reducible assumption) ?_)
    | with_reducible apply keep_ite
    | split
    | (intro _)
    | dsimp only
    | (with_reducible refine keep_mk (s := _) ?_ rfl rfl rfl rfl; first | with_reducible exact h | with_reducible assumption | with_reducible apply updRing_keep | with_reducible apply takeSeq_keep | (with_reducible refine takeSeq_keep_of (by with_reducible assumption) ?_) | with_reducible apply keep_ite | split)

theorem launchOwn_keep_of {s0 s : State} {v} {t : State} (b : Nat) (type : Nat) (dst : Nat) (all : Bool) (report : Bool) (pay : List Nat) (he : launchOwn s b type dst all report pay = (v, t)) (h : Keep s0 s) : Keep s0 t := by
  have hh := launchOwn_keep h b type dst all report pay
  rw [he] at hh
  exact hh

theorem launchForward_keep {s0 s : State} (h : Keep s0 s) (b : Nat) (arrival : Nat) (f : List Nat) : Keep s0 (launchForward s b arrival f) := by
  unfold launchForward
  try dsimp only
  repeat' first
    | with_reducible exact h
    | with_reducible assumption
    | with_reducible apply updRing_keep
    | with_reducible apply keep_ite
    | split
    | (intro _)
    | dsimp only
    | (with_reducible refine keep_mk (s := _) ?_ rfl rfl rfl rfl; first | with_reducible exact h | with_reducible assumption | with_reducible apply updRing_keep | with_reducible apply keep_ite | split)

theorem execBlockLockGained_keep {s0 s : State} (h : Keep s0 s) (out : Bool) : OKeep s0 (execBlockLockGained out s) := by
  unfold execBlockLockGained
  try dsimp only
  repeat' first
    | with_reducible exact h
    | with_reducible assumption
    | with_reducible apply wr_keep
    | with_reducible apply updRing_keep
    | with_reducible apply keep_ite
    | with_reducible apply okeep_next
    | with_reducible apply okeep_fault
    | with_reducible apply okeep_ite
    | split
    | (intro _)
    | dsimp only
    | (with_reducible refine keep_mk (s := _) ?_ rfl rfl rfl rfl; first | with_reducible exact h | with_reducible assumption | with_reducible apply wr_keep | with_reducible apply updRing_keep | with_reducible apply keep_ite | with_reducible apply okeep_next | with_reducible apply okeep_fault | with_reducible apply okeep_ite | split)

theorem execBlockLockLost_keep {s0 s : State} (h : Keep s0 s) (out : Bool) : OKeep s0 (execBlockLockLost out s) := by
  unfold execBlockLockLost
  try dsimp only
  repeat' first
    | with_reducible exact h
    | with_reducible assumption
    | with_reducible apply wr_keep
    | with_reducible apply setF_keep
    | with_reducible apply updRing_keep
    | with_reducible apply levelOn_keep
    | with_reducible apply keep_ite
    | with_reducible apply okeep_next
    | with_reducible apply okeep_fault
    | with_reducible apply okeep_ite
    | split
    | (intro _)
    | dsimp only
    | (with_reducible refine keep_mk (s := _) ?_ rfl rfl rfl rfl; first | with_reducible exact h | with_reducible assumption | with_reducible apply wr_keep | with_reducible apply setF_keep | with_reducible apply updRing_keep | with_reducible apply levelOn_keep | with_reducible apply keep_ite | with_reducible apply okeep_next | with_reducible apply okeep_fault | with_reducible apply okeep_ite | split)

theorem delaySample_keep {s0 s : State} (h : Keep s0 s) (d : Int) : Keep s0 (delaySample s d) := by
  unfold delaySample
  try dsimp only
  repeat' first
    | with_reducible exact h
    | with_reducible assumption
    | with_reducible apply wr_keep
    | with_reducible apply updRing_keep
    | with_reducible apply freshNat_keep
    | (with_reducible refine freshNat_keep_of (by with_reducible assumption) ?_)
    | with_reducible apply levelOn_keep
    | with_reducible apply levelOff_keep
    | with_reducible apply keep_ite
    | split
    | (intro _)
    | dsimp only
    | (with_reducible refine keep_mk (s := _) ?_ rfl rfl rfl rfl; first | with_reducible exact h | with_reducible assumption | with_reducible apply wr_keep | with_reducible apply updRing_keep | with_reducible apply freshNat_keep | (with_reducible refine freshNat_keep_of (by with_reducible assumption) ?_) | with_reducible apply levelOn_keep | with_reducible apply levelOff_keep | with_reducible apply keep_ite | split)

theorem execPdelayResp_keep {s0 s : State} (h : Keep s0 s) (f : Frame) (tau : Nat) : OKeep s0 (execPdelayResp f tau s) := by
  unfold execPdelayResp
  try dsimp only
  repeat' first
    | with_reducible exact h
    | with_reducible assumption
    | with_reducible apply updRing_keep
    | with_reducible apply delaySample_keep
    | with_reducible apply keep_ite
    | with_reducible apply okeep_next
    | with_reducible apply okeep_fault
    | with_reducible apply okeep_ite
    | split
    | (intro _)
    | dsimp only
    | (with_reducible refine keep_mk (s := _) ?_ rfl rfl rfl rfl; first | with_reducible exact h | with_reducible assumption | with_reducible apply updRing_keep | with_reducible apply delaySample_keep | with_reducible apply keep_ite | with_reducible apply okeep_next | with_reducible apply okeep_fault | with_reducible apply okeep_ite | split)

theorem dropFrame_keep_of {s0 s t : State} {f : List Nat} (he : dropFrame s f = some t) (h : Keep s0 s) : Keep s0 t := by
  unfold dropFrame at he
  repeat' split at he
  all_goals cases he
  all_goals first | exact incF_keep h _ _ | exact h

theorem execFrameDrop_keep {s0 s : State} (h : Keep s0 s) (f : Frame) : OKeep s0 (execFrameDrop f s) := by
  unfold execFrameDrop
  apply okeep_next
  apply keep_ite h
  cases hd : dropFrame s f with
  | none => exact h
  | some t => exact dropFrame_keep_of hd h

theorem inLearned_keep {s0 s : State} (h : Keep s0 s) (f : List Nat) : Keep s0 (inLearned s f) := by
  unfold inLearned
  try dsimp only
  repeat' first
    | with_reducible exact h
    | with_reducible assumption
    | with_reducible apply wr_keep
    | with_reducible apply levelOff_keep
    | with_reducible apply keep_ite
    | split
    | dsimp only

theorem countGaps_keep {s0 s : State} (h : Keep s0 s) (f : List Nat) : Keep s0 (countGaps s f) := by
  unfold countGaps
  try dsimp only
  repeat' first
    | with_reducible exact h
    | with_reducible assumption
    | with_reducible apply addF_keep
    | with_reducible apply updRing_keep
    | with_reducible apply keep_ite
    | split
    | (intro _)
    | dsimp only
    | (with_reducible refine keep_mk (s := _) ?_ rfl rfl rfl rfl; first | with_reducible exact h | with_reducible assumption | with_reducible apply addF_keep | with_reducible apply updRing_keep | with_reducible apply keep_ite | split)

theorem receive_keep {s0 s : State} (h : Keep s0 s) (type : Nat) (f : List Nat) (tau : Nat) (k : State → State) (hk : ∀ x0, Keep s0 x0 → Keep s0 (k x0)) : Keep s0 (receive s type f tau k) := by
  unfold receive
  try dsimp only
  repeat' first
    | with_reducible exact h
    | with_reducible assumption
    | with_reducible apply updRing_keep
    | (with_reducible refine dropFrame_keep_of (by with_reducible assumption) ?_)
    | with_reducible apply inLearned_keep
    | with_reducible apply keep_ite
    | apply hk
    | split
    | (intro _)
    | dsimp only
    | (with_reducible refine keep_mk (s := _) ?_ rfl rfl rfl rfl; first | with_reducible exact h | with_reducible assumption | with_reducible apply updRing_keep | (with_reducible refine dropFrame_keep_of (by with_reducible assumption) ?_) | with_reducible apply inLearned_keep | with_reducible apply keep_ite | apply hk | split)

theorem execPdelayReq_keep {s0 s : State} (h : Keep s0 s) (f : Frame) (tau : Nat) : OKeep s0 (execPdelayReq f tau s) := by
  unfold execPdelayReq
  try dsimp only
  repeat' first
    | with_reducible exact h
    | with_reducible assumption
    | with_reducible apply updRing_keep
    | with_reducible apply takeSeq_keep
    | (with_reducible refine takeSeq_keep_of (by with_reducible assumption) ?_)
    | with_reducible apply receive_keep
    | with_reducible apply keep_ite
    | with_reducible apply okeep_next
    | with_reducible apply okeep_fault
    | with_reducible apply okeep_ite
    | split
    | (intro _)
    | dsimp only
    | (with_reducible refine keep_mk (s := _) ?_ rfl rfl rfl rfl; first | with_reducible exact h | with_reducible assumption | with_reducible apply updRing_keep | with_reducible apply takeSeq_keep | (with_reducible refine takeSeq_keep_of (by with_reducible assumption) ?_) | with_reducible apply receive_keep | with_reducible apply keep_ite | with_reducible apply okeep_next | with_reducible apply okeep_fault | with_reducible apply okeep_ite | split)

theorem steer_keep {s0 s : State} (h : Keep s0 s) (f : List Nat) (tau : Nat) : Keep s0 (steer s f tau) := by
  unfold steer
  try dsimp only
  repeat' first
    | with_reducible exact h
    | with_reducible assumption
    | with_reducible apply wr_keep
    | with_reducible apply setF_keep
    | with_reducible apply updRing_keep
    | with_reducible apply signal_keep
    | with_reducible apply showQual_keep
    | with_reducible apply stepTime_keep
    | with_reducible apply slewBy_keep
    | with_reducible apply keep_ite
    | split
    | (intro _)
    | dsimp only
    | (with_reducible refine keep_mk (s := _) ?_ rfl rfl rfl rfl; first | with_reducible exact h | with_reducible assumption | with_reducible apply wr_keep | with_reducible apply setF_keep | with_reducible apply updRing_keep | with_reducible apply signal_keep | with_reducible apply showQual_keep | with_reducible apply stepTime_keep | with_reducible apply slewBy_keep | with_reducible apply keep_ite | split)

theorem execTimeFrame_keep {s0 s : State} (h : Keep s0 s) (f : Frame) (tau : Nat) : OKeep s0 (execTimeFrame f tau s) := by
  unfold execTimeFrame
  try dsimp only
  repeat' first
    | with_reducible exact h
    | with_reducible assumption
    | with_reducible apply receive_keep
    | with_reducible apply steer_keep
    | with_reducible apply keep_ite
    | with_reducible apply okeep_next
    | with_reducible apply okeep_fault
    | with_reducible apply okeep_ite
    | split
    | (intro _)
    | dsimp only

theorem execTimeFrameTimeout_keep {s0 s : State} (h : Keep s0 s) : OKeep s0 (execTimeFrameTimeout s) := by
  unfold execTimeFrameTimeout
  try dsimp only
  repeat' first
    | with_reducible exact h
    | with_reducible assumption
    | with_reducible apply updRing_keep
    | with_reducible apply showQual_keep
    | with_reducible apply keep_ite
    | with_reducible apply okeep_next
    | with_reducible apply okeep_fault
    | with_reducible apply okeep_ite
    | split
    | (intro _)
    | dsimp only
    | (with_reducible refine keep_mk (s := _) ?_ rfl rfl rfl rfl; first | with_reducible exact h | with_reducible assumption | with_reducible apply updRing_keep | with_reducible apply showQual_keep | with_reducible apply keep_ite | with_reducible apply okeep_next | with_reducible apply okeep_fault | with_reducible apply okeep_ite | split)

theorem atInstant_keep {s0 s : State} (h : Keep s0 s) (tau : Nat) : Keep s0 (atInstant s tau) := by
  unfold atInstant
  try dsimp only
  repeat' first
    | with_reducible exact h
    | with_reducible assumption
    | with_reducible apply keep_ite
    | split
    | dsimp only
    | (with_reducible refine keep_mk (s := _) ?_ rfl rfl rfl rfl; first | with_reducible exact h | with_reducible assumption | with_reducible apply keep_ite | split)

theorem triggerJumpAt_keep {s0 s : State} (h : Keep s0 s) (i : Nat) (tau : Nat) : Keep s0 (triggerJumpAt s i tau) := by
  unfold triggerJumpAt
  try dsimp only
  repeat' first
    | with_reducible exact h
    | with_reducible assumption
    | with_reducible apply triggerJump_keep
    | with_reducible apply atInstant_keep
    | with_reducible apply keep_ite
    | split
    | dsimp only
    | (with_reducible refine keep_mk (s := _) ?_ rfl rfl rfl rfl; first | with_reducible exact h | with_reducible assumption | with_reducible apply triggerJump_keep | with_reducible apply atInstant_keep | with_reducible apply keep_ite | split)

theorem gangAbortAt_keep {s0 s : State} (h : Keep s0 s) (l : Nat) (tau : Nat) : Keep s0 (gangAbortAt s l tau) := by
  unfold gangAbortAt
  try dsimp only
  repeat' first
    | with_reducible exact h
    | with_reducible assumption
    | with_reducible apply gangAbort_keep
    | with_reducible apply atInstant_keep
    | with_reducible apply keep_ite
    | split
    | dsimp only
    | (with_reducible refine keep_mk (s := _) ?_ rfl rfl rfl rfl; first | with_reducible exact h | with_reducible assumption | with_reducible apply gangAbort_keep | with_reducible apply atInstant_keep | with_reducible apply keep_ite | split)

theorem bcastAct_keep {s0 s : State} (h : Keep s0 s) (pay : List Nat) : Keep s0 (bcastAct s pay) := by
  unfold bcastAct
  try dsimp only
  repeat' first
    | with_reducible exact h
    | with_reducible assumption
    | with_reducible apply bcastTrigger_keep
    | with_reducible apply triggerJumpAt_keep
    | with_reducible apply gangAbortAt_keep
    | with_reducible apply keep_ite
    | (with_reducible refine keep_foldl ?_ (fun _ _ _ => ?_))
    | split
    | (intro _)
    | dsimp only
    | (with_reducible refine keep_mk (s := _) ?_ rfl rfl rfl rfl; first | with_reducible exact h | with_reducible assumption | with_reducible apply bcastTrigger_keep | with_reducible apply triggerJumpAt_keep | with_reducible apply gangAbortAt_keep | with_reducible apply keep_ite | (with_reducible refine keep_foldl ?_ (fun _ _ _ => ?_)) | split)

theorem execBcastFrame_keep {s0 s : State} (h : Keep s0 s) (f : Frame) (tau : Nat) : OKeep s0 (execBcastFrame f tau s) := by
  unfold execBcastFrame
  try dsimp only
  repeat' first
    | with_reducible exact h
    | with_reducible assumption
    | with_reducible apply countGaps_keep
    | with_reducible apply receive_keep
    | with_reducible apply bcastAct_keep
    | with_reducible apply keep_ite
    | with_reducible apply okeep_next
    | with_reducible apply okeep_fault
    | with_reducible apply okeep_ite
    | split
    | (intro _)
    | dsimp only

theorem showSnaps_keep {s0 s : State} (h : Keep s0 s) : Keep s0 (showSnaps s) := by
  unfold showSnaps
  try dsimp only
  repeat' first
    | with_reducible exact h
    | with_reducible assumption
    | with_reducible apply wr_keep
    | with_reducible apply keep_ite
    | split
    | dsimp only

theorem addSnap_keep {s0 s : State} (h : Keep s0 s) (x : Snap) : Keep s0 (addSnap s x) := by
  unfold addSnap
  try dsimp only
  repeat' first
    | with_reducible exact h
    | with_reducible assumption
    | with_reducible apply updRing_keep
    | with_reducible apply showSnaps_keep
    | with_reducible apply keep_ite
    | split
    | (intro _)
    | dsimp only
    | (with_reducible refine keep_mk (s := _) ?_ rfl rfl rfl rfl; first | with_reducible exact h | with_reducible assumption | with_reducible apply updRing_keep | with_reducible apply showSnaps_keep | with_reducible apply keep_ite | split)

theorem execSnapFrame_keep {s0 s : State} (h : Keep s0 s) (f : Frame) (tau : Nat) : OKeep s0 (execSnapFrame f tau s) := by
  unfold execSnapFrame
  try dsimp only
  repeat' first
    | with_reducible exact h
    | with_reducible assumption
    | with_reducible apply incF_keep
    | with_reducible apply signal_keep
    | with_reducible apply countGaps_keep
    | with_reducible apply receive_keep
    | with_reducible apply addSnap_keep
    | with_reducible apply keep_ite
    | with_reducible apply okeep_next
    | with_reducible apply okeep_fault
    | with_reducible apply okeep_ite
    | split
    | (intro _)
    | dsimp only

theorem snapShadows_keep {s0 s : State} (h : Keep s0 s) (seqn : Nat) (edge : Nat) : Keep s0 (snapShadows s seqn edge) := by
  unfold snapShadows
  try dsimp only
  repeat' first
    | with_reducible exact h
    | with_reducible assumption
    | with_reducible apply wr_keep
    | with_reducible apply setF_keep
    | with_reducible apply wr64_keep
    | with_reducible apply wrTime_keep
    | with_reducible apply keep_ite
    | (with_reducible refine keep_foldl ?_ (fun _ _ _ => ?_))
    | split
    | (intro _)
    | dsimp only

theorem snapToBuf_keep {s0 s : State} (h : Keep s0 s) (l : List Nat) : Keep s0 (snapToBuf s l) := by
  unfold snapToBuf
  try dsimp only
  repeat' first
    | with_reducible exact h
    | with_reducible assumption
    | with_reducible apply incF_keep
    | with_reducible apply updRing_keep
    | with_reducible apply signal_keep
    | with_reducible apply snapWrite_keep
    | with_reducible apply keep_ite
    | split
    | (intro _)
    | dsimp only
    | (with_reducible refine keep_mk (s := _) ?_ rfl rfl rfl rfl; first | with_reducible exact h | with_reducible assumption | with_reducible apply incF_keep | with_reducible apply updRing_keep | with_reducible apply signal_keep | with_reducible apply snapWrite_keep | with_reducible apply keep_ite | split)

theorem snapJob_keep {s0 s : State} (h : Keep s0 s) (x : Snap) (edge : Nat) : Keep s0 (snapJob s x edge) := by
  unfold snapJob
  try dsimp only
  repeat' first
    | with_reducible exact h
    | with_reducible assumption
    | with_reducible apply writeAndEnd_keep
    | with_reducible apply keep_ite
    | split
    | dsimp only
    | (with_reducible refine keep_mk (s := _) ?_ rfl rfl rfl rfl; first | with_reducible exact h | with_reducible assumption | with_reducible apply writeAndEnd_keep | with_reducible apply keep_ite | split)

theorem execSnapshotLatch_keep {s0 s : State} (h : Keep s0 s) : OKeep s0 (execSnapshotLatch s) := by
  unfold execSnapshotLatch
  try dsimp only
  repeat' first
    | with_reducible exact h
    | with_reducible assumption
    | with_reducible apply updRing_keep
    | with_reducible apply showSnaps_keep
    | with_reducible apply snapShadows_keep
    | with_reducible apply snapToBuf_keep
    | with_reducible apply snapJob_keep
    | with_reducible apply keep_ite
    | with_reducible apply okeep_next
    | with_reducible apply okeep_fault
    | with_reducible apply okeep_ite
    | (with_reducible refine keep_foldl ?_ (fun _ _ _ => ?_))
    | split
    | (intro _)
    | dsimp only
    | (with_reducible refine keep_mk (s := _) ?_ rfl rfl rfl rfl; first | with_reducible exact h | with_reducible assumption | with_reducible apply updRing_keep | with_reducible apply showSnaps_keep | with_reducible apply snapShadows_keep | with_reducible apply snapToBuf_keep | with_reducible apply snapJob_keep | with_reducible apply keep_ite | with_reducible apply okeep_next | with_reducible apply okeep_fault | with_reducible apply okeep_ite | (with_reducible refine keep_foldl ?_ (fun _ _ _ => ?_)) | split)

theorem execTimeLaunch_keep {s0 s : State} (h : Keep s0 s) (j : Nat) : OKeep s0 (execTimeLaunch j s) := by
  unfold execTimeLaunch
  try dsimp only
  repeat' first
    | with_reducible exact h
    | with_reducible assumption
    | with_reducible apply updRing_keep
    | with_reducible apply endJob_keep
    | with_reducible apply startJob_keep
    | with_reducible apply keep_ite
    | with_reducible apply okeep_next
    | with_reducible apply okeep_fault
    | with_reducible apply okeep_ite
    | split
    | (intro _)
    | dsimp only
    | (with_reducible refine keep_mk (s := _) ?_ rfl rfl rfl rfl; first | with_reducible exact h | with_reducible assumption | with_reducible apply updRing_keep | with_reducible apply endJob_keep | with_reducible apply startJob_keep | with_reducible apply keep_ite | with_reducible apply okeep_next | with_reducible apply okeep_fault | with_reducible apply okeep_ite | split)

theorem execSnapshot_keep {s0 s : State} (h : Keep s0 s) (j : Nat) : OKeep s0 (execSnapshot j s) := by
  unfold execSnapshot
  try dsimp only
  repeat' first
    | with_reducible exact h
    | with_reducible assumption
    | with_reducible apply updRing_keep
    | with_reducible apply endJob_keep
    | with_reducible apply startJob_keep
    | with_reducible apply addSnap_keep
    | with_reducible apply keep_ite
    | with_reducible apply okeep_next
    | with_reducible apply okeep_fault
    | with_reducible apply okeep_ite
    | split
    | (intro _)
    | dsimp only
    | (with_reducible refine keep_mk (s := _) ?_ rfl rfl rfl rfl; first | with_reducible exact h | with_reducible assumption | with_reducible apply updRing_keep | with_reducible apply endJob_keep | with_reducible apply startJob_keep | with_reducible apply addSnap_keep | with_reducible apply keep_ite | with_reducible apply okeep_next | with_reducible apply okeep_fault | with_reducible apply okeep_ite | split)

theorem execTimePeriodTimer_keep {s0 s : State} (h : Keep s0 s) : OKeep s0 (execTimePeriodTimer s) := by
  unfold execTimePeriodTimer
  try dsimp only
  repeat' first
    | with_reducible exact h
    | with_reducible assumption
    | with_reducible apply updRing_keep
    | with_reducible apply keep_ite
    | with_reducible apply okeep_next
    | with_reducible apply okeep_fault
    | with_reducible apply okeep_ite
    | split
    | (intro _)
    | dsimp only
    | (with_reducible refine keep_mk (s := _) ?_ rfl rfl rfl rfl; first | with_reducible exact h | with_reducible assumption | with_reducible apply updRing_keep | with_reducible apply keep_ite | with_reducible apply okeep_next | with_reducible apply okeep_fault | with_reducible apply okeep_ite | split)

theorem execPdelayTimer_keep {s0 s : State} (h : Keep s0 s) : OKeep s0 (execPdelayTimer s) := by
  unfold execPdelayTimer
  try dsimp only
  repeat' first
    | with_reducible exact h
    | with_reducible assumption
    | with_reducible apply updRing_keep
    | with_reducible apply keep_ite
    | with_reducible apply okeep_next
    | with_reducible apply okeep_fault
    | with_reducible apply okeep_ite
    | split
    | (intro _)
    | dsimp only
    | (with_reducible refine keep_mk (s := _) ?_ rfl rfl rfl rfl; first | with_reducible exact h | with_reducible assumption | with_reducible apply updRing_keep | with_reducible apply keep_ite | with_reducible apply okeep_next | with_reducible apply okeep_fault | with_reducible apply okeep_ite | split)

theorem makeLaunch_keep {s0 s : State} (h : Keep s0 s) (x : Launch) (b : Nat) : Keep s0 (makeLaunch s x b) := by
  unfold makeLaunch
  try dsimp only
  repeat' first
    | with_reducible exact h
    | with_reducible assumption
    | with_reducible apply updRing_keep
    | with_reducible apply endJob?_keep
    | with_reducible apply launchOwn_keep
    | (with_reducible refine launchOwn_keep_of (by with_reducible assumption) ?_)
    | with_reducible apply bcastAct_keep
    | with_reducible apply keep_ite
    | split
    | (intro _)
    | dsimp only
    | (with_reducible refine keep_mk (s := _) ?_ rfl rfl rfl rfl; first | with_reducible exact h | with_reducible assumption | with_reducible apply updRing_keep | with_reducible apply endJob?_keep | with_reducible apply launchOwn_keep | (with_reducible refine launchOwn_keep_of (by with_reducible assumption) ?_) | with_reducible apply bcastAct_keep | with_reducible apply keep_ite | split)

theorem launchMsg_keep {s0 s : State} (h : Keep s0 s) (b : Nat) (m : Bool × Nat × List Nat) : Keep s0 (launchMsg s b m) := by
  unfold launchMsg
  try dsimp only
  repeat' first
    | with_reducible exact h
    | with_reducible assumption
    | with_reducible apply launchOwn_keep
    | (with_reducible refine launchOwn_keep_of (by with_reducible assumption) ?_)
    | with_reducible apply keep_ite
    | split
    | dsimp only

theorem execFrameLaunch_keep {s0 s : State} (h : Keep s0 s) : OKeep s0 (execFrameLaunch s) := by
  unfold execFrameLaunch
  try dsimp only
  repeat' first
    | with_reducible exact h
    | with_reducible assumption
    | with_reducible apply updRing_keep
    | with_reducible apply launchOwn_keep
    | (with_reducible refine launchOwn_keep_of (by with_reducible assumption) ?_)
    | with_reducible apply launchForward_keep
    | with_reducible apply makeLaunch_keep
    | with_reducible apply launchMsg_keep
    | with_reducible apply keep_ite
    | with_reducible apply okeep_next
    | with_reducible apply okeep_fault
    | with_reducible apply okeep_ite
    | (with_reducible refine keep_foldl ?_ (fun _ _ _ => ?_))
    | split
    | (intro _)
    | dsimp only
    | (with_reducible refine keep_mk (s := _) ?_ rfl rfl rfl rfl; first | with_reducible exact h | with_reducible assumption | with_reducible apply updRing_keep | with_reducible apply launchOwn_keep | (with_reducible refine launchOwn_keep_of (by with_reducible assumption) ?_) | with_reducible apply launchForward_keep | with_reducible apply makeLaunch_keep | with_reducible apply launchMsg_keep | with_reducible apply keep_ite | with_reducible apply okeep_next | with_reducible apply okeep_fault | with_reducible apply okeep_ite | (with_reducible refine keep_foldl ?_ (fun _ _ _ => ?_)) | split)

theorem strumMeasure_keep {s0 s : State} (h : Keep s0 s) (tau : Nat) (ofs : Int) : Keep s0 (strumMeasure s tau ofs) := by
  unfold strumMeasure
  try dsimp only
  repeat' first
    | with_reducible exact h
    | with_reducible assumption
    | with_reducible apply wr_keep
    | with_reducible apply updRing_keep
    | with_reducible apply wrTime_keep
    | with_reducible apply slewBy_keep
    | with_reducible apply keep_ite
    | split
    | (intro _)
    | dsimp only
    | (with_reducible refine keep_mk (s := _) ?_ rfl rfl rfl rfl; first | with_reducible exact h | with_reducible assumption | with_reducible apply wr_keep | with_reducible apply updRing_keep | with_reducible apply wrTime_keep | with_reducible apply slewBy_keep | with_reducible apply keep_ite | split)

theorem execStrumEdge_keep {s0 s : State} (h : Keep s0 s) (tau : Nat) : OKeep s0 (execStrumEdge tau s) := by
  unfold execStrumEdge
  try dsimp only
  repeat' first
    | with_reducible exact h
    | with_reducible assumption
    | with_reducible apply wr_keep
    | with_reducible apply setF_keep
    | with_reducible apply updRing_keep
    | with_reducible apply showQual_keep
    | with_reducible apply stepTime_keep
    | with_reducible apply strumMeasure_keep
    | with_reducible apply keep_ite
    | with_reducible apply okeep_next
    | with_reducible apply okeep_fault
    | with_reducible apply okeep_ite
    | split
    | (intro _)
    | dsimp only
    | (with_reducible refine keep_mk (s := _) ?_ rfl rfl rfl rfl; first | with_reducible exact h | with_reducible assumption | with_reducible apply wr_keep | with_reducible apply setF_keep | with_reducible apply updRing_keep | with_reducible apply showQual_keep | with_reducible apply stepTime_keep | with_reducible apply strumMeasure_keep | with_reducible apply keep_ite | with_reducible apply okeep_next | with_reducible apply okeep_fault | with_reducible apply okeep_ite | split)

end Sys2Proof.Machine
end

