-- ==== Sys2Proof/Laws/KeepTellerRoles.lean ====
section
/-! SUPPORT. The operations of Machine/TellerRoles.lean leave the queue alone and keep memories and registers canonical. -/
set_option maxRecDepth 4000
set_option linter.all false
namespace Sys2Proof.Machine

theorem deliverMsg_keep {s0 s : State} (h : Keep s0 s) (m : List Nat) : Keep s0 (deliverMsg s m).1 := by
  unfold deliverMsg
  try dsimp only
  repeat' first
    | with_reducible exact h
    | with_reducible assumption
    | with_reducible apply incF_keep
    | with_reducible apply putTel_keep
    | with_reducible apply showTelQ_keep
    | with_reducible apply raiseTel_keep
    | with_reducible apply keep_ite
    | split
    | dsimp only
    | (with_reducible refine keep_mk (s := _) ?_ rfl rfl rfl rfl; first | with_reducible exact h | with_reducible assumption | with_reducible apply incF_keep | with_reducible apply putTel_keep | with_reducible apply showTelQ_keep | with_reducible apply raiseTel_keep | with_reducible apply keep_ite | split)

theorem deliverMsg_keep_of {s0 s : State} {v} {t : State} (m : List Nat) (he : deliverMsg s m = (t, v)) (h : Keep s0 s) : Keep s0 t := by
  have hh := deliverMsg_keep h m
  rw [he] at hh
  exact hh

theorem takeReport_keep {s0 s : State} (h : Keep s0 s) (n : Nat) (slot : SendSlot) (r : List Nat) : Keep s0 (takeReport s n slot r) := by
  unfold takeReport
  try dsimp only
  repeat' first
    | with_reducible exact h
    | with_reducible assumption
    | with_reducible apply putTel_keep
    | with_reducible apply showTelQ_keep
    | with_reducible apply raiseTel_keep
    | with_reducible apply keep_ite
    | split
    | dsimp only
    | (with_reducible refine keep_mk (s := _) ?_ rfl rfl rfl rfl; first | with_reducible exact h | with_reducible assumption | with_reducible apply putTel_keep | with_reducible apply showTelQ_keep | with_reducible apply raiseTel_keep | with_reducible apply keep_ite | split)

theorem execMessageLeavesOutbox_keep {s0 s : State} (h : Keep s0 s) (n : TellerIx) : OKeep s0 (execMessageLeavesOutbox n s) := by
  unfold execMessageLeavesOutbox
  try dsimp only
  repeat' first
    | with_reducible exact h
    | with_reducible assumption
    | with_reducible apply updRing_keep
    | with_reducible apply putTel_keep
    | with_reducible apply showTelQ_keep
    | with_reducible apply keep_ite
    | with_reducible apply okeep_next
    | with_reducible apply okeep_fault
    | with_reducible apply okeep_ite
    | split
    | (intro _)
    | dsimp only
    | (with_reducible refine keep_mk (s := _) ?_ rfl rfl rfl rfl; first | with_reducible exact h | with_reducible assumption | with_reducible apply updRing_keep | with_reducible apply putTel_keep | with_reducible apply showTelQ_keep | with_reducible apply keep_ite | with_reducible apply okeep_next | with_reducible apply okeep_fault | with_reducible apply okeep_ite | split)

theorem execMessageArrival_keep {s0 s : State} (h : Keep s0 s) (n : TellerIx) : OKeep s0 (execMessageArrival n s) := by
  unfold execMessageArrival
  split
  · exact okeep_next h
  · rename_i e _
    have hd := deliverMsg_keep h e.msg
    split
    · rename_i s1 he
      rw [he] at hd
      exact okeep_next (showTelQ_keep (updTel_keep hd _ _) _)
    · rename_i s1 r he
      rw [he] at hd
      exact okeep_next (takeReport_keep hd _ _ _)


theorem execMessageNoroute_keep {s0 s : State} (h : Keep s0 s) (n : TellerIx) : OKeep s0 (execMessageNoroute n s) := by
  unfold execMessageNoroute
  try dsimp only
  repeat' first
    | with_reducible exact h
    | with_reducible assumption
    | with_reducible apply updRing_keep
    | with_reducible apply updTel_keep
    | with_reducible apply freshNat_keep
    | (with_reducible refine freshNat_keep_of (by with_reducible assumption) ?_)
    | with_reducible apply showTelQ_keep
    | with_reducible apply takeReport_keep
    | with_reducible apply keep_ite
    | with_reducible apply okeep_next
    | with_reducible apply okeep_fault
    | with_reducible apply okeep_ite
    | split
    | (intro _)
    | dsimp only
    | (with_reducible refine keep_mk (s := _) ?_ rfl rfl rfl rfl; first | with_reducible exact h | with_reducible assumption | with_reducible apply updRing_keep | with_reducible apply updTel_keep | with_reducible apply freshNat_keep | (with_reducible refine freshNat_keep_of (by with_reducible assumption) ?_) | with_reducible apply showTelQ_keep | with_reducible apply takeReport_keep | with_reducible apply keep_ite | with_reducible apply okeep_next | with_reducible apply okeep_fault | with_reducible apply okeep_ite | split)

theorem execMsgFrame_keep {s0 s : State} (h : Keep s0 s) (f : Frame) (tau : Nat) : OKeep s0 (execMsgFrame f tau s) := by
  unfold execMsgFrame
  apply okeep_next
  apply receive_keep h
  intro x hx
  dsimp only
  apply keep_ite
  · split
    · exact takeReport_keep hx _ _ _
    · exact hx
  · have hd := deliverMsg_keep hx (framePay f)
    split
    · rename_i he; rw [he] at hd; exact hd
    · rename_i he; rw [he] at hd; exact updRing_keep hd _

theorem epochStep_keep {s0 s : State} (h : Keep s0 s) (n : Nat) : Keep s0 (epochStep s n) := by
  unfold epochStep
  try dsimp only
  repeat' first
    | with_reducible exact h
    | with_reducible assumption
    | with_reducible apply wr_keep
    | with_reducible apply incF_keep
    | with_reducible apply updRing_keep
    | with_reducible apply putTel_keep
    | with_reducible apply showTelQ_keep
    | with_reducible apply raiseTel_keep
    | with_reducible apply keep_ite
    | (with_reducible refine keep_foldl ?_ (fun _ _ _ => ?_))
    | split
    | (intro _)
    | dsimp only
    | (with_reducible refine keep_mk (s := _) ?_ rfl rfl rfl rfl; first | with_reducible exact h | with_reducible assumption | with_reducible apply wr_keep | with_reducible apply incF_keep | with_reducible apply updRing_keep | with_reducible apply putTel_keep | with_reducible apply showTelQ_keep | with_reducible apply raiseTel_keep | with_reducible apply keep_ite | (with_reducible refine keep_foldl ?_ (fun _ _ _ => ?_)) | split)

theorem shelveEvents_keep {s0 s : State} (h : Keep s0 s) (n : Nat) : Keep s0 (shelveEvents s n) := by
  unfold shelveEvents
  try dsimp only
  repeat' first
    | with_reducible exact h
    | with_reducible assumption
    | with_reducible apply putTel_keep
    | with_reducible apply keep_ite
    | split
    | (intro _)
    | dsimp only
    | (with_reducible refine keep_mk (s := _) ?_ rfl rfl rfl rfl; first | with_reducible exact h | with_reducible assumption | with_reducible apply putTel_keep | with_reducible apply keep_ite | split)

theorem unshelveEvents_keep {s0 s : State} (h : Keep s0 s) (n : Nat) : Keep s0 (unshelveEvents s n) := by
  unfold unshelveEvents
  try dsimp only
  repeat' first
    | with_reducible exact h
    | with_reducible assumption
    | with_reducible apply raiseTel_keep
    | with_reducible apply keep_ite
    | (with_reducible refine keep_foldl ?_ (fun _ _ _ => ?_))
    | split
    | (intro _)
    | dsimp only
    | (with_reducible refine keep_mk (s := _) ?_ rfl rfl rfl rfl; first | with_reducible exact h | with_reducible assumption | with_reducible apply raiseTel_keep | with_reducible apply keep_ite | (with_reducible refine keep_foldl ?_ (fun _ _ _ => ?_)) | split)

theorem passEvents_keep {s0 s : State} (h : Keep s0 s) (role : Nat) (n : Nat) : Keep s0 (passEvents s role n) := by
  unfold passEvents
  try dsimp only
  repeat' first
    | with_reducible exact h
    | with_reducible assumption
    | with_reducible apply unshelveEvents_keep
    | with_reducible apply keep_ite
    | split
    | dsimp only
    | (with_reducible refine keep_mk (s := _) ?_ rfl rfl rfl rfl; first | with_reducible exact h | with_reducible assumption | with_reducible apply unshelveEvents_keep | with_reducible apply keep_ite | split)

theorem takeRole_keep {s0 s : State} (h : Keep s0 s) (n : Nat) (r : Nat) : Keep s0 (takeRole s n r) := by
  unfold takeRole
  try dsimp only
  repeat' first
    | with_reducible exact h
    | with_reducible assumption
    | with_reducible apply wr_keep
    | with_reducible apply epochStep_keep
    | with_reducible apply shelveEvents_keep
    | with_reducible apply unshelveEvents_keep
    | with_reducible apply passEvents_keep
    | with_reducible apply keep_ite
    | split
    | dsimp only

theorem queueAssign_keep {s0 s : State} (h : Keep s0 s) (n : Nat) (r : Nat) (job : Option Nat) : Keep s0 (queueAssign s n r job) := by
  unfold queueAssign
  try dsimp only
  repeat' first
    | with_reducible exact h
    | with_reducible assumption
    | with_reducible apply updTel_keep
    | with_reducible apply keep_ite
    | split
    | (intro _)
    | dsimp only
    | (with_reducible refine keep_mk (s := _) ?_ rfl rfl rfl rfl; first | with_reducible exact h | with_reducible assumption | with_reducible apply updTel_keep | with_reducible apply keep_ite | split)

theorem setReady_keep {s0 s : State} (h : Keep s0 s) : Keep s0 (setReady s) := by
  unfold setReady
  try dsimp only
  repeat' first
    | with_reducible exact h
    | with_reducible assumption
    | with_reducible apply setF_keep
    | with_reducible apply keep_ite
    | split
    | dsimp only

theorem digPllStart_keep {s0 s : State} (h : Keep s0 s) (l : List Nat) : Keep s0 (digPllStart s l) := by
  unfold digPllStart
  try dsimp only
  repeat' first
    | with_reducible exact h
    | with_reducible assumption
    | with_reducible apply updDig_keep
    | with_reducible apply keep_ite
    | (with_reducible refine keep_foldl ?_ (fun _ _ _ => ?_))
    | split
    | (intro _)
    | dsimp only
    | (with_reducible refine keep_mk (s := _) ?_ rfl rfl rfl rfl; first | with_reducible exact h | with_reducible assumption | with_reducible apply updDig_keep | with_reducible apply keep_ite | (with_reducible refine keep_foldl ?_ (fun _ _ _ => ?_)) | split)

theorem startupCal_keep {s0 s : State} (h : Keep s0 s) (j : Nat) : Keep s0 (startupCal s j) := by
  unfold startupCal
  try dsimp only
  repeat' first
    | with_reducible exact h
    | with_reducible assumption
    | with_reducible apply setF_keep
    | with_reducible apply putJob_keep
    | with_reducible apply updBoot_keep
    | with_reducible apply digPllStart_keep
    | with_reducible apply keep_ite
    | split
    | (intro _)
    | dsimp only
    | (with_reducible refine keep_mk (s := _) ?_ rfl rfl rfl rfl; first | with_reducible exact h | with_reducible assumption | with_reducible apply setF_keep | with_reducible apply putJob_keep | with_reducible apply updBoot_keep | with_reducible apply digPllStart_keep | with_reducible apply keep_ite | split)

theorem assignDone_keep {s0 s : State} (h : Keep s0 s) (j : Nat) : Keep s0 (assignDone s j) := by
  unfold assignDone
  try dsimp only
  repeat' first
    | with_reducible exact h
    | with_reducible assumption
    | with_reducible apply endJob_keep
    | with_reducible apply setReady_keep
    | with_reducible apply keep_ite
    | split
    | dsimp only
    | (with_reducible refine keep_mk (s := _) ?_ rfl rfl rfl rfl; first | with_reducible exact h | with_reducible assumption | with_reducible apply endJob_keep | with_reducible apply setReady_keep | with_reducible apply keep_ite | split)

theorem roleEnded_keep {s0 s : State} (h : Keep s0 s) (n : Nat) : Keep s0 (roleEnded s n) := by
  unfold roleEnded
  try dsimp only
  repeat' first
    | with_reducible exact h
    | with_reducible assumption
    | with_reducible apply updTel_keep
    | with_reducible apply assignDone_keep
    | with_reducible apply keep_ite
    | (with_reducible refine keep_foldl ?_ (fun _ _ _ => ?_))
    | split
    | (intro _)
    | dsimp only
    | (with_reducible refine keep_mk (s := _) ?_ rfl rfl rfl rfl; first | with_reducible exact h | with_reducible assumption | with_reducible apply updTel_keep | with_reducible apply assignDone_keep | with_reducible apply keep_ite | (with_reducible refine keep_foldl ?_ (fun _ _ _ => ?_)) | split)

theorem execRoleAssignmentApply_keep {s0 s : State} (h : Keep s0 s) (n : TellerIx) : OKeep s0 (execRoleAssignmentApply n s) := by
  unfold execRoleAssignmentApply
  try dsimp only
  repeat' first
    | with_reducible exact h
    | with_reducible assumption
    | with_reducible apply incF_keep
    | with_reducible apply updTel_keep
    | with_reducible apply telAbandon_keep
    | with_reducible apply raiseTel_keep
    | with_reducible apply takeRole_keep
    | with_reducible apply startupCal_keep
    | with_reducible apply roleEnded_keep
    | with_reducible apply keep_ite
    | with_reducible apply okeep_next
    | with_reducible apply okeep_fault
    | with_reducible apply okeep_ite
    | split
    | (intro _)
    | dsimp only
    | (with_reducible refine keep_mk (s := _) ?_ rfl rfl rfl rfl; first | with_reducible exact h | with_reducible assumption | with_reducible apply incF_keep | with_reducible apply updTel_keep | with_reducible apply telAbandon_keep | with_reducible apply raiseTel_keep | with_reducible apply takeRole_keep | with_reducible apply startupCal_keep | with_reducible apply roleEnded_keep | with_reducible apply keep_ite | with_reducible apply okeep_next | with_reducible apply okeep_fault | with_reducible apply okeep_ite | split)

theorem moveNoted_keep {s0 s : State} (h : Keep s0 s) (n : Nat) (role : Nat) : Keep s0 (moveNoted s n role) := by
  unfold moveNoted
  try dsimp only
  repeat' first
    | with_reducible exact h
    | with_reducible assumption
    | with_reducible apply signal_keep
    | with_reducible apply keep_ite
    | split
    | dsimp only

theorem moveSector_keep {s0 s : State} (h : Keep s0 s) (role : Nat) (q : Nat) (from_ : Nat) : Keep s0 (moveSector s role q from_) := by
  unfold moveSector
  try dsimp only
  repeat' first
    | with_reducible exact h
    | with_reducible assumption
    | with_reducible apply queueAssign_keep
    | with_reducible apply moveNoted_keep
    | with_reducible apply keep_ite
    | split
    | dsimp only
    | (with_reducible refine keep_mk (s := _) ?_ rfl rfl rfl rfl; first | with_reducible exact h | with_reducible assumption | with_reducible apply queueAssign_keep | with_reducible apply moveNoted_keep | with_reducible apply keep_ite | split)

theorem moveTile_keep {s0 s : State} (h : Keep s0 s) (role : Nat) (t : Nat) (from_ : Nat) : Keep s0 (moveTile s role t from_) := by
  unfold moveTile
  try dsimp only
  repeat' first
    | with_reducible exact h
    | with_reducible assumption
    | with_reducible apply queueAssign_keep
    | with_reducible apply moveNoted_keep
    | with_reducible apply moveSector_keep
    | with_reducible apply keep_ite
    | split
    | (intro _)
    | dsimp only
    | (with_reducible refine keep_mk (s := _) ?_ rfl rfl rfl rfl; first | with_reducible exact h | with_reducible assumption | with_reducible apply queueAssign_keep | with_reducible apply moveNoted_keep | with_reducible apply moveSector_keep | with_reducible apply keep_ite | split)

theorem moveRole_keep {s0 s : State} (h : Keep s0 s) (role : Nat) (n : Nat) : Keep s0 (moveRole s role n) := by
  unfold moveRole
  try dsimp only
  repeat' first
    | with_reducible exact h
    | with_reducible assumption
    | with_reducible apply passEvents_keep
    | with_reducible apply moveSector_keep
    | with_reducible apply moveTile_keep
    | with_reducible apply keep_ite
    | split
    | (intro _)
    | dsimp only
    | (with_reducible refine keep_mk (s := _) ?_ rfl rfl rfl rfl; first | with_reducible exact h | with_reducible assumption | with_reducible apply passEvents_keep | with_reducible apply moveSector_keep | with_reducible apply moveTile_keep | with_reducible apply keep_ite | split)

theorem showUsers_keep {s0 s : State} (h : Keep s0 s) : Keep s0 (showUsers s) := by
  unfold showUsers
  try dsimp only
  repeat' first
    | with_reducible exact h
    | with_reducible assumption
    | with_reducible apply wri_keep
    | with_reducible apply keep_ite
    | (with_reducible refine keep_foldl ?_ (fun _ _ _ => ?_))
    | split
    | (intro _)
    | dsimp only

theorem telRetire_keep {s0 s : State} (h : Keep s0 s) (n : Nat) : Keep s0 (telRetire s n) := by
  unfold telRetire
  try dsimp only
  repeat' first
    | with_reducible exact h
    | with_reducible assumption
    | with_reducible apply wr_keep
    | with_reducible apply keep_ite
    | split
    | dsimp only

theorem telHalt_keep {s0 s : State} (h : Keep s0 s) (n : Nat) (cause : Nat) : Keep s0 (telHalt s n cause) := by
  unfold telHalt
  try dsimp only
  repeat' first
    | with_reducible exact h
    | with_reducible assumption
    | with_reducible apply wr_keep
    | with_reducible apply incF_keep
    | with_reducible apply putTel_keep
    | with_reducible apply signal_keep
    | with_reducible apply showTelQ_keep
    | with_reducible apply telLeave_keep
    | with_reducible apply epochStep_keep
    | with_reducible apply shelveEvents_keep
    | with_reducible apply assignDone_keep
    | with_reducible apply roleEnded_keep
    | with_reducible apply moveRole_keep
    | with_reducible apply telRetire_keep
    | with_reducible apply keep_ite
    | (with_reducible refine keep_foldl ?_ (fun _ _ _ => ?_))
    | split
    | (intro _)
    | dsimp only
    | (with_reducible refine keep_mk (s := _) ?_ rfl rfl rfl rfl; first | with_reducible exact h | with_reducible assumption | with_reducible apply wr_keep | with_reducible apply incF_keep | with_reducible apply putTel_keep | with_reducible apply signal_keep | with_reducible apply showTelQ_keep | with_reducible apply telLeave_keep | with_reducible apply epochStep_keep | with_reducible apply shelveEvents_keep | with_reducible apply assignDone_keep | with_reducible apply roleEnded_keep | with_reducible apply moveRole_keep | with_reducible apply telRetire_keep | with_reducible apply keep_ite | (with_reducible refine keep_foldl ?_ (fun _ _ _ => ?_)) | split)

theorem execWatchdogExpiry_keep {s0 s : State} (h : Keep s0 s) (n : TellerIx) : OKeep s0 (execWatchdogExpiry n s) := by
  unfold execWatchdogExpiry
  try dsimp only
  repeat' first
    | with_reducible exact h
    | with_reducible assumption
    | with_reducible apply telHalt_keep
    | with_reducible apply keep_ite
    | with_reducible apply okeep_next
    | with_reducible apply okeep_fault
    | with_reducible apply okeep_ite
    | split
    | dsimp only
    | (with_reducible refine keep_mk (s := _) ?_ rfl rfl rfl rfl; first | with_reducible exact h | with_reducible assumption | with_reducible apply telHalt_keep | with_reducible apply keep_ite | with_reducible apply okeep_next | with_reducible apply okeep_fault | with_reducible apply okeep_ite | split)

theorem execCommitOverrun_keep {s0 s : State} (h : Keep s0 s) (n : TellerIx) : OKeep s0 (execCommitOverrun n s) := by
  unfold execCommitOverrun
  try dsimp only
  repeat' first
    | with_reducible exact h
    | with_reducible assumption
    | with_reducible apply telHalt_keep
    | with_reducible apply keep_ite
    | with_reducible apply okeep_next
    | with_reducible apply okeep_fault
    | with_reducible apply okeep_ite
    | split
    | dsimp only
    | (with_reducible refine keep_mk (s := _) ?_ rfl rfl rfl rfl; first | with_reducible exact h | with_reducible assumption | with_reducible apply telHalt_keep | with_reducible apply keep_ite | with_reducible apply okeep_next | with_reducible apply okeep_fault | with_reducible apply okeep_ite | split)

theorem telLoad_keep {s0 s : State} (h : Keep s0 s) (n : Nat) (slot : Nat) (l : List Nat) : Keep s0 (telLoad s n slot l) := by
  unfold telLoad
  try dsimp only
  repeat' first
    | with_reducible exact h
    | with_reducible assumption
    | with_reducible apply wr_keep
    | with_reducible apply updTel_keep
    | with_reducible apply telLeave_keep
    | with_reducible apply keep_ite
    | split
    | (intro _)
    | dsimp only
    | (with_reducible refine keep_mk (s := _) ?_ rfl rfl rfl rfl; first | with_reducible exact h | with_reducible assumption | with_reducible apply wr_keep | with_reducible apply updTel_keep | with_reducible apply telLeave_keep | with_reducible apply keep_ite | split)

theorem loadImage_keep {s0 s : State} (h : Keep s0 s) (j : Nat) (slot : Nat) (tellers : Nat) (l : List Nat) : Keep s0 (loadImage s j slot tellers l) := by
  unfold loadImage
  try dsimp only
  repeat' first
    | with_reducible exact h
    | with_reducible assumption
    | with_reducible apply wri_keep
    | with_reducible apply endJob_keep
    | with_reducible apply devStore_keep
    | with_reducible apply memAskWrite_keep
    | with_reducible apply showUsers_keep
    | with_reducible apply telLoad_keep
    | with_reducible apply keep_ite
    | (with_reducible refine keep_foldl ?_ (fun _ _ _ => ?_))
    | split
    | (intro _)
    | dsimp only

theorem execLoadImage_keep {s0 s : State} (h : Keep s0 s) (j : Nat) : OKeep s0 (execLoadImage j s) := by
  unfold execLoadImage
  try dsimp only
  repeat' first
    | with_reducible exact h
    | with_reducible assumption
    | with_reducible apply endJob_keep
    | with_reducible apply devStore_keep
    | with_reducible apply needBytes_keep
    | with_reducible apply loadImage_keep
    | with_reducible apply keep_ite
    | with_reducible apply okeep_next
    | with_reducible apply okeep_fault
    | with_reducible apply okeep_ite
    | split
    | (intro _)
    | dsimp only
    | (with_reducible refine keep_mk (s := _) ?_ rfl rfl rfl rfl; first | with_reducible exact h | with_reducible assumption | with_reducible apply endJob_keep | with_reducible apply devStore_keep | with_reducible apply needBytes_keep | with_reducible apply loadImage_keep | with_reducible apply keep_ite | with_reducible apply okeep_next | with_reducible apply okeep_fault | with_reducible apply okeep_ite | split)

theorem execReloadDone_keep {s0 s : State} (h : Keep s0 s) (n : TellerIx) : OKeep s0 (execReloadDone n s) := by
  unfold execReloadDone
  try dsimp only
  repeat' first
    | with_reducible exact h
    | with_reducible assumption
    | with_reducible apply wri_keep
    | with_reducible apply queueAssign_keep
    | with_reducible apply moveNoted_keep
    | with_reducible apply telRetire_keep
    | with_reducible apply telLoad_keep
    | with_reducible apply keep_ite
    | with_reducible apply okeep_next
    | with_reducible apply okeep_fault
    | with_reducible apply okeep_ite
    | split
    | dsimp only
    | (with_reducible refine keep_mk (s := _) ?_ rfl rfl rfl rfl; first | with_reducible exact h | with_reducible assumption | with_reducible apply wri_keep | with_reducible apply queueAssign_keep | with_reducible apply moveNoted_keep | with_reducible apply telRetire_keep | with_reducible apply telLoad_keep | with_reducible apply keep_ite | with_reducible apply okeep_next | with_reducible apply okeep_fault | with_reducible apply okeep_ite | split)

theorem execAssignRole_keep {s0 s : State} (h : Keep s0 s) (j : Nat) : OKeep s0 (execAssignRole j s) := by
  unfold execAssignRole
  try dsimp only
  repeat' first
    | with_reducible exact h
    | with_reducible assumption
    | with_reducible apply endJob_keep
    | with_reducible apply needBytes_keep
    | with_reducible apply setWork_keep
    | with_reducible apply queueAssign_keep
    | with_reducible apply assignDone_keep
    | with_reducible apply keep_ite
    | with_reducible apply okeep_next
    | with_reducible apply okeep_fault
    | with_reducible apply okeep_ite
    | (with_reducible refine keep_foldl ?_ (fun _ _ _ => ?_))
    | split
    | (intro _)
    | dsimp only
    | (with_reducible refine keep_mk (s := _) ?_ rfl rfl rfl rfl; first | with_reducible exact h | with_reducible assumption | with_reducible apply endJob_keep | with_reducible apply needBytes_keep | with_reducible apply setWork_keep | with_reducible apply queueAssign_keep | with_reducible apply assignDone_keep | with_reducible apply keep_ite | with_reducible apply okeep_next | with_reducible apply okeep_fault | with_reducible apply okeep_ite | (with_reducible refine keep_foldl ?_ (fun _ _ _ => ?_)) | split)

end Sys2Proof.Machine
end

