-- ==== Sys2Proof/Laws/KeepMicrocode.lean ====
section
/-! SUPPORT. The operations of Machine/Microcode.lean leave the queue alone and keep memories and registers canonical. -/
set_option maxRecDepth 4000
set_option linter.all false
namespace Sys2Proof.Machine

theorem mwBegin_keep_of {s0 s t : State} {n : Nat} (he : mwBegin s n = some t) (h : Keep s0 s) : Keep s0 t := by
  unfold mwBegin at he
  dsimp only at he
  split at he
  · cases he; exact h
  · split at he
    · cases he
    · cases he; exact putTel_keep h _ _

theorem partDone_keep {s0 s : State} (h : Keep s0 s) (n : Nat) (part : Nat) : Keep s0 (partDone s n part) := by
  unfold partDone
  try dsimp only
  repeat' first
    | with_reducible exact h
    | with_reducible assumption
    | with_reducible apply updTel_keep
    | with_reducible apply keep_ite
    | split
    | (intro _)
    | dsimp only
    | (with_reducible refine keep_mk (s := _) ?_ rfl rfl rfl rfl; first | with_reducible exact h | with_reducible assumption | with_reducible apply updTel_keep | with_reducible apply keep_ite | split)

theorem micro_keep {s0 s : State} (h : Keep s0 s) (n : Nat) (part : Nat) (has : Nat → Bool) (k : State → State) (hk : ∀ x0, Keep s0 x0 → Keep s0 (k x0)) : Keep s0 (micro s n part has k) := by
  unfold micro
  try dsimp only
  repeat' first
    | with_reducible exact h
    | with_reducible assumption
    | with_reducible apply telHalt_keep
    | (with_reducible refine mwBegin_keep_of (by with_reducible assumption) ?_)
    | with_reducible apply partDone_keep
    | with_reducible apply keep_ite
    | apply hk
    | split
    | (intro _)
    | dsimp only
    | (with_reducible refine keep_mk (s := _) ?_ rfl rfl rfl rfl; first | with_reducible exact h | with_reducible assumption | with_reducible apply telHalt_keep | (with_reducible refine mwBegin_keep_of (by with_reducible assumption) ?_) | with_reducible apply partDone_keep | with_reducible apply keep_ite | apply hk | split)

theorem consumeEvent_keep {s0 s : State} (h : Keep s0 s) (n : Nat) : Keep s0 (consumeEvent s n) := by
  unfold consumeEvent
  try dsimp only
  repeat' first
    | with_reducible exact h
    | with_reducible assumption
    | with_reducible apply updTel_keep
    | with_reducible apply keep_ite
    | split
    | (intro _)
    | dsimp only
    | (with_reducible refine keep_mk (s := _) ?_ rfl rfl rfl rfl; first | with_reducible exact h | with_reducible assumption | with_reducible apply updTel_keep | with_reducible apply keep_ite | split)

theorem execCommit_keep {s0 s : State} (h : Keep s0 s) (n : TellerIx) : OKeep s0 (execCommit n s) := by
  unfold execCommit
  try dsimp only
  repeat' first
    | with_reducible exact h
    | with_reducible assumption
    | with_reducible apply setF_keep
    | with_reducible apply updTel_keep
    | with_reducible apply micro_keep
    | with_reducible apply consumeEvent_keep
    | with_reducible apply keep_ite
    | with_reducible apply okeep_next
    | with_reducible apply okeep_fault
    | with_reducible apply okeep_ite
    | split
    | (intro _)
    | dsimp only
    | (with_reducible refine keep_mk (s := _) ?_ rfl rfl rfl rfl; first | with_reducible exact h | with_reducible assumption | with_reducible apply setF_keep | with_reducible apply updTel_keep | with_reducible apply micro_keep | with_reducible apply consumeEvent_keep | with_reducible apply keep_ite | with_reducible apply okeep_next | with_reducible apply okeep_fault | with_reducible apply okeep_ite | split)

theorem enterRoutine_keep {s0 s : State} (h : Keep s0 s) (n : Nat) (e : Nat) (entry : Nat) (lent : Bool) : Keep s0 (enterRoutine s n e entry lent) := by
  unfold enterRoutine
  try dsimp only
  repeat' first
    | with_reducible exact h
    | with_reducible assumption
    | with_reducible apply wr_keep
    | with_reducible apply clrF_keep
    | with_reducible apply putTel_keep
    | with_reducible apply keep_ite
    | split
    | dsimp only
    | (with_reducible refine keep_mk (s := _) ?_ rfl rfl rfl rfl; first | with_reducible exact h | with_reducible assumption | with_reducible apply wr_keep | with_reducible apply clrF_keep | with_reducible apply putTel_keep | with_reducible apply keep_ite | split)

theorem execRoutineDispatch_keep {s0 s : State} (h : Keep s0 s) (n : TellerIx) : OKeep s0 (execRoutineDispatch n s) := by
  unfold execRoutineDispatch
  try dsimp only
  repeat' first
    | with_reducible exact h
    | with_reducible assumption
    | with_reducible apply enterRoutine_keep
    | with_reducible apply keep_ite
    | with_reducible apply okeep_next
    | with_reducible apply okeep_fault
    | with_reducible apply okeep_ite
    | split
    | dsimp only
    | (with_reducible refine keep_mk (s := _) ?_ rfl rfl rfl rfl; first | with_reducible exact h | with_reducible assumption | with_reducible apply enterRoutine_keep | with_reducible apply keep_ite | with_reducible apply okeep_next | with_reducible apply okeep_fault | with_reducible apply okeep_ite | split)

theorem seqTo_keep {s0 s : State} (h : Keep s0 s) (n : Nat) (a : Nat) : Keep s0 (seqTo s n a) := by
  unfold seqTo
  try dsimp only
  repeat' first
    | with_reducible exact h
    | with_reducible assumption
    | with_reducible apply wr_keep
    | with_reducible apply updTel_keep
    | with_reducible apply telHalt_keep
    | with_reducible apply keep_ite
    | split
    | (intro _)
    | dsimp only
    | (with_reducible refine keep_mk (s := _) ?_ rfl rfl rfl rfl; first | with_reducible exact h | with_reducible assumption | with_reducible apply wr_keep | with_reducible apply updTel_keep | with_reducible apply telHalt_keep | with_reducible apply keep_ite | split)

theorem seqOp_keep {s0 s : State} (h : Keep s0 s) (n : Nat) (op : Nat) (k : State → State) (hk : ∀ x0, Keep s0 x0 → Keep s0 (k x0)) : Keep s0 (seqOp s n op k) := by
  unfold seqOp
  try dsimp only
  repeat' first
    | with_reducible exact h
    | with_reducible assumption
    | with_reducible apply micro_keep
    | with_reducible apply keep_ite
    | apply hk
    | split
    | (intro _)
    | dsimp only

theorem execSeqTrap_keep {s0 s : State} (h : Keep s0 s) (n : TellerIx) : OKeep s0 (execSeqTrap n s) := by
  unfold execSeqTrap
  try dsimp only
  repeat' first
    | with_reducible exact h
    | with_reducible assumption
    | with_reducible apply micro_keep
    | with_reducible apply keep_ite
    | with_reducible apply okeep_next
    | with_reducible apply okeep_fault
    | with_reducible apply okeep_ite
    | split
    | (intro _)
    | dsimp only

theorem execSeqGoto_keep {s0 s : State} (h : Keep s0 s) (n : TellerIx) : OKeep s0 (execSeqGoto n s) := by
  unfold execSeqGoto
  try dsimp only
  repeat' first
    | with_reducible exact h
    | with_reducible assumption
    | with_reducible apply seqTo_keep
    | with_reducible apply seqOp_keep
    | with_reducible apply keep_ite
    | with_reducible apply okeep_next
    | with_reducible apply okeep_fault
    | with_reducible apply okeep_ite
    | split
    | (intro _)
    | dsimp only

theorem execSeqBr_keep {s0 s : State} (h : Keep s0 s) (n : TellerIx) : OKeep s0 (execSeqBr n s) := by
  unfold execSeqBr
  try dsimp only
  repeat' first
    | with_reducible exact h
    | with_reducible assumption
    | with_reducible apply seqTo_keep
    | with_reducible apply seqOp_keep
    | with_reducible apply keep_ite
    | with_reducible apply okeep_next
    | with_reducible apply okeep_fault
    | with_reducible apply okeep_ite
    | split
    | (intro _)
    | dsimp only

theorem execSeqBrn_keep {s0 s : State} (h : Keep s0 s) (n : TellerIx) : OKeep s0 (execSeqBrn n s) := by
  unfold execSeqBrn
  try dsimp only
  repeat' first
    | with_reducible exact h
    | with_reducible assumption
    | with_reducible apply seqTo_keep
    | with_reducible apply seqOp_keep
    | with_reducible apply keep_ite
    | with_reducible apply okeep_next
    | with_reducible apply okeep_fault
    | with_reducible apply okeep_ite
    | split
    | (intro _)
    | dsimp only

theorem execSeqCall_keep {s0 s : State} (h : Keep s0 s) (n : TellerIx) : OKeep s0 (execSeqCall n s) := by
  unfold execSeqCall
  try dsimp only
  repeat' first
    | with_reducible exact h
    | with_reducible assumption
    | with_reducible apply updTel_keep
    | with_reducible apply seqTo_keep
    | with_reducible apply seqOp_keep
    | with_reducible apply keep_ite
    | with_reducible apply okeep_next
    | with_reducible apply okeep_fault
    | with_reducible apply okeep_ite
    | split
    | (intro _)
    | dsimp only
    | (with_reducible refine keep_mk (s := _) ?_ rfl rfl rfl rfl; first | with_reducible exact h | with_reducible assumption | with_reducible apply updTel_keep | with_reducible apply seqTo_keep | with_reducible apply seqOp_keep | with_reducible apply keep_ite | with_reducible apply okeep_next | with_reducible apply okeep_fault | with_reducible apply okeep_ite | split)

theorem execSeqRet_keep {s0 s : State} (h : Keep s0 s) (n : TellerIx) : OKeep s0 (execSeqRet n s) := by
  unfold execSeqRet
  try dsimp only
  repeat' first
    | with_reducible exact h
    | with_reducible assumption
    | with_reducible apply updTel_keep
    | with_reducible apply seqTo_keep
    | with_reducible apply seqOp_keep
    | with_reducible apply keep_ite
    | with_reducible apply okeep_next
    | with_reducible apply okeep_fault
    | with_reducible apply okeep_ite
    | split
    | (intro _)
    | dsimp only
    | (with_reducible refine keep_mk (s := _) ?_ rfl rfl rfl rfl; first | with_reducible exact h | with_reducible assumption | with_reducible apply updTel_keep | with_reducible apply seqTo_keep | with_reducible apply seqOp_keep | with_reducible apply keep_ite | with_reducible apply okeep_next | with_reducible apply okeep_fault | with_reducible apply okeep_ite | split)

theorem execSeqDisp_keep {s0 s : State} (h : Keep s0 s) (n : TellerIx) : OKeep s0 (execSeqDisp n s) := by
  unfold execSeqDisp
  try dsimp only
  repeat' first
    | with_reducible exact h
    | with_reducible assumption
    | with_reducible apply seqTo_keep
    | with_reducible apply seqOp_keep
    | with_reducible apply keep_ite
    | with_reducible apply okeep_next
    | with_reducible apply okeep_fault
    | with_reducible apply okeep_ite
    | split
    | (intro _)
    | dsimp only

theorem execSeqLoop_keep {s0 s : State} (h : Keep s0 s) (n : TellerIx) : OKeep s0 (execSeqLoop n s) := by
  unfold execSeqLoop
  try dsimp only
  repeat' first
    | with_reducible exact h
    | with_reducible assumption
    | with_reducible apply updTel_keep
    | with_reducible apply seqTo_keep
    | with_reducible apply seqOp_keep
    | with_reducible apply keep_ite
    | with_reducible apply okeep_next
    | with_reducible apply okeep_fault
    | with_reducible apply okeep_ite
    | split
    | (intro _)
    | dsimp only
    | (with_reducible refine keep_mk (s := _) ?_ rfl rfl rfl rfl; first | with_reducible exact h | with_reducible assumption | with_reducible apply updTel_keep | with_reducible apply seqTo_keep | with_reducible apply seqOp_keep | with_reducible apply keep_ite | with_reducible apply okeep_next | with_reducible apply okeep_fault | with_reducible apply okeep_ite | split)

theorem execSeqEnd_keep {s0 s : State} (h : Keep s0 s) (n : TellerIx) : OKeep s0 (execSeqEnd n s) := by
  unfold execSeqEnd
  try dsimp only
  repeat' first
    | with_reducible exact h
    | with_reducible assumption
    | with_reducible apply wr_keep
    | with_reducible apply updTel_keep
    | with_reducible apply telLeave_keep
    | with_reducible apply roleEnded_keep
    | with_reducible apply consumeEvent_keep
    | with_reducible apply seqOp_keep
    | with_reducible apply keep_ite
    | with_reducible apply okeep_next
    | with_reducible apply okeep_fault
    | with_reducible apply okeep_ite
    | split
    | (intro _)
    | dsimp only

theorem aluOp_keep {s0 s : State} (h : Keep s0 s) (n : Nat) (op : Nat) (f : Teller → Nat → Nat → Nat → Nat → Teller × Option Nat) : Keep s0 (aluOp s n op f) := by
  unfold aluOp
  try dsimp only
  repeat' first
    | with_reducible exact h
    | with_reducible assumption
    | with_reducible apply putTel_keep
    | with_reducible apply micro_keep
    | with_reducible apply keep_ite
    | split
    | (intro _)
    | dsimp only
    | (with_reducible refine keep_mk (s := _) ?_ rfl rfl rfl rfl; first | with_reducible exact h | with_reducible assumption | with_reducible apply putTel_keep | with_reducible apply micro_keep | with_reducible apply keep_ite | split)

theorem aluZN_keep {s0 s : State} (h : Keep s0 s) (n : Nat) (op : Nat) (f : Nat → Nat → Nat → Nat) : Keep s0 (aluZN s n op f) := by
  unfold aluZN
  try dsimp only
  repeat' first
    | with_reducible exact h
    | with_reducible assumption
    | with_reducible apply aluOp_keep
    | with_reducible apply keep_ite
    | split
    | (intro _)
    | dsimp only

theorem execAluNop_keep {s0 s : State} (h : Keep s0 s) (n : TellerIx) : OKeep s0 (execAluNop n s) := by
  unfold execAluNop
  try dsimp only
  repeat' first
    | with_reducible exact h
    | with_reducible assumption
    | with_reducible apply aluOp_keep
    | with_reducible apply keep_ite
    | with_reducible apply okeep_next
    | with_reducible apply okeep_fault
    | with_reducible apply okeep_ite
    | split
    | (intro _)
    | dsimp only

theorem execAluAdd_keep {s0 s : State} (h : Keep s0 s) (n : TellerIx) : OKeep s0 (execAluAdd n s) := by
  unfold execAluAdd
  try dsimp only
  repeat' first
    | with_reducible exact h
    | with_reducible assumption
    | with_reducible apply aluOp_keep
    | with_reducible apply keep_ite
    | with_reducible apply okeep_next
    | with_reducible apply okeep_fault
    | with_reducible apply okeep_ite
    | split
    | (intro _)
    | dsimp only

theorem execAluSub_keep {s0 s : State} (h : Keep s0 s) (n : TellerIx) : OKeep s0 (execAluSub n s) := by
  unfold execAluSub
  try dsimp only
  repeat' first
    | with_reducible exact h
    | with_reducible assumption
    | with_reducible apply aluOp_keep
    | with_reducible apply keep_ite
    | with_reducible apply okeep_next
    | with_reducible apply okeep_fault
    | with_reducible apply okeep_ite
    | split
    | (intro _)
    | dsimp only

theorem execAluCmp_keep {s0 s : State} (h : Keep s0 s) (n : TellerIx) : OKeep s0 (execAluCmp n s) := by
  unfold execAluCmp
  try dsimp only
  repeat' first
    | with_reducible exact h
    | with_reducible assumption
    | with_reducible apply aluOp_keep
    | with_reducible apply keep_ite
    | with_reducible apply okeep_next
    | with_reducible apply okeep_fault
    | with_reducible apply okeep_ite
    | split
    | (intro _)
    | dsimp only

theorem execAluAnd_keep {s0 s : State} (h : Keep s0 s) (n : TellerIx) : OKeep s0 (execAluAnd n s) := by
  unfold execAluAnd
  try dsimp only
  repeat' first
    | with_reducible exact h
    | with_reducible assumption
    | with_reducible apply aluZN_keep
    | with_reducible apply keep_ite
    | with_reducible apply okeep_next
    | with_reducible apply okeep_fault
    | with_reducible apply okeep_ite
    | split
    | (intro _)
    | dsimp only

theorem execAluOr_keep {s0 s : State} (h : Keep s0 s) (n : TellerIx) : OKeep s0 (execAluOr n s) := by
  unfold execAluOr
  try dsimp only
  repeat' first
    | with_reducible exact h
    | with_reducible assumption
    | with_reducible apply aluZN_keep
    | with_reducible apply keep_ite
    | with_reducible apply okeep_next
    | with_reducible apply okeep_fault
    | with_reducible apply okeep_ite
    | split
    | (intro _)
    | dsimp only

theorem execAluXor_keep {s0 s : State} (h : Keep s0 s) (n : TellerIx) : OKeep s0 (execAluXor n s) := by
  unfold execAluXor
  try dsimp only
  repeat' first
    | with_reducible exact h
    | with_reducible assumption
    | with_reducible apply aluZN_keep
    | with_reducible apply keep_ite
    | with_reducible apply okeep_next
    | with_reducible apply okeep_fault
    | with_reducible apply okeep_ite
    | split
    | (intro _)
    | dsimp only

theorem execAluShl_keep {s0 s : State} (h : Keep s0 s) (n : TellerIx) : OKeep s0 (execAluShl n s) := by
  unfold execAluShl
  try dsimp only
  repeat' first
    | with_reducible exact h
    | with_reducible assumption
    | with_reducible apply aluZN_keep
    | with_reducible apply keep_ite
    | with_reducible apply okeep_next
    | with_reducible apply okeep_fault
    | with_reducible apply okeep_ite
    | split
    | (intro _)
    | dsimp only

theorem execAluShr_keep {s0 s : State} (h : Keep s0 s) (n : TellerIx) : OKeep s0 (execAluShr n s) := by
  unfold execAluShr
  try dsimp only
  repeat' first
    | with_reducible exact h
    | with_reducible assumption
    | with_reducible apply aluZN_keep
    | with_reducible apply keep_ite
    | with_reducible apply okeep_next
    | with_reducible apply okeep_fault
    | with_reducible apply okeep_ite
    | split
    | (intro _)
    | dsimp only

theorem execAluSar_keep {s0 s : State} (h : Keep s0 s) (n : TellerIx) : OKeep s0 (execAluSar n s) := by
  unfold execAluSar
  try dsimp only
  repeat' first
    | with_reducible exact h
    | with_reducible assumption
    | with_reducible apply aluZN_keep
    | with_reducible apply keep_ite
    | with_reducible apply okeep_next
    | with_reducible apply okeep_fault
    | with_reducible apply okeep_ite
    | split
    | (intro _)
    | dsimp only

theorem execAluMul_keep {s0 s : State} (h : Keep s0 s) (n : TellerIx) : OKeep s0 (execAluMul n s) := by
  unfold execAluMul
  try dsimp only
  repeat' first
    | with_reducible exact h
    | with_reducible assumption
    | with_reducible apply aluZN_keep
    | with_reducible apply keep_ite
    | with_reducible apply okeep_next
    | with_reducible apply okeep_fault
    | with_reducible apply okeep_ite
    | split
    | (intro _)
    | dsimp only

theorem execAluMin_keep {s0 s : State} (h : Keep s0 s) (n : TellerIx) : OKeep s0 (execAluMin n s) := by
  unfold execAluMin
  try dsimp only
  repeat' first
    | with_reducible exact h
    | with_reducible assumption
    | with_reducible apply aluZN_keep
    | with_reducible apply keep_ite
    | with_reducible apply okeep_next
    | with_reducible apply okeep_fault
    | with_reducible apply okeep_ite
    | split
    | (intro _)
    | dsimp only

theorem execAluMax_keep {s0 s : State} (h : Keep s0 s) (n : TellerIx) : OKeep s0 (execAluMax n s) := by
  unfold execAluMax
  try dsimp only
  repeat' first
    | with_reducible exact h
    | with_reducible assumption
    | with_reducible apply aluZN_keep
    | with_reducible apply keep_ite
    | with_reducible apply okeep_next
    | with_reducible apply okeep_fault
    | with_reducible apply okeep_ite
    | split
    | (intro _)
    | dsimp only

theorem execAluMinu_keep {s0 s : State} (h : Keep s0 s) (n : TellerIx) : OKeep s0 (execAluMinu n s) := by
  unfold execAluMinu
  try dsimp only
  repeat' first
    | with_reducible exact h
    | with_reducible assumption
    | with_reducible apply aluZN_keep
    | with_reducible apply keep_ite
    | with_reducible apply okeep_next
    | with_reducible apply okeep_fault
    | with_reducible apply okeep_ite
    | split
    | (intro _)
    | dsimp only

theorem execAluMaxu_keep {s0 s : State} (h : Keep s0 s) (n : TellerIx) : OKeep s0 (execAluMaxu n s) := by
  unfold execAluMaxu
  try dsimp only
  repeat' first
    | with_reducible exact h
    | with_reducible assumption
    | with_reducible apply aluZN_keep
    | with_reducible apply keep_ite
    | with_reducible apply okeep_next
    | with_reducible apply okeep_fault
    | with_reducible apply okeep_ite
    | split
    | (intro _)
    | dsimp only

theorem execAluPopc_keep {s0 s : State} (h : Keep s0 s) (n : TellerIx) : OKeep s0 (execAluPopc n s) := by
  unfold execAluPopc
  try dsimp only
  repeat' first
    | with_reducible exact h
    | with_reducible assumption
    | with_reducible apply aluZN_keep
    | with_reducible apply keep_ite
    | with_reducible apply okeep_next
    | with_reducible apply okeep_fault
    | with_reducible apply okeep_ite
    | split
    | (intro _)
    | dsimp only

theorem execAluClz_keep {s0 s : State} (h : Keep s0 s) (n : TellerIx) : OKeep s0 (execAluClz n s) := by
  unfold execAluClz
  try dsimp only
  repeat' first
    | with_reducible exact h
    | with_reducible assumption
    | with_reducible apply aluZN_keep
    | with_reducible apply keep_ite
    | with_reducible apply okeep_next
    | with_reducible apply okeep_fault
    | with_reducible apply okeep_ite
    | split
    | (intro _)
    | dsimp only

theorem execAluAddi_keep {s0 s : State} (h : Keep s0 s) (n : TellerIx) : OKeep s0 (execAluAddi n s) := by
  unfold execAluAddi
  try dsimp only
  repeat' first
    | with_reducible exact h
    | with_reducible assumption
    | with_reducible apply aluOp_keep
    | with_reducible apply keep_ite
    | with_reducible apply okeep_next
    | with_reducible apply okeep_fault
    | with_reducible apply okeep_ite
    | split
    | (intro _)
    | dsimp only

theorem execAluAndi_keep {s0 s : State} (h : Keep s0 s) (n : TellerIx) : OKeep s0 (execAluAndi n s) := by
  unfold execAluAndi
  try dsimp only
  repeat' first
    | with_reducible exact h
    | with_reducible assumption
    | with_reducible apply aluZN_keep
    | with_reducible apply keep_ite
    | with_reducible apply okeep_next
    | with_reducible apply okeep_fault
    | with_reducible apply okeep_ite
    | split
    | (intro _)
    | dsimp only

theorem execAluLdi_keep {s0 s : State} (h : Keep s0 s) (n : TellerIx) : OKeep s0 (execAluLdi n s) := by
  unfold execAluLdi
  try dsimp only
  repeat' first
    | with_reducible exact h
    | with_reducible assumption
    | with_reducible apply aluZN_keep
    | with_reducible apply keep_ite
    | with_reducible apply okeep_next
    | with_reducible apply okeep_fault
    | with_reducible apply okeep_ite
    | split
    | (intro _)
    | dsimp only

theorem execAluLdih_keep {s0 s : State} (h : Keep s0 s) (n : TellerIx) : OKeep s0 (execAluLdih n s) := by
  unfold execAluLdih
  try dsimp only
  repeat' first
    | with_reducible exact h
    | with_reducible assumption
    | with_reducible apply aluZN_keep
    | with_reducible apply keep_ite
    | with_reducible apply okeep_next
    | with_reducible apply okeep_fault
    | with_reducible apply okeep_ite
    | split
    | (intro _)
    | dsimp only

theorem execAluExt_keep {s0 s : State} (h : Keep s0 s) (n : TellerIx) : OKeep s0 (execAluExt n s) := by
  unfold execAluExt
  try dsimp only
  repeat' first
    | with_reducible exact h
    | with_reducible assumption
    | with_reducible apply aluZN_keep
    | with_reducible apply keep_ite
    | with_reducible apply okeep_next
    | with_reducible apply okeep_fault
    | with_reducible apply okeep_ite
    | split
    | (intro _)
    | dsimp only

theorem execAluLdlc_keep {s0 s : State} (h : Keep s0 s) (n : TellerIx) : OKeep s0 (execAluLdlc n s) := by
  unfold execAluLdlc
  try dsimp only
  repeat' first
    | with_reducible exact h
    | with_reducible assumption
    | with_reducible apply aluOp_keep
    | with_reducible apply keep_ite
    | with_reducible apply okeep_next
    | with_reducible apply okeep_fault
    | with_reducible apply okeep_ite
    | split
    | (intro _)
    | dsimp only
    | (with_reducible refine keep_mk (s := _) ?_ rfl rfl rfl rfl; first | with_reducible exact h | with_reducible assumption | with_reducible apply aluOp_keep | with_reducible apply keep_ite | with_reducible apply okeep_next | with_reducible apply okeep_fault | with_reducible apply okeep_ite | split)

theorem loadT_keep {s0 s : State} (h : Keep s0 s) (n : Nat) (t : Nat) (v : Nat) : Keep s0 (loadT s n t v) := by
  unfold loadT
  try dsimp only
  repeat' first
    | with_reducible exact h
    | with_reducible assumption
    | with_reducible apply updTel_keep
    | with_reducible apply keep_ite
    | split
    | (intro _)
    | dsimp only
    | (with_reducible refine keep_mk (s := _) ?_ rfl rfl rfl rfl; first | with_reducible exact h | with_reducible assumption | with_reducible apply updTel_keep | with_reducible apply keep_ite | split)

theorem execLoadLands_keep {s0 s : State} (h : Keep s0 s) (n : TellerIx) : OKeep s0 (execLoadLands n s) := by
  unfold execLoadLands
  try dsimp only
  repeat' first
    | with_reducible exact h
    | with_reducible assumption
    | with_reducible apply putTel_keep
    | with_reducible apply keep_ite
    | with_reducible apply okeep_next
    | with_reducible apply okeep_fault
    | with_reducible apply okeep_ite
    | split
    | dsimp only
    | (with_reducible refine keep_mk (s := _) ?_ rfl rfl rfl rfl; first | with_reducible exact h | with_reducible assumption | with_reducible apply putTel_keep | with_reducible apply keep_ite | with_reducible apply okeep_next | with_reducible apply okeep_fault | with_reducible apply okeep_ite | split)

theorem vecOp_keep {s0 s : State} (h : Keep s0 s) (n : Nat) (op : Nat) (k : State → State) (hk : ∀ x0, Keep s0 x0 → Keep s0 (k x0)) : Keep s0 (vecOp s n op k) := by
  unfold vecOp
  try dsimp only
  repeat' first
    | with_reducible exact h
    | with_reducible assumption
    | with_reducible apply micro_keep
    | with_reducible apply keep_ite
    | apply hk
    | split
    | (intro _)
    | dsimp only

theorem execVecJreq_keep {s0 s : State} (h : Keep s0 s) (n : TellerIx) : OKeep s0 (execVecJreq n s) := by
  unfold execVecJreq
  try dsimp only
  repeat' first
    | with_reducible exact h
    | with_reducible assumption
    | with_reducible apply jumpRequest_keep
    | with_reducible apply vecOp_keep
    | with_reducible apply keep_ite
    | with_reducible apply okeep_next
    | with_reducible apply okeep_fault
    | with_reducible apply okeep_ite
    | split
    | (intro _)
    | dsimp only

theorem execVecRdst_keep {s0 s : State} (h : Keep s0 s) (n : TellerIx) : OKeep s0 (execVecRdst n s) := by
  unfold execVecRdst
  try dsimp only
  repeat' first
    | with_reducible exact h
    | with_reducible assumption
    | with_reducible apply loadT_keep
    | with_reducible apply vecOp_keep
    | with_reducible apply keep_ite
    | with_reducible apply okeep_next
    | with_reducible apply okeep_fault
    | with_reducible apply okeep_ite
    | split
    | (intro _)
    | dsimp only

theorem execVecHold_keep {s0 s : State} (h : Keep s0 s) (n : TellerIx) : OKeep s0 (execVecHold n s) := by
  unfold execVecHold
  try dsimp only
  repeat' first
    | with_reducible exact h
    | with_reducible assumption
    | with_reducible apply seqHold_keep
    | with_reducible apply vecOp_keep
    | with_reducible apply keep_ite
    | with_reducible apply okeep_next
    | with_reducible apply okeep_fault
    | with_reducible apply okeep_ite
    | split
    | (intro _)
    | dsimp only

theorem execVecResume_keep {s0 s : State} (h : Keep s0 s) (n : TellerIx) : OKeep s0 (execVecResume n s) := by
  unfold execVecResume
  try dsimp only
  repeat' first
    | with_reducible exact h
    | with_reducible assumption
    | with_reducible apply seqResume_keep
    | with_reducible apply vecOp_keep
    | with_reducible apply keep_ite
    | with_reducible apply okeep_next
    | with_reducible apply okeep_fault
    | with_reducible apply okeep_ite
    | split
    | (intro _)
    | dsimp only

theorem execVecAbort_keep {s0 s : State} (h : Keep s0 s) (n : TellerIx) : OKeep s0 (execVecAbort n s) := by
  unfold execVecAbort
  try dsimp only
  repeat' first
    | with_reducible exact h
    | with_reducible assumption
    | with_reducible apply seqAbort_keep
    | with_reducible apply vecOp_keep
    | with_reducible apply keep_ite
    | with_reducible apply okeep_next
    | with_reducible apply okeep_fault
    | with_reducible apply okeep_ite
    | split
    | (intro _)
    | dsimp only

theorem failOp_keep {s0 s : State} (h : Keep s0 s) (n : Nat) (op : Nat) (k : State → State) (hk : ∀ x0, Keep s0 x0 → Keep s0 (k x0)) : Keep s0 (failOp s n op k) := by
  unfold failOp
  try dsimp only
  repeat' first
    | with_reducible exact h
    | with_reducible assumption
    | with_reducible apply micro_keep
    | with_reducible apply keep_ite
    | apply hk
    | split
    | (intro _)
    | dsimp only

theorem execFailRdst_keep {s0 s : State} (h : Keep s0 s) (n : TellerIx) : OKeep s0 (execFailRdst n s) := by
  unfold execFailRdst
  try dsimp only
  repeat' first
    | with_reducible exact h
    | with_reducible assumption
    | with_reducible apply loadT_keep
    | with_reducible apply failOp_keep
    | with_reducible apply keep_ite
    | with_reducible apply okeep_next
    | with_reducible apply okeep_fault
    | with_reducible apply okeep_ite
    | split
    | (intro _)
    | dsimp only

theorem execFailRdcnt_keep {s0 s : State} (h : Keep s0 s) (n : TellerIx) : OKeep s0 (execFailRdcnt n s) := by
  unfold execFailRdcnt
  try dsimp only
  repeat' first
    | with_reducible exact h
    | with_reducible assumption
    | with_reducible apply loadT_keep
    | with_reducible apply failOp_keep
    | with_reducible apply keep_ite
    | with_reducible apply okeep_next
    | with_reducible apply okeep_fault
    | with_reducible apply okeep_ite
    | split
    | (intro _)
    | dsimp only

theorem execFailSync_keep {s0 s : State} (h : Keep s0 s) (n : TellerIx) : OKeep s0 (execFailSync n s) := by
  unfold execFailSync
  try dsimp only
  repeat' first
    | with_reducible exact h
    | with_reducible assumption
    | with_reducible apply failOp_keep
    | with_reducible apply keep_ite
    | with_reducible apply okeep_next
    | with_reducible apply okeep_fault
    | with_reducible apply okeep_ite
    | split
    | (intro _)
    | dsimp only

theorem memOp_keep {s0 s : State} (h : Keep s0 s) (n : Nat) (op : Nat) (k : State → State) (hk : ∀ x0, Keep s0 x0 → Keep s0 (k x0)) : Keep s0 (memOp s n op k) := by
  unfold memOp
  try dsimp only
  repeat' first
    | with_reducible exact h
    | with_reducible assumption
    | with_reducible apply micro_keep
    | with_reducible apply keep_ite
    | apply hk
    | split
    | (intro _)
    | dsimp only

theorem execMemLds_keep {s0 s : State} (h : Keep s0 s) (n : TellerIx) : OKeep s0 (execMemLds n s) := by
  unfold execMemLds
  try dsimp only
  repeat' first
    | with_reducible exact h
    | with_reducible assumption
    | with_reducible apply loadT_keep
    | with_reducible apply memOp_keep
    | with_reducible apply keep_ite
    | with_reducible apply okeep_next
    | with_reducible apply okeep_fault
    | with_reducible apply okeep_ite
    | split
    | (intro _)
    | dsimp only

theorem execMemSts_keep {s0 s : State} (h : Keep s0 s) (n : TellerIx) : OKeep s0 (execMemSts n s) := by
  unfold execMemSts
  try dsimp only
  repeat' first
    | with_reducible exact h
    | with_reducible assumption
    | with_reducible apply updTel_keep
    | with_reducible apply memOp_keep
    | with_reducible apply keep_ite
    | with_reducible apply okeep_next
    | with_reducible apply okeep_fault
    | with_reducible apply okeep_ite
    | split
    | (intro _)
    | dsimp only

theorem devLoad_keep {s0 s : State} (h : Keep s0 s) (n : Nat) (kind : Nat) (t : Nat) (dst : Nat) (d : Nat) : Keep s0 (devLoad s n kind t dst d) := by
  unfold devLoad
  try dsimp only
  repeat' first
    | with_reducible exact h
    | with_reducible assumption
    | with_reducible apply updTel_keep
    | with_reducible apply askBi_keep
    | with_reducible apply memAsk_keep
    | with_reducible apply keep_ite
    | split
    | (intro _)
    | dsimp only
    | (with_reducible refine keep_mk (s := _) ?_ rfl rfl rfl rfl; first | with_reducible exact h | with_reducible assumption | with_reducible apply updTel_keep | with_reducible apply askBi_keep | with_reducible apply memAsk_keep | with_reducible apply keep_ite | split)

theorem execMemLdh_keep {s0 s : State} (h : Keep s0 s) (n : TellerIx) : OKeep s0 (execMemLdh n s) := by
  unfold execMemLdh
  try dsimp only
  repeat' first
    | with_reducible exact h
    | with_reducible assumption
    | with_reducible apply memOp_keep
    | with_reducible apply devLoad_keep
    | with_reducible apply keep_ite
    | with_reducible apply okeep_next
    | with_reducible apply okeep_fault
    | with_reducible apply okeep_ite
    | split
    | (intro _)
    | dsimp only

theorem execMemSth_keep {s0 s : State} (h : Keep s0 s) (n : TellerIx) : OKeep s0 (execMemSth n s) := by
  unfold execMemSth
  try dsimp only
  repeat' first
    | with_reducible exact h
    | with_reducible assumption
    | with_reducible apply devStore_keep
    | with_reducible apply askBi_keep
    | with_reducible apply memAskWrite_keep
    | with_reducible apply memOp_keep
    | with_reducible apply keep_ite
    | with_reducible apply okeep_next
    | with_reducible apply okeep_fault
    | with_reducible apply okeep_ite
    | split
    | (intro _)
    | dsimp only
    | (with_reducible refine keep_mk (s := _) ?_ rfl rfl rfl rfl; first | with_reducible exact h | with_reducible assumption | with_reducible apply devStore_keep | with_reducible apply askBi_keep | with_reducible apply memAskWrite_keep | with_reducible apply memOp_keep | with_reducible apply keep_ite | with_reducible apply okeep_next | with_reducible apply okeep_fault | with_reducible apply okeep_ite | split)

theorem execMemBlk_keep {s0 s : State} (h : Keep s0 s) (n : TellerIx) : OKeep s0 (execMemBlk n s) := by
  unfold execMemBlk
  try dsimp only
  repeat' first
    | with_reducible exact h
    | with_reducible assumption
    | with_reducible apply memOp_keep
    | with_reducible apply devLoad_keep
    | with_reducible apply keep_ite
    | with_reducible apply okeep_next
    | with_reducible apply okeep_fault
    | with_reducible apply okeep_ite
    | split
    | (intro _)
    | dsimp only

theorem execMemBst_keep {s0 s : State} (h : Keep s0 s) (n : TellerIx) : OKeep s0 (execMemBst n s) := by
  unfold execMemBst
  try dsimp only
  repeat' first
    | with_reducible exact h
    | with_reducible assumption
    | with_reducible apply devStore_keep
    | with_reducible apply askBi_keep
    | with_reducible apply memAskWrite_keep
    | with_reducible apply memOp_keep
    | with_reducible apply keep_ite
    | with_reducible apply okeep_next
    | with_reducible apply okeep_fault
    | with_reducible apply okeep_ite
    | split
    | (intro _)
    | dsimp only
    | (with_reducible refine keep_mk (s := _) ?_ rfl rfl rfl rfl; first | with_reducible exact h | with_reducible assumption | with_reducible apply devStore_keep | with_reducible apply askBi_keep | with_reducible apply memAskWrite_keep | with_reducible apply memOp_keep | with_reducible apply keep_ite | with_reducible apply okeep_next | with_reducible apply okeep_fault | with_reducible apply okeep_ite | split)

theorem msgOp_keep {s0 s : State} (h : Keep s0 s) (n : Nat) (op : Nat) (k : State → State) (hk : ∀ x0, Keep s0 x0 → Keep s0 (k x0)) : Keep s0 (msgOp s n op k) := by
  unfold msgOp
  try dsimp only
  repeat' first
    | with_reducible exact h
    | with_reducible assumption
    | with_reducible apply micro_keep
    | with_reducible apply keep_ite
    | apply hk
    | split
    | (intro _)
    | dsimp only

theorem execMsgSend_keep {s0 s : State} (h : Keep s0 s) (n : TellerIx) : OKeep s0 (execMsgSend n s) := by
  unfold execMsgSend
  try dsimp only
  repeat' first
    | with_reducible exact h
    | with_reducible assumption
    | with_reducible apply updTel_keep
    | with_reducible apply showTelQ_keep
    | with_reducible apply msgOp_keep
    | with_reducible apply keep_ite
    | with_reducible apply okeep_next
    | with_reducible apply okeep_fault
    | with_reducible apply okeep_ite
    | split
    | (intro _)
    | dsimp only
    | (with_reducible refine keep_mk (s := _) ?_ rfl rfl rfl rfl; first | with_reducible exact h | with_reducible assumption | with_reducible apply updTel_keep | with_reducible apply showTelQ_keep | with_reducible apply msgOp_keep | with_reducible apply keep_ite | with_reducible apply okeep_next | with_reducible apply okeep_fault | with_reducible apply okeep_ite | split)

theorem loadWords_keep {s0 s : State} (h : Keep s0 s) (n : Nat) (t : Nat) (count : Nat) (l : List Nat) : Keep s0 (loadWords s n t count l) := by
  unfold loadWords
  try dsimp only
  repeat' first
    | with_reducible exact h
    | with_reducible assumption
    | with_reducible apply loadT_keep
    | with_reducible apply keep_ite
    | (with_reducible refine keep_foldl ?_ (fun _ _ _ => ?_))
    | split
    | (intro _)
    | dsimp only

theorem execMsgPeek_keep {s0 s : State} (h : Keep s0 s) (n : TellerIx) : OKeep s0 (execMsgPeek n s) := by
  unfold execMsgPeek
  try dsimp only
  repeat' first
    | with_reducible exact h
    | with_reducible assumption
    | with_reducible apply msgOp_keep
    | with_reducible apply loadWords_keep
    | with_reducible apply keep_ite
    | with_reducible apply okeep_next
    | with_reducible apply okeep_fault
    | with_reducible apply okeep_ite
    | split
    | (intro _)
    | dsimp only

theorem execMsgPop_keep {s0 s : State} (h : Keep s0 s) (n : TellerIx) : OKeep s0 (execMsgPop n s) := by
  unfold execMsgPop
  try dsimp only
  repeat' first
    | with_reducible exact h
    | with_reducible assumption
    | with_reducible apply updTel_keep
    | with_reducible apply showTelQ_keep
    | with_reducible apply msgOp_keep
    | with_reducible apply keep_ite
    | with_reducible apply okeep_next
    | with_reducible apply okeep_fault
    | with_reducible apply okeep_ite
    | split
    | (intro _)
    | dsimp only
    | (with_reducible refine keep_mk (s := _) ?_ rfl rfl rfl rfl; first | with_reducible exact h | with_reducible assumption | with_reducible apply updTel_keep | with_reducible apply showTelQ_keep | with_reducible apply msgOp_keep | with_reducible apply keep_ite | with_reducible apply okeep_next | with_reducible apply okeep_fault | with_reducible apply okeep_ite | split)

theorem execMsgRpeek_keep {s0 s : State} (h : Keep s0 s) (n : TellerIx) : OKeep s0 (execMsgRpeek n s) := by
  unfold execMsgRpeek
  try dsimp only
  repeat' first
    | with_reducible exact h
    | with_reducible assumption
    | with_reducible apply msgOp_keep
    | with_reducible apply loadWords_keep
    | with_reducible apply keep_ite
    | with_reducible apply okeep_next
    | with_reducible apply okeep_fault
    | with_reducible apply okeep_ite
    | split
    | (intro _)
    | dsimp only

theorem execMsgRpop_keep {s0 s : State} (h : Keep s0 s) (n : TellerIx) : OKeep s0 (execMsgRpop n s) := by
  unfold execMsgRpop
  try dsimp only
  repeat' first
    | with_reducible exact h
    | with_reducible assumption
    | with_reducible apply updTel_keep
    | with_reducible apply showTelQ_keep
    | with_reducible apply msgOp_keep
    | with_reducible apply keep_ite
    | with_reducible apply okeep_next
    | with_reducible apply okeep_fault
    | with_reducible apply okeep_ite
    | split
    | (intro _)
    | dsimp only
    | (with_reducible refine keep_mk (s := _) ?_ rfl rfl rfl rfl; first | with_reducible exact h | with_reducible assumption | with_reducible apply updTel_keep | with_reducible apply showTelQ_keep | with_reducible apply msgOp_keep | with_reducible apply keep_ite | with_reducible apply okeep_next | with_reducible apply okeep_fault | with_reducible apply okeep_ite | split)

theorem execWaitDelay_keep {s0 s : State} (h : Keep s0 s) (n : TellerIx) : OKeep s0 (execWaitDelay n s) := by
  unfold execWaitDelay
  try dsimp only
  repeat' first
    | with_reducible exact h
    | with_reducible assumption
    | with_reducible apply updTel_keep
    | with_reducible apply micro_keep
    | with_reducible apply keep_ite
    | with_reducible apply okeep_next
    | with_reducible apply okeep_fault
    | with_reducible apply okeep_ite
    | split
    | (intro _)
    | dsimp only
    | (with_reducible refine keep_mk (s := _) ?_ rfl rfl rfl rfl; first | with_reducible exact h | with_reducible assumption | with_reducible apply updTel_keep | with_reducible apply micro_keep | with_reducible apply keep_ite | with_reducible apply okeep_next | with_reducible apply okeep_fault | with_reducible apply okeep_ite | split)

theorem execWaitCond_keep {s0 s : State} (h : Keep s0 s) (n : TellerIx) : OKeep s0 (execWaitCond n s) := by
  unfold execWaitCond
  try dsimp only
  repeat' first
    | with_reducible exact h
    | with_reducible assumption
    | with_reducible apply updTel_keep
    | with_reducible apply micro_keep
    | with_reducible apply keep_ite
    | with_reducible apply okeep_next
    | with_reducible apply okeep_fault
    | with_reducible apply okeep_ite
    | split
    | (intro _)
    | dsimp only
    | (with_reducible refine keep_mk (s := _) ?_ rfl rfl rfl rfl; first | with_reducible exact h | with_reducible assumption | with_reducible apply updTel_keep | with_reducible apply micro_keep | with_reducible apply keep_ite | with_reducible apply okeep_next | with_reducible apply okeep_fault | with_reducible apply okeep_ite | split)

theorem execSett_keep {s0 s : State} (h : Keep s0 s) (n : TellerIx) : OKeep s0 (execSett n s) := by
  unfold execSett
  try dsimp only
  repeat' first
    | with_reducible exact h
    | with_reducible assumption
    | with_reducible apply updTel_keep
    | with_reducible apply micro_keep
    | with_reducible apply keep_ite
    | with_reducible apply okeep_next
    | with_reducible apply okeep_fault
    | with_reducible apply okeep_ite
    | split
    | (intro _)
    | dsimp only
    | (with_reducible refine keep_mk (s := _) ?_ rfl rfl rfl rfl; first | with_reducible exact h | with_reducible assumption | with_reducible apply updTel_keep | with_reducible apply micro_keep | with_reducible apply keep_ite | with_reducible apply okeep_next | with_reducible apply okeep_fault | with_reducible apply okeep_ite | split)

theorem execTellerTimerExpiry_keep {s0 s : State} (h : Keep s0 s) (n : TellerIx) : OKeep s0 (execTellerTimerExpiry n s) := by
  unfold execTellerTimerExpiry
  try dsimp only
  repeat' first
    | with_reducible exact h
    | with_reducible assumption
    | with_reducible apply updTel_keep
    | with_reducible apply raiseTel_keep
    | with_reducible apply keep_ite
    | with_reducible apply okeep_next
    | with_reducible apply okeep_fault
    | with_reducible apply okeep_ite
    | split
    | (intro _)
    | dsimp only
    | (with_reducible refine keep_mk (s := _) ?_ rfl rfl rfl rfl; first | with_reducible exact h | with_reducible assumption | with_reducible apply updTel_keep | with_reducible apply raiseTel_keep | with_reducible apply keep_ite | with_reducible apply okeep_next | with_reducible apply okeep_fault | with_reducible apply okeep_ite | split)

theorem siteOp_keep {s0 s : State} (h : Keep s0 s) (n : Nat) (op : Nat) (k : Teller → Nat → Teller) : Keep s0 (siteOp s n op k) := by
  unfold siteOp
  try dsimp only
  repeat' first
    | with_reducible exact h
    | with_reducible assumption
    | with_reducible apply updTel_keep
    | with_reducible apply micro_keep
    | with_reducible apply keep_ite
    | split
    | (intro _)
    | dsimp only

theorem execSmclr_keep {s0 s : State} (h : Keep s0 s) (n : TellerIx) : OKeep s0 (execSmclr n s) := by
  unfold execSmclr
  try dsimp only
  repeat' first
    | with_reducible exact h
    | with_reducible assumption
    | with_reducible apply siteOp_keep
    | with_reducible apply keep_ite
    | with_reducible apply okeep_next
    | with_reducible apply okeep_fault
    | with_reducible apply okeep_ite
    | split
    | (intro _)
    | dsimp only
    | (with_reducible refine keep_mk (s := _) ?_ rfl rfl rfl rfl; first | with_reducible exact h | with_reducible assumption | with_reducible apply siteOp_keep | with_reducible apply keep_ite | with_reducible apply okeep_next | with_reducible apply okeep_fault | with_reducible apply okeep_ite | split)

theorem execSmset_keep {s0 s : State} (h : Keep s0 s) (n : TellerIx) : OKeep s0 (execSmset n s) := by
  unfold execSmset
  try dsimp only
  repeat' first
    | with_reducible exact h
    | with_reducible assumption
    | with_reducible apply siteOp_keep
    | with_reducible apply keep_ite
    | with_reducible apply okeep_next
    | with_reducible apply okeep_fault
    | with_reducible apply okeep_ite
    | split
    | (intro _)
    | dsimp only
    | (with_reducible refine keep_mk (s := _) ?_ rfl rfl rfl rfl; first | with_reducible exact h | with_reducible assumption | with_reducible apply siteOp_keep | with_reducible apply keep_ite | with_reducible apply okeep_next | with_reducible apply okeep_fault | with_reducible apply okeep_ite | split)

theorem execSmrst_keep {s0 s : State} (h : Keep s0 s) (n : TellerIx) : OKeep s0 (execSmrst n s) := by
  unfold execSmrst
  try dsimp only
  repeat' first
    | with_reducible exact h
    | with_reducible assumption
    | with_reducible apply siteOp_keep
    | with_reducible apply keep_ite
    | with_reducible apply okeep_next
    | with_reducible apply okeep_fault
    | with_reducible apply okeep_ite
    | split
    | (intro _)
    | dsimp only
    | (with_reducible refine keep_mk (s := _) ?_ rfl rfl rfl rfl; first | with_reducible exact h | with_reducible assumption | with_reducible apply siteOp_keep | with_reducible apply keep_ite | with_reducible apply okeep_next | with_reducible apply okeep_fault | with_reducible apply okeep_ite | split)

theorem execSmtst_keep {s0 s : State} (h : Keep s0 s) (n : TellerIx) : OKeep s0 (execSmtst n s) := by
  unfold execSmtst
  try dsimp only
  repeat' first
    | with_reducible exact h
    | with_reducible assumption
    | with_reducible apply siteOp_keep
    | with_reducible apply keep_ite
    | with_reducible apply okeep_next
    | with_reducible apply okeep_fault
    | with_reducible apply okeep_ite
    | split
    | (intro _)
    | dsimp only
    | (with_reducible refine keep_mk (s := _) ?_ rfl rfl rfl rfl; first | with_reducible exact h | with_reducible assumption | with_reducible apply siteOp_keep | with_reducible apply keep_ite | with_reducible apply okeep_next | with_reducible apply okeep_fault | with_reducible apply okeep_ite | split)

theorem execCsset_keep {s0 s : State} (h : Keep s0 s) (n : TellerIx) : OKeep s0 (execCsset n s) := by
  unfold execCsset
  try dsimp only
  repeat' first
    | with_reducible exact h
    | with_reducible assumption
    | with_reducible apply siteOp_keep
    | with_reducible apply keep_ite
    | with_reducible apply okeep_next
    | with_reducible apply okeep_fault
    | with_reducible apply okeep_ite
    | split
    | (intro _)
    | dsimp only
    | (with_reducible refine keep_mk (s := _) ?_ rfl rfl rfl rfl; first | with_reducible exact h | with_reducible assumption | with_reducible apply siteOp_keep | with_reducible apply keep_ite | with_reducible apply okeep_next | with_reducible apply okeep_fault | with_reducible apply okeep_ite | split)

end Sys2Proof.Machine
end

