-- ==== Sys2Proof/Laws/KeepCalib.lean ====
section
/-! SUPPORT. The operations of Machine/Calib.lean leave the queue alone and keep memories and registers canonical. -/
set_option maxRecDepth 4000
set_option linter.all false
namespace Sys2Proof.Machine

theorem applyTracking_keep {s0 s : State} (h : Keep s0 s) (t : Nat) (lvl : Int) (cmp : Int) (edge : Int) : Keep s0 (applyTracking s t lvl cmp edge) := by
  unfold applyTracking
  try dsimp only
  repeat' first
    | with_reducible exact h
    | with_reducible assumption
    | with_reducible apply wr_keep
    | with_reducible apply clrF_keep
    | with_reducible apply updSlice_keep
    | with_reducible apply updTile_keep
    | with_reducible apply keep_ite
    | (with_reducible refine keep_foldl ?_ (fun _ _ _ => ?_))
    | split
    | (intro _)
    | dsimp only
    | (with_reducible refine keep_mk (s := _) ?_ rfl rfl rfl rfl; first | with_reducible exact h | with_reducible assumption | with_reducible apply wr_keep | with_reducible apply clrF_keep | with_reducible apply updSlice_keep | with_reducible apply updTile_keep | with_reducible apply keep_ite | (with_reducible refine keep_foldl ?_ (fun _ _ _ => ?_)) | split)

theorem showFree_keep {s0 s : State} (h : Keep s0 s) (t : Nat) : Keep s0 (showFree s t) := by
  unfold showFree
  try dsimp only
  repeat' first
    | with_reducible exact h
    | with_reducible assumption
    | with_reducible apply wr_keep
    | with_reducible apply clrF_keep
    | with_reducible apply levelOff_keep
    | with_reducible apply applyTracking_keep
    | with_reducible apply keep_ite
    | split
    | dsimp only

theorem showCal_keep {s0 s : State} (h : Keep s0 s) : Keep s0 (showCal s) := by
  unfold showCal
  try dsimp only
  repeat' first
    | with_reducible exact h
    | with_reducible assumption
    | with_reducible apply wr_keep
    | with_reducible apply keep_ite
    | split
    | (intro _)
    | dsimp only

theorem markRetired_keep {s0 s : State} (h : Keep s0 s) (t : Nat) (p : Nat) : Keep s0 (markRetired s t p) := by
  unfold markRetired
  try dsimp only
  repeat' first
    | with_reducible exact h
    | with_reducible assumption
    | with_reducible apply wr_keep
    | with_reducible apply clrF_keep
    | with_reducible apply keep_ite
    | split
    | dsimp only

theorem retireFree_keep {s0 s : State} (h : Keep s0 s) (t : Nat) (p : Nat) : Keep s0 (retireFree s t p) := by
  unfold retireFree
  try dsimp only
  repeat' first
    | with_reducible exact h
    | with_reducible assumption
    | with_reducible apply signal_keep
    | with_reducible apply showFree_keep
    | with_reducible apply markRetired_keep
    | with_reducible apply keep_ite
    | split
    | dsimp only

theorem copySlice_keep {s0 s : State} (h : Keep s0 s) (t : Nat) (old : Nat) (new_ : Nat) : Keep s0 (copySlice s t old new_) := by
  unfold copySlice
  try dsimp only
  repeat' first
    | with_reducible exact h
    | with_reducible assumption
    | with_reducible apply wri_keep
    | with_reducible apply wr_keep
    | with_reducible apply clrF_keep
    | with_reducible apply updSlice_keep
    | with_reducible apply keep_ite
    | (with_reducible refine keep_foldl ?_ (fun _ _ _ => ?_))
    | split
    | (intro _)
    | dsimp only
    | (with_reducible refine keep_mk (s := _) ?_ rfl rfl rfl rfl; first | with_reducible exact h | with_reducible assumption | with_reducible apply wri_keep | with_reducible apply wr_keep | with_reducible apply clrF_keep | with_reducible apply updSlice_keep | with_reducible apply keep_ite | (with_reducible refine keep_foldl ?_ (fun _ _ _ => ?_)) | split)

theorem calFinish_keep {s0 s : State} (h : Keep s0 s) (j : Nat) : Keep s0 (calFinish s j) := by
  unfold calFinish
  try dsimp only
  repeat' first
    | with_reducible exact h
    | with_reducible assumption
    | with_reducible apply writeAndEnd_keep
    | with_reducible apply showCal_keep
    | with_reducible apply keep_ite
    | split
    | (intro _)
    | dsimp only
    | (with_reducible refine keep_mk (s := _) ?_ rfl rfl rfl rfl; first | with_reducible exact h | with_reducible assumption | with_reducible apply writeAndEnd_keep | with_reducible apply showCal_keep | with_reducible apply keep_ite | split)

theorem calRetired_keep {s0 s : State} (h : Keep s0 s) (j : Option Nat) (unit : Nat) : Keep s0 (calRetired s j unit) := by
  unfold calRetired
  try dsimp only
  repeat' first
    | with_reducible exact h
    | with_reducible assumption
    | with_reducible apply putJob_keep
    | with_reducible apply keep_ite
    | split
    | dsimp only
    | (with_reducible refine keep_mk (s := _) ?_ rfl rfl rfl rfl; first | with_reducible exact h | with_reducible assumption | with_reducible apply putJob_keep | with_reducible apply keep_ite | split)

theorem noSpare_keep {s0 s : State} (h : Keep s0 s) (t : Nat) (r : RemapRun) : Keep s0 (noSpare s t r) := by
  unfold noSpare
  try dsimp only
  repeat' first
    | with_reducible exact h
    | with_reducible assumption
    | with_reducible apply setF_keep
    | with_reducible apply putJob_keep
    | with_reducible apply signal_keep
    | with_reducible apply endJob_keep
    | with_reducible apply updTile_keep
    | with_reducible apply loadSync_keep
    | with_reducible apply markRetired_keep
    | with_reducible apply keep_ite
    | split
    | (intro _)
    | dsimp only
    | (with_reducible refine keep_mk (s := _) ?_ rfl rfl rfl rfl; first | with_reducible exact h | with_reducible assumption | with_reducible apply setF_keep | with_reducible apply putJob_keep | with_reducible apply signal_keep | with_reducible apply endJob_keep | with_reducible apply updTile_keep | with_reducible apply loadSync_keep | with_reducible apply markRetired_keep | with_reducible apply keep_ite | split)

theorem tryCand_keep {s0 s : State} (h : Keep s0 s) (t : Nat) (r : RemapRun) (want : Option Nat) : Keep s0 (tryCand s t r want) := by
  unfold tryCand
  try dsimp only
  repeat' first
    | with_reducible exact h
    | with_reducible assumption
    | with_reducible apply updTile_keep
    | with_reducible apply showFree_keep
    | with_reducible apply copySlice_keep
    | with_reducible apply noSpare_keep
    | with_reducible apply keep_ite
    | split
    | (intro _)
    | dsimp only
    | (with_reducible refine keep_mk (s := _) ?_ rfl rfl rfl rfl; first | with_reducible exact h | with_reducible assumption | with_reducible apply updTile_keep | with_reducible apply showFree_keep | with_reducible apply copySlice_keep | with_reducible apply noSpare_keep | with_reducible apply keep_ite | split)

theorem startRemap_keep {s0 s : State} (h : Keep s0 s) (t : Nat) (r : RemapRun) (want : Option Nat) : Keep s0 (startRemap s t r want) := by
  unfold startRemap
  try dsimp only
  repeat' first
    | with_reducible exact h
    | with_reducible assumption
    | with_reducible apply setF_keep
    | with_reducible apply updSlice_keep
    | with_reducible apply tryCand_keep
    | with_reducible apply keep_ite
    | split
    | (intro _)
    | dsimp only
    | (with_reducible refine keep_mk (s := _) ?_ rfl rfl rfl rfl; first | with_reducible exact h | with_reducible assumption | with_reducible apply setF_keep | with_reducible apply updSlice_keep | with_reducible apply tryCand_keep | with_reducible apply keep_ite | split)

theorem nextRemap_keep {s0 s : State} (h : Keep s0 s) (n t : Nat) : Keep s0 (nextRemap n s t) := by
  induction n generalizing s with
  | zero => exact h
  | succ n ih =>
    unfold nextRemap
    dsimp only
    apply keep_ite
    · exact showCal_keep h
    · split
      · exact showCal_keep (clrF_keep h _ _)
      · exact ih (startRemap_keep (updTile_keep h _ _) _ _ _)

theorem askRemap_keep {s0 s : State} (h : Keep s0 s) (t : Nat) (r : RemapRun) : Keep s0 (askRemap s t r) := by
  unfold askRemap
  try dsimp only
  repeat' first
    | with_reducible exact h
    | with_reducible assumption
    | with_reducible apply updTile_keep
    | with_reducible apply nextRemap_keep
    | with_reducible apply keep_ite
    | split
    | (intro _)
    | dsimp only
    | (with_reducible refine keep_mk (s := _) ?_ rfl rfl rfl rfl; first | with_reducible exact h | with_reducible assumption | with_reducible apply updTile_keep | with_reducible apply nextRemap_keep | with_reducible apply keep_ite | split)

theorem retireSlice_keep {s0 s : State} (h : Keep s0 s) (t : Nat) (p : Nat) (job : Option Nat) : Keep s0 (retireSlice s t p job) := by
  unfold retireSlice
  try dsimp only
  repeat' first
    | with_reducible exact h
    | with_reducible assumption
    | with_reducible apply retireFree_keep
    | with_reducible apply calRetired_keep
    | with_reducible apply askRemap_keep
    | with_reducible apply keep_ite
    | split
    | (intro _)
    | dsimp only
    | (with_reducible refine keep_mk (s := _) ?_ rfl rfl rfl rfl; first | with_reducible exact h | with_reducible assumption | with_reducible apply retireFree_keep | with_reducible apply calRetired_keep | with_reducible apply askRemap_keep | with_reducible apply keep_ite | split)

theorem writeAssay_keep {s0 s : State} (h : Keep s0 s) (unit : Nat) (r : CalResult) : Keep s0 (writeAssay s unit r) := by
  unfold writeAssay
  try dsimp only
  repeat' first
    | with_reducible exact h
    | with_reducible assumption
    | with_reducible apply wri_keep
    | with_reducible apply keep_ite
    | split
    | dsimp only

theorem writeTrims_keep {s0 s : State} (h : Keep s0 s) (unit : Nat) (serving : Option Nat) (r : CalResult) : Keep s0 (writeTrims s unit serving r) := by
  unfold writeTrims
  try dsimp only
  repeat' first
    | with_reducible exact h
    | with_reducible assumption
    | with_reducible apply wri_keep
    | with_reducible apply wr_keep
    | with_reducible apply clrF_keep
    | with_reducible apply updSlice_keep
    | with_reducible apply updTile_keep
    | with_reducible apply keep_ite
    | (with_reducible refine keep_foldl ?_ (fun _ _ _ => ?_))
    | split
    | (intro _)
    | dsimp only
    | (with_reducible refine keep_mk (s := _) ?_ rfl rfl rfl rfl; first | with_reducible exact h | with_reducible assumption | with_reducible apply wri_keep | with_reducible apply wr_keep | with_reducible apply clrF_keep | with_reducible apply updSlice_keep | with_reducible apply updTile_keep | with_reducible apply keep_ite | (with_reducible refine keep_foldl ?_ (fun _ _ _ => ?_)) | split)

theorem itemDone_keep {s0 s : State} (h : Keep s0 s) (unit : Nat) (serving : Option Nat) (r : CalResult) : Keep s0 (itemDone s unit serving r) := by
  unfold itemDone
  try dsimp only
  repeat' first
    | with_reducible exact h
    | with_reducible assumption
    | with_reducible apply writeAssay_keep
    | with_reducible apply writeTrims_keep
    | with_reducible apply keep_ite
    | split
    | dsimp only

theorem refOffset_keep {s0 s : State} (h : Keep s0 s) (q : Nat) : Keep s0 (refOffset s q).2 := by
  unfold refOffset
  try dsimp only
  repeat' first
    | with_reducible exact h
    | with_reducible assumption
    | with_reducible apply freshNat_keep
    | (with_reducible refine freshNat_keep_of (by with_reducible assumption) ?_)
    | with_reducible apply keep_ite
    | split
    | dsimp only

theorem refOffset_keep_of {s0 s : State} {v} {t : State} (q : Nat) (he : refOffset s q = (v, t)) (h : Keep s0 s) : Keep s0 t := by
  have hh := refOffset_keep h q
  rw [he] at hh
  exact hh

theorem levelReferenceRetired_keep {s0 s : State} (h : Keep s0 s) (q : Nat) (r : Nat) : Keep s0 (levelReferenceRetired s q r) := by
  unfold levelReferenceRetired
  try dsimp only
  repeat' first
    | with_reducible exact h
    | with_reducible assumption
    | with_reducible apply wr_keep
    | with_reducible apply setF_keep
    | with_reducible apply clrF_keep
    | with_reducible apply signal_keep
    | with_reducible apply updSlice_keep
    | with_reducible apply safeEnterAll_keep
    | with_reducible apply refOffset_keep
    | (with_reducible refine refOffset_keep_of (by with_reducible assumption) ?_)
    | with_reducible apply keep_ite
    | (with_reducible refine keep_foldl ?_ (fun _ _ _ => ?_))
    | split
    | (intro _)
    | dsimp only
    | (with_reducible refine keep_mk (s := _) ?_ rfl rfl rfl rfl; first | with_reducible exact h | with_reducible assumption | with_reducible apply wr_keep | with_reducible apply setF_keep | with_reducible apply clrF_keep | with_reducible apply signal_keep | with_reducible apply updSlice_keep | with_reducible apply safeEnterAll_keep | with_reducible apply refOffset_keep | (with_reducible refine refOffset_keep_of (by with_reducible assumption) ?_) | with_reducible apply keep_ite | (with_reducible refine keep_foldl ?_ (fun _ _ _ => ?_)) | split)

theorem levrefFailed_keep {s0 s : State} (h : Keep s0 s) (q : Nat) : Keep s0 (levrefFailed s q) := by
  unfold levrefFailed
  try dsimp only
  repeat' first
    | with_reducible exact h
    | with_reducible assumption
    | with_reducible apply freshNat_keep
    | (with_reducible refine freshNat_keep_of (by with_reducible assumption) ?_)
    | with_reducible apply levelReferenceRetired_keep
    | with_reducible apply keep_ite
    | split
    | (intro _)
    | dsimp only

theorem execLevelReferenceRetired_keep {s0 s : State} (h : Keep s0 s) (q : SectorIx) (r : Fin 2) : OKeep s0 (execLevelReferenceRetired q r s) := by
  unfold execLevelReferenceRetired
  try dsimp only
  repeat' first
    | with_reducible exact h
    | with_reducible assumption
    | with_reducible apply levelReferenceRetired_keep
    | with_reducible apply keep_ite
    | with_reducible apply okeep_next
    | with_reducible apply okeep_fault
    | with_reducible apply okeep_ite
    | split
    | dsimp only

theorem execCalibrate_keep {s0 s : State} (h : Keep s0 s) (j : Nat) : OKeep s0 (execCalibrate j s) := by
  unfold execCalibrate
  try dsimp only
  repeat' first
    | with_reducible exact h
    | with_reducible assumption
    | with_reducible apply endJob_keep
    | with_reducible apply afterDeferral_keep
    | with_reducible apply setWork_keep
    | with_reducible apply digPllStart_keep
    | with_reducible apply showCal_keep
    | with_reducible apply calFinish_keep
    | with_reducible apply keep_ite
    | with_reducible apply okeep_next
    | with_reducible apply okeep_fault
    | with_reducible apply okeep_ite
    | split
    | (intro _)
    | dsimp only
    | (with_reducible refine keep_mk (s := _) ?_ rfl rfl rfl rfl; first | with_reducible exact h | with_reducible assumption | with_reducible apply endJob_keep | with_reducible apply afterDeferral_keep | with_reducible apply setWork_keep | with_reducible apply digPllStart_keep | with_reducible apply showCal_keep | with_reducible apply calFinish_keep | with_reducible apply keep_ite | with_reducible apply okeep_next | with_reducible apply okeep_fault | with_reducible apply okeep_ite | split)

theorem tileEnded_keep {s0 s : State} (h : Keep s0 s) (j : Nat) (x : Job) (t : Nat) : Keep s0 (tileEnded s j x t) := by
  unfold tileEnded
  try dsimp only
  repeat' first
    | with_reducible exact h
    | with_reducible assumption
    | with_reducible apply retireSlice_keep
    | with_reducible apply keep_ite
    | (with_reducible refine keep_foldl ?_ (fun _ _ _ => ?_))
    | split
    | (intro _)
    | dsimp only

theorem calStep_keep {s0 s : State} (h : Keep s0 s) (j : Nat) (x : Job) (item : Nat) (unit : Nat) (record : List Nat) (tally : List Nat) (bad : Bool) : Keep s0 (calStep s j x item unit record tally bad) := by
  unfold calStep
  try dsimp only
  repeat' first
    | with_reducible exact h
    | with_reducible assumption
    | with_reducible apply putJob_keep
    | with_reducible apply calFinish_keep
    | with_reducible apply tileEnded_keep
    | with_reducible apply keep_ite
    | split
    | dsimp only
    | (with_reducible refine keep_mk (s := _) ?_ rfl rfl rfl rfl; first | with_reducible exact h | with_reducible assumption | with_reducible apply putJob_keep | with_reducible apply calFinish_keep | with_reducible apply tileEnded_keep | with_reducible apply keep_ite | split)

theorem execCalItemDone_keep {s0 s : State} (h : Keep s0 s) (j : Nat) (unit : Nat) (pre : Bool) (r : CalResult) : OKeep s0 (execCalItemDone j unit pre r s) := by
  unfold execCalItemDone
  try dsimp only
  repeat' first
    | with_reducible exact h
    | with_reducible assumption
    | with_reducible apply wri_keep
    | with_reducible apply setF_keep
    | with_reducible apply itemDone_keep
    | with_reducible apply levrefFailed_keep
    | with_reducible apply calStep_keep
    | with_reducible apply keep_ite
    | with_reducible apply okeep_next
    | with_reducible apply okeep_fault
    | with_reducible apply okeep_ite
    | split
    | (intro _)
    | dsimp only
    | (with_reducible refine keep_mk (s := _) ?_ rfl rfl rfl rfl; first | with_reducible exact h | with_reducible assumption | with_reducible apply wri_keep | with_reducible apply setF_keep | with_reducible apply itemDone_keep | with_reducible apply levrefFailed_keep | with_reducible apply calStep_keep | with_reducible apply keep_ite | with_reducible apply okeep_next | with_reducible apply okeep_fault | with_reducible apply okeep_ite | split)

theorem execStrumSeenTimeout_keep {s0 s : State} (h : Keep s0 s) : OKeep s0 (execStrumSeenTimeout s) := by
  unfold execStrumSeenTimeout
  try dsimp only
  repeat' first
    | with_reducible exact h
    | with_reducible assumption
    | with_reducible apply setF_keep
    | with_reducible apply calStep_keep
    | with_reducible apply keep_ite
    | with_reducible apply okeep_next
    | with_reducible apply okeep_fault
    | with_reducible apply okeep_ite
    | split
    | (intro _)
    | dsimp only
    | (with_reducible refine keep_mk (s := _) ?_ rfl rfl rfl rfl; first | with_reducible exact h | with_reducible assumption | with_reducible apply setF_keep | with_reducible apply calStep_keep | with_reducible apply keep_ite | with_reducible apply okeep_next | with_reducible apply okeep_fault | with_reducible apply okeep_ite | split)

theorem execStartupCalDone_keep {s0 s : State} (h : Keep s0 s) : OKeep s0 (execStartupCalDone s) := by
  unfold execStartupCalDone
  try dsimp only
  repeat' first
    | with_reducible exact h
    | with_reducible assumption
    | with_reducible apply setF_keep
    | with_reducible apply updBoot_keep
    | with_reducible apply setReady_keep
    | with_reducible apply assignDone_keep
    | with_reducible apply showCal_keep
    | with_reducible apply keep_ite
    | with_reducible apply okeep_next
    | with_reducible apply okeep_fault
    | with_reducible apply okeep_ite
    | split
    | (intro _)
    | dsimp only
    | (with_reducible refine keep_mk (s := _) ?_ rfl rfl rfl rfl; first | with_reducible exact h | with_reducible assumption | with_reducible apply setF_keep | with_reducible apply updBoot_keep | with_reducible apply setReady_keep | with_reducible apply assignDone_keep | with_reducible apply showCal_keep | with_reducible apply keep_ite | with_reducible apply okeep_next | with_reducible apply okeep_fault | with_reducible apply okeep_ite | split)

theorem execTrackingPass_keep {s0 s : State} (h : Keep s0 s) (t : TileIx) (drift : List (Int × Int × Int)) : OKeep s0 (execTrackingPass t drift s) := by
  unfold execTrackingPass
  try dsimp only
  repeat' first
    | with_reducible exact h
    | with_reducible assumption
    | with_reducible apply wr_keep
    | with_reducible apply setF_keep
    | with_reducible apply levelOn_keep
    | with_reducible apply applyTracking_keep
    | with_reducible apply keep_ite
    | with_reducible apply okeep_next
    | with_reducible apply okeep_fault
    | with_reducible apply okeep_ite
    | split
    | (intro _)
    | dsimp only

theorem execTrimGlideStep_keep {s0 s : State} (h : Keep s0 s) (t : TileIx) (p : SliceIx) : OKeep s0 (execTrimGlideStep t p s) := by
  unfold execTrimGlideStep
  try dsimp only
  repeat' first
    | with_reducible exact h
    | with_reducible assumption
    | with_reducible apply wr_keep
    | with_reducible apply putSlice_keep
    | with_reducible apply updTile_keep
    | with_reducible apply keep_ite
    | with_reducible apply okeep_next
    | with_reducible apply okeep_fault
    | with_reducible apply okeep_ite
    | split
    | (intro _)
    | dsimp only
    | (with_reducible refine keep_mk (s := _) ?_ rfl rfl rfl rfl; first | with_reducible exact h | with_reducible assumption | with_reducible apply wr_keep | with_reducible apply putSlice_keep | with_reducible apply updTile_keep | with_reducible apply keep_ite | with_reducible apply okeep_next | with_reducible apply okeep_fault | with_reducible apply okeep_ite | split)

theorem sliceMonitorFail_keep {s0 s : State} (h : Keep s0 s) (t : Nat) (p : Nat) (cause : Nat) : Keep s0 (sliceMonitorFail s t p cause) := by
  unfold sliceMonitorFail
  try dsimp only
  repeat' first
    | with_reducible exact h
    | with_reducible assumption
    | with_reducible apply putJob_keep
    | with_reducible apply signal_keep
    | with_reducible apply updTile_keep
    | with_reducible apply safeEnter_keep
    | with_reducible apply markRetired_keep
    | with_reducible apply calFinish_keep
    | with_reducible apply retireSlice_keep
    | with_reducible apply keep_ite
    | split
    | (intro _)
    | dsimp only
    | (with_reducible refine keep_mk (s := _) ?_ rfl rfl rfl rfl; first | with_reducible exact h | with_reducible assumption | with_reducible apply putJob_keep | with_reducible apply signal_keep | with_reducible apply updTile_keep | with_reducible apply safeEnter_keep | with_reducible apply markRetired_keep | with_reducible apply calFinish_keep | with_reducible apply retireSlice_keep | with_reducible apply keep_ite | split)

theorem execSliceMonitorFail_keep {s0 s : State} (h : Keep s0 s) (t : TileIx) (p : SliceIx) (cause : Fin 3) : OKeep s0 (execSliceMonitorFail t p cause s) := by
  unfold execSliceMonitorFail
  try dsimp only
  repeat' first
    | with_reducible exact h
    | with_reducible assumption
    | with_reducible apply sliceMonitorFail_keep
    | with_reducible apply keep_ite
    | with_reducible apply okeep_next
    | with_reducible apply okeep_fault
    | with_reducible apply okeep_ite
    | split
    | dsimp only

theorem interpolatorBankLost_keep {s0 s : State} (h : Keep s0 s) (q : Nat) : Keep s0 (interpolatorBankLost s q) := by
  unfold interpolatorBankLost
  try dsimp only
  repeat' first
    | with_reducible exact h
    | with_reducible assumption
    | with_reducible apply signal_keep
    | with_reducible apply updTile_keep
    | with_reducible apply safeEnter_keep
    | with_reducible apply showFree_keep
    | with_reducible apply markRetired_keep
    | with_reducible apply nextRemap_keep
    | with_reducible apply keep_ite
    | (with_reducible refine keep_foldl ?_ (fun _ _ _ => ?_))
    | split
    | (intro _)
    | dsimp only
    | (with_reducible refine keep_mk (s := _) ?_ rfl rfl rfl rfl; first | with_reducible exact h | with_reducible assumption | with_reducible apply signal_keep | with_reducible apply updTile_keep | with_reducible apply safeEnter_keep | with_reducible apply showFree_keep | with_reducible apply markRetired_keep | with_reducible apply nextRemap_keep | with_reducible apply keep_ite | (with_reducible refine keep_foldl ?_ (fun _ _ _ => ?_)) | split)

theorem execInterpolatorBankLost_keep {s0 s : State} (h : Keep s0 s) (q : Fin 240) : OKeep s0 (execInterpolatorBankLost q s) := by
  unfold execInterpolatorBankLost
  try dsimp only
  repeat' first
    | with_reducible exact h
    | with_reducible assumption
    | with_reducible apply interpolatorBankLost_keep
    | with_reducible apply keep_ite
    | with_reducible apply okeep_next
    | with_reducible apply okeep_fault
    | with_reducible apply okeep_ite
    | split
    | dsimp only

theorem sectorStop_keep {s0 s : State} (h : Keep s0 s) (q : Nat) : Keep s0 (sectorStop s q) := by
  unfold sectorStop
  try dsimp only
  repeat' first
    | with_reducible exact h
    | with_reducible assumption
    | with_reducible apply tdcCloseAll_keep
    | with_reducible apply safeEnterAll_keep
    | with_reducible apply mergeAll_keep
    | with_reducible apply gangsFault_keep
    | with_reducible apply gangStop_keep
    | with_reducible apply keep_ite
    | (with_reducible refine keep_foldl ?_ (fun _ _ _ => ?_))
    | split
    | (intro _)
    | dsimp only
    | (with_reducible refine keep_mk (s := _) ?_ rfl rfl rfl rfl; first | with_reducible exact h | with_reducible assumption | with_reducible apply tdcCloseAll_keep | with_reducible apply safeEnterAll_keep | with_reducible apply mergeAll_keep | with_reducible apply gangsFault_keep | with_reducible apply gangStop_keep | with_reducible apply keep_ite | (with_reducible refine keep_foldl ?_ (fun _ _ _ => ?_)) | split)

theorem clocksRun_keep {s0 s : State} (h : Keep s0 s) (q : Nat) (on : Bool) : Keep s0 (clocksRun s q on) := by
  unfold clocksRun
  try dsimp only
  repeat' first
    | with_reducible exact h
    | with_reducible assumption
    | with_reducible apply wr_keep
    | with_reducible apply updTile_keep
    | with_reducible apply keep_ite
    | (with_reducible refine keep_foldl ?_ (fun _ _ _ => ?_))
    | split
    | (intro _)
    | dsimp only
    | (with_reducible refine keep_mk (s := _) ?_ rfl rfl rfl rfl; first | with_reducible exact h | with_reducible assumption | with_reducible apply wr_keep | with_reducible apply updTile_keep | with_reducible apply keep_ite | (with_reducible refine keep_foldl ?_ (fun _ _ _ => ?_)) | split)

theorem execTimingPllUnlock_keep {s0 s : State} (h : Keep s0 s) (q : SectorIx) : OKeep s0 (execTimingPllUnlock q s) := by
  unfold execTimingPllUnlock
  try dsimp only
  repeat' first
    | with_reducible exact h
    | with_reducible assumption
    | with_reducible apply levelOn_keep
    | with_reducible apply sectorStop_keep
    | with_reducible apply clocksRun_keep
    | with_reducible apply keep_ite
    | with_reducible apply okeep_next
    | with_reducible apply okeep_fault
    | with_reducible apply okeep_ite
    | split
    | dsimp only

theorem execTimingPllRelock_keep {s0 s : State} (h : Keep s0 s) (q : SectorIx) : OKeep s0 (execTimingPllRelock q s) := by
  unfold execTimingPllRelock
  try dsimp only
  repeat' first
    | with_reducible exact h
    | with_reducible assumption
    | with_reducible apply levelOff_keep
    | with_reducible apply causeClear_keep
    | with_reducible apply clocksRun_keep
    | with_reducible apply keep_ite
    | with_reducible apply okeep_next
    | with_reducible apply okeep_fault
    | with_reducible apply okeep_ite
    | split
    | (intro _)
    | dsimp only

theorem retireWaiting_keep {s0 s : State} (h : Keep s0 s) (t : Nat) : Keep s0 (retireWaiting s t) := by
  unfold retireWaiting
  try dsimp only
  repeat' first
    | with_reducible exact h
    | with_reducible assumption
    | with_reducible apply updTile_keep
    | with_reducible apply retireFree_keep
    | with_reducible apply keep_ite
    | (with_reducible refine keep_foldl ?_ (fun _ _ _ => ?_))
    | split
    | (intro _)
    | dsimp only
    | (with_reducible refine keep_mk (s := _) ?_ rfl rfl rfl rfl; first | with_reducible exact h | with_reducible assumption | with_reducible apply updTile_keep | with_reducible apply retireFree_keep | with_reducible apply keep_ite | (with_reducible refine keep_foldl ?_ (fun _ _ _ => ?_)) | split)

theorem execRemapStart_keep {s0 s : State} (h : Keep s0 s) (t : TileIx) (k : PosIx) : OKeep s0 (execRemapStart t k s) := by
  unfold execRemapStart
  try dsimp only
  repeat' first
    | with_reducible exact h
    | with_reducible assumption
    | with_reducible apply updTile_keep
    | with_reducible apply showCal_keep
    | with_reducible apply startRemap_keep
    | with_reducible apply nextRemap_keep
    | with_reducible apply retireWaiting_keep
    | with_reducible apply keep_ite
    | with_reducible apply okeep_next
    | with_reducible apply okeep_fault
    | with_reducible apply okeep_ite
    | split
    | (intro _)
    | dsimp only
    | (with_reducible refine keep_mk (s := _) ?_ rfl rfl rfl rfl; first | with_reducible exact h | with_reducible assumption | with_reducible apply updTile_keep | with_reducible apply showCal_keep | with_reducible apply startRemap_keep | with_reducible apply nextRemap_keep | with_reducible apply retireWaiting_keep | with_reducible apply keep_ite | with_reducible apply okeep_next | with_reducible apply okeep_fault | with_reducible apply okeep_ite | split)

theorem joinSlice_keep {s0 s : State} (h : Keep s0 s) (t : Nat) (r : RemapRun) : Keep s0 (joinSlice s t r) := by
  unfold joinSlice
  try dsimp only
  repeat' first
    | with_reducible exact h
    | with_reducible assumption
    | with_reducible apply wri_keep
    | with_reducible apply wr_keep
    | with_reducible apply signal_keep
    | with_reducible apply endJob_keep
    | with_reducible apply updTile_keep
    | with_reducible apply loadSync_keep
    | with_reducible apply showFree_keep
    | with_reducible apply markRetired_keep
    | with_reducible apply calRetired_keep
    | with_reducible apply keep_ite
    | split
    | (intro _)
    | dsimp only
    | (with_reducible refine keep_mk (s := _) ?_ rfl rfl rfl rfl; first | with_reducible exact h | with_reducible assumption | with_reducible apply wri_keep | with_reducible apply wr_keep | with_reducible apply signal_keep | with_reducible apply endJob_keep | with_reducible apply updTile_keep | with_reducible apply loadSync_keep | with_reducible apply showFree_keep | with_reducible apply markRetired_keep | with_reducible apply calRetired_keep | with_reducible apply keep_ite | split)

theorem execRemapDone_keep {s0 s : State} (h : Keep s0 s) (t : TileIx) (results : List CalResult) : OKeep s0 (execRemapDone t results s) := by
  unfold execRemapDone
  try dsimp only
  repeat' first
    | with_reducible exact h
    | with_reducible assumption
    | with_reducible apply signal_keep
    | with_reducible apply updTile_keep
    | with_reducible apply showFree_keep
    | with_reducible apply retireFree_keep
    | with_reducible apply calFinish_keep
    | with_reducible apply tryCand_keep
    | with_reducible apply nextRemap_keep
    | with_reducible apply itemDone_keep
    | with_reducible apply retireWaiting_keep
    | with_reducible apply joinSlice_keep
    | with_reducible apply keep_ite
    | with_reducible apply okeep_next
    | with_reducible apply okeep_fault
    | with_reducible apply okeep_ite
    | (with_reducible refine keep_foldl ?_ (fun _ _ _ => ?_))
    | split
    | (intro _)
    | dsimp only
    | (with_reducible refine keep_mk (s := _) ?_ rfl rfl rfl rfl; first | with_reducible exact h | with_reducible assumption | with_reducible apply signal_keep | with_reducible apply updTile_keep | with_reducible apply showFree_keep | with_reducible apply retireFree_keep | with_reducible apply calFinish_keep | with_reducible apply tryCand_keep | with_reducible apply nextRemap_keep | with_reducible apply itemDone_keep | with_reducible apply retireWaiting_keep | with_reducible apply joinSlice_keep | with_reducible apply keep_ite | with_reducible apply okeep_next | with_reducible apply okeep_fault | with_reducible apply okeep_ite | (with_reducible refine keep_foldl ?_ (fun _ _ _ => ?_)) | split)

theorem execRemap_keep {s0 s : State} (h : Keep s0 s) (j : Nat) : OKeep s0 (execRemap j s) := by
  unfold execRemap
  try dsimp only
  repeat' first
    | with_reducible exact h
    | with_reducible assumption
    | with_reducible apply setF_keep
    | with_reducible apply endJob_keep
    | with_reducible apply setWork_keep
    | with_reducible apply showCal_keep
    | with_reducible apply startRemap_keep
    | with_reducible apply keep_ite
    | with_reducible apply okeep_next
    | with_reducible apply okeep_fault
    | with_reducible apply okeep_ite
    | split
    | dsimp only
    | (with_reducible refine keep_mk (s := _) ?_ rfl rfl rfl rfl; first | with_reducible exact h | with_reducible assumption | with_reducible apply setF_keep | with_reducible apply endJob_keep | with_reducible apply setWork_keep | with_reducible apply showCal_keep | with_reducible apply startRemap_keep | with_reducible apply keep_ite | with_reducible apply okeep_next | with_reducible apply okeep_fault | with_reducible apply okeep_ite | split)

end Sys2Proof.Machine
end

