-- ==== Sys2Proof/Laws/KeepPower.lean ====
section
/-! SUPPORT. The operations of Machine/Power.lean leave the queue alone and keep memories and registers canonical. -/
set_option maxRecDepth 4000
set_option linter.all false
namespace Sys2Proof.Machine

theorem updThm_keep {s0 s : State} (h : Keep s0 s) (f : Thermal → Thermal) : Keep s0 (updThm s f) := by
  unfold updThm
  try dsimp only
  repeat' first
    | with_reducible exact h
    | with_reducible assumption
    | with_reducible apply keep_ite
    | split
    | dsimp only
    | (with_reducible refine keep_mk (s := _) ?_ rfl rfl rfl rfl; first | with_reducible exact h | with_reducible assumption | with_reducible apply keep_ite | split)

theorem restartSampled_keep {s0 s : State} (h : Keep s0 s) : Keep s0 (restartSampled s) := by
  unfold restartSampled
  try dsimp only
  repeat' first
    | with_reducible exact h
    | with_reducible assumption
    | with_reducible apply cmpRestart_keep
    | with_reducible apply keep_ite
    | (with_reducible refine keep_foldl ?_ (fun _ _ _ => ?_))
    | split
    | (intro _)
    | dsimp only

theorem powerGo_keep {s0 s : State} (h : Keep s0 s) (target : Nat) : Keep s0 (powerGo s target) := by
  unfold powerGo
  try dsimp only
  repeat' first
    | with_reducible exact h
    | with_reducible assumption
    | with_reducible apply wr_keep
    | with_reducible apply setF_keep
    | with_reducible apply safeEnterAll_keep
    | with_reducible apply linkLost_keep
    | with_reducible apply restartSampled_keep
    | with_reducible apply keep_ite
    | split
    | dsimp only

theorem pwrCtlStore_keep {s0 s : State} (h : Keep s0 s) (v : Nat) : Keep s0 (pwrCtlStore s v) := by
  unfold pwrCtlStore
  try dsimp only
  repeat' first
    | with_reducible exact h
    | with_reducible assumption
    | with_reducible apply wr_keep
    | with_reducible apply keep_ite
    | split
    | dsimp only

theorem execPowerGo_keep {s0 s : State} (h : Keep s0 s) (v : Word) : OKeep s0 (execPowerGo v s) := by
  unfold execPowerGo
  try dsimp only
  repeat' first
    | with_reducible exact h
    | with_reducible assumption
    | with_reducible apply barWrite_keep
    | with_reducible apply powerGo_keep
    | with_reducible apply pwrCtlStore_keep
    | with_reducible apply keep_ite
    | with_reducible apply okeep_next
    | with_reducible apply okeep_fault
    | with_reducible apply okeep_ite
    | split
    | (intro _)
    | dsimp only

theorem timingClocks_keep {s0 s : State} (h : Keep s0 s) (on : Bool) : Keep s0 (timingClocks s on) := by
  unfold timingClocks
  try dsimp only
  repeat' first
    | with_reducible exact h
    | with_reducible assumption
    | with_reducible apply clocksRun_keep
    | with_reducible apply keep_ite
    | (with_reducible refine keep_foldl ?_ (fun _ _ _ => ?_))
    | split
    | (intro _)
    | dsimp only

theorem execPowerEntryDone_keep {s0 s : State} (h : Keep s0 s) : OKeep s0 (execPowerEntryDone s) := by
  unfold execPowerEntryDone
  try dsimp only
  repeat' first
    | with_reducible exact h
    | with_reducible assumption
    | with_reducible apply wr_keep
    | with_reducible apply clrF_keep
    | with_reducible apply updRing_keep
    | with_reducible apply updDig_keep
    | with_reducible apply memSleep_keep
    | with_reducible apply showQual_keep
    | with_reducible apply restartSampled_keep
    | with_reducible apply timingClocks_keep
    | with_reducible apply keep_ite
    | with_reducible apply okeep_next
    | with_reducible apply okeep_fault
    | with_reducible apply okeep_ite
    | (with_reducible refine keep_foldl ?_ (fun _ _ _ => ?_))
    | split
    | (intro _)
    | dsimp only
    | (with_reducible refine keep_mk (s := _) ?_ rfl rfl rfl rfl; first | with_reducible exact h | with_reducible assumption | with_reducible apply wr_keep | with_reducible apply clrF_keep | with_reducible apply updRing_keep | with_reducible apply updDig_keep | with_reducible apply memSleep_keep | with_reducible apply showQual_keep | with_reducible apply restartSampled_keep | with_reducible apply timingClocks_keep | with_reducible apply keep_ite | with_reducible apply okeep_next | with_reducible apply okeep_fault | with_reducible apply okeep_ite | (with_reducible refine keep_foldl ?_ (fun _ _ _ => ?_)) | split)

theorem execWakeTimerExpiry_keep {s0 s : State} (h : Keep s0 s) : OKeep s0 (execWakeTimerExpiry s) := by
  unfold execWakeTimerExpiry
  try dsimp only
  repeat' first
    | with_reducible exact h
    | with_reducible assumption
    | with_reducible apply askWake_keep
    | with_reducible apply keep_ite
    | with_reducible apply okeep_next
    | with_reducible apply okeep_fault
    | with_reducible apply okeep_ite
    | split
    | dsimp only

theorem execWake_keep {s0 s : State} (h : Keep s0 s) : OKeep s0 (execWake s) := by
  unfold execWake
  try dsimp only
  repeat' first
    | with_reducible exact h
    | with_reducible assumption
    | with_reducible apply wr_keep
    | with_reducible apply setF_keep
    | with_reducible apply keep_ite
    | with_reducible apply okeep_next
    | with_reducible apply okeep_fault
    | with_reducible apply okeep_ite
    | split
    | dsimp only
    | (with_reducible refine keep_mk (s := _) ?_ rfl rfl rfl rfl; first | with_reducible exact h | with_reducible assumption | with_reducible apply wr_keep | with_reducible apply setF_keep | with_reducible apply keep_ite | with_reducible apply okeep_next | with_reducible apply okeep_fault | with_reducible apply okeep_ite | split)

theorem execWakeDone_keep {s0 s : State} (h : Keep s0 s) : OKeep s0 (execWakeDone s) := by
  unfold execWakeDone
  try dsimp only
  repeat' first
    | with_reducible exact h
    | with_reducible assumption
    | with_reducible apply wr_keep
    | with_reducible apply setF_keep
    | with_reducible apply clrF_keep
    | with_reducible apply updRing_keep
    | with_reducible apply causeClear_keep
    | with_reducible apply memWake_keep
    | with_reducible apply showQual_keep
    | with_reducible apply freshInt_keep
    | (with_reducible refine freshInt_keep_of (by with_reducible assumption) ?_)
    | with_reducible apply restartSampled_keep
    | with_reducible apply timingClocks_keep
    | with_reducible apply keep_ite
    | with_reducible apply okeep_next
    | with_reducible apply okeep_fault
    | with_reducible apply okeep_ite
    | split
    | (intro _)
    | dsimp only
    | (with_reducible refine keep_mk (s := _) ?_ rfl rfl rfl rfl; first | with_reducible exact h | with_reducible assumption | with_reducible apply wr_keep | with_reducible apply setF_keep | with_reducible apply clrF_keep | with_reducible apply updRing_keep | with_reducible apply causeClear_keep | with_reducible apply memWake_keep | with_reducible apply showQual_keep | with_reducible apply freshInt_keep | (with_reducible refine freshInt_keep_of (by with_reducible assumption) ?_) | with_reducible apply restartSampled_keep | with_reducible apply timingClocks_keep | with_reducible apply keep_ite | with_reducible apply okeep_next | with_reducible apply okeep_fault | with_reducible apply okeep_ite | split)

theorem thermalEvt_keep {s0 s : State} (h : Keep s0 s) (q : Nat) (kind : Nat) : Keep s0 (thermalEvt s q kind) := by
  unfold thermalEvt
  try dsimp only
  repeat' first
    | with_reducible exact h
    | with_reducible assumption
    | with_reducible apply postEvt_keep
    | with_reducible apply keep_ite
    | split
    | dsimp only

theorem sensorRound_keep {s0 s : State} (h : Keep s0 s) (temps : List Int) (valid : List Bool) : Keep s0 (sensorRound s temps valid) := by
  unfold sensorRound
  try dsimp only
  repeat' first
    | with_reducible exact h
    | with_reducible assumption
    | with_reducible apply wri_keep
    | with_reducible apply wr_keep
    | with_reducible apply signal_keep
    | with_reducible apply updThm_keep
    | with_reducible apply thermalEvt_keep
    | with_reducible apply keep_ite
    | (with_reducible refine keep_foldl ?_ (fun _ _ _ => ?_))
    | split
    | (intro _)
    | dsimp only
    | (with_reducible refine keep_mk (s := _) ?_ rfl rfl rfl rfl; first | with_reducible exact h | with_reducible assumption | with_reducible apply wri_keep | with_reducible apply wr_keep | with_reducible apply signal_keep | with_reducible apply updThm_keep | with_reducible apply thermalEvt_keep | with_reducible apply keep_ite | (with_reducible refine keep_foldl ?_ (fun _ _ _ => ?_)) | split)

theorem setThm_keep {s0 s : State} (h : Keep s0 s) (q : Nat) (v : Nat) : Keep s0 (setThm s q v) := by
  unfold setThm
  try dsimp only
  repeat' first
    | with_reducible exact h
    | with_reducible assumption
    | with_reducible apply wr_keep
    | with_reducible apply keep_ite
    | split
    | dsimp only
    | (with_reducible refine keep_mk (s := _) ?_ rfl rfl rfl rfl; first | with_reducible exact h | with_reducible assumption | with_reducible apply wr_keep | with_reducible apply keep_ite | split)

theorem graceStop_keep {s0 s : State} (h : Keep s0 s) (q : Nat) : Keep s0 (graceStop s q) := by
  unfold graceStop
  try dsimp only
  repeat' first
    | with_reducible exact h
    | with_reducible assumption
    | with_reducible apply updThm_keep
    | with_reducible apply keep_ite
    | split
    | (intro _)
    | dsimp only
    | (with_reducible refine keep_mk (s := _) ?_ rfl rfl rfl rfl; first | with_reducible exact h | with_reducible assumption | with_reducible apply updThm_keep | with_reducible apply keep_ite | split)

theorem enforce_keep {s0 s : State} (h : Keep s0 s) (q : Nat) : Keep s0 (enforce s q) := by
  unfold enforce
  try dsimp only
  repeat' first
    | with_reducible exact h
    | with_reducible assumption
    | with_reducible apply incF_keep
    | with_reducible apply markDeferred_keep
    | with_reducible apply seqHold_keep
    | with_reducible apply thermalEvt_keep
    | with_reducible apply setThm_keep
    | with_reducible apply graceStop_keep
    | with_reducible apply keep_ite
    | (with_reducible refine keep_foldl ?_ (fun _ _ _ => ?_))
    | split
    | (intro _)
    | dsimp only

theorem leaveEnforced_keep {s0 s : State} (h : Keep s0 s) (q : Nat) : Keep s0 (leaveEnforced s q) := by
  unfold leaveEnforced
  try dsimp only
  repeat' first
    | with_reducible exact h
    | with_reducible assumption
    | with_reducible apply thermalRelease_keep
    | with_reducible apply thermalEvt_keep
    | with_reducible apply keep_ite
    | (with_reducible refine keep_foldl ?_ (fun _ _ _ => ?_))
    | split
    | (intro _)
    | dsimp only

theorem criticalEntry_keep {s0 s : State} (h : Keep s0 s) (q : Nat) : Keep s0 (criticalEntry s q) := by
  unfold criticalEntry
  try dsimp only
  repeat' first
    | with_reducible exact h
    | with_reducible assumption
    | with_reducible apply levelOn_keep
    | with_reducible apply safeEnterAll_keep
    | with_reducible apply thermalEvt_keep
    | with_reducible apply setThm_keep
    | with_reducible apply enforce_keep
    | with_reducible apply keep_ite
    | (with_reducible refine keep_foldl ?_ (fun _ _ _ => ?_))
    | split
    | (intro _)
    | dsimp only

theorem criticalExit_keep {s0 s : State} (h : Keep s0 s) (q : Nat) : Keep s0 (criticalExit s q) := by
  unfold criticalExit
  try dsimp only
  repeat' first
    | with_reducible exact h
    | with_reducible assumption
    | with_reducible apply levelOff_keep
    | with_reducible apply causeClear_keep
    | with_reducible apply thermalEvt_keep
    | with_reducible apply setThm_keep
    | with_reducible apply keep_ite
    | split
    | (intro _)
    | dsimp only

theorem thermalStep_keep {s0 s : State} (h : Keep s0 s) (q : Nat) : Keep s0 (thermalStep s q) := by
  unfold thermalStep
  try dsimp only
  repeat' first
    | with_reducible exact h
    | with_reducible assumption
    | with_reducible apply updThm_keep
    | with_reducible apply thermalEvt_keep
    | with_reducible apply setThm_keep
    | with_reducible apply graceStop_keep
    | with_reducible apply leaveEnforced_keep
    | with_reducible apply criticalExit_keep
    | with_reducible apply keep_ite
    | split
    | (intro _)
    | dsimp only
    | (with_reducible refine keep_mk (s := _) ?_ rfl rfl rfl rfl; first | with_reducible exact h | with_reducible assumption | with_reducible apply updThm_keep | with_reducible apply thermalEvt_keep | with_reducible apply setThm_keep | with_reducible apply graceStop_keep | with_reducible apply leaveEnforced_keep | with_reducible apply criticalExit_keep | with_reducible apply keep_ite | split)

theorem criticalStep_keep {s0 s : State} (h : Keep s0 s) (q : Nat) : Keep s0 (criticalStep s q) := by
  unfold criticalStep
  try dsimp only
  repeat' first
    | with_reducible exact h
    | with_reducible assumption
    | with_reducible apply criticalEntry_keep
    | with_reducible apply keep_ite
    | split
    | dsimp only

theorem riseStep_keep {s0 s : State} (h : Keep s0 s) (q : Nat) : Keep s0 (riseStep s q) := by
  unfold riseStep
  try dsimp only
  repeat' first
    | with_reducible exact h
    | with_reducible assumption
    | with_reducible apply setF_keep
    | with_reducible apply clrF_keep
    | with_reducible apply levelOn_keep
    | with_reducible apply levelOff_keep
    | with_reducible apply thermalEvt_keep
    | with_reducible apply keep_ite
    | split
    | (intro _)
    | dsimp only
    | (with_reducible refine keep_mk (s := _) ?_ rfl rfl rfl rfl; first | with_reducible exact h | with_reducible assumption | with_reducible apply setF_keep | with_reducible apply clrF_keep | with_reducible apply levelOn_keep | with_reducible apply levelOff_keep | with_reducible apply thermalEvt_keep | with_reducible apply keep_ite | split)

theorem execGraceExpiry_keep {s0 s : State} (h : Keep s0 s) (q : SectorIx) : OKeep s0 (execGraceExpiry q s) := by
  unfold execGraceExpiry
  try dsimp only
  repeat' first
    | with_reducible exact h
    | with_reducible assumption
    | with_reducible apply enforce_keep
    | with_reducible apply keep_ite
    | with_reducible apply okeep_next
    | with_reducible apply okeep_fault
    | with_reducible apply okeep_ite
    | split
    | dsimp only

theorem monitorStep_keep {s0 s : State} (h : Keep s0 s) (j : Nat) (pct : Nat) (kind : Nat) (f : Field) : Keep s0 (monitorStep s j pct kind f) := by
  unfold monitorStep
  try dsimp only
  repeat' first
    | with_reducible exact h
    | with_reducible assumption
    | with_reducible apply wri_keep
    | with_reducible apply levelOn_keep
    | with_reducible apply levelOff_keep
    | with_reducible apply keep_ite
    | split
    | (intro _)
    | dsimp only

theorem supplyRound_keep {s0 s : State} (h : Keep s0 s) (volts : List Int) : Keep s0 (supplyRound s volts) := by
  unfold supplyRound
  try dsimp only
  repeat' first
    | with_reducible exact h
    | with_reducible assumption
    | with_reducible apply wri_keep
    | with_reducible apply setF_keep
    | with_reducible apply updBoot_keep
    | with_reducible apply updThm_keep
    | with_reducible apply monitorStep_keep
    | with_reducible apply keep_ite
    | (with_reducible refine keep_foldl ?_ (fun _ _ _ => ?_))
    | split
    | (intro _)
    | dsimp only
    | (with_reducible refine keep_mk (s := _) ?_ rfl rfl rfl rfl; first | with_reducible exact h | with_reducible assumption | with_reducible apply wri_keep | with_reducible apply setF_keep | with_reducible apply updBoot_keep | with_reducible apply updThm_keep | with_reducible apply monitorStep_keep | with_reducible apply keep_ite | (with_reducible refine keep_foldl ?_ (fun _ _ _ => ?_)) | split)

theorem stackRound_keep {s0 s : State} (h : Keep s0 s) (t : Int) : Keep s0 (stackRound s t) := by
  unfold stackRound
  try dsimp only
  repeat' first
    | with_reducible exact h
    | with_reducible assumption
    | with_reducible apply wr_keep
    | with_reducible apply freshNat_keep
    | (with_reducible refine freshNat_keep_of (by with_reducible assumption) ?_)
    | with_reducible apply retrainRequest_keep
    | with_reducible apply keep_ite
    | split
    | dsimp only

theorem execHousekeepingRound_keep {s0 s : State} (h : Keep s0 s) (temps : List Int) (valid : List Bool) (volts : List Int) : OKeep s0 (execHousekeepingRound temps valid volts s) := by
  unfold execHousekeepingRound
  try dsimp only
  repeat' first
    | with_reducible exact h
    | with_reducible assumption
    | with_reducible apply askWake_keep
    | with_reducible apply smbAlert_keep
    | with_reducible apply sensorRound_keep
    | with_reducible apply thermalStep_keep
    | with_reducible apply criticalStep_keep
    | with_reducible apply riseStep_keep
    | with_reducible apply supplyRound_keep
    | with_reducible apply stackRound_keep
    | with_reducible apply keep_ite
    | with_reducible apply okeep_next
    | with_reducible apply okeep_fault
    | with_reducible apply okeep_ite
    | (with_reducible refine keep_foldl ?_ (fun _ _ _ => ?_))
    | split
    | (intro _)
    | dsimp only

end Sys2Proof.Machine
end

