-- ==== Sys2Proof/Laws/KeepFaults.lean ====
section
/-! SUPPORT. The operations of Machine/Faults.lean leave the queue alone and keep memories and registers canonical. -/
set_option maxRecDepth 4000
set_option linter.all false
namespace Sys2Proof.Machine

theorem showFaults_keep {s0 s : State} (h : Keep s0 s) : Keep s0 (showFaults s) := by
  unfold showFaults
  try dsimp only
  repeat' first
    | with_reducible exact h
    | with_reducible assumption
    | with_reducible apply wr_keep
    | with_reducible apply smbAlert_keep
    | with_reducible apply keep_ite
    | (with_reducible refine keep_foldl ?_ (fun _ _ _ => ?_))
    | split
    | (intro _)
    | dsimp only

theorem deviceFatal_keep {s0 s : State} (h : Keep s0 s) : Keep s0 (deviceFatal s) := by
  unfold deviceFatal
  try dsimp only
  repeat' first
    | with_reducible exact h
    | with_reducible assumption
    | with_reducible apply setF_keep
    | with_reducible apply endJob_keep
    | with_reducible apply safeEnterAll_keep
    | with_reducible apply banksReset_keep
    | with_reducible apply gangsFault_keep
    | with_reducible apply showCal_keep
    | with_reducible apply keep_ite
    | (with_reducible refine keep_foldl ?_ (fun _ _ _ => ?_))
    | split
    | (intro _)
    | dsimp only

theorem sealDevice_keep {s0 s : State} (h : Keep s0 s) (cause : Nat) : Keep s0 (sealDevice s cause) := by
  unfold sealDevice
  try dsimp only
  repeat' first
    | with_reducible exact h
    | with_reducible assumption
    | with_reducible apply wr_keep
    | with_reducible apply setF_keep
    | with_reducible apply clrF_keep
    | with_reducible apply updRing_keep
    | with_reducible apply endJob_keep
    | with_reducible apply keep_ite
    | (with_reducible refine keep_foldl ?_ (fun _ _ _ => ?_))
    | split
    | (intro _)
    | dsimp only
    | (with_reducible refine keep_mk (s := _) ?_ rfl rfl rfl rfl; first | with_reducible exact h | with_reducible assumption | with_reducible apply wr_keep | with_reducible apply setF_keep | with_reducible apply clrF_keep | with_reducible apply updRing_keep | with_reducible apply endJob_keep | with_reducible apply keep_ite | (with_reducible refine keep_foldl ?_ (fun _ _ _ => ?_)) | split)

theorem react_keep {s0 s : State} (h : Keep s0 s) (det : Nat) (cls : Nat) : Keep s0 (react s det cls) := by
  unfold react
  try dsimp only
  repeat' first
    | with_reducible exact h
    | with_reducible assumption
    | with_reducible apply wr_keep
    | with_reducible apply deviceFatal_keep
    | with_reducible apply sealDevice_keep
    | with_reducible apply keep_ite
    | split
    | dsimp only

theorem histWrite_keep {s0 s : State} (h : Keep s0 s) (w : List Nat) : Keep s0 (histWrite s w) := by
  unfold histWrite
  try dsimp only
  repeat' first
    | with_reducible exact h
    | with_reducible assumption
    | with_reducible apply wri_keep
    | with_reducible apply wr_keep
    | with_reducible apply incF_keep
    | with_reducible apply updFlt_keep
    | with_reducible apply keep_ite
    | (with_reducible refine keep_foldl ?_ (fun _ _ _ => ?_))
    | split
    | (intro _)
    | dsimp only
    | (with_reducible refine keep_mk (s := _) ?_ rfl rfl rfl rfl; first | with_reducible exact h | with_reducible assumption | with_reducible apply wri_keep | with_reducible apply wr_keep | with_reducible apply incF_keep | with_reducible apply updFlt_keep | with_reducible apply keep_ite | (with_reducible refine keep_foldl ?_ (fun _ _ _ => ?_)) | split)

theorem firstFreeze_keep {s0 s : State} (h : Keep s0 s) (cls : Nat) (w : List Nat) : Keep s0 (firstFreeze s cls w) := by
  unfold firstFreeze
  try dsimp only
  repeat' first
    | with_reducible exact h
    | with_reducible assumption
    | with_reducible apply wri_keep
    | with_reducible apply setF_keep
    | with_reducible apply keep_ite
    | (with_reducible refine keep_foldl ?_ (fun _ _ _ => ?_))
    | split
    | (intro _)
    | dsimp only

theorem kindLatch_keep {s0 s : State} (h : Keep s0 s) (det : Nat) (cls : Nat) (wire : Bool) : Keep s0 (kindLatch s det cls wire) := by
  unfold kindLatch
  try dsimp only
  repeat' first
    | with_reducible exact h
    | with_reducible assumption
    | with_reducible apply wri_keep
    | with_reducible apply incFi_keep
    | with_reducible apply keep_ite
    | split
    | dsimp only

theorem siteFatal_keep {s0 s : State} (h : Keep s0 s) (det : Nat) : Keep s0 (siteFatal s det) := by
  unfold siteFatal
  try dsimp only
  repeat' first
    | with_reducible exact h
    | with_reducible assumption
    | with_reducible apply wri_keep
    | with_reducible apply keep_ite
    | (with_reducible refine keep_foldl ?_ (fun _ _ _ => ?_))
    | split
    | (intro _)
    | dsimp only

theorem faultEvent_keep {s0 s : State} (h : Keep s0 s) (det : Nat) (cls : Nat) (info : Nat) (seq : Nat) (inj : Bool) (wire : Bool) (reacts : Bool) : Keep s0 (faultEvent s det cls info seq inj wire reacts) := by
  unfold faultEvent
  try dsimp only
  repeat' first
    | with_reducible exact h
    | with_reducible assumption
    | with_reducible apply incF_keep
    | with_reducible apply postEvt_keep
    | with_reducible apply raiseTel_keep
    | with_reducible apply keep_ite
    | split
    | dsimp only

theorem decideRaise_keep {s0 s : State} (h : Keep s0 s) (det : Nat) (cls : Nat) (info : Nat) (inj : Bool) (wire : Bool) : Keep s0 (decideRaise s det cls info inj wire) := by
  unfold decideRaise
  try dsimp only
  repeat' first
    | with_reducible exact h
    | with_reducible assumption
    | with_reducible apply showFaults_keep
    | with_reducible apply react_keep
    | with_reducible apply histWrite_keep
    | with_reducible apply firstFreeze_keep
    | with_reducible apply kindLatch_keep
    | with_reducible apply siteFatal_keep
    | with_reducible apply faultEvent_keep
    | with_reducible apply keep_ite
    | split
    | dsimp only

theorem raiseNow_keep {s0 s : State} (h : Keep s0 s) (det : Nat) (info : Nat) : Keep s0 (raiseNow s det info) := by
  unfold raiseNow
  try dsimp only
  repeat' first
    | with_reducible exact h
    | with_reducible assumption
    | with_reducible apply decideRaise_keep
    | with_reducible apply keep_ite
    | split
    | dsimp only

theorem sourceAct_keep {s0 s : State} (h : Keep s0 s) (det : Nat) (info : Nat) : Keep s0 (sourceAct s det info) := by
  unfold sourceAct
  try dsimp only
  repeat' first
    | with_reducible exact h
    | with_reducible assumption
    | with_reducible apply wr_keep
    | with_reducible apply safeEnterAll_keep
    | with_reducible apply overcurrent_keep
    | with_reducible apply digStopNow_keep
    | with_reducible apply homeLost_keep
    | with_reducible apply telHalt_keep
    | with_reducible apply levelReferenceRetired_keep
    | with_reducible apply sliceMonitorFail_keep
    | with_reducible apply interpolatorBankLost_keep
    | with_reducible apply sectorStop_keep
    | with_reducible apply thermalEvt_keep
    | with_reducible apply enforce_keep
    | with_reducible apply keep_ite
    | (with_reducible refine keep_foldl ?_ (fun _ _ _ => ?_))
    | split
    | (intro _)
    | dsimp only
    | (with_reducible refine keep_mk (s := _) ?_ rfl rfl rfl rfl; first | with_reducible exact h | with_reducible assumption | with_reducible apply wr_keep | with_reducible apply safeEnterAll_keep | with_reducible apply overcurrent_keep | with_reducible apply digStopNow_keep | with_reducible apply homeLost_keep | with_reducible apply telHalt_keep | with_reducible apply levelReferenceRetired_keep | with_reducible apply sliceMonitorFail_keep | with_reducible apply interpolatorBankLost_keep | with_reducible apply sectorStop_keep | with_reducible apply thermalEvt_keep | with_reducible apply enforce_keep | with_reducible apply keep_ite | (with_reducible refine keep_foldl ?_ (fun _ _ _ => ?_)) | split)

theorem sourceClear_keep {s0 s : State} (h : Keep s0 s) (det : Nat) : Keep s0 (sourceClear s det) := by
  unfold sourceClear
  try dsimp only
  repeat' first
    | with_reducible exact h
    | with_reducible assumption
    | with_reducible apply causeClear_keep
    | with_reducible apply keep_ite
    | split
    | (intro _)
    | dsimp only
    | (with_reducible refine keep_mk (s := _) ?_ rfl rfl rfl rfl; first | with_reducible exact h | with_reducible assumption | with_reducible apply causeClear_keep | with_reducible apply keep_ite | split)

theorem injectRaise_keep {s0 s : State} (h : Keep s0 s) (det : Nat) (info : Nat) : Keep s0 (injectRaise s det info) := by
  unfold injectRaise
  try dsimp only
  repeat' first
    | with_reducible exact h
    | with_reducible assumption
    | with_reducible apply updFlt_keep
    | with_reducible apply sourceAct_keep
    | with_reducible apply keep_ite
    | split
    | (intro _)
    | dsimp only
    | (with_reducible refine keep_mk (s := _) ?_ rfl rfl rfl rfl; first | with_reducible exact h | with_reducible assumption | with_reducible apply updFlt_keep | with_reducible apply sourceAct_keep | with_reducible apply keep_ite | split)

theorem showPoints_keep {s0 s : State} (h : Keep s0 s) (kind : Nat) : Keep s0 (showPoints s kind) := by
  unfold showPoints
  try dsimp only
  repeat' first
    | with_reducible exact h
    | with_reducible assumption
    | with_reducible apply wri_keep
    | with_reducible apply wr_keep
    | with_reducible apply keep_ite
    | split
    | (intro _)
    | dsimp only

theorem dropPoint_keep {s0 s : State} (h : Keep s0 s) (det : Nat) : Keep s0 (dropPoint s det) := by
  unfold dropPoint
  try dsimp only
  repeat' first
    | with_reducible exact h
    | with_reducible assumption
    | with_reducible apply updFlt_keep
    | with_reducible apply showActive_keep
    | with_reducible apply endJob?_keep
    | with_reducible apply sourceClear_keep
    | with_reducible apply showPoints_keep
    | with_reducible apply keep_ite
    | split
    | (intro _)
    | dsimp only
    | (with_reducible refine keep_mk (s := _) ?_ rfl rfl rfl rfl; first | with_reducible exact h | with_reducible assumption | with_reducible apply updFlt_keep | with_reducible apply showActive_keep | with_reducible apply endJob?_keep | with_reducible apply sourceClear_keep | with_reducible apply showPoints_keep | with_reducible apply keep_ite | split)

theorem pointForce_keep {s0 s : State} (h : Keep s0 s) (p : InjPoint) : Keep s0 (pointForce s p) := by
  unfold pointForce
  try dsimp only
  repeat' first
    | with_reducible exact h
    | with_reducible assumption
    | with_reducible apply updFlt_keep
    | with_reducible apply endJob?_keep
    | with_reducible apply injectRaise_keep
    | with_reducible apply showPoints_keep
    | with_reducible apply keep_ite
    | split
    | (intro _)
    | dsimp only
    | (with_reducible refine keep_mk (s := _) ?_ rfl rfl rfl rfl; first | with_reducible exact h | with_reducible assumption | with_reducible apply updFlt_keep | with_reducible apply endJob?_keep | with_reducible apply injectRaise_keep | with_reducible apply showPoints_keep | with_reducible apply keep_ite | split)

theorem armPoint_keep {s0 s : State} (h : Keep s0 s) (p : InjPoint) : Keep s0 (armPoint s p) := by
  unfold armPoint
  try dsimp only
  repeat' first
    | with_reducible exact h
    | with_reducible assumption
    | with_reducible apply updFlt_keep
    | with_reducible apply showPoints_keep
    | with_reducible apply dropPoint_keep
    | with_reducible apply pointForce_keep
    | with_reducible apply keep_ite
    | split
    | (intro _)
    | dsimp only
    | (with_reducible refine keep_mk (s := _) ?_ rfl rfl rfl rfl; first | with_reducible exact h | with_reducible assumption | with_reducible apply updFlt_keep | with_reducible apply showPoints_keep | with_reducible apply dropPoint_keep | with_reducible apply pointForce_keep | with_reducible apply keep_ite | split)

theorem execInjectJob_keep {s0 s : State} (h : Keep s0 s) (j : Nat) : OKeep s0 (execInjectJob j s) := by
  unfold execInjectJob
  try dsimp only
  repeat' first
    | with_reducible exact h
    | with_reducible assumption
    | with_reducible apply endJob_keep
    | with_reducible apply setWork_keep
    | with_reducible apply dropPoint_keep
    | with_reducible apply armPoint_keep
    | with_reducible apply keep_ite
    | with_reducible apply okeep_next
    | with_reducible apply okeep_fault
    | with_reducible apply okeep_ite
    | split
    | dsimp only
    | (with_reducible refine keep_mk (s := _) ?_ rfl rfl rfl rfl; first | with_reducible exact h | with_reducible assumption | with_reducible apply endJob_keep | with_reducible apply setWork_keep | with_reducible apply dropPoint_keep | with_reducible apply armPoint_keep | with_reducible apply keep_ite | with_reducible apply okeep_next | with_reducible apply okeep_fault | with_reducible apply okeep_ite | split)

theorem execInjectionInForce_keep {s0 s : State} (h : Keep s0 s) (det : Nat) : OKeep s0 (execInjectionInForce det s) := by
  unfold execInjectionInForce
  try dsimp only
  repeat' first
    | with_reducible exact h
    | with_reducible assumption
    | with_reducible apply pointForce_keep
    | with_reducible apply keep_ite
    | with_reducible apply okeep_next
    | with_reducible apply okeep_fault
    | with_reducible apply okeep_ite
    | split
    | dsimp only
    | (with_reducible refine keep_mk (s := _) ?_ rfl rfl rfl rfl; first | with_reducible exact h | with_reducible assumption | with_reducible apply pointForce_keep | with_reducible apply keep_ite | with_reducible apply okeep_next | with_reducible apply okeep_fault | with_reducible apply okeep_ite | split)

theorem disarmAll_keep {s0 s : State} (h : Keep s0 s) : Keep s0 (disarmAll s) := by
  unfold disarmAll
  try dsimp only
  repeat' first
    | with_reducible exact h
    | with_reducible assumption
    | with_reducible apply dropPoint_keep
    | with_reducible apply keep_ite
    | (with_reducible refine keep_foldl ?_ (fun _ _ _ => ?_))
    | split
    | dsimp only

theorem execInjectDisall_keep {s0 s : State} (h : Keep s0 s) : OKeep s0 (execInjectDisall s) := by
  unfold execInjectDisall
  try dsimp only
  repeat' first
    | with_reducible exact h
    | with_reducible assumption
    | with_reducible apply barWrite_keep
    | with_reducible apply disarmAll_keep
    | with_reducible apply keep_ite
    | with_reducible apply okeep_next
    | with_reducible apply okeep_fault
    | with_reducible apply okeep_ite
    | split
    | dsimp only

theorem spendShots_keep {s0 s : State} (h : Keep s0 s) : Keep s0 (spendShots s) := by
  unfold spendShots
  try dsimp only
  repeat' first
    | with_reducible exact h
    | with_reducible assumption
    | with_reducible apply endJob?_keep
    | with_reducible apply dropPoint_keep
    | with_reducible apply keep_ite
    | (with_reducible refine keep_foldl ?_ (fun _ _ _ => ?_))
    | split
    | (intro _)
    | dsimp only

theorem showRaised_keep {s0 s : State} (h : Keep s0 s) (dets : List Nat) : Keep s0 (showRaised s dets) := by
  unfold showRaised
  try dsimp only
  repeat' first
    | with_reducible exact h
    | with_reducible assumption
    | with_reducible apply updFlt_keep
    | with_reducible apply showActive_keep
    | with_reducible apply keep_ite
    | (with_reducible refine keep_foldl ?_ (fun _ _ _ => ?_))
    | split
    | (intro _)
    | dsimp only
    | (with_reducible refine keep_mk (s := _) ?_ rfl rfl rfl rfl; first | with_reducible exact h | with_reducible assumption | with_reducible apply updFlt_keep | with_reducible apply showActive_keep | with_reducible apply keep_ite | (with_reducible refine keep_foldl ?_ (fun _ _ _ => ?_)) | split)

theorem execDetectorRaise_keep {s0 s : State} (h : Keep s0 s) : OKeep s0 (execDetectorRaise s) := by
  unfold execDetectorRaise
  try dsimp only
  repeat' first
    | with_reducible exact h
    | with_reducible assumption
    | with_reducible apply updFlt_keep
    | with_reducible apply decideRaise_keep
    | with_reducible apply spendShots_keep
    | with_reducible apply showRaised_keep
    | with_reducible apply keep_ite
    | with_reducible apply okeep_next
    | with_reducible apply okeep_fault
    | with_reducible apply okeep_ite
    | (with_reducible refine keep_foldl ?_ (fun _ _ _ => ?_))
    | split
    | (intro _)
    | dsimp only
    | (with_reducible refine keep_mk (s := _) ?_ rfl rfl rfl rfl; first | with_reducible exact h | with_reducible assumption | with_reducible apply updFlt_keep | with_reducible apply decideRaise_keep | with_reducible apply spendShots_keep | with_reducible apply showRaised_keep | with_reducible apply keep_ite | with_reducible apply okeep_next | with_reducible apply okeep_fault | with_reducible apply okeep_ite | (with_reducible refine keep_foldl ?_ (fun _ _ _ => ?_)) | split)

theorem execRailDisagreement_keep {s0 s : State} (h : Keep s0 s) (det : Nat) (on : Bool) : OKeep s0 (execRailDisagreement det on s) := by
  unfold execRailDisagreement
  try dsimp only
  repeat' first
    | with_reducible exact h
    | with_reducible assumption
    | with_reducible apply updFlt_keep
    | with_reducible apply freshNat_keep
    | (with_reducible refine freshNat_keep_of (by with_reducible assumption) ?_)
    | with_reducible apply showActive_keep
    | with_reducible apply keep_ite
    | with_reducible apply okeep_next
    | with_reducible apply okeep_fault
    | with_reducible apply okeep_ite
    | split
    | (intro _)
    | dsimp only
    | (with_reducible refine keep_mk (s := _) ?_ rfl rfl rfl rfl; first | with_reducible exact h | with_reducible assumption | with_reducible apply updFlt_keep | with_reducible apply freshNat_keep | (with_reducible refine freshNat_keep_of (by with_reducible assumption) ?_) | with_reducible apply showActive_keep | with_reducible apply keep_ite | with_reducible apply okeep_next | with_reducible apply okeep_fault | with_reducible apply okeep_ite | split)

theorem execCollectorDualRail_keep {s0 s : State} (h : Keep s0 s) : OKeep s0 (execCollectorDualRail s) := by
  unfold execCollectorDualRail
  try dsimp only
  repeat' first
    | with_reducible exact h
    | with_reducible assumption
    | with_reducible apply raiseNow_keep
    | with_reducible apply keep_ite
    | with_reducible apply okeep_next
    | with_reducible apply okeep_fault
    | with_reducible apply okeep_ite
    | split
    | dsimp only

theorem execReactionComplete_keep {s0 s : State} (h : Keep s0 s) : OKeep s0 (execReactionComplete s) := by
  unfold execReactionComplete
  try dsimp only
  repeat' first
    | with_reducible exact h
    | with_reducible assumption
    | with_reducible apply wr_keep
    | with_reducible apply keep_ite
    | with_reducible apply okeep_next
    | with_reducible apply okeep_fault
    | with_reducible apply okeep_ite
    | split
    | dsimp only

theorem kstatClear_keep {s0 s : State} (h : Keep s0 s) (k : Nat) (latched : Bool) (wire : Bool) : Keep s0 (kstatClear s k latched wire) := by
  unfold kstatClear
  try dsimp only
  repeat' first
    | with_reducible exact h
    | with_reducible assumption
    | with_reducible apply wri_keep
    | with_reducible apply causeClear_keep
    | with_reducible apply showFaults_keep
    | with_reducible apply keep_ite
    | split
    | (intro _)
    | dsimp only

theorem execKstatClear_keep {s0 s : State} (h : Keep s0 s) (k : Fin 64) (latched : Bool) (wire : Bool) : OKeep s0 (execKstatClear k latched wire s) := by
  unfold execKstatClear
  try dsimp only
  repeat' first
    | with_reducible exact h
    | with_reducible assumption
    | with_reducible apply barWrite_keep
    | with_reducible apply kstatClear_keep
    | with_reducible apply keep_ite
    | with_reducible apply okeep_next
    | with_reducible apply okeep_fault
    | with_reducible apply okeep_ite
    | split
    | (intro _)
    | dsimp only

theorem execFirstRelease_keep {s0 s : State} (h : Keep s0 s) : OKeep s0 (execFirstRelease s) := by
  unfold execFirstRelease
  try dsimp only
  repeat' first
    | with_reducible exact h
    | with_reducible assumption
    | with_reducible apply clrF_keep
    | with_reducible apply barWrite_keep
    | with_reducible apply keep_ite
    | with_reducible apply okeep_next
    | with_reducible apply okeep_fault
    | with_reducible apply okeep_ite
    | split
    | (intro _)
    | dsimp only

end Sys2Proof.Machine
end

