-- ==== Sys2Proof/Laws/KeepBoard.lean ====
section
/-! SUPPORT. The operations of Machine/Board.lean leave the queue alone and keep memories and registers canonical. -/
set_option maxRecDepth 4000
set_option linter.all false
namespace Sys2Proof.Machine

theorem tileLaneFail_keep {s0 s : State} (h : Keep s0 s) (t : Nat) (up : Bool) (vec : Nat) : Keep s0 (tileLaneFail s t up vec) := by
  unfold tileLaneFail
  try dsimp only
  repeat' first
    | with_reducible exact h
    | with_reducible assumption
    | with_reducible apply setF_keep
    | with_reducible apply signal_keep
    | with_reducible apply updTile_keep
    | with_reducible apply safeEnterAll_keep
    | with_reducible apply flagSites_keep
    | with_reducible apply laneUnderrun_keep
    | with_reducible apply gangsFault_keep
    | with_reducible apply keep_ite
    | split
    | (intro _)
    | dsimp only
    | (with_reducible refine keep_mk (s := _) ?_ rfl rfl rfl rfl; first | with_reducible exact h | with_reducible assumption | with_reducible apply setF_keep | with_reducible apply signal_keep | with_reducible apply updTile_keep | with_reducible apply safeEnterAll_keep | with_reducible apply flagSites_keep | with_reducible apply laneUnderrun_keep | with_reducible apply gangsFault_keep | with_reducible apply keep_ite | split)

theorem execTileLaneTransfer_keep {s0 s : State} (h : Keep s0 s) (t : TileIx) (up : Bool) (vec : Nat) (ok1 : Bool) (ok2 : Bool) : OKeep s0 (execTileLaneTransfer t up vec ok1 ok2 s) := by
  unfold execTileLaneTransfer
  try dsimp only
  repeat' first
    | with_reducible exact h
    | with_reducible assumption
    | with_reducible apply updTile_keep
    | with_reducible apply causeClear_keep
    | with_reducible apply tileLaneFail_keep
    | with_reducible apply keep_ite
    | with_reducible apply okeep_next
    | with_reducible apply okeep_fault
    | with_reducible apply okeep_ite
    | split
    | (intro _)
    | dsimp only
    | (with_reducible refine keep_mk (s := _) ?_ rfl rfl rfl rfl; first | with_reducible exact h | with_reducible assumption | with_reducible apply updTile_keep | with_reducible apply causeClear_keep | with_reducible apply tileLaneFail_keep | with_reducible apply keep_ite | with_reducible apply okeep_next | with_reducible apply okeep_fault | with_reducible apply okeep_ite | split)

theorem execSectorLaneTransfer_keep {s0 s : State} (h : Keep s0 s) (q : SectorIx) (up : Bool) (ok1 : Bool) (ok2 : Bool) : OKeep s0 (execSectorLaneTransfer q up ok1 ok2 s) := by
  unfold execSectorLaneTransfer
  try dsimp only
  repeat' first
    | with_reducible exact h
    | with_reducible assumption
    | with_reducible apply signal_keep
    | with_reducible apply digStopNow_keep
    | with_reducible apply keep_ite
    | with_reducible apply okeep_next
    | with_reducible apply okeep_fault
    | with_reducible apply okeep_ite
    | split
    | dsimp only
    | (with_reducible refine keep_mk (s := _) ?_ rfl rfl rfl rfl; first | with_reducible exact h | with_reducible assumption | with_reducible apply signal_keep | with_reducible apply digStopNow_keep | with_reducible apply keep_ite | with_reducible apply okeep_next | with_reducible apply okeep_fault | with_reducible apply okeep_ite | split)

theorem execPinDieLockout_keep {s0 s : State} (h : Keep s0 s) (q : SectorIx) : OKeep s0 (execPinDieLockout q s) := by
  unfold execPinDieLockout
  try dsimp only
  repeat' first
    | with_reducible exact h
    | with_reducible assumption
    | with_reducible apply setF_keep
    | with_reducible apply updSlice_keep
    | with_reducible apply markSuspect_keep
    | with_reducible apply keep_ite
    | with_reducible apply okeep_next
    | with_reducible apply okeep_fault
    | with_reducible apply okeep_ite
    | (with_reducible refine keep_foldl ?_ (fun _ _ _ => ?_))
    | split
    | (intro _)
    | dsimp only
    | (with_reducible refine keep_mk (s := _) ?_ rfl rfl rfl rfl; first | with_reducible exact h | with_reducible assumption | with_reducible apply setF_keep | with_reducible apply updSlice_keep | with_reducible apply markSuspect_keep | with_reducible apply keep_ite | with_reducible apply okeep_next | with_reducible apply okeep_fault | with_reducible apply okeep_ite | (with_reducible refine keep_foldl ?_ (fun _ _ _ => ?_)) | split)

theorem execLockoutRelease_keep {s0 s : State} (h : Keep s0 s) (q : SectorIx) : OKeep s0 (execLockoutRelease q s) := by
  unfold execLockoutRelease
  try dsimp only
  repeat' first
    | with_reducible exact h
    | with_reducible assumption
    | with_reducible apply tapNote_keep
    | with_reducible apply loadSync_keep
    | with_reducible apply keep_ite
    | with_reducible apply okeep_next
    | with_reducible apply okeep_fault
    | with_reducible apply okeep_ite
    | (with_reducible refine keep_foldl ?_ (fun _ _ _ => ?_))
    | split
    | (intro _)
    | dsimp only
    | (with_reducible refine keep_mk (s := _) ?_ rfl rfl rfl rfl; first | with_reducible exact h | with_reducible assumption | with_reducible apply tapNote_keep | with_reducible apply loadSync_keep | with_reducible apply keep_ite | with_reducible apply okeep_next | with_reducible apply okeep_fault | with_reducible apply okeep_ite | (with_reducible refine keep_foldl ?_ (fun _ _ _ => ?_)) | split)

theorem pmuJobsEnd_keep {s0 s : State} (h : Keep s0 s) (st : Nat) : Keep s0 (pmuJobsEnd s st) := by
  unfold pmuJobsEnd
  try dsimp only
  repeat' first
    | with_reducible exact h
    | with_reducible assumption
    | with_reducible apply endJob_keep
    | with_reducible apply keep_ite
    | (with_reducible refine keep_foldl ?_ (fun _ _ _ => ?_))
    | split
    | (intro _)
    | dsimp only

theorem lockDrive_keep {s0 s : State} (h : Keep s0 s) (t : Nat) (p : Nat) : Keep s0 (lockDrive s t p) := by
  unfold lockDrive
  try dsimp only
  repeat' first
    | with_reducible exact h
    | with_reducible assumption
    | with_reducible apply wr_keep
    | with_reducible apply keep_ite
    | split
    | dsimp only

theorem execCardRemoval_keep {s0 s : State} (h : Keep s0 s) : OKeep s0 (execCardRemoval s) := by
  unfold execCardRemoval
  try dsimp only
  repeat' first
    | with_reducible exact h
    | with_reducible assumption
    | with_reducible apply setF_keep
    | with_reducible apply clrF_keep
    | with_reducible apply loadSync_keep
    | with_reducible apply safeEnterAll_keep
    | with_reducible apply gangsFault_keep
    | with_reducible apply pmuJobsEnd_keep
    | with_reducible apply lockDrive_keep
    | with_reducible apply keep_ite
    | with_reducible apply okeep_next
    | with_reducible apply okeep_fault
    | with_reducible apply okeep_ite
    | (with_reducible refine keep_foldl ?_ (fun _ _ _ => ?_))
    | split
    | (intro _)
    | dsimp only

theorem execCardInsertion_keep {s0 s : State} (h : Keep s0 s) : OKeep s0 (execCardInsertion s) := by
  unfold execCardInsertion
  try dsimp only
  repeat' first
    | with_reducible exact h
    | with_reducible assumption
    | with_reducible apply setF_keep
    | with_reducible apply askWake_keep
    | with_reducible apply causeClear_keep
    | with_reducible apply keep_ite
    | with_reducible apply okeep_next
    | with_reducible apply okeep_fault
    | with_reducible apply okeep_ite
    | split
    | dsimp only

theorem execTouchChange_keep {s0 s : State} (h : Keep s0 s) (down : Bool) : OKeep s0 (execTouchChange down s) := by
  unfold execTouchChange
  try dsimp only
  repeat' first
    | with_reducible exact h
    | with_reducible assumption
    | with_reducible apply setF_keep
    | with_reducible apply clrF_keep
    | with_reducible apply incF_keep
    | with_reducible apply askWake_keep
    | with_reducible apply setEot_keep
    | with_reducible apply gangsFault_keep
    | with_reducible apply keep_ite
    | with_reducible apply okeep_next
    | with_reducible apply okeep_fault
    | with_reducible apply okeep_ite
    | split
    | (intro _)
    | dsimp only

theorem eotWrite_keep {s0 s : State} (h : Keep s0 s) (v : Bool) : Keep s0 (eotWrite s v) := by
  unfold eotWrite
  try dsimp only
  repeat' first
    | with_reducible exact h
    | with_reducible assumption
    | with_reducible apply setEot_keep
    | with_reducible apply keep_ite
    | split
    | dsimp only

theorem execEotWrite_keep {s0 s : State} (h : Keep s0 s) (v : Bool) : OKeep s0 (execEotWrite v s) := by
  unfold execEotWrite
  try dsimp only
  repeat' first
    | with_reducible exact h
    | with_reducible assumption
    | with_reducible apply barWrite_keep
    | with_reducible apply eotWrite_keep
    | with_reducible apply keep_ite
    | with_reducible apply okeep_next
    | with_reducible apply okeep_fault
    | with_reducible apply okeep_ite
    | split
    | (intro _)
    | dsimp only

theorem execTrigInEdge_keep {s0 s : State} (h : Keep s0 s) (i : Fin 4) (rise : Bool) (tau : Nat) : OKeep s0 (execTrigInEdge i rise tau s) := by
  unfold execTrigInEdge
  try dsimp only
  repeat' first
    | with_reducible exact h
    | with_reducible assumption
    | with_reducible apply tinTrigger_keep
    | with_reducible apply triggerJumpAt_keep
    | with_reducible apply keep_ite
    | with_reducible apply okeep_next
    | with_reducible apply okeep_fault
    | with_reducible apply okeep_ite
    | split
    | dsimp only

theorem smbAnswer_keep {s0 s : State} (h : Keep s0 s) (l : List Nat) : Keep s0 (smbAnswer s l) := by
  unfold smbAnswer
  try dsimp only
  repeat' first
    | with_reducible exact h
    | with_reducible assumption
    | with_reducible apply keep_ite
    | split
    | dsimp only
    | (with_reducible refine keep_mk (s := _) ?_ rfl rfl rfl rfl; first | with_reducible exact h | with_reducible assumption | with_reducible apply keep_ite | split)

theorem smbRead_keep {s0 s : State} (h : Keep s0 s) (code : Nat) (block : Bool) (data : List Nat) (pec : Bool) : Keep s0 (smbRead s code block data pec) := by
  unfold smbRead
  try dsimp only
  repeat' first
    | with_reducible exact h
    | with_reducible assumption
    | with_reducible apply smbAnswer_keep
    | with_reducible apply keep_ite
    | split
    | dsimp only

theorem smbWrite_keep {s0 s : State} (h : Keep s0 s) (fuse : Bool) (pec : Pec) (k : State → State) (hk : ∀ x0, Keep s0 x0 → Keep s0 (k x0)) : Keep s0 (smbWrite s fuse pec k) := by
  unfold smbWrite
  try dsimp only
  repeat' first
    | with_reducible exact h
    | with_reducible assumption
    | with_reducible apply setF_keep
    | with_reducible apply smbAnswer_keep
    | with_reducible apply keep_ite
    | apply hk
    | split
    | (intro _)
    | dsimp only

theorem execIdent_keep {s0 s : State} (h : Keep s0 s) (pec : Bool) : OKeep s0 (execIdent pec s) := by
  unfold execIdent
  try dsimp only
  repeat' first
    | with_reducible exact h
    | with_reducible assumption
    | with_reducible apply smbRead_keep
    | with_reducible apply keep_ite
    | with_reducible apply okeep_next
    | with_reducible apply okeep_fault
    | with_reducible apply okeep_ite
    | split
    | dsimp only

theorem execStatus_keep {s0 s : State} (h : Keep s0 s) (pec : Bool) : OKeep s0 (execStatus pec s) := by
  unfold execStatus
  try dsimp only
  repeat' first
    | with_reducible exact h
    | with_reducible assumption
    | with_reducible apply smbRead_keep
    | with_reducible apply keep_ite
    | with_reducible apply okeep_next
    | with_reducible apply okeep_fault
    | with_reducible apply okeep_ite
    | split
    | dsimp only

theorem execSmbusWake_keep {s0 s : State} (h : Keep s0 s) (pec : Pec) : OKeep s0 (execSmbusWake pec s) := by
  unfold execSmbusWake
  try dsimp only
  repeat' first
    | with_reducible exact h
    | with_reducible assumption
    | with_reducible apply askWake_keep
    | with_reducible apply smbWrite_keep
    | with_reducible apply keep_ite
    | with_reducible apply okeep_next
    | with_reducible apply okeep_fault
    | with_reducible apply okeep_ite
    | split
    | (intro _)
    | dsimp only

theorem execFirst_keep {s0 s : State} (h : Keep s0 s) (pec : Bool) : OKeep s0 (execFirst pec s) := by
  unfold execFirst
  try dsimp only
  repeat' first
    | with_reducible exact h
    | with_reducible assumption
    | with_reducible apply smbRead_keep
    | with_reducible apply keep_ite
    | with_reducible apply okeep_next
    | with_reducible apply okeep_fault
    | with_reducible apply okeep_ite
    | split
    | (intro _)
    | dsimp only

theorem execKeystat_keep {s0 s : State} (h : Keep s0 s) (pec : Bool) : OKeep s0 (execKeystat pec s) := by
  unfold execKeystat
  try dsimp only
  repeat' first
    | with_reducible exact h
    | with_reducible assumption
    | with_reducible apply smbRead_keep
    | with_reducible apply keep_ite
    | with_reducible apply okeep_next
    | with_reducible apply okeep_fault
    | with_reducible apply okeep_ite
    | split
    | dsimp only

theorem execFuseStat_keep {s0 s : State} (h : Keep s0 s) (pec : Bool) : OKeep s0 (execFuseStat pec s) := by
  unfold execFuseStat
  try dsimp only
  repeat' first
    | with_reducible exact h
    | with_reducible assumption
    | with_reducible apply smbRead_keep
    | with_reducible apply keep_ite
    | with_reducible apply okeep_next
    | with_reducible apply okeep_fault
    | with_reducible apply okeep_ite
    | split
    | dsimp only

theorem execSmbusTimeout_keep {s0 s : State} (h : Keep s0 s) : OKeep s0 (execSmbusTimeout s) := by
  unfold execSmbusTimeout
  try dsimp only
  repeat' first
    | with_reducible exact h
    | with_reducible assumption
    | with_reducible apply keep_ite
    | with_reducible apply okeep_next
    | with_reducible apply okeep_fault
    | with_reducible apply okeep_ite
    | split
    | dsimp only

theorem execAlertResponse_keep {s0 s : State} (h : Keep s0 s) : OKeep s0 (execAlertResponse s) := by
  unfold execAlertResponse
  try dsimp only
  repeat' first
    | with_reducible exact h
    | with_reducible assumption
    | with_reducible apply clrF_keep
    | with_reducible apply smbAnswer_keep
    | with_reducible apply keep_ite
    | with_reducible apply okeep_next
    | with_reducible apply okeep_fault
    | with_reducible apply okeep_ite
    | split
    | dsimp only

theorem updSmb_keep {s0 s : State} (h : Keep s0 s) (f : Sideband → Sideband) : Keep s0 (updSmb s f) := by
  unfold updSmb
  try dsimp only
  repeat' first
    | with_reducible exact h
    | with_reducible assumption
    | with_reducible apply keep_ite
    | split
    | dsimp only
    | (with_reducible refine keep_mk (s := _) ?_ rfl rfl rfl rfl; first | with_reducible exact h | with_reducible assumption | with_reducible apply keep_ite | split)

theorem execFuseArm_keep {s0 s : State} (h : Keep s0 s) (pec : Pec) (v : BitVec 16) : OKeep s0 (execFuseArm pec v s) := by
  unfold execFuseArm
  try dsimp only
  repeat' first
    | with_reducible exact h
    | with_reducible assumption
    | with_reducible apply smbWrite_keep
    | with_reducible apply updSmb_keep
    | with_reducible apply keep_ite
    | with_reducible apply okeep_next
    | with_reducible apply okeep_fault
    | with_reducible apply okeep_ite
    | split
    | (intro _)
    | dsimp only
    | (with_reducible refine keep_mk (s := _) ?_ rfl rfl rfl rfl; first | with_reducible exact h | with_reducible assumption | with_reducible apply smbWrite_keep | with_reducible apply updSmb_keep | with_reducible apply keep_ite | with_reducible apply okeep_next | with_reducible apply okeep_fault | with_reducible apply okeep_ite | split)

theorem execFuseArmExpiry_keep {s0 s : State} (h : Keep s0 s) : OKeep s0 (execFuseArmExpiry s) := by
  unfold execFuseArmExpiry
  try dsimp only
  repeat' first
    | with_reducible exact h
    | with_reducible assumption
    | with_reducible apply updSmb_keep
    | with_reducible apply keep_ite
    | with_reducible apply okeep_next
    | with_reducible apply okeep_fault
    | with_reducible apply okeep_ite
    | split
    | (intro _)
    | dsimp only
    | (with_reducible refine keep_mk (s := _) ?_ rfl rfl rfl rfl; first | with_reducible exact h | with_reducible assumption | with_reducible apply updSmb_keep | with_reducible apply keep_ite | with_reducible apply okeep_next | with_reducible apply okeep_fault | with_reducible apply okeep_ite | split)

theorem fuseEnd_keep {s0 s : State} (h : Keep s0 s) (f : Field) : Keep s0 (fuseEnd s f) := by
  unfold fuseEnd
  try dsimp only
  repeat' first
    | with_reducible exact h
    | with_reducible assumption
    | with_reducible apply setF_keep
    | with_reducible apply smbAlert_keep
    | with_reducible apply keep_ite
    | split
    | dsimp only

theorem fuseCommand_keep {s0 s : State} (h : Keep s0 s) (code : Nat) (slot : Nat) (bytes : List Nat) (blank : Bool) : Keep s0 (fuseCommand s code slot bytes blank) := by
  unfold fuseCommand
  try dsimp only
  repeat' first
    | with_reducible exact h
    | with_reducible assumption
    | with_reducible apply setF_keep
    | with_reducible apply updSmb_keep
    | with_reducible apply fuseEnd_keep
    | with_reducible apply keep_ite
    | split
    | (intro _)
    | dsimp only
    | (with_reducible refine keep_mk (s := _) ?_ rfl rfl rfl rfl; first | with_reducible exact h | with_reducible assumption | with_reducible apply setF_keep | with_reducible apply updSmb_keep | with_reducible apply fuseEnd_keep | with_reducible apply keep_ite | split)

theorem execFuseKey_keep {s0 s : State} (h : Keep s0 s) (pec : Pec) (slot : BitVec 8) (hash : List Nat) : OKeep s0 (execFuseKey pec slot hash s) := by
  unfold execFuseKey
  try dsimp only
  repeat' first
    | with_reducible exact h
    | with_reducible assumption
    | with_reducible apply smbWrite_keep
    | with_reducible apply fuseCommand_keep
    | with_reducible apply keep_ite
    | with_reducible apply okeep_next
    | with_reducible apply okeep_fault
    | with_reducible apply okeep_ite
    | split
    | (intro _)
    | dsimp only

theorem execFuseRevoke_keep {s0 s : State} (h : Keep s0 s) (pec : Pec) (slot : BitVec 8) : OKeep s0 (execFuseRevoke pec slot s) := by
  unfold execFuseRevoke
  try dsimp only
  repeat' first
    | with_reducible exact h
    | with_reducible assumption
    | with_reducible apply smbWrite_keep
    | with_reducible apply fuseCommand_keep
    | with_reducible apply keep_ite
    | with_reducible apply okeep_next
    | with_reducible apply okeep_fault
    | with_reducible apply okeep_ite
    | split
    | (intro _)
    | dsimp only

theorem execFuseSsid_keep {s0 s : State} (h : Keep s0 s) (pec : Pec) (v : Word) : OKeep s0 (execFuseSsid pec v s) := by
  unfold execFuseSsid
  try dsimp only
  repeat' first
    | with_reducible exact h
    | with_reducible assumption
    | with_reducible apply smbWrite_keep
    | with_reducible apply fuseCommand_keep
    | with_reducible apply keep_ite
    | with_reducible apply okeep_next
    | with_reducible apply okeep_fault
    | with_reducible apply okeep_ite
    | split
    | (intro _)
    | dsimp only

theorem keySet_keep {s0 s : State} (h : Keep s0 s) (f : Field) (slot : Nat) : Keep s0 (keySet s f slot) := by
  unfold keySet
  try dsimp only
  repeat' first
    | with_reducible exact h
    | with_reducible assumption
    | with_reducible apply wr_keep
    | with_reducible apply keep_ite
    | split
    | dsimp only

theorem keyRevoke_keep {s0 s : State} (h : Keep s0 s) (slot : Nat) : Keep s0 (keyRevoke s slot) := by
  unfold keyRevoke
  try dsimp only
  repeat' first
    | with_reducible exact h
    | with_reducible assumption
    | with_reducible apply updBoot_keep
    | with_reducible apply keySet_keep
    | with_reducible apply keep_ite
    | split
    | (intro _)
    | dsimp only
    | (with_reducible refine keep_mk (s := _) ?_ rfl rfl rfl rfl; first | with_reducible exact h | with_reducible assumption | with_reducible apply updBoot_keep | with_reducible apply keySet_keep | with_reducible apply keep_ite | split)

theorem execFuseBurnDone_keep {s0 s : State} (h : Keep s0 s) (ok : Bool) : OKeep s0 (execFuseBurnDone ok s) := by
  unfold execFuseBurnDone
  dsimp only
  split
  · exact okeep_next h
  · apply okeep_next
    apply fuseEnd_keep
    have h1 := clrF_keep (updSmb_keep h fun x => { x with burn := none }) glb R.GLB_SMB_STAT_FUSE_BUSY
    have h2 := freshNat_keep h1
    repeat' first
    | with_reducible exact h1
    | with_reducible exact h2
    | with_reducible apply keep_ite
    | with_reducible apply keyRevoke_keep
    | with_reducible apply updSmb_keep
    · exact keep_same (keySet_keep h1 _ _) rfl rfl rfl rfl
    · exact ⟨h2.queue, h2.host, h2.dev, (keySet_keep h1 R.GLB_KEYSTAT_PROG _).regs⟩

end Sys2Proof.Machine
end

