-- ==== Sys2Proof/Laws/KeepJobs.lean ====
section
/-! SUPPORT. The operations of Machine/Jobs.lean leave the queue alone and keep memories and registers canonical. -/
set_option maxRecDepth 4000
set_option linter.all false
namespace Sys2Proof.Machine

theorem tellOwners_keep {s0 s : State} (h : Keep s0 s) (x : Job) : Keep s0 (tellOwners s x) := by
  unfold tellOwners
  try dsimp only
  repeat' first
    | with_reducible exact h
    | with_reducible assumption
    | with_reducible apply raiseRole_keep
    | with_reducible apply keep_ite
    | (with_reducible refine keep_foldl ?_ (fun _ _ _ => ?_))
    | split
    | (intro _)
    | dsimp only
    | (with_reducible refine keep_mk (s := _) ?_ rfl rfl rfl rfl; first | with_reducible exact h | with_reducible assumption | with_reducible apply raiseRole_keep | with_reducible apply keep_ite | (with_reducible refine keep_foldl ?_ (fun _ _ _ => ?_)) | split)

theorem dispatchTo_keep {s0 s : State} (h : Keep s0 s) (j : Nat) (x : Job) (units : List Nat) : Keep s0 (dispatchTo s j x units) := by
  unfold dispatchTo
  try dsimp only
  repeat' first
    | with_reducible exact h
    | with_reducible assumption
    | with_reducible apply putJob_keep
    | with_reducible apply updRings_keep
    | with_reducible apply tellOwners_keep
    | with_reducible apply keep_ite
    | split
    | (intro _)
    | dsimp only
    | (with_reducible refine keep_mk (s := _) ?_ rfl rfl rfl rfl; first | with_reducible exact h | with_reducible assumption | with_reducible apply putJob_keep | with_reducible apply updRings_keep | with_reducible apply tellOwners_keep | with_reducible apply keep_ite | split)

theorem execJobDispatch_keep {s0 s : State} (h : Keep s0 s) (j : Nat) : OKeep s0 (execJobDispatch j s) := by
  unfold execJobDispatch
  try dsimp only
  repeat' first
    | with_reducible exact h
    | with_reducible assumption
    | with_reducible apply endJob_keep
    | with_reducible apply needBytes_keep
    | with_reducible apply dispatchTo_keep
    | with_reducible apply keep_ite
    | with_reducible apply okeep_next
    | with_reducible apply okeep_fault
    | with_reducible apply okeep_ite
    | split
    | (intro _)
    | dsimp only
    | (with_reducible refine keep_mk (s := _) ?_ rfl rfl rfl rfl; first | with_reducible exact h | with_reducible assumption | with_reducible apply endJob_keep | with_reducible apply needBytes_keep | with_reducible apply dispatchTo_keep | with_reducible apply keep_ite | with_reducible apply okeep_next | with_reducible apply okeep_fault | with_reducible apply okeep_ite | split)

theorem execNopFence_keep {s0 s : State} (h : Keep s0 s) (j : Nat) : OKeep s0 (execNopFence j s) := by
  unfold execNopFence
  try dsimp only
  repeat' first
    | with_reducible exact h
    | with_reducible assumption
    | with_reducible apply endJob_keep
    | with_reducible apply keep_ite
    | with_reducible apply okeep_next
    | with_reducible apply okeep_fault
    | with_reducible apply okeep_ite
    | split
    | (intro _)
    | dsimp only
    | (with_reducible refine keep_mk (s := _) ?_ rfl rfl rfl rfl; first | with_reducible exact h | with_reducible assumption | with_reducible apply endJob_keep | with_reducible apply keep_ite | with_reducible apply okeep_next | with_reducible apply okeep_fault | with_reducible apply okeep_ite | split)

theorem dropTransfers_keep {s0 s : State} (h : Keep s0 s) (j : Nat) : Keep s0 (dropTransfers s j) := by
  unfold dropTransfers
  try dsimp only
  repeat' first
    | with_reducible exact h
    | with_reducible assumption
    | with_reducible apply updXlt_keep
    | with_reducible apply keep_ite
    | split
    | (intro _)
    | dsimp only
    | (with_reducible refine keep_mk (s := _) ?_ rfl rfl rfl rfl; first | with_reducible exact h | with_reducible assumption | with_reducible apply updXlt_keep | with_reducible apply keep_ite | split)

theorem abortRunning_keep {s0 s : State} (h : Keep s0 s) (j : Nat) (x : Job) : Keep s0 (abortRunning s j x) := by
  unfold abortRunning
  try dsimp only
  repeat' first
    | with_reducible exact h
    | with_reducible assumption
    | with_reducible apply updRing_keep
    | with_reducible apply endJob_keep
    | with_reducible apply loadSync_keep
    | with_reducible apply pmuAbort_keep
    | with_reducible apply vclkCancel_keep
    | with_reducible apply digStopNow_keep
    | with_reducible apply gangAbort_keep
    | with_reducible apply showCal_keep
    | with_reducible apply dropPoint_keep
    | with_reducible apply dropTransfers_keep
    | with_reducible apply keep_ite
    | (with_reducible refine keep_foldl ?_ (fun _ _ _ => ?_))
    | split
    | (intro _)
    | dsimp only
    | (with_reducible refine keep_mk (s := _) ?_ rfl rfl rfl rfl; first | with_reducible exact h | with_reducible assumption | with_reducible apply updRing_keep | with_reducible apply endJob_keep | with_reducible apply loadSync_keep | with_reducible apply pmuAbort_keep | with_reducible apply vclkCancel_keep | with_reducible apply digStopNow_keep | with_reducible apply gangAbort_keep | with_reducible apply showCal_keep | with_reducible apply dropPoint_keep | with_reducible apply dropTransfers_keep | with_reducible apply keep_ite | (with_reducible refine keep_foldl ?_ (fun _ _ _ => ?_)) | split)

theorem abortJob_keep {s0 s : State} (h : Keep s0 s) (j : Nat) : Keep s0 (abortJob s j) := by
  unfold abortJob
  try dsimp only
  repeat' first
    | with_reducible exact h
    | with_reducible assumption
    | with_reducible apply endJob_keep
    | with_reducible apply dropTransfers_keep
    | with_reducible apply abortRunning_keep
    | with_reducible apply keep_ite
    | split
    | dsimp only
    | (with_reducible refine keep_mk (s := _) ?_ rfl rfl rfl rfl; first | with_reducible exact h | with_reducible assumption | with_reducible apply endJob_keep | with_reducible apply dropTransfers_keep | with_reducible apply abortRunning_keep | with_reducible apply keep_ite | split)

theorem abortGo_keep {s0 s : State} (h : Keep s0 s) : Keep s0 (abortGo s) := by
  unfold abortGo
  try dsimp only
  repeat' first
    | with_reducible exact h
    | with_reducible assumption
    | with_reducible apply setF_keep
    | with_reducible apply abortJob_keep
    | with_reducible apply keep_ite
    | (with_reducible refine keep_foldl ?_ (fun _ _ _ => ?_))
    | split
    | dsimp only
    | (with_reducible refine keep_mk (s := _) ?_ rfl rfl rfl rfl; first | with_reducible exact h | with_reducible assumption | with_reducible apply setF_keep | with_reducible apply abortJob_keep | with_reducible apply keep_ite | (with_reducible refine keep_foldl ?_ (fun _ _ _ => ?_)) | split)

theorem execJobAbort_keep {s0 s : State} (h : Keep s0 s) : OKeep s0 (execJobAbort s) := by
  unfold execJobAbort
  try dsimp only
  repeat' first
    | with_reducible exact h
    | with_reducible assumption
    | with_reducible apply barWrite_keep
    | with_reducible apply abortGo_keep
    | with_reducible apply keep_ite
    | with_reducible apply okeep_next
    | with_reducible apply okeep_fault
    | with_reducible apply okeep_ite
    | split
    | dsimp only

end Sys2Proof.Machine
end

