-- ==== Sys2Proof/Laws/KeepBoot.lean ====
section
/-! SUPPORT. The operations of Machine/Boot.lean leave the queue alone and keep memories and registers canonical. -/
set_option maxRecDepth 4000
set_option linter.all false
namespace Sys2Proof.Machine

theorem coldReset_keep {s0 s : State} (h : Keep s0 s) (cause : Nat) (perst : Bool) : Keep s0 (coldReset s cause perst) := by
  unfold coldReset
  dsimp only
  have h1 : Keep s0 { State.reset with regs := keyFuses s, fresh := s.fresh, resp := s.resp, hostMem := s.hostMem, ssid := s.smb.ssid.or s.ssid, keyHash := s.keyHash, lockout := s.lockout, pending := s.pending } :=
    ⟨h.queue, h.host, fun _ => rfl, fun x => mapRising_keys _ (fun e => by by_cases hc : (e.1 == fieldKey glb R.GLB_KEYSTAT_REVOKED 0) = true <;> simp only [hc, if_true, if_false, Bool.false_eq_true]) _ _ (mapRising_filter _ _ _ (h.regs x))⟩
  apply updBoot_keep
  repeat' first
  | with_reducible exact h1
  | with_reducible apply keep_ite
  | with_reducible apply setF_keep
  | with_reducible apply wr_keep

theorem portReset_keep {s0 s : State} (h : Keep s0 s) : Keep s0 (portReset s) := by
  unfold portReset
  dsimp only
  have h1 := linkLost_keep h
  apply cfgEffects_keep
  apply clrF_keep
  apply clrF_keep
  exact keep_regs h1 rfl rfl rfl fun x => mapRising_filter _ _ _ (mapRising_filter _ _ _ x)

theorem execPowerOnReset_keep {s0 s : State} (h : Keep s0 s) (aon : Bool) : OKeep s0 (execPowerOnReset aon s) := by
  unfold execPowerOnReset
  try dsimp only
  repeat' first
    | with_reducible exact h
    | with_reducible assumption
    | with_reducible apply coldReset_keep
    | with_reducible apply portReset_keep
    | with_reducible apply keep_ite
    | with_reducible apply okeep_next
    | with_reducible apply okeep_fault
    | with_reducible apply okeep_ite
    | split
    | dsimp only

theorem fuseErrors_keep {s0 s : State} (h : Keep s0 s) (keys trims : List Nat) : Keep s0 (fuseErrors s keys trims) := by
  unfold fuseErrors
  dsimp only
  have h1 : ∀ l : List Nat, Keep s0 (l.foldl (fun s k =>
      if bit (rd s glb R.GLB_KEYSTAT_REVOKED) k then s
      else updBoot (keySet s R.GLB_KEYSTAT_REVOKED k) fun b => { b with misread := k :: b.misread }) s) := fun l =>
    keep_foldl h fun s x hx => keep_ite hx (updBoot_keep (keySet_keep hx _ _) _)
  have hm : ∀ (l : List Nat) (m : Map Nat), mapRising 0 m = true → mapRising 0 (l.foldl (fun m k => mapPut m k 0) m) = true := by
    intro l
    induction l with
    | nil => exact fun _ h => h
    | cons k r ih => exact fun m h => ih _ (mapRising_put m 0 k 0 (Nat.zero_le _) h)
  apply keep_ite
  · exact keep_regs (h1 keys) rfl rfl rfl fun x => hm _ _ x
  · apply setF_keep
    exact keep_regs (h1 keys) rfl rfl rfl fun x => hm _ _ x

theorem wardenBoot_keep {s0 s : State} (h : Keep s0 s) (keys : List Nat) (trims : List Nat) (imageOk : Bool) (again : Bool) : Keep s0 (wardenBoot s keys trims imageOk again) := by
  unfold wardenBoot
  try dsimp only
  repeat' first
    | with_reducible exact h
    | with_reducible assumption
    | with_reducible apply setF_keep
    | with_reducible apply updBoot_keep
    | with_reducible apply raiseNow_keep
    | with_reducible apply fuseErrors_keep
    | with_reducible apply keep_ite
    | (with_reducible refine keep_foldl ?_ (fun _ _ _ => ?_))
    | split
    | (intro _)
    | dsimp only
    | (with_reducible refine keep_mk (s := _) ?_ rfl rfl rfl rfl; first | with_reducible exact h | with_reducible assumption | with_reducible apply setF_keep | with_reducible apply updBoot_keep | with_reducible apply raiseNow_keep | with_reducible apply fuseErrors_keep | with_reducible apply keep_ite | (with_reducible refine keep_foldl ?_ (fun _ _ _ => ?_)) | split)

theorem execPorRelease_keep {s0 s : State} (h : Keep s0 s) (badKeys : List (Fin 4)) (badTrims : List Nat) (imageOk : Bool) (again : Bool) : OKeep s0 (execPorRelease badKeys badTrims imageOk again s) := by
  unfold execPorRelease
  try dsimp only
  repeat' first
    | with_reducible exact h
    | with_reducible assumption
    | with_reducible apply wardenBoot_keep
    | with_reducible apply keep_ite
    | with_reducible apply okeep_next
    | with_reducible apply okeep_fault
    | with_reducible apply okeep_ite
    | split
    | dsimp only

theorem execPerstReset_keep {s0 s : State} (h : Keep s0 s) (badKeys : List (Fin 4)) (badTrims : List Nat) (imageOk : Bool) (again : Bool) : OKeep s0 (execPerstReset badKeys badTrims imageOk again s) := by
  unfold execPerstReset
  try dsimp only
  repeat' first
    | with_reducible exact h
    | with_reducible assumption
    | with_reducible apply updBoot_keep
    | with_reducible apply coldReset_keep
    | with_reducible apply portReset_keep
    | with_reducible apply wardenBoot_keep
    | with_reducible apply keep_ite
    | with_reducible apply okeep_next
    | with_reducible apply okeep_fault
    | with_reducible apply okeep_ite
    | split
    | (intro _)
    | dsimp only
    | (with_reducible refine keep_mk (s := _) ?_ rfl rfl rfl rfl; first | with_reducible exact h | with_reducible assumption | with_reducible apply updBoot_keep | with_reducible apply coldReset_keep | with_reducible apply portReset_keep | with_reducible apply wardenBoot_keep | with_reducible apply keep_ite | with_reducible apply okeep_next | with_reducible apply okeep_fault | with_reducible apply okeep_ite | split)

theorem execPerstRelease_keep {s0 s : State} (h : Keep s0 s) : OKeep s0 (execPerstRelease s) := by
  unfold execPerstRelease
  try dsimp only
  repeat' first
    | with_reducible exact h
    | with_reducible assumption
    | with_reducible apply updBoot_keep
    | with_reducible apply keep_ite
    | with_reducible apply okeep_next
    | with_reducible apply okeep_fault
    | with_reducible apply okeep_ite
    | split
    | (intro _)
    | dsimp only
    | (with_reducible refine keep_mk (s := _) ?_ rfl rfl rfl rfl; first | with_reducible exact h | with_reducible assumption | with_reducible apply updBoot_keep | with_reducible apply keep_ite | with_reducible apply okeep_next | with_reducible apply okeep_fault | with_reducible apply okeep_ite | split)

theorem execStartupPllsLocked_keep {s0 s : State} (h : Keep s0 s) : OKeep s0 (execStartupPllsLocked s) := by
  unfold execStartupPllsLocked
  try dsimp only
  repeat' first
    | with_reducible exact h
    | with_reducible assumption
    | with_reducible apply wr_keep
    | with_reducible apply updBoot_keep
    | with_reducible apply showQual_keep
    | with_reducible apply keep_ite
    | with_reducible apply okeep_next
    | with_reducible apply okeep_fault
    | with_reducible apply okeep_ite
    | split
    | (intro _)
    | dsimp only
    | (with_reducible refine keep_mk (s := _) ?_ rfl rfl rfl rfl; first | with_reducible exact h | with_reducible assumption | with_reducible apply wr_keep | with_reducible apply updBoot_keep | with_reducible apply showQual_keep | with_reducible apply keep_ite | with_reducible apply okeep_next | with_reducible apply okeep_fault | with_reducible apply okeep_ite | split)

theorem mapPositions_keep {s0 s : State} (h : Keep s0 s) (t : Nat) : Keep s0 (mapPositions s t) := by
  unfold mapPositions
  try dsimp only
  repeat' first
    | with_reducible exact h
    | with_reducible assumption
    | with_reducible apply wri_keep
    | with_reducible apply setF_keep
    | with_reducible apply keep_ite
    | (with_reducible refine keep_foldl ?_ (fun _ _ _ => ?_))
    | split
    | (intro _)
    | dsimp only
    | (with_reducible refine keep_mk (s := _) ?_ rfl rfl rfl rfl; first | with_reducible exact h | with_reducible assumption | with_reducible apply wri_keep | with_reducible apply setF_keep | with_reducible apply keep_ite | (with_reducible refine keep_foldl ?_ (fun _ _ _ => ?_)) | split)

theorem selfRetired_keep {s0 s : State} (h : Keep s0 s) (was : State) (x : Nat × Nat) : Keep s0 (selfRetired s was x) := by
  unfold selfRetired
  try dsimp only
  repeat' first
    | with_reducible exact h
    | with_reducible assumption
    | with_reducible apply signal_keep
    | with_reducible apply keep_ite
    | split
    | dsimp only
    | (with_reducible refine keep_mk (s := _) ?_ rfl rfl rfl rfl; first | with_reducible exact h | with_reducible assumption | with_reducible apply signal_keep | with_reducible apply keep_ite | split)

theorem execSelftestDone_keep {s0 s : State} (h : Keep s0 s) (fails : List Nat) (quads : List Nat) : OKeep s0 (execSelftestDone fails quads s) := by
  unfold execSelftestDone
  try dsimp only
  repeat' first
    | with_reducible exact h
    | with_reducible assumption
    | with_reducible apply wr_keep
    | with_reducible apply setF_keep
    | with_reducible apply causeClear_keep
    | with_reducible apply safeRelease_keep
    | with_reducible apply showFree_keep
    | with_reducible apply markRetired_keep
    | with_reducible apply mapPositions_keep
    | with_reducible apply selfRetired_keep
    | with_reducible apply keep_ite
    | with_reducible apply okeep_next
    | with_reducible apply okeep_fault
    | with_reducible apply okeep_ite
    | (with_reducible refine keep_foldl ?_ (fun _ _ _ => ?_))
    | split
    | (intro _)
    | dsimp only

theorem dropJobs_keep {s0 s : State} (h : Keep s0 s) : Keep s0 (dropJobs s) := by
  unfold dropJobs
  try dsimp only
  repeat' first
    | with_reducible exact h
    | with_reducible assumption
    | with_reducible apply updXlt_keep
    | with_reducible apply updRings_keep
    | with_reducible apply updRing_keep
    | with_reducible apply updFlt_keep
    | with_reducible apply keep_ite
    | split
    | (intro _)
    | dsimp only
    | (with_reducible refine keep_mk (s := _) ?_ rfl rfl rfl rfl; first | with_reducible exact h | with_reducible assumption | with_reducible apply updXlt_keep | with_reducible apply updRings_keep | with_reducible apply updRing_keep | with_reducible apply updFlt_keep | with_reducible apply keep_ite | split)

theorem stopTellers_keep {s0 s : State} (h : Keep s0 s) : Keep s0 (stopTellers s) := by
  unfold stopTellers
  try dsimp only
  repeat' first
    | with_reducible exact h
    | with_reducible assumption
    | with_reducible apply wr_keep
    | with_reducible apply clrF_keep
    | with_reducible apply updTel_keep
    | with_reducible apply keep_ite
    | (with_reducible refine keep_foldl ?_ (fun _ _ _ => ?_))
    | split
    | (intro _)
    | dsimp only

theorem warmStart_keep {s0 s : State} (h : Keep s0 s) : Keep s0 (warmStart s) := by
  unfold warmStart
  try dsimp only
  repeat' first
    | with_reducible exact h
    | with_reducible assumption
    | with_reducible apply setF_keep
    | with_reducible apply safeEnterAll_keep
    | with_reducible apply digStopNow_keep
    | with_reducible apply gangsFault_keep
    | with_reducible apply dropJobs_keep
    | with_reducible apply stopTellers_keep
    | with_reducible apply keep_ite
    | (with_reducible refine keep_foldl ?_ (fun _ _ _ => ?_))
    | split
    | (intro _)
    | dsimp only

theorem warmWrite_keep {s0 s : State} (h : Keep s0 s) : Keep s0 (warmWrite s) := by
  unfold warmWrite
  try dsimp only
  repeat' first
    | with_reducible exact h
    | with_reducible assumption
    | with_reducible apply setF_keep
    | with_reducible apply warmStart_keep
    | with_reducible apply keep_ite
    | split
    | dsimp only

theorem warmAccess_keep {s0 s : State} (h : Keep s0 s) : Keep s0 (warmAccess s) := by
  unfold warmAccess
  try dsimp only
  repeat' first
    | with_reducible exact h
    | with_reducible assumption
    | with_reducible apply setF_keep
    | with_reducible apply recordAccess_keep
    | with_reducible apply barWrite_keep
    | with_reducible apply warmWrite_keep
    | with_reducible apply keep_ite
    | split
    | dsimp only

theorem execWarmReset_keep {s0 s : State} (h : Keep s0 s) : OKeep s0 (execWarmReset s) := by
  unfold execWarmReset
  try dsimp only
  repeat' first
    | with_reducible exact h
    | with_reducible assumption
    | with_reducible apply warmAccess_keep
    | with_reducible apply keep_ite
    | with_reducible apply okeep_next
    | with_reducible apply okeep_fault
    | with_reducible apply okeep_ite
    | split
    | dsimp only

theorem gangsStop_keep {s0 s : State} (h : Keep s0 s) : Keep s0 (gangsStop s) := by
  unfold gangsStop
  try dsimp only
  repeat' first
    | with_reducible exact h
    | with_reducible assumption
    | with_reducible apply gangStop_keep
    | with_reducible apply keep_ite
    | (with_reducible refine keep_foldl ?_ (fun _ _ _ => ?_))
    | split
    | (intro _)
    | dsimp only
    | (with_reducible refine keep_mk (s := _) ?_ rfl rfl rfl rfl; first | with_reducible exact h | with_reducible assumption | with_reducible apply gangStop_keep | with_reducible apply keep_ite | (with_reducible refine keep_foldl ?_ (fun _ _ _ => ?_)) | split)

theorem warmUnits_keep {s0 s : State} (h : Keep s0 s) : Keep s0 (warmUnits s) :=
  keep_regs h rfl rfl rfl fun x => mapRising_filter _ _ _ x

theorem warmTeller_keep {s0 s : State} (h : Keep s0 s) (n : Nat) : Keep s0 (warmTeller s n) := by
  unfold warmTeller
  try dsimp only
  repeat' first
    | with_reducible exact h
    | with_reducible assumption
    | with_reducible apply wri_keep
    | with_reducible apply wr_keep
    | with_reducible apply putTel_keep
    | with_reducible apply showTelQ_keep
    | with_reducible apply raiseTel_keep
    | with_reducible apply takeRole_keep
    | with_reducible apply telRetire_keep
    | with_reducible apply telLoad_keep
    | with_reducible apply keep_ite
    | split
    | dsimp only
    | (with_reducible refine keep_mk (s := _) ?_ rfl rfl rfl rfl; first | with_reducible exact h | with_reducible assumption | with_reducible apply wri_keep | with_reducible apply wr_keep | with_reducible apply putTel_keep | with_reducible apply showTelQ_keep | with_reducible apply raiseTel_keep | with_reducible apply takeRole_keep | with_reducible apply telRetire_keep | with_reducible apply telLoad_keep | with_reducible apply keep_ite | split)

theorem cxlExtras_keep {s0 s : State} (h : Keep s0 s) : Keep s0 (cxlExtras s) := by
  unfold cxlExtras
  dsimp only
  refine keep_regs (s := clrF (clrF (clrF (levelOff (clrF { s with dcache := [], sf := [], biAsked := [], biSent := [], hdmProg := none, comp := mapErase s.comp 0, param := [] }
    glb R.HAT_LINK_STAT_VIRAL) 0x26 0) glb R.HAT_HDM_STAT_COMMITTED) glb R.HAT_HDM_STAT_BI_EN) glb R.HAT_HDM_STAT_BIPEND) ?_ rfl rfl rfl
    fun x => mapRising_filter _ _ _ x
  apply clrF_keep
  apply clrF_keep
  apply clrF_keep
  apply levelOff_keep
  apply clrF_keep
  exact keep_same h rfl rfl rfl rfl

theorem execWarmResetDone_keep {s0 s : State} (h : Keep s0 s) : OKeep s0 (execWarmResetDone s) := by
  unfold execWarmResetDone
  try dsimp only
  repeat' first
    | with_reducible exact h
    | with_reducible assumption
    | with_reducible apply wr_keep
    | with_reducible apply clrF_keep
    | with_reducible apply incF_keep
    | with_reducible apply updBoot_keep
    | with_reducible apply causeClear_keep
    | with_reducible apply cfgEffects_keep
    | with_reducible apply showUsers_keep
    | with_reducible apply showCal_keep
    | with_reducible apply gangsStop_keep
    | with_reducible apply warmUnits_keep
    | with_reducible apply warmTeller_keep
    | with_reducible apply cxlExtras_keep
    | with_reducible apply keep_ite
    | with_reducible apply okeep_next
    | with_reducible apply okeep_fault
    | with_reducible apply okeep_ite
    | (with_reducible refine keep_foldl ?_ (fun _ _ _ => ?_))
    | split
    | (intro _)
    | dsimp only
    | (with_reducible refine keep_mk (s := _) ?_ rfl rfl rfl rfl; first | with_reducible exact h | with_reducible assumption | with_reducible apply wr_keep | with_reducible apply clrF_keep | with_reducible apply incF_keep | with_reducible apply updBoot_keep | with_reducible apply causeClear_keep | with_reducible apply cfgEffects_keep | with_reducible apply showUsers_keep | with_reducible apply showCal_keep | with_reducible apply gangsStop_keep | with_reducible apply warmUnits_keep | with_reducible apply warmTeller_keep | with_reducible apply cxlExtras_keep | with_reducible apply keep_ite | with_reducible apply okeep_next | with_reducible apply okeep_fault | with_reducible apply okeep_ite | (with_reducible refine keep_foldl ?_ (fun _ _ _ => ?_)) | split)

theorem execCxlReset_keep {s0 s : State} (h : Keep s0 s) : OKeep s0 (execCxlReset s) := by
  unfold execCxlReset
  try dsimp only
  repeat' first
    | with_reducible exact h
    | with_reducible assumption
    | with_reducible apply updBoot_keep
    | with_reducible apply warmStart_keep
    | with_reducible apply keep_ite
    | with_reducible apply okeep_next
    | with_reducible apply okeep_fault
    | with_reducible apply okeep_ite
    | split
    | (intro _)
    | dsimp only
    | (with_reducible refine keep_mk (s := _) ?_ rfl rfl rfl rfl; first | with_reducible exact h | with_reducible assumption | with_reducible apply updBoot_keep | with_reducible apply warmStart_keep | with_reducible apply keep_ite | with_reducible apply okeep_next | with_reducible apply okeep_fault | with_reducible apply okeep_ite | split)

end Sys2Proof.Machine
end

