-- ==== Sys2Proof/Laws/KeepRegAccess.lean ====
section
/-! SUPPORT. The operations of Machine/RegAccess.lean leave the queue alone and keep memories and registers canonical. -/
set_option maxRecDepth 4000
set_option linter.all false
namespace Sys2Proof.Machine

theorem writeField_keep {s0 s : State} (h : Keep s0 s) (blk : Blk) (o : Nat) (run : Bool) (v : Nat) (x : Field × Nat) : Keep s0 (writeField blk o run v s x) := by
  unfold writeField
  try dsimp only
  repeat' first
    | with_reducible exact h
    | with_reducible assumption
    | with_reducible apply wri_keep
    | with_reducible apply setF_keep
    | with_reducible apply keep_ite
    | split
    | dsimp only
    | (with_reducible refine keep_mk (s := _) ?_ rfl rfl rfl rfl; first | with_reducible exact h | with_reducible assumption | with_reducible apply wri_keep | with_reducible apply setF_keep | with_reducible apply keep_ite | split)

theorem writeFields_keep {s0 s : State} (h : Keep s0 s) (blk : Blk) (a : Nat) (v : Nat) : Keep s0 (writeFields s blk a v) := by
  unfold writeFields
  try dsimp only
  repeat' first
    | with_reducible exact h
    | with_reducible assumption
    | with_reducible apply writeField_keep
    | with_reducible apply keep_ite
    | (with_reducible refine keep_foldl ?_ (fun _ _ _ => ?_))
    | split
    | dsimp only

theorem sliceActs_keep {s0 s : State} (h : Keep s0 s) (old : State) (t : Nat) (p : Nat) (o : Nat) (v : Nat) : Keep s0 (sliceActs old s t p o v) := by
  unfold sliceActs
  try dsimp only
  repeat' first
    | with_reducible exact h
    | with_reducible assumption
    | with_reducible apply wr_keep
    | with_reducible apply clrF_keep
    | with_reducible apply cmpRestart_keep
    | with_reducible apply loadSync_keep
    | with_reducible apply safeEnter_keep
    | with_reducible apply safeRel_keep
    | with_reducible apply drvOvcClear_keep
    | with_reducible apply connectPmu_keep
    | with_reducible apply sliceS_keep
    | with_reducible apply pmuDisconnect_keep
    | with_reducible apply pmuStart_keep
    | with_reducible apply contactStart_keep
    | with_reducible apply keep_ite
    | split
    | (intro _)
    | dsimp only

theorem tileActs_keep {s0 s : State} (h : Keep s0 s) (t : Nat) (o : Nat) (v : Nat) : Keep s0 (tileActs s t o v) := by
  unfold tileActs
  try dsimp only
  repeat' first
    | with_reducible exact h
    | with_reducible assumption
    | with_reducible apply vclkEnable_keep
    | with_reducible apply vclkDisable_keep
    | with_reducible apply vclkArm_keep
    | with_reducible apply vclkCancel_keep
    | with_reducible apply seqArm_keep
    | with_reducible apply seqAbort_keep
    | with_reducible apply seqHold_keep
    | with_reducible apply seqResume_keep
    | with_reducible apply jumpWrite_keep
    | with_reducible apply keep_ite
    | split
    | (intro _)
    | dsimp only

theorem secActs_keep {s0 s : State} (h : Keep s0 s) (q : Nat) (o : Nat) (v : Nat) : Keep s0 (secActs s q o v) := by
  unfold secActs
  try dsimp only
  repeat' first
    | with_reducible exact h
    | with_reducible assumption
    | with_reducible apply wr64_keep
    | with_reducible apply softTrigger_keep
    | with_reducible apply digStopNow_keep
    | with_reducible apply keep_ite
    | split
    | dsimp only

theorem glbActs_keep {s0 s : State} (h : Keep s0 s) (old : State) (a : Nat) (v : Nat) : Keep s0 (glbActs old s a v) := by
  unfold glbActs
  try dsimp only
  repeat' first
    | with_reducible exact h
    | with_reducible assumption
    | with_reducible apply retrainRequest_keep
    | with_reducible apply showQual_keep
    | with_reducible apply refSwitch_keep
    | with_reducible apply timeSet_keep
    | with_reducible apply powerGo_keep
    | with_reducible apply showFaults_keep
    | with_reducible apply disarmAll_keep
    | with_reducible apply eotWrite_keep
    | with_reducible apply abortGo_keep
    | with_reducible apply keep_ite
    | split
    | dsimp only

theorem writeActs_keep {s0 s : State} (h : Keep s0 s) (old : State) (blk : Blk) (a : Nat) (v : Nat) : Keep s0 (writeActs old s blk a v) := by
  unfold writeActs
  try dsimp only
  repeat' first
    | with_reducible exact h
    | with_reducible assumption
    | with_reducible apply contextEnable_keep
    | with_reducible apply contextDisable_keep
    | with_reducible apply ringEnable_keep
    | with_reducible apply ringDisable_keep
    | with_reducible apply sliceActs_keep
    | with_reducible apply tileActs_keep
    | with_reducible apply secActs_keep
    | with_reducible apply glbActs_keep
    | with_reducible apply keep_ite
    | split
    | dsimp only
    | (with_reducible refine keep_mk (s := _) ?_ rfl rfl rfl rfl; first | with_reducible exact h | with_reducible assumption | with_reducible apply contextEnable_keep | with_reducible apply contextDisable_keep | with_reducible apply ringEnable_keep | with_reducible apply ringDisable_keep | with_reducible apply sliceActs_keep | with_reducible apply tileActs_keep | with_reducible apply secActs_keep | with_reducible apply glbActs_keep | with_reducible apply keep_ite | split)

theorem ownWrite_keep_of {s0 s t : State} {who : Option Nat} {blk : Blk} {a v : Nat} (he : ownWrite s who blk a v = some t)
    (h : Keep s0 s) : Keep s0 t := by
  unfold ownWrite at he
  dsimp only at he
  repeat' split at he
  all_goals first
    | (cases he; done)
    | (cases he
       repeat' first
       | with_reducible exact h
       | with_reducible apply keep_ite
       | with_reducible apply warmWrite_keep
       | with_reducible apply siteLcfgWrite_keep
       | with_reducible apply kstatClear_keep
       | with_reducible apply bankSelect_keep
       | with_reducible apply wr_keep
       | with_reducible apply bankFieldWrite_keep
       | with_reducible apply firCoefWrite_keep
       | with_reducible apply firPreset_keep
       | with_reducible apply lgrPoolWrite_keep
       | with_reducible apply acqPoolWrite_keep)


theorem blockWrite_keep {s0 s : State} (h : Keep s0 s) (who : Option Nat) (blk : Blk) (a v : Nat) :
    Keep s0 (blockWrite s who blk a v) := by
  have hk : ∀ x, Keep s0 x → Keep s0 (match ownWrite x who blk a v with
    | some s1 => s1
    | none => writeActs x (writeFields x blk a v) blk a v) := by
    intro x hx
    split
    · rename_i he
      exact ownWrite_keep_of he hx
    · exact writeActs_keep (writeFields_keep hx _ _ _) _ _ _ _
  unfold blockWrite
  dsimp only
  split
  · exact sliceWrite_keep h _ _ _ fun x hx => hk x hx
  · exact hk s h

theorem standardWrite_keep {s0 s : State} (h : Keep s0 s) (a : Nat) (v : Nat) (be : Nat) : Keep s0 (standardWrite s a v be) := by
  unfold standardWrite
  try dsimp only
  repeat' first
    | with_reducible exact h
    | with_reducible assumption
    | with_reducible apply updRings_keep
    | with_reducible apply msixFlush_keep
    | with_reducible apply keep_ite
    | split
    | (intro _)
    | dsimp only
    | (with_reducible refine keep_mk (s := _) ?_ rfl rfl rfl rfl; first | with_reducible exact h | with_reducible assumption | with_reducible apply updRings_keep | with_reducible apply msixFlush_keep | with_reducible apply keep_ite | split)

theorem bar2Write_keep {s0 s : State} (h : Keep s0 s) (o : Nat) (v : Nat) (be : Nat) : Keep s0 (bar2Write s o v be) := by
  unfold bar2Write
  try dsimp only
  repeat' first
    | with_reducible exact h
    | with_reducible assumption
    | with_reducible apply doorbell_keep
    | with_reducible apply headDoor_keep
    | with_reducible apply keep_ite
    | split
    | dsimp only

theorem regWrite_keep {s0 s : State} (h : Keep s0 s) (who : Option Nat) (off : Nat) (v : Nat) (be : Nat) : Keep s0 (regWrite s who off v be) := by
  unfold regWrite
  try dsimp only
  repeat' first
    | with_reducible exact h
    | with_reducible assumption
    | with_reducible apply recordAccess_keep
    | with_reducible apply barWrite_keep
    | with_reducible apply warmAccess_keep
    | with_reducible apply blockWrite_keep
    | with_reducible apply standardWrite_keep
    | with_reducible apply bar2Write_keep
    | with_reducible apply keep_ite
    | split
    | (intro _)
    | dsimp only
    | (with_reducible refine keep_mk (s := _) ?_ rfl rfl rfl rfl; first | with_reducible exact h | with_reducible assumption | with_reducible apply recordAccess_keep | with_reducible apply barWrite_keep | with_reducible apply warmAccess_keep | with_reducible apply blockWrite_keep | with_reducible apply standardWrite_keep | with_reducible apply bar2Write_keep | with_reducible apply keep_ite | split)

theorem execRegisterWrite_keep {s0 s : State} (h : Keep s0 s) (off : Nat) (v : Word) (be : Nat) : OKeep s0 (execRegisterWrite off v be s) := by
  unfold execRegisterWrite
  try dsimp only
  repeat' first
    | with_reducible exact h
    | with_reducible assumption
    | with_reducible apply regWrite_keep
    | with_reducible apply keep_ite
    | with_reducible apply okeep_next
    | with_reducible apply okeep_fault
    | with_reducible apply okeep_ite
    | split
    | dsimp only

theorem clearRead_keep {s0 s : State} (h : Keep s0 s) (b : Blk) (a : Nat) : Keep s0 (clearRead s b a) := by
  unfold clearRead
  try dsimp only
  repeat' first
    | with_reducible exact h
    | with_reducible assumption
    | with_reducible apply wri_keep
    | with_reducible apply keep_ite
    | (with_reducible refine keep_foldl ?_ (fun _ _ _ => ?_))
    | split
    | (intro _)
    | dsimp only

theorem readReg_keep {s0 s : State} (h : Keep s0 s) (b : Blk) (a : Nat) (peek : Bool) : Keep s0 (readReg s b a peek).2 := by
  unfold readReg
  try dsimp only
  repeat' first
    | with_reducible exact h
    | with_reducible assumption
    | with_reducible apply clearRead_keep
    | with_reducible apply keep_ite
    | (with_reducible refine keep_foldl ?_ (fun _ _ _ => ?_))
    | split
    | (intro _)
    | dsimp only
    | (with_reducible refine keep_mk (s := _) ?_ rfl rfl rfl rfl; first | with_reducible exact h | with_reducible assumption | with_reducible apply clearRead_keep | with_reducible apply keep_ite | (with_reducible refine keep_foldl ?_ (fun _ _ _ => ?_)) | split)

theorem readReg_keep_of {s0 s : State} {v} {t : State} (b : Blk) (a : Nat) (peek : Bool) (he : readReg s b a peek = (v, t)) (h : Keep s0 s) : Keep s0 t := by
  have hh := readReg_keep h b a peek
  rw [he] at hh
  exact hh

theorem regRead_keep {s0 s : State} (h : Keep s0 s) (who : Option Nat) (off : Nat) : Keep s0 (regRead s who off).2 := by
  unfold regRead
  try dsimp only
  repeat' first
    | with_reducible exact h
    | with_reducible assumption
    | with_reducible apply recordAccess_keep
    | with_reducible apply readReg_keep
    | (with_reducible refine readReg_keep_of (by with_reducible assumption) ?_)
    | with_reducible apply keep_ite
    | split
    | dsimp only
    | (with_reducible refine keep_mk (s := _) ?_ rfl rfl rfl rfl; first | with_reducible exact h | with_reducible assumption | with_reducible apply recordAccess_keep | with_reducible apply readReg_keep | (with_reducible refine readReg_keep_of (by with_reducible assumption) ?_) | with_reducible apply keep_ite | split)

theorem regRead_keep_of {s0 s : State} {v} {t : State} (who : Option Nat) (off : Nat) (he : regRead s who off = (v, t)) (h : Keep s0 s) : Keep s0 t := by
  have hh := regRead_keep h who off
  rw [he] at hh
  exact hh

theorem hostRead_keep {s0 s : State} (h : Keep s0 s) (off : Nat) (be : Nat) : Keep s0 (hostRead s off be) := by
  unfold hostRead
  try dsimp only
  repeat' first
    | with_reducible exact h
    | with_reducible assumption
    | with_reducible apply regRead_keep
    | (with_reducible refine regRead_keep_of (by with_reducible assumption) ?_)
    | with_reducible apply keep_ite
    | split
    | dsimp only
    | (with_reducible refine keep_mk (s := _) ?_ rfl rfl rfl rfl; first | with_reducible exact h | with_reducible assumption | with_reducible apply regRead_keep | (with_reducible refine regRead_keep_of (by with_reducible assumption) ?_) | with_reducible apply keep_ite | split)

theorem execRegisterRead_keep {s0 s : State} (h : Keep s0 s) (off : Nat) (be : Nat) : OKeep s0 (execRegisterRead off be s) := by
  unfold execRegisterRead
  try dsimp only
  repeat' first
    | with_reducible exact h
    | with_reducible assumption
    | with_reducible apply hostRead_keep
    | with_reducible apply keep_ite
    | with_reducible apply okeep_next
    | with_reducible apply okeep_fault
    | with_reducible apply okeep_ite
    | split
    | dsimp only

theorem execTimeRead_keep {s0 s : State} (h : Keep s0 s) : OKeep s0 (execTimeRead s) := by
  unfold execTimeRead
  try dsimp only
  repeat' first
    | with_reducible exact h
    | with_reducible assumption
    | with_reducible apply hostRead_keep
    | with_reducible apply keep_ite
    | with_reducible apply okeep_next
    | with_reducible apply okeep_fault
    | with_reducible apply okeep_ite
    | split
    | dsimp only

theorem execUpperLatchTimeout_keep {s0 s : State} (h : Keep s0 s) (off : Nat) : OKeep s0 (execUpperLatchTimeout off s) := by
  unfold execUpperLatchTimeout
  try dsimp only
  repeat' first
    | with_reducible exact h
    | with_reducible assumption
    | with_reducible apply keep_ite
    | with_reducible apply okeep_next
    | with_reducible apply okeep_fault
    | with_reducible apply okeep_ite
    | split
    | dsimp only
    | (with_reducible refine keep_mk (s := _) ?_ rfl rfl rfl rfl; first | with_reducible exact h | with_reducible assumption | with_reducible apply keep_ite | with_reducible apply okeep_next | with_reducible apply okeep_fault | with_reducible apply okeep_ite | split)

theorem execMemLdr_keep {s0 s : State} (h : Keep s0 s) (n : TellerIx) : OKeep s0 (execMemLdr n s) := by
  unfold execMemLdr
  try dsimp only
  repeat' first
    | with_reducible exact h
    | with_reducible assumption
    | with_reducible apply loadT_keep
    | with_reducible apply memOp_keep
    | with_reducible apply regRead_keep
    | (with_reducible refine regRead_keep_of (by with_reducible assumption) ?_)
    | with_reducible apply keep_ite
    | with_reducible apply okeep_next
    | with_reducible apply okeep_fault
    | with_reducible apply okeep_ite
    | split
    | (intro _)
    | dsimp only

theorem execMemStr_keep {s0 s : State} (h : Keep s0 s) (n : TellerIx) : OKeep s0 (execMemStr n s) := by
  unfold execMemStr
  try dsimp only
  repeat' first
    | with_reducible exact h
    | with_reducible assumption
    | with_reducible apply memOp_keep
    | with_reducible apply regWrite_keep
    | with_reducible apply keep_ite
    | with_reducible apply okeep_next
    | with_reducible apply okeep_fault
    | with_reducible apply okeep_ite
    | split
    | (intro _)
    | dsimp only

end Sys2Proof.Machine
end

