-- ==== Sys2Proof/Laws/Tellers.lean ====
section
/-! SUPPORT. Tellers: what issuing a part of a microword does. -/
namespace Sys2Proof.Machine

theorem mwBegin_spec {s s1 : State} {n : Nat} (h : mwBegin s n = some s1) :
    s1 = s ∨ (getTel s n).mw = none ∧ s1 = putTel s n { getTel s n with
      mw := some (telReg (getTel s n) (mwASel (telWord s n)), telReg (getTel s n) (mwBSel (telWord s n)), portConds s (getTel s n))
      hold := .none, done := [] } := by
  unfold mwBegin at h
  dsimp only at h
  split at h
  · exact .inl (Option.some.inj h).symm
  · rename_i hm
    split at h
    · cases h
    · exact .inr ⟨hm, (Option.some.inj h).symm⟩

/-- What issuing leaves: only the progress of teller n's microword changes, and A and B are the latched ones. -/
theorem mwBegin_frame {s s1 : State} {n : Nat} (h : mwBegin s n = some s1) :
    TelOnly s s1 n ∧ mwA s1 n = opA s n ∧ mwB s1 n = opB s n ∧ telWord s1 n = telWord s n ∧
    getTel s1 n = { getTel s n with mw := (getTel s1 n).mw, hold := (getTel s1 n).hold, done := (getTel s1 n).done } ∧
    ((getTel s n).mw = none → (getTel s1 n).done = []) ∧ ((getTel s n).mw ≠ none → s1 = s) := by
  unfold mwBegin at h
  dsimp only at h
  split at h
  · rename_i m hm
    cases h
    refine ⟨⟨rfl, fun _ _ => rfl⟩, ?_, ?_, rfl, rfl, ?_, fun _ => rfl⟩
    · simp [mwA, opA, hm]
    · simp [mwB, opB, hm]
    · simp [hm]
  · rename_i hm
    split at h
    · cases h
    · cases h
      refine ⟨⟨rfl, fun m hne => getTel_putTel_ne s _ hne⟩, ?_, ?_, ?_, ?_, ?_, ?_⟩
      · simp [mwA, opA, hm]
      · simp [mwB, opB, hm]
      · simp [telWord, telPc, rd, rdi]
      · simp
      · simp
      · simp [hm]

/-- A part that is ready issues: its effect runs on the state in which the microword has begun and the part is marked. -/
theorem micro_ready {s : State} {n part : Nat} {has : Nat → Bool} {k : State → State} (h : PartReady s n part)
    (hh : has (telWord s n) = true) :
    ∃ s1, mwBegin s n = some s1 ∧ micro s n part has k = k (partDone s1 n part) := by
  obtain ⟨hr, hs, hd, s1, hb, hf, hc⟩ := h
  refine ⟨s1, hb, ?_⟩
  obtain ⟨-, hA, hB, -⟩ := mwBegin_frame hb
  unfold micro
  rw [hA.symm, hB.symm] at hf
  have hd' : ((getTel s n).done.contains part) = false := by simpa using hd
  simp only [hr, hs, hh, hd', hb, hf, bne_self_eq_false, Bool.not_true, Bool.or_false, Bool.false_eq_true, if_false]
  by_cases hcm : mwCommit (telWord s n) = true
  · rcases hc hcm with h0 | h0
    · simp [h0]
    · simp [h0]
  · simp [hcm]

theorem telOnly_trans {s t u : State} {n : Nat} (h : TelOnly s t n) (k : TelOnly t u n) : TelOnly s u n := by
  obtain ⟨h1, h2⟩ := h
  obtain ⟨k1, k2⟩ := k
  refine ⟨?_, fun m hm => (k2 m hm).trans (h2 m hm)⟩
  rw [k1, h1]

theorem telOnly_putTel (s : State) (n : Nat) (x : Teller) : TelOnly s (putTel s n x) n :=
  ⟨rfl, fun _ hm => getTel_putTel_ne s x hm⟩

theorem telOnly_updTel (s : State) (n : Nat) (f : Teller → Teller) : TelOnly s (updTel s n f) n := telOnly_putTel s n _

theorem telWord_telOnly {s t : State} {n : Nat} (h : TelOnly s t n) (hx : (getTel t n).store = (getTel s n).store) :
    telWord t n = telWord s n := by
  obtain ⟨h1, -⟩ := h
  have hr : t.regs = s.regs := by rw [h1]
  simp [telWord, telPc, hx, rd_of_regs hr]

/-- The state in which a ready part's effect runs. -/
theorem begun_frame {s s1 : State} {n part : Nat} (hb : mwBegin s n = some s1) :
    TelOnly s (partDone s1 n part) n ∧ mwA (partDone s1 n part) n = opA s n ∧ mwB (partDone s1 n part) n = opB s n ∧
    telWord (partDone s1 n part) n = telWord s n ∧ part ∈ (getTel (partDone s1 n part) n).done ∧
    getTel (partDone s1 n part) n = { getTel s n with
      mw := (getTel (partDone s1 n part) n).mw
      hold := (getTel (partDone s1 n part) n).hold
      done := (getTel (partDone s1 n part) n).done } := by
  obtain ⟨hT, hA, hB, hW, hx, -, -⟩ := mwBegin_frame hb
  refine ⟨telOnly_trans hT (telOnly_updTel s1 n _), ?_, ?_, ?_, ?_, ?_⟩
  · simpa [partDone, mwA] using hA
  · simpa [partDone, mwB] using hB
  · rw [← hW]; exact telWord_telOnly (telOnly_updTel s1 n _) (by simp [partDone])
  · simp [partDone]
  · simp only [partDone, getTel_updTel]; rw [hx]

theorem telReg_putReg_self (x : Teller) (k v : Nat) (h : v < 2 ^ 64) : telReg (putReg x k v) k = v := by
  unfold telReg putReg
  by_cases hk : k < 24
  · rw [Nat.mod_eq_of_lt h]; simp [hk]
  · rw [Nat.mod_eq_of_lt h]; simp [hk]

theorem telReg_putReg_ne (x : Teller) {k j : Nat} (v : Nat) (h : j ≠ k) : telReg (putReg x k v) j = telReg x j := by
  unfold telReg putReg
  by_cases hk : k < 24
  · by_cases hj : j < 24
    · simp [hk, hj, mapGet_put_ne _ _ _ h]
    · simp [hk, hj]
  · by_cases hj : j < 24
    · simp [hk, hj]
    · have : j - 24 ≠ k - 24 := by omega
      simp [hk, hj, mapGet_put_ne _ _ _ this]

theorem mwWidth_cases (w : Nat) : mwWidth w = 64 ∨ mwWidth w = 32 ∨ mwWidth w = 16 ∨ mwWidth w = 8 := by
  have h : bits w 96 2 < 4 := Nat.mod_lt _ (by decide)
  unfold mwWidth
  generalize bits w 96 2 = b at *
  match b, h with
  | 0, _ => simp
  | 1, _ => simp
  | 2, _ => simp
  | 3, _ => simp

end Sys2Proof.Machine
end

