-- ==== Sys2Proof/Tests/Slice0.lean ====
section
/-! SUPPORT. Tests: ill-formed commands are refused; a concrete state and operands meet the hypotheses of every statement;
single commands give what the spec's own numbers say. -/
-- Elaborated in one thread: the parallel evaluations would ask for more stack than check.sh allows.
set_option Elab.async false
namespace Sys2Proof.Tests
open Sys2Proof Sys2Proof.Machine

/-- Register fields set to values: block base, field, element, value. -/
def fields (s : State) (l : List (Nat × Field × Nat × Nat)) : State := l.foldl (fun s e => wri s e.1 e.2.1 e.2.2.1 e.2.2.2) s

/-- The state after power-on, brought out of power-on reset, with fields set. -/
def up (l : List (Nat × Field × Nat × Nat)) : State := fields (updBoot State.reset fun b => { b with por := false }) l

theorem up_notPending (l : List (Nat × Field × Nat × Nat)) (ks : List Nat) : NotPending (up l) ks := by
  intro k _
  have h : ∀ (l : List (Nat × Field × Nat × Nat)) (s : State), (fields s l).shadow = s.shadow := by
    intro l
    induction l with
    | nil => intro s; rfl
    | cons e l ih => intro s; exact ih (wri s e.1 e.2.1 e.2.2.1 e.2.2.2)
  show mapGet? (up l).shadow k = none
  unfold up
  rw [h]
  rfl

/-- The state a command leads to, if it answers one. -/
def after (c : Instr) (s : State) : Option State :=
  match exec c s with
  | .next t => some t
  | _ => none

/-! ### Ill-formed commands -/

/-- The word of a register's write that is ill formed: not a dword, beyond BAR0, five byte enables. -/
theorem test_wf_registers : wellFormed (.registerWrite 2 0 15) = false ∧ wellFormed (.registerWrite 0x4000000 0 15) = false ∧
    wellFormed (.registerRead 4 16) = false ∧ wellFormed (.upperLatchTimeout 3) = false ∧ wellFormed (.registerWrite 4 0 15) = true := by decide

theorem test_wf_vectors : wellFormed (.tileLaneTransfer 0 true (2 ^ 64) true true) = false ∧ wellFormed (.tilSeqJumpGo 0 4096) = false ∧
    wellFormed (.tilSeqJumpGo 0 4095) = true ∧ wellFormed (.refillData 0 ⟨0, true⟩) = false ∧ wellFormed (.refillData 0 ⟨65537, true⟩) = false ∧
    wellFormed (.compareResult 0 (2 ^ 64) []) = false ∧ wellFormed (.compareResult 0 0 (List.replicate 17 [])) = false := by decide

theorem test_wf_measured : wellFormed (.pmuMeasureDone 0 0 [2 ^ 31] none false) = false ∧
    wellFormed (.pmuMeasureDone 0 0 [-(2 ^ 31)] none false) = true ∧ wellFormed (.pmuMeasureDone 0 0 [] none false) = false ∧
    wellFormed (.contactCheckDone 0 0 (List.replicate 16 (-(2 ^ 31) - 1)) false) = false ∧ wellFormed (.contactCheckDone 0 0 [0] false) = false := by decide

theorem test_wf_link : wellFormed (.linkUp 0 3 0 true) = false ∧ wellFormed (.configAccess true 2 0) = false ∧
    wellFormed (.configAccess true 4096 0) = false ∧ wellFormed (.hostLinkError 0 32) = false ∧ wellFormed (.msixUnmask 2048) = false := by decide

theorem test_wf_host : wellFormed (.hostMemRead (2 ^ 64)) = false ∧ wellFormed (.hostMemWrite 0 (List.replicate 63 0) false) = false ∧
    wellFormed (.hostSnoop (2 ^ 64) (List.replicate 64 0)) = false ∧ wellFormed (.hdmCommit (2 ^ 64) 0 false) = false ∧
    wellFormed (.doeRequest 3 0 []) = false ∧ wellFormed (.biSnoopResponse 0 (some [])) = false := by decide

theorem test_wf_rings : wellFormed (.ringEnable 516) = false ∧ wellFormed (.ringDisable 516) = false ∧ wellFormed (.headIndexWrite 255 0) = false ∧
    wellFormed (.imodTimerExpiry 0) = false ∧ wellFormed (.pageRequestResponse 512 .success) = false ∧ wellFormed (.priTimeout 512) = false ∧
    wellFormed (.atsInvalidate true (2 ^ 20) 0 0) = false ∧ wellFormed (.atsInvalidate true 0 1 0) = false := by decide

theorem test_wf_memory : wellFormed (.hbmTrainingDone (2 ^ 16)) = false ∧ wellFormed (.retrainDone (2 ^ 16)) = false ∧
    wellFormed (.rowIdleClose 0 64) = false ∧ wellFormed (.rowIdleClose 0 63) = true := by decide

theorem test_wf_frames : wellFormed (.timeFrame (List.replicate 63 0) 0) = false ∧ wellFormed (.pdelayReq (List.replicate 64 256) 0) = false ∧
    wellFormed (.pdelayResp [] 0) = false ∧ wellFormed (.bcastFrame [] 0) = false ∧ wellFormed (.msgFrame [] 0) = false ∧
    wellFormed (.snapFrame [] 0) = false ∧ wellFormed (.frameDrop []) = false ∧ wellFormed (.frameDrop (List.replicate 64 255)) = true := by decide

theorem test_wf_care : wellFormed (.calItemDone 0 0 true ⟨10, 0, 0, []⟩) = false ∧ wellFormed (.remapDone 0 [⟨1, 0, 2 ^ 16, []⟩]) = false ∧
    wellFormed (.trackingPass 0 (List.replicate 19 (0, 0, 0))) = false ∧ wellFormed (.housekeepingRound [] [] []) = false ∧
    wellFormed (.railDisagreement 0 true) = false ∧ wellFormed (.injectionInForce (0x29 * 1024)) = false ∧
    wellFormed (.fuseKey .good 0 [256]) = false ∧ wellFormed (.selftestDone [864] []) = false ∧ wellFormed (.selftestDone [863] [239]) = true := by decide

theorem met_StepTakesCommand : State.reset.pending = [] ∧
    (let s := { State.reset with pending := [.smbusTimeout, .wake] }; s.pending = .smbusTimeout :: [.wake] ∧ step s = .next { s with pending := [.wake] }) :=
  ⟨rfl, rfl, rfl⟩

theorem met_CanonicalKept : Canonical State.reset ∧ step State.reset = .next { State.reset with now := 32768 } := ⟨⟨rfl, rfl, rfl⟩, rfl⟩

/-! ### Tellers -/

/-- A microword from the fields that are not 0, each with its lowest bit (R211). -/
def mw (l : List (Nat × Nat)) : Nat := l.foldl (fun w e => w + e.2 * 2 ^ e.1) 0

/-- Teller 191 runs the microword w at address 7, in a role, its routine committed or not. -/
def teller (w role : Nat) (postc : Bool) (f : Teller → Teller) : State :=
  updTel (up [(telB 191, R.TIL_TEL_STAT_STATE, 0, 3), (telB 191, R.TIL_TEL_STAT_ROLE, 0, role), (telB 191, R.TIL_TEL_STAT_POSTC, 0, b2n postc),
    (telB 191, R.TIL_TEL_PC_PC, 0, 7)]) 191 fun x => f { x with store := List.replicate 7 0 ++ [w] }

/-- The conditions of PartReady, as a Bool. -/
def ready (s : State) (n part : Nat) : Bool :=
  tellersRun s && telState s n == 3 && !(getTel s n).done.contains part &&
    match mwBegin s n with
    | none => false
    | some s1 => mwFault s1 n (telWord s n) (opA s n) (opB s n) == none && (!mwCommit (telWord s n) || part == 0 || (getTel s1 n).done.contains 0)

theorem ready_spec {s : State} {n part : Nat} (h : ready s n part = true) : PartReady s n part := by
  unfold ready at h
  simp only [Bool.and_eq_true, beq_iff_eq, Bool.not_eq_true', List.contains_eq_mem, decide_eq_false_iff_not] at h
  obtain ⟨⟨⟨h1, h2⟩, h3⟩, h4⟩ := h
  split at h4
  · exact absurd h4 (by simp)
  · rename_i s1 hs
    simp only [Bool.and_eq_true, beq_iff_eq, Bool.or_eq_true, Bool.not_eq_true', decide_eq_true_eq] at h4
    refine ⟨h1, h2, h3, s1, hs, h4.1, fun hc => ?_⟩
    rcases h4.2 with (h | h) | h
    · rw [hc] at h; exact absurd h (by simp)
    · exact .inl h
    · exact .inr h

/-- Every ALU op issues in a committed routine, on general registers 1 and 2 as A and B, at each width. -/
theorem met_AluLogic_AluArithmetic : ∀ op ∈ List.range 23, ∀ w ∈ [0, 3],
    let s := teller (mw [(136, 1), (113, op), (108, 1), (103, 2), (98, 3), (96, w)]) 0 true id;
    ready s 191 1 = true ∧ mwAlu (telWord s 191) = op := by decide

/-- Every sequencing op but RET, with nothing else in its microword; RET with an address on the micro-stack; the next address 4,095. -/
theorem met_SequencingOps : (∀ op ∈ [1, 2, 3, 4, 6, 7], let s := teller (mw [(136, op), (124, 4095)]) 0 true id;
      ready s 191 8 = true ∧ mwSeq (telWord s 191) = op ∧ mwParts (telWord s 191) = [] ∧ mwNext (telWord s 191) + opA s 191 % 16 ≤ 4095) ∧
    (let s := teller (mw [(136, 5)]) 0 true fun x => { x with stack := [4095] };
      ready s 191 8 = true ∧ mwSeq (telWord s 191) = 5 ∧ mwParts (telWord s 191) = [] ∧ (getTel s 191).stack.headD 0 ≤ 4095) := by decide

theorem met_SiteTimerWaitOps : (∀ op ∈ [1, 2, 3, 4, 5], let s := teller (mw [(136, 1), (8, op)]) 0 true id;
      ready s 191 7 = true ∧ mwSite (telWord s 191) = op) ∧
    (∀ op ∈ [0, 0x16], let s := teller (mw [(136, 1), (113, op)]) 0 true id;
      ready s 191 1 = true ∧ mwAlu (telWord s 191) = op) ∧
    ∀ k ∈ [1, 0x7F, 0x80, 0x83, 0xC0], let s := teller (mw [(136, 1), (24, k)]) 0 true id;
      ready s 191 6 = true ∧ mwWait (telWord s 191) = k := by decide

theorem met_PortReads :
    (let s := teller (mw [(136, 1), (56, 0x20)]) 1 true id; ready s 191 2 = true ∧ mwVec (telWord s 191) / 16 = 2) ∧
    (∀ k ∈ [1, 2, 3], let s := teller (mw [(136, 1), (48, k * 16)]) 2 true id;
      ready s 191 3 = true ∧ mwFail (telWord s 191) / 16 = k ∧ rd s (tileB 47) R.TIL_FAIL_QOCC_OCC = 0) ∧
    (∀ k ∈ [1, 2], let s := teller (mw [(136, 1), (40, k * 16), (64, 0xFFF8)]) 0 true id;
      ready s 191 4 = true ∧ mwMem (telWord s 191) / 16 = k) ∧
    (∀ k ∈ [2, 4], let s := teller (mw [(136, 1), (32, k * 16)]) 0 true id;
      ready s 191 5 = true ∧ mwMsg (telWord s 191) / 16 = k) ∧
    ∀ t ∈ [0, 7, 8], let l : TelLoad := ⟨t, 0, 0, 0, some [1, 2]⟩;
      (getTel (teller 0 0 false fun x => { x with loads := [l] }) 191).loads.find? (·.val.isSome) = some l := by decide

theorem up_canonical (l : List (Nat × Field × Nat × Nat)) (h : mapRising 0 (up l).regs = true) : Canonical (up l) := by
  have k : ∀ (l : List (Nat × Field × Nat × Nat)) (s : State), (fields s l).hostMem = s.hostMem ∧ (fields s l).devMem = s.devMem := by
    intro l
    induction l with
    | nil => intro s; exact ⟨rfl, rfl⟩
    | cons e l ih => intro s; exact ih (wri s e.1 e.2.1 e.2.2.1 e.2.2.2)
  have k1 := k l (updBoot State.reset fun b => { b with por := false })
  exact ⟨by rw [show (up l).hostMem = _ from k1.1]; decide, by rw [show (up l).devMem = _ from k1.2]; decide, h⟩

/-- The memory ops at address 0x200000 past the image slots of sector 0, in the role SPINE, which reaches all of device memory. -/
theorem met_TellerDeviceMemory : ∀ k ∈ [3, 4, 5, 6],
    let s := teller (mw [(136, 1), (40, k * 16), (108, 1), (103, 2)]) 4 true fun x => { x with g := [(1, 64), (2, 0xE000)] };
    ready s 191 4 = true ∧ mwMem (telWord s 191) / 16 = k ∧ Memory.wf s.devMem = true ∧ Memory.wf s.hostMem = true ∧ mapRising 0 s.regs = true ∧
      s.sf = [] := by decide

/-- A message for teller 3 of this device, by number, with epoch e. -/
def message (e : Nat) : List Nat := leBytes 8 (3 * 2 ^ 14 + e * 2 ^ 22) ++ List.replicate 24 7

theorem met_TellerMessages :
    (∀ k ∈ [1, 3, 5], let s := teller (mw [(136, 1), (32, k * 16)]) 0 true fun x => { x with outbox := [[], [], []] };
      ready s 191 5 = true ∧ mwMsg (telWord s 191) / 16 = k ∧ (getTel s 191).outbox.length < 4) ∧
    (let s := teller 0 0 false fun x => { x with outbox := [message 0], slots := [⟨[], false⟩, ⟨[], false⟩, ⟨[], false⟩] };
      (getTel s 191).outbox = [message 0] ∧ (getTel s 191).slots.length < 4) ∧
    (∀ e ∈ [0, 1], let s := teller 0 0 false fun x => { x with slots := [⟨message e, false⟩], reports := [[], [], []] };
      (getTel s 191).slots.find? (fun e => !msgRemote e.msg) = some ⟨message e, false⟩ ∧ msgRoleMode (message e) = false ∧
      msgDst (message e) = 3 ∧ (msgEpoch (message e) = telEpoch s 3 ↔ e = 0) ∧ (getTel s 3).inbox.length < 16 ∧ (getTel s 191).reports.length < 4) := by
  decide

theorem met_RoutineLife :
    (let s := fields (teller 0 1 false fun x => { x with entries := List.replicate 26 0 ++ [0x8FFF], pend := [10] }) [(telB 191, R.TIL_TEL_STAT_STATE, 0, 2)];
      tellersRun s = true ∧ telState s 191 = 2 ∧ pendingEvents s 191 = [10]) ∧
    (let s := teller (mw [(136, 1), (119, 1)]) 0 false id;
      ready s 191 0 = true ∧ mwCommit (telWord s 191) = true ∧ (getTel s 191).loads = [] ∧ (getTel s 191).outbox = [] ∧ postedStores s 191 = 0) ∧
    (let s := fields (teller (mw [(136, 8)]) 0 true id) [(telB 191, R.TIL_TEL_STAT_EVENT, 0, 10)];
      ready s 191 8 = true ∧ mwSeq (telWord s 191) = 8 ∧ mwParts (telWord s 191) = [] ∧ rd s (telB 191) R.TIL_TEL_STAT_EVENT ≠ 0 ∧ s.shadow = []) ∧
    (∀ k ∈ [0x7FFF, 0x8FFF], let s := teller 0 1 false fun x => { x with entries := List.replicate 26 0 ++ [k], timer := some 5 };
      (getTel s 191).timer = some 5 ∧ (entryOf (getTel s 191) (telRole s 191) 0xA = none ↔ k = 0x7FFF)) := by decide

theorem met_TellerHalts :
    (∀ k ∈ [0, 9, 255], let s := teller (mw [(136, k)]) 0 true id;
      telState s 191 = 3 ∧ tellersRun s = true ∧ 8 ∉ (getTel s 191).done ∧ mwBegin s 191 ≠ none ∧ mwSeq (telWord s 191) = k ∧
      flag s (telB 191) R.TIL_TEL_STAT_POSTC = true) ∧
    telState (up [(telB 191, R.TIL_TEL_STAT_STATE, 0, 5)]) 191 = 5 := by decide

/-! ### Pin channels: slice 17 of tile 47, base `b` -/

/-- Base of the registers of tile 47's slice 17. -/
def b17 : Nat := sliceB 47 17

/-- The slice out of its safe state, with fields set and its unregistered state changed. -/
def slice (l : List (Nat × Field × Nat × Nat)) (f : Slice → Slice) : State :=
  let s := up ((b17, R.CHN_STAT_SAFE, 0, 0) :: l)
  putSlice s 47 17 (f (getSlice s 47 17))

theorem up_hostOpen : HostOpen (up []) ∧ isRetired (up []) 47 17 = false := by
  unfold HostOpen
  decide

theorem met_SafeStateEntry :
    (let s := slice [(b17, R.CHN_CTL_CLAMP_EN, 0, 1)] id; HostOpen s ∧ isRetired s 47 17 = false ∧ flag s b17 R.CHN_CTL_CLAMP_EN = true ∧
      flag s b17 R.CHN_STAT_SAFE = false ∧ s.shadow = [] ∧ (getSlice s 47 17).pmu = .idle) ∧
    (let s := slice [] fun x => { x with pmu := .measuring none }; (getSlice s 47 17).pmu = .measuring none) := by
  unfold HostOpen
  decide

theorem met_SafeStateExit :
    (let s := slice [(b17, R.CHN_CTL_CLAMP_EN, 0, 1)] fun x => { x with load := true }
     HostOpen s ∧ isRetired s 47 17 = false ∧ flag s b17 R.CHN_CTL_CLAMP_EN = true ∧ flag s b17 R.CHN_STAT_SAFE = false ∧
      (getSlice s 47 17).load = true) ∧
    (let s := up [(b17, R.CHN_STAT_SC_SW, 0, 1), (b17, R.CHN_STAT_SC_RST, 0, 0)]
     flag s b17 R.CHN_STAT_SAFE = true ∧ [R.CHN_STAT_SC_RST, R.CHN_STAT_SC_CARD, R.CHN_STAT_SC_DEV, R.CHN_STAT_SC_CRIT, R.CHN_STAT_SC_DEP,
       R.CHN_STAT_SC_OVC].any (flag s b17) = false) := by
  unfold HostOpen
  decide

theorem met_Comparator :
    (let s := slice [(b17, R.CHN_CMP_CTL_MODE, 0, 1), (b17, R.CHN_STAT_CMP_RDY, 0, 1)] id
     cmpMode s 47 17 = 1 ∧ flag s b17 R.CHN_STAT_CMP_RDY = true) ∧
    (∀ n ∈ [0, 3, 4, 8], let s := slice [(b17, R.CHN_CMP_CTL_MODE, 0, 2), (b17, R.CHN_CMP_CTL_FILT, 0, n / 4 % 2)] fun x => { x with ticks := n }
     cmpMode s 47 17 = 2) := by decide

theorem met_LevelBanks :
    (let s := slice [] id; HostOpen s ∧ isRetired s 47 17 = false ∧ (getSlice s 47 17).glide = none ∧
      bankValid (wr s b17 R.CHN_BANK_SEL_BANK 3) 47 17 3 = true ∧ rdi s b17 R.CHN_GLIDE_EN 3 = 0) ∧
    (let s := slice [(b17, R.CHN_VOH_CODE, 3, 0), (b17, R.CHN_VOL_CODE, 3, 1)] id
     bankValid (wr s b17 R.CHN_BANK_SEL_BANK 3) 47 17 3 = false) ∧
    (let s := slice [(b17, R.CHN_GLIDE_EN, 3, 1)] id; bankValid (wr s b17 R.CHN_BANK_SEL_BANK 3) 47 17 3 = true ∧ rdi s b17 R.CHN_GLIDE_EN 3 ≠ 0) ∧
    (∀ d ∈ [8, 9], let g : Glide := ⟨0, 3, [], [], 10, d⟩
     let s := slice [] fun x => { x with glide := some g }
     (getSlice s 47 17).glide = some g ∧ (g.done + 1 < g.updates ↔ d = 8) ∧ flag s b17 R.CHN_BANK_STAT_QV = false) := by
  unfold HostOpen
  decide

theorem met_PmuMeasurement_ContactCheck :
    (∀ v ∈ [0, 1], let s := up [(b17, R.CHN_STAT_SAFE, 0, v)]
     sliceRuns s 47 17 = false ∧ flag s b17 R.CHN_PMU_STAT_BUSY = false ∧ (flag s b17 R.CHN_STAT_SAFE = true ↔ v = 1) ∧ (getSlice s 47 17).pmu = .idle) ∧
    (∀ v ∈ [0, 2], let s := slice [(b17, R.CHN_PMU_CTL_MODE, 0, v)] fun x => { x with pmu := .measuring none }
     (getSlice s 47 17).pmu = .measuring none ∧ isRetired s 47 17 = false) ∧
    (let s := slice [] fun x => { x with pmu := .contact [1, 2, 3, 1, 5, 6, 7, 8, 9] none }
     (getSlice s 47 17).pmu = .contact [1, 2, 3, 1, 5, 6, 7, 8, 9] none ∧ flag s b17 R.CHN_STAT_SAFE = false) := by decide

/-- R52: a START under the drive lock of reset is refused with LOCKED; outside it the slice becomes busy. -/
theorem test_pmuStart : ((after (.pmuStart 47 17) (slice [] id)).map fun t => flag t b17 R.CHN_PMU_STAT_LOCKED) = some true ∧
    ((after (.pmuStart 47 17) (slice [(b17, R.CHN_STAT_DRIVE_LOCK, 0, 0)] id)).map fun t => flag t b17 R.CHN_PMU_STAT_BUSY) = some true := by decide

/-- R56: at the reset window, VLO code 819 is -900,024.4 uV and VHI code 5,734 is -300,048.8 uV: judged PASS, OPEN, PASS, SHORT around them. -/
theorem test_contactCheckDone : ∀ x ∈ ([(-900024, 1), (-900025, 2), (-300049, 1), (-300048, 3)] : List (Int × Nat)),
    ((after (.contactCheckDone 47 17 (List.replicate 16 x.1) false) (slice [] fun x => { x with pmu := .contact [1, 2, 3, 1, 5, 6, 7, 8, 9] none })).map
      fun t => rd t b17 R.CHN_CC_RES_RESULT) = some x.2 := by decide

/-! ### Timing: tile 47 -/

def b47 : Nat := tileB 47

/-- A gang of tile 47 alone, led by it. -/
def gang0 : Gang :=
  { tiles := [47], job := none, auto := false, ts := 0, ns := none, genNext := 0, phase := .seg, seg := 0, segStart := 0, emitted := 0
    lastStream := none, holds := [], hostHold := false, thermal := false, resume := none, restart := none, jumps := [], abort := none, stopAt := 0
    status := 0, started := false, restarted := false, anyStarved := false, warn := false, evs := [], sites := [], counted := [], retested := []
    remapped := [], waiting := false }

/-- Tile 47 in sequencer state st under a gang, in state s. -/
def gangIn (s : State) (st : Nat) (f : Gang → Gang) (k : Tile → Tile) : State :=
  putGang (putTile (fields s [(b47, R.TIL_SEQ_STAT_STATE, 0, st)]) 47 (k { getTile s 47 with gang := some 47 })) 47 (f gang0)

theorem met_VectorClock :
    (∀ f ∈ [0x8637BD1, 0x666666666666], let s := up [(b47, R.TIL_VCLK_FTW_LO_FTW, 0, f % 2 ^ 32), (b47, R.TIL_VCLK_FTW_HI_FTW, 0, f / 2 ^ 32)]
     HostOpen s ∧ flag s b47 R.TIL_VCLK_CTL_EN = false ∧ (lawOf s 47).ftw = f) ∧
    (∀ f ∈ [0x8637BD0, 0x666666666667], let s := up [(b47, R.TIL_VCLK_FTW_LO_FTW, 0, f % 2 ^ 32), (b47, R.TIL_VCLK_FTW_HI_FTW, 0, f / 2 ^ 32)]
     flag s b47 R.TIL_VCLK_CTL_EN = false ∧ (lawOf s 47).ftw = f) ∧
    (∀ st ∈ [1, 2], let s := up [(b47, R.TIL_VCLK_CTL_EN, 0, 1), (b47, R.TIL_SEQ_STAT_STATE, 0, st)]
     flag s b47 R.TIL_VCLK_CTL_EN = true ∧ (tileLive s 47 = true ↔ st = 2)) ∧
    (∀ e ∈ [(2000, 8192, none), (1999, 8192, some (0x0350, 1)), (2000, 0, some (0x0150, 2))],
     let s := up [(b47, R.TIL_VCLK_CTL_EN, 0, 1), (b47, R.TIL_VCLK_NFTW_HI_NFTW, 0, e.2.1), (b47, R.TIL_VCLK_NTIME1_NS, 0, e.1)]
     armCheck s (changeTiles s 47) (rd64 s b47 R.TIL_VCLK_NFTW_LO_NFTW R.TIL_VCLK_NFTW_HI_NFTW)
       (rdTime s b47 R.TIL_VCLK_NTIME0_FRAC R.TIL_VCLK_NTIME1_NS R.TIL_VCLK_NTIME2_SECL R.TIL_VCLK_NTIME3_SECH) = e.2.2 ∧
     (getTile s ((changeTiles s 47).headD 0)).pend = none) ∧
    (∀ tc ∈ [usec 2 - 1, usec 2], let s := putTile (up []) 47 { Tile.reset with pend := some ⟨[47], 8192, tc, none⟩ }
     (getTile s 47).pend = some ⟨[47], 8192, tc, none⟩ ∧ (tc < s.now + usec 2 ↔ tc = usec 2 - 1)) := by
  unfold HostOpen
  decide

/-- A window of fret 0, position 15, core 1, waiting for up to four stops, the second of them a falling edge. -/
def window (start openAt closeAt : Nat) (stops : List Nat) (lost : Bool) : TdcWin := ⟨5, 0, start, openAt, closeAt, 4, [0, 1, 0, 0], none, stops, lost, false⟩

/-- Tile 47 with a window and records waiting, the slice of the position SAMPLED with a decided output, LOW. -/
def windowState (w : TdcWin) (q : Nat) (l : List (Nat × Field × Nat × Nat)) : State :=
  putTile (up ((sliceB 47 15, R.CHN_CMP_CTL_MODE, 0, 1) :: (sliceB 47 15, R.CHN_STAT_CMP_RDY, 0, 1) :: (sliceB 47 15, R.CHN_CMP_EVT_HI_STATE, 0, 0) :: (sliceB 47 15, R.CHN_STAT_SAFE, 0, 0) :: l)) 47
    { Tile.reset with tdcWin := [(31, [w])], tdcQ := List.replicate q [] }

/-- No correction brings an edge before the step it was caught in (so at KS 0 it is at unit 0, at KS 3 at unit 768 at the latest). -/
theorem test_stopTime (s : State) (code : Nat) : 0 * 256 - tdcEntry s 47 15 1 code = 0 ∧ 3 * 256 - tdcEntry s 47 15 1 code < 1000 := by omega

theorem met_TdcWindows :
    (∀ stops ∈ [[], [0]], let w := window 0 0 2000 stops false
     let s := windowState w 0 []
     mapGet (getTile s 47).tdcWin 31 [] = [w] ∧ tdcBusy (getTile s 47) 31 w = false ∧ w.stops.length < w.wanted ∧
     w.specs.getD w.stops.length 0 = w.stops.length ∧ (w.openAt ≤ 0 ∧ 0 < w.closeAt) ∧
     ((∃ r ∈ w.stops, (0 - (w.start + r)) * 1953125 < 300000000) ↔ stops = [0])) ∧
    (let s := windowState (window 0 0 2000 [] false) 0 []
     sliceOf s 47 15 = 15 ∧ cmpMode s 47 15 = 1 ∧ flag s (sliceB 47 15) R.CHN_STAT_CMP_RDY = true ∧ rd s (sliceB 47 15) R.CHN_CMP_EVT_HI_STATE ≠ 2) ∧
    (∀ w ∈ [window 900 1000 2000 [600] false, window 0 0 0 [] false], let s := windowState w 0 []
     mapGet (getTile s 47).tdcWin 31 [] = [w] ∧ tdcBusy (getTile s 47) 31 w = false) := by decide

theorem met_TdcWindows_close :
    (∀ v ∈ [0, 1, 2], rd (windowState (window 900 1000 2000 [600] false) 0 [(b47, R.TIL_TDC_CTL_REC, 0, v)]) b47 R.TIL_TDC_CTL_REC = v) ∧
    ∀ n, (getTile (windowState (window 900 1000 2000 [600] false) n []) 47).tdcQ.length = n := ⟨by decide, fun n => List.length_replicate⟩

theorem met_BoundariesAndLanes :
    (∀ tc ∈ [0, 1], let s := putTile (up [(b47, R.TIL_VCLK_CTL_EN, 0, 1)]) 47 { Tile.reset with pend := some ⟨[47], 8192, tc, none⟩ }
     flag s b47 R.TIL_VCLK_CTL_EN = true ∧ pllLost s 3 = false ∧ powerReady s = true ∧ gangOf s 47 = none ∧ (getTile s 47).nextVec < 2 ^ 64 ∧
     (getTile s 47).pend = some ⟨[47], 8192, tc, none⟩ ∧ (tc ≤ boundaryTime s 47 0 ↔ tc = 0) ∧ boundaryTime s 47 0 / 65536 / 1000000000 < 2 ^ 48) ∧
    (getTile (up []) 47).pend = none ∧ (getTile (up []) 47).laneLost = false ∧ (getTile (up []) 47).laneFails = [] ∧ digState (up []) 3 = 0 ∧
    (let s := putTile (up []) 47 { Tile.reset with laneFails := [8, 7], laneLost := true }
     (getTile s 47).laneLost = true ∧ pllLost s 3 = false ∧ depHeld (putTile (up []) 47 Tile.reset) 47 17 = false) ∧
    (let x := (getTile (putTile (up []) 47 { Tile.reset with laneFails := [8, 7] }) 47)
     let fails := 9 :: x.laneFails.filter fun v => v != 9 && decide (9 < v + 256)
     x.laneLost = false ∧ gangOf (up []) 47 = none ∧ 7 ∈ fails ∧ 7 + 1 ∈ fails ∧ 7 + 2 ∈ fails) := by decide

/-- R65: at the reset FTW of 8192 * 2^32, 4 ns a vector, vector 5 starts at 20 ns. -/
theorem test_vectorBoundary : ((after (.vectorBoundary 47) (putTile (up [(b47, R.TIL_VCLK_CTL_EN, 0, 1)]) 47 { Tile.reset with nextVec := 5 })).map
    fun t => (t.now, vcnt t 47)) = some (nsec 20, 5) := by decide

/-! ### Gangs, jobs and ledgers -/

theorem met_GangRequests :
    (∀ st ∈ [2, 3], let s := gangIn (up []) st id id
     gangOf s 47 = some (47, gang0) ∧ gangLive s gang0 = true ∧ HostOpen s ∧ gang0.waiting = false ∧ gang0.abort = none ∧ gang0.hostHold = false ∧
     (gangArmed s gang0 = true ↔ st = 2) ∧ gang0.ns = none ∧ (lawOf s 47).ph0 ≤ 0 ∧ (getTile s 47).nextVec ≤ 0 ∧ s.now ≤ 0 ∧
     0x8637BD1 ≤ (lawOf s 47).ftw ∧ (lawOf s 47).ftw ≤ 0x666666666666) ∧
    (let g := { gang0 with hostHold := true }
     let s := gangIn (up []) 4 (fun _ => g) id
     gangOf s 47 = some (47, g) ∧ gangLive s g = true) ∧
    (let s := putTile (gangIn (up []) 3 id id) 46 { Tile.reset with gang := some 47 }
     gangOf s 46 = some (47, gang0) ∧ gangLive s gang0 = true) ∧
    ∀ op ∈ [1, 3, 4, 5], let s := gangIn (teller (mw [(136, 1), (56, op * 16), (108, 1)]) 1 true fun x => { x with g := [(1, 0xFFF)] }) 3 id id
     gangOf s 47 = some (47, gang0) ∧ gangLive s gang0 = true ∧ ready s 191 2 = true ∧ mwVec (telWord s 191) / 16 = op ∧ opA s 191 = 0xFFF := by
  unfold HostOpen
  decide

/-- With vectors sent past n_r they are withdrawn, with none past it they are not; a hold in force under a thermal one, and alone. -/
theorem met_GangRequests_withdraw :
    (∀ thm ∈ [false, true], ∀ n ∈ [0, 1000000], let g := { gang0 with hostHold := true, thermal := thm, ns := some 0, genNext := n }
     let s := gangIn (up []) 3 (fun _ => g) id
     gangOf s 47 = some (47, g) ∧ gangLive s g = true ∧ gangArmed s g = false ∧ g.tiles.Nodup ∧ (latchVec s g < g.genNext ↔ n ≠ 0)) ∧
    (∀ stop ∈ [0, 1000000], let g := { gang0 with phase := .ending 4, stopAt := stop }
     (latchVec (gangIn (up []) 3 (fun _ => g) id) g < g.stopAt ↔ stop ≠ 0)) := by decide

/-- Both kinds of jump targets, and a target that is no segment. -/
theorem met_JumpTarget (s : State) : JumpTarget s gang0 0xFFF ∧ ¬JumpTarget (up []) gang0 0 := by
  refine ⟨.inl rfl, ?_⟩
  rintro (h | ⟨p, x, h, -, -⟩)
  · exact absurd h (by decide)
  · exact absurd h (by rw [show leaderPat (up []) gang0 = none from by decide]; simp)

/-- Job 5 of ring 0, dispatched, with an opcode, arguments and the bytes it has fetched from host memory. -/
def job (op : Nat) (args : List Nat) (buf : List (Nat × List Nat)) : Job :=
  { sq := 0, cidx := 0, tag := 7, opcode := op, flags := 0, ctx := 0, fence := false, cie := false, args := args, pri := 0, phase := .dispatched
    order := 0, susp := false, buf := buf, units := [], tally := [], rec_ := [], prior := [] }

def starts (s : State) (op : Nat) (args : List Nat) (buf : List (Nat × List Nat)) : State := putJob s 5 (job op args buf)

/-- Its start, as a Bool. -/
def startsOk (s : State) (op : Nat) (args : List Nat) (buf : List (Nat × List Nat)) : Bool :=
  jobReady (starts s op args buf) 5 op == some (job op args buf)

theorem startsOk_spec {s op args buf} (h : startsOk s op args buf = true) : JobStarts (starts s op args buf) 5 op (job op args buf) :=
  ⟨by unfold startsOk at h; simpa using h, rfl, rfl⟩

theorem met_Arming :
    (∀ e ∈ [(0, 1, none), (2 ^ 47, 1, none), (2 ^ 47, 2, some 0x0313)], let s := up [(b47, R.TIL_SEQ_STAT_STATE, 0, e.2.1), (b47, R.TIL_VCLK_CTL_EN, 0, 1)]
     startsOk s 0x11 [e.1, 0, 0] [] = true ∧ maskBits 48 e.1 = (if e.1 = 0 then [] else [47]) ∧
     runCheck (starts s 0x11 [e.1, 0, 0] []) [47] (argTime 0 0) = e.2.2) ∧
    (let s := up [(b47, R.TIL_SEQ_STAT_STATE, 0, 1), (b47, R.TIL_VCLK_CTL_EN, 0, 1)]
     HostOpen s ∧ runBusy s 47 = false ∧ flag s b47 R.TIL_VCLK_CTL_EN = true) := by
  unfold HostOpen
  decide

/-- A pattern of n stream bytes at home and nothing resident. -/
def pat (n : Nat) : Pattern := ⟨false, [], [], [], n, .home (List.replicate n 1), 0, [], [], [], false, []⟩

theorem met_Arming_fill :
    (let g := { gang0 with ts := usec 5, ns := some 3 }
     let s := gangIn (up []) 2 (fun _ => g) fun x => { x with pat := some (pat 4), delivered := 3 }
     gangOf s 47 = some (47, g) ∧ gangArmed s g = true ∧ gangLive s g = true ∧ g.ts ≠ 0 ∧ g.tiles.all (prefilled s) = false ∧
     (getTile s 47).pat = some (pat 4) ∧ (getTile s 47).refillStop = false ∧ 0 < min 1 (min (65536 - 0 - 0) (4 - 3)) ∧ g.phase ≠ .under) ∧
    (let s := gangIn (up []) 2 id fun x => { x with pat := some (pat 4), delivered := 4 }
     (∀ u ∈ gang0.tiles, prefilled s u = true ∧ seqState s u = 2) ∧ gang0.ns = none) := by decide

/-- The event that is due first. -/
theorem met_Segments :
    (∀ e ∈ [GangEv.start 0, .end_ 0 true false, .end_ 0 false true, .end_ 0 false false, .stop], ∀ b ∈ [false, true],
     let g := { gang0 with evs := [(0, e)], genNext := 1, started := b, ns := some 0, status := if b then 0x0314 else 0 }
     let s := gangIn (up []) 2 (fun _ => g) id
     gangOf s 47 = some (47, g) ∧ g.waiting = false ∧ g.evs = [(0, e)] ∧ 0 ≤ (getTile s 47).nextVec ∧ (getTile s 47).nextVec < g.genNext ∧
     g.tiles.Nodup ∧ g.sites = [] ∧ gangArmed s g = true ∧ g.ns ≠ none ∧ g.tiles.all (prefilled s) = true ∧ resultsIn s g = true ∧
     (g.status ≠ 0 ∨ g.auto = false)) := by decide

theorem met_Segments_again :
    (∀ again ∈ [0, 1], let g := { gang0 with waiting := true, sites := [255], auto := true, remapped := [47 * 16] }
     let s := gangIn (up [(b47, R.TIL_SITE_MAP_V, 0, 1), (b47, R.TIL_SITE_MAP_SITE, 0, 255), (siteB 255, R.GLB_SITE_STAT_SUSPECT, 0, again)]) 3 (fun _ => g) id
     gangOf s 47 = some (47, g) ∧ g.waiting = true ∧ remapsPending s g = false ∧ 47 = g.tiles.headD 0 ∧ g.tiles.Nodup ∧ (∀ i ∈ g.sites, i < 256) ∧
     retestSites s g = (if again = 1 then [255] else [])) := by decide

/-- Tile 47 with site 255 at position 15, under a gang that counts the vectors of the list, a compare result of vector 9 due. -/
def compareState (counted : List (Nat × Nat × Nat)) : State :=
  gangIn (up [(b47, R.TIL_SITE_MAP_V, 15, 1), (b47, R.TIL_SITE_MAP_SITE, 15, 255)]) 3 (fun g => { g with counted := counted })
    fun x => { x with await := [⟨9, 1, 2, [], [], [(15, 2, 1)], [], []⟩] }

theorem met_FailUnit_compare :
    (∀ c ∈ [[], [(9, 255, 0)]], let s := compareState c
     gangOf s 47 = some (47, { gang0 with counted := c }) ∧ (getTile s 47).await.find? (·.vec % 2 ^ 16 == 9) = some ⟨9, 1, 2, [], [], [(15, 2, 1)], [], []⟩) ∧
    (∀ y ∈ [((Trit.above, Trit.above), false), ((.below, .below), true), ((.above, .x), true)],
     let samples := List.replicate 15 [] ++ [[y.1]]
     sampleCount (owesMode 2 1) (samples.getD 15 []).length = true ∧
     (failing ⟨9, 1, 2, [], [], [(15, 2, 1)], [], []⟩ (seenSamples (compareState []) 47 ⟨9, 1, 2, [], [], [(15, 2, 1)], [], []⟩ samples)).any
       (fun k => siteAt (compareState []) 47 k == some 255) = y.2) ∧
    (let a : Await := ⟨9, 1, 2, [], [], [(15, 2, 1)], [(15, 0, 0)], []⟩
     cmpMode (compareState []) 47 15 ≠ 1 ∧ (seenSamples (compareState []) 47 a (List.replicate 15 [] ++ [[(.above, .above)]])).getD 15 [] = [(.x, .x)]) ∧
    (getTile (compareState []) 47).failQ.length + 256 ≤ 4096 := by decide

/-- R124, R126: HIGH expected in edge mode fails a LOW sample: the site counts one failing vector; a HIGH sample counts none. -/
theorem test_compareResult : ∀ y ∈ [(Trit.above, 0), (.below, 1)],
    ((after (.compareResult 47 9 (List.replicate 15 [] ++ [[(y.1, y.1)]])) (compareState [])).map
      fun t => rd t (siteB 255) R.GLB_SITE_FCNT_FCNT) = some y.2 := by decide

/-- A journal whose entries never repeat a mask. -/
def distinct (n : Nat) : List (Nat × Nat) := (List.range n).map fun i => (0, i)

theorem distinct_long (n : Nat) : 65536 < n → 65536 < (failList 1 (distinct n)).length := by
  have h : ∀ n, let r := (distinct n).foldl (fun (a : List Nat × FlEnc) x => (a.1 ++ (flStep ((1 + 7) / 8) a.2 x).1, (flStep ((1 + 7) / 8) a.2 x).2)) ([], ⟨0, 1, none, none, 0⟩)
      n ≤ r.1.length + 1 ∧ (∀ m, r.2.m = some m → m < n) ∧ (0 < n → r.2.tok ≠ none) ∧ (n = 0 → r.2.m = none) := by
    intro n
    induction n with
    | zero => exact ⟨by decide, by intro m h; exact absurd h (by simp [distinct]), by decide, fun _ => rfl⟩
    | succ n ih =>
      simp only [distinct, List.range_succ, List.map_append, List.map_cons, List.map_nil, List.foldl_append, List.foldl_cons, List.foldl_nil] at ih ⊢
      generalize ((List.range n).map fun i => (0, i)).foldl _ _ = r at ih ⊢
      obtain ⟨h1, h2, h3, h4⟩ := ih
      have hm : (r.2.m == some n) = false := by
        rw [beq_eq_false_iff_ne]
        intro h
        exact absurd (h2 n h) (Nat.lt_irrefl n)
      simp only [flStep, hm, Bool.false_and, Bool.false_eq_true, if_false]
      refine ⟨?_, fun m h => ?_, fun _ => by simp, fun h => by omega⟩
      · by_cases hn : n = 0
        · subst hn
          simp
        · have h5 := h3 (by omega)
          cases ht : r.2.tok with
          | none => exact absurd ht h5
          | some t =>
            simp only [flFlush, ht, tokBytes, List.length_append, List.length_cons]
            omega
      · have : n = m := by simpa using h
        omega
  intro hn
  have h1 := (h n).1
  simp only [failList, List.length_append, List.length_cons, List.length_nil]
  omega

/-- Tile 47 owes an entry of site 255, whose journal in sector 3 holds a list, in a form. -/
def journalState (form : Nat) (l : List (Nat × Nat)) (cap : Nat) : State :=
  putSite (putTile (up [(siteB 255, R.GLB_SITE_LCFG_FORM, 0, form)]) 47 { Tile.reset with failQ := [⟨9, 255, 3, 1⟩] }) 255
    { Site.reset with cap := cap, parts := [⟨[], [], [], 0⟩, ⟨[], [], [], 0⟩, ⟨[], [], [], 0⟩, ⟨[], [], l, 3⟩] }

theorem met_FailUnit_journal :
    (∀ form ∈ [0, 1], ∀ cap ∈ [3, 4, 5], let s := journalState form [] cap
     47 ∈ tilesOfSector 3 ∧ (getTile s 47).failQ = [⟨9, 255, 3, 1⟩] ∧ (∀ v ∈ tilesOfSector 3, v ≠ 47 → (getTile s v).failQ = []) ∧
     (getSite s 255).parts.length = 4 ∧ (siteForm s 255 = 0 ↔ form = 0) ∧ (capReached s 255 3 = true ↔ cap = 3) ∧
     ((getSite s 255).cap ≤ (partOf (getSite s 255) 3).count + 1 ↔ cap ≤ 4)) ∧
    65536 < (failList 1 (distinct 65537)).length :=
  ⟨by decide, distinct_long 65537 (by decide)⟩

theorem met_FailUnit_pools :
    (∀ e ∈ [(31, false), (32, true)], let s := up ((List.range 4).map fun q => (secB q, R.SEC_LGR_SIZE_SIZE, 0, e.1))
     HostOpen s ∧ siteActive s 255 = false ∧ flag s glb R.HAT_HDM_STAT_BIPEND = false ∧
     ledgerPages 1 0 0 1 (rd s (siteB 255) R.GLB_SITE_CAP_CAP) = 32 ∧ ((∀ q, q < 4 → 32 ≤ poolRoom s 255 q) ↔ e.2 = true)) ∧
    (let g := { gang0 with sites := [255] }
     let s := gangIn (up []) 3 (fun _ => g) id
     siteActive s 255 = true) ∧
    (∀ i ∈ List.range 256, siteForm (up []) i = 0) ∧ siteForm (up [(siteB 255, R.GLB_SITE_LCFG_FORM, 0, 1)]) 255 ≠ 0 ∧
    digState (up []) 3 = 0 ∧ readSegsRuns (up []) 3 = false ∧ digState (up [(secB 3, R.DIG_STAT_STATE, 0, 1)]) 3 ≠ 0 := by
  unfold HostOpen
  decide +kernel

/-- Device memory is open to jobs from host address 0 up. -/
def hdmUp (s : State) : State := { setF s glb R.HAT_HDM_STAT_COMMITTED with hdmProg := some 0, memEn := true }

/-- Site 255 has a ledger of a form. -/
def ledgerUp (form : Nat) : State := hdmUp (up [(siteB 255, R.GLB_SITE_LCFG_FORM, 0, form)])

theorem met_canonical : Memory.wf (ledgerUp 1).devMem = true ∧ Memory.wf (ledgerUp 1).hostMem = true ∧ mapRising 0 (ledgerUp 1).regs = true := by decide

theorem met_LedgerJobs_upload :
    (∀ e ∈ [(0, 0x11FF), (1, 0x01FF), (1, 0x10FF)], let a := [e.2, 0x1000, 40]
     startsOk (ledgerUp e.1) 0x40 a [] = true ∧ earlierSiteJob (starts (ledgerUp e.1) 0x40 a []) 5 255 = false ∧
     (siteForm (ledgerUp e.1) 255 = 0 ∨ bits e.2 12 2 = 0 ∨ bits e.2 8 4 = 0) ∧ bits e.2 0 8 = 255) ∧
    (∀ n ∈ [1, 39, 40], let a := [0x11FF, 0x1000, n]
     let s := starts (ledgerUp 1) 0x40 a []
     startsOk (ledgerUp 1) 0x40 a [] = true ∧ siteForm s 255 ≠ 0 ∧ siteInGang s 255 = false ∧ (∀ q ∈ maskBits 4 1, ledgerBad s 255 q = false) ∧
     bodyLen s 255 1 (maskBits 4 1) = 8 ∧
     ((uploadHeader (siteJoin s 5 [255]) 255 1 1 ++ bodyBytes s 255 1 (maskBits 4 1) (min 8 (n - 32))).take n).length = n ∧
     allDev s (job 0x40 a []) 0x1000 n = some 0x1000) ∧
    (let g := { gang0 with sites := [255] }
     siteInGang (gangIn (ledgerUp 1) 3 (fun _ => g) id) 255 = true) := by decide

/-- A table at host address 0x1000: the sites of the mask, then records. -/
def table (n mask : Nat) (recs : List Nat) : List (Nat × List Nat) := [(0x1000, leBytes n mask ++ recs)]

/-- A region of R152: rows 0 to 1, columns x0 to 1, input/output 0, one spare each. -/
def region (x0 : Nat) : List Nat := leBytes 8 (x0 + 2 ^ 32) ++ leBytes 8 (2 ^ 32) ++ leBytes 8 1 ++ leBytes 8 (1 + 256)

theorem met_LedgerJobs_repair : ∀ e ∈ [(0, false), (2, true)],
    let a := [0x1000, 2 ^ 32, 0x2000]
    let b := table 32 (2 ^ 255) (region e.1)
    let s := starts (ledgerUp 1) 0x41 a b
    startsOk (ledgerUp 1) 0x41 a b = true ∧ jobBytes s (job 0x41 a b) 0x1000 64 = .ok (leBytes 32 (2 ^ 255) ++ region e.1) ∧
    (maskBits 256 (2 ^ 255)).any (earlierSiteJob s 5) = false ∧ leNat (leBytes 32 (2 ^ 255)) = 2 ^ 255 ∧ bits (2 ^ 32) 32 32 ≠ 0 ∧
    (regionsOf 1 (region e.1)).any regionReserved = false ∧
    (((regionsOf 1 (region e.1)).map regionOf).any (·.2) || anyMeet (((regionsOf 1 (region e.1)).map regionOf).map (·.1))) = e.2 ∧
    ((maskBits 256 (2 ^ 255)).filter fun i => siteForm s i != 0) = [255] ∧ siteInGang s 255 = false ∧
    (∀ q ∈ [0, 1, 2, 3], ledgerBad s 255 q = false) := by decide +kernel

theorem met_LedgerJobs_search : ∀ budget ∈ [0, 1],
    let a := [0x1000, 2 ^ 32, 0x2000, 0, budget]
    let b := table 32 (2 ^ 255 + 1) (region 0)
    let x := { job 0x41 a b with phase := .running, units := [255, 0] }
    let s := putJob (ledgerUp 1) 5 x
    jobReady s 5 0x41 = some x ∧ x.phase = .running ∧ x.units = [255, 0] ∧ (arg x 4 = 0 ↔ budget = 0) ∧
    jobBytes s x (arg x 0) 64 = .ok (leBytes 32 (2 ^ 255 + 1) ++ region 0) := by decide +kernel

/-- A limit of R149: input i between 0 and 9, inside, bin 1. -/
def limit (i hi lo : Nat) : List Nat := leBytes 8 (i + 2 ^ 8 + 2 ^ 16) ++ leBytes 8 (lo + hi * 2 ^ 32)

theorem met_LedgerJobs_bin : ∀ e ∈ [(limit 0 9 0, true), (limit 5 9 9, true), (limit 6 9 0, false), (limit 0 0 9, false)],
    let a := [0x1000, 0, 0x2000]
    let b := table 32 (2 ^ 255) e.1
    let s := starts (ledgerUp 1) 0x42 a b
    startsOk (ledgerUp 1) 0x42 a b = true ∧ jobBytes s (job 0x42 a b) 0x1000 48 = .ok (leBytes 32 (2 ^ 255) ++ e.1) ∧
    (maskBits 256 (2 ^ 255)).any (earlierSiteJob s 5) = false ∧ maskBits 256 (2 ^ 255) = [255] ∧ (limitsOf 1 e.1).any limitReserved = false ∧
    ((∀ m ∈ (limitsOf 1 e.1).map limitOf, m.input ≤ 5 ∧ m.lo ≤ m.hi) ↔ e.2 = true) ∧ siteInGang s 255 = false ∧
    allDev s (job 0x42 a b) (0x2000 + 255) 1 = some (0x2000 + 255) := by decide +kernel

/-! LOAD_PATTERN: an image of one segment of one vector, from the dictionary. -/

/-- The image before its 960866851 and after it. -/
def imageHead : List Nat :=
  leBytes 8 (0x5C70 + 2 ^ 16) ++ leBytes 4 64 ++ leBytes 4 80 ++ leBytes 4 96 ++ leBytes 4 2 ++ leBytes 4 112 ++ leBytes 4 0 ++ leBytes 4 112 ++ leBytes 4 0
def imageTail : List Nat :=
  leBytes 4 928 ++ leBytes 16 0 ++ leBytes 8 (0xFFF * 2 ^ 12 + 2 ^ 32) ++ leBytes 8 (2 * 2 ^ 32) ++ leBytes 16 0 ++ [0x40, 0] ++ leBytes 14 0 ++
  leBytes 160 0 ++ (List.replicate 16 [1, 0, 0, 0]).flatten ++ List.replicate 592 0

def blank : List Nat := imageHead ++ ([0, 0, 0, 0] ++ imageTail)
def image : List Nat := imageHead ++ (leBytes 4 960866851 ++ imageTail)

/-- A fold over a list from place i goes on from place j. -/
theorem fold_at {f : Nat → Nat → Nat} {l : List Nat} {a b i : Nat} (n : Nat) (h : ((l.drop i).take n).foldl f a = b) :
    (l.drop i).foldl f a = (l.drop (i + n)).foldl f b := by
  rw [← h, ← List.drop_drop, ← List.foldl_append, List.take_append_drop]

/-! The CRC-32 of the image, 58 bytes at a time. -/

theorem crc_0 : (blank.drop 0).foldl crc32Byte 4294967295 = (blank.drop 58).foldl crc32Byte 2417500486 := fold_at 58 (by decide +kernel)
theorem crc_1 : (blank.drop 58).foldl crc32Byte 2417500486 = (blank.drop 116).foldl crc32Byte 2164014872 := fold_at 58 (by decide +kernel)
theorem crc_2 : (blank.drop 116).foldl crc32Byte 2164014872 = (blank.drop 174).foldl crc32Byte 3042192338 := fold_at 58 (by decide +kernel)
theorem crc_3 : (blank.drop 174).foldl crc32Byte 3042192338 = (blank.drop 232).foldl crc32Byte 2808476882 := fold_at 58 (by decide +kernel)
theorem crc_4 : (blank.drop 232).foldl crc32Byte 2808476882 = (blank.drop 290).foldl crc32Byte 1514809707 := fold_at 58 (by decide +kernel)
theorem crc_5 : (blank.drop 290).foldl crc32Byte 1514809707 = (blank.drop 348).foldl crc32Byte 1635794705 := fold_at 58 (by decide +kernel)
theorem crc_6 : (blank.drop 348).foldl crc32Byte 1635794705 = (blank.drop 406).foldl crc32Byte 74767209 := fold_at 58 (by decide +kernel)
theorem crc_7 : (blank.drop 406).foldl crc32Byte 74767209 = (blank.drop 464).foldl crc32Byte 2874638261 := fold_at 58 (by decide +kernel)
theorem crc_8 : (blank.drop 464).foldl crc32Byte 2874638261 = (blank.drop 522).foldl crc32Byte 2747426128 := fold_at 58 (by decide +kernel)
theorem crc_9 : (blank.drop 522).foldl crc32Byte 2747426128 = (blank.drop 580).foldl crc32Byte 3957940499 := fold_at 58 (by decide +kernel)
theorem crc_10 : (blank.drop 580).foldl crc32Byte 3957940499 = (blank.drop 638).foldl crc32Byte 3100321664 := fold_at 58 (by decide +kernel)
theorem crc_11 : (blank.drop 638).foldl crc32Byte 3100321664 = (blank.drop 696).foldl crc32Byte 711561182 := fold_at 58 (by decide +kernel)
theorem crc_12 : (blank.drop 696).foldl crc32Byte 711561182 = (blank.drop 754).foldl crc32Byte 2815909396 := fold_at 58 (by decide +kernel)
theorem crc_13 : (blank.drop 754).foldl crc32Byte 2815909396 = (blank.drop 812).foldl crc32Byte 3800876018 := fold_at 58 (by decide +kernel)
theorem crc_14 : (blank.drop 812).foldl crc32Byte 3800876018 = (blank.drop 870).foldl crc32Byte 3912182057 := fold_at 58 (by decide +kernel)
theorem crc_15 : (blank.drop 870).foldl crc32Byte 3912182057 = (blank.drop 928).foldl crc32Byte 3334100444 := fold_at 58 (by decide +kernel)

theorem crc32_eq {l : List Nat} {c : Nat} (h : l.foldl crc32Byte 0xFFFFFFFF = c) : crc32 l = c ^^^ 0xFFFFFFFF := by
  rw [crc32, h]

theorem blank_fold : blank.foldl crc32Byte 0xFFFFFFFF = 3334100444 := by
  rw [← List.drop_zero (l := blank), crc_0, crc_1, crc_2, crc_3, crc_4, crc_5, crc_6, crc_7, crc_8, crc_9, crc_10, crc_11, crc_12, crc_13, crc_14, crc_15, List.drop_eq_nil_of_le (by decide +kernel), List.foldl_nil]

theorem blank_crc : crc32 blank = 960866851 := (crc32_eq blank_fold).trans (by decide)

theorem image_status : imageStatus image = none := by
  unfold imageStatus headerBad
  have h1 : image.take 40 = imageHead := List.take_left' (by decide)
  have h2 : image.drop 44 = imageTail := by
    rw [show image = (imageHead ++ leBytes 4 960866851) ++ imageTail from (List.append_assoc ..).symm]
    exact List.drop_left' (by decide)
  rw [h1, h2, List.append_assoc, show imageHead ++ ([0, 0, 0, 0] ++ imageTail) = blank from rfl, blank_crc]
  decide +kernel

/-- A job on a ring without PASID, with ATS off and no decoder range, sees the bytes it has fetched. -/
theorem jobBytes_fetched {s : State} {x : Job} {va : Nat} {l : List Nat} {rest : List (Nat × List Nat)} (hx : x.buf = (va, l) :: rest)
    (h1 : flag s glb R.XLT_STAT_ATS_EN = false) (h2 : jobPv s x = false) (h3 : s.hdmProg = none) : jobBytes s x va l.length = .ok l := by
  have hb : ∀ k, (h : k < l.length) → jobByte s x (va + k) = .ok [l[k]] := by
    intro k h
    simp [jobByte, resolveJob, resolve, h1, h2, classify, inHdm, h3, hx, bufByte, h]
  have h : ∀ n k, k + n = l.length → jobBytes s x (va + k) n = .ok (l.drop k) := by
    intro n
    induction n with
    | zero => intro k hk; rw [List.drop_eq_nil_of_le (by omega)]; rfl
    | succ n ih =>
      intro k hk
      have e := ih (k + 1) (by omega)
      rw [← Nat.add_assoc] at e
      simp only [jobBytes, hb k (by omega), e]
      rw [List.drop_eq_getElem_cons (by omega : k < l.length)]
      rfl
  simpa using h l.length 0 (by omega)

/-- The job's one table entry: an image of n bytes at 0x4000, for tile 47. -/
def loadTable (n : Nat) : List Nat := leBytes 8 0x4000 ++ leBytes 8 (n + 47 * 2 ^ 32)

/-- The job that has fetched an image and its table. -/
def loadJob (l : List Nat) : Job := job 0x10 [0x1000, 0] [(0x4000, l), (0x1000, loadTable l.length)]

theorem loadJob_starts (l : List Nat) : JobStarts (putJob (up []) 5 (loadJob l)) 5 0x10 (loadJob l) := ⟨rfl, rfl, rfl⟩

theorem met_LoadPattern_image :
    let s := putJob (up []) 5 (loadJob image)
    JobStarts s 5 0x10 (loadJob image) ∧ jobBytes s (loadJob image) 0x4000 928 = .ok image ∧ imageStatus image = none :=
  ⟨loadJob_starts image, by
    have h : image.length = 928 := by decide +kernel
    rw [← h]
    exact jobBytes_fetched rfl (by decide) rfl rfl, image_status⟩

theorem met_LoadPattern_table : ∀ l ∈ [[], [0]],
    let s := putJob (up []) 5 (loadJob l)
    jobBytes s (loadJob l) 0x1000 16 = .ok (loadTable l.length) ∧ loadEntries 1 (loadTable l.length) = [⟨0x4000, l.length, 47, false, 0, false⟩] ∧
    tileBusy s 47 = false ∧ rateShort s [⟨0x4000, l.length, 47, false, 0, false⟩] = false ∧ imageStatus l = some 0x0110 := by decide +kernel

/-- COUNT 48 asks for 49 entries. -/
theorem met_LoadPattern_entries : startsOk (up []) 0x10 [0x1000, 48] [] = true ∧ 48 < bits (arg (job 0x10 [0x1000, 48] []) 1) 0 6 + 1 := by decide

/-- The image of one vector leaves its sector room; beside a full pattern area it does not. -/
theorem met_LoadPattern_room : ((List.range 4).any fun q => areaShort (up []) q [(⟨0x4000, 928, 47, false, 0, false⟩, image)]) = false ∧
    tileBusy (gangIn (up []) 3 id id) 47 = true := by decide +kernel

/-- Tile 36 holds a pattern whose stream fills the sector's pattern area. -/
def fullSector (l : List Nat) : State := putTile (up []) 36 { Tile.reset with pat := some { pat 0 with src := .home l } }

theorem le_sum {n : Nat} {l : List Nat} (h : n ∈ l) (a : Nat) : n ≤ l.foldl (· + ·) a := by
  have hm : ∀ (l : List Nat) (a : Nat), a ≤ l.foldl (· + ·) a := by
    intro l
    induction l with
    | nil => intro a; exact Nat.le_refl a
    | cons b l ih => intro a; exact Nat.le_trans (Nat.le_add_right a b) (ih (a + b))
  induction l generalizing a with
  | nil => exact absurd h List.not_mem_nil
  | cons b l ih =>
    rcases List.mem_cons.1 h with rfl | h
    · exact Nat.le_trans (Nat.le_add_left _ a) (hm l _)
    · exact ih h _

theorem met_LoadPattern_full (l : List Nat) (h : 0x8000000 ≤ l.length) :
    areaShort (fullSector l) 3 [(⟨0x4000, 928, 47, false, 0, false⟩, image)] = true := by
  have h0 : homeBytes (getTile (fullSector l) 36).pat = l.length := rfl
  have h1 : 0 < imgStreamLen image := by decide +kernel
  unfold areaShort
  rw [Nat.blt_eq]
  refine (Nat.lt_of_lt_of_le (Nat.lt_add_of_pos_right h1) (Nat.add_le_add (Nat.le_trans h ?_) ?_))
  · rw [← h0]
    apply le_sum
    exact List.mem_map.2 ⟨36, by decide +kernel, rfl⟩
  · apply le_sum
    exact List.mem_map.2 ⟨(⟨0x4000, 928, 47, false, 0, false⟩, image), List.mem_filter.2 ⟨List.mem_cons_self, by decide⟩, rfl⟩

/-- Six tiles that read 64 units each leave no rate for one more host stream. -/
theorem met_LoadPattern_rate :
    let s := (List.range 6).foldl (fun s t => putTile s t { Tile.reset with pat := some { pat 0 with src := .host 0 false 0 0, rate := 4000000000 } }) (up [])
    rateShort s [⟨0x4000, 928, 47, true, 64, false⟩] = true := by decide +kernel

theorem met_PeriodAndMeasureJobs_period : ∀ e ∈ [(0, 2000, none), (2 ^ 47, 2000, none), (2 ^ 47, 1999, some (0x0350, 1))],
    let a := [e.1, 2 ^ 45, e.2.1 * 2 ^ 16, 0]
    let s := starts (up [(b47, R.TIL_VCLK_CTL_EN, 0, 1)]) 0x12 a []
    startsOk (up [(b47, R.TIL_VCLK_CTL_EN, 0, 1)]) 0x12 a [] = true ∧ ((List.range 48).filter e.1.testBit = if e.1 = 0 then [] else [47]) ∧
    armCheck s [47] (2 ^ 45) (argAt (job 0x12 a []) 2) = e.2.2 ∧ (getTile s 47).pend = none := by decide

/-- Channel 767 is position 15 of tile 47. -/
theorem met_PeriodAndMeasureJobs_measure : ∀ op ∈ [0x20, 0x21], ∀ mode ∈ [0, 1, 2, 3], ∀ e ∈ [(0, 0, false), (0, 1, false), (1, 0, false), (0, 0, true)],
    let a := [0x1000, mode, 0, 0]
    let b := [(0x1000, leBytes 96 (2 ^ 767))]
    let sl := sliceB 47 15
    let s := starts (up [(sl, R.CHN_STAT_SAFE, 0, e.1), (sl, R.CHN_STAT_SC_RST, 0, e.1), (sl, R.CHN_STAT_DRIVE_LOCK, 0, e.2.1), (sl, R.CHN_PMU_STAT_BUSY, 0, b2n e.2.2)]) op a b
    jobReady s 5 op = some (job op a b) ∧ jobBytes s (job op a b) 0x1000 96 = .ok (leBytes 96 (2 ^ 767)) ∧
    ((List.range 768).filter fun c => ((leBytes 96 (2 ^ 767)).getD (c / 8) 0).testBit (c % 8)) = [767] ∧ sliceOf s 47 15 = 15 ∧ tileLive s 47 = false ∧
    (flag s sl R.CHN_PMU_STAT_BUSY = e.2.2) ∧ (!flag s sl R.CHN_STAT_DRIVE_LOCK && !flag s sl R.CHN_STAT_SAFE) = (e.1 + e.2.1 == 0) ∧
    (!(flag s sl R.CHN_STAT_SAFE && anyCause s 47 15)) = (e.1 == 0) := by decide +kernel

/-! ### Digitizers: sector 3 -/

def d3 : Nat := secB 3

/-- Digitizer 3 in a state, with fields and unregistered state. -/
def dig (st : Nat) (l : List (Nat × Field × Nat × Nat)) (f : Dig → Dig) : State := putDig (up ((d3, R.DIG_STAT_STATE, 0, st) :: l)) 3 (f Dig.reset)

theorem met_Triggers :
    (let s := dig 3 [(d3, R.DIG_TRIG_EN_ANALOG, 0, 1), (d3, R.SEC_TAP_EN, 0, 1)] id
     flag s d3 R.DIG_TRIG_EN_ANALOG = true ∧ rdi s d3 R.SEC_TAP_EN (rd s d3 R.DIG_TRIG_LVL_LINE) = 1 ∧
     LineCrosses s 3 (sampleCode s 3 0 (-500000000)) (sampleCode s 3 0 500000000) ∧ ¬LineCrosses s 3 (sampleCode s 3 0 7) (sampleCode s 3 0 7)) ∧
    (let s := dig 3 [(d3, R.DIG_TRIG_EN_CMP, 0, 1), (d3, R.DIG_TRIG_SRC_CCH, 0, 191), (sliceB 47 15, R.CHN_STAT_SAFE, 0, 0),
       (sliceB 47 15, R.CHN_CMP_CTL_MODE, 0, 1), (sliceB 47 15, R.CHN_STAT_CMP_RDY, 0, 1)] id
     let c := 192 * 3 + rd s d3 R.DIG_TRIG_SRC_CCH
     flag s d3 R.DIG_TRIG_EN_CMP = true ∧ c = 767 ∧ sliceOf s 47 15 = 15 ∧ cmpMode s 47 15 = 1 ∧ flag s (sliceB 47 15) R.CHN_STAT_CMP_RDY = true ∧
     cmpEdge s 47 15 (cmpSource s 47 15 .below .below) (cmpSource s 47 15 .above .below) = true ∧
     cmpEdge s 47 15 (cmpSource s 47 15 .x .below) (cmpSource s 47 15 .above .below) = false) ∧
    HostOpen (dig 3 [] id) ∧ (getDig (dig 3 [] fun d => { d with autoAt := some 7 }) 3).autoAt = some 7 ∧
    (let d := getDig (dig 3 [] fun d => { d with bcast := [9, 7] }) 3
     7 ∈ d.bcast ∧ ∀ x ∈ d.bcast, 7 ≤ x) := by
  unfold HostOpen LineCrosses
  decide

/-- The judgements of a trigger at instant 20,480 (sample 2 of 10,240): while stopped; before the last one; inside the holdoff; too near the last
sample of an open segment; with too few samples; with enough. -/
theorem met_TriggerJudged :
    (∀ e ∈ [0, 1, 2, 4], digState (dig e [] id) 3 = e) ∧
    (∀ x ∈ [20480, 20481], (getDig (dig 3 [] fun d => { d with lastTau := some x }) 3).lastTau = some x ∧ ((20480 < x) ↔ x = 20481)) ∧
    (∀ x ∈ [20480, 20481], ((getDig (dig 3 [] fun d => { d with holdEnd := x }) 3).holdEnd ≤ 20480 ↔ x = 20480)) ∧
    (let d := getDig (dig 4 [] fun d => { d with endAt := some 0 }) 3
     d.endAt = some 0 ∧ ¬(0 + nsec 32 ≤ 20480) ∧ 0 + nsec 32 ≤ nsec 32) ∧
    (∀ e ∈ [(3, true), (4, false)], let s := dig 3 [(d3, R.DIG_PRE_PRE, 0, e.1)] id
     digTout s 3 = 10240 ∧ (trigSample (digTout s 3) 20480).1 = 2 ∧ (getDig s 3).fillJ ≤ 2 + 1 ∧ flag s d3 R.DIG_CFG_POLICY = false ∧
     (rd s d3 R.DIG_PRE_PRE ≤ (trigSample (digTout s 3) 20480).1 + 1 - (getDig s 3).fillJ ↔ e.2 = true)) ∧
    (let u : DigUndo := ⟨2, 9, 2, 3, none, none, none, none, 0, false, false⟩
     let s := { dig 4 [] (fun d => { d with undo := some u, lastTau := some 20479 }) with now := 20480 }
     (getDig s 3).undo = some u ∧ digState s 3 = 4 ∧ s.now / digTout s 3 = u.sample ∧ u.src ≠ 0xA) := by decide

theorem met_Triggers_trigIn :
    (∀ pol ∈ [0, 8], let s := dig 3 [(d3, R.DIG_TRIG_EN_TIN, 0, 8), (d3, R.DIG_TRIG_SRC_TINPOL, 0, pol)] id
     s.boot.por = false ∧ powerReady s = true ∧ sealed s = false ∧ (rd s d3 R.DIG_TRIG_EN_TIN).testBit 3 = true ∧
     ((rd s d3 R.DIG_TRIG_SRC_TINPOL).testBit 3 = true ↔ pol = 8)) ∧
    (let s := gangIn (up [(b47, R.TIL_SEQ_JTRIG_EN, 3, 1), (b47, R.TIL_SEQ_JTRIG_TARGET, 3, 0xFFF)]) 3 id id
     mapRising 0 s.gangs = true ∧ getGang? s 47 = some gang0 ∧ gangLive s gang0 = true ∧ gangOf s 47 = some (47, gang0) ∧
     rdi s b47 R.TIL_SEQ_JTRIG_EN 3 = 1 ∧ rdi s b47 R.TIL_SEQ_JTRIG_TARGET 3 = 0xFFF) := by decide

/-- An open segment of number 0, one pre-trigger sample. -/
def seg0 (accs : Nat) : DigSeg := ⟨0, 20480, 0, 0, 1, 0, 2, 0, accs, []⟩

theorem met_CaptureStates :
    (∀ st ∈ [1, 2, 5], digState (dig st [] id) 3 = st ∧ (getDig (dig st [] id) 3).preFull = false) ∧
    (getDig (dig 2 [] fun d => { d with holdOn := true }) 3).holdOn = true ∧ (getDig (dig 2 [] id) 3).holdOn = false ∧
    (∀ e ∈ [(0, 0, true), (1, 1, false), (1, 2, true)], let s := dig 4 [(d3, R.DIG_FILT_ACC, 0, e.1), (d3, R.DIG_ACC_N, 0, 2)] fun d => { d with open_ := some (seg0 e.2.1), endAt := some 40960 }
     let volts : List (List Int) := [[5, 600000000]]
     (getDig s 3).open_ = some (seg0 e.2.1) ∧ digState s 3 = 4 ∧ volts.length = digInputs s 3 ∧ (∀ l ∈ volts, l.length = rawNeed s 3 (1 + digPost s 3)) ∧
     ((digAcc s 3 = 0 ∨ rd s d3 R.DIG_ACC_N ≤ e.2.1) ↔ e.2.2 = true) ∧ digMode s 3 = 0 ∧ flag s d3 R.DIG_FILT_CODE = false ∧ digSpill s 3 = false) ∧
    (∀ n ∈ [1, 2], let s := dig 5 [] fun d => { d with nseg := n, nextSeq := 1 }
     (digComplete s 3 = true ↔ n = 1)) ∧
    (let s := starts (dig 5 [] fun d => { d with job := some 5 }) 0x30 [3] []
     (getDig s 3).job = some 5 ∧ (getDig s 3).spillQ = [] ∧ getJob? s 5 = some (job 0x30 [3] []) ∧ jobEnded (job 0x30 [3] []) = false ∧
     (0x0434 / 256 ≠ 2)) ∧
    (let s := dig 0 [] id
     digState s 3 = 0 ∧ (getDig s 3).job = none ∧ s.rings.jobs = []) := by decide

theorem met_AcquisitionJobs_arm :
    (∀ e ∈ [(0, 100, 1, some 0x0432), (0, 2, 1, none), (0, 2, 0, some 0x0130)],
     let s0 := dig e.1 [(d3, R.SEC_TAP_EN, 0, e.2.2.1), (d3, R.SEC_ACQ_SIZE_SIZE, 0, e.2.1)] id
     let a := [3 + 2 ^ 8 + 2 ^ 48, 2 * 4096, 0x1000, 0, 0]
     let b := [(0x1000, leBytes 8 0)]
     let s := starts s0 0x30 a b
     startsOk s0 0x30 a b = true ∧ flag s d3 R.DIG_BE_STAT_PLOAD = false ∧ digState s 3 = 0 ∧ bits (2 ^ 48) 48 13 = 1 ∧
     jobBytes s (job 0x30 a b) 0x1000 8 = .ok (leBytes 8 0)) ∧
    (∀ e ∈ [(1, 1, some 0x0432), (2, 1, none), (2, 0, some 0x0130)],
     let s0 := dig 0 [(d3, R.SEC_TAP_EN, 0, e.2.1), (d3, R.SEC_ACQ_SIZE_SIZE, 0, e.1)] id
     let a := [3 + 2 ^ 8, 2 * 4096, 0x1000, 0, 0]
     armCheckAcq (starts s0 0x30 a []) 3 (job 0x30 a []) (maskPoints 0 []) = e.2.2) ∧
    (let s0 := dig 0 [] fun d => { d with job := some 4 }
     startsOk s0 0x30 [3, 0, 0x1000, 0, 0] [] = true ∧ digState s0 3 = 0 ∧ (getDig s0 3).job.isSome = true) ∧
    digState (dig 1 [] id) 3 ≠ 0 := by decide

theorem met_AcquisitionJobs_read :
    (∀ e ∈ [(0, 128, 1), (0, 127, 0), (1, 128, 0)],
     let s0 := hdmUp (dig 0 [] fun d => { d with store := [⟨0, List.replicate 64 1, [5, 6], [5, 6]⟩] })
     let a := [3 + e.1 * 2 ^ 32, 1, 0x2000, e.2.1]
     let s := starts s0 0x31 a []
     let l := segsFrom (getDig s 3).store e.1 1
     let outs := fitSegs false e.2.1 l
     startsOk s0 0x31 a [] = true ∧ Memory.wf s.devMem = true ∧ Memory.wf s.hostMem = true ∧ mapRising 0 s.regs = true ∧ outs.length = e.2.2 ∧
     ((∃ x ∈ (getDig s 3).store, x.seq = e.1) ↔ e.1 = 0) ∧
     (e.2.2 = 1 → allDev s (job 0x31 a []) 0x2000 outs.flatten.length = some 0x2000)) := by decide +kernel

/-- A spill ring of 256 bytes at 0x2000, its producer location at 0x3000. -/
def spillState (ci : Nat) : State :=
  starts (hdmUp (dig 4 [(d3, R.DIG_SPILL_PI_PI, 0, 192), (d3, R.DIG_SPILL_CI_CI, 0, ci)] fun d =>
    { d with job := some 5, ring := 0x2000, ploc := 0x3000, log2 := 8, spillQ := [⟨0, 1, List.replicate 64 1⟩] })) 0x30 [3] []

theorem met_AcquisitionJobs_spill : ∀ e ∈ [(0, true), (2 ^ 31 - 1, false)],
    let s := spillState e.1
    let d := getDig s 3
    let used := (192 + 2 ^ 31 - rd s d3 R.DIG_SPILL_CI_CI) % 2 ^ 31
    d.job = some 5 ∧ getJob? s 5 = some (job 0x30 [3] []) ∧ d.spillQ = [⟨0, 1, List.replicate 64 1⟩] ∧ d.ending = none ∧
    rd s d3 R.DIG_SPILL_PI_PI = 192 ∧ 192 % 2 ^ d.log2 + 64 ≤ 2 ^ d.log2 ∧ (used + 64 ≤ 2 ^ d.log2 ↔ e.2 = true) ∧
    allDev s (job 0x30 [3] []) (d.ring + 192 % 2 ^ d.log2) 64 = some (0x2000 + 192) ∧ allDev s (job 0x30 [3] []) d.ploc 8 = some 0x3000 ∧
    Memory.wf s.devMem = true ∧ Memory.wf s.hostMem = true ∧ mapRising 0 s.regs = true := by decide

theorem met_AcquisitionJobs_fir : HostOpen (dig 0 [] id) ∧ digState (dig 0 [] id) 3 = 0 ∧ digState (dig 1 [] id) 3 ≠ 0 ∧
    (firCode (getDig (dig 1 [] id) 3) (rd (dig 1 [] id) d3 R.DIG_FIR_IDX_BANK) (rd (dig 1 [] id) d3 R.DIG_FIR_IDX_IDX) = 0) ∧
    (getDig (dig 0 [] fun d => { d with preset := [(1, true), (2, false)] }) 3).preset = [(1, true), (2, false)] := by
  unfold HostOpen
  decide

/-! ### Register accesses, roles and images -/

/-- PlainAt but its last clause, as a Bool. -/
def plain (s : State) (blk : Blk) (a : Nat) : Bool :=
  blkOf a == some blk && decide (a < bar0Size) && !standardRange a && regFields blk a != [] && PlainReg blk (a - blkBase blk) &&
    (match blk with
     | .slice t p => !isRetired s t p
     | _ => true) &&
    decide ((regFields blk a).map (fieldAt blk)).Nodup &&
    (regFields blk a).all fun x => x.1.acc != .rw || match ignFlag blk (a - blkBase blk) with
      | none => true
      | some f => !((regFields blk a).map (fieldAt blk)).contains (fieldKey (blkBase blk) f 0)

theorem plain_spec {s : State} {blk : Blk} {a : Nat} (h : plain s blk a = true) : PlainAt s blk a := by
  unfold plain at h
  simp only [Bool.and_eq_true, beq_iff_eq, decide_eq_true_eq, Bool.not_eq_true', List.all_eq_true] at h
  obtain ⟨⟨⟨⟨⟨⟨⟨h1, h2⟩, h3⟩, h4⟩, h5⟩, h6⟩, h7⟩, h8⟩ := h
  refine ⟨h1, h2, h3, ?_, h5, ?_, h7, fun x hx hr f hf => ?_⟩
  · simpa using h4
  · intro t p hb
    subst hb
    simpa using h6
  · have h := h8 x hx
    rw [hr, hf] at h
    simpa using h

/-- A register of each kind of block: GLB_CFG's neighbour, a site's, a ring's, a context's, a digitizer's, a tile's, a fret's, a teller's, a slice's. -/
theorem met_RegisterWrites : HostOpen (up []) ∧
    (∀ e ∈ [(Blk.site 255, siteB 255 + 0x1C), (.sq 255, sqB 255 + 8), (.ring 259, cqB 259 + 0x10), (.ctx 63, ctxB 63 + 4), (.sec 3, d3 + 0xC), (.tile 47, b47 + 0x150),
       (.fret 47 15 15, fretB 47 15 15), (.teller 191, telB 191 + 8), (.slice 47 17, b17 + 0x24), (.pwr, 0x420008)], plain (up []) e.1 e.2 = true) ∧
    (∀ a ∈ [0x0FFFFC, 0x2000024 + 0x15000, 0x3FFFFFC], a < bar0Size ∧ standardRange a = false ∧ a ≠ 4 ∧
      ((blkOf a).map (fun b => regFields b a)).getD [] = []) ∧
    (let s := teller (mw [(136, 1), (40, 0x80), (16, 0x8F), (108, 1)]) 2 true id
     ready s 191 4 = true ∧ mwMem (telWord s 191) / 16 = 8 ∧ plain s (.fret 47 0 15) ((localB s 191 + localAddr (telWord s 191) (opA s 191)) / 4 * 4) = true) := by
  unfold HostOpen
  decide +kernel

theorem met_RegisterReads :
    (let s := up []
     barClosed s = false ∧ sealed s = false ∧ s.laneDown = [] ∧ 15 % 16 ≠ 0 ∧ blkOf (b47 + 0x108) = some (.tile 47) ∧ standardRange (b47 + 0x108) = false ∧
     b47 + 0x108 < bar0Size ∧ mapGet? s.latch (b47 + 0x108) = none ∧ mapGet? s.latch 0x300014 = none) ∧
    (let s := { up [] with latch := [(b47 + 0x10C, 7)] }
     mapGet? s.latch (b47 + 0x10C) = some 7 ∧ blkOf (b47 + 0x10C) = some (.tile 47)) ∧
    (let s := teller (mw [(136, 1), (40, 0x70), (108, 1)]) 4 true id
     let a := (localB s 191 + localAddr (telWord s 191) (opA s 191)) / 4 * 4
     ready s 191 4 = true ∧ mwMem (telWord s 191) / 16 = 7 ∧ sealed s = false ∧ s.laneDown = [] ∧ a < bar0Size ∧ standardRange a = false ∧
     blkOf a = some (.sec 3)) := by decide +kernel

/-- R66: TIL_VCLK_FTW_HI reads its Reset 8,192; with byte 1 alone enabled, that byte; with byte 0 alone, 0. -/
theorem test_registerRead : ∀ e ∈ [(15, 8192), (2, 8192), (1, 0)],
    ((after (.registerRead (b47 + 0x10C) e.1) (up [])).map fun t => t.resp) = some [e.2] := by decide +kernel

theorem met_RolesAndImages_apply : ∀ st ∈ [2, 3],
    let s := fields (teller 0 1 false fun x => { x with assign := [(0, none)], lastAssign := some 0, inbox := [message 0, message 1] })
      [(telB 191, R.TIL_TEL_STAT_STATE, 0, st)]
    (getTel s 191).assign = [(0, none)] ∧ telState s 191 = st ∧ flag s (telB 191) R.TIL_TEL_STAT_POSTC = false := by decide

/-- Tellers 190 and 191 wait, with an image that serves every role. -/
def bothReady : State :=
  [190, 191].foldl (fun s n => putTel (wr s (telB n) R.TIL_TEL_STAT_STATE 2) n { Teller.reset with roles := 127 }) (up [])

theorem met_RolesAndImages_assign : ∀ e ∈ [([255, 1, 0, 0], none), ([192, 1], some 0x0140), ([191, 1, 190, 1], some 0x0142)],
    let l := e.1.map (· % 256)
    let n := l.length / 2
    let a := [0x1000, n]
    let s := starts (up []) 0x02 a [(0x1000, l)]
    startsOk (up []) 0x02 a [(0x1000, l)] = true ∧ n ≤ 192 ∧ jobBytes s (job 0x02 a [(0x1000, l)]) 0x1000 l.length = .ok l ∧
    (∀ i, i < n → bits (l.getD (2 * i) 0 + 256 * l.getD (2 * i + 1) 0) 11 5 = 0) := by decide

theorem met_RolesAndImages_check : ∀ e ∈ [([(191, 1)], none), ([(192, 1)], some 0x0140), ([(191, 1), (190, 1)], some 0x0142)],
    assignCheck bothReady false e.1 e.1 = e.2 := by decide +kernel

/-- An image of one microword, GOTO 0, at 320, with its entry table at 352 and no scratch. -/
def roleImage : List Nat :=
  leBytes 8 (0x5C73 + 2 ^ 16 + 127 * 2 ^ 24) ++ leBytes 4 320 ++ leBytes 4 352 ++ leBytes 4 576 ++ leBytes 4 0 ++ leBytes 4 576 ++ leBytes 4 0 ++
    List.replicate 288 0 ++ leBytes 18 (2 ^ 136) ++ List.replicate 238 0

/-- Key 0 is programmed with the image's key. -/
def keyed : State :=
  { up [(glb, R.GLB_KEYSTAT_PROG, 0, 1), (glb, R.GLB_KEYSTAT_REVOKED, 0, 0)] with keyHash := [(0, (leBytes 48 (Config.sha384 ((roleImage.drop 64).take 97))).reverse)] }

def roleJob : Job := job 0x01 [0x1000, 576 + 7 * 2 ^ 32, 0, 0, 2 ^ 63] [(0x1000, roleImage)]

/-- R228 to R230: an image whose signature verifies, which an opaque function says, passes every check of LOAD_IMAGE; without a key it does not. -/
theorem met_RolesAndImages_load (h : imgSigOk roleImage = true) :
    let s := putJob keyed 5 roleJob
    JobStarts s 5 0x01 roleJob ∧ jobBytes s roleJob 0x1000 576 = .ok roleImage ∧ loadCheck s 7 (2 ^ 191) 576 roleImage = none := by
  have hl : roleImage.length = 576 := by decide +kernel
  refine ⟨⟨rfl, rfl, rfl⟩, ?_, ?_⟩
  · rw [← hl]
    exact jobBytes_fetched rfl (by decide) rfl rfl
  · have hk : imgKeyOk (putJob keyed 5 roleJob) roleImage = true := by
      have e : keyHashOf (putJob keyed 5 roleJob) (imgKey roleImage) = (leBytes 48 (Config.sha384 ((roleImage.drop 64).take 97))).reverse := by
        rw [show imgKey roleImage = 0 from by decide +kernel]
        rfl
      unfold imgKeyOk
      simp only [e, beq_self_eq_true, Bool.and_true]
      decide +kernel
    unfold loadCheck
    rw [hk, h, show imgHeaderOk roleImage = true from by decide +kernel, show imgMicroOk roleImage = true from by decide +kernel]
    decide +kernel

theorem met_RolesAndImages_noKey :
    let s := putJob (up []) 5 roleJob
    JobStarts s 5 0x01 roleJob ∧ Memory.wf s.devMem = true ∧ Memory.wf s.hostMem = true ∧ loadCheck s 7 (2 ^ 191) 575 roleImage = some 0x0140 :=
  ⟨⟨rfl, rfl, rfl⟩, by decide, by decide, by decide +kernel⟩

/-! ### Host attach -/

/-- The link is up. -/
def linked (l : List (Nat × Field × Nat × Nat)) : State := up ((glb, R.HAT_LINK_STAT_UP, 0, 1) :: l)

theorem met_LinkEvents :
    (let s := updBoot (up []) fun b => { b with perst := true, locked := true }
     flag s glb R.HAT_LINK_STAT_UP = false ∧ s.boot.perst = true ∧ s.boot.locked = true ∧ powerUp s = true ∧ s.cacheEn = false) ∧
    (∀ m ∈ [0, 0x80000000, 0xC0000000], msixBlocked { linked [] with cfg := [(0xA0, m)], rings := { State.reset.rings with msixTab := [(3, 0)] } } 0 = (m != 0x80000000)) ∧
    (∀ i ∈ [0, 2], mapGet? { up [] with ioIde := [(i, false)] }.ioIde i = some false) ∧
    (∀ f ∈ [R.HAT_IDE_STAT_IO_SECURE, R.HAT_IDE_STAT_CM_SECURE], flag (linked [(glb, f, 0, 1)]) glb f = true ∧
      flag (linked [(glb, f, 0, 1)]) glb R.HAT_LINK_STAT_UP = true) := by decide

/-- Device memory decodes from host address 0, with a ledger pool of one page at its base. -/
def memUp (l : List (Nat × Field × Nat × Nat)) : State := hdmUp (linked ((secB 0, R.SEC_LGR_SIZE_SIZE, 0, 1) :: l))

theorem met_HostMemory :
    (∀ e ∈ [(4095, true), (4096, false), (hdmSize - 1, false)], memDecodes (memUp []) e.1 = true ∧ heldAt (memUp []) e.1 = e.2 ∧ e.1 < 2 ^ 64 ∧
      flag (memUp []) glb R.HAT_LINK_STAT_VIRAL = false ∧ (memUp []).sf.length < 1048576) ∧ memHeld (memUp []) = false ∧
    memHeld (memUp [(glb, R.MEM_STAT_STATE, 0, 3)]) = true ∧ memDecodes (memUp [(glb, R.MEM_STAT_STATE, 0, 3)]) 4096 = true ∧
    memDecodes (memUp []) hdmSize = false ∧ flag (memUp [(glb, R.HAT_LINK_STAT_VIRAL, 0, 1)]) glb R.HAT_LINK_STAT_VIRAL = true ∧
    Memory.wf (memUp []).devMem = true ∧ Memory.wf (memUp []).hostMem = true ∧ mapRising 0 (memUp []).regs = true ∧
    (let s := { linked [] with biAsked := [64], biSent := [64] }
     hdmToDev 4096 / 64 ∈ s.biAsked ∧ hdmToDev 4096 / 64 ∈ s.biSent ∧ poolWaits { s with biAsked := [], biSent := [] } = false ∧
     s.xlt.memReads = [] ∧ indexIn s 64 = []) := by decide

/-- A full snoop filter. -/
theorem met_HostMemory_full : let s := { memUp [] with sf := 0 :: List.replicate 1048575 1 }
    heldAt s 4096 = false ∧ memDecodes s 4096 = true ∧ hdmToDev (hdmOffset s 4096) / 64 ∉ s.sf ∧ 1048576 ≤ s.sf.length := by
  intro s
  have h : hdmToDev (hdmOffset s 4096) / 64 = 64 := by decide
  refine ⟨by decide, by decide, ?_, ?_⟩
  · rw [h]
    intro hm
    rcases List.mem_cons.1 hm with h1 | h1
    · exact absurd h1 (by decide)
    · exact absurd (List.eq_of_mem_replicate h1) (by decide)
  · have hl : ∀ n : Nat, (0 :: List.replicate n 1).length = n + 1 := fun n => by rw [List.length_cons, List.length_replicate]
    show 1048576 ≤ (0 :: List.replicate 1048575 1).length
    exact Nat.le_of_eq (hl 1048575).symm

/-- SQ 255 is enabled with SNOOP, its producer location at host address 0x80000, in a line the device cache holds. -/
def watched (l : List (Nat × Field × Nat × Nat)) : State :=
  { linked ((sqB 255, R.HAT_SQ_CTL_EN, 0, 1) :: (sqB 255, R.HAT_SQ_CFG_SNOOP, 0, 1) :: (sqB 255, R.HAT_SQ_PLOC_LO_PLOC, 0, 0x80000) :: l) with dcache := [0x2000] }

theorem met_HostMemory_watched :
    (0x80000 / 64 ∈ (watched []).dcache) ∧ ringEn (watched []) 255 = true ∧ flag (watched []) (sqB 255) R.HAT_SQ_CFG_SNOOP = true ∧
    ringAcc (watched []) 255 (ringPloc (watched []) 255) false = .ok (.host 0x80000) ∧ 0x80000 / 64 = 0x2000 ∧ 255 ∉ (watched []).rings.stopped ∧
    ((List.range 255).all fun r => !ringEn (watched []) r) = true := by decide +kernel

theorem met_HostMemory_watch : Watches (watched []) 255 (0x80000 / 64) ((0x80000 + max 4 1 - 1) / 64) 0x80000 ∧ ∀ r, r < 256 → Snoops (watched []) r →
    r = 255 ∧ ringAcc (watched []) r (ringPloc (watched []) r) false ≠ .wait := by
  obtain ⟨-, h1, h2, h3, h4, h5, h6⟩ := met_HostMemory_watched
  refine ⟨⟨⟨h1, h2⟩, h3, by decide, by decide⟩, fun r hr hw => ?_⟩
  by_cases h : r = 255
  · subst h
    rw [h3]
    exact ⟨rfl, by decide⟩
  · have h7 := List.all_eq_true.1 h6 r (List.mem_range.2 (by omega))
    rw [hw.1] at h7
    exact absurd h7 (by decide)

/-- The judgements of R268 at PIDX 5 of a ring of 4 slots with CIDX 3: as before, stale, accepted, refused; their bounds. -/
theorem met_IndexJudged :
    let s := watched [(sqB 255, R.HAT_SQ_CFG_LOG2, 0, 2), (sqB 255, R.HAT_SQ_PIDX_PIDX, 0, 5), (sqB 255, R.HAT_SQ_CIDX_CIDX, 0, 3)]
    let judge := fun v =>
      let back := (rd s (sqB 255) R.HAT_SQ_PIDX_PIDX + 2 ^ 32 - v) % 2 ^ 32
      let ahead := (v + 2 ^ 32 - rd s (sqB 255) R.HAT_SQ_CIDX_CIDX) % 2 ^ 32
      if v = rd s (sqB 255) R.HAT_SQ_PIDX_PIDX then 0 else if 1 ≤ back ∧ back ≤ 2 ^ ringLog2 s 255 then 1 else if ahead ≤ 2 ^ ringLog2 s 255 then 2 else 3
    [5, 4, 1, 0, 6, 7, 8].map judge = [0, 1, 1, 3, 2, 2, 3] := by decide

/-- R268: of those, index 8 stops the ring with cause PIDX, and 7 is the new producer index. -/
theorem test_mmioDoorbell : ∀ e ∈ [(7, 7, 0), (8, 5, 1), (4, 5, 0)],
    ((after (.mmioDoorbell 255 e.1) (watched [(sqB 255, R.HAT_SQ_CFG_LOG2, 0, 2), (sqB 255, R.HAT_SQ_PIDX_PIDX, 0, 5), (sqB 255, R.HAT_SQ_CIDX_CIDX, 0, 3)])).map
      fun t => (rd t (sqB 255) R.HAT_SQ_PIDX_PIDX, rd t (sqB 255) R.HAT_SQ_STAT_ECAUSE)) = some (e.2.1, e.2.2) := by decide

theorem met_HostFunction :
    (∀ a ∈ [0, 8, 0x20, 0x14C], (cfgFixed (linked []) a).isSome = true) ∧ (∀ a ∈ [4, 0x104, 0x1AC], cfgFixed (linked []) a = none) ∧
    (∀ m ∈ [0x80000000, 0xC0000000], let s := { linked [] with cfg := [(0xA0, m)], rings := { State.reset.rings with msixPend := [2047] } }
     flag s glb R.HAT_LINK_STAT_UP = true ∧ sealed s = false ∧ flag s glb R.GLB_RST_STAT_BUSY = false ∧ s.d3 = false ∧ powerReady s = true ∧ s.laneDown = [] ∧
     s.rings.msixPend.count 2047 = 1 ∧ bit (cfgWord s 0xA0) 31 = true ∧ (bit (cfgWord s 0xA0) 30 = true ↔ m = 0xC0000000)) ∧
    (let s := linked [(cqB 255, R.HAT_CQ_WIDX_WIDX, 0, 3)]
     bar2Open s = true ∧ ringHeld s 511 = 3 ∧ ringH s 511 = 0) := by decide

theorem met_Rings_enable :
    (∀ r ∈ [255, 515], HostOpen (linked []) ∧ ringEn (linked []) r = false ∧ r ∉ (linked []).rings.enabling ∧ ringPv (linked []) r = false ∧
      ringFirst (linked []) r = none ∧ flag (linked []) glb R.XLT_STAT_ATS_EN = false) ∧
    ringAcc (linked []) 255 (ringPloc (linked []) 255) false = .ok (.host 0) ∧ ringLog2 (linked []) 255 ≤ 16 ∧ leNat (whereBytes (linked []) (.host 0) 4) = 0 ∧
    (∀ r ∈ [255, 515], let s := linked [(glb, R.XLT_STAT_ATS_EN, 0, 1)]
     ringFirst s r = some (0, .miss) ∧ ringPv s r = false) ∧
    (∀ r ∈ [255, 515], let s := { linked [] with hdmProg := some 0 }
     ringFirst s r = some (0, .fail 0x0204)) ∧
    (let s := linked [(sqB 255, R.HAT_SQ_CFG_PV, 0, 1)]
     ringPv s 255 = true ∧ flag s glb R.XLT_STAT_ATS_EN = false) := by
  unfold HostOpen
  decide

/-- SQ 255 has one descriptor, at host address 0. -/
def oneDescriptor (l : List (Nat × Field × Nat × Nat)) (m : List Host.Cell) : State :=
  { linked ((sqB 255, R.HAT_SQ_CTL_EN, 0, 1) :: (sqB 255, R.HAT_SQ_PIDX_PIDX, 0, 1) :: l) with hostMem := m }

theorem met_Rings_fetch :
    (let s := oneDescriptor [] []
     bar2Open s = true ∧ ringEn s 255 = true ∧ 255 ∉ s.rings.stopped ∧ fetchOpen s = true ∧ fetchNext s = some 255 ∧ fetchWaits s = [] ∧
     ringAcc s 255 (slotAddr s 255 (rd s (sqB 255) R.HAT_SQ_CIDX_CIDX) 64) false = .ok (.host 0)) ∧
    (let s := oneDescriptor [(glb, R.XLT_STAT_ATS_EN, 0, 1)] []
     fetchOpen s = true ∧ fetchNext s = none ∧ fetchWaits s = [255] ∧ ringAcc s 255 (slotAddr s 255 0 64) false = .wait) ∧
    (∀ e ∈ [([], false), ([32], true)], let s := { hdmUp (oneDescriptor [] []) with badLines := e.1.map fun n => n + hdmToDev 0 / 64 - 32 }
     fetchNext s = some 255 ∧ fetchWaits s = [] ∧ ringAcc s 255 (slotAddr s 255 0 64) false = .ok (.dev (hdmToDev 0)) ∧ badAt s (hdmToDev 0) = e.2) ∧
    (let s := oneDescriptor [(sqB 255, R.HAT_SQ_CFG_PV, 0, 1)] []
     fetchNext s = some 255 ∧ fetchWaits s = [] ∧ ringAcc s 255 (slotAddr s 255 0 64) false = .bad) := by decide +kernel

/-- Ring r takes entries at host address 0x100. -/
def takes (b : Nat) (l : List (Nat × Field × Nat × Nat)) : State := linked ((b, R.HAT_CQ_CTL_EN, 0, 1) :: (b, R.HAT_CQ_BASE_LO_BASE, 0, 0x1000) :: l)

theorem met_RingTakes (l : List (Nat × Field × Nat × Nat)) (r : Nat) (h : 256 ≤ r ∧ r < 516) (h1 : ringOpen (takes (ringB r) l) r = true)
    (h2 : ringFull (takes (ringB r) l) r = false) (w : Where) (h3 : ringAcc (takes (ringB r) l) r (slotAddr (takes (ringB r) l) r (ringW (takes (ringB r) l) r) 32) true = .ok w) :
    RingTakes (takes (ringB r) l) r w := ⟨h1, h2, h3, h.1, h.2⟩

/-- A finished job of a ring whose completions go to CQ 255. -/
def doneJob : Job := { job 0x7F [] [] with sq := 255, phase := .done 0x0101 1 2 3 }

theorem met_Rings_complete :
    (let s := putJob (takes (ringB 511) [(sqB 255, R.HAT_SQ_CFG_CQ, 0, 255)]) 5 doneJob
     oldestDone s 511 = some (5, doneJob) ∧ ringOpen s 511 = true ∧ ringFull s 511 = false ∧ waitingFor s 511 = [] ∧
     ringAcc s 511 (slotAddr s 511 (ringW s 511) 32) true = .ok (.host 0x1000) ∧ Memory.wf s.devMem = true ∧ Memory.wf s.hostMem = true ∧ mapRising 0 s.regs = true) ∧
    (let s := putJob (linked [(sqB 255, R.HAT_SQ_CFG_CQ, 0, 255)]) 5 doneJob
     oldestDone s 511 = some (5, doneJob) ∧ ringOpen s 511 = false ∧ s.rings.waiting.length < 65536) ∧
    (let w : WaitCpl := ⟨511, List.replicate 32 1, false, freePlace (up [])⟩
     let s := updRings (takes (ringB 511) []) fun x => { x with waiting := [w] }
     waitingFor s 511 = [w] ∧ ringOpen s 511 = true ∧ ringFull s 511 = false ∧ ringAcc s 511 (slotAddr s 511 (ringW s 511) 32) true = .ok (.host 0x1000)) := by
  decide

/-- R281: an entry's interrupt goes at once, at COUNT, or waits for the timer. -/
theorem met_EntryCounts : ∀ e ∈ [(0, 1, 0), (1, 1, 1), (1, 2, 2)],
    let s := takes (ringB 511) [(ringB 511, R.HAT_CQ_CFG_IEN, 0, e.1), (ringB 511, R.HAT_CQ_IMOD_COUNT, 0, e.2.1)]
    (if flag s (ringB 511) R.HAT_CQ_CFG_IEN = false then 0 else if rd s (ringB 511) R.HAT_CQ_IMOD_COUNT ≤ mapGet s.rings.pend 511 0 + 1 then 1 else 2) = e.2.2 := by
  decide

/-- Job 5 has just been fetched. -/
def fetched (op : Nat) (l : List (Nat × Field × Nat × Nat)) : State := putJob (up l) 5 { job op [2 ^ 47] [] with phase := .fetched }

theorem met_JobsAndEvents_dispatch :
    (∀ e ∈ [(3, true), (2, false)], let s := fetched 0x11 [(glb, R.THM_STAT_S3, 0, e.1)]
     getJob? s 5 = some { job 0x11 [2 ^ 47] [] with phase := .fetched } ∧ orderAllows s 5 { job 0x11 [2 ^ 47] [] with phase := .fetched } = true ∧
     thermalWait s { job 0x11 [2 ^ 47] [] with phase := .fetched } = e.2) ∧
    ownerList (job 0x11 [2 ^ 47] []) = none ∧ dispatchCheck (fetched 0x11 []) (job 0x11 [2 ^ 47] []) [] = some 0x03B0 ∧
    dispatchCheck (fetched 0x7F []) (job 0x7F [2 ^ 47] []) [] = none ∧
    (let b := [(0x1000, leBytes 16 0)]
     ownerList (job 0x10 [0x1000, 0] b) = some (0x1000, 16) ∧ jobBytes (up []) (job 0x10 [0x1000, 0] b) 0x1000 16 = .ok (leBytes 16 0)) := by decide

theorem met_JobsAndEvents_fence : ∀ e ∈ [(0, true), (1, false)],
    let s := putJob (starts (up []) 0x7F [0] []) 4 { job 0x42 [] [] with sq := e.1, phase := .fetched }
    jobReady s 5 0x7F = some (job 0x7F [0] []) ∧
    s.rings.jobs.any (fun x => decide (x.1 < 5) && fenceNames (job 0x7F [0] []) x.2.sq && (jobDone x.2).isNone) = e.2 := by decide

theorem met_JobsAndEvents_abort :
    (let s := up []; HostOpen s ∧ abortNamed s = []) ∧
    (∀ e ∈ [(JobPhase.fetched, 0x11), (.dispatched, 0x11), (.running, 0x42), (.running, 0x02)],
     let x := { job e.2 [] [] with phase := e.1 }
     let s := putJob (up [(glb, R.HAT_ABORT_TAG_TAG, 0, 7)]) 5 x
     abortNamed s = [5] ∧ getJob? s 5 = some x) ∧
    (let g := { gang0 with job := some 5 }
     let s := putJob (gangIn (up [(glb, R.HAT_ABORT_ALL, 0, 1)]) 3 (fun _ => g) id) 5 { job 0x11 [] [] with phase := .running }
     abortNamed s = [5] ∧ s.gangs.filter (fun e => e.2.job == some 5) = [(47, g)] ∧ getGang? s 47 = some g ∧ g.waiting = false ∧ g.abort = none ∧
     gangArmed s g = false ∧ endsBy g (latchVec s g) = false ∧ g.genNext ≤ latchVec s g) := by
  unfold HostOpen
  decide

/-- An event of type 5 waits. -/
def withEvent (s : State) : State := updRings s fun x => { x with events := [⟨5, 1, 2, 3, 4⟩] }

theorem met_JobsAndEvents_event :
    (∀ e ∈ [(0, 0), (32, 0), (32, 1)], let s := withEvent (linked [(ringB 515, R.HAT_EVR_MASK_MASK, 0, e.1), (ringB 515, R.HAT_CQ_CTL_EN, 0, e.2)])
     s.rings.events = [⟨5, 1, 2, 3, 4⟩] ∧ linkOpen s = true ∧ (bit (rd s (ringB (512 + 3)) R.HAT_EVR_MASK_MASK) 5 = true ↔ e.1 = 32) ∧
     (ringEn s 515 = true ↔ e.2 = 1) ∧ mapGet? s.rings.evrWait 515 = none ∧ ringFull s 515 = false ∧ evrLost s 3 = 0 ∧ ringAcc s 515 (slotAddr s 515 (ringW s 515) 32) true = .ok (.host 0)) ∧
    (let s := takes (ringB 515) [(ringB 515, R.HAT_EVR_LOST_LOST, 0, 1)]
     evrLost s 3 = 1 ∧ ringOpen s 515 = true ∧ ringFull s 515 = false) ∧
    (let s := updRings (linked []) fun x => { x with timers := [515] }
     515 ∈ s.rings.timers) := by decide

/-! ### Translation -/

/-- Job 5, running, in context c. -/
def inCtx (c : Nat) (s : State) : State := putJob s 5 { job 0x42 [] [] with phase := .running, ctx := c }

theorem met_Ordinary : Ordinary (inCtx 63 (linked [])) 5 :=
  ⟨{ job 0x42 [] [] with phase := .running, ctx := 63 }, by decide, by decide, by decide⟩

/-- Translation switched on, with page requests on or off, stopped or not. -/
def xltOn (pri stop : Nat) : List (Nat × Field × Nat × Nat) :=
  [(glb, R.XLT_STAT_ATS_EN, 0, 1), (glb, R.XLT_STAT_PRI_EN, 0, pri), (glb, R.XLT_STAT_PRI_STOP, 0, stop)]

/-- A request of job 5 for the page at 0x7000, written or not, void or not, asked again or not. -/
def asked (wr stale retried : Bool) : XltReq := ⟨false, 0, 0x7000, wr, [1005], stale, retried⟩

theorem met_TranslationRequests :
    (∀ st ∈ [false, true], let s := updXlt (inCtx 0 (linked [])) fun y => { y with reqs := [asked false st false] }
     flag s glb R.HAT_LINK_STAT_UP = true ∧ s.xlt.reqs = [asked false st false]) ∧
    (∀ e ∈ [(12, 0x7000, true), (21, 0, true), (12, 0x8000, false)],
     ((0x8000 - 0x1000 : Nat) = 0x7000) ∧ (decide (e.2.1 ≤ 0x7000) && decide (0x7000 < e.2.1 + 2 ^ e.1)) = e.2.2) ∧
    (∀ r ∈ [false, true], ∀ p ∈ [(0, 0), (1, 0), (1, 1)], let s := updXlt (inCtx 0 (linked (xltOn p.1 p.2))) fun y => { y with reqs := [asked true false r] }
     flag s glb R.HAT_LINK_STAT_UP = true ∧
     s.xlt.reqs.find? (fun x => decide (0x7000 ≤ x.va) && decide (x.va < 0x7000 + 2 ^ 12)) = some (asked true false r) ∧
     s.xlt.groups.find? (groupFor false 0 0x7000 true) = none ∧ (flag s glb R.XLT_STAT_PRI_EN = true ↔ p.1 = 1) ∧
     (flag s glb R.XLT_STAT_PRI_STOP = true ↔ p.2 = 1)) ∧
    (let x : XltReq := ⟨false, 0, 0x7000, true, [], false, false⟩
     let s := updXlt (linked []) fun y => { y with reqs := [x] }
     s.xlt.reqs.find? (fun x => decide (0x7000 ≤ x.va) && decide (x.va < 0x7000 + 2 ^ 12)) = some x) ∧
    (∀ d ∈ [false, true], let g : PrgGroup := ⟨511, false, 0, 0x7000, true, [1005], d⟩
     let s := updXlt (inCtx 0 (linked [])) fun y => { y with groups := [g] }
     flag s glb R.HAT_LINK_STAT_UP = true ∧ s.xlt.groups.find? (·.idx == 511) = some g ∧ s.xlt.faultQ = []) := by decide

/-- With every group index taken the fault waits. -/
theorem met_TranslationRequests_full :
    ∀ i, i < 512 → ∃ g ∈ (List.range 512).map (fun i => (⟨i, true, 1, 0, true, [], true⟩ : PrgGroup)), g.idx = i := fun i h =>
  ⟨⟨i, true, 1, 0, true, [], true⟩, List.mem_map.2 ⟨i, List.mem_range.2 h, rfl⟩, rfl⟩

/-- R303: a completion with too little for a write, after a Success, ends the job with ST_XLT_PERM (0x0201). -/
theorem test_translationCompletion :
    ((after (.translationCompletion (.present 0x7000 12 0x9000 true false))
      (updXlt (inCtx 0 (linked (xltOn 1 0))) fun y => { y with reqs := [asked true false true] })).bind fun t =>
        (getJob? t 5).map fun x => x.phase) = some (.done 0x0201 0 0 0) := by decide

/-- A translation of the page at 0x7000 to 0x19000, held by holders. -/
def entry (l : List Nat) : AtcEntry := ⟨false, 0, 0x7000, 12, 0x19000, true, true, l, 0⟩

theorem met_ContextsAndGranules :
    (∀ l ∈ [[], [663]], let s := updXlt (inCtx 63 (linked [])) fun y => { y with atc := [entry l], reqs := [asked true false false] }
     flag s glb R.HAT_LINK_STAT_UP = true ∧ (∀ e ∈ s.xlt.atc, Covers false 0 0x7FFF 1 e ∧ ¬Covers false 0 0x8000 4096 e ∧ ¬Covers true 0 0x7000 1 e) ∧
     (∃ e ∈ s.xlt.atc, e.locks ≠ [] ∨ l = [])) ∧
    (updXlt (up []) fun y => { y with invs := List.replicate 32 ⟨false, 0, 0, 0, 0⟩ }).xlt.invs.length = 32 ∧
    (∀ e ∈ [(0x7000, 4), (0x8000, 4), (0x7000, 3)], let i : InvReq := ⟨false, 0, e.1, 4096, e.2⟩
     let s := updXlt (inCtx 0 (linked [])) fun y => { y with invs := [i], reads := [⟨3, 5, 0x7F00, 0x100, 256, false, 0⟩] }
     flag s glb R.HAT_LINK_STAT_UP = true ∧ s.xlt.invs = [i] ∧ readCovered s i = decide (e = (0x7000, 4))) := by
  unfold Covers
  decide

theorem met_ContextsAndGranules_enable :
    (∀ k ∈ [55, 63], ∀ a ∈ [0, 1], let s := up [(glb, R.XLT_STAT_ATS_EN, 0, a), (ctxB 63, R.XLT_PIN_SIZE_SIZE, 3, 1), (ctxB 63, R.XLT_PIN_BASE_LO_BASE, 3, 0x7000)]
     let s1 := setF s (ctxB k) R.XLT_CTX_STAT_PBUSY
     HostOpen s ∧ flag s (ctxB k) R.XLT_CTX_CFG_EN = false ∧ flag s (ctxB k) R.XLT_CTX_STAT_PBUSY = false ∧
     (flag s glb R.XLT_STAT_ATS_EN = true ↔ a = 1) ∧ reserved s1 false ≤ 384 ∧ reserved s1 true ≤ 384 ∧
     (k = 63 → pinMissing s k = some 0x7000 ∧ pinMissing s1 k = some 0x7000 ∧ pinHeld s1 k = 0 ∧ flag s1 (ctxB k) R.XLT_CTX_STAT_PBUSY = true)) ∧
    384 < reserved (up [(ctxB 63, R.XLT_CTX_STAT_PBUSY, 0, 1), (ctxB 63, R.XLT_CTX_RATE_RD, 0, 255), (ctxB 62, R.XLT_CTX_CFG_EN, 0, 1), (ctxB 62, R.XLT_CTX_RATE_RD, 0, 130)]) false ∧
    ctxInUse (up []) 63 = false ∧ ctxInUse (inCtx 63 (up [])) 63 = true ∧ (HostOpen (inCtx 63 (up []))) ∧
    (∀ f ∈ [[], [63]], let s := updXlt (up [(ctxB 63, R.XLT_CTX_STAT_PBUSY, 0, 1)]) fun y => { y with pinFail := f }
     flag s (ctxB 63) R.XLT_CTX_STAT_PBUSY = true ∧ pinMissing s 63 = none ∧
     (atcLock s 663 (ctxPv s 63) (ctxPasid s 63) (pinWindows s 63)).isSome = true) := by
  unfold HostOpen
  decide

/-- A stream of job 5 in context c from 0x70F0, with 16 bytes to its 256-byte block's end and one beyond, its context checked or not. -/
def flow (c : Nat) (wr checked : Bool) : Stream := ⟨5, c, wr, 0x70F0, List.replicate 17 1, 17, 0, false, checked, none⟩

/-- It, translated by entries. -/
def flows (c : Nat) (wr checked : Bool) (l : List AtcEntry) (r : List (Nat × Field × Nat × Nat)) : State :=
  updXlt (inCtx c (linked r)) fun y => { y with atc := l, streams := [flow c wr checked] }

theorem met_ContextsAndGranules_stream :
    (∀ w ∈ [false, true], ∀ c ∈ [55, 63], ∀ e ∈ [([], Where.miss), ([entry []], .host 0x190F0), ([entry [663]], .host 0x190F0)],
     let s := flows c w true e.1 [(glb, R.XLT_STAT_ATS_EN, 0, 1)]
     linkOpen s = true ∧ s.xlt.streams.find? (devReady s w) = none ∧ nextStream s w = some (flow c w true, false) ∧
     (∀ x, getJob? s 5 = some x → streamWhere s x (flow c w true) = e.2 ∧ (rtUnlocked s x (flow c w true) = true ↔ c = 63 ∧ e.1 ≠ [entry [663]]))) ∧
    (∀ en ∈ [0, 1], let s := flows 55 true false [entry []] [(glb, R.XLT_STAT_ATS_EN, 0, 1), (ctxB 55, R.XLT_CTX_CFG_EN, 0, en)]
     s.xlt.streams.find? (devReady s true) = none ∧ nextStream s true = some (flow 55 true false, false) ∧
     ∀ x, getJob? s 5 = some x → ctxCheck s x 0x70F0 17 = (if en = 1 then none else some 0x0206)) ∧
    (let s := flows 0 true true [] [(sqB 0, R.HAT_SQ_CFG_PV, 0, 1)]
     nextStream s true = some (flow 0 true true, false) ∧ ∀ x, getJob? s 5 = some x → streamWhere s x (flow 0 true true) = .fail 0x0200) := by
  decide

/-- In device memory it moves first, unless the host holds a line of it; an address that is not decoded ends its job. -/
theorem met_ContextsAndGranules_device :
    (∀ w ∈ [false, true], ∀ f ∈ [[], [0x70F0 / 64]], let s := { hdmUp (flows 0 w false [] []) with sf := f }
     s.xlt.streams.find? (devReady s w) = some (flow 0 w false) ∧
     ∀ x, getJob? s 5 = some x → streamWhere s x (flow 0 w false) = .dev 0x70F0 ∧ (granuleHeld s (flow 0 w false) 0x70F0 = [] ↔ f = [])) ∧
    (let s := { hdmUp (flows 0 true false [] []) with memEn := false }
     s.xlt.streams.find? (devReady s true) = some (flow 0 true false) ∧
     ∀ x, getJob? s 5 = some x → streamWhere s x (flow 0 true false) = .fail 0x0204) := by decide

theorem met_ContextsAndGranules_snapshots :
    (let s := { linked [] with ring := { State.reset.ring with snapOut := some (0x7000, [1, 2]) } }
     linkOpen s = true ∧ sealed s = false ∧ s.xlt.streams.find? (devReady s true) = none ∧ nextStream s true = none ∧ s.ring.snapOut = some (0x7000, [1, 2]) ∧
     ∀ i, i < 2 → resolve s (ctxPv s 0) (ctxPasid s 0) (0x7000 + i) true = .host (0x7000 + i)) ∧
    (let s := updXlt (inCtx 0 (linked [])) fun y => { y with reads := [⟨3, 5, 0x7F00, 0x100, 256, false, 0⟩] }
     flag s glb R.HAT_LINK_STAT_UP = true ∧ s.xlt.reads.find? (·.tagNo == 3) = some ⟨3, 5, 0x7F00, 0x100, 256, false, 0⟩ ∧ (getJob? s 5).isSome = true) := by
  decide

/-! ### Device memory -/

/-- The stack in a state, its operating point asked for as given. -/
def stack (st : Nat) (l : List (Nat × Field × Nat × Nat)) : State := up ((glb, R.MEM_STAT_STATE, 0, st) :: l)

/-- Pseudo-channel 31. -/
def x31 : PcIx := ⟨31, by decide⟩

theorem met_MemoryPoints :
    (∀ e ∈ [(0, []), (0x8000, [15]), (0x10000, [])], memState (stack 1 []) = 1 ∧ maskBits 16 e.1 = e.2) ∧
    (∀ e ∈ [(0, 0), (0, 1), (1, 0)], let s := stack 2 [(secB 3, R.DIG_STAT_STATE, 0, e.1), (glb, R.MEM_CTL_POINT, 0, e.2)]
     memState s = 2 ∧ (anyRtActive s = true ↔ e.1 = 1) ∧ s.hbm.repairing = [] ∧ (rd s glb R.MEM_CTL_POINT = rd s glb R.MEM_STAT_CUR ↔ e.2 = 0)) ∧
    memState (stack 3 []) = 3 ∧
    (∀ v ∈ [0, 1], let s := stack 2 [(glb, R.MEM_STAT_SET_FULL, 0, v), (glb, R.MEM_STAT_RTPEND, 0, v)]
     HostOpen s ∧ (flag s glb R.MEM_STAT_SET_FULL = true ↔ v = 1) ∧ (flag s glb R.MEM_STAT_RTPEND = true ↔ v = 1)) ∧
    (∀ r ∈ [[], [15]], let s := updHbm (stack 5 []) fun h => { h with retry := r }
     memState s = 5 ∧ (maskBits 16 0x8000).filter (fun h => !bit (rd s glb R.MEM_CHSTAT_FAIL) h) = [15] ∧ (15 ∈ s.hbm.retry ↔ r = [15]) ∧
     (maskBits 16 0x10000).filter (fun h => !bit (rd s glb R.MEM_CHSTAT_FAIL) h) = []) ∧
    (∀ e ∈ [0, 1], let s := updHbm (stack 2 [(secB 3, R.DIG_STAT_STATE, 0, e)]) fun h => { h with due := [(31, 7)] }
     s.hbm.due.find? (fun e => e.1 == x31.val) = some (31, 7) ∧ memState s = 2 ∧ (rtActive s (x31.val / 8) = true ↔ e = 1) ∧
     ∀ r ∈ s.hbm.repairing, r.1 ≠ x31.val) ∧
    (let s := updHbm (stack 2 []) fun h => { h with repairing := [(31, 7)] }
     s.hbm.repairing.find? (fun e => e.1 == x31.val) = some (31, 7)) := by
  unfold HostOpen
  decide

/-- Without requests the first bank of a round is free; with every bank refreshed in it none is, at any number of banks. -/
theorem met_MemoryRequests_banks :
    FreeBank (stack 2 []) 31 0 ∧
    (∀ d ∈ [7, 8], let s := updHbm (stack 2 []) fun h => { h with round := [(31, List.range 64)], debt := [(31, d)] }
     memState s = 2 ∧ debtOf s 31 = d ∧ ∀ b, ¬FreeBank s 31 b) := by
  have h : ∀ b, b < nbanks → b < 64 := by intro b h; unfold nbanks at h; omega
  refine ⟨⟨Nat.succ_pos _, by decide, by decide⟩, ?_⟩
  intro d _ s
  refine ⟨?_, ?_, fun b hb => hb.2.1 ?_⟩
  · show memState (stack 2 []) = 2
    decide
  · show mapGet [(31, d)] 31 0 = d
    rfl
  · show b ∈ mapGet [(31, List.range 64)] 31 []
    exact List.mem_range.2 (h b hb.1)

/-- A request of a rank and kind at pseudo-channel 31. -/
def atMem (rank kind who : Nat) (w : Bool) (bad : List Nat) : State :=
  { updHbm (inCtx 0 (stack 2 [])) fun h => { h with reqs := [⟨rank, kind, who, 3 * homeSize / 64 + 28, w, 0x100⟩] } with badLines := bad }

theorem met_MemoryRequests :
    pcOf (3 * homeSize / 64 + 28) = 31 ∧
    (∀ e ∈ [(4, 5, 5, false), (4, 3, 191, false), (4, 4, 191, false), (4, 6, 0, false), (2, 0, 0, false), (2, 1, 0, true), (4, 6, 0, true), (4, 7, 0, true)],
     ∀ bad ∈ [[], [3 * homeSize / 64 + 28]], let s := atMem e.1 e.2.1 e.2.2.1 e.2.2.2 bad
     memState s = 2 ∧ nextReq s x31 = some ⟨e.1, e.2.1, e.2.2.1, 3 * homeSize / 64 + 28, e.2.2.2, 0x100⟩ ∧ (e.1 = 2 ∨ (rank3 s x31).isNone = true) ∧
     (getJob? s 5).isSome = true ∧ (closesPage s ⟨e.1, e.2.1, e.2.2.1, 3 * homeSize / 64 + 28, e.2.2.2, 0x100⟩ = true ↔ (e.2.1 = 3 ∨ e.2.1 = 7))) := by
  decide

theorem met_MemoryRequests_rank3 :
    (∀ d ∈ [(0, 1), (8, 0)], let s := updHbm (stack 2 []) fun h => { h with debt := [(31, d.1)], nrr := [(31, d.2)] }
     memState s = 2 ∧ x31.val ∉ s.hbm.held ∧ nextReq s x31 = none ∧ debtOf s x31 = d.1 ∧ mapGet s.hbm.nrr x31 0 = d.2) ∧
    (∀ n ∈ [0, homeSize / 512 - 1], let s := updHbm (stack 2 []) fun h => { h with patrol := [(31, n)] }
     mapGet s.hbm.patrol x31.val 0 = n ∧ nextReq s x31 = none) := by
  decide

/-- R331: training whose channel 15 fails leaves the stack UNUSED (6) with that channel marked. -/
theorem test_hbmTrainingDone :
    ((after (.hbmTrainingDone 0x8000) (stack 1 [])).map fun t => (memState t, rd t glb R.MEM_CHSTAT_FAIL)) = some (6, 0x8000) := by decide

/-! ### Time base and ring -/

/-- A device on the ring at position 31, both lanes UP. -/
def onRing (l : List (Nat × Field × Nat × Nat)) (f : TimeRing → TimeRing) : State :=
  let s := up ((glb, R.TIM_CFG_POS, 0, 31) :: (glb, R.TIM_LINK_STAT_IN, 0, 2) :: (glb, R.TIM_LINK_STAT_OUT, 0, 2) :: l)
  { s with ring := f s.ring }

/-- A frame from type, HOPS, SRC and DST, ALL, the bits from 32 and the payload, launched at 0. -/
def frame (type hops src dst : Nat) (all : Bool) (hi : Nat) (pay : List Nat) : Frame :=
  makeFrame (type + 16 + hops * 2 ^ 8 + src * 2 ^ 16 + dst * 2 ^ 24 + b2n all * 2 ^ 31 + hi * 2 ^ 32) 0 0 pay

theorem met_References :
    (∀ e ∈ [(1, 0, 0), (0, 0, 1), (0, 1, 1), (0, 1, 0)], let s := up [(glb, R.TIM_REF_STAT_HOLD, 0, e.1), (glb, R.TIM_REF_STAT_A_OK, 0, e.2.1), (glb, R.TIM_REF_STAT_SEL, 0, e.2.2)]
     (flag s glb R.TIM_REF_STAT_HOLD = true ↔ e.1 = 1) ∧ (flag s glb (refField (!true)) = true ↔ e.2.1 = 1) ∧ (flag s glb R.TIM_REF_STAT_SEL = true ↔ e.2.2 = 1)) ∧
    (∀ v ∈ [0, 1], let s := up [(glb, R.TIM_REF_CTL_REVERT, 0, v), (glb, R.TIM_REF_CTL_PREF, 0, 1), (glb, R.TIM_REF_STAT_B_OK, 0, 1), (glb, R.TIM_REF_STAT_HOLD, 0, 0)]
     (flag s glb R.TIM_REF_CTL_REVERT = true ↔ v = 1) ∧ flag s glb R.TIM_REF_STAT_HOLD = false ∧
     flag s glb R.TIM_REF_STAT_SEL = !flag s glb R.TIM_REF_CTL_PREF ∧ flag s glb (refField (flag s glb R.TIM_REF_CTL_PREF)) = true) ∧
    flag (up [(glb, R.TIM_STAT_SLEWING, 0, 1)]) glb R.TIM_STAT_SLEWING = true ∧
    (∀ v ∈ [0, 1], let s := up [(tileB 47, R.TIL_VCLK_CTL_EN, 0, v)]
     HostOpen s ∧ timeLive s = decide (v = 1)) ∧
    ringPosition (up []) = 0 ∧ ringPosition (onRing [] id) = 31 ∧
    (up []).boot.por = false ∧ sealed (up []) = false ∧ powerReady (up []) = true ∧ State.reset.boot.por = true ∧
    powerReady (up [(glb, R.PWR_STAT_STATE, 0, 1)]) = false := by
  unfold HostOpen
  decide

/-- R357: an edge 100 ms past a second is not stray, one 2^-16 ns further is. -/
theorem met_References_strum : ∀ e ∈ [(nsec 100000000, false), (nsec 100000000 + 1, true), (nsec 900000000, false), (nsec 900000000 - 1, true)],
    let s := up []
    let sec : Int := 65536000000000
    let x : Int := (e.1 : Int) - signed 32 (rd s glb R.TIM_STRUM_DLY_DLY)
    let ofs := x - (2 * x + sec) / (2 * sec) * sec
    decide (nsec 100000000 < ofs.natAbs) = e.2 ∧ s.ring.strumAt = none ∧ rd s glb R.TIM_STRUM_CTL_MODE = 0 ∧ timeLive s = false := by decide

/-- The modes of the Strum input. -/
theorem met_References_mode : ∀ m ∈ [0, 1, 2], ∀ v ∈ [0, 1], let s := up [(glb, R.TIM_STRUM_CTL_MODE, 0, m), (tileB 47, R.TIL_VCLK_CTL_EN, 0, v)]
    rd s glb R.TIM_STRUM_CTL_MODE = m ∧ (timeLive s = true ↔ v = 1) := by decide

/-- R350: the drops: a bad CRC, a type that is none, 31 hops, the device's own frame. -/
theorem met_RingFrames_drop :
    let s := onRing [] id
    linkIn s ≠ 0 ∧ frameCrcOk (0 :: (frame 1 0 0 0 true 0 []).drop 1) = false ∧
    (∀ e ∈ [(7, 0, 0), (1, 31, 0), (1, 0, 31)], let f := frame e.1 e.2.1 e.2.2 0 true 0 []
     frameCrcOk f = true ∧ frameRing f = ringNumber s ∧ frameType f = e.1 ∧ frameHops f = e.2.1 ∧ frameSrc f = e.2.2) ∧
    ringPosition s = 31 := by decide +kernel

/-- Frames of the types 1, 2, 4, 5 and 6 from the master are accepted, for all or for this device alone. -/
theorem met_Accepted : ∀ y ∈ [1, 2, 4, 5, 6], ∀ a ∈ [false, true],
    let s := onRing [] id
    let f := frame y 30 0 31 a 0 [2]
    Accepted s f y ∧ ForMe s f := by
  unfold Accepted ForMe
  decide +kernel

/-- A valid TIME frame, and an invalid one; a device that is live, or not; an offset below and above the step threshold; a PDELAY_RESP. -/
theorem met_RingFrames_time :
    (∀ q ∈ [0, 3], let f := frame 1 0 0 0 true 0 [q]
     frameSrc f = 0 ∧ frameDlyInv f = false ∧ frameLe (framePay f) 0 1 % 16 = q) ∧ ringPosition (onRing [] id) ≠ 0 ∧
    (∀ v ∈ [0, 1], timeLive (onRing [(tileB 47, R.TIL_VCLK_CTL_EN, 0, v)] id) = decide (v = 1)) ∧
    (∀ e ∈ [(0, false), (nsec 100000, true)], let s := onRing [(glb, R.TIM_CFG_STEPTH, 0, 100), (glb, R.TIM_STAT_QUAL, 0, 0)] id
     decide (rd s glb R.TIM_CFG_STEPTH * nsec 10 < (meanInt ((((0 : Int) - (e.1 : Int)) :: s.ring.offs).take 8)).natAbs) = e.2) ∧
    (let s := onRing [] fun r => { r with req := some (0, 9) }
     let f := frame 3 0 0 31 false 0 [9]
     linkOut s ≠ 0 ∧ frameCrcOk f = true ∧ frameType f = 3 ∧ frameRing f = ringNumber s ∧ s.ring.req = some (0, 9) ∧ frameLe (framePay f) 0 2 = 9) := by
  decide +kernel

/-- R354: delay samples that leave LEARNING, stay in it, are taken, are outliers, and send the lane back. -/
theorem met_DelayTaken : ∀ e ∈ [(1, 14, 0, 0, 0), (1, 15, 0, 0, 1), (2, 16, 65536, 0, 2), (2, 16, 65537, 14, 3), (2, 16, 65537, 15, 4)],
    let s := onRing [(glb, R.TIM_LINK_STAT_OUT, 0, e.1)] fun r => { r with samples := List.replicate e.2.1 0, outliers := e.2.2.2.1 }
    let d : Int := e.2.2.1
    (if linkOut s = 1 then (if ((d :: s.ring.samples).take 16).length < 16 then 0 else 1) else
      if (d - meanInt s.ring.samples).natAbs ≤ nsec 1 then 2 else if s.ring.outliers + 1 < 16 then 3 else 4) = e.2.2.2.2 := by decide +kernel

/-- Broadcasts of each kind with an action time still to come; a digitizer that takes BCID 5 from the ring; a gang that an abort reaches. -/
theorem met_RingFrames_bcast :
    (∀ k ∈ [1, 2, 3], let f := frame 4 0 0 0 true 0 (leBytes 8 (k + 5 * 2 ^ 8) ++ timeWords (usec 50))
     let s := onRing [] id
     frameLe (framePay f) 0 8 % 16 = k ∧ frameLe (framePay f) 0 8 / 2 ^ 8 % 2 ^ 8 = 5 ∧
     max s.now 7 < argTime (frameLe (framePay f) 8 8) (frameLe (framePay f) 16 8)) ∧
    (let s := onRing [(d3, R.DIG_TRIG_EN_BCAST, 0, 1), (d3, R.DIG_TRIG_SRC_BCID, 0, 5), (d3, R.DIG_STAT_STATE, 0, 2)] id
     flag s d3 R.DIG_TRIG_EN_BCAST = true ∧ rd s d3 R.DIG_TRIG_SRC_BCID = 5 ∧ digState s 3 ≠ 0 ∧ (getDig s 3).bcast.length < 8) ∧
    (∀ v ∈ [0, 1], let s := gangIn (onRing [(glb, R.TIM_BC_CTL_ABORT_EN, 0, v), (glb, R.TIM_BCAB_HI_TILES, 0, 2 ^ 15)] id) 3 id id
     (flag s glb R.TIM_BC_CTL_ABORT_EN = true ↔ v = 1) ∧
     s.gangs.filter (fun e => gangLive s e.2 && e.2.tiles.any fun u => bit (rd s glb R.TIM_BCAB_LO_TILES + rd s glb R.TIM_BCAB_HI_TILES * 2 ^ 32) u) = [(47, gang0)] ∧
     getGang? s 47 = some gang0 ∧ gang0.waiting = false ∧ gang0.abort = none ∧ gangArmed s gang0 = false ∧
     (let n := latchVec { s with now := max (max s.now 7) (usec 50) } gang0
      endsBy gang0 n = false ∧ gang0.genNext ≤ n)) := by decide +kernel

/-- A message frame for teller 3, its report to teller 0, and snapshot frames in time and late. -/
theorem met_RingFrames_messages :
    (let f := frame 5 0 0 31 false 0 (message 0)
     let s := onRing [] id
     frameAll f = false ∧ frameDst f = ringPosition s ∧ frameReport f = false ∧ msgRoleMode (framePay f) = false ∧ msgDst (framePay f) = 3 ∧
     msgEpoch (framePay f) = telEpoch s 3 ∧ (getTel s 3).inbox.length < 16) ∧
    (let f := frame 5 0 0 31 false (2 ^ 9) (message 0)
     let s := updTel (onRing [] id) 0 fun x => { x with slots := [⟨message 0, true⟩] }
     frameReport f = true ∧ msgSrc (framePay f) = 0 ∧ (getTel s 0).slots.find? (fun e => e.away && msgKey e.msg == msgKey (framePay f)) = some ⟨message 0, true⟩) ∧
    (∀ e ∈ [(3, usec 1, true), (4, usec 1, false), (3, 0, false)], let f := frame 6 0 0 0 true 0 (timeWords e.2.1)
     let s := onRing [] fun r => { r with snaps := List.replicate e.1 ⟨usec 9, 0, true, none, false⟩ }
     decide (7 < argTime (frameLe (framePay f) 0 8) (frameLe (framePay f) 8 8)) = decide (e.2.1 ≠ 0) ∧ decide (s.ring.snaps.length < 4) = decide (e.1 = 3) ∧
     (e.2.2 = true ↔ (7 < argTime (frameLe (framePay f) 0 8) (frameLe (framePay f) 8 8) ∧ s.ring.snaps.length < 4))) := by decide +kernel

theorem met_RingFrames_lanes : ∀ v ∈ [0, 1, 2], ∀ f ∈ [R.TIM_LINK_STAT_OUT, R.TIM_LINK_STAT_IN], let s := onRing [(glb, f, 0, v)] id
    rd s glb f = v ∧ powerUp s = true ∧ sealed s = false := by decide

/-- R353: each kind of frame is the next to leave, at the block boundary at 0 or, forwarded at 0, at the next after 40 ns. -/
theorem met_RingFrames_send :
    (∀ o ∈ [0, 2], ∀ late ∈ [false, true], let x : Launch := ⟨0, 4, [1], some 5, late⟩
     let s := starts (onRing [(glb, R.TIM_LINK_STAT_OUT, 0, o)] fun r => { r with launches := [x] }) 0x60 [] []
     SendsAt s 0 ∧ firstLaunch (allLaunches s) = some x ∧ x.tl ≤ 0 ∧ x ∈ s.ring.launches ∧ s.gangs = [] ∧ ∀ q, q < 4 → (getDig s q).job ≠ some 5) ∧
    (let s := onRing [] fun r => { r with fwd := [(0, frame 1 0 0 0 true 0 [])] }
     SendsAt s (blockAt (nsec 40)) ∧ firstLaunch (allLaunches s) = none ∧ nsec 40 ≤ blockAt (nsec 40)) ∧
    (∀ e ∈ [(true, true), (false, true), (false, false)], let s := onRing [] fun r => { r with timeDue := e.1, reqDue := e.2, msgs := [(false, 0, message 0)] }
     SendsAt s 0 ∧ firstLaunch (allLaunches s) = none ∧ s.ring.fwd = [] ∧ s.ring.timeDue = e.1 ∧ s.ring.reqDue = e.2) := by
  unfold SendsAt
  refine ⟨?_, ?_, ?_⟩ <;> decide +kernel

/-- R353: the block boundaries lie 6.4 ns apart: the one at or after 40 ns is at 44.8 ns. -/
theorem test_blockAt : blockAt (nsec 40) = (448 * 65536 + 5) / 10 := by decide

theorem met_TimeJobs_launch : ∀ e ∈ [(4, 1, 0, true), (4, 3, 15, true), (4, 3, 16, true), (5, 1, 0, false), (4, 4, 0, false)],
    let x := job 0x60 [e.1 + 24 * 2 ^ 8, 0, 0, e.2.1] []
    let s := putJob { up [] with ring := { TimeRing.reset with launches := List.replicate e.2.2.1 ⟨0, 4, [], some 6, false⟩ } } 5 x
    jobReady s 5 0x60 = some x ∧ x.phase = .dispatched ∧ (s.ring.launches.filter (·.job.isSome)).length = e.2.2.1 ∧
    decide (arg x 0 % 16 = 4 ∧ arg x 0 / 2 ^ 8 % 2 ^ 5 = 24 ∧ (arg x 3 % 16 = 1 ∨ arg x 3 % 16 = 2 ∨ arg x 3 % 16 = 3)) = e.2.2.2 := by decide

theorem met_TimeJobs_snapshot : ∀ e ∈ [(0, 2912, usec 2, 3), (0, 2911, usec 2, 0), (1, 2912, usec 200, 3), (1, 2912, usec 200 - 1, 0), (0, 2912, usec 2, 4)],
    ∀ o ∈ [0, 2], let x := { job 0x61 [fracOf e.2.2.1 + nsOf e.2.2.1 * 2 ^ 16, 0, 9, 2 ^ 63, e.2.1] [] with flags := e.1 }
    let s := putJob (onRing [(glb, R.TIM_LINK_STAT_OUT, 0, o)] fun r => { r with snaps := List.replicate e.2.2.2 ⟨usec 9, 0, true, none, false⟩ }) 5 x
    jobReady s 5 0x61 = some x ∧ x.phase = .dispatched ∧ argTime (arg x 0) (arg x 1) = e.2.2.1 ∧ arg x 4 = e.2.1 ∧ arg x 3 ≠ 0 ∧
    s.ring.snaps.length = e.2.2.2 ∧ s.now = 0 ∧ (outUp s = true ↔ o = 2) ∧ (bit x.flags 0 = true ↔ e.1 = 1) := by decide +kernel

/-- A snapshot of a job whose record goes to device memory at host address 4096. -/
def latching (b : Bool) : State :=
  hdmUp (putJob { up [] with ring := { TimeRing.reset with snaps := [⟨5, 9, false, some 5, b⟩] } } 5 (job 0x61 [0, 0, 0, 4096, 2912] []))

theorem latching_dev (b : Bool) (a : Nat) (h : a < hdmPerSector) : resolveJob (latching b) (job 0x61 [0, 0, 0, 4096, 2912] []) a true = .dev a := by
  have h1 : flag (latching b) glb R.XLT_STAT_ATS_EN = false := by cases b <;> decide
  have h2 : jobPv (latching b) (job 0x61 [0, 0, 0, 4096, 2912] []) = false := by cases b <;> decide
  have h3 : committed (latching b) = true := by cases b <;> decide
  have h4 : ∀ q ∈ List.range 4, lgrPool (latching b) q = (0, 0) ∧ acqPool (latching b) q = (0, 0) := by cases b <;> decide
  have h5 : heldAt (latching b) a = false := by
    refine List.any_eq_false.2 fun q hq => ?_
    rw [(h4 q hq).1, (h4 q hq).2]
    simp
  have h6 : inHdm (latching b) a = true := by
    show (decide (0 ≤ a) && decide (a < 0 + hdmSize)) = true
    have : hdmPerSector ≤ hdmSize := by decide
    simp
    omega
  have h7 : hdmToDev (hdmOffset (latching b) a) = a := by
    show a - 0 + (a - 0) / hdmPerSector * 0x10000000 = a
    rw [Nat.sub_zero, Nat.div_eq_of_lt h]
    omega
  unfold resolveJob resolve classify
  simp only [h1, h2, h3, h5, h6, h7, Bool.false_eq_true, if_true, if_false, Bool.true_and]
  rfl

theorem met_TimeJobs_latch : ∀ b ∈ [false, true], let s := latching b
    s.ring.snaps = [⟨5, 9, false, some 5, b⟩] ∧ getJob? s 5 = some (job 0x61 [0, 0, 0, 4096, 2912] []) ∧ Memory.wf s.devMem = true ∧ Memory.wf s.hostMem = true ∧
    mapRising 0 s.regs = true ∧ latchOwed s 32768 = false ∧
    latchOwed (putTile s 47 { Tile.reset with await := [⟨0, 0, 0, [], [], [], [], []⟩] }) (usec 1) = true := by decide

theorem met_TimeJobs_latch_dev (b : Bool) : allDev (latching b) (job 0x61 [0, 0, 0, 4096, 2912] []) 4096 2912 = some 4096 := by
  unfold allDev
  rw [latching_dev b 4096 (by decide)]
  have h : ((List.range 2912).all fun i => resolveJob (latching b) (job 0x61 [0, 0, 0, 4096, 2912] []) (4096 + i) true == .dev (4096 + i) &&
      !(latching b).sf.contains ((4096 + i) / 64)) = true := by
    refine List.all_eq_true.2 fun i hi => ?_
    have h1 := List.mem_range.1 hi
    rw [latching_dev b (4096 + i) (by unfold hdmPerSector; omega)]
    simp only [beq_self_eq_true, Bool.true_and]
    rfl
  simp only [h, if_true]

/-! ### Calibration and spares -/

theorem met_Calibrate : ∀ e ∈ [(0x20, 1, 1), (0x40, 0, 1), (0x3FF, 0, 0), (0, 1, 0)],
    let s := up [(b47, R.TIL_SEQ_STAT_STATE, 0, 1 + 2 * e.2.1), (d3, R.DIG_STAT_STATE, 0, e.2.2)]
    let args := [e.1, 2 ^ 51 + 2 ^ 47, 0]
    startsOk s 0x50 args [] = true ∧ (starts s 0x50 args []).tiles = [] ∧ (args.getD 1 0 % 2 ^ 48).testBit 47 = true ∧
    (args.getD 1 0 / 2 ^ 48 % 2 ^ 4).testBit 3 = true ∧ (tileLive s 47 = true ↔ e.2.1 = 1) ∧ (digState s 3 ≠ 0 ↔ e.2.2 = 1) := by decide

/-- Job 5 has an item left on a unit, and maybe items not run before. -/
def calibrating (l : List (Nat × Field × Nat × Nat)) (items prior : List Nat) : State :=
  putJob (up l) 5 { job 0x50 [0, 0, 0] [] with phase := .running, units := items, tally := [0, 0, 0, 0], prior := prior }

/-- Item 1 on slice 17 of tile 47 with the assay of item 0 good or not; item 5 on that slice unserved, with a card or not, with a pass or a miss. -/
theorem met_CalibrationItems :
    (∀ v ∈ [0, 1], ∀ prior ∈ [[], [3]], let s := calibrating [(secB 3, R.SEC_ASSAY_PASS, 0, v), (secB 3, R.SEC_ASSAY_VALID, 0, 1)] [1024 + 863] prior
     itemDue { job 0x50 [0, 0, 0] [] with phase := .running, units := [1024 + 863], tally := [0, 0, 0, 0], prior := prior } 1 863 = true ∧
     (getJob? s 5).map (·.units) = some [1024 + 863] ∧ (flag s glb R.GLB_CAL_CFG_AUTORET = false ∨ flag s glb R.GLB_CAL_CFG_AUTORET = true) ∧ s.tiles = [] ∧
     itemNeeds 1 863 = [(0, 3)] ∧ (assayGood s 0 3 = true ↔ v = 1) ∧ itemPre s 1 863 false = true) ∧
    (∀ c ∈ [0, 1], let s := calibrating [(glb, R.GLB_IO_STAT_CARD, 0, c), (b17, R.CHN_ASSAY_PASS, 1, 1), (b17, R.CHN_ASSAY_VALID, 1, 1)] [5 * 1024 + 47 * 18] []
     serves s 47 0 = some 0 ∧ (itemPre s 5 (47 * 18) true = true ↔ c = 1) ∧ flag (calibrating [(glb, R.GLB_CAL_CFG_AUTORET, 0, 0)] [] []) glb R.GLB_CAL_CFG_AUTORET = false) ∧
    (∀ e ∈ [(100, 192, true), (101, 192, false), (100, 191, false)], itemPasses ⟨5, e.1, e.2.1, []⟩ = e.2.2) ∧
    (∀ r ∈ [0, 1], ∀ v ∈ [0, 2], let s := calibrating [(d3, R.SEC_REF_STAT_LREF1_OK, 0, r), (d3, R.DIG_STAT_STATE, 0, v)] [3, 6 * 1024 + 3] []
     (flag s (secB 3) R.SEC_REF_STAT_LREF1_OK = true ↔ r = 1) ∧ trimWaits s 0 3 = false ∧ (trimWaits s 6 3 = true ↔ v = 2)) ∧
    itemPasses ⟨0, 501, 0, []⟩ = false ∧ itemPasses ⟨0, 500, 0, []⟩ = true := by decide

theorem met_ItemDue_waits : let x := { job 0x50 [0, 0, 0] [] with phase := .running, units := [6 * 1024 + 3], tally := [0, 0, 0, 0] }
    let s := calibrating [(d3, R.DIG_STAT_STATE, 0, 2)] [6 * 1024 + 3] []
    ItemDue s 5 x 6 3 ∧ trimWaits s 6 3 = true := by
  unfold ItemDue
  decide

theorem met_ItemDue : let x := { job 0x50 [0, 0, 0] [] with phase := .running, units := [9 * 1024], tally := [0, 0, 0, 0] }
    let s := calibrating [] [9 * 1024] []
    ItemDue s 5 x 9 0 ∧ s.rings.jobs.find? (fun e => e.2.opcode == 0x50 && e.2.phase == .running && itemDue e.2 9 0) = some (5, x) ∧
    flag s glb R.TIM_STRUM_STAT_SEEN = false := by
  unfold ItemDue
  decide

theorem met_CalibrationItems_startup : ∀ n ∈ [0, 1],
    let x := { job 0x02 [] [] with phase := .running, tally := [0, n, n, 0, 7] }
    let s := updBoot (putJob (up []) 5 x) fun b => { b with startCal := some 5 }
    s.boot.startCal = some 5 ∧ rd s glb R.MEM_STAT_STATE ≠ 6 ∧ getJob? s 5 = some x ∧ x.units = [] ∧ s.tiles = [] ∧ owesRole s 5 = false ∧ x.phase = .running := by decide

/-- Item 4 builds the tables of its own slice anew (R83). -/
theorem test_tdc_tables : let s := writeTrims (up []) 863 none ⟨4, 1, 0, [3]⟩
    (getSlice s 47 17).tdcRuns = 1 ∧ (getSlice s 47 16).tdcRuns = 0 ∧ rd s b17 R.CHN_TRIM_TDC_CORE1 = 3 := by decide

/-- Tile 47 with free slices or none, live or not, tracked. -/
theorem met_Tracking :
    (∀ r ∈ [0, 2 ^ 16 + 2 ^ 17], ∀ v ∈ [0, 1], let s := up [(glb, R.GLB_CAL_CFG_TRK, 0, 1), (telB 191, R.TIL_TEL_STAT_ROLE, 0, 3 * v), (b47, R.TIL_XPT_STAT_RETIRED, 0, r), (b47, R.TIL_SEQ_STAT_STATE, 0, 1 + 2 * v)]
     flag s glb R.GLB_CAL_CFG_TRK = true ∧ (getTile s 47).remap = none ∧ powerReady s = true ∧ (freeSlices s 47 = [] ↔ r ≠ 0) ∧ sliceOf s 47 0 = 0 ∧
     (tileLive s 47 = true ↔ v = 1) ∧ 191 ∈ tellersOfTile 47 ∧ telRole s 191 = 3 * v ∧ (v = 0 → ∀ n ∈ tellersOfTile 47, telRole s n ≠ 3)) ∧
    (∀ g ∈ [([33, -1, 0] : List Int), [0, 0, 0]], ∀ e ∈ [(0 : Int), 20],
     let s := putTile (putSlice (up []) 47 17 { getSlice (up []) 47 17 with glideTrim := g }) 47 { Tile.reset with trackResid := List.replicate 17 0 ++ [e] }
     (getSlice s 47 17).glideTrim = g ∧ tileLive s 47 = false ∧ (getTile s 47).trackResid.getD 17 0 = e) := by decide

theorem met_StatusFree (s : State) (h : s.shadow = []) (l : List (Nat × Nat)) (c : Field) : StatusFree s l c := by
  intro x _ k _
  show mapGet? s.shadow k = none
  rw [h]
  rfl

theorem met_DependencyLoss :
    (∀ e ∈ [(1, 0), (1, 1), (0, 1)], let s := up [(d3, R.SEC_REF_STAT_LREF1_OK, 0, 1), (d3, R.SEC_REF_STAT_LREF0_OK, 0, e.1), (d3, R.SEC_REF_STAT_SEL, 0, e.2)]
     flag s d3 R.SEC_REF_STAT_LREF1_OK = true ∧ (flag s d3 R.SEC_REF_STAT_LREF0_OK = true ↔ e.1 = 1) ∧ (rd s d3 R.SEC_REF_STAT_SEL = 1 ↔ e.2 = 1) ∧ s.shadow = []) ∧
    (let s := up []
     isRetired s 47 17 = false ∧ s.rings.jobs = [] ∧ (getTile s 47).remap = none ∧ serves s 47 17 = none ∧ tileLive s 47 = false ∧ pllLost s 3 = false ∧
     s.shadow = []) ∧
    (let s := up [(b47, R.TIL_SEQ_STAT_STATE, 0, 3)]
     serves s 47 15 = some 15 ∧ tileLive s 47 = true ∧ isRetired s 47 15 = false ∧ (getTile s 47).remapQ = []) ∧
    (let s := gangIn (up []) 2 id id
     s.gangs = [(47, gang0)] ∧ gang0.waiting = false ∧ gangArmed s gang0 = true ∧ 47 / 12 = 3) ∧
    (let s := { up [] with flt := { State.reset.flt with real := [detNo 0x07 3] } }
     pllLost s 3 = true ∧ injHeld s (detNo 0x07 3) = false) := by decide

theorem met_Remap : ∀ e ∈ [(47, 1, 0x1F, 0, 0), (48, 0, 0x1F, 0, 1), (47, 0, 18, 0, 1), (47, 0, 17, 0, 4), (47, 0, 16, 1, 2), (47, 0, 0, 0, 2), (47, 0, 0x1F, 0, 4),
      (47, 0, 0x1F, 3, 3)],
    let s := up [(b47, R.TIL_SEQ_STAT_STATE, 0, 1 + 2 * e.2.1), (b47, R.TIL_XPT_STAT_RETIRED, 0, e.2.2.2.1 * 2 ^ 16)]
    let args := [e.1 + 15 * 2 ^ 8 + e.2.2.1 * 2 ^ 16]
    let u := e.1
    let want := e.2.2.1
    startsOk s 0x51 args [] = true ∧
    (if u < 48 ∧ tileLive s u = true then 0 else if 48 ≤ u ∨ (18 ≤ want ∧ want ≠ 0x1F) then 1 else if want ≠ 0x1F ∧ want ∉ freeSlices s u then 2
      else if want = 0x1F ∧ freeSlices s u = [] then 3 else 4) = e.2.2.2.2 ∧
    (getTile s 47).remap = none ∧ (getTile s 47).remapQ = [] ∧ sliceOf s 47 15 = 15 ∧ flag s b47 R.TIL_TRK_STAT_NOTRK = false := by decide

/-- A remap of position 15 of tile 47 that waits, and one that tries slice 16. -/
theorem met_Remap_runs :
    (let r : RemapRun := ⟨15, 0, [16], 15, none, true⟩
     let s := putTile (up []) 47 { Tile.reset with remapQ := [r] }
     tileLive s 47 = false ∧ (getTile s 47).remap = none ∧ (getTile s 47).remapQ = [r] ∧ (freeSlices s 47).find? (fun p => !r.tried.contains p) = some 17 ∧
     sliceOf s 47 15 = 15 ∧ flag s b47 R.TIL_TRK_STAT_NOTRK = false) ∧
    (∀ tried ∈ [[], [17]], let r : RemapRun := ⟨15, 16, tried, 15, some 5, true⟩
     let x := { job 0x51 [] [] with phase := .running }
     let s := putTile (putJob (up []) 5 x) 47 { Tile.reset with remap := some r }
     (getTile s 47).remap = some r ∧ (getTile s 47).remapQ = [] ∧ getJob? s 5 = some x ∧ jobEnded x = false ∧ isRetired s 47 16 = false ∧ tileLive s 47 = false ∧
     remapItems s 47 16 = [1, 2, 3, 4, 5] ∧ (freeSlices s 47).find? (fun p => !(16 :: tried).contains p) = (if tried = [] then some 17 else none) ∧
     (∀ p, p < 18 → p ≠ 16 → p ∈ freeSlices s 47 → p = 17)) ∧
    ([1, 2, 3, 4, 5].map fun i => (⟨i, 0, 192, []⟩ : CalResult)).all itemPasses = true ∧
    ([1, 2, 3, 4, 5].map fun i => (⟨i, 2000, 192, []⟩ : CalResult)).any (fun y => y.item == 1 && !itemPasses y) = true := by decide

/-! ### Power, heat and faults -/

theorem met_PowerStates :
    (HostOpen (up []) ∧ quiet (up []) = false ∧ HostOpen (up [(glb, R.GLB_ST_STAT_READY, 0, 1)]) ∧ quiet (up [(glb, R.GLB_ST_STAT_READY, 0, 1)]) = true ∧
     flag (up [(glb, R.GLB_ST_STAT_READY, 0, 1)]) glb R.PWR_STAT_CHANGING = false) ∧
    (∀ st ∈ [0, 1], ∀ c ∈ [0, 1], let s := { up [(glb, R.PWR_STAT_STATE, 0, st), (glb, R.PWR_STAT_CHANGING, 0, c), (glb, R.PWR_CTL_WK_TIMER, 0, 1)] with wakeReq := 5 }
     powerReady s = false ∧ sealed s = false ∧ (flag s glb R.PWR_STAT_CHANGING = true ↔ c = 1) ∧ flag s glb R.PWR_CTL_WK_TIMER = true ∧ s.wakeReq ≠ 0) ∧
    (powerReady (up [(glb, R.PWR_STAT_CHANGING, 0, 1)]) = true ∧ memIdle (up [(glb, R.PWR_STAT_CHANGING, 0, 1), (glb, R.MEM_STAT_STATE, 0, 2)]) = true) := by
  unfold HostOpen
  decide

/-- Sector 3 hottest in its last sensor, after two rounds as hot: WARN, REQUEST and CRITICAL are reached at their thresholds. -/
theorem met_ThermalWatch : ∀ e ∈ [(949, 0), (950, 1), (1050, 2), (1199, 2), (1200, 4)],
    let temps := List.replicate 39 (e.1 - 10) ++ [e.1]
    let s := updBoot { up [] with thm := { State.reset.thm with temps := List.replicate 2 (List.replicate 4 e.1) } } fun b => { b with por := false }
    s.boot.por = false ∧ GoodRound s temps (List.replicate 40 true) ∧ Hottest temps 3 e.1 ∧ Hottest temps 0 (e.1 - 10) ∧ thmState s 3 = 0 ∧
    (if ∀ x ∈ [e.1, e.1, e.1], 1200 ≤ x then 4 else thermalNext 0 [e.1, e.1, e.1]) = e.2 := by
  unfold GoodRound Hottest
  decide

theorem met_ThermalWatch_grace :
    let s := { gangIn (up [(glb, R.THM_STAT_S3, 0, 2)]) 3 id id with thm := { State.reset.thm with grace := [3] } }
    thmState s 3 = 2 ∧ 3 ∈ s.thm.grace ∧ s.gangs = [(47, gang0)] ∧ gangLive s gang0 = true ∧ gang0.thermal = false ∧ gang0.holds = [] ∧ (getTile s 47).gang = some 47 := by
  decide

/-- A raise of classes 0 to 3, DEVICE_FATAL, a one-shot injection in force, and a reaction that is complete. -/
theorem met_FaultRaises :
    (∀ e ∈ [(detNo 0x1C 0, 1), (detNo 0x07 3, 3), (detNo 0x13 0, 4)], let s := { up [] with flt := { State.reset.flt with signals := [(e.1, 0)] } }
     s.boot.por = false ∧ detOk e.1 = true ∧ classOf s e.1 0 = e.2 ∧ s.flt.points = [] ∧
     (∀ x ∈ detPositions s e.1, siteAt s x.1 x.2 = none) ∧ rd s glb R.FLT_STAT_REACT = 7 ∧ powerReady s = true ∧ s.shadow = []) ∧
    (let d := detNo 0x1C 0
     let p : InjPoint := ⟨d, false, false, 0, 0, true, true, some 5⟩
     let s := putJob { up [] with flt := { State.reset.flt with points := [p], signals := [(d, 2 ^ 17)] } } 5 { job 0x70 [] [] with phase := .running }
     s.flt.points = [p] ∧ (getJob? s 5).any (fun x => x.opcode == 0x70 && !jobEnded x) = true ∧ d ∉ s.flt.real ∧ classOf s d (2 ^ 17) ≤ 3 ∧
     d / 1024 ∉ [0x01, 0x02, 0x04, 0x06, 0x07, 0x08, 0x0D, 0x0F, 0x11, 0x14] ∧ bit p.param 63 = false) ∧
    (let s := up [(glb, R.FLT_STAT_REACT, 0, 4)]
     rd s glb R.FLT_STAT_REACT = 4 ∧ (∀ u, u < 48 → seqState s u ≤ 1)) ∧
    (let s := { up [] with flt := { State.reset.flt with wires := [2053] } }
     2053 ∈ s.flt.wires ∧ 2054 ∉ s.flt.wires ∧ detOk 2054 = true) := by decide +kernel

theorem met_FaultRaises_safe : ∀ x ∈ allSlices, flag (up []) (sliceB x.1 x.2) R.CHN_STAT_SAFE = true := by decide +kernel

theorem met_FaultClearsAndInjection :
    (HostOpen (up []) ∧ kindActive (up []) 63 = false ∧ (up []).flt.signals = [] ∧
     kindActive { up [] with flt := { State.reset.flt with wires := [63 * 1024] } } 63 = true) ∧
    (let p : InjPoint := ⟨5, true, true, 0, 0, false, false, some 5⟩
     let s := starts { up [] with flt := { State.reset.flt with points := [p] } } 0x70 [] []
     (s.flt.points.map (·.det)).Nodup ∧ p.job = some 5 ∧ (getJob? s 5).any (fun x => !jobEnded x) = true) := by
  unfold HostOpen
  decide

/-- The checks of INJECT in their order, and the modes of an accepted one. -/
theorem met_FaultClearsAndInjection_inject :
    ∀ e ∈ [(63 * 1024 + 1023, 1, 0, 0, 1, 0, 0, 0), (detNo 0x1C 0, 3, 0, 0, 1, 0, 0, 0), (detNo 0x1C 0, 1, 0, 2 ^ 16, 1, 0, 0, 0), (detNo 0x1C 0, 1, 0, 0, 0, 0, 0, 1),
      (detNo 0x27 0, 1, 0, 0, 1, 0, 0, 1), (detNo 0x1C 0, 1, 1, 0, 1, 0, 0, 2), (detNo 0x1C 0, 2, 0, 0, 1, 16, 0, 3), (detNo 0x1C 0, 0, 0, 0, 1, 16, 0, 4),
      (detNo 0x1C 0, 1, 1, 0, 1, 0, 2, 5), (detNo 0x1C 0, 1, 0, 2 ^ 63, 1, 0, 0, 5), (detNo 0x1C 0, 2, 0, 0, 1, 15, 0, 5)],
    let det := e.1
    let mode := e.2.1
    let timed := e.2.2.1 == 1
    let param := e.2.2.2.1
    let args := [det + mode * 2 ^ 16 + e.2.2.1 * 2 ^ 18, fracOf (usec e.2.2.2.2.2.2.1) + nsOf (usec e.2.2.2.2.2.2.1) * 2 ^ 16, 0, param]
    let s := { up [(glb, R.FLT_INJ_CTL_EN, 0, e.2.2.2.2.1)] with
      flt := { State.reset.flt with points := (List.range e.2.2.2.2.2.1).map fun i => ⟨i, true, true, 0, 0, false, false, none⟩ } }
    startsOk s 0x70 args [] = true ∧
    (if detOk det = false ∨ mode = 3 ∨ param / 2 ^ 16 % 2 ^ 47 ≠ 0 then 0
     else if flag s glb R.FLT_INJ_CTL_EN = false ∨ (0x27 ≤ det / 1024 ∧ flag s glb R.FLT_INJ_CTL_SEALOK = false) then 1
     else if timed = true ∧ argAt (job 0x70 args []) 1 < s.now + usec 2 then 2
     else if mode ≠ 0 ∧ 16 ≤ s.flt.points.length ∧ ∀ p ∈ s.flt.points, p.det ≠ det then 3
     else if mode = 0 ∧ ∀ p ∈ s.flt.points, p.det = det → p.job = none then 4
     else if (∀ p ∈ s.flt.points, p.det ≠ det) ∧ det ∉ s.flt.raised ∧ det ∉ s.flt.real then 5 else 6) = e.2.2.2.2.2.2.2 := by decide

theorem met_FaultClearsAndInjection_force :
    let p : InjPoint := ⟨detNo 0x1C 0, true, true, 0, 0, false, false, some 5⟩
    let s := starts { up [] with flt := { State.reset.flt with points := [p] } } 0x70 [] []
    s.flt.points = [p] ∧ p.inForce = false ∧ p.param.testBit 63 = false ∧ p.det ∉ s.flt.raised ∧ p.det ∉ s.flt.real ∧ JobOpen s 5 :=
  ⟨by decide, rfl, by decide, by decide, by decide, job 0x70 [] [], by decide, by decide⟩

theorem met_OutsideWorld_lanes :
    (∀ e ∈ [([], false), ([4, 3], true), ([6, 4], true), ([7, 6], true), ([3, 2], false), ([6, 3], false)], ∀ b ∈ [false, true], let a : Await := ⟨5, 0, 0, [], [], [], [], []⟩
     let s := putTile (up []) 47 { Tile.reset with laneFails := e.1, laneLost := b, await := [a] }
     let x := getTile s 47
     let fails := 5 :: x.laneFails.filter fun v => v != 5 && decide (5 < v + 256)
     x.laneLost = b ∧ (e.2 = true ↔ ∃ v ∈ [3, 4, 5], v ∈ fails ∧ v + 1 ∈ fails ∧ v + 2 ∈ fails) ∧ a ∈ x.await ∧ a.vec = 5 ∧ gangOf s 47 = none ∧
     s.shadow = []) ∧
    (let g := { gang0 with phase := .ending 4 }
     let s := gangIn (up []) 3 (fun _ => g) fun x => { x with vbuf := [(5, ⟨0, false, 0, 0, 0, false⟩)] }
     gangOf s 47 = some (47, g) ∧ (getTile s 47).vbuf = [(5, ⟨0, false, 0, 0, 0, false⟩)] ∧ g.phase ≠ .seg ∧ ∀ u ∈ g.tiles, u < 48) := by decide

/-- R430: the balls of channels 0, 191, 192 and 581. -/
theorem test_channelBall : channelBall 0 = (1, 1) ∧ channelBall 191 = (5, 48) ∧ channelBall 192 = (1, 54) ∧ channelBall 581 = (53, 2) := by decide

theorem met_OutsideWorld :
    (∀ st ∈ [0, 2], digState (up [(d3, R.DIG_STAT_STATE, 0, st)]) 3 = st) ∧
    (3 ∉ (up []).lockout ∧ 3 ∈ { up [] with lockout := [3] }.lockout ∧ (up []).boot.por = false ∧ (up []).shadow = []) ∧
    (∀ op ∈ [0x20, 0x21], let x := { job op [] [] with phase := .running }
     getJob? (putJob (up []) 5 x) 5 = some x) ∧
    (∀ v ∈ [0, 1], let s := gangIn (up [(glb, R.GLB_IO_STAT_CARD, 0, v), (glb, R.GLB_IO_STAT_TOUCH, 0, v), (glb, R.GLB_PRB_CTL_LIFTABORT, 0, v)]) 2 id id
     HostOpen s ∧ (flag s glb R.GLB_IO_STAT_CARD = true ↔ v = 1) ∧ (flag s glb R.GLB_IO_STAT_TOUCH = true ↔ v = 1) ∧
     (flag s glb R.GLB_PRB_CTL_LIFTABORT = true ↔ v = 1) ∧ s.gangs = [(47, gang0)] ∧ gang0.waiting = false ∧ gangArmed s gang0 = true) := by
  unfold HostOpen
  decide

theorem met_Sideband :
    (∀ e ∈ [(0, Pec.good, true, 0), (0, .absent, true, 0), (1, .absent, false, 0), (0, .bad, false, 0), (0, .good, false, 1)],
     let s := up [(glb, R.GLB_SMB_CFG_PECREQ, 0, e.1), (glb, R.GLB_SMB_STAT_FUSE_BUSY, 0, e.2.2.2), (glb, R.GLB_SMB_STAT_ALERT, 0, 1)]
     s.boot.por = false ∧ (SmbServed s true e.2.1 ↔ e.2.2.1 = true) ∧ flag s glb R.GLB_SMB_STAT_ALERT = true) ∧
    (∀ v ∈ [false, true], let s := { up [(glb, R.GLB_SMB_CFG_FUSE_EN, 0, 1)] with smb := { State.reset.smb with armed := v } }
     s.smb.armed = v ∧ flag s glb R.GLB_SMB_CFG_FUSE_EN = true ∧ powerReady s = true) ∧
    (∀ c ∈ [0x11, 0x12, 0x13], let s := { up [] with smb := { State.reset.smb with burn := some (c, 3, [1]) } }
     s.smb.burn = some (c, 3, [1])) := by
  unfold SmbServed
  decide

/-! ### Reset and start-up -/

/-- Power-on reset holds at first; a sealed part, and a running one. -/
theorem met_ColdReset :
    (State.reset.boot.por = true ∧ sealed State.reset = false ∧ rdi State.reset glb R.FLT_KSTAT_LATCHED 0x27 ≠ 1 ∧ rd State.reset glb R.FLT_STAT_REACT = 7 ∧
     State.reset.shadow = []) ∧
    sealed (up [(glb, R.FLT_STAT_SEALED, 0, 1)]) = true ∧ sealed (up []) = false ∧ (up []).boot.por = false ∧
    isTrim (fieldKey b17 R.CHN_TRIM_LVL_OFS 5) = true ∧ isTrim 0 = false := by decide

theorem met_StartupAndWarmReset :
    (∀ v ∈ [false, true], let s := updBoot (up []) fun b => { b with plls := true, locked := v }
     s.boot.plls = true ∧ s.boot.locked = v ∧ sealed s = false ∧ flag s glb R.GLB_ST_STAT_SELFTEST = false) ∧
    (∀ e ∈ [(0, 1), (1, 0), (0, 0)], let s := up [(glb, R.GLB_RST_STAT_BUSY, 0, e.1), (glb, R.GLB_ST_STAT_READY, 0, e.2), (glb, R.HAT_LINK_STAT_UP, 0, 1)]
     sealed s = false ∧ (HostOpen s ↔ e.1 = 0) ∧ (flag s glb R.GLB_RST_STAT_BUSY = true ↔ e.1 = 1) ∧ (flag s glb R.GLB_ST_STAT_READY = true ↔ e.2 = 1) ∧
     flag s glb R.HAT_LINK_STAT_UP = true ∧ s.boot.por = false ∧ s.gangs = [] ∧ s.shadow = []) ∧
    (let s := up [(telB 191, R.TIL_TEL_STAT_STATE, 0, 1), (telB 191, R.TIL_TEL_STAT_SLOT, 0, 7)]
     telState s 191 = 1 ∧ rdi s glb R.GLB_IMGSTAT_VALID (rd s (telB 191) R.TIL_TEL_STAT_SLOT) ≠ 1) := by
  unfold HostOpen
  decide

/-- The self-test names the slice that serves position 15 of tile 47; the lowest free slice takes its place. -/
theorem met_StartupAndWarmReset_selftest :
    let s := updBoot (up []) fun b => { b with locked := true }
    SelfFails s [47 * 18 + 15] [] 47 15 ∧ (∀ p, p < 18 → SelfFails s [47 * 18 + 15] [] 47 p → p = 15) ∧ sliceOf s 47 15 = 15 ∧ (getTile s 47).remap = none ∧
    (∀ m, m < 16 → m ≠ 15 → isRetired s 47 (sliceOf s 47 m) = false ∧ sliceOf s 47 m ≠ sliceOf s 47 15) ∧ (freeSlices s 47).head? = some 16 := by
  unfold SelfFails
  decide

end Sys2Proof.Tests
end

section
/-! PROOFS. The vector clock (R65 to R67, R70): the arithmetic of the phase law, the register fields of tiles, and what
EN, ARM and CANCEL do. -/
namespace Sys2Proof.Machine

/-! ### The phase law (R65) -/

theorem two_mul_add_one_mul (d b : Nat) : (2 * d + 1) * b = 2 * (d * b) + b := by
  rw [Nat.add_mul, Nat.mul_assoc, Nat.one_mul]

theorem roundDiv_le_iff {a b d : Nat} (hb : 0 < b) : roundDiv a b ≤ d ↔ 2 * a < (2 * d + 1) * b := by
  unfold roundDiv
  rw [← Nat.lt_add_one_iff, Nat.div_lt_iff_lt_mul (by omega)]
  have hleft : (d + 1) * (2 * b) = 2 * (d * b + b) := by rw [Nat.mul_left_comm, Nat.add_mul, Nat.one_mul]
  have hright := two_mul_add_one_mul d b
  omega

theorem roundDiv_zero {b : Nat} (hb : 0 < b) : roundDiv 0 b = 0 :=
  Nat.le_zero.mp ((roundDiv_le_iff hb).mpr (by omega))

/-- A numerator larger by at least the divisor rounds to a larger quotient. -/
theorem roundDiv_lt {a c b : Nat} (hb : 0 < b) (h : a + b ≤ c) : roundDiv a b < roundDiv c b := by
  unfold roundDiv
  calc (2 * a + b) / (2 * b) < (2 * a + b) / (2 * b) + 1 := Nat.lt_succ_self _
    _ = (2 * a + b + 2 * b) / (2 * b) := (Nat.add_div_right _ (by omega)).symm
    _ ≤ (2 * c + b) / (2 * b) := Nat.div_le_div_right (by omega)

section
variable {l : Law} (h0 : 0 < l.ftw) (h1 : l.ftw ≤ 2 ^ 63)
include h0

theorem lawTime_ph0 : lawTime l l.ph0 = l.e := by simp [lawTime, roundDiv_zero h0]

/-- Boundary n lies at or before x, as an inequality without division. -/
theorem lawTime_le_iff {n x : Nat} (hx : l.e ≤ x) :
    lawTime l n ≤ x ↔ 2 * ((n - l.ph0) * 2 ^ 63) < (2 * (x - l.e) + 1) * l.ftw := by
  rw [← roundDiv_le_iff h0, lawTime]
  omega

include h1

/-- A period is at least one unit of 2^-16 ns, so no two boundaries fall together. -/
theorem lawTime_lt {m n : Nat} (hm : l.ph0 ≤ m) (hn : m < n) : lawTime l m < lawTime l n := by
  refine Nat.add_lt_add_left (roundDiv_lt h0 ?_) _
  have : (m - l.ph0 + 1) * 2 ^ 63 ≤ (n - l.ph0) * 2 ^ 63 := Nat.mul_le_mul_right _ (by omega)
  omega

/-- `lawAt` is the last vector whose boundary lies at or before x. -/
theorem lawAt_spec {x : Nat} (hx : l.e ≤ x) :
    l.ph0 ≤ lawAt l x ∧ lawTime l (lawAt l x) ≤ x ∧ x < lawTime l (lawAt l x + 1) := by
  have hdiv := Nat.div_add_mod ((x - l.e) * l.ftw) (2 ^ 63)
  have hmod := Nat.mod_lt ((x - l.e) * l.ftw) (show 0 < 2 ^ 63 by decide)
  have hexp := two_mul_add_one_mul (x - l.e) l.ftw
  have hle : lawTime l (l.ph0 + (x - l.e) * l.ftw / 2 ^ 63) ≤ x := by
    rw [lawTime_le_iff h0 hx]; omega
  have hlt : x < lawTime l (l.ph0 + (x - l.e) * l.ftw / 2 ^ 63 + 1 + 1) := by
    rw [← Nat.not_le, lawTime_le_iff h0 hx]; omega
  unfold lawAt
  dsimp only
  split
  next hup => exact ⟨by omega, hup, hlt⟩
  next hup => exact ⟨by omega, hle, Nat.lt_of_not_le hup⟩

/-- `lawNext` is the first vector whose boundary lies at or after x (R67). -/
theorem lawNext_spec (x : Nat) :
    l.ph0 ≤ lawNext l x ∧ x ≤ lawTime l (lawNext l x) ∧ ∀ m, l.ph0 ≤ m → m < lawNext l x → lawTime l m < x := by
  unfold lawNext
  split
  next hx => exact ⟨Nat.le_refl _, (lawTime_ph0 h0).symm ▸ hx, fun m hm hn => absurd hn (by omega)⟩
  next hx =>
    obtain ⟨hph, hat, hafter⟩ := lawAt_spec h0 h1 (x := x) (by omega)
    dsimp only
    split
    next heq =>
      have hxe : lawTime l (lawAt l x) = x := by simpa using heq
      exact ⟨hph, Nat.le_of_eq hxe.symm, fun m hm hn => hxe ▸ lawTime_lt h0 h1 hm hn⟩
    next hne =>
      have hbefore : lawTime l (lawAt l x) < x := Nat.lt_of_le_of_ne hat (by simpa using hne)
      refine ⟨by omega, Nat.le_of_lt hafter, fun m hm hn => ?_⟩
      obtain hlast | heq := Nat.lt_succ_iff_lt_or_eq.mp hn
      · exact Nat.lt_trans (lawTime_lt h0 h1 hm hlast) hbefore
      · exact heq ▸ hbefore

end

theorem boundaryTime_eq (s : State) (t n : Nat) : boundaryTime s t n = lawTime (lawOf s t) n := rfl

theorem ftwOk_iff {f : Nat} : ftwOk f = true ↔ 0x8637BD1 ≤ f ∧ f ≤ 0x666666666666 := by simp [ftwOk]

/-! ### Register fields of tiles -/

/-- The keys of fields of tile u. -/
def tileKeys (u : Nat) (fs : List Field) : List Nat := fs.map fun f => fieldKey (tileB u) f 0

/-- The field lies inside a tile's block. -/
def inTile (f : Field) : Bool := decide (relKey f 0 < 0x20000 * 32)

theorem regsBut_tile_wr {s t : State} {u : Nat} {fs : List Field} (h : RegsBut s t (tileKeys u fs)) {f : Field} (hf : f ∈ fs) (v : Nat) :
    RegsBut s (wr t (tileB u) f v) (tileKeys u fs) :=
  regsBut_wri h _ _ _ _ (List.mem_map_of_mem hf)

/-- A register write to a state that differs from s in registers alone leaves such a state. -/
theorem wr_regsOnly {s t : State} (h : t = { s with regs := t.regs }) (b : Nat) (f : Field) (v : Nat) :
    wr t b f v = { s with regs := (wr t b f v).regs } := by
  rw [h]
  rfl

/-- A field of tile v differs from those listed of tile u if the tiles differ or its place in the block does. -/
theorem rd_of_regsBut {s t : State} {u v : Nat} {fs : List Field} {g : Field} (h : RegsBut s t (tileKeys u fs)) (hg : inTile g = true)
    (hf : ∀ f ∈ fs, inTile f = true) (hne : v = u → ∀ f ∈ fs, relKey f 0 ≠ relKey g 0) : rd t (tileB v) g = rd s (tileB v) g := by
  refine regsBut_rdi h fun hk => ?_
  obtain ⟨f, hm, he⟩ := List.mem_map.mp hk
  have hfin := hf f hm
  simp only [inTile, decide_eq_true_eq] at hg hfin
  rw [fieldKey_eq, fieldKey_eq] at he
  unfold tileB at he
  have huv : v = u := by omega
  subst huv
  exact hne rfl f hm (by omega)

/-- The fields that hold a tile's law. -/
def lawFields : List Field :=
  [R.TIL_VCLK_EPOCH0_FRAC, R.TIL_VCLK_EPOCH1_NS, R.TIL_VCLK_EPOCH2_SEC, R.TIL_VCLK_EPOCH3_SEC, R.TIL_VCLK_PH0_LO_PH0,
   R.TIL_VCLK_PH0_HI_PH0, R.TIL_VCLK_FTW_LO_FTW, R.TIL_VCLK_FTW_HI_FTW]

theorem lawOf_congr {s t : State} {v : Nat} (h : ∀ g ∈ lawFields, rd t (tileB v) g = rd s (tileB v) g) : lawOf t v = lawOf s v := by
  simp only [lawFields, List.forall_mem_cons] at h
  obtain ⟨e0, e1, e2, e3, p0, p1, f0, f1, -⟩ := h
  simp only [lawOf, rdTime, rd64, e0, e1, e2, e3, p0, p1, f0, f1]

/-- Writes of other fields of a tile leave the law of every tile. -/
theorem lawOf_of_regsBut {s t : State} {u : Nat} {fs : List Field} (h : RegsBut s t (tileKeys u fs)) (hf : ∀ f ∈ fs, inTile f = true)
    (hl : ∀ g ∈ lawFields, ∀ f ∈ fs, relKey f 0 ≠ relKey g 0) (v : Nat) : lawOf t v = lawOf s v := by
  have hin : ∀ g ∈ lawFields, inTile g = true := by decide
  exact lawOf_congr fun g hg => rd_of_regsBut h (hin g hg) hf fun _ => hl g hg

/-! ### Accesses of the host -/

/-- Where a host access completes, a register write has its effect (R479). -/
theorem barWrite_of_hostOpen {s : State} (h : HostOpen s) (off : Nat) (k : State → State) : barWrite s none off k = k s := by
  obtain ⟨hrst, hseal, hd3, hpow, hlane⟩ := h
  have hblk : laneBlocked s off = false := by
    unfold laneBlocked
    split <;> simp [hlane]
  simp [barWrite, barClosed, hrst, hseal, hd3, hpow, hblk]

theorem runs_of_barWrite {s : State} (h : HostOpen s) {c : Instr} {off : Nat} (k : State → State)
    (hc : exec c s = .next (barWrite s none off k)) {P : State → Prop} (hP : P (k s)) : Runs c s P :=
  ⟨k s, by rw [hc, barWrite_of_hostOpen h], hP⟩

/-! ### EN, and refusals (R66, R67) -/

theorem flag_setF_self (s : State) (b : Nat) {f : Field} (hw : f.width = 1) : flag (setF s b f) b f = true := by
  simp [flag, setF, hw]

theorem flag_clrF_self (s : State) (b : Nat) (f : Field) : flag (clrF s b f) b f = false := by simp [flag, clrF]

theorem flag_wr_b2n (s : State) (b : Nat) {f : Field} (hw : f.width = 1) (v : Bool) : flag (wr s b f (b2n v)) b f = v := by
  cases v <;> simp [flag, hw, b2n]

theorem vclkRefuse_refused (s : State) (t cause : Nat) : VclkRefused s (vclkRefuse s t cause) t (cause % 8) := by
  refine ⟨?_, rd_wr_self _ _ _ _, rfl, ?_⟩
  · exact (flag_wr_ne _ _ _ (by decide)).trans (flag_setF_self _ _ rfl)
  · exact regsBut_tile_wr (fs := [_, _]) (regsBut_tile_wr (regsBut_refl _ _) (by decide) _) (by decide) _

/-- The fields that EN = 1 settles. -/
def enableFields : List Field :=
  [R.TIL_VCLK_CTL_EN, R.TIL_VCLK_STAT_RUNNING, R.TIL_SEQ_LAMBDA_LAMBDA, R.TIL_VCNT_LO_VCNT, R.TIL_VCNT_HI_VCNT]

/-- The clock of tile t has started: `EN` and `RUNNING` show it, n is the next vector, and no other
register fields than `enableFields` have changed. -/
def ClockStarted (s r : State) (t n : Nat) : Prop :=
  flag r (tileB t) R.TIL_VCLK_CTL_EN = true ∧ flag r (tileB t) R.TIL_VCLK_STAT_RUNNING = (!pllLost s (sectorOf t)) ∧
  r = { s with regs := r.regs, tiles := r.tiles } ∧ (getTile r t).nextVec = n ∧ RegsBut s r (tileKeys t enableFields)

/-- The vector counter is no part of what a started clock shows. -/
theorem clockStarted_setVcnt {s r : State} {t n : Nat} (h : ClockStarted s r t n) (c : Nat) : ClockStarted s (setVcnt r t c) t n := by
  obtain ⟨hen, hrun, hfr, hnext, hregs⟩ := h
  refine ⟨?_, ?_, ?_, hnext, ?_⟩
  · simpa (disch := decide) only [setVcnt, wr64, flag_wr_ne] using hen
  · simpa (disch := decide) only [setVcnt, wr64, flag_wr_ne] using hrun
  · rw [hfr]; rfl
  · exact regsBut_tile_wr (regsBut_tile_wr hregs (by decide) _) (by decide) _

/-- The state in which the clock of tile t has started with next vector n, its counter not yet set. -/
def startClock (s : State) (t n : Nat) : State :=
  updTile (wr (wr (setF s (tileB t) R.TIL_VCLK_CTL_EN) (tileB t) R.TIL_VCLK_STAT_RUNNING (b2n (!pllLost s (sectorOf t)))) (tileB t)
    R.TIL_SEQ_LAMBDA_LAMBDA (lambdaOf (lawOf s t).ftw)) t fun x => { x with nextVec := n }

theorem flag_updTile (s : State) (t : Nat) (g : Tile → Tile) (b : Nat) (f : Field) : flag (updTile s t g) b f = flag s b f :=
  flag_of_regs (putTile_regs s t _) b f

theorem startClock_started (s : State) (t n : Nat) : ClockStarted s (startClock s t n) t n := by
  unfold startClock
  generalize lambdaOf (lawOf s t).ftw = k
  refine ⟨?_, ?_, rfl, ?_, ?_⟩
  · simp (disch := decide) only [flag_updTile, flag_wr_ne]
    exact flag_setF_self _ _ rfl
  · simp (disch := decide) only [flag_updTile, flag_wr_ne]
    exact flag_wr_b2n _ _ rfl _
  · simp [updTile]
  · exact regsBut_tile_wr (regsBut_tile_wr (regsBut_tile_wr (regsBut_refl _ _) (by decide) _) (by decide) _) (by decide) _

/-- The law stands here as a variable, so that the kernel does not evaluate the products with 2^32 in its registers. -/
theorem vclkEnable_eq {s : State} {t : Nat} {l : Law} (hl : lawOf s t = l) (hen : flag s (tileB t) R.TIL_VCLK_CTL_EN = false)
    (hok : ftwOk l.ftw = true) :
    vclkEnable s t = if l.ph0 < lawNext l s.now then setVcnt (startClock s t (lawNext l s.now)) t (lawNext l s.now - 1)
      else startClock s t (lawNext l s.now) := by
  simp [vclkEnable, startClock, hl, hen, hok]

theorem vclkEnable_started {s : State} {t : Nat} (hen : flag s (tileB t) R.TIL_VCLK_CTL_EN = false)
    (hok : ftwOk (lawOf s t).ftw = true) : ClockStarted s (vclkEnable s t) t (lawNext (lawOf s t) s.now) := by
  rw [vclkEnable_eq rfl hen hok]
  split
  · exact clockStarted_setVcnt (startClock_started s t _) _
  · exact startClock_started s t _

theorem vclkEnable_refused {s : State} {t : Nat} (hen : flag s (tileB t) R.TIL_VCLK_CTL_EN = false)
    (hok : ftwOk (lawOf s t).ftw = false) : vclkEnable s t = vclkRefuse s t 2 := by
  simp [vclkEnable, hen, hok]

theorem vclkDisable_live {s : State} {t : Nat} (hen : flag s (tileB t) R.TIL_VCLK_CTL_EN = true) (hlive : tileLive s t = true) :
    vclkDisable s t = setF s (tileB t) R.TIL_VCLK_STAT_WR_IGN := by
  simp [vclkDisable, hen, hlive]

theorem vclkDisable_idle {s : State} {t : Nat} (hen : flag s (tileB t) R.TIL_VCLK_CTL_EN = true) (hlive : tileLive s t = false) :
    vclkDisable s t = clrF (clrF s (tileB t) R.TIL_VCLK_CTL_EN) (tileB t) R.TIL_VCLK_STAT_RUNNING := by
  simp [vclkDisable, hen, hlive]

/-! ### Pending changes (R70) -/

/-- The pending change of each tile of us has become p, as its `PEND` shows; other tiles, and every law, are as before. -/
def SetsPend (s t : State) (us : List Nat) (p : Option PerChange) : Prop :=
  t = { s with regs := t.regs, tiles := t.tiles } ∧
  (∀ u ∈ us, (getTile t u).pend = p ∧ flag t (tileB u) R.TIL_VCLK_STAT_PEND = p.isSome) ∧
  (∀ u, u ∉ us → getTile t u = getTile s u ∧ flag t (tileB u) R.TIL_VCLK_STAT_PEND = flag s (tileB u) R.TIL_VCLK_STAT_PEND) ∧
  ∀ v, lawOf t v = lawOf s v

theorem setsPend_nil (s : State) (p : Option PerChange) : SetsPend s s [] p :=
  ⟨rfl, fun _ h => absurd h List.not_mem_nil, fun _ _ => ⟨rfl, rfl⟩, fun _ => rfl⟩

theorem setsPend_trans {s t r : State} {us vs : List Nat} {p : Option PerChange} (h : SetsPend s t us p) (k : SetsPend t r vs p) :
    SetsPend s r (us ++ vs) p := by
  obtain ⟨hfr, hin, hout, hlaw⟩ := h
  obtain ⟨kfr, kin, kout, klaw⟩ := k
  refine ⟨by rw [kfr, hfr], fun u hu => ?_, fun u hu => ?_, fun v => (klaw v).trans (hlaw v)⟩
  · by_cases hv : u ∈ vs
    · exact kin u hv
    · rw [(kout u hv).1, (kout u hv).2]
      exact hin u ((List.mem_append.mp hu).resolve_right hv)
  · rw [List.mem_append, not_or] at hu
    rw [(kout u hu.2).1, (kout u hu.2).2]
    exact hout u hu.1

/-- An operation that sets the change of one tile sets it in every tile of a list it is carried out for. -/
theorem setsPend_foldl {g : State → Nat → State} {p : Option PerChange} (hg : ∀ s u, SetsPend s (g s u) [u] p) (us : List Nat) (s : State) :
    SetsPend s (us.foldl g s) us p := by
  induction us generalizing s with
  | nil => exact setsPend_nil s p
  | cons u us ih => exact setsPend_trans (hg s u) (ih (g s u))

/-- The fields that arming a change writes. -/
def pendFields : List Field :=
  [R.TIL_VCLK_NFTW_LO_NFTW, R.TIL_VCLK_NFTW_HI_NFTW, R.TIL_VCLK_NTIME0_FRAC, R.TIL_VCLK_NTIME1_NS, R.TIL_VCLK_NTIME2_SECL,
   R.TIL_VCLK_NTIME3_SECH, R.TIL_VCLK_STAT_PEND]

/-- Register writes of the change's fields of tile u with `PEND` as p wants it, then the change itself. -/
theorem setsPend_updTile {s r : State} {u : Nat} {p : Option PerChange} (hfr : r = { s with regs := r.regs })
    (hregs : RegsBut s r (tileKeys u pendFields)) (hp : flag r (tileB u) R.TIL_VCLK_STAT_PEND = p.isSome) :
    SetsPend s (updTile r u fun x => { x with pend := p }) [u] p := by
  have hin : ∀ f ∈ pendFields, inTile f = true := by decide
  refine ⟨by rw [hfr]; rfl, fun v hv => ?_, fun v hv => ?_, fun v => ?_⟩
  · obtain rfl := List.mem_singleton.mp hv
    exact ⟨by simp [updTile], hp⟩
  · have hne : v ≠ u := fun e => hv (List.mem_singleton.mpr e)
    have hrd : rd r (tileB v) R.TIL_VCLK_STAT_PEND = rd s (tileB v) R.TIL_VCLK_STAT_PEND :=
      rd_of_regsBut hregs (by decide) hin fun e => absurd e hne
    refine ⟨?_, congrArg (· == 1) hrd⟩
    rw [updTile, getTile_putTile_ne _ _ hne, hfr]
    rfl
  · exact lawOf_of_regsBut hregs hin (by decide) v

/-- The writes of change c in tile u. -/
def setChange (c : PerChange) (s : State) (u : Nat) : State :=
  updTile (setF (wrTime (wr64 s (tileB u) R.TIL_VCLK_NFTW_LO_NFTW R.TIL_VCLK_NFTW_HI_NFTW c.ftw) (tileB u) R.TIL_VCLK_NTIME0_FRAC
    R.TIL_VCLK_NTIME1_NS R.TIL_VCLK_NTIME2_SECL R.TIL_VCLK_NTIME3_SECH c.tc) (tileB u) R.TIL_VCLK_STAT_PEND) u
    fun x => { x with pend := some c }

/-- Where no job's change is replaced, an arm is its writes in every tile. -/
theorem armApply_eq_foldl {s : State} {tiles : List Nat} {ftw tc : Nat} {job : Option Nat}
    (hjob : ∀ c, (getTile s (tiles.headD 0)).pend = some c → c.job = none) :
    armApply s tiles ftw tc job = tiles.foldl (setChange ⟨tiles, ftw, tc, job⟩) s := by
  unfold armApply
  cases hp : (getTile s (tiles.headD 0)).pend with
  | some c => simp only [hjob c hp, endJob?]; rfl
  | none => rfl

theorem setChange_setsPend (c : PerChange) (s : State) (u : Nat) : SetsPend s (setChange c s u) [u] (some c) := by
  refine setsPend_updTile ?_ ?_ (flag_setF_self _ _ rfl)
  · iterate 7 refine wr_regsOnly ?_ _ _ _
    rfl
  · iterate 7 refine regsBut_tile_wr ?_ (by decide) _
    exact regsBut_refl _ _

theorem armApply_setsPend {s : State} {tiles : List Nat} {ftw tc : Nat} {job : Option Nat}
    (hjob : ∀ c, (getTile s (tiles.headD 0)).pend = some c → c.job = none) :
    SetsPend s (armApply s tiles ftw tc job) tiles (some ⟨tiles, ftw, tc, job⟩) := by
  rw [armApply_eq_foldl hjob]
  exact setsPend_foldl (setChange_setsPend _) tiles s

theorem vclkArmAt_refused {s : State} {t ftw tc st cause : Nat} (h : armCheck s (changeTiles s t) ftw tc = some (st, cause)) :
    vclkArmAt s t ftw tc = vclkRefuse s t cause := by
  rw [vclkArmAt, h]

theorem vclkArmAt_passed {s : State} {t ftw tc : Nat} (h : armCheck s (changeTiles s t) ftw tc = none) :
    vclkArmAt s t ftw tc = armApply s (changeTiles s t) ftw tc none := by
  rw [vclkArmAt, h]

theorem vclkCancel_late {s : State} {t : Nat} {c : PerChange} (hc : (getTile s t).pend = some c) (h : c.tc < s.now + usec 2) :
    vclkCancel s t = vclkRefuse s t 4 := by
  simp [vclkCancel, hc, h]

theorem vclkCancel_setsPend {s : State} {t : Nat} {c : PerChange} (hc : (getTile s t).pend = some c) (h : s.now + usec 2 ≤ c.tc)
    (hjob : c.job = none) : SetsPend s (vclkCancel s t) c.tiles none := by
  simp only [vclkCancel, hc, Nat.not_lt.mpr h, if_false, hjob, endJob?]
  exact setsPend_foldl (fun s u => setsPend_updTile (p := none) rfl (regsBut_tile_wr (regsBut_refl _ _) (by decide) 0)
    (flag_clrF_self s _ _)) c.tiles s

/-! ### The statement -/

/-- Settles O19, part by part: EN = 1 by `lawNext_spec`, and ARM and CANCEL by `setsPend_foldl`. -/
theorem vectorClock : Obligations.VectorClock := by
  unfold Obligations.VectorClock
  simp only [boundaryTime_eq]
  intro s ti ho
  refine ⟨fun hen hlo hhi => ?_, fun hen hout => ?_, fun hen hlive => ?_, fun hen hlive => ?_,
    ⟨fun st cause hck => ?_, fun hck hjob => ?_⟩, fun c hc => ⟨fun hlate => ?_, fun hahead hjob => ?_⟩⟩
  · refine runs_of_barWrite ho (vclkEnable · ti) rfl ?_
    obtain ⟨hon, hrun, hfr, hnext, hregs⟩ := vclkEnable_started hen (ftwOk_iff.mpr ⟨hlo, hhi⟩)
    exact ⟨hon, hrun, hfr, ⟨_, hnext, lawNext_spec (by omega) (by omega) s.now⟩, lawOf_of_regsBut hregs (by decide) (by decide) ti⟩
  · refine runs_of_barWrite ho (vclkEnable · ti) rfl ?_
    have hok : ftwOk (lawOf s ti).ftw = false := by
      rw [← Bool.not_eq_true, ftwOk_iff]
      omega
    rw [vclkEnable_refused hen hok]
    exact vclkRefuse_refused s ti 2
  · refine runs_of_barWrite ho (vclkDisable · ti) rfl ?_
    rw [vclkDisable_idle hen hlive]
    exact ⟨(flag_wr_ne _ _ _ (by decide)).trans (flag_clrF_self _ _ _), flag_clrF_self _ _ _, rfl,
      regsBut_tile_wr (fs := [_, _]) (regsBut_tile_wr (regsBut_refl _ _) (by decide) _) (by decide) _⟩
  · refine runs_of_barWrite ho (vclkDisable · ti) rfl ?_
    rw [vclkDisable_live hen hlive]
    exact ⟨flag_setF_self _ _ rfl, rfl, regsBut_tile_wr (fs := [_]) (regsBut_refl _ _) (by decide) _⟩
  · refine runs_of_barWrite ho (vclkArm · ti) rfl ?_
    rw [vclkArm, vclkArmAt_refused hck]
    exact vclkRefuse_refused s ti cause
  · refine runs_of_barWrite ho (vclkArm · ti) rfl ?_
    rw [vclkArm, vclkArmAt_passed hck]
    obtain ⟨hfr, hin, hout, hlaw⟩ := armApply_setsPend hjob
    exact ⟨hfr, hin, fun u hu => (hout u hu).1, hlaw ti⟩
  · refine runs_of_barWrite ho (vclkCancel · ti) rfl ?_
    rw [vclkCancel_late hc hlate]
    exact vclkRefuse_refused s ti 4
  · refine runs_of_barWrite ho (vclkCancel · ti) rfl ?_
    obtain ⟨hfr, hin, -, -⟩ := vclkCancel_setsPend hc hahead hjob
    exact ⟨hfr, hin⟩

end Sys2Proof.Machine
end

section
/-! PROOFS. The triggers (R163 to R170): an accepted trigger also reaches the teller that holds the ACQUIRER role, where
it can change state that `DigOnly` says stays. -/
namespace Sys2Proof.Machine

/-! ### A lent ACQUIRER with a pending B write -/

/-- Teller 191 holds ACQUIRER for sector 3, has an entry for its DIG event, and is lent to analysis item (0, 0), its
routine before COMMIT (R221). The host has cleared `TIL_TEL_CFG.LEND` meanwhile; as a B field it waits until the teller
leaves the routine (R10, R12). Digitizer 3 is WAITING, and its auto timer runs to the stored sample at 20,480. -/
def lentAcquirer : State :=
  let b := telB 191
  let s := updBoot State.reset fun x => { x with por := false }
  let s1 := wr (wr (setF s b R.TIL_TEL_STAT_LENT) b R.TIL_TEL_STAT_STATE 3) b R.TIL_TEL_STAT_ROLE 4
  let s2 := updTel s1 191 fun x => { x with entries := List.replicate 70 0 ++ [0x8100], item := some (0, 0) }
  let s3 := updDig (wr s2 (secB 3) R.DIG_STAT_STATE 3) 3 fun d => { d with autoAt := some 20480 }
  { s3 with shadow := [(fieldKey b R.TIL_TEL_CFG_LEND 0, 0)] }

/-- The AUTO trigger is accepted, and its DIG event preempts the lent routine: the teller leaves it, so the write of
`LEND` takes effect and waits no more (R12, R221, R224). -/
theorem autoTrigger_lentAcquirer {t : State} (h : exec (.autoTrigger 3) lentAcquirer = .next t) :
    digState t 3 = 4 ∧ telState t 191 = 2 ∧ flag t (telB 191) R.TIL_TEL_CFG_LEND = false ∧ t.shadow = [] := by
  obtain rfl : trigger { updDig lentAcquirer 3 (fun d => { d with autoAt := none }) with now := 20480 } 3 0xA 20480 = t :=
    Host.Outcome.next.inj h
  decide

/-- What a trigger of digitizer q changes of the state holds no pending B write. -/
theorem shadow_of_digOnly {s t : State} {q : Nat} (h : DigOnly s t q) : t.shadow = s.shadow := by
  obtain ⟨hframe, -, -⟩ := h
  rw [hframe]

/-- Refutes O29: its frame `DigOnly` keeps every pending B write, but the DIG event of an accepted trigger makes a lent
ACQUIRER leave its routine, and then the teller's pending B writes take effect. -/
theorem not_triggers : ¬ Obligations.Triggers := by
  unfold Obligations.Triggers
  rintro ⟨-, -, hauto, -, -⟩
  obtain ⟨t, hrun, -, hdig, -⟩ := hauto lentAcquirer 3 20480 (by decide)
  obtain ⟨-, -, -, hshadow⟩ := autoTrigger_lentAcquirer hrun
  have hkept : lentAcquirer.shadow = [] := (shadow_of_digOnly hdig).symm.trans hshadow
  exact absurd hkept (by decide)

end Sys2Proof.Machine
end

section
/-! PROOFS. The outside world (R437, R438, R56): the removal of the probe card in a state in which a write of
`CHN_CTL.CONTACT_OVR` is pending. -/
namespace Sys2Proof.Machine

/-! ### Slices and their register keys -/

/-- The field lies inside a slice's block. -/
def inSlice (f : Field) : Bool := decide (relKey f 0 < 0x400 * 32)

/-- Fields at different places of their blocks have different keys in all slices. -/
theorem sliceKey_ne {f g : Field} (hf : inSlice f = true) (hg : inSlice g = true) (hne : relKey f 0 ≠ relKey g 0) (t p u r : Nat) :
    fieldKey (sliceB t p) f 0 ≠ fieldKey (sliceB u r) g 0 := by
  simp only [inSlice, decide_eq_true_eq] at hf hg
  simp only [fieldKey_eq, sliceB, tileB]
  omega

/-- Fields of different slices have different keys. -/
theorem sliceKey_base_ne {f g : Field} (hf : inSlice f = true) (hg : inSlice g = true) {t p u r : Nat} (hne : sliceB t p ≠ sliceB u r) :
    fieldKey (sliceB t p) f 0 ≠ fieldKey (sliceB u r) g 0 := by
  simp only [inSlice, decide_eq_true_eq] at hf hg
  simp only [fieldKey_eq, sliceB, tileB] at hne ⊢
  omega

theorem mem_allSlices {x : Nat × Nat} (h : x ∈ allSlices) : x.1 < 48 ∧ x.2 < 18 := by
  simp only [allSlices, allTiles, List.mem_flatMap, List.mem_map, List.mem_range] at h
  obtain ⟨t, ht, p, hp, rfl⟩ := h
  exact ⟨ht, hp⟩

/-! ### Operations that find nothing to do -/

/-- Outside a pattern no site becomes SUSPECT (R61). -/
theorem markSuspect_of_not_inRun {s : State} {t : Nat} (h : tileInRun s t = false) (p : Nat) : markSuspect s t p = s := by
  unfold markSuspect
  split <;> simp [h]

theorem pmuAbort_of_idle {s : State} {t p : Nat} (h : (getSlice s t p).pmu = .idle) : pmuAbort s t p = s := by
  simp [pmuAbort, h]

theorem tdcCloseAt_of_noWindow {s : State} {t : Nat} (h : (getTile s t).tdcWin = []) (k : Nat) : tdcCloseAt s t k = s := by
  simp [tdcCloseAt, h, mapGet, mapGet?, List.range_succ]

theorem tdcCloseAll_of_noWindow {s : State} {t : Nat} (h : (getTile s t).tdcWin = []) : tdcCloseAll s t = s :=
  List.foldlRecOn (motive := (· = s)) _ _ rfl fun _ hb k _ => hb ▸ tdcCloseAt_of_noWindow h k

theorem strobesTake_of_noAwait {s : State} {t : Nat} (h : (getTile s t).await = []) : strobesTake s t = s := by
  simp [strobesTake, h]

theorem applyShadow_nil {s : State} (h : s.shadow = []) (lo hi : Nat) : applyShadow s lo hi = s := by
  cases s
  simp only at h
  subst h
  rfl

/-- The only pending write, of a register in the block, takes effect. -/
theorem applyShadow_single {s : State} {k v lo hi : Nat} (h : s.shadow = [(k, v)]) (hlo : lo * 32 ≤ k) (hhi : k < hi * 32) :
    applyShadow s lo hi = { s with regs := mapPut s.regs k v, shadow := [] } := by
  simp [applyShadow, h, mapDropRange, hlo, hhi]

theorem pmu_updSlice (s : State) (t p : Nat) {f : Slice → Slice} (hf : ∀ x, (f x).pmu = x.pmu) (u r : Nat) :
    (getSlice (updSlice s t p f) u r).pmu = (getSlice s u r).pmu := by
  simp only [updSlice, putSlice, getSlice, mapGet_put]
  split
  next h => rw [hf, h]
  next => rfl

/-! ### A gang that a fault finds ARMED -/

/-- A role that no teller of its scope holds changes no register: its event waits (R384). -/
theorem raiseRole_of_noHolder {s : State} {role unit : Nat} (h : holderOf s role unit = none) (e : Nat) :
    ∃ m, raiseRole s role unit e = { s with roleEvts := m } := by
  simp [raiseRole, h]

theorem gangsFault_single {s : State} {l : Nat} {g : Gang} {tiles : List Nat} (hg : s.gangs = [(l, g)]) (hlive : gangLive s g = true)
    (ht : (g.tiles.any fun t => tiles.contains t) = true) (st : Nat) : gangsFault s tiles st = gangFault s l st := by
  simp only [gangsFault, hg, List.filter_cons, hlive, ht, Bool.and_self, if_true, List.filter_nil, List.foldl_cons, List.foldl_nil]

theorem gangFault_armed {s : State} {l : Nat} {g : Gang} (hg : getGang? s l = some g) (hw : g.waiting = false)
    (ha : gangArmed s g = true) (st : Nat) : gangFault s l st = disarm s l g st := by
  simp [gangFault, hg, hw, ha]

/-! ### A pending write of `CONTACT_OVR` -/

/-- A gang of tile 47 alone. -/
def loneGang : Gang :=
  ⟨[47], none, false, 0, none, 0, .dead 0 0, 0, 0, 0, none, [], false, false, none, none, [], none, 0, 0, false, false, false, false, [], [], [],
   [], [], false⟩

/-- Tile 47 is ARMED, slice 0 of it enabled, with a write of the slice's `CONTACT_OVR` = 1 pending. As `CONTACT_OVR` is of class S,
no register access leaves such a write pending (R10); but the statement is about every state, and its `NotPending` names
`DRIVE_LOCK` alone. -/
def overridePending : State :=
  let b := sliceB 47 0
  let s := updBoot State.reset fun x => { x with por := false }
  { setF (wr (setF s glb R.GLB_IO_STAT_CARD) (tileB 47) R.TIL_SEQ_STAT_STATE 2) b R.CHN_CTL_EN with
    shadow := [(fieldKey b R.CHN_CTL_CONTACT_OVR 0, 1)]
    gangs := [(47, loneGang)]
    tiles := [(47, { Tile.reset with gang := some 47 })] }

/-- The registers of the slice that decide the outcome. -/
def heldFields : List Field := [R.CHN_CTL_EN, R.CHN_CTL_CONTACT_OVR, R.CHN_STAT_DRIVE_LOCK]

/-- What of `overridePending` stands until the gang is aborted: the pending write, the gang and its tile, every tile register below
the slices' blocks and the slice's `heldFields`; and nothing is measured. -/
structure Waits (s : State) : Prop where
  shadow : s.shadow = overridePending.shadow
  gangs : s.gangs = overridePending.gangs
  tiles : s.tiles = overridePending.tiles
  idle : ∀ t p, (getSlice s t p).pmu = .idle
  below : ∀ k, tileB 0 * 32 ≤ k → k % (0x20000 * 32) < 0x10000 * 32 → mapGet? s.regs k = mapGet? overridePending.regs k
  held : ∀ f ∈ heldFields, rd s (sliceB 47 0) f = rd overridePending (sliceB 47 0) f

namespace Waits

theorem rd_below {s : State} (h : Waits s) {b : Nat} {f : Field} (hlo : tileB 0 * 32 ≤ fieldKey b f 0)
    (hk : fieldKey b f 0 % (0x20000 * 32) < 0x10000 * 32) : rd s b f = rd overridePending b f := by
  simp only [rd, rdi, mapGet, h.below _ hlo hk]

theorem seqState_eq {s : State} (h : Waits s) (t : Nat) : seqState s t = seqState overridePending t := by
  have hkey : fieldKey (tileB t) R.TIL_SEQ_STAT_STATE 0 = (0x2000000 + t * 0x20000) * 32 + 128 := fieldKey_eq _ _ _
  refine h.rd_below ?_ ?_
  · rw [hkey, tileB]
    omega
  · rw [hkey]
    omega

theorem not_inRun {s : State} (h : Waits s) {t : Nat} (ht : t < 48) : tileInRun s t = false := by
  have hrest : ∀ t, t < 48 → tileInRun overridePending t = false := by decide
  rw [← hrest t ht, tileInRun, tileInRun, h.seqState_eq]

theorem getTile_eq {s : State} (h : Waits s) (t : Nat) : getTile s t = getTile overridePending t := by
  rw [getTile, getTile, h.tiles]

theorem quietTile {s : State} (h : Waits s) (t : Nat) : (getTile s t).await = [] ∧ (getTile s t).tdcWin = [] := by
  rw [h.getTile_eq, getTile, overridePending, mapGet, mapGet?]
  split <;> exact ⟨rfl, rfl⟩

/-- A change of slices and digitizers that begins no measurement. -/
theorem congr {s t : State} (h : Waits s) (ht : t = { s with slices := t.slices, digs := t.digs })
    (hp : ∀ u r, (getSlice t u r).pmu = (getSlice s u r).pmu) : Waits t where
  shadow := (congrArg State.shadow ht).trans h.shadow
  gangs := (congrArg State.gangs ht).trans h.gangs
  tiles := (congrArg State.tiles ht).trans h.tiles
  idle u r := (hp u r).trans (h.idle u r)
  below k hlo hk := (congrArg (mapGet? · k) (congrArg State.regs ht)).trans (h.below k hlo hk)
  held f hf := (rd_of_regs (congrArg State.regs ht) _ f).trans (h.held f hf)

theorem updSlice {s : State} (h : Waits s) (t p : Nat) {f : Slice → Slice} (hf : ∀ x, (f x).pmu = x.pmu) : Waits (updSlice s t p f) :=
  h.congr rfl (pmu_updSlice s t p hf)

theorem loadSync {s : State} (h : Waits s) (t p : Nat) : Waits (loadSync s t p) := h.updSlice t p fun _ => rfl

theorem noteSafe {s : State} (h : Waits s) (c : Nat) : Waits (noteSafe s c) := by
  unfold Machine.noteSafe
  split
  · exact h.congr rfl fun _ _ => rfl
  · exact h

/-- A write of a slice's field that leaves `heldFields` as they read. -/
theorem wr {s : State} (h : Waits s) (t : Nat) {p : Nat} (hp : p < 18) {f : Field} (hf : inSlice f = true) {v : Nat}
    (hheld : ∀ g ∈ heldFields, rd (wr s (sliceB t p) f v) (sliceB 47 0) g = rd s (sliceB 47 0) g) : Waits (wr s (sliceB t p) f v) where
  shadow := h.shadow
  gangs := h.gangs
  tiles := h.tiles
  idle := h.idle
  below k hlo hk := by
    have hne : k ≠ fieldKey (sliceB t p) f 0 := by
      simp only [inSlice, decide_eq_true_eq] at hf
      rw [fieldKey_eq, sliceB, tileB]
      omega
    exact (mapGet?_put_ne s.regs _ hne).trans (h.below k hlo hk)
  held g hg := (hheld g hg).trans (h.held g hg)

theorem wr_global {s : State} (h : Waits s) {f : Field} (hf : relKey f 0 < tileB 0 * 32) (v : Nat) : Waits (Machine.wr s glb f v) where
  shadow := h.shadow
  gangs := h.gangs
  tiles := h.tiles
  idle := h.idle
  below k hlo hk := by
    have hne : k ≠ fieldKey glb f 0 := by
      rw [fieldKey_eq, glb]
      omega
    exact (mapGet?_put_ne s.regs _ hne).trans (h.below k hlo hk)
  held g hg := by
    have hne : fieldKey (sliceB 47 0) g 0 ≠ fieldKey glb f 0 := by
      simp only [fieldKey_eq, glb, sliceB, tileB] at hf ⊢
      omega
    exact (rd_wr_key s v hne).trans (h.held g hg)

/-- A write of another field of a slice. -/
theorem wr_other {s : State} (h : Waits s) (t : Nat) {p : Nat} (hp : p < 18) {f : Field} (hf : inSlice f = true)
    (hne : ∀ g ∈ heldFields, relKey g 0 ≠ relKey f 0) (v : Nat) : Waits (Machine.wr s (sliceB t p) f v) := by
  have hin : ∀ g ∈ heldFields, inSlice g = true := by decide
  exact h.wr t hp hf fun g hg => rd_wr_key s v (sliceKey_ne (hin g hg) hf (hne g hg) 47 0 t p)

theorem cmpRestart {s : State} (h : Waits s) (t : Nat) {p : Nat} (hp : p < 18) : Waits (cmpRestart s t p) := by
  unfold Machine.cmpRestart
  refine updSlice ?_ t p fun _ => rfl
  iterate 3 refine wr_other ?_ t hp (by decide) (by decide) _
  exact h

/-- A slice that is not in RUN enters the safe state (R58, R59). -/
theorem safeEnter {s : State} (h : Waits s) {t p : Nat} (ht : t < 48) (hp : p < 18) : Waits (safeEnter s t p R.CHN_STAT_SC_CARD) := by
  unfold Machine.safeEnter
  rw [markSuspect_of_not_inRun (h.not_inRun ht)]
  have hsafe := (h.wr_other t hp (f := R.CHN_STAT_SC_CARD) (by decide) (by decide) 1).wr_other t hp (f := R.CHN_STAT_SAFE) (by decide) (by decide) 1
  have hoff := hsafe.wr_other t hp (f := R.CHN_PMU_CTL_CONNECT) (by decide) (by decide) 0
  simp only [setF, clrF, pmuAbort_of_idle (hsafe.idle t p)]
  refine updSlice (cmpRestart ?_ t hp) t p fun _ => rfl
  split
  next k _ =>
    have hnote := hoff.noteSafe (t * 16 + k)
    rw [tdcCloseAt_of_noWindow (hnote.quietTile t).2, strobesTake_of_noAwait (hnote.quietTile t).1]
    exact hnote
  next =>
    rw [strobesTake_of_noAwait (hoff.quietTile t).1]
    exact hoff

/-- The drive lock sets: the slice's `CONTACT_OVR` still reads 0. -/
theorem lockDrive {s : State} (h : Waits s) (t : Nat) {p : Nat} (hp : p < 18) : Waits (lockDrive s t p) := by
  unfold Machine.lockDrive
  refine h.wr t hp (by decide) fun g hg => ?_
  have hin : ∀ g ∈ heldFields, inSlice g = true := by decide
  by_cases hb : sliceB t p = sliceB 47 0
  · rw [hb]
    have hclear : flag s (sliceB 47 0) R.CHN_CTL_CONTACT_OVR = false := congrArg (· == 1) (h.held R.CHN_CTL_CONTACT_OVR (by decide))
    have hlock : rd s (sliceB 47 0) R.CHN_STAT_DRIVE_LOCK = 1 := h.held R.CHN_STAT_DRIVE_LOCK (by decide)
    have hcases : ∀ g ∈ heldFields, g = R.CHN_STAT_DRIVE_LOCK ∨ relKey g 0 ≠ relKey R.CHN_STAT_DRIVE_LOCK 0 := by decide
    obtain rfl | hne := hcases g hg
    · rw [rd_wr_self, hclear, hlock]
      rfl
    · exact rd_wr_ne s _ _ hne
  · exact rd_wr_key s _ (sliceKey_base_ne (hin g hg) (by decide) (Ne.symm hb))

end Waits

theorem waits_overridePending : Waits overridePending := ⟨rfl, rfl, rfl, fun _ _ => rfl, fun _ _ _ => rfl, fun _ _ => rfl⟩

/-- What card removal does slice by slice. -/
theorem waits_foldl {s : State} (h : Waits s) {l : List (Nat × Nat)} {f : State → Nat × Nat → State} (hl : ∀ x ∈ l, x.1 < 48 ∧ x.2 < 18)
    (hf : ∀ s x, Waits s → x.1 < 48 → x.2 < 18 → Waits (f s x)) : Waits (l.foldl f s) :=
  List.foldlRecOn _ _ h fun s hs x hx => hf s x hs (hl x hx).1 (hl x hx).2

/-! ### The abort of the gang, and what the pending write then does -/

/-- The pending write has taken effect. -/
structure Applied (s : State) : Prop where
  shadow : s.shadow = []
  noWindow : (getTile s 47).tdcWin = []
  override : flag s (sliceB 47 0) R.CHN_CTL_CONTACT_OVR = true
  locked : flag s (sliceB 47 0) R.CHN_STAT_DRIVE_LOCK = true

namespace Applied

theorem applyShadow {s : State} (h : Applied s) (lo hi : Nat) : Applied (applyShadow s lo hi) := (applyShadow_nil h.shadow lo hi).symm ▸ h

/-- A change of what these registers and the tile's windows do not show. -/
theorem congr {s t : State} (h : Applied s) (hs : t.shadow = s.shadow) (hr : t.regs = s.regs)
    (ht : (getTile t 47).tdcWin = (getTile s 47).tdcWin) : Applied t where
  shadow := hs.trans h.shadow
  noWindow := ht.trans h.noWindow
  override := (flag_of_regs hr _ _).trans h.override
  locked := (flag_of_regs hr _ _).trans h.locked

theorem wr {s : State} (h : Applied s) {b : Nat} {f : Field} (v : Nat)
    (ho : fieldKey (sliceB 47 0) R.CHN_CTL_CONTACT_OVR 0 ≠ fieldKey b f 0) (hl : fieldKey (sliceB 47 0) R.CHN_STAT_DRIVE_LOCK 0 ≠ fieldKey b f 0) :
    Applied (wr s b f v) where
  shadow := h.shadow
  noWindow := h.noWindow
  override := (congrArg (· == 1) (rd_wr_key s v ho)).trans h.override
  locked := (congrArg (· == 1) (rd_wr_key s v hl)).trans h.locked

theorem updSlice {s : State} (h : Applied s) (t p : Nat) (f : Slice → Slice) : Applied (updSlice s t p f) := h.congr rfl rfl rfl

theorem edgesTake {s : State} (h : Applied s) (t p : Nat) : Applied (edgesTake s t p) := by
  unfold Machine.edgesTake
  dsimp only
  split
  · exact h
  · exact h.congr rfl rfl rfl

theorem cmpRestart {s : State} (h : Applied s) (t p : Nat) : Applied (cmpRestart s t p) := by
  unfold Machine.cmpRestart
  refine updSlice ?_ t p _
  iterate 3 refine wr ?_ _ (sliceKey_ne (by decide) (by decide) (by decide) 47 0 t p) (sliceKey_ne (by decide) (by decide) (by decide) 47 0 t p)
  exact h

theorem patternLeave {s : State} (h : Applied s) : Applied (patternLeave s 47) := by
  unfold Machine.patternLeave
  rw [tdcCloseAll_of_noWindow h.noWindow]
  refine List.foldlRecOn _ _ ((h.applyShadow _ _).applyShadow _ _) fun s hs p _ => ?_
  have hedge := hs.edgesTake 47 p
  dsimp only
  split
  · refine updSlice ?_ 47 p _
    split
    · exact (hedge.updSlice 47 p _).cmpRestart 47 p
    · exact hedge.updSlice 47 p _
  · exact hedge

theorem memBoundary {s : State} (h : Applied s) : Applied (memBoundary s) := by
  unfold Machine.memBoundary
  split
  · exact h
  · exact h.applyShadow _ _

theorem gangDone {s : State} (h : Applied s) (st : Nat) : Applied (gangDone s 47 { loneGang with status := st }) := by
  have htile : Applied (updTile (dropGang s 47) 47 fun x => { x with gang := none }) :=
    h.congr rfl rfl (by simp [updTile]; rfl)
  exact htile.wr 0 (by decide) (by decide)

end Applied

/-- The tile's slices take their pending writes as it returns to LOADED (R12). -/
theorem applied_sliceShadows {s : State} (hs : s.shadow = overridePending.shadow) (hw : (getTile s 47).tdcWin = [])
    (hen : flag s (sliceB 47 0) R.CHN_CTL_EN = true) (hl : flag s (sliceB 47 0) R.CHN_STAT_DRIVE_LOCK = true) :
    Applied (sliceShadows s 47) := by
  unfold sliceShadows
  rw [List.range_succ_eq_map, List.foldl_cons, if_pos hen, applyShadow_single hs (by decide) (by decide)]
  refine List.foldlRecOn _ _ ⟨rfl, hw, ?_, ?_⟩ fun s hs p _ => ?_
  · simp [flag, rd, rdi, fieldKey]
  · exact (congrArg (· == 1) (mapGet_put_ne s.regs _ _ (by decide))).trans hl
  · split
    · exact hs.applyShadow _ _
    · exact hs

/-- The tile leaves ARMED: no teller of it is its SEQUENCER, so that the VEC event waits (R384). -/
theorem Waits.setSeqState {s : State} (h : Waits s) :
    ∃ m, setSeqState s 47 1 = { Machine.wr s (tileB 47) R.TIL_SEQ_STAT_STATE 1 with roleEvts := m } := by
  have harmed : rd s (tileB 47) R.TIL_SEQ_STAT_STATE = 2 := h.seqState_eq 47
  have hrest : ∀ n ∈ tellersOfTile 47, tileB 0 * 32 ≤ fieldKey (telB n) R.TIL_TEL_STAT_ROLE 0 ∧
      fieldKey (telB n) R.TIL_TEL_STAT_ROLE 0 % (0x20000 * 32) < 0x10000 * 32 ∧
      fieldKey (telB n) R.TIL_TEL_STAT_ROLE 0 ≠ fieldKey (tileB 47) R.TIL_SEQ_STAT_STATE 0 ∧ telRole overridePending n ≠ 1 := by decide
  have hnone : holderOf (Machine.wr s (tileB 47) R.TIL_SEQ_STAT_STATE 1) 1 47 = none := by
    refine List.find?_eq_none.mpr fun n hn => ?_
    obtain ⟨hlo, hbelow, hne, hrole⟩ := hrest n hn
    rw [telRole, rd_wr_key s 1 hne, h.rd_below hlo hbelow]
    simpa [telRole] using hrole
  simpa [Machine.setSeqState, harmed] using raiseRole_of_noHolder hnone 3

theorem Waits.disarm {s : State} (h : Waits s) (st : Nat) : Applied (disarm s 47 loneGang st) := by
  obtain ⟨m, hm⟩ := h.setSeqState
  have hne : ∀ f ∈ heldFields, ∀ g ∈ [R.TIL_SEQ_STAT_STATE, R.TIL_SEQ_STAT_HOLD_THM],
      fieldKey (sliceB 47 0) f 0 ≠ fieldKey (tileB 47) g 0 := by decide
  have hflag : ∀ f ∈ heldFields, ∀ t : State,
      t.regs = (clrF (Machine.wr s (tileB 47) R.TIL_SEQ_STAT_STATE 1) (tileB 47) R.TIL_SEQ_STAT_HOLD_THM).regs →
      flag t (sliceB 47 0) f = flag overridePending (sliceB 47 0) f := fun f hf t ht => by
    rw [flag_of_regs ht, flag, flag, clrF, rd_wr_key _ _ (hne f hf _ (by decide)), rd_wr_key _ _ (hne f hf _ (by decide)),
      h.held f hf]
  have hloaded : Applied (tilesLoaded s loneGang) := by
    simp only [tilesLoaded, loneGang, List.foldl_cons, List.foldl_nil, hm]
    refine .memBoundary (.patternLeave (applied_sliceShadows h.shadow ?_ ?_ ?_))
    · exact (congrArg Tile.tdcWin (getTile_putTile _ 47 _)).trans (h.quietTile 47).2
    · exact hflag _ (by decide) _ rfl
    · exact hflag _ (by decide) _ rfl
  exact hloaded.gangDone st

theorem Waits.gangsFault {s : State} (h : Waits s) (st : Nat) : Applied (gangsFault s allTiles st) := by
  have harmed : seqState s 47 = 2 := h.seqState_eq 47
  rw [gangsFault_single h.gangs (by simp [gangLive, loneGang, tileLive, harmed]) (by decide),
    gangFault_armed (by rw [getGang?, h.gangs]; rfl) rfl (by simp [gangArmed, loneGang, harmed])]
  exact h.disarm st

/-- Card removal leaves the slice under the drive lock with `CONTACT_OVR` = 1. -/
theorem cardRemoval_overridePending {t : State} (h : exec .cardRemoval overridePending = .next t) : Applied t := by
  obtain rfl : gangsFault _ allTiles 0x03A2 = t := Host.Outcome.next.inj h
  have hremoved := ((waits_overridePending.wr_global (f := R.GLB_IO_STAT_CARD) (by decide) 0).wr_global
    (f := R.GLB_IO_STAT_CARD_RAW) (by decide) 0).wr_global (f := R.GLB_IO_STAT_REMOVED) (by decide) 1
  have hsafe := waits_foldl hremoved (fun _ => mem_allSlices) fun s x hs ht hp => hs.safeEnter ht hp
  have hlock := waits_foldl hsafe (fun _ => mem_allSlices) fun s x hs _ hp => (hs.lockDrive x.1 hp).loadSync x.1 x.2
  exact hlock.gangsFault 0x03A2

/-- Refutes O56, in its part on card removal: the drive lock follows `CONTACT_OVR` as it reads before the gangs are aborted, and
where a write of `CONTACT_OVR` is pending, which the statement does not exclude, the abort then makes it take effect. -/
theorem not_outsideWorld : ¬ Obligations.OutsideWorld := by
  unfold Obligations.OutsideWorld
  intro h
  obtain ⟨-, -, hcard, -⟩ := h overridePending
  have hfree : ∀ f, inSlice f = true → relKey f 0 ≠ relKey R.CHN_CTL_CONTACT_OVR 0 → ∀ t p,
      mapGet? overridePending.shadow (fieldKey (sliceB t p) f 0) = none := fun f hf hne t p =>
    if_neg (sliceKey_ne (by decide) hf (Ne.symm hne) 47 0 t p)
  have hstatus : StatusFree overridePending allSlices R.CHN_STAT_SC_CARD := fun x _ k hk => by
    simp only [List.mem_cons, List.not_mem_nil, or_false] at hk
    obtain rfl | rfl := hk
    · exact hfree _ (by decide) (by decide) _ _
    · exact hfree _ (by decide) (by decide) _ _
  obtain ⟨t, hrun, -, hlock, -⟩ := hcard rfl hstatus
  obtain ⟨-, -, hover, hlocked⟩ := cardRemoval_overridePending hrun
  have hneg := hlock (47, 0) (by simp [allSlices, allTiles]) fun k hk => by
    obtain rfl := List.mem_singleton.mp hk
    exact hfree _ (by decide) (by decide) _ _
  rw [hover, hlocked] at hneg
  exact absurd hneg (by decide)

end Sys2Proof.Machine
end
